-- ==== Sys2Proof/Word.lean ====
section
/-! DEFINITION. The word types of the KS-16 model and their plainest arithmetic. Everything that reads or
writes fields of words stands in Machine/Bits.lean. -/

namespace Sys2Proof

/-- A byte of memory or of a control-space register. -/
abbrev Byte := BitVec 8

/-- A 32-bit word. -/
abbrev W32 := BitVec 32

/-- A 64-bit word: a scalar register (R94) or a control-space register (R48). -/
abbrev W64 := BitVec 64

/-- A LACC-96 pattern (R172). -/
abbrev Lacc := BitVec 96

/-- A vector register: 64 lanes of 32 bits, lane i in bits [32i+31:32i] (R94). -/
abbrev VReg := BitVec 2048

/-- A sparse table: pairs of a key and a value, keys strictly rising. What an unlisted key reads as is said
where the table is used. -/
abbrev Tbl (V : Type) := List (Nat × V)

end Sys2Proof
end

