-- ==== Sys2Proof/Machine/Bits.lean ====
section
/-! DEFINITION. Bit fields, sign extension and byte order (R6), and the serial-number comparison of R55. -/

namespace Sys2Proof.Machine

/-- Bits [hi:lo] of a natural number (R6). -/
def bits (n hi lo : Nat) : Nat := (n >>> lo) % 2 ^ (hi + 1 - lo)

/-- Bit i of a natural number. -/
def bit (n i : Nat) : Bool := n.testBit i

/-- A Bool as the number 0 or 1. -/
def b2n (b : Bool) : Nat := if b then 1 else 0

/-- Replace bits [hi:lo] of n by the low bits of v. -/
def putBits (n hi lo v : Nat) : Nat :=
  n - (bits n hi lo) * 2 ^ lo + (v % 2 ^ (hi + 1 - lo)) * 2 ^ lo

/-- Field [hi:lo] of a 64-bit register. -/
def getField (w : W64) (hi lo : Nat) : Nat := bits w.toNat hi lo

/-- A 64-bit register with field [hi:lo] replaced. -/
def setField (w : W64) (hi lo v : Nat) : W64 := BitVec.ofNat 64 (putBits w.toNat hi lo v)

/-- The two's-complement value of the low `w` bits of n. -/
def signed (w n : Nat) : Int :=
  let m := n % 2 ^ w
  if m < 2 ^ (w - 1) then (m : Int) else (m : Int) - (2 ^ w : Nat)

/-- The low `w` bits of an integer in two's complement, as a number. -/
def unsigned (w : Nat) (i : Int) : Nat := (i % ((2 ^ w : Nat) : Int)).toNat

/-- The little-endian number a list of bytes spells (R6). -/
def leNat : List Byte → Nat
  | [] => 0
  | b :: bs => b.toNat + 256 * leNat bs

/-- The n bytes of a number, little-endian (R6). -/
def leBytes : Nat → Nat → List Byte
  | 0, _ => []
  | n + 1, v => BitVec.ofNat 8 v :: leBytes n (v / 256)

/-- n bytes of a byte list from offset o; bytes beyond the end read 0. -/
def bytesAt (bs : List Byte) (o n : Nat) : List Byte :=
  let t := (bs.drop o).take n
  t ++ List.replicate (n - t.length) 0

/-- The little-endian number of n bytes at offset o of a byte list. -/
def leAt (bs : List Byte) (o n : Nat) : Nat := leNat ((bs.drop o).take n)

/-- The serial-number comparison of R55: -1 precedes, 0 equal, 1 follows, 2 incomparable. -/
def serialCmp (a b : W32) : Int :=
  let d := (b - a).toNat
  if d = 0 then 0
  else if d = 0x80000000 then 2
  else if d < 0x80000000 then -1
  else 1

/-- Split a list into pieces of n elements (the last may be shorter), at most `fuel` of them. -/
def chunks {α : Type} (n : Nat) : Nat → List α → List (List α)
  | 0, _ => []
  | _ + 1, [] => []
  | f + 1, l => l.take n :: chunks n f (l.drop n)

/-- The ceiling of a / b. -/
def ceilDiv (a b : Nat) : Nat := (a + b - 1) / b

/-- Is a a multiple of n? -/
def aligned (n a : Nat) : Bool := a % n == 0

end Sys2Proof.Machine
end

