-- ==== Sys2Proof/Config.lean ====
section
/-! DEFINITION. What an implementation fixes and the free values. The constants without a body are the values the spec
leaves open: nothing can be proved about which value they take. A constant that takes a stamp is applied to the
counter State.free, so that each use is a fresh value. -/

namespace Sys2Proof.Config

/-- A byte of memory whose contents are undefined: stamp of the extent, address (R34, R82, R213). DESIGN CHOICE: log entry 7. -/
opaque freeByte : Nat → Nat → Byte

/-- A vector register whose contents are not retained: stamp, register (R76). DESIGN CHOICE: log entry 7. -/
opaque freeVreg : Nat → Nat → VReg

/-- A choice of the hardware that the spec leaves open (a pseudo-LRU way, R215; a forced miss, R444): stamp, bound. DESIGN CHOICE: log entry 7. -/
opaque freeChoice : Nat → Nat → Nat

/-- A word the spec leaves open: stamp. DESIGN CHOICE: log entry 7. -/
opaque freeWord : Nat → W64

/-- The next word of a Bruise LFSR (R443 gives its width and seed, not its taps). DESIGN CHOICE: log entry 7. DEDUCED: log entry 52. -/
opaque lfsrNext : W64 → W64

/-- The target status that GETSTATUS returns, which the spec does not state (R496): stamp. DESIGN CHOICE: log entry 7. DEDUCED: log entry 73. -/
opaque targetStatus : Nat → BitVec 16

/-- The module's serial number (R69, R471). -/
opaque serial : W64

/-- Calibration constants of PWM_CAL as measured at manufacture, in W (R387): p_idle, span, pulp_max. DEDUCED: log entry 67. -/
opaque calIdle : BitVec 16
opaque calSpan : BitVec 16
opaque calPulp : BitVec 16

/-- The layout of PWT_DOMAIN_d, service registers whose bits the spec does not give (R381): voltage in mV, current in 0.1 A, and phases
in service. DESIGN CHOICE: log entry 7. DEDUCED: log entry 65. -/
opaque domainWord : Nat → Nat → Nat → W64

/-- The next word of an array's pulp generator, whose taps and seed the spec does not give (R152). DESIGN CHOICE: log entry 7. DESIGN CHOICE: log entry 92. -/
opaque pulpNext : W64 → W64

/-- Bytes per element of the state tensors master, s1 and s2 of the rule in a slot other than 0, which the spec leaves to the rule (R317):
slot, tensor 0 to 2. DESIGN CHOICE: log entry 7. DEDUCED: log entry 54. -/
opaque stateBytes : Nat → Nat → Nat

/-- What the monitor gives a rule that R314 leaves open: the return address; where in scratch the descriptor's copy and the capture record
lie, the record's bytes before the call, and how its fields are read back (amax_w, amax_g, flushes, saturations, nonfinite). DESIGN CHOICE: log entry 7. -/
opaque ruleReturn : W64
opaque descriptorAt : Nat
opaque captureAt : Nat
opaque captureInit : List Byte
opaque captureFields : (Nat → Byte) → W32 × W32 × Nat × Nat × Bool

/-- A byte of a hart's scratch, or of rule memory outside the loaded texts, that nothing has written (R311): hart or 16, offset. DESIGN CHOICE: log entry 6. DESIGN CHOICE: log entry 7. -/
opaque hartByte : Nat → Nat → Byte

/-- Class of the rule fault that a trap amounts to for which R311 and R314 name none (an illegal instruction, an environment call, a
breakpoint): its RISC-V cause. DESIGN CHOICE: log entry 7. -/
opaque trapClass : Nat → Nat

/-- Thermal class of a tower as measured at manufacture (R406). DEDUCED: log entry 67. -/
opaque thermalClass : Nat → Fin 3

/-- Coefficients of the layer model of a tower, FP32 (R403): kind 0 th, 1 w_dn, 2 w_up, 3 r; tower, layer. DEDUCED: log entry 67. -/
opaque thermCoeff : Nat → Nat → Nat → W32

/-- SLH-DSA of FIPS 205, which the spec names and does not define: verification under a public key with a context and
a message, and signing by the module's identity key (R453, R474). DEDUCED: log entry 70. -/
opaque slhVerify : List Byte → List Byte → List Byte → List Byte → Bool
opaque slhSign : List Byte → List Byte → List Byte

/-- The firmware key digest in secure key storage (R453), the identity public key, and the endorsement (R471). DEDUCED: log entry 70. -/
opaque keyDigest : List Byte
opaque identityPk : List Byte
opaque endorsement : List Byte

/-- The manufacturing area of the flash (R450, R472), and whether it passes its digest (R456). DEDUCED: log entry 70. -/
opaque manufacturing : List Byte
opaque manufacturingOk : Bool

/-- The security version floor in one-time storage at the first boot (SEC_FW_STATE.min_svn). -/
opaque minSvn : Byte

/-- The image the flash slot holds before the first cold boot. -/
opaque flashImage : List Byte

end Sys2Proof.Config
end

