-- ==== Sys2Proof/Syntax.lean ====
section
/-! DEFINITION. The commands the KS-16 block takes: one constructor per row of the opcode table, with the row's
operands. A KCI instruction arrives as a command of the core that issues it; an event of the module's own engines
(an engine command completes, a barrier releases, a tick of the governor) arrives as a command whose operands name
the unit and carry what the spec leaves to the world outside the model. -/

namespace Sys2Proof

/-- The KCI opcodes (R108, R110, R113, R114). -/
inductive KOp where
  | add | addi | sub | mul | mulhu | divu | remu | and | or | xor | shl | shr | sar | shi | li | lih | cmp | plog
  | pmov | ptos | mfs | ldp | ld8 | ld16 | ld32 | ld64 | st8 | st16 | st32 | st64 | br | bnzd | jr
  | vadd | vsub | vmul | vfma | vmax | vmin | vsfu | vcmp | vmov | viadd | vlogic | vshift | vcvt | vcvtw
  | vrsum | vrmax | vbcl | vperm
  | mpcfg | mmask | mwld | mswap | mmac | mclr | mst | mrdv | mlda | mgang
  | vld | vst | movsv | movvs | dma | dmar | pref | sig | arrive | wait | commit | attcmd | pfxwalk | rowop
  | rowmodeEnter | rowmodeExit | coll | rwake | rsleep
deriving DecidableEq, Repr

/-- One KCI instruction as a core is sent it: the core, the slot of the bundle it stands in (R96: 0 C, 1 M, 2 V, 3 X) and its
64-bit word, whose fields stand as R103 says. `last` closes the bundle: the
instructions sent to a core since the last closed bundle issue together with this one (R96, R97). `gap` counts the
bundles of NOPs that the core issued before this bundle, and `stall` the CCLK its issue was stopped before it. -/
structure Ins where
  core : BitVec 12
  slot : BitVec 2
  word : W64
  last : Bool
  gap : Nat
  stall : Nat
deriving DecidableEq, Repr

/-- Who makes a control-space access (R45, R48, R497). -/
inductive Who where
  | host
  | stone
  | pith (tower : BitVec 4)
  | i3c
  | hart (idx : BitVec 4)
deriving DecidableEq, Repr

/-- A control-space read: the BAR0 offset and the number of bytes asked for. `bar4` marks a host read of BAR4 (R87). -/
structure RegRd where
  bar4 : Bool
  off : BitVec 31
  size : Nat
deriving DecidableEq, Repr

/-- The control-space accesses of one requester: the reads it makes, in order, and then a write of `size` bytes at a BAR0 offset
with its data; size 0 writes nothing (R43 to R48). `bar4` marks a host write to BAR4 (R87, R480). DESIGN CHOICE: log entry 86. -/
structure RegWr where
  who : Who
  reads : List RegRd
  bar4 : Bool
  off : BitVec 31
  size : Nat
  data : W64
deriving DecidableEq, Repr

/-- A configuration request of the host: a dword of configuration space, and the value written; none reads it. -/
structure CfgReq where
  reg : BitVec 10
  write : Option W32
deriving DecidableEq, Repr

/-- Data read from the host: the bytes that arrived, and the 32-byte groups (by index) that arrived poisoned, because
EP was set or the read ended in a Completion Timeout or an unsuccessful completion (R420, R486). -/
structure HostData where
  bytes : List Byte
  poison : List Nat
deriving DecidableEq, Repr

/-- What array feeders read from the host window: module addresses, each with the bytes that arrived from there on (R137, R484). -/
abbrev HostFeed := List (BitVec 48 × HostData)

/-- Where an array's own check finds an error (R152, R155): in circuits that no partition owns (queues, sequencer, mode, masks, rebuild
log), on a pulp vector, or within partition p, in a physical column when the check names one. -/
inductive CheckSite where
  | shared
  | pulp
  | part (p : BitVec 2) (column : Option (BitVec 7))
deriving DecidableEq, Repr

/-- A check error of an array (R155, R159): its site, whether the command that a rebuild executes again met it in the same column again,
whether it struck a partition that is rebuilding, and, where the command at fault is an MST, its place among the commands under way
and the number of rows it had stored. -/
structure CheckErr where
  site : CheckSite
  again : Bool
  rebuilding : Bool
  mst : Option (Nat × Nat)
deriving DecidableEq, Repr

/-- A lockstep mismatch of ganged mode (R164): the vector counted since MGANG, the bank row and the physical column. -/
structure GangHit where
  vector : BitVec 16
  row : BitVec 6
  column : BitVec 7
deriving DecidableEq, Repr

/-- A unit of Stone's record (R438, R440): kind 0 core, 1 column, 2 slice, 3 array, 4 port, 5 hart, 6 region; its tower
and its index. -/
structure UnitId where
  kind : BitVec 4
  tower : BitVec 4
  idx : Nat
deriving DecidableEq, Repr

/-- What a unit answers to a state probe (R438). -/
structure Identity where
  answered : Bool
  position : Nat
  gen : W32
  state : BitVec 8
deriving DecidableEq, Repr

/-- The header of an Idger message (R341). -/
structure Header where
  lines : BitVec 2
  dest : BitVec 16
  src : BitVec 16
  srcTower : BitVec 4
  dstTower : BitVec 4
  fmt : BitVec 8
  addr : BitVec 48
  id : BitVec 16
  poison : BitVec 16
  status : BitVec 16
  step : W32
deriving DecidableEq, Repr

/-- A message received on an Idger link: the link, its hop class there (R340), the header and the data. -/
structure Msg where
  link : BitVec 6
  hop : BitVec 3
  hdr : Header
  data : List Byte
deriving DecidableEq, Repr

/-- The matrix that a library rule inverts (R326): its order, its elements row by row and λ, as FP64 patterns. -/
structure Damped where
  n : Nat
  a : List W64
  lam : W64
deriving DecidableEq, Repr

/-- What an invocation of a library rule did on a hart (R314, R315): its return value, the writes it staged to module memory, the
prologue's new bytes 64 to 127 of the group descriptor, its captures (FP32 patterns and counts), and the damping retries it used; the
matrix, where the rule is one that inverts a matrix. -/
structure RuleRun where
  ret : Nat
  writes : List (BitVec 48 × List Byte)
  area : List Byte
  amaxW : W32
  amaxG : W32
  flushes : Nat
  sats : Nat
  nonfin : Bool
  retries : Nat
  damped : Option Damped
deriving DecidableEq, Repr

/-- An error that a core's circuits report: its kind, an index among the kind's sites, and the nine bits read back of the byte that failed
its parity check (R412). Kinds: 0 register file, datapath, feeder, queue or an L1 byte that the core reads itself; 1 instruction memory;
2 clean and 3 dirty L1 bytes; 4 and 5 a fault of array 0 or 1 that it cannot contain; 6 the attention engine's command numbered by the index
among those of the core in progress. -/
structure CoreErr where
  kind : BitVec 8
  idx : BitVec 8
  bits : BitVec 9
deriving DecidableEq, Repr

/-- How an invocation went wrong (R328, R329), when it did: a parity error with the nine bits read back (R412); of a library rule whose
text the spec does not give, poison at a module address that it read, or a rule fault. -/
inductive InvErr where
  | none
  | parity (bits : BitVec 9)
  | poison (addr : BitVec 48)
  | rule (cls : BitVec 8) (addr : BitVec 48)
deriving DecidableEq, Repr

/-- Stage outcomes that bring-up learns from the hardware (R455, R456): units that failed (kind 0 core, 1 column,
2 region, 3 port, 4 slow-tier channel; tower; index), groups of training with their present serial numbers and
temperatures and the peer trains fast and the verification passed, the locked lanes of links that did not lock all 9, and a cause for FAULT. -/
structure StageRun where
  failed : List (Nat × BitVec 4 × Nat)
  groups : List (BitVec 2 × Nat × List Nat × Int × Bool × Bool)
  lanes : List (BitVec 6 × BitVec 9)
  fault : BitVec 8
deriving DecidableEq, Repr

/-- A link partner's IDENT (R349). -/
structure IdentMsg where
  serial : W64
  link : BitVec 6
  stepping : Byte
  major : Byte
  minor : Byte
  device : BitVec 16
  /-- Transmit timestamp, and the echoed timestamp of this end's last IDENT with the peer's receive delay. -/
  sent : W64
  echo : W64
  held : W64
deriving DecidableEq, Repr

/-- The commands: one constructor per row of the opcode table. -/
inductive Instr where
  -- bring-up and reset
  | pwrgdRise (straps : BitVec 4)
  | bringUpStage (code : BitVec 8) (run : StageRun)
  | endpointReady
  | runEntry
  | progressFrame
  | faultPattern
  | trainingCacheSave
  | recoveryLoad (first second : HostData)
  | firmwareUpdate (first second : HostData)
  | perstLAssert
  | hotReset
  | pwrgdFall
  -- host link
  | pcieLinkTraining (rate : BitVec 3) (width : BitVec 5) (flit : Bool)
  | busMasterEnable (bme d3hot : Bool) (reqs : List CfgReq)
  | bar2Resize (log2 : BitVec 6)
  | bar2Access (write : Bool) (off : BitVec 42) (len : BitVec 13) (be : List Bool) (data : HostData)
  | ptmDialog (hostTime : W64) (delay : W32)
  | ptmLost
  | doeRequest (payload : List Byte)
  -- I3C
  | entdaa (addr : BitVec 7)
  | setdasa (static addr : BitVec 7)
  | rstdaa
  | enec
  | disec
  | getpid
  | getbcr
  | getdcr
  | getstatus
  | getmwl
  | getmrl
  | setmwl (len : BitVec 16)
  | setmrl (len : BitVec 16)
  | i3cRead4 (addr : BitVec 7) (off : W32)
  | i3cRead8 (addr : BitVec 7) (off : W32)
  | i3cWrite4 (addr : BitVec 7) (off : W32) (data : W32)
  | i3cWrite8 (addr : BitVec 7) (off : W32) (data : W64)
  | privateRead (addr : BitVec 7)
  | inBandInterrupt
  -- host commands
  | cmdTail (tail : W32)
  | recHead (head : W32)
  | commandEntryRead (entry : HostData) (failed : Bool)
  | nop
  | loadPlan
  | planImageCopied (index : W32) (image : HostData)
  | launchPlan
  | planStart
  | abortPlan
  | unloadPlan
  | copy (src : HostData)
  | fence
  | setProfile (record : HostData)
  | query
  | completionRecord
  | noticeRecord
  -- plans, steps and replay
  | stepCommit
  | stepWatchdog
  | replay (core : BitVec 12) (error : Option CoreErr)
  | spareSubstitution (core : BitVec 12)
  | stepWideReplay (cause : BitVec 4) (tower : BitVec 4) (idx : BitVec 9)
  | coreDiagnosis (tower : BitVec 4) (core : BitVec 9) (pass : Bool) (bad0 bad1 : BitVec 128)
  -- C slot
  | add (i : Ins) | addi (i : Ins) | sub (i : Ins) | mul (i : Ins) | mulhu (i : Ins) | divu (i : Ins)
  | remu (i : Ins) | and (i : Ins) | or (i : Ins) | xor (i : Ins) | shl (i : Ins) | shr (i : Ins)
  | sar (i : Ins) | shi (i : Ins) | li (i : Ins) | lih (i : Ins) | cmp (i : Ins) | plog (i : Ins)
  | pmov (i : Ins) | ptos (i : Ins) | mfs (i : Ins) | ldp (i : Ins)
  | ld8 (i : Ins) | ld16 (i : Ins) | ld32 (i : Ins) | ld64 (i : Ins)
  | st8 (i : Ins) | st16 (i : Ins) | st32 (i : Ins) | st64 (i : Ins)
  | br (i : Ins) | bnzd (i : Ins) | jr (i : Ins)
  | loadReturn (core : BitVec 12) (host : HostData)
  | storePerformed (core : BitVec 12)
  -- V slot
  | vadd (i : Ins) | vsub (i : Ins) | vmul (i : Ins) | vfma (i : Ins) | vmax (i : Ins) | vmin (i : Ins)
  | vsfu (i : Ins) | vcmp (i : Ins) | vmov (i : Ins) | viadd (i : Ins) | vlogic (i : Ins) | vshift (i : Ins)
  | vcvt (i : Ins) | vcvtw (i : Ins) | vrsum (i : Ins) | vrmax (i : Ins) | vbcl (i : Ins) | vperm (i : Ins)
  -- M slot and the arrays' own events
  | mpcfg (i : Ins) | mmask (i : Ins) | mwld (i : Ins)
  | mwldStart (core : BitVec 12) (arr : BitVec 1) (host : HostFeed)
  | mswap (i : Ins) | mmac (i : Ins) | mclr (i : Ins) | mst (i : Ins) | mrdv (i : Ins) | mlda (i : Ins)
  | mgang (tower : BitVec 4) (core : BitVec 9) (service : Bool) (found : List GangHit) (i : Ins)
  | arrayDispatch (core : BitVec 12) (arr : BitVec 1) (host : HostFeed)
  | arrayCommandCompletion (core : BitVec 12) (arr : BitVec 1) (k : Nat)
  | partitionRebuild (core : BitVec 12) (arr : BitVec 1) (err : CheckErr) (host : HostFeed)
  -- X slot and the events of engine commands, tokens and barriers
  | vld (i : Ins) | vst (i : Ins) | movsv (i : Ins) | movvs (i : Ins)
  | dma (i : Ins) | dmar (i : Ins) | pref (i : Ins) | sig (i : Ins)
  | sigDelivery (target : BitVec 12)
  | arrive (i : Ins)
  | barrierRelease (scope : BitVec 2) (group : BitVec 8)
  | wait (i : Ins) | commit (i : Ins) | attcmd (i : Ins) | pfxwalk (i : Ins) | rowop (i : Ins)
  | rowmodeEnter (i : Ins) | rowmodeExit (i : Ins) | coll (i : Ins) | rwake (i : Ins) | rsleep (i : Ins)
  | engineCommandCompletion (core : BitVec 12) (k : Nat) (host : HostData)
  -- attention engine
  | softmax (tower cluster : BitVec 4) | recomp (tower cluster : BitVec 4) | accum (tower cluster : BitVec 4)
  | merge (tower cluster : BitVec 4) | gather (tower cluster : BitVec 4) | append (tower cluster : BitVec 4)
  | attach (tower cluster : BitVec 4) | fork (tower cluster : BitVec 4) | drop (tower cluster : BitVec 4)
  | ringfill (tower cluster : BitVec 4)
  -- Rowan and the vertical channels
  | rowanAnd (tower : BitVec 4) (chan : BitVec 9) | rowanOr (tower : BitVec 4) (chan : BitVec 9)
  | rowanXor (tower : BitVec 4) (chan : BitVec 9) | rowanNot (tower : BitVec 4) (chan : BitVec 9)
  | rowanMaj (tower : BitVec 4) (chan : BitVec 9) | rowanClone (tower : BitVec 4) (chan : BitVec 9)
  | fill0 (tower : BitVec 4) (chan : BitVec 9) | fill1 (tower : BitVec 4) (chan : BitVec 9)
  | regeneration (tower : BitVec 4) (chan : BitVec 9) (die : BitVec 3) (bank : BitVec 4) (want : Option (BitVec 18))
  | rowanOrdinaryAccess (write : Bool) (addr : BitVec 48) (data : HostData)
  | lineClone (tower : BitVec 4) (chan : BitVec 9) (src dst : BitVec 18) (first : BitVec 4) (n : BitVec 5)
  | maintenanceWindow (tower : BitVec 4) (chan : BitVec 9) (bondFails : Bool) (fits : Bool)
  | normalRefresh (tower : BitVec 4) (chan : BitVec 9)
  | columnMigration (tower : BitVec 4) (chan : BitVec 9)
  -- caches and tiers
  | l1Miss (core : BitVec 12) (addr : BitVec 48)
  | ownershipGrant (core : BitVec 12)
  | sliceFill (addr : BitVec 48)
  | reduceAdd (tower : BitVec 4) (slice : BitVec 9)
  | forcedEviction (addr : BitVec 48)
  | cmemRead (addr : BitVec 48)
  | slowTierAccess (write : Bool) (addr : BitVec 48) (len : BitVec 8) (data : HostData) (corr : Nat)
  | slowTierScrub (chan : BitVec 5) (corr : Nat)
  -- Quince
  | ruleLoad (slot : BitVec 6)
  | jobStart (job : Nat)
  | invocation (job : Nat) (group : Nat) (chunk : Nat) (hart : BitVec 4) (steps : Nat) (err : InvErr) (run : RuleRun)
  -- the Idger fabric
  | ident (link : BitVec 6) (m : IdentMsg) (received : W64)
  | time (link : BitVec 6) (reply : Bool) (t1 t2 t3 t4 : W64)
  | timeExchange
  | timeUnlock
  | barrier (m : Msg)
  | cap (m : Msg)
  | failover (m : Msg)
  | read (m : Msg) | write (m : Msg) | reduce (m : Msg) | readResp (m : Msg) | ack (m : Msg) | put (m : Msg)
  | tag (m : Msg)
  | tunnel (vc : BitVec 2) (m : Msg)
  | linkFailure (link : BitVec 6) (cause : BitVec 3)
  | laneSpare (link : BitVec 6) (lane : BitVec 3)
  | linkRetrain (link : BitVec 6) (lanes : Option (BitVec 9))
  | fabricEnable (who : Who) (data : W64)
  | fabricDisable (who : Who) (data : W64)
  | collPut (tower : BitVec 4) | collWait (tower : BitVec 4) | collAdd (tower : BitVec 4) | collCopy (tower : BitVec 4)
  | flit (link : BitVec 6) (lanes : List (List (BitVec 2)))
  -- power and heat
  | telemetryTick (input : List (BitVec 16 × BitVec 16)) (volts phases : List (BitVec 16))
  | inputGuardStep
  | emergencyRelease (source : Option (BitVec 8))
  | thermalEmergencyStep (region : BitVec 8)
  | thermalTrip (region : BitVec 8)
  | capNoticeRepeat
  | followEntryExpiry (origin : BitVec 16)
  | plannedReductionForced (source : BitVec 6)
  | phaseLoss (tower : BitVec 4) (domain : BitVec 4) (phase : BitVec 6)
  | converterLoss (i : BitVec 3)
  | undervoltageStop
  | overvoltageStop
  | sensorSample (tower : BitVec 4) (readings : List (Option Int))
  | coolantRead (inlet outlet : Int) (flow : BitVec 16)
  | coolantShutdown
  | regionWakeComplete (region : BitVec 8)
  -- integrity
  | hopRetry (tower : BitVec 4) (router : BitVec 9) (hop : BitVec 3) (src dst : BitVec 9) (flit : List (BitVec 9))
  | routerDead (tower : BitVec 4) (router : BitVec 9) (atBringUp : Bool)
  | stnTowerReset (who : Who) (towers : BitVec 16)
  | heartbeatTimeout (tower : BitVec 4)
  | pllLossOfLock (tower : BitVec 4)
  | pithUncorrectableError (tower : BitVec 4)
  | stateProbe (u : UnitId) (answer : Identity)
  -- Bruise
  | injectSingleBit (tower : BitVec 4) | injectDoubleBit (tower : BitVec 4) | injectPoisonAtRest (tower : BitVec 4)
  | injectPoisonInFlight (tower : BitVec 4) | injectParityError (tower : BitVec 4)
  | beyondSet (who : Who) (tower : BitVec 4) | beyondClear (who : Who) (tower : BitVec 4)
  -- register writes with rows of their own, and all others
  | cntOvf (who : Who) (off : BitVec 31) (data : W64)
  | pthWindowCfg (who : Who) (tower : BitVec 4) (data : W32)
  | pciHostWinBase (who : Who) (data : W64)
  | pciBar2Win (who : Who) (data : W64)
  | stnCmdRingCfg (who : Who) (data : W32)
  | stnRecCfg (who : Who) (data : W32)
  | ceLogCtl (who : Who) (off : BitVec 31) (data : W32)
  | arrBadCols (who : Who) (tower : BitVec 4) (core : BitVec 9) (arr : BitVec 1) (data : BitVec 128)
  | registerWrite (w : RegWr)
  -- host link events added by the last chapter
  | completionTimeout (read : Nat)
  | memorySpaceEnable (on : Bool)
  | runPhasePins
  | i3cTargetReady
  | input50vApplied
deriving DecidableEq, Repr

end Sys2Proof
end

