-- ==== Sys2Proof/Machine/KciWord.lean ====
section
/-! DEFINITION. The 64-bit KCI instruction word (R103): its fields, the opcodes of the four slots (R104, R108, R110, R113, R114), the
opcode that a word spells in its slot, and the word of an opcode with its fields. -/

namespace Sys2Proof

/-- The fields of the common layout (R103). -/
def Ins.opcode (i : Ins) : Nat := (i.word.extractLsb' 56 8).toNat
def Ins.pg (i : Ins) : BitVec 3 := i.word.extractLsb' 53 3
def Ins.gn (i : Ins) : Bool := i.word.getLsbD 52
def Ins.d (i : Ins) : BitVec 5 := i.word.extractLsb' 47 5
def Ins.a (i : Ins) : BitVec 5 := i.word.extractLsb' 42 5
def Ins.b (i : Ins) : BitVec 5 := i.word.extractLsb' 37 5
def Ins.c (i : Ins) : BitVec 5 := i.word.extractLsb' 32 5
def Ins.imm (i : Ins) : BitVec 32 := i.word.extractLsb' 0 32

/-- The slot of an opcode (R96, R104): 0 C, 1 M, 2 V, 3 X. -/
def slotOf : KOp → Nat
  | .mpcfg | .mmask | .mwld | .mswap | .mmac | .mclr | .mst | .mrdv | .mlda | .mgang => 1
  | .vadd | .vsub | .vmul | .vfma | .vmax | .vmin | .vsfu | .vcmp | .vmov | .viadd | .vlogic | .vshift | .vcvt
  | .vcvtw | .vrsum | .vrmax | .vbcl | .vperm => 2
  | .vld | .vst | .movsv | .movvs | .dma | .dmar | .pref | .sig | .arrive | .wait | .commit | .attcmd | .pfxwalk
  | .rowop | .rowmodeEnter | .rowmodeExit | .coll | .rwake | .rsleep => 3
  | _ => 0

/-- The opcode numbers of the tables (R108, R110, R113, R114). ROWMODE is one opcode: imm[0] tells its two rows apart. -/
def opcodeOf : KOp → Nat
  | .add => 0x01 | .addi => 0x02 | .sub => 0x03 | .mul => 0x04 | .mulhu => 0x05 | .divu => 0x06 | .remu => 0x07
  | .and => 0x08 | .or => 0x09 | .xor => 0x0A | .shl => 0x0B | .shr => 0x0C | .sar => 0x0D | .shi => 0x0E
  | .li => 0x10 | .lih => 0x11 | .cmp => 0x12 | .plog => 0x13 | .pmov => 0x14 | .ptos => 0x15 | .mfs => 0x16
  | .ldp => 0x17 | .ld8 => 0x18 | .ld16 => 0x19 | .ld32 => 0x1A | .ld64 => 0x1B | .st8 => 0x1C | .st16 => 0x1D
  | .st32 => 0x1E | .st64 => 0x1F | .br => 0x20 | .bnzd => 0x21 | .jr => 0x22
  | .mpcfg => 0x40 | .mmask => 0x41 | .mwld => 0x42 | .mswap => 0x43 | .mmac => 0x44 | .mclr => 0x45 | .mst => 0x46
  | .mrdv => 0x47 | .mlda => 0x48 | .mgang => 0x4F
  | .vadd => 0x80 | .vsub => 0x81 | .vmul => 0x82 | .vfma => 0x83 | .vmax => 0x84 | .vmin => 0x85 | .vsfu => 0x86
  | .vcmp => 0x87 | .vmov => 0x88 | .viadd => 0x89 | .vlogic => 0x8A | .vshift => 0x8B | .vcvt => 0x8C | .vcvtw => 0x8D
  | .vrsum => 0x8E | .vrmax => 0x8F | .vbcl => 0x90 | .vperm => 0x91
  | .vld => 0xC0 | .vst => 0xC1 | .movsv => 0xC2 | .movvs => 0xC3 | .dma => 0xC4 | .dmar => 0xC5 | .pref => 0xC6
  | .sig => 0xC7 | .arrive => 0xC8 | .wait => 0xC9 | .commit => 0xCA | .attcmd => 0xCB | .pfxwalk => 0xCC | .rowop => 0xCD
  | .rowmodeEnter => 0xCE | .rowmodeExit => 0xCE | .coll => 0xCF | .rwake => 0xD0 | .rsleep => 0xD1

/-- The opcodes of each slot. -/
def cOps : List KOp :=
  [.add, .addi, .sub, .mul, .mulhu, .divu, .remu, .and, .or, .xor, .shl, .shr, .sar, .shi, .li, .lih, .cmp, .plog,
    .pmov, .ptos, .mfs, .ldp, .ld8, .ld16, .ld32, .ld64, .st8, .st16, .st32, .st64, .br, .bnzd, .jr]
def mOps : List KOp := [.mpcfg, .mmask, .mwld, .mswap, .mmac, .mclr, .mst, .mrdv, .mlda, .mgang]
def vOps : List KOp :=
  [.vadd, .vsub, .vmul, .vfma, .vmax, .vmin, .vsfu, .vcmp, .vmov, .viadd, .vlogic, .vshift, .vcvt, .vcvtw, .vrsum,
    .vrmax, .vbcl, .vperm]
def xOps : List KOp :=
  [.vld, .vst, .movsv, .movvs, .dma, .dmar, .pref, .sig, .arrive, .wait, .commit, .attcmd, .pfxwalk, .rowop,
    .rowmodeEnter, .rowmodeExit, .coll, .rwake, .rsleep]

/-- Every opcode of the tables. -/
def allOps : List KOp := cOps ++ mOps ++ vOps ++ xOps

/-- Does the word spell the opcode in its slot? The two rows of ROWMODE differ in imm[0] (R114). -/
def Ins.spells (i : Ins) (o : KOp) : Bool :=
  i.opcode = opcodeOf o && i.slot.toNat = slotOf o &&
  (match o with
    | .rowmodeEnter => i.imm.getLsbD 0
    | .rowmodeExit => !i.imm.getLsbD 0
    | _ => true)

/-- The opcode that a word spells in its slot: none for an opcode that is not listed, or that belongs to another slot (R104). -/
def Ins.op (i : Ins) : Option KOp := allOps.find? i.spells

/-- The word of an opcode with its fields (R103). -/
def kciWord (o : KOp) (pg : BitVec 3) (gn : Bool) (d a b c : BitVec 5) (imm : BitVec 32) : W64 :=
  BitVec.ofNat 8 (opcodeOf o) ++ pg ++ BitVec.ofBool gn ++ d ++ a ++ b ++ c ++ imm

end Sys2Proof
end

