-- ==== Sys2Proof/Machine/Maps.lean ====
section
/-! DEFINITION. Operations on sparse tables: keys strictly rising, no entry equal to the default that an
unlisted key reads as. -/

namespace Sys2Proof.Machine

/-- The value listed for a key. -/
def tget? {V : Type} (t : Tbl V) (k : Nat) : Option V :=
  match t with
  | [] => none
  | (j, v) :: r => if j = k then some v else tget? r k

/-- The value of a key; `d` when it is not listed. -/
def tget {V : Type} (d : V) (t : Tbl V) (k : Nat) : V := (tget? t k).getD d

/-- List a value for a key, whatever it is. -/
def tput {V : Type} (t : Tbl V) (k : Nat) (v : V) : Tbl V :=
  match t with
  | [] => [(k, v)]
  | (j, w) :: r => if k < j then (k, v) :: (j, w) :: r else if j = k then (k, v) :: r else (j, w) :: tput r k v

/-- Remove a key. -/
def tdel {V : Type} (t : Tbl V) (k : Nat) : Tbl V := t.filter fun e => e.1 ≠ k

/-- Set a key, keeping the canonical form: a value equal to the default `d` is not listed. -/
def tset {V : Type} [DecidableEq V] (d : V) (t : Tbl V) (k : Nat) (v : V) : Tbl V :=
  if v = d then tdel t k else tput t k v

/-- Change the value of a key. -/
def tmod {V : Type} [DecidableEq V] (d : V) (t : Tbl V) (k : Nat) (f : V → V) : Tbl V :=
  tset d t k (f (tget d t k))

/-- Remove every key from lo up to but not including hi. -/
def tclear {V : Type} (t : Tbl V) (lo hi : Nat) : Tbl V :=
  t.filter fun e => e.1 < lo || hi ≤ e.1

/-- The keys strictly rise. -/
def tsorted {V : Type} : Tbl V → Bool
  | [] => true
  | [_] => true
  | (j, _) :: (k, w) :: r => j < k && tsorted ((k, w) :: r)

/-- A sorted list of numbers with one more member (a set). -/
def sadd (t : List Nat) (k : Nat) : List Nat :=
  match t with
  | [] => [k]
  | j :: r => if k < j then k :: j :: r else if j = k then j :: r else j :: sadd r k

/-- A set without a member. -/
def sdel (t : List Nat) (k : Nat) : List Nat := t.filter (· ≠ k)

/-- Change the n-th element of a list. -/
def lmod {α : Type} (l : List α) (n : Nat) (f : α → α) : List α := l.mapIdx fun i x => if i = n then f x else x

/-- The first element that satisfies p, with the list without it. -/
def takeFirst {α : Type} (p : α → Bool) : List α → Option (α × List α)
  | [] => none
  | x :: r => if p x then some (x, r) else (takeFirst p r).map fun q => (q.1, x :: q.2)

/-- Insert an element behind every element of no greater key. -/
def insertOn {α : Type} (f : α → Nat) (x : α) : List α → List α
  | [] => [x]
  | y :: r => if f y ≤ f x then y :: insertOn f x r else x :: y :: r

/-- Sort by a key, equal keys in their order. -/
def sortOn {α : Type} (f : α → Nat) (l : List α) : List α := l.foldl (fun acc x => insertOn f x acc) []

end Sys2Proof.Machine
end

