-- ==== Sys2Proof/Machine/State.lean ====
section
/-! DEFINITION. The state of the KS-16 block as plain data, with the queue of commands that wait, the reasons a
step can stop, and the state after reset (a cold boot before any command). Sparse tables list only what differs from
the value their docstring names. -/

namespace Sys2Proof.Machine

/-- Reasons for which a meaning stops. No instruction of the spec is stopped by them: they guard operands that no
sender of the spec can produce. Safe: the model stops where the hardware is never asked to go. -/
inductive Fault where
  /-- Raised by a command whose operand list has a shape the spec's sender cannot produce. Safe. -/
  | malformedOperand (command : String)
deriving DecidableEq, Repr

/-- Reasons for which a command is refused. -/
inductive Refusal where
  /-- Raised by an arm of exec whose meaning is not written. Safe. -/
  | notModelled (mnemonic : String)
deriving DecidableEq, Repr

/-! ### Memory -/

/-- An extent of memory whose contents the spec leaves undefined: addresses lo to lo + len - 1 read as the free value
of the stamp until they are written (R34, R82, R213). -/
structure Extent where
  lo : Nat
  len : Nat
  stamp : Nat
deriving DecidableEq, Repr

/-- The stored bytes of the fast tier, the cluster memories and the slow tier (R29). A fast-tier byte is keyed by its
place: tower, logical column and column offset laid out as in the column window (R32); a pooled line is keyed by the
place the pooled-window hash gives it (R204). -/
structure Mem where
  /-- Data bytes that differ from what an unlisted address reads as. -/
  cells : List Host.Cell
  /-- Syndromes of stored bytes (R414); an unlisted byte is clean. -/
  syn : Tbl (BitVec 5)
  /-- Undefined extents, the newest first. -/
  undef : List Extent
deriving DecidableEq, Repr

/-- The directory state of a slice line (R218). -/
inductive Dir where
  | i
  | s (owner : Nat)
  | sc (vec : BitVec 16)
  | m (owner : Nat)
deriving DecidableEq, Repr

/-- A line held in an LLC slice (R214). Bytes that are not valid hold nothing. -/
structure SLine where
  valid : BitVec 128
  dirty : BitVec 128
  data : BitVec 1024
  syn : Tbl (BitVec 5)
  pinned : Bool
  reduced : Bool
  /-- Groups withheld until the replay of logical core `holder` writes them again (R210). -/
  withheld : BitVec 4
  holder : Nat
  dir : Dir
  /-- Its way within the set (R203, R214). -/
  way : Nat
deriving DecidableEq, Repr

/-- A contribution accepted into a slice's reduction queue (R226): its first line, the format code, the bytes to add
and the poison of each byte. The lines it names are pending until it has been added. -/
structure Contrib where
  key : Nat
  fmt : Nat
  bytes : List Byte
  poison : List Bool
deriving DecidableEq, Repr

/-- The last WR that a channel issued (R435): its line, the time, and the bytes that the slice keeps until the write has committed (R436). -/
structure Beat where
  line : Nat
  time : Nat
  keep : BitVec 128
deriving DecidableEq, Repr

/-- An outstanding miss of a slice (R217): the line, and whether a write to it has arrived since the miss was opened. -/
structure Miss where
  line : Nat
  written : Bool
deriving DecidableEq, Repr

/-- The LLC slices of all towers: lines keyed by place div 128, the reduction queues, oldest contribution first, and
the slices that have set red_poison. -/
structure Llc where
  lines : Tbl SLine
  redQ : List Contrib
  /-- Slices (tower × 272 + index) whose red_poison bit is set (R229). -/
  redPoison : List Nat
  /-- Lines the running plan pins (R223). -/
  pins : List Nat
  /-- CMEM merge slots that are open: line address div 128, and the CCLK in which the slot's first read arrived (R212). -/
  merge : Tbl Nat
  /-- Outstanding misses, oldest first (R217). -/
  miss : List Miss
  /-- Replacement trees of the sets: slice × 512 + set (R215). -/
  plru : Tbl (BitVec 16)
  /-- The last WR of each channel: tower × 272 + index (R435). -/
  beats : Tbl Beat
deriving DecidableEq, Repr

/-- A line held in an L1 (R205). PRESUMED: log entry 22. -/
structure L1Line where
  valid : BitVec 128
  dirty : BitVec 128
  data : BitVec 1024
  own : Bool
  /-- Its way within the set. -/
  way : Nat
deriving DecidableEq, Repr

/-! ### Cores -/

/-- A write to a register by a fixed-latency instruction or a load: it becomes architectural at cycle `due` (R98).
Lanes or bits outside `mask` keep what the destination holds then (R101). A tag carries the address its poison came
from; the tags of a v register are listed by group. -/
inductive RegW where
  | sreg (d : Nat) (v : W64) (tag : Option Nat)
  | preg (d : Nat) (mask v : W64)
  | vreg (d : Nat) (mask : W64) (v : VReg) (tags : Tbl Nat)
deriving DecidableEq, Repr

/-- A register write in flight, with whether a reader of it is interlocked (a load) or sees the previous value. -/
structure Fly where
  due : Nat
  w : RegW
  lock : Bool
deriving DecidableEq, Repr

/-- A load that has missed and has not returned (R97, R206). -/
structure LoadEnt where
  id : Nat
  vec : Bool
  d : Nat
  addr : Nat
  size : Nat
  pc : Nat
  mask : W64
  /-- The host address it was translated to at issue (R36); none outside the host window. -/
  bus : Option Nat
deriving DecidableEq, Repr

/-- A store in the write buffer (R97): its bytes and their poison, and the host address it was translated to at issue (R36). -/
structure StoreEnt where
  id : Nat
  addr : Nat
  bytes : List Byte
  poison : List Bool
  pc : Nat
  slot : Nat
  bus : Option Nat
deriving DecidableEq, Repr

/-- A result that an array command lands in a bank entry. `clear` replaces the entry, `fp` says how `vals` are added:
FP32 patterns in order, or LACC-96 patterns. -/
structure Land where
  key : Nat
  clear : Bool
  fp : Bool
  daz : Bool
  vals : List Nat
  poison : Bool
deriving DecidableEq, Repr

/-- A row that an MST or MRDV has read for readout: its bank row, the entries of the row and whether any is poisoned. -/
structure ReadRow where
  row : Nat
  vals : List (Nat × Nat)
  poison : Bool
deriving DecidableEq, Repr

/-- An asynchronous command in an array's compute or weight queue or in the engine queue (R110, R114), with the
operand values it read at issue. -/
structure QCmd where
  id : Nat
  op : KOp
  ins : Ins
  va : W64
  vb : W64
  vc : W64
  /-- Row and column masks in force for its partition in program order (R149). -/
  rmask : W64
  cmask : W64
  pc : Nat
  /-- MSWAP: the MWLD it takes its weights from, plus 1; 0 for none. MWLD: unused. -/
  aux : Nat
  /-- The most recent MPCFG issued before it, plus 1; 0 for none. -/
  cfg : Nat
  /-- 0 waiting, 1 dispatched or started. -/
  st : Nat
  /-- Index of the weight buffer an MWLD writes. -/
  buf : Nat
  kind : Nat
  land : List Land
  rows : List ReadRow
  /-- Bank scope the command reads or writes: partition × 4 + bank. -/
  bank : Nat
  /-- Its place among the commands of the share that have effects (R78). -/
  eff : Nat
  /-- MST: the host address of the first byte of the host window when its rows were translated (R36). -/
  win : Option Nat
deriving DecidableEq, Repr

/-- A weight buffer of a partition (R141): 0 FREE, 1 FILLING, 2 FULL, 3 ACTIVE; the format that filled it, its rows
as element patterns (one MX group per row in MX), and the columns loaded with poison. -/
structure WBuf where
  st : Nat
  fmt : Nat
  rows : List (List Nat)
  bad : W64
deriving DecidableEq, Repr

/-- A row as fed: patterns of its elements with their poison (0 for an element that is not fed), and the scale bytes of
an MX row. -/
structure Fed where
  elems : List (Nat × Bool)
  scales : List Nat
deriving DecidableEq, Repr

/-- A vector or MLDA row in the activation FIFO (R139): its command, its place there, the 128-byte entries it takes, and what it feeds. -/
structure FifoVec where
  id : Nat
  v : Nat
  size : Nat
  fed : Fed
deriving DecidableEq, Repr

/-- The weight staging buffer (R140): the MWLD whose rows it holds, the weights, and the number of rows fed with poison. -/
structure WStage where
  id : Nat
  buf : WBuf
  bad : Nat
deriving DecidableEq, Repr

/-- One matrix array (R133 to R164). -/
structure Arr where
  /-- Partition mode the array is in, and the one set by the most recent MPCFG in program order. -/
  mode : Nat
  progMode : Nat
  masks : Tbl (W64 × W64)
  cq : List QCmd
  wq : List QCmd
  run : List QCmd
  /-- Weight buffers: partition × 2 + buffer. -/
  bufs : Tbl WBuf
  /-- Active buffer of a partition; unlisted: buffer 0. -/
  active : Tbl Nat
  /-- Bank entries: bank × 4096 + array row × 64 + array column. An unlisted entry is zero. -/
  bank : Tbl Lacc
  poison : List Nat
  /-- Kind of a bank of a partition (R176): 1 LACC, 2 FP32; unlisted CLEAR. -/
  kind : Tbl Nat
  /-- Commands of the rebuild log (R156), oldest first. -/
  log : List QCmd
  logFull : Bool
  /-- Ganged mode as MGANG applied it (R164): 0 off, 1 broadcast, 2 lockstep, and its column window. -/
  gang : Nat
  window : Nat
  /-- Physical columns of the logical columns, as the last rebuild point found them (R133, R150). -/
  cols : List Nat
  fifo : List FifoVec
  staging : Option WStage
  /-- CCLK number from which the feed of a partition, and the readout port, are free (R143 to R145). -/
  feed : Tbl Nat
  port : Nat
  /-- CCLK number at which the counted vector slots end (R165). -/
  vecEnd : Nat
  /-- Banks of a partition whose sums come from BF16 vectors: partition × 4 + bank (R163). -/
  bf : List Nat
  /-- The pulp generator (R152). -/
  lfsr : W64
  /-- MWLD issued for a partition since its last MSWAP and the last MPCFG, plus 1. -/
  lastMwld : Tbl Nat
  lastCfg : Nat
deriving DecidableEq, Repr

/-- Events a conversion stages for a scale-table entry (R187): the largest magnitude as a BF16 code rounded up. -/
structure Cap where
  amax : Nat
  flush : Nat
  sat : Nat
  nonfin : Bool
deriving DecidableEq, Repr

/-- What a core is doing. -/
inductive CoreSt where
  /-- No plan gives it a share, or the plan has stopped. -/
  | off
  /-- It runs its share. -/
  | run
  /-- It has taken a replayable fault and waits for its replay (R77). -/
  | faulted
  /-- Its COMMIT is completing (R122). -/
  | commit
  /-- It has arrived at the commit barrier. -/
  | arrived
  /-- Its region is parked (R130). -/
  | parked
deriving DecidableEq, Repr

/-- The step entry state of a core (R73 item 4), with the poison tags of its s registers (R95). -/
structure Entry where
  pc : Nat
  s : Tbl W64
  p : Tbl W64
  tag : Tbl Nat
deriving DecidableEq, Repr

/-- One instruction of a bundle that has arrived and not issued. -/
structure Slot where
  op : KOp
  ins : Ins
deriving DecidableEq, Repr

/-- An ARRIVE that waits for its release (R122, R507): scope, number of its instance in the step, token, and the
command number below which every store of the core has to be performed before the arrival counts (R124). -/
structure Waiting where
  scope : Nat
  k : Nat
  tok : Nat
  before : Nat
deriving DecidableEq, Repr

/-- A physical core (R94) with its L1, its arrays and its queues. -/
structure Core where
  st : CoreSt
  s : Tbl W64
  p : Tbl W64
  v : Tbl VReg
  /-- An unlisted v register: 0 reads zero; n reads the free value of stamp n - 1 (R76). -/
  vstamp : Nat
  /-- Poison tags of s registers and of groups of v registers (8 × register + group), each with the address its poison
  came from (R95, R83). -/
  sTag : Tbl Nat
  vTag : Tbl Nat
  tok : Tbl Nat
  pc : Nat
  /-- A branch whose delay bundle is the next bundle (R100): its target when it is taken, none inside when it is not; no such
  branch at all where the field is none. -/
  delay : Option (Option Nat)
  cyc : Nat
  stream : List Slot
  stalled : Bool
  fly : List Fly
  loads : List LoadEnt
  /-- v registers pending (R99). -/
  pend : List Nat
  wb : List StoreEnt
  l1 : Tbl L1Line
  /-- Replacement trees of the L1's sets (R205). -/
  l1plru : Tbl (BitVec 16)
  arr0 : Arr
  arr1 : Arr
  eng : List QCmd
  nextId : Nat
  /-- Commands with effects issued in the attempt (R78). -/
  effNext : Nat
  /-- Commands of an abandoned attempt that had started and stop at their next row or line (R128). -/
  halting : List QCmd
  entry : Entry
  attempt : Nat
  stage : Tbl Cap
  stageUnfit : Nat
  /-- ARRIVEs that wait for their release. -/
  waits : List Waiting
  /-- Address at which the fault being replayed met poison in memory. -/
  poisonAt : Option Nat
  fencedBefore : Bool
deriving DecidableEq, Repr

/-- The router of a logical core: what survives a fault of the core (R78, R506, R507). -/
structure Router where
  /-- Effects issued in the step to this module and to other modules, by the place of the command that issues them among the share's
  commands with effects in program order. -/
  effLocal : Tbl Nat
  effRemote : Tbl Nat
  /-- Effects that each such command has computed in the present attempt. -/
  cur : Tbl Nat
  /-- SIG increments delivered to each token counter in the step. -/
  rcv : Tbl Nat
  /-- ARRIVEs of each scope issued in the attempt. -/
  arrK : Tbl Nat
  /-- Arrivals that stand and have not been released: scope, number in the step. -/
  standing : List (Nat × Nat)
deriving DecidableEq, Repr

/-- A SIG in flight (R78): source and target logical cores, the token, and the command number below which every store
of the source has to be performed before the increment is delivered (R124). -/
structure Sig where
  src : Nat
  tgt : Nat
  tok : Nat
  before : Nat
deriving DecidableEq, Repr

/-! ### Plans and host commands -/

/-- A placement declaration (R64). -/
structure Placement where
  id : Nat
  kind : Nat
  regen : Nat
  base : Nat
  size : Nat
  regenAddr : Nat
deriving DecidableEq, Repr

/-- A step table entry (R65). -/
structure StepEnt where
  dur : Nat
  inFirst : Nat
  inCount : Nat
  outFirst : Nat
  outCount : Nat
  redFirst : Nat
  redCount : Nat
  scope : Nat
  capEpoch : Nat
deriving DecidableEq, Repr

/-- A loaded plan (R62 to R67). DEDUCED: log entry 84. -/
structure Plan where
  size : Nat
  shapeDigest : List Byte
  stepCount : Nat
  seed : W64
  reserve : Nat
  profile : Nat
  sloe : Bool
  fabric : Bool
  capFollow : Bool
  pools : List Nat
  watchdog : Nat
  copyRate : Nat
  places : List Placement
  steps : List StepEnt
  ids : List Nat
  code : List Byte
  codeParam : Nat
  params : List Byte
  coll : List Byte
  routes : List Byte
  profileSec : List Byte
  pins : List (Nat × Nat × Nat)
  kv : List Byte
  digest : List Byte
  stale : Bool
deriving DecidableEq, Repr

/-- A completion status of R90. -/
abbrev Status := Nat

/-- A command entry that has been read from the ring (R88), with its ring index and its number among all entries read: ring indices
start again when a ring restarts (R87). -/
structure Entry64 where
  index : Nat
  bytes : List Byte
  num : Nat
deriving DecidableEq, Repr

/-- A command in progress (R89), with its number among all entries read. -/
structure Active where
  index : Nat
  tag : Nat
  op : Nat
  handle : Nat
  bytes : List Byte
  num : Nat
deriving DecidableEq, Repr

/-- A completion record that waits to be written (R92), with its place in the order of production. -/
structure Completion where
  stamp : Nat
  status : Status
  tag : Nat
  step : Nat
  index : Nat
  time : Nat
  detail : Nat
deriving DecidableEq, Repr

/-- A notice that waits to be written (R57, R61). -/
structure Notice where
  stamp : Nat
  service : Nat
  code : Nat
  source : Nat
  tower : Nat
  step : Nat
  seq : Nat
  time : Nat
  detail : Nat
deriving DecidableEq, Repr

/-- The running plan (R72 to R82). -/
structure Run where
  handle : Nat
  tag : Nat
  /-- Number of its LAUNCH_PLAN among all entries read. -/
  num : Nat
  iters : Nat
  startAt : Nat
  /-- The first step has started. -/
  started : Bool
  stepIdx : Nat
  iter : Nat
  stepNo : Nat
  stepStart : Nat
  abort : Bool
  /-- Barrier instances released in the step: scope × 65536 + group. -/
  rel : Tbl Nat
  sigs : List Sig
  /-- The step in progress started after a column migration (R262). -/
  held : Bool
  /-- Clusters (tower × 16 + cluster) to be parked at the next commit, and those woken that resume after it. -/
  toPark : List Nat
  toResume : List Nat
  /-- The plan has ended and Quince still runs its jobs (R321): the completion's status, detail and step. -/
  ending : Option (Nat × Nat × Nat)
deriving DecidableEq, Repr

/-- Stone's command and record machinery (R86 to R93). -/
structure Cmd where
  /-- Doorbells as last written (R87). -/
  cmdTail : Nat
  recHead : Nat
  /-- Doorbell writes kept for entry to RUN, oldest first: 0 CMD_TAIL, 1 REC_HEAD, and the value. -/
  kept : List (Nat × Nat)
  /-- Entries read and not started, and the number of entries read since cold boot. -/
  entries : List Entry64
  reads : Nat
  active : List Active
  done : List Completion
  notices : List Notice
  stamp : Nat
  seq : Nat
  lostBefore : Bool
deriving DecidableEq, Repr

/-! ### Vertical channels (R236 to R263) -/

/-- One entry of a Rowan descriptor (R251). -/
structure RowEnt where
  op : Nat
  dst : Nat
  a : Nat
  b : Nat
  c : Nat
deriving DecidableEq, Repr

/-- A ROWOP or ROWMODE command at a channel (R254): the issuing logical core and its command, the kind (0 ROWOP,
1 enter, 2 exit) and the entries still to be performed. -/
structure ChanCmd where
  core : Nat
  id : Nat
  kind : Nat
  ents : List RowEnt
deriving DecidableEq, Repr

/-- A vertical channel controller. Its mode stands in VCH_STATUS. -/
structure Chan where
  queue : List ChanCmd
  /-- Stale rows and rows with the poison-pending bit (R257). -/
  stale : List Nat
  poisonPending : List Nat
  /-- Maintenance windows since bring-up, the next row index to refresh and the scrub pointer (R243, R245). -/
  window : Nat
  refresh : Nat
  scrub : Nat
  /-- Bond group of the next bond test, and the groups whose spare is in use (R246). -/
  bondNext : Nat
  bondUsed : List Nat
  /-- Fabric time since which the governing temperature has stayed at or below 90 °C; none above it. -/
  coolSince : Option Nat
  /-- Uncorrectable bytes found by scrub since cold boot (R262). -/
  scrubBad : Nat
  /-- Migration has been requested (R262). -/
  wantMigrate : Bool
deriving DecidableEq, Repr

/-! ### Attention engines (R266 to R302) -/

/-- An ATTCMD or PFXWALK in an engine's queue: the issuing logical core with its attempt, the command identifier and pc,
the descriptor's address and, once it has started, its bytes; whether the attempt that issued it was abandoned. -/
structure AttCmd where
  core : Nat
  att : Nat
  id : Nat
  pc : Nat
  desc : Nat
  walk : Bool
  started : Bool
  bytes : List Byte
  abandoned : Bool
deriving DecidableEq, Repr

/-- A staged effect of an engine (R271), applied at commit under R293. -/
inductive StagedKind where
  | inc (page : Nat)
  | dec (page : Nat)
  | pop
  | push (page : Nat)
  | publish (seq : Nat) (word : W64)
  /-- What one MERGE captured for a tensor's entry (R278, R187). -/
  | amax (tensor : Nat) (cap : Cap)
deriving DecidableEq, Repr

/-- A staged effect with the issuing logical core and the pool; 256 where the effect is on no pool. -/
structure Staged where
  core : Nat
  pool : Nat
  kind : StagedKind
deriving DecidableEq, Repr

/-- A page bound to a copy on write (R292): logical core, ordinal within its share, pool and page. -/
structure Binding where
  core : Nat
  ord : Nat
  pool : Nat
  page : Nat
deriving DecidableEq, Repr

/-- The attention engine of a cluster. -/
structure AttEng where
  queue : List AttCmd
  staged : List Staged
  binds : List Binding
  /-- Copies on write made by each attempt of a logical core: core × 65536 + attempt. -/
  ords : Tbl Nat
  /-- Sequences edited in the step by each logical core's current attempt: core, pool, sequence. -/
  edits : List (Nat × Nat × Nat)
deriving DecidableEq, Repr

/-! ### Quince (R303 to R332) -/

/-- A loaded rule (R312, R313): its kind (0 elementwise, 1 whole), whether it has a prologue, its text and its place
in rule memory (offset of its 4 KiB-aligned text), and the text offsets of its prologue and body entries. -/
structure Rule where
  kind : Nat
  prologue : Bool
  text : List Byte
  place : Nat
  proAt : Nat
  bodyAt : Nat
deriving DecidableEq, Repr

/-- A hart (R309, R311): general, floating-point and vector registers, control and status registers by their RISC-V number (an unlisted
register holds 0), the program counter, user or machine mode, its scratch (256 KiB; an unlisted byte is undefined), and the
address that a load-reserved holds. -/
structure Hart where
  x : Tbl W64
  f : Tbl W64
  v : Tbl (BitVec 1024)
  csr : Tbl W64
  pc : W64
  user : Bool
  scratch : Tbl Byte
  reserved : Option Nat
deriving DecidableEq, Repr

/-- An entry of the job table as LAUNCH_PLAN read it (R316). -/
structure JobDef where
  startIdx : Nat
  span : Nat
  rule : Nat
  count : Nat
  groups : Nat
  status : Nat
deriving DecidableEq, Repr

/-- The progress of one group of a job, with its captures (R315, R318). -/
structure GroupRun where
  prologueDone : Bool
  /-- Body invocations have returned for every chunk below `next`, and for those of `ahead`. -/
  next : Nat
  ahead : List Nat
  finished : Bool
  skipped : Bool
  /-- Exponent of w_entry at the start commit (R320). -/
  exp : Int
  amaxW : Nat
  amaxG : Nat
  flushes : Nat
  sats : Nat
  nonfin : Bool
  retries : Nat
deriving DecidableEq, Repr

/-- A job in progress: its table entry, the step number of its start commit, the step number of its due commit and
its groups. -/
structure Job where
  idx : Nat
  d : JobDef
  startNo : Nat
  dueNo : Nat
  /-- JOB_START has handed the job to the harts (R318). -/
  begun : Bool
  groups : List GroupRun
deriving DecidableEq, Repr

/-- Failures of an invocation (R328): its job, group and chunk (none: the prologue), the hart it runs on, its failures there, and whether
a rule fault has fenced a hart before. -/
structure Tries where
  job : Nat
  group : Nat
  chunk : Option Nat
  hart : Nat
  count : Nat
  ruleFault : Bool
deriving DecidableEq, Repr

/-- Quince: loaded rules, the jobs of the running plan and the invocations that have failed. -/
structure Qnc where
  rules : Tbl Rule
  /-- The 16 harts; an unlisted one stands as at reset. -/
  harts : Tbl Hart
  defs : List JobDef
  jobs : List Job
  tries : List Tries
  /-- Next line each slow-tier channel scrubs (R308). -/
  scrub : Tbl Nat
  /-- Step at which a due commit found an unfinished job (R318). -/
  late : Bool
deriving DecidableEq, Repr

/-! ### The Idger fabric (R333 to R375) -/

/-- The fields of a flit (R334): kind, virtual channel and hop class of the body, sequence number and acknowledgement, nak, the spare
request with its lane, up to two credit returns (virtual channel, hop class, flits), and the body of 328 bytes. -/
structure Flit where
  kind : Nat
  vc : Nat
  hop : Nat
  seq : Nat
  ack : Nat
  nak : Bool
  spareReq : Bool
  lane : Nat
  creds : List (Nat × Nat × Nat)
  body : List Byte
deriving DecidableEq, Repr

/-- A flit body kept for resending (R335): sequence number, virtual channel and hop class, and the body. -/
structure FlitBody where
  seq : Nat
  vc : Nat
  hop : Nat
  body : List Byte
deriving DecidableEq, Repr

/-- Units of a message that wait at a port (R341): their virtual channel and hop class, whether the message is link-local (R342), and
the bytes that have not left. -/
structure Units where
  vc : Nat
  hop : Nat
  loc : Bool
  bytes : List Byte
deriving DecidableEq, Repr

/-- An Idger port, by link index 4t + k. Its state stands in IDG_PORT_STATUS. -/
structure Port where
  /-- Data flits sent and not acknowledged, oldest first, and the next sequence number to send and to accept. -/
  retry : List FlitBody
  txSeq : Nat
  rxSeq : Nat
  /-- Messages that wait, oldest first. -/
  held : List Units
  /-- A nak has been sent and the flit it asks for has not been accepted (R336). -/
  resent : Bool
  /-- Credits by virtual channel × 8 + hop class: flits the peer's buffer can still take (R340). -/
  credits : Tbl Nat
  /-- Credits to return to the peer (R335): for each flit taken, the same key, and the time from which its credit is no longer withheld (R444). -/
  toReturn : List (Nat × Nat)
  /-- Flits of VC1 to VC3 sent in the present window of 64, and how many of them by each virtual channel (R340). -/
  window : Nat
  sent : Tbl Nat
  /-- Lane replacement agreed: lane and the sequence number from which it holds (R337). -/
  spareAt : Option (Nat × Nat)
  /-- The lane whose replacement this end is to request with its next data flit (R337). -/
  toAsk : Option Nat
  /-- The request sent: the lane and the sequence number of the flit that carries it. -/
  asked : Option (Nat × Nat)
  /-- Bytes corrected in each lane's codewords in the current ms, which key 15 holds (R337). -/
  fecMs : Tbl Nat
  /-- Path of the tunnel that carries the link's traffic: 0, 1, or none (R358). -/
  tunnel : Option Nat
  /-- The link has failed since it was last UP; its routes have switched (R359). -/
  failed : Bool
  switched : Bool
  /-- Sequence numbers of tunnelled bodies that arrived before their turn (R358). -/
  early : List Nat
  /-- Retrained after a failure: it carries only link-local messages (R361). -/
  localOnly : Bool
  /-- Fabric time of the failure or of the last retraining. -/
  failedAt : Nat
  /-- Fabric time of the last valid flit (R336), and of the last IDENT sent (R349). -/
  validAt : Nat
  identAt : Nat
  /-- An IDENT has been received since the link trained (R349). -/
  heard : Bool
  /-- Transmit timestamp of the peer's last IDENT, and when it arrived (R349). -/
  peerSent : Nat
  peerAt : Nat
  /-- Weights of VC1, VC2 and VC3, as the running plan's route set gives them (R340, R362). -/
  weights : Nat
deriving DecidableEq, Repr

/-- A request the module has sent and that has not been answered (R343): its identifier, the logical core and the engine
command or COLL it works for with its pc, the tower that sent it, the remote address it names (device × 2^48 + address),
and, for a READ, the fabric address its lines go to and their number. -/
structure Req where
  id : Nat
  core : Nat
  cmd : Nat
  pc : Nat
  tower : Nat
  read : Bool
  remote : Nat
  dest : Nat
  lines : Nat
deriving DecidableEq, Repr

/-- A COLL accepted by a tower's collective engine (R368). -/
structure CollRun where
  core : Nat
  id : Nat
  pc : Nat
  entry : Nat
  /-- Which of the share's commands with effects it is (R78). -/
  eff : Nat
  /-- Next operation of the list. -/
  next : Nat
  abandoned : Bool
  /-- The fault that an abandoned run has met, which its replayed COLL takes over (R373). -/
  fault : Option (Nat × Nat × Option Nat)
deriving DecidableEq, Repr

/-- A collective engine with its tag counters. -/
structure CollEng where
  queue : List CollRun
  tags : Tbl Nat
  /-- TAGs of a later step: tag and step number (R370). -/
  heldTags : List (Nat × Nat)
  /-- Abandoned runs that a fault has ended (R373). -/
  faulted : List CollRun
deriving DecidableEq, Repr

/-- Fabric state of the module. -/
structure Fab where
  /-- READ messages that wait at a slice for withheld bytes (R210), oldest first: link, and the message's header. -/
  waitReads : List (Nat × Header)
  ports : Tbl Port
  coll : Tbl CollEng
  reqs : List Req
  nextReq : Nat
  /-- Consecutive exchanges with an offset below 45 ns (R365). -/
  lockRun : Nat
  /-- A correction has been applied since enable (R364). -/
  firstLock : Bool
  /-- Correction still to be slewed, in ns, and the fabric time at which its next ns is due (R364). -/
  slew : Int
  slewAt : Nat
  /-- Time synchronisation has been lost and the last rate is held (R365). -/
  holdRate : Bool
  /-- The offset last measured from the time parent (R363). -/
  offset : Int
  lastTime : Nat
  /-- Members of the own bunch, and bunches, that have arrived at the fabric barrier of a step number and kind. -/
  barMembers : Tbl (List Nat)
  barBunches : Tbl (List Nat)
  /-- Maxima of a fabric barrier, the module's own and those received (R189, R366): entry and BF16 code. -/
  barAmax : Tbl (Tbl Nat)
  /-- Entries touched somewhere in the scope of a fabric barrier. -/
  barTouched : Tbl (List Nat)
  /-- The cap notice last taken from each origin: when its first copy came, and the fields of its line (R366, R396). -/
  capSeen : Tbl (Nat × List Byte)
  /-- Links whose failure awaits the switch to alternates at the next commit (R359). -/
  toSwitch : List Nat
deriving DecidableEq, Repr

/-! ### Power and heat (R376 to R410) -/

/-- An operator profile (R392). -/
structure Profile where
  up : Nat
  down : Nat
  floor : Nat
  cap : Nat
  flags : Nat
  hold : Nat
deriving DecidableEq, Repr

/-- A protective limit with its timing: the limit, the fabric time of the last lowering, and since when the condition
for its rise has held (R394, R395). -/
structure Prot where
  limit : Nat
  last : Nat
  okSince : Option Nat
  /-- It may rise at the next cap epoch (R385). -/
  rise : Bool
  /-- The condition that lowers it held at the last tick or sample. -/
  hot : Bool
deriving DecidableEq, Repr

/-- An entry of the follow table (R397). -/
structure Follow where
  origin : Nat
  limit : Nat
  reason : Nat
  time : Nat
deriving DecidableEq, Repr

/-- A region being un-gated (R400): when it is fully powered, and the command that waits for it. -/
structure Staging where
  region : Nat
  until_ : Nat
  core : Nat
  id : Nat
deriving DecidableEq, Repr

/-- Power delivery, the governor, the limit sources and the thermal model. Binary64 and FP32 values are held as their
patterns. Planned sources are numbered: 0 plan module limit, 1 governor ceiling, 2 host cap, 3 coolant derate,
4 follow limit, 16 + t plan tower limit, 32 + t thermal class ceiling; an unlisted source stands at 64. -/
structure Power where
  prof : Profile
  profNext : Option Profile
  /-- Planned sources as wanted and as applied, and since when a source has stood below its applied value (R384). -/
  want : Tbl Nat
  applied : Tbl Nat
  lowSince : Tbl Nat
  /-- The input guard's limit and the coolant's protective limit (R394, R408). -/
  guard : Prot
  coolant : Prot
  /-- Thermal emergency limits by region (tower × 16 + cluster). -/
  therm : Tbl Prot
  /-- Regions whose emergency limit a core-die sensor set. -/
  thermCore : List Nat
  /-- VLG phases lost: region × 4 + phase; domain phases lost: tower × 64 + domain × 16 + phase. -/
  phaseLost : List Nat
  domLost : List Nat
  /-- Phase limits as applied by region; unlisted 64 (R379, R380). -/
  phaseLimit : Tbl Nat
  /-- Wake staging limits by region: fabric time until which they stand (R401). -/
  wakeLimit : Tbl Nat
  staging : List Staging
  /-- Governor: U, D and F in force, binary64; none before the first tick. -/
  gov : Option (Nat × Nat × Nat)
  floorEpisode : Bool
  /-- Input energy of each of the last 10,000 ticks in units of 10^-9 J, and input current of the last 10 in 0.1 A, newest
  first (R381). -/
  histP : List Nat
  histI : List Nat
  /-- Energy not yet a whole microjoule, in units of 10^-9 J (R382). -/
  energyRem : Nat
  /-- Voltage band last reported (0 none, 1 low, 2 high), and since when the input has stayed in range (R376). -/
  band : Nat
  inRangeSince : Option Nat
  underSince : Option Nat
  /-- Cap notices: the lowest emergency limit last broadcast, and when (R396). -/
  lastCap : Nat
  lastCapAt : Nat
  /-- Fabric time at which the lowest emergency limit last changed (R396). -/
  capSince : Nat
  follow : List Follow
  followEpisode : Bool
  coolantEpisode : Bool
  hotInletSince : Option Nat
  /-- Ticks with pulp since PWM_PULP_MS last counted. -/
  pulpTicks : Nat
  /-- Model values Tm of the sensors, FP32: tower × 192 + sensor (0 to 63 core die, 64 + 16(k − 1) + c die M(k)). -/
  tm : Tbl W32
  /-- Since when a sensor has differed from its model by more than 8 K (R404). -/
  diffSince : Tbl Nat
  /-- Since when a governing value above a region has been at or above the trip level (R405), and that value. -/
  tripSince : Tbl (Nat × Nat)
  /-- Dies whose suspect count has raised THM_ notice 0x04 once: tower × 16 + layer. -/
  suspectDies : List Nat
  /-- Power map Q by region, FP32 (R381). -/
  qmap : Tbl W32
  /-- Voltages of the domains (tower × 4 + domain, in mV) and currents of the phases (tower × 82: 64 of VLG by region, then 6 each of VMA,
  VMI and VLK, in 0.1 A) as last reported (R381). -/
  volts : List (BitVec 16)
  phaseAmps : List (BitVec 16)
deriving DecidableEq, Repr

/-! ### What leaves the module -/

/-- What the module sends to the world outside the model. -/
inductive Out where
  /-- A Memory Write to the host: address, bytes, and the EP bit (R420, R483). -/
  | hostWrite (addr : Nat) (bytes : List Byte) (ep : Bool)
  /-- A Memory Read of the host whose data arrive with a later command. -/
  | hostRead (addr len : Nat)
  /-- A Completion to a BAR request: status (0 Successful, 1 Unsupported Request, 2 Configuration Request
  Retry Status), data and EP. -/
  | completion (status : Nat) (bytes : List Byte) (ep : Bool)
  /-- An error Message to the host (R486): 0 ERR_COR, 1 ERR_NONFATAL, 2 ERR_FATAL. -/
  | errMessage (severity : Nat)
  /-- A message sent on an Idger link: link, header bytes and data (R341). -/
  | message (link : Nat) (header : List Byte) (bytes : List Byte)
  /-- A flit sent on an Idger link: its fields, and the symbols of its 9 lanes (R333, R334). -/
  | flit (link : Nat) (flit : Flit) (lanes : List (List (BitVec 2)))
  /-- A progress frame on PIP0 (R493): its level in each half bit time of 5 µs. -/
  | frame (levels : List Bool)
  /-- The FAULT pattern on PIP0: its number of pulses (R494). -/
  | faultPattern (pulses : Nat)
  /-- A level driven on a PIP pin: pin and level. -/
  | pin (i : Nat) (level : Bool)
  /-- Bytes returned on the I3C bus, or an acknowledgement (empty). -/
  | i3c (bytes : List Byte)
  /-- A NACK on the I3C bus. -/
  | i3cNack
  /-- An in-band interrupt request. -/
  | ibi
  /-- A DOE response object. -/
  | doe (bytes : List Byte)
  /-- A control message to Pith or a router on VC0: a state probe or heartbeat, with the unit. -/
  | probe (kind unit : Nat)
deriving DecidableEq, Repr

/-! ### Bring-up, flash, the host link and the pins (R450 to R503) -/

/-- A training group with what the cache holds for it (R460): kind (0 tower, 1 slow-tier channel, 2 link), index, the
serial numbers recorded and the temperature in 1/16 °C. -/
structure Group where
  kind : Nat
  idx : Nat
  serials : List Nat
  temp : Int
deriving DecidableEq, Repr

/-- A copy of the training cache (R462). -/
structure Cache where
  valid : Bool
  gen : Nat
  major : Nat
  minor : Nat
  groups : List Group
deriving DecidableEq, Repr

/-- The running firmware image: release and security version (R451). -/
structure Fw where
  major : Nat
  minor : Nat
  svn : Nat
deriving DecidableEq, Repr

/-- Bring-up, flash and recovery. DEDUCED: log entry 84. -/
structure Boot where
  /-- Levels of PWRGD and PERST_L (true: asserted, that is low) and the presence of the 50 V input. -/
  pwrgd : Bool
  perst : Bool
  input50 : Bool
  /-- Fabric time of the PWRGD rise. -/
  riseAt : Nat
  /-- Stage 0x02 has completed (R459), and the blocks whose stages have ended: the highest stage ended. -/
  endpoint : Bool
  ended : Nat
  /-- The image slot of the flash. -/
  slot : List Byte
  cacheA : Cache
  cacheB : Cache
  /-- The security version floor in one-time storage (SEC_FW_STATE.min_svn). -/
  minSvn : Nat
  /-- The firmware release that runs. -/
  fw : Fw
  /-- Groups trained in this boot: fast and full. -/
  fast : List Group
  full : List Group
  fromRecovery : Bool
  /-- Measurements 0 to 7 (R472): the image's header and sections and the manufacturing area. -/
  meas : Tbl (List Byte)
  /-- Units recorded RETIRED in the repair record: core or column (0, 1), tower × 272 + index. -/
  repair : List (Nat × Nat)
  /-- Boot stores: core tables of R465 by physical core. -/
  tables : Tbl (List Byte)
  /-- The boot store's copy of the core boot stub (R464). -/
  stub : List Byte
  /-- The training cache copy being saved: 0 A, 1 B (R462). -/
  saving : Option Nat
  /-- Fabric time of the entry to RUN or FAULT, and when the next progress frame or FAULT pattern is due (R492 to R494). -/
  phaseAt : Nat
  frameAt : Nat
  i3cReady : Bool
  pinsRun : Bool
  /-- Towers in warm reset: tower, cause, start time and duration in µs (R434). -/
  resets : List (Nat × Nat × Nat × Nat)
deriving DecidableEq, Repr

/-- The PCI Express endpoint. Link status stands in PCI_LINK_STATUS. -/
structure Pci where
  /-- Configuration space (R477, R478): what has been written, by offset; an unlisted register holds its reset value. Memory Space Enable, Bus
  Master Enable and the power state stand in PCI_LINK_STATUS, the size of BAR2 in `bar2Log`. -/
  cfg : Tbl W32
  /-- log2 of the size of BAR2 (R481). -/
  bar2Log : Nat
  /-- Fabric time of the last successful PTM dialog; whether PCI_ notice 0x02 has been raised since (R485). -/
  lastPtm : Nat
  ptmLost : Bool
  /-- Requests to the host that are held (R484), oldest first. -/
  held : List Out
  /-- Error types that AER has logged (R486), by their bit: 12 Poisoned TLP Received, 14 Completion Timeout, 20 Unsupported Request; 32 plus
  the bit of a correctable status: 45 Advisory Non-Fatal. -/
  aer : List Nat
  /-- Host reads through BAR2 that wait for withheld bytes (R210): address and length, oldest first. -/
  waiting : List (Nat × Nat)
  /-- The attestation mailbox (R473): dwords of the request written so far, dwords of the response not yet read, and its error status. -/
  doeIn : List Nat
  doeOut : List Nat
  doeError : Bool
deriving DecidableEq, Repr

/-- The PIP pins and the I3C target. -/
structure Pip where
  /-- ALERT_L is asserted, and the level of RDY (R93). -/
  alert : Bool
  rdy : Bool
  /-- The result of the last management request: status and data, while it has not been read (R497). -/
  reply : Option (List Byte)
  /-- The last in-band interrupt request: its fabric time and the masked alert value it announced (R498). -/
  ibiAt : Nat
  ibiFor : Nat
  /-- Maximum write and read lengths (SETMWL, SETMRL). -/
  mwl : Nat
  mrl : Nat
deriving DecidableEq, Repr

/-- A physical router (R19, R415, R431): its bypass latches are closed; the routers of its tower to which the routes that start here travel
column first (its turn-order table); and per hop it receives from and buffer class (0 row first, 1 column first) how often the flit at the
head of the sender's hop buffer has failed, when it has. -/
structure Net where
  bypass : Bool
  columnFirst : List Nat
  failed : List (Nat × Nat × Nat)
deriving DecidableEq, Repr

/-- Stone's record of units (R428 to R441) beyond the state registers, and Bruise's per-tower state. -/
structure Stone where
  /-- Dead routers: tower × 272 + 17 × row + column (R431). -/
  dead : List Nat
  /-- Physical routers, as `dead` numbers them. -/
  nets : Tbl Net
  /-- Units under quarantine (R438): kind (0 core, 1 column, 5 hart), unit, and the attempts made. -/
  quarantine : List (Nat × Nat × Nat)
  /-- Bruise LFSR of each tower. -/
  lfsr : Tbl W64
  /-- 32-byte groups with the poison bit pending on the next read (R447 kind 3), and cores with a parity error
  pending (kind 4). -/
  flightPoison : List Nat
  parityAt : List Nat
  shapeGen : Nat
  thermalClass : List Nat
  regionLimit : Tbl Nat
  narrow : List (Nat × Nat × Nat)
deriving DecidableEq, Repr

/-- Control space (R39): the registers, keyed by the BAR0 offset of their 8-byte granule, with the read latches and
write holding registers of R48, keyed by requester and block. An unlisted register holds its reset value. -/
structure Ctl where
  regs : Tbl W64
  /-- Syndromes of stored bytes of the scale tables, by the byte's BAR0 offset (R185, R414); an unlisted byte is clean. -/
  syn : Tbl (BitVec 5)
  rlatch : Tbl (Nat × W32)
  whold : Tbl (Nat × W32)
deriving DecidableEq, Repr

/-- The whole block. -/
structure State where
  /-- Commands that wait, first in first out. -/
  pending : List Instr
  /-- Everything the module has sent to the world outside, oldest first. -/
  out : List Out
  /-- Counter from which free values are drawn: the model's own, not the spec's. -/
  free : Nat
  /-- Fabric time in ns (R54, R364). -/
  now : Nat
  ctl : Ctl
  mem : Mem
  llc : Llc
  /-- Physical cores: tower × 272 + 17 × cluster + physical index. -/
  cores : Tbl Core
  /-- Routers' records, by logical core identifier (R16). -/
  routers : Tbl Router
  /-- Loaded plans by handle (R67). -/
  plans : Tbl Plan
  run : Option Run
  cmd : Cmd
  att : Tbl AttEng
  /-- Free-ring entries handed out in the step, by tower × 16 + pool, and pools whose ring is reported low (R294). -/
  ringTaken : Tbl Nat
  ringLow : List Nat
  /-- Channel controllers: tower × 272 + index. -/
  chans : Tbl Chan
  qnc : Qnc
  fab : Fab
  pwr : Power
  boot : Boot
  pci : Pci
  pip : Pip
  stone : Stone
deriving DecidableEq, Repr

def Arr.init : Arr :=
  { mode := 0, progMode := 0, masks := [], cq := [], wq := [], run := [], bufs := [], active := [], bank := [], poison := [],
    kind := [], log := [], logFull := false, gang := 0, window := 0, cols := List.range 64, fifo := [], staging := none, feed := [],
    port := 0, vecEnd := 0, bf := [], lfsr := 0, lastMwld := [], lastCfg := 0 }

def Core.init : Core :=
  { st := .off, s := [], p := [], v := [], vstamp := 0, sTag := [], vTag := [], tok := [], pc := 0, delay := none,
    cyc := 0, stream := [], stalled := false, fly := [], loads := [], pend := [], wb := [], l1 := [], l1plru := [],
    arr0 := Arr.init, arr1 := Arr.init, eng := [], nextId := 0, effNext := 0, halting := [], entry := ⟨0, [], [], []⟩, attempt := 0, stage := [],
    stageUnfit := 0, waits := [], poisonAt := none, fencedBefore := false }

def Router.init : Router := ⟨[], [], [], [], [], []⟩

def Chan.init : Chan := ⟨[], [], [], 0, 0, 0, 0, [], none, 0, false⟩
def AttEng.init : AttEng := ⟨[], [], [], [], []⟩
def SLine.init : SLine := ⟨0, 0, 0, [], false, false, 0, 0, .i, 0⟩
def L1Line.init : L1Line := ⟨0, 0, 0, false, 0⟩
/-- A weight buffer that no MWLD has filled: it records format code 0x0. DESIGN CHOICE: log entry 91. -/
def WBuf.init : WBuf := ⟨0, 0, [], 0⟩
def Cap.init : Cap := ⟨0, 0, 0, false⟩
def Port.init : Port :=
  { retry := [], txSeq := 0, rxSeq := 0, held := [], resent := false, credits := [], toReturn := [], window := 0, sent := [],
    spareAt := none, toAsk := none, asked := none, fecMs := [], tunnel := none, failed := false, switched := false, early := [],
    localOnly := false, failedAt := 0, validAt := 0, identAt := 0, heard := false, peerSent := 0, peerAt := 0, weights := 0x201010 }
def CollEng.init : CollEng := ⟨[], [], [], []⟩
def Prot.init : Prot := ⟨64, 0, none, false, false⟩
def Cache.init : Cache := ⟨false, 0, 0, 0, []⟩

def Power.init : Power :=
  { prof := ⟨500, 500, 0, 11500, 0, 0⟩, profNext := none, want := [], applied := [], lowSince := [],
    guard := Prot.init, coolant := Prot.init, therm := [], thermCore := [], phaseLost := [], domLost := [],
    phaseLimit := [], wakeLimit := [], staging := [], gov := none, floorEpisode := false, histP := [], histI := [],
    energyRem := 0, band := 0, inRangeSince := none, underSince := none, lastCap := 64, lastCapAt := 0, capSince := 0, follow := [],
    followEpisode := false, coolantEpisode := false, hotInletSince := none, pulpTicks := 0,
    tm := [], diffSince := [], tripSince := [], suspectDies := [], qmap := [], volts := [], phaseAmps := [] }

def Fab.init : Fab :=
  { waitReads := [], ports := [], coll := [], reqs := [], nextReq := 0, lockRun := 0, firstLock := false, slew := 0, slewAt := 0, holdRate := false, capSeen := [], offset := 0, lastTime := 0,
    barMembers := [], barBunches := [], barAmax := [], barTouched := [], toSwitch := [] }

def Boot.init : Boot :=
  { pwrgd := false, perst := true, input50 := false, riseAt := 0, endpoint := false, ended := 0, slot := Config.flashImage,
    cacheA := Cache.init, cacheB := Cache.init, minSvn := Config.minSvn.toNat, fw := ⟨0, 0, 0⟩, fast := [], full := [], fromRecovery := false,
    meas := [], repair := [], tables := [], stub := [], saving := none, phaseAt := 0, frameAt := 0, i3cReady := false,
    pinsRun := false, resets := [] }

def Cmd.init : Cmd :=
  { cmdTail := 0, recHead := 0, kept := [], entries := [], reads := 0, active := [], done := [], notices := [], stamp := 0,
    seq := 0, lostBefore := false }

/-- A hart at reset: machine mode, every register 0. DESIGN CHOICE: log entry 5. -/
def Hart.init : Hart := ⟨[], [], [], [], 0, false, [], none⟩

def Net.init : Net := ⟨false, [], []⟩

def Stone.init : Stone :=
  { dead := [], nets := [], quarantine := [], lfsr := [], flightPoison := [], parityAt := [],
    shapeGen := 0, thermalClass := List.replicate 16 0, regionLimit := [], narrow := [] }

/-- The cluster memories as undefined extents (R213): 16 apertures of 256 MiB, with stamps 0 to 15. DESIGN CHOICE: log entry 6. -/
def cmemExtents : List Extent :=
  (List.range 16).map fun t => ⟨0x20000000000 + t * 0x100000000, 0x10000000, t⟩

/-- The block before the first PWRGD rise (R454): every control register at its reset value, every store at the
contents bring-up gives it (R455) or undefined (R213), no plan, no command. Registers and counters for which the spec
gives no reset value stand at the values the assumption log names. DEDUCED: log entry 4. DESIGN CHOICE: log entry 5. DEDUCED: log entry 73. -/
def State.reset : State :=
  { pending := [], out := [], free := 16, now := 0, ctl := ⟨[], [], [], []⟩, mem := ⟨[], [], cmemExtents⟩,
    llc := ⟨[], [], [], [], [], [], [], []⟩, cores := [], routers := [], plans := [], run := none, cmd := Cmd.init, att := [],
    ringTaken := [], ringLow := [], chans := [], qnc := ⟨[], [], [], [], [], [], false⟩, fab := Fab.init,
    pwr := Power.init, boot := Boot.init, pci := ⟨[], 36, 0, false, [], [], [], [], [], false⟩, pip := ⟨false, false, none, 0, 0, 16, 16⟩,
    stone := Stone.init }

end Sys2Proof.Machine
end

