-- ==== Sys2Proof/Machine/ConfigSpace.lean ====
section
/-! DEFINITION. The configuration space of the PCI Express function (R477, R478): its registers with their reset values and writable bits. The
values are those of R477 and R478; where a field stands in a register follows the PCI Express base specification (log entry 97). -/

namespace Sys2Proof.Machine

/-- A 32-bit register of configuration space: its offset, reset value and writable bits. -/
structure CfgReg where
  off : Nat
  reset : Nat
  mask : Nat
deriving DecidableEq, Repr

/-- Header of an extended capability: identifier, version and offset of the next. -/
def capHeader (id ver next : Nat) : Nat := id + ver * 2 ^ 16 + next * 2 ^ 20

/-- The type 0 header (R477, R480): Vendor ID and Device ID, Status with a capability list, Revision ID and Class Code, the BARs, Subsystem
IDs, Capabilities Pointer, Interrupt Pin 0. PRESUMED: log entry 97. -/
def cfgHeader : List CfgReg :=
  [⟨0x00, 0x4B161DF7, 0⟩, ⟨0x04, 0x00100000, 0x100⟩, ⟨0x08, 0x120000B0, 0⟩, ⟨0x0C, 0, 0⟩,
   ⟨0x10, 0x4, 0x80000000⟩, ⟨0x14, 0, 0xFFFFFFFF⟩, ⟨0x18, 0xC, 0⟩, ⟨0x1C, 0, 0xFFFFFFFF⟩, ⟨0x20, 0x4, 0xFFFF0000⟩, ⟨0x24, 0, 0xFFFFFFFF⟩,
   ⟨0x2C, 0x00011DF7, 0⟩, ⟨0x34, 0x40, 0⟩, ⟨0x3C, 0, 0⟩]

/-- Power management at 0x40 and the PCI Express capability at 0x50 (R477, R478): 512-byte payloads, extended and 10-bit tags, no Function Level
Reset, no ASPM, completion timeout ranges B, C and D. PRESUMED: log entry 97. -/
def cfgLegacyCaps : List CfgReg :=
  [⟨0x40, 0x00035001, 0⟩, ⟨0x44, 0x8, 0⟩,
   ⟨0x50, 0x00020010, 0⟩, ⟨0x54, 0x00008022, 0⟩, ⟨0x58, 0x00002100, 0x000071EF⟩, ⟨0x5C, 0x00400106, 0⟩, ⟨0x60, 0x10000000, 0xC0⟩,
   ⟨0x74, 0x0003001E, 0⟩, ⟨0x78, 0, 0x101F⟩, ⟨0x7C, 0x7E, 0⟩, ⟨0x80, 0x6, 0x3F⟩]

/-- The extended capabilities of R478, from 0x100 on. PRESUMED: log entry 97. -/
def cfgExtendedCaps : List CfgReg :=
  [⟨0x100, capHeader 0x01 2 0x140, 0⟩, ⟨0x104, 0, 0⟩, ⟨0x108, 0, 0x001F7010⟩, ⟨0x10C, 0x00062010, 0x001F7010⟩, ⟨0x110, 0, 0⟩,
   ⟨0x114, 0x2000, 0x2000⟩, ⟨0x118, 0, 0⟩,
   ⟨0x140, capHeader 0x03 1 0x150, 0⟩, ⟨0x150, capHeader 0x19 1 0x170, 0⟩,
   ⟨0x170, capHeader 0x25 1 0x180, 0⟩, ⟨0x174, 0x80000001, 0x80000000⟩, ⟨0x180, capHeader 0x26 1 0x1C0, 0⟩, ⟨0x1C0, capHeader 0x27 1 0x200, 0⟩,
   ⟨0x200, capHeader 0x2A 1 0x220, 0⟩, ⟨0x220, capHeader 0x31 1 0x260, 0⟩, ⟨0x260, capHeader 0x15 1 0x280, 0⟩, ⟨0x264, 0x07FF0000, 0⟩,
   ⟨0x280, capHeader 0x1F 1 0x2A0, 0⟩, ⟨0x284, 0x1, 0⟩, ⟨0x288, 0, 0x1⟩, ⟨0x2A0, capHeader 0x2E 1 0, 0⟩]

/-- Every register of configuration space that does not read 0 for good. -/
def cfgRegs : List CfgReg := cfgHeader ++ cfgLegacyCaps ++ cfgExtendedCaps

/-- The register at an offset; one that the table does not list reads 0. -/
def cfgReg (o : Nat) : CfgReg := (cfgRegs.find? fun r => r.off = o).getD ⟨o, 0, 0⟩

/-- The word that a register of configuration space holds: what was last written into its writable bits, else its reset value. -/
def cfgWord (s : State) (o : Nat) : Nat := tget (BitVec.ofNat 32 (cfgReg o).reset) s.pci.cfg o |>.toNat

/-- Store a value into the writable bits of a register. -/
def cfgStore (s : State) (o : Nat) (v : W32) : State :=
  let m := BitVec.ofNat 32 (cfgReg o).mask
  { s with pci := { s.pci with cfg := tput s.pci.cfg o ((BitVec.ofNat 32 (cfgWord s o) &&& ~~~m) ||| (v &&& m)) } }

/-- Max_Read_Request_Size and Max_Payload_Size of Device Control, in bytes (R477, R483). -/
def maxRead (s : State) : Nat := 128 * 2 ^ Nat.min (bits (cfgWord s 0x58) 14 12) 5
def maxPayload (s : State) : Nat := 128 * 2 ^ Nat.min (bits (cfgWord s 0x58) 7 5) 2

/-- The requests that cover n bytes from address a and that cross no multiple of z: address and length of each. PRESUMED: log entry 97. -/
def cuts (z : Nat) : Nat → Nat → Nat → List (Nat × Nat)
  | 0, _, _ => []
  | f + 1, a, n =>
    if n = 0 then []
    else
      let m := Nat.min n (z - a % z)
      (a, m) :: cuts z f (a + m) (n - m)

end Sys2Proof.Machine
end

