-- ==== Sys2Proof/Machine/Float.lean ====
section
/-! DEFINITION. Exact arithmetic on floating-point values and its single rounding: the formats of R167, round to
nearest even (R181) and reproducible stochastic rounding (R182), the range rules of R168, and the FP32 operations
of R113, R505 and the binary64 operations of R324 and R388. A finite value is ± man × 2^exp, held exactly. -/

namespace Sys2Proof.Machine

/-- A floating-point value. -/
inductive FVal where
  | nan
  | inf (neg : Bool)
  | fin (neg : Bool) (man : Nat) (exp : Int)
deriving DecidableEq, Repr

/-- How a format treats the exponent of all ones (R167). -/
inductive FKind where
  /-- Infinities and NaNs as in IEEE 754 (FP32, BF16, binary64, E5M2). -/
  | ieee
  /-- One NaN code, mantissa all ones, and no infinity (E4M3). -/
  | oneNan
  /-- Every code is finite (FP6, FP4). -/
  | allFinite
deriving DecidableEq, Repr

/-- A binary floating-point format of R167. -/
structure FFmt where
  ebits : Nat
  mbits : Nat
  bias : Nat
  kind : FKind
  /-- A conversion saturates to the maximum finite value (R168); otherwise it overflows to infinity. -/
  saturates : Bool
deriving DecidableEq, Repr

def fp32 : FFmt := ⟨8, 23, 127, .ieee, false⟩
def fp64 : FFmt := ⟨11, 52, 1023, .ieee, false⟩
def bf16 : FFmt := ⟨8, 7, 127, .ieee, false⟩
def e4m3 : FFmt := ⟨4, 3, 7, .oneNan, true⟩
def e5m2 : FFmt := ⟨5, 2, 15, .ieee, true⟩
def e3m2 : FFmt := ⟨3, 2, 3, .allFinite, true⟩
def e2m3 : FFmt := ⟨2, 3, 1, .allFinite, true⟩
def e2m1 : FFmt := ⟨2, 1, 1, .allFinite, true⟩

/-- The number of bits of a format. -/
def FFmt.width (f : FFmt) : Nat := 1 + f.ebits + f.mbits

/-- The exponent of the least significant bit of a subnormal. -/
def FFmt.qmin (f : FFmt) : Int := 1 - (f.bias : Int) - (f.mbits : Int)

/-- The magnitude code of the largest finite value (R167). -/
def FFmt.maxCode (f : FFmt) : Nat :=
  match f.kind with
  | .ieee => (2 ^ f.ebits - 1) * 2 ^ f.mbits - 1
  | .oneNan => 2 ^ (f.ebits + f.mbits) - 2
  | .allFinite => 2 ^ (f.ebits + f.mbits) - 1

/-- The value of a magnitude code, as mantissa and exponent. -/
def FFmt.codeVal (f : FFmt) (c : Nat) : Nat × Int :=
  let e := c / 2 ^ f.mbits
  let m := c % 2 ^ f.mbits
  if e = 0 then (m, f.qmin) else (m + 2 ^ f.mbits, f.qmin + (e : Int) - 1)

/-- The exponent of the largest normal value (emax of R171). -/
def FFmt.emax (f : FFmt) : Int := (f.codeVal f.maxCode).2 + (f.mbits : Int)

/-- Decode a pattern of the format (R167). -/
def FFmt.decode (f : FFmt) (n : Nat) : FVal :=
  let neg := n.testBit (f.ebits + f.mbits)
  let c := n % 2 ^ (f.ebits + f.mbits)
  let top := c / 2 ^ f.mbits = 2 ^ f.ebits - 1
  let m := c % 2 ^ f.mbits
  match f.kind with
  | .ieee => if top then (if m = 0 then .inf neg else .nan) else .fin neg (f.codeVal c).1 (f.codeVal c).2
  | .oneNan => if c = 2 ^ (f.ebits + f.mbits) - 1 then .nan else .fin neg (f.codeVal c).1 (f.codeVal c).2
  | .allFinite => .fin neg (f.codeVal c).1 (f.codeVal c).2

/-- The canonical NaN of the format (R167); +0 where it has none (R168). -/
def FFmt.nanCode (f : FFmt) : Nat :=
  match f.kind with
  | .ieee => (2 ^ f.ebits - 1) * 2 ^ f.mbits + 2 ^ (f.mbits - 1)
  | .oneNan => 2 ^ (f.ebits + f.mbits) - 1
  | .allFinite => 0

/-- The magnitude code of infinity. -/
def FFmt.infCode (f : FFmt) : Nat := (2 ^ f.ebits - 1) * 2 ^ f.mbits

/-- A rounding mode with its draw (R107): nearest even, or stochastic with the 24-bit draw D of R183. -/
inductive Rnd where
  | rne
  | sr (draw : Nat)
deriving DecidableEq, Repr

/-- A positive number num / den × 2^exp. -/
structure Mag where
  num : Nat
  den : Nat
  exp : Int
deriving DecidableEq, Repr

/-- The number scaled to units of 2^q, as a fraction. -/
def Mag.scale (v : Mag) (q : Int) : Nat × Nat :=
  let d := v.exp - q
  if 0 ≤ d then (v.num * 2 ^ d.toNat, v.den) else (v.num, v.den * 2 ^ (-d).toNat)

/-- Is a × 2^x at most b × 2^y? -/
def leScaled (a : Nat) (x : Int) (b : Nat) (y : Int) : Bool :=
  if x ≤ y then a ≤ b * 2 ^ (y - x).toNat else a * 2 ^ (x - y).toNat ≤ b

/-- The floor of log2 of a nonzero magnitude. -/
def Mag.log2 (v : Mag) : Int :=
  let k : Int := (Nat.log2 v.num : Int) - (Nat.log2 v.den : Int)
  if leScaled v.den k v.num 0 then v.exp + k else v.exp + k - 1

/-- Round a fraction to an integer (R181, R182). -/
def Rnd.toInt (r : Rnd) (n d : Nat) : Nat :=
  let lo := n / d
  let rem := n % d
  if rem = 0 then lo
  else match r with
    | .rne => if 2 * rem < d then lo else if d < 2 * rem then lo + 1 else lo + lo % 2
    | .sr draw => if rem * 2 ^ 24 / d + draw ≥ 2 ^ 24 then lo + 1 else lo

/-- The unit in which a magnitude is rounded to the format. -/
def FFmt.ulpExp (f : FFmt) (v : Mag) : Int := max f.qmin (v.log2 - (f.mbits : Int))

/-- The magnitude code of a rounded value, before the range rules; codes above `maxCode` have overflowed. -/
def FFmt.roundCode (f : FFmt) (r : Rnd) (v : Mag) : Nat :=
  if v.num = 0 then 0
  else
    let q := f.ulpExp v
    let s := v.scale q
    (q - f.qmin).toNat * 2 ^ f.mbits + r.toInt s.1 s.2

/-- What a conversion did, as R169 counts it. -/
inductive ConvKind where
  | plain
  | flush
  | saturation
  | nonfinite
deriving DecidableEq, Repr

/-- Does the magnitude exceed the format's maximum finite value? -/
def FFmt.exceeds (f : FFmt) (v : Mag) : Bool :=
  let m := f.codeVal f.maxCode
  let s := v.scale m.2
  s.2 * m.1 < s.1

/-- Convert an exact value to the format under R168: the pattern, and what R169 counts. -/
def FFmt.convert (f : FFmt) (r : Rnd) (neg : Bool) (v : Mag) : Nat × ConvKind :=
  let sgn := if neg then 2 ^ (f.ebits + f.mbits) else 0
  let c := f.roundCode r v
  if v.num = 0 then (sgn, .plain)
  else if f.maxCode < c then
    if f.saturates then (sgn + f.maxCode, .saturation) else (sgn + f.infCode, .plain)
  else if f.saturates && f.exceeds v then (sgn + f.maxCode, .saturation)
  else if c = 0 then (sgn, .flush)
  else (sgn + c, .plain)

/-- Convert any value to the format (R168). -/
def FFmt.ofVal (f : FFmt) (r : Rnd) : FVal → Nat × ConvKind
  | .nan => (f.nanCode, .nonfinite)
  | .inf neg =>
    let sgn := if neg then 2 ^ (f.ebits + f.mbits) else 0
    (if f.saturates then sgn + f.maxCode else sgn + f.infCode, .nonfinite)
  | .fin neg m e => f.convert r neg ⟨m, 1, e⟩

/-- Convert a value to a symmetric saturating integer of `w` bits (R168). -/
def intOfVal (w : Nat) (r : Rnd) : FVal → Nat × ConvKind
  | .nan => (0, .nonfinite)
  | .inf neg => (unsigned w (if neg then -(2 ^ (w - 1) - 1 : Nat) else (2 ^ (w - 1) - 1 : Nat)), .nonfinite)
  | .fin neg m e =>
    let s := (Mag.mk m 1 e).scale 0
    let i := r.toInt s.1 s.2
    let mx := 2 ^ (w - 1) - 1
    let ovf := mx < i || mx * s.2 < s.1
    let j := min i mx
    (unsigned w (if neg then -(j : Int) else (j : Int)),
      if m = 0 then .plain else if ovf then .saturation else if j = 0 then .flush else .plain)

/-! ### FP32 and binary64 operations: exact result, one rounding to nearest even -/

/-- The value of an integer times a power of two; a zero takes the sign given. -/
def FVal.ofInt (zneg : Bool) (i : Int) (e : Int) : FVal :=
  if i = 0 then .fin zneg 0 e else .fin (i < 0) i.natAbs e

/-- A finite value's signed mantissa at exponent `e`, which must not exceed its own. -/
def atExp (neg : Bool) (m : Nat) (x e : Int) : Int :=
  let k : Int := (m * 2 ^ (x - e).toNat : Nat)
  if neg then -k else k

/-- The exact sum. An exact zero sum is +0 unless both addends are negative (IEEE 754). -/
def FVal.add : FVal → FVal → FVal
  | .nan, _ => .nan
  | _, .nan => .nan
  | .inf a, .inf b => if a = b then .inf a else .nan
  | .inf a, _ => .inf a
  | _, .inf b => .inf b
  | .fin n m x, .fin k l y =>
    let e := min x y
    FVal.ofInt (n && k) (atExp n m x e + atExp k l y e) e

/-- The value with its sign inverted. -/
def FVal.neg : FVal → FVal
  | .nan => .nan
  | .inf a => .inf (!a)
  | .fin n m x => .fin (!n) m x

/-- Is the value a zero? -/
def FVal.isZero : FVal → Bool
  | .fin _ 0 _ => true
  | _ => false

/-- The exact product. -/
def FVal.mul : FVal → FVal → FVal
  | .nan, _ => .nan
  | _, .nan => .nan
  | .inf a, .inf b => .inf (a != b)
  | .inf a, .fin n m _ => if m = 0 then .nan else .inf (a != n)
  | .fin n m _, .inf b => if m = 0 then .nan else .inf (b != n)
  | .fin n m x, .fin k l y => .fin (n != k) (m * l) (x + y)

/-- Multiply by a power of two. -/
def FVal.scale2 (v : FVal) (k : Int) : FVal :=
  match v with
  | .fin n m x => .fin n m (x + k)
  | w => w

/-- Round a value to the format, nearest even. -/
def FFmt.rne (f : FFmt) (v : FVal) : Nat := (f.ofVal .rne v).1

/-- An operation of two operands in a format, rounded once. -/
def FFmt.op2 (f : FFmt) (g : FVal → FVal → FVal) (a b : Nat) : Nat := f.rne (g (f.decode a) (f.decode b))

def FFmt.add (f : FFmt) (a b : Nat) : Nat := f.op2 FVal.add a b
def FFmt.sub (f : FFmt) (a b : Nat) : Nat := f.op2 (fun x y => x.add y.neg) a b
def FFmt.mul (f : FFmt) (a b : Nat) : Nat := f.op2 FVal.mul a b

/-- Fused multiply-add, single rounding. -/
def FFmt.fma (f : FFmt) (a b c : Nat) : Nat := f.rne (((f.decode a).mul (f.decode b)).add (f.decode c))

/-- Division, correctly rounded. -/
def FFmt.div (f : FFmt) (a b : Nat) : Nat :=
  match f.decode a, f.decode b with
  | .nan, _ => f.nanCode
  | _, .nan => f.nanCode
  | .inf _, .inf _ => f.nanCode
  | .inf n, .fin k _ _ => f.rne (.inf (n != k))
  | .fin n _ _, .inf k => f.rne (.fin (n != k) 0 0)
  | .fin n m x, .fin k l y =>
    if l = 0 then (if m = 0 then f.nanCode else f.rne (.inf (n != k)))
    else (f.convert .rne (n != k) ⟨m, l, x - y⟩).1

/-- The integer square root of n, found bit by bit from bit k - 1 down. -/
def isqrt (n : Nat) : Nat → Nat → Nat
  | 0, r => r
  | k + 1, r =>
    let c := r + 2 ^ k
    if c * c ≤ n then isqrt n k c else isqrt n k r

/-- Square root, correctly rounded: the root is found to 96 bits and a remainder is kept as a half unit. -/
def FFmt.sqrt (f : FFmt) (a : Nat) : Nat :=
  match f.decode a with
  | .nan => f.nanCode
  | .inf neg => if neg then f.nanCode else f.rne (.inf false)
  | .fin neg m x =>
    if m = 0 then f.rne (.fin neg 0 0)
    else if neg then f.nanCode
    else
      let x' := if x % 2 = 0 then x else x - 1
      let m' := if x % 2 = 0 then m else 2 * m
      let big := m' * 2 ^ 160
      let s := isqrt big 112 0
      f.rne (.fin false (2 * s + b2n (s * s ≠ big)) (x' / 2 - 80 - 1))

/-- The value a is below b (both not NaN); zeros of either sign are equal. -/
def FVal.lt : FVal → FVal → Bool
  | .nan, _ => false
  | _, .nan => false
  | .inf a, .inf b => a && !b
  | .inf a, .fin _ _ _ => a
  | .fin _ _ _, .inf b => !b
  | .fin n m x, .fin k l y =>
    let e := min x y
    decide (atExp n m x e < atExp k l y e)

/-- The two values are equal numbers; NaN equals nothing. -/
def FVal.eqv : FVal → FVal → Bool
  | .nan, _ => false
  | _, .nan => false
  | a, b => !(FVal.lt a b) && !(FVal.lt b a)

/-- Is the pattern a NaN of the format? -/
def FFmt.isNan (f : FFmt) (a : Nat) : Bool := f.decode a = .nan

/-- The sign bit. -/
def FFmt.signBit (f : FFmt) (a : Nat) : Bool := a.testBit (f.ebits + f.mbits)

/-- maximum of IEEE 754-2019 (R113): −0 below +0, a NaN gives the canonical NaN. -/
def FFmt.max (f : FFmt) (a b : Nat) : Nat :=
  if f.isNan a || f.isNan b then f.nanCode
  else if FVal.lt (f.decode a) (f.decode b) then b
  else if FVal.lt (f.decode b) (f.decode a) then a
  else if f.signBit a then b else a

/-- minimum of IEEE 754-2019 (R113). -/
def FFmt.min (f : FFmt) (a b : Nat) : Nat :=
  if f.isNan a || f.isNan b then f.nanCode
  else if FVal.lt (f.decode a) (f.decode b) then a
  else if FVal.lt (f.decode b) (f.decode a) then b
  else if f.signBit a then a else b

/-- Is the pattern a nonzero subnormal? -/
def FFmt.isSub (f : FFmt) (a : Nat) : Bool :=
  let c := a % 2 ^ (f.ebits + f.mbits)
  c ≠ 0 && decide (c < 2 ^ f.mbits)

/-- A subnormal replaced by zero of the same sign (R197, R198). -/
def FFmt.daz (f : FFmt) (a : Nat) : Nat := if f.isSub a then a - a % 2 ^ (f.ebits + f.mbits) else a

/-! ### Special functions (R505), correctly rounded

exp and log are summed in fixed point with many more bits than the hardest binary32 case needs; the sum is taken
as inexact, which it is for every argument but those given special results. -/

/-- Fraction bits of the special-function sums. -/
def sfuBits : Nat := 400

/-- Sum of the exponential series in fixed point: term t is x^k / k!, next index k + 1. -/
def expSum (x : Nat) : Nat → Nat → Nat → Nat → Nat
  | 0, _, _, acc => acc
  | f + 1, k, t, acc =>
    let t' := t * x / ((k + 1) * 2 ^ sfuBits)
    if t' = 0 then acc else expSum x f (k + 1) t' (acc + t')

/-- e^y for y ≥ 0 given in fixed point. -/
def expFix (y : Nat) : Nat := expSum y 900 0 (2 ^ sfuBits) (2 ^ sfuBits)

/-- exp of R505. -/
def sfuExp (a : Nat) : Nat :=
  match fp32.decode a with
  | .nan => fp32.nanCode
  | .inf neg => if neg then 0 else fp32.infCode
  | .fin neg m x =>
    if m = 0 then fp32.rne (.fin false 1 0)
    else if leScaled 128 0 m x then (if neg then 0 else fp32.infCode)
    else
      let y := ((Mag.mk m 1 x).scale (-(sfuBits : Int))).1
      let s := expFix y
      if neg then (fp32.convert .rne false ⟨2, 2 * s + 1, (sfuBits : Int)⟩).1
      else (fp32.convert .rne false ⟨2 * s + 1, 1, -(sfuBits : Int) - 1⟩).1

/-- Sum of the atanh series in fixed point: term t is z^(2k+1). -/
def atanhSum (z2 : Nat) : Nat → Nat → Nat → Nat → Nat
  | 0, _, _, acc => acc
  | f + 1, k, t, acc =>
    if t = 0 then acc else atanhSum z2 f (k + 1) (t * z2 / 2 ^ sfuBits) (acc + t / (2 * k + 1))

/-- ln(n / d) for n ≥ d in fixed point. -/
def lnFix (n d : Nat) : Nat :=
  let z := (n - d) * 2 ^ sfuBits / (n + d)
  2 * atanhSum (z * z / 2 ^ sfuBits) 400 0 z 0

/-- log of R505. -/
def sfuLog (a : Nat) : Nat :=
  match fp32.decode a with
  | .nan => fp32.nanCode
  | .inf neg => if neg then fp32.nanCode else fp32.infCode
  | .fin neg m x =>
    if m = 0 then 2 ^ 31 + fp32.infCode
    else if neg then fp32.nanCode
    else
      let l := Nat.log2 m
      let v : Int := (lnFix m (2 ^ l) : Int) + (x + (l : Int)) * (lnFix 2 1 : Int)
      if m = 2 ^ l ∧ x + (l : Int) = 0 then 0
      else (fp32.convert .rne (v < 0) ⟨2 * v.natAbs + 1, 1, -(sfuBits : Int) - 1⟩).1

/-- reciprocal of R505. -/
def sfuRecip (a : Nat) : Nat := fp32.div (fp32.rne (.fin false 1 0)) a

/-- rsqrt of R505. -/
def sfuRsqrt (a : Nat) : Nat :=
  match fp32.decode a with
  | .nan => fp32.nanCode
  | .inf neg => if neg then fp32.nanCode else 0
  | .fin neg m x =>
    if m = 0 then fp32.rne (.inf neg)
    else if neg then fp32.nanCode
    else
      let x' := if x % 2 = 0 then x else x - 1
      let m' := if x % 2 = 0 then m else 2 * m
      let s := isqrt (2 ^ 200 / m') 104 0
      fp32.rne (.fin false (2 * s + b2n (m' * s * s ≠ 2 ^ 200)) (-(x' / 2) - 100 - 1))

/-- Pairwise tree sum of FP32 patterns (R113, R179, R275): adjacent pairs first, level by level. `k` levels. -/
def treeSum (addf : Nat → Nat → Nat) : Nat → List Nat → Nat
  | 0, l => l.headD 0
  | k + 1, l => treeSum addf k ((chunks 2 l.length l).map fun p =>
      match p with
      | [a, b] => addf a b
      | [a] => a
      | _ => 0)

/-- The binary64 value of a natural number or fraction, rounded to nearest even. -/
def f64OfNat (n : Nat) : Nat := fp64.rne (.fin false n 0)
def f64OfFrac (n d : Nat) : Nat := (fp64.convert .rne false ⟨n, d, 0⟩).1

/-- The floor of a binary64 value as an integer; 0 for a NaN or an infinity. -/
def f64Floor (a : Nat) : Int :=
  match fp64.decode a with
  | .fin neg m x =>
    let s := (Mag.mk m 1 x).scale 0
    if neg then -(ceilDiv s.1 s.2 : Int) else (s.1 / s.2 : Nat)
  | _ => 0

/-- Is binary64 a below b? -/
def f64Lt (a b : Nat) : Bool := FVal.lt (fp64.decode a) (fp64.decode b)
def f64Min (a b : Nat) : Nat := if f64Lt b a then b else a
def f64Max (a b : Nat) : Nat := if f64Lt a b then b else a

end Sys2Proof.Machine
end

