-- ==== Sys2Proof/Machine/Formats.lean ====
section
/-! DEFINITION. The element formats by their codes (R106, R167), the MX encodings (R170, R171), the long
accumulators (R172 to R175), the draw of stochastic rounding (R183), the readout exponents (R180) and the scale
update of R188. -/

namespace Sys2Proof.Machine

/-! ### Format codes (R106) -/

/-- The floating-point format of a code; none for the integer and LACC codes. -/
def ffmtOf (code : Nat) : Option FFmt :=
  match code with
  | 0 => some fp32
  | 1 => some bf16
  | 2 => some e4m3
  | 3 => some e5m2
  | 4 => some e3m2
  | 5 => some e2m3
  | 6 => some e2m1
  | _ => none

/-- Width in bits of an integer code. -/
def intBits (code : Nat) : Nat := if code = 7 then 8 else if code = 8 then 32 else 64

/-- The MX formats. -/
def isMx (code : Nat) : Bool := code = 4 || code = 5 || code = 6

/-- The FP8 formats. -/
def isFp8 (code : Nat) : Bool := code = 2 || code = 3

/-- The LACC formats. -/
def isLacc (code : Nat) : Bool := code = 10 || code = 11

/-- Bytes per element of a non-MX format (R106). -/
def fmtBytes (code : Nat) : Nat :=
  match code with
  | 0 => 4
  | 1 => 2
  | 8 => 4
  | 9 => 8
  | 10 => 12
  | 11 => 8
  | _ => 1

/-- Bits of one element of an MX format. -/
def mxBits (code : Nat) : Nat := if code = 6 then 4 else 6

/-- Bytes of one MX block (R170). -/
def mxBlock (code : Nat) : Nat := 4 * mxBits code

/-- Bytes of an MX row encoding of n elements (R170). -/
def mxRowBytes (code n : Nat) : Nat := 4 + n / 32 * mxBlock code

/-- The value of an element pattern (R167). -/
def elemVal (code pat : Nat) : FVal :=
  match ffmtOf code with
  | some f => f.decode pat
  | none => FVal.ofInt false (signed (intBits code) pat) 0

/-- Convert a value to an element pattern of a code (R168). -/
def encodeElem (code : Nat) (r : Rnd) (v : FVal) : Nat × ConvKind :=
  match ffmtOf code with
  | some f => f.ofVal r v
  | none => intOfVal (intBits code) r v

/-! ### MX rows (R170, R171) -/

/-- The value of element i of an MX row encoding: element value × 2^(scale − 127); NaN under scale 0xFF. -/
def mxElem (code : Nat) (row : List Byte) (i : Nat) : FVal :=
  let b := i / 32
  let sc := ((row[b]?).getD 0).toNat
  let blk := leAt row (4 + b * mxBlock code) (mxBlock code)
  let w := mxBits code
  if sc = 255 then .nan else (elemVal code ((blk >>> (w * (i % 32))) % 2 ^ w)).scale2 ((sc : Int) - 127)

/-- The magnitude of a finite value; 0 of a NaN or an infinity. -/
def FVal.mag : FVal → Mag
  | .fin _ m x => ⟨m, 1, x⟩
  | _ => ⟨0, 1, 0⟩

/-- The larger of two magnitudes of denominator 1. -/
def Mag.max (a b : Mag) : Mag := if leScaled a.num a.exp b.num b.exp then b else a

/-- The largest finite magnitude of a list of values; zero when there is none. -/
def amaxOf (vs : List FVal) : Mag := vs.foldl (fun a v => a.max v.mag) ⟨0, 1, 0⟩

/-- Is the value an infinity or a NaN? -/
def FVal.nonfinite : FVal → Bool
  | .fin _ _ _ => false
  | _ => true

/-- The scale byte a block of inputs takes (R171). -/
def mxScaleOf (code : Nat) (vs : List FVal) : Nat :=
  let a := amaxOf vs
  if a.num = 0 then 127
  else
    let e : Int := a.log2 - ((ffmtOf code).getD e2m1).emax + 127
    (Max.max 0 (Min.min 254 e)).toNat

/-- Encode one block of 32 inputs, each with its rounding: scale byte, the block as a number, what R169 counts. -/
def mxEncodeBlock (code : Nat) (vs : List (FVal × Rnd)) : Nat × Nat × List ConvKind :=
  let sc := mxScaleOf code (vs.map (·.1))
  let es := vs.map fun v => encodeElem code v.2 (v.1.scale2 (127 - (sc : Int)))
  (sc, es.foldr (fun e acc => e.1 + 2 ^ mxBits code * acc) 0, es.map (·.2))

/-- Encode a row of inputs as an MX row (R170): bytes and what R169 counts. -/
def mxEncode (code : Nat) (vs : List (FVal × Rnd)) : List Byte × List ConvKind :=
  let bs := (chunks 32 vs.length vs).map (mxEncodeBlock code)
  let scs := bs.map fun b => BitVec.ofNat 8 b.1
  (scs ++ List.replicate (4 - scs.length) 0 ++ (bs.map fun b => leBytes (mxBlock code) b.2.1).flatten,
    (bs.map fun b => b.2.2).flatten)

/-! ### LACC (R172 to R175) -/

def laccNan : Lacc := 0x800000000000000000000000#96
def laccPinf : Lacc := 0x800000000000000000000001#96
def laccNinf : Lacc := 0x800000000000000000000002#96

/-- Is the pattern one of the two infinities? -/
def laccIsInf (a : Lacc) : Bool := a = laccPinf || a = laccNinf

/-- LACC addition (R173). -/
def laccAdd (a b : Lacc) : Lacc :=
  if a = laccNan || b = laccNan then laccNan
  else if laccIsInf a && laccIsInf b then (if a = b then a else laccNan)
  else if laccIsInf a then a
  else if laccIsInf b then b
  else a + b

/-- The value of a LACC-96 pattern. -/
def laccVal (a : Lacc) : FVal :=
  if a = laccNan then .nan
  else if a = laccPinf then .inf false
  else if a = laccNinf then .inf true
  else FVal.ofInt false a.toInt (-32)

/-- The LACC-96 pattern of an exact value whose exponent is at least −32 (a product of R174). -/
def laccOf : FVal → Lacc
  | .nan => laccNan
  | .inf n => if n then laccNinf else laccPinf
  | .fin n m x =>
    let s := (Mag.mk m 1 x).scale (-32)
    BitVec.ofInt 96 (if n then -((s.1 / s.2 : Nat) : Int) else ((s.1 / s.2 : Nat) : Int))

/-- LACC-96 to LACC-64 (R175): the pattern, and whether it counts as unfit. -/
def laccNarrow (a : Lacc) : Nat × Bool :=
  if a = laccNan then (2 ^ 63, false)
  else if a = laccPinf then (2 ^ 63 + 1, false)
  else if a = laccNinf then (2 ^ 63 + 2, false)
  else if -(2 ^ 63 : Int) + 4 ≤ a.toInt ∧ a.toInt < 2 ^ 63 then (unsigned 64 a.toInt, false)
  else (2 ^ 63 + 3, true)

/-- LACC-64 to LACC-96 (R175): unfit reads as NaN. -/
def laccWiden (n : Nat) : Lacc :=
  if n = 2 ^ 63 ∨ n = 2 ^ 63 + 3 then laccNan
  else if n = 2 ^ 63 + 1 then laccPinf
  else if n = 2 ^ 63 + 2 then laccNinf
  else BitVec.ofInt 96 (signed 64 n)

/-- Add a line of LACC-96 elements bytewise (32 elements in 384 bytes, R225). -/
def laccAddBytes (a b : List Byte) : List Byte :=
  (List.zipWith (fun x y => leBytes 12 (laccAdd (BitVec.ofNat 96 (leNat x)) (BitVec.ofNat 96 (leNat y))).toNat)
    (chunks 12 a.length a) (chunks 12 b.length b)).flatten

/-- Add elements of n bytes modulo 2^(8n) (R224). -/
def wrapAddBytes (n : Nat) (a b : List Byte) : List Byte :=
  (List.zipWith (fun x y => leBytes n (leNat x + leNat y)) (chunks n a.length a) (chunks n b.length b)).flatten

/-- Add FP32 elements, each sum rounded to nearest even. -/
def fp32AddBytes (a b : List Byte) : List Byte :=
  (List.zipWith (fun x y => leBytes 4 (fp32.add (leNat x) (leNat y))) (chunks 4 a.length a) (chunks 4 b.length b)).flatten

/-! ### The draw of stochastic rounding (R183) -/

/-- One mixing step of R183. -/
def srMix (x : W64) : W64 :=
  let x := x ^^^ (x >>> 29)
  let x := x * 0x8F3A5C71D94B2E67#64
  let x := x ^^^ (x >>> 31)
  let x := x * 0xB5E10C937A48F1D3#64
  x ^^^ (x >>> 30)

/-- The 24-bit draw D of R183. -/
def srDraw (planSeed : W64) (step core : Nat) (elem : W64) : Nat :=
  let h := srMix (planSeed ^^^ 0x6D27E4A93C158B0B#64)
  let h := srMix (h ^^^ BitVec.ofNat 64 (step * 2 ^ 16 ||| core))
  let h := srMix (h ^^^ elem)
  (h >>> 40).toNat

/-! ### Captures and the scale update (R187, R188) -/

/-- A magnitude rounded toward +infinity to a BF16 code (R185, R188). -/
def bf16Up (v : Mag) : Nat :=
  if v.num = 0 then 0
  else
    let q := bf16.ulpExp v
    let s := v.scale q
    Min.min bf16.infCode ((q - bf16.qmin).toNat * 2 ^ bf16.mbits + ceilDiv s.1 s.2)

/-- The maximum M of a format of R188, as mantissa and exponent; none for the formats without an update. -/
def updateMax (code : Nat) : Option (Nat × Int) :=
  if code = 0 then none
  else if code = 7 then some (127, 0)
  else (ffmtOf code).map fun f => f.codeVal f.maxCode

/-- The largest e from `k − 1 − 64` down to −64 with h × 2^(e + margin) ≤ M; −64 when there is none (the clamp). -/
def bestExp (hm : Nat) (he : Int) (margin : Nat) (m : Nat) (me : Int) : Nat → Int
  | 0 => -64
  | k + 1 =>
    let e : Int := (k : Int) - 64
    if leScaled hm (he + e + (margin : Int)) m me then e else bestExp hm he margin m me k

/-- The new exponent of an entry (R188 item 2): none keeps it and sets zero_hold. `h` is the largest BF16 magnitude
code among the valid ring slots. -/
def newExp (h margin : Nat) (max : Nat × Int) : Option Int :=
  if h = 0 then none
  else if bf16.infCode ≤ h then some (-64)
  else some (bestExp (bf16.codeVal h).1 (bf16.codeVal h).2 margin max.1 max.2 129)

/-- Values with their index, from 0. -/
def indexed {α : Type} (l : List α) : List (Nat × α) := l.mapIdx fun i x => (i, x)

end Sys2Proof.Machine
end

