-- ==== Sys2Proof/Machine/RegTable.lean ====
section
/-! DEFINITION. The layout of control space (R39 to R42) and the fields of every register of the spec: their places,
access codes and reset values (R7 to R9, R504). A register is named by the BAR0 offset of the 8-byte granule that
holds it. -/

namespace Sys2Proof.Machine

/-- Kinds of register block (R40 to R42). -/
inductive BK where
  | pth | pwt | thm | idg | vch | row | llcCommon | llc | noc | brz | core | arr | cl | att
  | stn | pci | boot | sec | pkm | pwm | pip | qnc | qch
deriving DecidableEq, Repr

/-- A register block: its kind, the BAR0 offset of its base, its tower (0 for the hub and Quince) and its index within
its kind: the port, channel, slice, physical core index 17c + p, twice that plus the array, cluster, or channel j. -/
structure Blk where
  kind : BK
  base : Nat
  tower : Nat
  idx : Nat
deriving DecidableEq, Repr

/-- Bases of the blocks. -/
def towerBase (t : Nat) : Nat := t * 0x4000000
def pthBase (t : Nat) : Nat := towerBase t
def pwtBase (t : Nat) : Nat := towerBase t + 0x100000
def thmBase (t : Nat) : Nat := towerBase t + 0x200000
def idgBase (t k : Nat) : Nat := towerBase t + 0x300000 + k * 0x10000
def vchBase (t i : Nat) : Nat := towerBase t + 0x400000 + i * 0x1000
def rowBase (t : Nat) : Nat := towerBase t + 0x600000
def llcCommonBase (t : Nat) : Nat := towerBase t + 0x700000
def llcBase (t i : Nat) : Nat := towerBase t + 0x710000 + i * 0x800
def nocBase (t : Nat) : Nat := towerBase t + 0x800000
def brzBase (t : Nat) : Nat := towerBase t + 0x900000
def clusterBase (t c : Nat) : Nat := towerBase t + 0x1000000 + c * 0x200000
def coreBase (t i : Nat) : Nat := clusterBase t (i / 17) + (i % 17) * 0x10000
def arrBase (t i a : Nat) : Nat := coreBase t i + 0x4000 + a * 0x2000
def clBase (t c : Nat) : Nat := clusterBase t c + 0x180000
def attBase (t c : Nat) : Nat := clusterBase t c + 0x190000
def stnBase : Nat := 0x40000000
def pciBase : Nat := 0x41000000
def bootBase : Nat := 0x42000000
def secBase : Nat := 0x43000000
def pkmBase : Nat := 0x44000000
def pwmBase : Nat := 0x45000000
def pipBase : Nat := 0x46000000
def qncBase : Nat := 0x50000000
def qchBase (j : Nat) : Nat := 0x51000000 + j * 0x10000

/-- The block at an offset of a cluster's 2 MiB (R41). -/
def blkOfCluster (t c o : Nat) : Option Blk :=
  if o < 0x110000 then
    let p := o / 0x10000
    let q := o % 0x10000
    let i := 17 * c + p
    if q < 0x4000 then some ⟨.core, coreBase t i, t, i⟩
    else if q < 0x6000 then some ⟨.arr, arrBase t i 0, t, 2 * i⟩
    else if q < 0x8000 then some ⟨.arr, arrBase t i 1, t, 2 * i + 1⟩
    else none
  else if 0x180000 ≤ o ∧ o < 0x190000 then some ⟨.cl, clBase t c, t, c⟩
  else if 0x190000 ≤ o ∧ o < 0x1A0000 then some ⟨.att, attBase t c, t, c⟩
  else none

/-- The block at an offset of a tower's 64 MiB (R40). -/
def blkOfTower (t o : Nat) : Option Blk :=
  if o < 0x100000 then some ⟨.pth, pthBase t, t, 0⟩
  else if o < 0x200000 then some ⟨.pwt, pwtBase t, t, 0⟩
  else if o < 0x300000 then some ⟨.thm, thmBase t, t, 0⟩
  else if o < 0x340000 then some ⟨.idg, idgBase t ((o - 0x300000) / 0x10000), t, (o - 0x300000) / 0x10000⟩
  else if o < 0x400000 then none
  else if o < 0x510000 then some ⟨.vch, vchBase t ((o - 0x400000) / 0x1000), t, (o - 0x400000) / 0x1000⟩
  else if o < 0x600000 then none
  else if o < 0x700000 then some ⟨.row, rowBase t, t, 0⟩
  else if o < 0x710000 then some ⟨.llcCommon, llcCommonBase t, t, 0⟩
  else if o < 0x798000 then some ⟨.llc, llcBase t ((o - 0x710000) / 0x800), t, (o - 0x710000) / 0x800⟩
  else if o < 0x800000 then none
  else if o < 0x900000 then some ⟨.noc, nocBase t, t, 0⟩
  else if o < 0xA00000 then some ⟨.brz, brzBase t, t, 0⟩
  else if 0x1000000 ≤ o ∧ o < 0x3000000 then
    blkOfCluster t ((o - 0x1000000) / 0x200000) ((o - 0x1000000) % 0x200000)
  else none

/-- The block at a BAR0 offset; none where it is unmapped (R39 to R42). -/
def blkOf (o : Nat) : Option Blk :=
  if o < 0x40000000 then blkOfTower (o / 0x4000000) (o % 0x4000000)
  else if o < 0x41000000 then some ⟨.stn, stnBase, 0, 0⟩
  else if o < 0x42000000 then some ⟨.pci, pciBase, 0, 0⟩
  else if o < 0x43000000 then some ⟨.boot, bootBase, 0, 0⟩
  else if o < 0x44000000 then some ⟨.sec, secBase, 0, 0⟩
  else if o < 0x45000000 then some ⟨.pkm, pkmBase, 0, 0⟩
  else if o < 0x46000000 then some ⟨.pwm, pwmBase, 0, 0⟩
  else if o < 0x47000000 then some ⟨.pip, pipBase, 0, 0⟩
  else if 0x50000000 ≤ o ∧ o < 0x51000000 then some ⟨.qnc, qncBase, 0, 0⟩
  else if 0x51000000 ≤ o ∧ o < 0x51200000 then some ⟨.qch, qchBase ((o - 0x51000000) / 0x10000), 0, (o - 0x51000000) / 0x10000⟩
  else none

/-- Access codes of a field (R7, R504). -/
inductive Acc where
  | ro | rw | w1c | wo
deriving DecidableEq, Repr

/-- A field of a granule: bits [hi:lo], access and reset value. -/
structure Fld where
  hi : Nat
  lo : Nat
  acc : Acc
  rst : Nat
deriving DecidableEq, Repr

/-- Number of 64-bit event counters of a block kind at offset 0x200 + 8n (R52 and the chapters' counter tables). -/
def cntCount : BK → Nat
  | .core => 7
  | .arr => 7
  | .vch => 12
  | .llc => 9
  | .cl => 5
  | .att => 9
  | .qnc => 7
  | .qch => 7
  | .idg => 10
  | .pwm => 5
  | .pwt => 3
  | .thm => 3
  | .brz => 3
  | .noc => 2
  | .pci => 5
  | .pip => 2
  | _ => 0

/-- The block holds a correctable-error log (R424). -/
def hasCeLog : BK → Bool
  | .vch => true
  | .llc => true
  | .cl => true
  | .qch => true
  | _ => false

/-- Fields of the scale-table entry's low and high granules (R185, R322). -/
def scaleLo (core : Bool) : List Fld :=
  (if core then [⟨63, 56, .rw, 0xFF⟩, ⟨55, 48, .rw, 0xFF⟩, ⟨35, 34, .rw, 0⟩, ⟨33, 33, .rw, 0⟩] else []) ++
  [⟨42, 40, .rw, 0⟩, ⟨39, 36, .rw, 2⟩, ⟨32, 32, .rw, 0⟩, ⟨20, 16, .ro, 0⟩, ⟨15, 15, .w1c, 0⟩, ⟨14, 14, .w1c, 0⟩,
    ⟨13, 13, .w1c, 0⟩, ⟨7, 0, .rw, 0⟩]
def scaleHi : List Fld := [⟨63, 32, .ro, 0⟩, ⟨31, 16, .ro, 0⟩, ⟨15, 8, .rw, 0⟩, ⟨4, 4, .rw, 0⟩, ⟨3, 0, .ro, 0⟩]

/-- Fields of a logical-to-physical map granule (R429): eight positions from k0, each reset to its own index. DEDUCED: log entry 14. -/
def mapFlds (k0 : Nat) : List Fld := (List.range 8).map fun j => ⟨8 * j + 4, 8 * j, .rw, k0 + j⟩

/-- Fields of CL_CORE_STATE and CL_COL_STATE (R428). -/
def unitStateFlds : List Fld := (List.range 17).map fun p => ⟨3 * p + 2, 3 * p, .ro, if p < 16 then 1 else 0⟩

/-- Fields of the pth block's granule at offset o. -/
def fldsPth (o : Nat) : List Fld :=
  if o = 0x100 then [⟨31, 31, .ro, 0⟩, ⟨11, 4, .ro, 0x12⟩, ⟨3, 0, .rw, 0⟩] else []

/-- Fields of the pwt block's granule at offset o. -/
def fldsPwt (o : Nat) : List Fld :=
  if 0x10 ≤ o ∧ o < 0x30 then [⟨63, 0, .ro, 0⟩]
  else if 0x100 ≤ o ∧ o < 0x180 then
    [⟨47, 32, .ro, 0⟩, ⟨30, 30, .w1c, 0⟩, ⟨29, 26, .ro, 0xF⟩, ⟨25, 24, .ro, 0⟩, ⟨22, 16, .ro, 0x40⟩,
      ⟨14, 8, .ro, 0x40⟩, ⟨6, 0, .ro, 0x40⟩]
  else []

/-- Fields of the thm block's granule at offset o. -/
def fldsThm (o : Nat) : List Fld :=
  if 0x800 ≤ o ∧ o < 0x1000 then [⟨63, 0, .ro, 0⟩]
  else if 0x1000 ≤ o ∧ o < 0x1600 then
    [⟨49, 49, .ro, 0⟩, ⟨48, 48, .ro, 0⟩, ⟨47, 32, .ro, 0⟩, ⟨31, 16, .ro, 0⟩, ⟨15, 0, .ro, 0⟩]
  else []

/-- Fields of the idg block's granule at offset o. -/
def fldsIdg (idx o : Nat) : List Fld :=
  if o = 0 then [⟨39, 32, .ro, 0⟩, ⟨24, 24, .ro, 0⟩, ⟨23, 20, .ro, 0⟩, ⟨16, 8, .ro, 0⟩, ⟨7, 7, .ro, 0⟩,
    ⟨6, 6, .ro, 0⟩, ⟨5, 5, .ro, 0⟩, ⟨2, 0, .ro, 0⟩]
  else if o = 0x10 then [⟨63, 48, .ro, 0⟩, ⟨45, 40, .ro, 0⟩, ⟨39, 32, .ro, 0⟩]
  else if o = 0x18 then [⟨63, 0, .ro, 0⟩]
  else if o = 0x20 then [⟨63, 63, .rw, 0⟩, ⟨61, 56, .rw, 0⟩, ⟨55, 40, .rw, 0xFFFF⟩, ⟨31, 31, .rw, 0⟩,
    ⟨29, 24, .rw, 0⟩, ⟨23, 8, .rw, 0xFFFF⟩]
  else if idx = 0 ∧ ((0x4000 ≤ o ∧ o < 0x4080) ∨ (0x8000 ≤ o ∧ o < 0x8000 + 8 * 1026)) then
    [⟨63, 63, .rw, 0⟩, ⟨57, 56, .ro, 0⟩, ⟨31, 31, .rw, 0⟩, ⟨29, 24, .rw, 0⟩, ⟨23, 23, .rw, 0⟩, ⟨21, 16, .rw, 0⟩,
      ⟨15, 15, .rw, 0⟩, ⟨13, 8, .rw, 0⟩, ⟨7, 7, .rw, 0⟩, ⟨5, 0, .rw, 0⟩]
  else []

/-- Fields of the vch block's granule at offset o. -/
def fldsVch (idx o : Nat) : List Fld :=
  if o = 0 then [⟨55, 50, .ro, 0⟩, ⟨47, 40, .ro, 0⟩, ⟨31, 28, .ro, 0⟩, ⟨24, 20, .ro, 0⟩, ⟨15, 12, .ro, idx % 16⟩,
    ⟨11, 11, .ro, 0⟩, ⟨10, 10, .ro, 0⟩, ⟨9, 9, .ro, 0⟩, ⟨8, 8, .ro, 0⟩, ⟨5, 5, .ro, 0⟩, ⟨4, 4, .ro, 0⟩,
    ⟨1, 0, .ro, 0⟩]
  else []

/-- Fields of the row block's granule at offset o. -/
def fldsRow (o : Nat) : List Fld :=
  if 0x1000 ≤ o ∧ o < 0x1000 + 8 * 272 then [⟨49, 32, .ro, 0⟩, ⟨29, 12, .ro, 0⟩, ⟨10, 0, .ro, 0⟩] else []

/-- Fields of the llc block's granule at offset o. -/
def fldsLlc (o : Nat) : List Fld :=
  if o = 0 then [⟨44, 32, .ro, 0⟩, ⟨31, 24, .ro, 0⟩, ⟨23, 17, .ro, 0⟩, ⟨3, 3, .ro, 0⟩, ⟨2, 2, .ro, 0⟩,
    ⟨1, 1, .ro, 0⟩, ⟨0, 0, .ro, 0⟩] else []

/-- Fields of the brz block's granule at offset o. -/
def fldsBrz (o : Nat) : List Fld :=
  if o = 0 then [⟨63, 63, .ro, 0⟩, ⟨32, 32, .rw, 0⟩, ⟨5, 0, .rw, 0⟩]
  else if o = 8 then [⟨63, 0, .rw, 0⟩]
  else if o = 0x10 then [⟨63, 44, .rw, 0⟩, ⟨43, 36, .rw, 0⟩, ⟨35, 28, .rw, 0⟩, ⟨27, 20, .rw, 0⟩, ⟨19, 16, .rw, 0⟩,
    ⟨15, 0, .rw, 0⟩]
  else if o = 0x18 then [⟨13, 0, .rw, 0⟩]
  else if 0x100 ≤ o ∧ o < 0x120 then [⟨63, 0, .rw, 0⟩]
  else if o = 0x120 then [⟨15, 0, .rw, 0⟩]
  else if o = 0x40 then [⟨63, 60, .rw, 0⟩, ⟨59, 56, .rw, 0⟩, ⟨50, 48, .rw, 0⟩, ⟨47, 0, .rw, 0⟩]
  else if o = 0x48 then [⟨16, 8, .rw, 0⟩, ⟨4, 4, .ro, 0⟩, ⟨3, 3, .w1c, 0⟩, ⟨2, 2, .ro, 0⟩, ⟨0, 0, .wo, 0⟩]
  else []

/-- Fields of the core block's granule at offset o. -/
def fldsCore (o : Nat) : List Fld :=
  if o = 0x100 then [⟨43, 32, .ro, 0⟩, ⟨31, 20, .ro, 0⟩, ⟨19, 18, .ro, 0⟩, ⟨17, 16, .ro, 0⟩, ⟨15, 8, .ro, 0⟩,
    ⟨0, 0, .w1c, 0⟩]
  else if o = 0x108 then [⟨63, 0, .ro, 0⟩]
  else if 0x1000 ≤ o ∧ o < 0x2000 then (if o % 16 = 0 then scaleLo true else scaleHi)
  else if 0x2000 ≤ o ∧ o < 0x4000 then [⟨63, 0, .rw, 0⟩]
  else []

/-- Fields of the arr block's granule at offset o. -/
def fldsArr (idx o : Nat) : List Fld :=
  if o = 0 then [⟨41, 32, .ro, 0⟩, ⟨31, 31, .ro, 0⟩, ⟨30, 24, .ro, 0x40⟩, ⟨22, 20, .ro, 0⟩, ⟨19, 19, .ro, 0⟩,
    ⟨15, 12, .ro, 0⟩, ⟨11, 8, .w1c, 0⟩, ⟨7, 7, .w1c, 0⟩, ⟨1, 0, .ro, 0⟩]
  else if o = 0x10 then [⟨63, 0, .rw, 0⟩]
  else if o = 0x18 then [⟨63, 63, .rw, 0⟩, ⟨1, 0, .rw, 0⟩]
  else if idx % 2 = 0 ∧ o = 0x20 then [⟨2, 2, .rw, 0⟩, ⟨1, 0, .rw, 0⟩]
  else if idx % 2 = 0 ∧ o = 0x28 then [⟨63, 63, .w1c, 0⟩, ⟨47, 32, .ro, 0⟩, ⟨13, 8, .ro, 0⟩, ⟨6, 0, .ro, 0⟩]
  else []

/-- Fields of the cl block's granule at offset o. -/
def fldsCl (o : Nat) : List Fld :=
  if o = 0x10 then mapFlds 0 else if o = 0x18 then mapFlds 8
  else if o = 0x20 then mapFlds 0 else if o = 0x28 then mapFlds 8
  else if o = 0x30 then [⟨31, 0, .ro, 0⟩]
  else if o = 0x40 ∨ o = 0x48 then unitStateFlds
  else []

/-- Fields of the att block's granule at offset o. -/
def fldsAtt (o : Nat) : List Fld :=
  if o = 0 then [⟨42, 32, .ro, 0⟩, ⟨24, 16, .ro, 0⟩, ⟨13, 8, .ro, 0⟩, ⟨7, 5, .ro, 0⟩, ⟨0, 0, .ro, 0⟩] else []

/-- Fields of the stn block's granule at offset o. -/
def fldsStn (o : Nat) : List Fld :=
  if o = 0x1000 then [⟨63, 6, .rw, 0⟩]
  else if o = 0x1008 then [⟨63, 32, .ro, 0⟩, ⟨31, 31, .rw, 0⟩, ⟨4, 0, .rw, 6⟩]
  else if o = 0x1010 then [⟨63, 5, .rw, 0⟩]
  else if o = 0x1018 then [⟨63, 32, .ro, 0⟩, ⟨31, 31, .rw, 0⟩, ⟨4, 0, .rw, 6⟩]
  else if o = 0x1020 then [⟨31, 0, .ro, 0⟩]
  else if o = 0x1028 then [⟨63, 0, .ro, 0⟩]
  else if 0x1040 ≤ o ∧ o < 0x1070 then [⟨63, 0, .ro, 0⟩]
  else if o = 0x2000 then [⟨63, 63, .rw, 0⟩, ⟨47, 32, .rw, 0xFFFF⟩, ⟨31, 16, .rw, 0xFFFF⟩, ⟨15, 6, .rw, 0⟩, ⟨4, 0, .rw, 0⟩]
  else if o = 0x2008 then [⟨13, 13, .rw, 0⟩, ⟨12, 8, .rw, 0⟩, ⟨5, 5, .rw, 0⟩, ⟨4, 0, .rw, 0⟩]
  else if o = 0x2010 then [⟨47, 32, .ro, 0⟩, ⟨7, 7, .ro, 0⟩, ⟨6, 6, .ro, 0⟩, ⟨1, 1, .ro, 0⟩, ⟨0, 0, .ro, 0⟩]
  else if o = 0x2018 then [⟨63, 0, .ro, 0⟩]
  else if 0x2040 ≤ o ∧ o < 0x2080 then [⟨63, 0, .ro, 0⟩]
  else if o = 0x3000 then [⟨31, 16, .ro, 0⟩, ⟨15, 0, .wo, 0⟩]
  else if 0x10000 ≤ o ∧ o < 0x10800 then [⟨63, 0, .ro, 0⟩]
  else []

/-- Fields of the pci block's granule at offset o. -/
def fldsPci (o : Nat) : List Fld :=
  if o = 0 then [⟨15, 15, .ro, 0⟩, ⟨14, 14, .ro, 0⟩, ⟨13, 13, .ro, 0⟩, ⟨12, 12, .ro, 0⟩, ⟨11, 11, .ro, 0⟩,
    ⟨10, 8, .ro, 0⟩, ⟨4, 0, .ro, 0⟩]
  else if o = 0x100 then [⟨11, 0, .rw, 0⟩]
  else if o = 0x110 then [⟨63, 32, .ro, 0⟩, ⟨1, 1, .ro, 0⟩, ⟨0, 0, .ro, 0⟩]
  else if o = 0x120 then [⟨63, 12, .rw, 0⟩, ⟨0, 0, .rw, 0⟩]
  else []

/-- Fields of the boot block's granule at offset o. -/
def fldsBoot (o : Nat) : List Fld :=
  if o = 0 then [⟨63, 32, .ro, 0⟩, ⟨31, 24, .ro, 0⟩, ⟨23, 20, .ro, 0⟩, ⟨19, 19, .ro, 0⟩, ⟨18, 18, .ro, 0⟩,
    ⟨17, 17, .ro, 0⟩, ⟨16, 16, .ro, 0⟩, ⟨15, 8, .ro, 1⟩, ⟨1, 0, .ro, 0⟩]
  else if o = 8 then [⟨3, 0, .ro, 0⟩]
  else if o = 0x100 then [⟨63, 12, .rw, 0⟩]
  else if o = 0x108 then [⟨63, 32, .rw, 0⟩, ⟨23, 16, .ro, 0⟩, ⟨9, 9, .ro, 0⟩, ⟨8, 8, .w1c, 0⟩, ⟨1, 1, .rw, 0⟩,
    ⟨0, 0, .wo, 0⟩]
  else []

/-- Fields of the sec block's granule at offset o. -/
def fldsSec (o : Nat) : List Fld :=
  if o = 0 then [⟨16, 16, .ro, 0⟩, ⟨15, 8, .ro, 0⟩, ⟨7, 0, .ro, 0⟩] else []

/-- Fields of the pwm block's granule at offset o. -/
def fldsPwm (o : Nat) : List Fld :=
  if o = 0 then [⟨23, 16, .ro, 0⟩, ⟨6, 0, .ro, 0x40⟩]
  else if o = 0x10 then [⟨47, 32, .ro, 0⟩, ⟨31, 16, .ro, 0⟩, ⟨15, 0, .ro, 0⟩]
  else if o = 0x18 then [⟨63, 48, .ro, 0⟩, ⟨47, 32, .ro, 0⟩, ⟨31, 16, .ro, 0⟩, ⟨15, 0, .ro, 0⟩]
  else if o = 0x30 then [⟨63, 48, .ro, 11500⟩, ⟨47, 32, .ro, 0⟩, ⟨31, 16, .ro, 500⟩, ⟨15, 0, .ro, 500⟩]
  else if o = 0x38 then [⟨43, 43, .ro, 0⟩, ⟨42, 42, .ro, 0⟩, ⟨41, 41, .ro, 0⟩, ⟨40, 40, .ro, 0⟩, ⟨38, 32, .ro, 0⟩,
    ⟨30, 24, .ro, 0x40⟩, ⟨22, 16, .ro, 0x40⟩, ⟨14, 8, .ro, 0x40⟩, ⟨6, 0, .ro, 0x40⟩]
  else if o = 0x40 then [⟨63, 0, .ro, 0⟩]
  else if o = 0x50 then [⟨47, 32, .ro, 0⟩, ⟨31, 16, .ro, 0⟩, ⟨15, 0, .ro, 0⟩]
  else if o = 0x60 then [⟨47, 32, .ro, 0⟩, ⟨31, 16, .ro, 0⟩, ⟨15, 0, .ro, 0⟩]
  else []

/-- Fields of the pip block's granule at offset o. -/
def fldsPip (o : Nat) : List Fld :=
  if o = 0 then [⟨24, 24, .ro, 0⟩, ⟨23, 23, .ro, 0⟩, ⟨22, 16, .ro, 0⟩, ⟨15, 8, .ro, 0⟩, ⟨5, 4, .ro, 0⟩, ⟨3, 0, .ro, 0⟩]
  else if o = 0x10 then [⟨8, 0, .w1c, 0⟩]
  else if o = 0x18 then [⟨8, 0, .rw, 0x1FF⟩]
  else if o = 0x20 then [⟨63, 0, .ro, 0⟩]
  else []

/-- Fields of the qnc block's granule at offset o. -/
def fldsQnc (o : Nat) : List Fld :=
  if o = 0 then [⟨47, 32, .ro, 0⟩, ⟨31, 16, .ro, 0⟩, ⟨10, 0, .ro, 0⟩]
  else if o = 0x100 then [⟨47, 6, .rw, 0⟩]
  else if o = 0x108 then [⟨31, 31, .rw, 0⟩, ⟨10, 0, .rw, 0⟩]
  else if 0x1000 ≤ o ∧ o < 0x1400 ∧ o % 16 = 0 then [⟨63, 63, .ro, 0⟩, ⟨62, 60, .ro, 0⟩, ⟨48, 48, .wo, 0⟩, ⟨47, 7, .rw, 0⟩]
  else if 0x10000 ≤ o ∧ o < 0x12000 then (if o % 16 = 0 then scaleLo false else scaleHi)
  else if 0x20000 ≤ o ∧ o < 0x24000 then [⟨63, 0, .rw, 0⟩]
  else []

/-- Fields of the qch block's granule at offset o. -/
def fldsQch (o : Nat) : List Fld :=
  if o = 0 then [⟨39, 32, .ro, 0⟩, ⟨1, 1, .ro, 0⟩, ⟨0, 0, .ro, 0⟩] else []

/-- Fields of the granule at block offset o (a multiple of 8), by block kind. -/
def fldsOfKind (k : BK) (idx o : Nat) : List Fld :=
  match k with
  | .pth => fldsPth o
  | .pwt => fldsPwt o
  | .thm => fldsThm o
  | .idg => fldsIdg idx o
  | .vch => fldsVch idx o
  | .row => fldsRow o
  | .llc => fldsLlc o
  | .brz => fldsBrz o
  | .core => fldsCore o
  | .arr => fldsArr idx o
  | .cl => fldsCl o
  | .att => fldsAtt o
  | .stn => fldsStn o
  | .pci => fldsPci o
  | .boot => fldsBoot o
  | .sec => fldsSec o
  | .pwm => fldsPwm o
  | .pip => fldsPip o
  | .qnc => fldsQnc o
  | .qch => fldsQch o
  | _ => []

/-- Counter-overflow registers a block kind holds flags in: how many counters have a flag (R52). -/
def ovfBits (k : BK) (idx j : Nat) : Nat :=
  match k with
  | .core => if j = 0 then 7 else if j ≤ 4 then 64 else 0
  | .qnc => if j = 0 then 7 else if j ≤ 8 then 64 else 0
  | .stn => if j = 0 then 22 else 0
  | .arr => if j = 0 then (if idx % 2 = 0 then 7 else 6) else 0
  | k => if j = 0 then cntCount k else 0

/-- Every field of the granule at block offset o: event counters, overflow flags and error logs, then the chapters'
registers. -/
def flds (k : BK) (idx o : Nat) : List Fld :=
  if k ≠ .stn ∧ 0x200 ≤ o ∧ o < 0x200 + 8 * cntCount k then
    if k = .arr ∧ idx % 2 = 1 ∧ o = 0x230 then [] else [⟨63, 0, .ro, 0⟩]
  else if 0x700 ≤ o ∧ o < 0x780 then
    let n := ovfBits k idx ((o - 0x700) / 8)
    if k = .stn then [⟨21, 16, .w1c, 0⟩] else if n = 0 then [] else [⟨n - 1, 0, .w1c, 0⟩]
  else if hasCeLog k ∧ 0x400 ≤ o ∧ o < 0x480 then [⟨63, 0, .ro, 0⟩]
  else if hasCeLog k ∧ o = 0x480 then [⟨8, 8, .wo, 0⟩, ⟨5, 5, .ro, 0⟩, ⟨4, 0, .ro, 0⟩]
  else fldsOfKind k idx o

/-- The value a list of fields takes at reset. -/
def fldsReset (fs : List Fld) : Nat := fs.foldl (fun acc f => acc + (f.rst % 2 ^ (f.hi + 1 - f.lo)) * 2 ^ f.lo) 0

/-- The reset value of the granule at a BAR0 offset (a multiple of 8). -/
def regReset (o : Nat) : W64 :=
  match blkOf o with
  | some b => BitVec.ofNat 64 (fldsReset (flds b.kind b.idx (o - b.base)))
  | none => 0

/-- Apply a 64-bit write to a granule field by field (R7): RW fields take the value, W1C bits written 1 become 0, WO
and RO fields keep their stored value. -/
def fldsWrite (fs : List Fld) (old new : Nat) : Nat :=
  fs.foldl (fun acc f =>
    match f.acc with
    | .rw => putBits acc f.hi f.lo (bits new f.hi f.lo)
    | .w1c => putBits acc f.hi f.lo (bits old f.hi f.lo &&& (2 ^ (f.hi + 1 - f.lo) - 1 - bits new f.hi f.lo))
    | _ => acc) old

end Sys2Proof.Machine
end

