-- ==== Sys2Proof/Machine/Regs.lean ====
section
/-! DEFINITION. Reading and writing the stored control registers, event counters (R50 to R53), notices (R57 to R61)
and the alert status they set (R495). -/

namespace Sys2Proof.Machine

/-- The stored value of a granule. -/
def regGet (s : State) (o : Nat) : W64 := (tget? s.ctl.regs o).getD (regReset o)

/-- Store a granule, listing it only when it differs from its reset value. -/
def regPut (s : State) (o : Nat) (v : W64) : State :=
  { s with ctl := { s.ctl with regs := if v = regReset o then tdel s.ctl.regs o else tput s.ctl.regs o v } }

/-- A field of a granule. -/
def fget (s : State) (o hi lo : Nat) : Nat := getField (regGet s o) hi lo

/-- Set a field of a granule. -/
def fset (s : State) (o hi lo v : Nat) : State := regPut s o (setField (regGet s o) hi lo v)

/-- A signed field. -/
def fgetS (s : State) (o hi lo : Nat) : Int := signed (hi + 1 - lo) (fget s o hi lo)

/-- A one-bit field. -/
def fbit (s : State) (o b : Nat) : Bool := fget s o b b = 1

/-- Step number of the running plan, 0 when none runs (R57). -/
def curStep (s : State) : Nat := (s.run.map (·.stepNo)).getD 0

/-- Block identifiers of R58. -/
def blockId : BK → Nat
  | .pth => 1 | .pwt => 2 | .thm => 3 | .idg => 4 | .vch => 5 | .row => 6 | .llcCommon => 7 | .llc => 7
  | .noc => 8 | .brz => 9 | .cl => 0xA | .core => 0xB | .arr => 0xC | .att => 0xD | .stn => 0x10 | .pci => 0x11
  | .boot => 0x12 | .sec => 0x13 | .pkm => 0x14 | .pwm => 0x15 | .pip => 0x16 | .qnc => 0x20 | .qch => 0x20

/-- The alert category of a notice code (R495). -/
def alertBit (code : Nat) : Option Nat :=
  if code = 0x1013 then some 0
  else if code = 0x1015 then some 1
  else if code = 0x0302 ∨ code = 0x0303 ∨ code = 0x0304 then some 3
  else if 0x1501 ≤ code ∧ code ≤ 0x1506 then some 4
  else if code = 0x0402 ∨ code = 0x0404 ∨ code = 0x1016 then some 5
  else if code = 0x1012 ∨ code = 0x1017 ∨ code = 0x1018 ∨ code = 0x1019 ∨ code = 0x101B ∨ code = 0x0801 ∨
      code = 0x0504 ∨ code = 0x0505 ∨ code = 0x0C02 ∨ code = 0x0C03 then some 6
  else if 0x1101 ≤ code ∧ code ≤ 0x1103 then some 8
  else none

/-- Add to the counter field [hi:lo] of granule o whose flag is bit `b` of granule `fo` (R50, R51): the state, and
whether this overflow set the flag. -/
def countRaw (s : State) (o hi lo fo b amt : Nat) : State × Bool :=
  if amt = 0 ∨ fbit s fo b then (s, false)
  else
    let top := 2 ^ (hi + 1 - lo) - 1
    let v := fget s o hi lo
    if v + amt ≤ top then (fset s o hi lo (v + amt), false)
    else (fset (fset s o hi lo top) fo b b 1, true)

/-- Queue a notice, or drop it when 256 wait (R60, R61). -/
def queueNotice (s : State) (code service source tower detail : Nat) : State × Bool :=
  let c := s.cmd
  let seq' := (c.seq + 1) % 2 ^ 32
  if 256 ≤ c.notices.length then
    ({ s with cmd := { c with seq := seq', lostBefore := true } }, true)
  else
    let n : Notice := ⟨c.stamp, service, code, source, tower, curStep s, c.seq, s.now, detail⟩
    ({ s with cmd := { c with seq := seq', stamp := c.stamp + 1, notices := c.notices ++ [n] } }, false)

/-- A dropped notice counts in STN_NOTICE_DROPS and sets its alert (R61, R495). The counter's own overflow notice counts nothing when it
is dropped: its flag is set by then (R51). DESIGN CHOICE: log entry 82. -/
def noticeDropped (s : State) : State :=
  let q := countRaw s (stnBase + 0x1068) 63 0 (stnBase + 0x700) 21 1
  let s := if q.2 then (queueNotice q.1 (blockId .stn * 256) 1 0 0xFF (stnBase + 0x1068 + 21 * 2 ^ 32)).1 else q.1
  fset s (pipBase + 0x10) 7 7 1

/-- The counter-overflow notice of a block that exists once (R59); a drop of it counts (R61). -/
def overflowNotice (s : State) (k : BK) (o n : Nat) : State :=
  let r := queueNotice s (blockId k * 256) 1 0 0xFF (o + n * 2 ^ 32)
  if r.2 then noticeDropped r.1 else r.1

/-- Drive ALERT_L from the masked alert status (R495): an assertion counts in PIP_ALERTS. DEDUCED: log entry 9. -/
def alertUpdate (s : State) : State :=
  let on := fget s (pipBase + 0x10) 8 0 &&& fget s (pipBase + 0x18) 8 0 ≠ 0
  if s.boot.pinsRun ∧ on ≠ s.pip.alert then
    let s := { s with pip := { s.pip with alert := on }, out := s.out ++ [.pin 0 (!on)] }
    if on then
      let r := countRaw s (pipBase + 0x200) 63 0 (pipBase + 0x700) 0 1
      if r.2 then overflowNotice r.1 .pip (pipBase + 0x200) 0 else r.1
    else s
  else s

/-- Set a bit of PIP_ALERT_STATUS (R495). -/
def setAlert (s : State) (b : Nat) : State := alertUpdate (fset s (pipBase + 0x10) b b 1)

/-- Raise a notice (R57, R60, R61, R495). -/
def notice (s : State) (code service source tower detail : Nat) : State :=
  let s := match alertBit code with
    | some b => setAlert s b
    | none => s
  let r := queueNotice s code service source tower detail
  if r.2 then alertUpdate (noticeDropped r.1) else r.1

/-- The source field of a block's counter-overflow notice (R59). -/
def overflowSource (b : Blk) : Nat :=
  match b.kind with
  | .idg => 4 * b.tower + b.idx
  | .vch => b.idx
  | .llc => b.idx
  | .core => b.idx
  | .arr => b.idx / 2
  | .cl => b.idx
  | .att => b.idx
  | .qch => b.idx
  | _ => 0

/-- The tower field of a block's notices (R57). -/
def blkTower (b : Blk) : Nat := if b.base < 0x40000000 then b.tower else 0xFF

/-- Count an event: counter n at granule o, bits [hi:lo], of the block at `base` (R50 to R53). -/
def countAt (s : State) (base o hi lo n amt : Nat) : State :=
  let r := countRaw s o hi lo (base + 0x700 + 8 * (n / 64)) (n % 64) amt
  if r.2 then
    match blkOf base with
    | some b => notice r.1 (blockId b.kind * 256) 1 (overflowSource b) (blkTower b) (o + n * 2 ^ 32)
    | none => r.1
  else r.1

/-- Count in the 64-bit counter n at offset 0x200 + 8n of the block at `base`. -/
def count (s : State) (base n amt : Nat) : State := countAt s base (base + 0x200 + 8 * n) 63 0 n amt

/-- Count in Stone's counter n, 16 to 21 (R86, R426, R475). -/
def countStn (s : State) (n amt : Nat) : State := countAt s stnBase (stnBase + 0x1040 + 8 * (n - 16)) 63 0 n amt

/-- Append to what the module has sent. -/
def emit (s : State) (o : Out) : State := { s with out := s.out ++ [o] }

/-- A fresh stamp for a free value. DESIGN CHOICE: log entry 7. -/
def fresh (s : State) : State := { s with free := s.free + 1 }

/-- Write 1 bits to an overflow register (R52): each clears its flag and zeroes its counter. `zero` gives the counter's
granule and bits. DEDUCED: log entry 16. -/
def clearOvf (s : State) (b : Blk) (j : Nat) (data : W64) : State :=
  (List.range 64).foldl (fun s i =>
    if data.getLsbD i ∧ i < ovfBits b.kind b.idx j then
      let s := fset s (b.base + 0x700 + 8 * j) i i 0
      let n := 64 * j + i
      if b.kind = .stn then (if 16 ≤ n then fset s (b.base + 0x1040 + 8 * (n - 16)) 63 0 0 else s)
      else if n < 64 then fset s (b.base + 0x200 + 8 * n) 63 0 0
      else
        let o := (if b.kind = .qnc then 0x10000 else 0x1000) + 16 * (n - 64) + 8
        fset s (b.base + o) 63 32 0
    else s) s

end Sys2Proof.Machine
end

