-- ==== Sys2Proof/Machine/Place.lean ====
section
/-! DEFINITION. Where an address leads: the module-local address map (R29 to R38), the column and pooled windows with
the pooled-window hash (R32, R204), the slow-tier interleave (R306), and the logical-to-physical maps (R17, R428). -/

namespace Sys2Proof.Machine

/-- One MiB. -/
def mib : Nat := 0x100000

/-- pool_units of tower t (R33). -/
def poolUnits (s : State) (t : Nat) : Nat := fget s (pthBase t + 0x100) 3 0

/-- Bytes of the private part of each column under P pool units (R32). -/
def privBytes (p : Nat) : Nat := (288 - 16 * p) * mib

/-- Bytes of a column (R32). -/
def colBytes : Nat := 0x12000000

/-- The pooled-window hash (R204): logical column and column offset of pooled offset o under P pool units. DEDUCED: log entry 19. -/
def pooledPlace (o p : Nat) : Nat × Nat :=
  let n := o / 128
  let l := (n % 256) ^^^ (n / 256 % 256) ^^^ (n / 65536 % 256) ^^^ (n / 16777216 % 256)
  (l, privBytes p + n / 256 * 128 + o % 128)

/-- The place of column offset o of logical column l of tower t. DEDUCED: log entry 19. -/
def placeKey (t l o : Nat) : Nat := t * 2 ^ 37 + l * colBytes + o

/-- Where a module-local address leads. A fast-tier place is given by its key, a cluster-memory byte by its address. -/
inductive Place where
  | fast (key : Nat)
  | cmem (addr : Nat)
  | slow (off : Nat)
  | host (bus : Nat)
  | ctl (off : Nat)
  | unmapped
deriving DecidableEq, Repr

/-- Is tower t in warm reset (R434)? -/
def inReset (s : State) (t : Nat) : Bool := (fget s (stnBase + 0x3000) 31 16).testBit t

/-- The fast tier (R32). DEDUCED: log entry 19. -/
def fastPlace (s : State) (addr : Nat) : Place :=
  let t := addr / 2 ^ 37
  let so := addr % 2 ^ 37
  let p := poolUnits s t
  if inReset s t then .unmapped
  else if so < 0x1200000000 then
    if so % colBytes < privBytes p then .fast addr else .unmapped
  else if 0x1800000000 ≤ so ∧ so - 0x1800000000 < p * 2 ^ 32 then
    let q := pooledPlace (so - 0x1800000000) p
    .fast (placeKey t q.1 q.2)
  else .unmapped

/-- The place of a module-local address (R29 to R35). -/
def place (s : State) (addr : Nat) : Place :=
  if addr < 0x20000000000 then fastPlace s addr
  else if addr < 0x21000000000 then
    if addr % 0x100000000 < 0x10000000 ∧ !inReset s ((addr - 0x20000000000) / 0x100000000) then .cmem addr else .unmapped
  else if 0x100000000000 ≤ addr ∧ addr < 0x120000000000 then .slow (addr - 0x100000000000)
  else if 0x400000000000 ≤ addr ∧ addr < 0x7F0000000000 then
    let w := regGet s (pciBase + 0x120)
    let h := getField w 63 12 * 4096 + (addr - 0x400000000000)
    if getField w 0 0 = 1 ∧ h < 2 ^ 64 then .host h else .unmapped
  else if 0x7F0000000000 ≤ addr ∧ addr < 0x7F0080000000 then
    match blkOf (addr - 0x7F0000000000) with
    | some b => if b.base < 0x40000000 ∧ inReset s b.tower then .unmapped else .ctl (addr - 0x7F0000000000)
    | none => .unmapped
  else .unmapped

/-- The address ranges another module may reach (R38): the fast tier, the CMEM apertures and the slow tier. -/
def Place.remoteOk : Place → Bool
  | .fast _ => true
  | .cmem _ => true
  | .slow _ => true
  | _ => false

/-- Tower, logical column and column offset of a fast-tier place. -/
def keyTower (k : Nat) : Nat := k / 2 ^ 37
def keyCol (k : Nat) : Nat := k % 2 ^ 37 / colBytes
def keyOff (k : Nat) : Nat := k % 2 ^ 37 % colBytes

/-- Physical index within its cluster of logical core k (0 to 15) of cluster c of tower t (R428). -/
def coreMap (s : State) (t c k : Nat) : Nat :=
  fget s (clBase t c + 0x10 + 8 * (k / 8)) (8 * (k % 8) + 4) (8 * (k % 8))

/-- Physical index within its cluster of logical column k of cluster c of tower t. -/
def colMap (s : State) (t c k : Nat) : Nat :=
  fget s (clBase t c + 0x20 + 8 * (k / 8)) (8 * (k % 8) + 4) (8 * (k % 8))

/-- The physical core (tower × 272 + 17c + p) that holds logical core l (R16, R17). -/
def physCore (s : State) (l : Nat) : Nat :=
  let t := l / 256
  let c := l / 16 % 16
  t * 272 + 17 * c + coreMap s t c (l % 16)

/-- The channel and slice (tower × 272 + 17c + p) beside logical column l (0 to 255) of tower t. -/
def chanOf (s : State) (t l : Nat) : Nat :=
  t * 272 + 17 * (l / 16) + colMap s t (l / 16) (l % 16)

/-- The channel that serves a fast-tier place. -/
def keyChan (s : State) (k : Nat) : Nat := chanOf s (keyTower k) (keyCol k)

/-- The logical column (0 to 255) that a channel serves; none when no logical column maps to it. -/
def logicalCol (s : State) (ch : Nat) : Option Nat :=
  let t := ch / 272
  let c := ch % 272 / 17
  let p := ch % 17
  ((List.range 16).find? fun k => colMap s t c k == ch % 272 - 17 * c && p < 17).map fun k => 16 * c + k

/-- The logical core that a physical core holds; none for a spare. -/
def logicalCore (s : State) (pk : Nat) : Option Nat :=
  let t := pk / 272
  let c := pk % 272 / 17
  ((List.range 16).find? fun k => 17 * c + coreMap s t c k == pk % 272).map fun k => t * 256 + c * 16 + k

/-- Block bases of a channel and of a slice. -/
def chBase (ch : Nat) : Nat := vchBase (ch / 272) (ch % 272)
def slBase (ch : Nat) : Nat := llcBase (ch / 272) (ch % 272)

/-- The mode of a channel: 0 MEMORY, 1 ENTERING, 2 ROWAN, 3 EXITING (R247). -/
def chanMode (s : State) (ch : Nat) : Nat := fget s (chBase ch) 1 0

/-- The LLC set of a column line number (R203). -/
def llcSet (c : Nat) : Nat := (c % 512) ^^^ (c / 512 % 512) ^^^ (c / 2 ^ 18 % 16)

/-- The slow-tier channel and channel line of a slow-tier offset (R306). -/
def slowPlace (off : Nat) : Nat × Nat :=
  let n := off / 128
  (((n ^^^ (n >>> 5) ^^^ (n >>> 10) ^^^ (n >>> 15) ^^^ (n >>> 20) ^^^ (n >>> 25) ^^^ (n >>> 30)) % 32), n / 32)

/-- The device identifier of the module: assigned only while the fabric is enabled (R37, R118). -/
def deviceId (s : State) : Nat :=
  if fbit s (stnBase + 0x2000) 63 then fget s (stnBase + 0x2000) 31 16 else 0xFFFF

/-- Does a device identifier name this module (R37)? -/
def isSelf (s : State) (d : Nat) : Bool := d = 0xFFFF || d = deviceId s

end Sys2Proof.Machine
end

