-- ==== Sys2Proof/Machine/Memory.lean ====
section
/-! DEFINITION. The stores at rest: the SEC-DED code (R413, R414), poison at rest (R417, R418), the correctable-error
logs (R424 to R426), and the memory in its canonical form. -/

namespace Sys2Proof.Machine

/-- A byte in flight with its poison bit (R416). -/
abbrev PByte := Byte × Bool

/-! ### The code -/

/-- Columns of the check matrix (R413): d0 to d7, then c0 to c4. DEDUCED: log entry 20. -/
def secdedCols : List Nat := [7, 11, 13, 14, 21, 22, 25, 26, 1, 2, 4, 8, 16]

/-- Check bits of a data byte. DEDUCED: log entry 20. -/
def checkBits (b : Byte) : Nat :=
  (List.range 8).foldl (fun acc i => if b.getLsbD i then acc ^^^ secdedCols.getD i 0 else acc) 0

/-- What the decoder finds in a stored byte (R414). -/
inductive Found where
  | clean (b : Byte)
  | corrected (b : Byte)
  | poison
  | bad
deriving DecidableEq, Repr

/-- Decode a stored byte from its data and syndrome (R414). DEDUCED: log entry 20. -/
def decodeByte (b : Byte) (y : BitVec 5) : Found :=
  if y = 0 then .clean b
  else if y = 31 then .poison
  else match secdedCols.findIdx? (· = y.toNat) with
    | some i => if i < 8 then .corrected (b ^^^ BitVec.ofNat 8 (2 ^ i)) else .corrected b
    | none => .bad

/-- The parity bit of a byte: the exclusive or of its bits (R412). -/
def parityBit (b : Byte) : Bool := (List.range 8).foldl (fun p i => p.xor (b.getLsbD i)) false

/-- A byte as a parity-protected store or path holds it: data bits in [7:0], the parity bit in [8] (R412). -/
def parityWord (b : Byte) : BitVec 9 := BitVec.ofNat 9 (b.toNat + if parityBit b then 256 else 0)

/-- A byte passes when the exclusive or of its nine bits is 0 (R412). -/
def parityOk (w : BitVec 9) : Bool := !(List.range 9).foldl (fun p i => p.xor (w.getLsbD i)) false

/-- Invert bit i (0 to 12) of a stored code word: the data byte and the syndrome that result (R447). -/
def flipBit (b : Byte) (y : BitVec 5) (i : Nat) : Byte × BitVec 5 :=
  ((if i < 8 then b ^^^ BitVec.ofNat 8 (2 ^ i) else b), y ^^^ BitVec.ofNat 5 (secdedCols.getD i 0))

/-- The syndrome of poison at rest. -/
def poisonSyn : BitVec 5 := 31

/-! ### Bytes at rest -/

/-- The undefined extent that covers an address. DESIGN CHOICE: log entry 6. -/
def extentAt (es : List Extent) (a : Nat) : Option Extent := es.find? fun e => e.lo ≤ a && a < e.lo + e.len

/-- What an unlisted address reads as: the free value of the extent that covers it, else 0x00 (R455). DESIGN CHOICE: log entry 6. -/
def background (m : Mem) (a : Nat) : Byte :=
  match extentAt m.undef a with
  | some e => Config.freeByte e.stamp a
  | none => 0

/-- The data byte stored at an address. DESIGN CHOICE: log entry 6. -/
def Mem.read (m : Mem) (a : Nat) : Byte := (tget? m.cells a).getD (background m a)

/-- The syndrome of the byte stored at an address. DEDUCED: log entry 20. -/
def Mem.syndrome (m : Mem) (a : Nat) : BitVec 5 := tget 0 m.syn a

/-- Store a byte with its syndrome, keeping the canonical form: a zero outside every undefined extent is not listed. -/
def Mem.write (m : Mem) (a : Nat) (b : Byte) (y : BitVec 5) : Mem :=
  { m with
    cells := if b = 0 ∧ extentAt m.undef a = none then tdel m.cells a else tput m.cells a b
    syn := tset 0 m.syn a y }

/-- The canonical form: addresses strictly rising, no listed zero outside the undefined extents, no listed clean
syndrome. -/
def Mem.wf (m : Mem) : Bool :=
  tsorted m.cells && tsorted m.syn && m.syn.all (fun e => e.2 ≠ 0) &&
  m.cells.all fun e => e.2 ≠ 0 || (extentAt m.undef e.1).isSome

/-- Make an extent of addresses undefined: what was listed there is gone (R34, R82). -/
def Mem.forget (m : Mem) (lo len stamp : Nat) : Mem :=
  { cells := tclear m.cells lo (lo + len), syn := tclear m.syn lo (lo + len), undef := ⟨lo, len, stamp⟩ :: m.undef }

/-- Store a byte in the state's memory. -/
def memPut (s : State) (a : Nat) (b : Byte) (y : BitVec 5) : State := { s with mem := s.mem.write a b y }

/-- The syndrome of a byte in flight written at rest (R417), and the data written. -/
def restOf (p : PByte) : Byte × BitVec 5 := if p.2 then (0, poisonSyn) else (p.1, 0)

/-! ### Error logs (R424, R425) -/

/-- The log-overflow notice of a block with an error log (R440). -/
def logNotice (k : BK) : Nat :=
  match k with
  | .vch => 0x0506
  | .llc => 0x0701
  | .cl => 0x0A01
  | _ => 0x2006

/-- Record an error in the log of the block at `base` (R424): source, syndrome, location. DEDUCED: log entry 42. -/
def logError (s : State) (base source : Nat) (y : BitVec 5) (loc : Nat) : State :=
  let used := fget s (base + 0x480) 4 0
  if used < 16 then
    let e := loc % 2 ^ 36 + (s.now >>> 20) % 2 ^ 19 * 2 ^ 36 + y.toNat * 2 ^ 55 + source * 2 ^ 60 + 2 ^ 63
    fset (regPut s (base + 0x400 + 8 * used) (BitVec.ofNat 64 e)) (base + 0x480) 4 0 (used + 1)
  else if fbit s (base + 0x480) 5 then s
  else
    let s := fset s (base + 0x480) 5 5 1
    match blkOf base with
    | some b => notice s (logNotice b.kind) 1 (overflowSource b) (blkTower b) loc
    | none => s

/-- Counter numbers of corrected and uncorrectable bytes of a block kind (R426). -/
def errCounters : BK → Nat × Nat
  | .vch => (10, 11)
  | .llc => (7, 8)
  | .cl => (3, 4)
  | _ => (5, 6)

/-- Count and log an error that a block's check finds (R424, R426). DEDUCED: log entry 42. -/
def foundError (s : State) (k : BK) (base source : Nat) (y : BitVec 5) (loc : Nat) (fixed : Bool) : State :=
  let c := errCounters k
  logError (count s base (if fixed then c.1 else c.2) 1) base source y loc

/-- Read a byte from memory through the check of the block at `base` (R414, R418, R508): a corrected byte is written
back, an uncorrectable one becomes poison at rest. DEDUCED: log entry 42. -/
def checkedRead (s : State) (k : BK) (base source a loc : Nat) : State × PByte :=
  let b := s.mem.read a
  let y := s.mem.syndrome a
  match decodeByte b y with
  | .clean v => (s, (v, false))
  | .corrected v => (memPut (foundError s k base source y loc true) a v 0, (v, false))
  | .poison => (s, (0, true))
  | .bad => (memPut (foundError s k base source y loc false) a 0 poisonSyn, (0, true))

/-- Read n bytes in turn through a check. `loc` is the location of the first. -/
def checkedReads (k : BK) (base source : Nat) : Nat → State → Nat → Nat → State × List PByte
  | 0, s, _, _ => (s, [])
  | n + 1, s, a, loc =>
    let r := checkedRead s k base source a loc
    let q := checkedReads k base source n r.1 (a + 1) (loc + 1)
    (q.1, r.2 :: q.2)

/-- Write bytes in flight to memory at rest (R417). -/
def memWrites : List PByte → State → Nat → State
  | [], s, _ => s
  | p :: r, s, a => memWrites r (memPut s a (restOf p).1 (restOf p).2) (a + 1)

/-- Poison spreads over each 32-byte group (R416): bytes that start at address a; a byte is poisoned when any byte of
the list in its group is. -/
def spread (a : Nat) (l : List PByte) : List PByte :=
  let bad := ((indexed l).filterMap fun e => if e.2.2 then some ((a + e.1) / 32) else none)
  (indexed l).map fun e => (e.2.1, e.2.2 || bad.contains ((a + e.1) / 32))

/-- Plain bytes without poison. -/
def clean (l : List Byte) : List PByte := l.map fun b => (b, false)

/-- Data that came from the host, with the poison of its 32-byte groups (R420). -/
def hostBytes (d : HostData) : List PByte := d.bytes.mapIdx fun i b => (b, d.poison.contains (i / 32))

/-- Does any byte carry poison? -/
def anyPoison (l : List PByte) : Bool := l.any (·.2)

/-- The data of bytes in flight. -/
def pdata (l : List PByte) : List Byte := l.map (·.1)

/-- Is any byte of a group pending poison in flight (R447 kind 3)? The pending bits of the groups read are taken. DEDUCED: log entry 51. -/
def takeFlight (s : State) (a n : Nat) (l : List PByte) : State × List PByte :=
  let hit := s.stone.flightPoison.filter fun g => a / 32 ≤ g ∧ g ≤ (a + n - 1) / 32
  if hit.isEmpty then (s, l)
  else
    ({ s with stone := { s.stone with flightPoison := s.stone.flightPoison.filter fun g => !hit.contains g } },
      (indexed l).map fun e => (e.2.1, e.2.2 || hit.contains ((a + e.1) / 32)))

/-- A clean write that covers all 32 bytes of a group cancels its pending bit (R447). -/
def cancelFlight (s : State) (a : Nat) (l : List PByte) : State :=
  if s.stone.flightPoison.isEmpty then s
  else
    let keep := fun g => !(a ≤ 32 * g && 32 * g + 32 ≤ a + l.length &&
      !anyPoison ((l.drop (32 * g - a)).take 32))
    { s with stone := { s.stone with flightPoison := s.stone.flightPoison.filter keep } }

end Sys2Proof.Machine
end

