-- ==== Sys2Proof/Machine/Cache.lean ====
section
/-! DEFINITION. The home slices with their directory (R199 to R235), the cluster memories (R211 to R213), the slow tier
as Quince serves it (R306, R307), and reads and writes of module-local memory through them. -/

namespace Sys2Proof.Machine

/-- A physical core. -/
def coreOf (s : State) (pk : Nat) : Core := tget Core.init s.cores pk

/-- Replace a physical core. -/
def setCore (s : State) (pk : Nat) (c : Core) : State := { s with cores := tset Core.init s.cores pk c }

/-- Change a physical core. -/
def modCore (s : State) (pk : Nat) (f : Core → Core) : State := setCore s pk (f (coreOf s pk))

/-- A channel controller. -/
def chanAt (s : State) (ch : Nat) : Chan := tget Chan.init s.chans ch
def modChan (s : State) (ch : Nat) (f : Chan → Chan) : State := { s with chans := tmod Chan.init s.chans ch f }

/-! ### Time and replacement -/

/-- The number of the CCLK in progress (0.94 CCLK per ns). DEDUCED: log entry 28. -/
def cclk (s : State) : Nat := s.now * 47 / 50

/-- A tree pseudo-LRU of 2^k ways turns away from a way that is used: the nodes on its path, numbered from 1 in heap order, point to their
other half. PRESUMED: log entry 22. -/
def plruTouch : Nat → Nat → Nat → BitVec 16 → BitVec 16
  | 0, _, _, t => t
  | k + 1, node, w, t =>
    let b := w / 2 ^ k % 2
    plruTouch k (2 * node + b) w (if b = 1 then t &&& ~~~(1#16 <<< node) else t ||| 1#16 <<< node)

/-- The way that the tree points to among those allowed: below `node` the ways begin with `pre`. DEDUCED: log entry 21. PRESUMED: log entry 22. -/
def plruVictim (ok : Nat → Bool) (t : BitVec 16) : Nat → Nat → Nat → Nat
  | 0, _, pre => pre
  | k + 1, node, pre =>
    let b := if t.getLsbD node then 1 else 0
    let has : Bool := (List.range (2 ^ k)).any fun j => ok ((2 * pre + b) * 2 ^ k + j)
    let b := if has then b else 1 - b
    plruVictim ok t k (2 * node + b) (2 * pre + b)

/-- The lowest way of 2^k that is not in use. -/
def freeWay (k : Nat) (used : List Nat) : Option Nat := (List.range (2 ^ k)).find? fun w => !used.contains w

/-! ### Line data -/

/-- Byte i of a line. -/
def lByte (d : BitVec 1024) (i : Nat) : Byte := d.extractLsb' (8 * i) 8

/-- A line with byte i replaced. -/
def lPut (d : BitVec 1024) (i : Nat) (b : Byte) : BitVec 1024 :=
  (d &&& ~~~(BitVec.ofNat 1024 (255 * 2 ^ (8 * i)))) ||| BitVec.ofNat 1024 (b.toNat * 2 ^ (8 * i))

/-- Bits o to o + n − 1 of a mask. -/
def maskOf (o n : Nat) : BitVec 128 := BitVec.ofNat 128 ((2 ^ n - 1) * 2 ^ o)

/-- The home slice of a line, named by its place div 128. -/
def lineSlice (s : State) (lk : Nat) : Nat := keyChan s (lk * 128)

/-- Column offset of byte 0 of a line. -/
def lineOff (lk : Nat) : Nat := keyOff (lk * 128)

def lineAt (s : State) (lk : Nat) : SLine := tget SLine.init s.llc.lines lk
def lineHeld (s : State) (lk : Nat) : Bool := (tget? s.llc.lines lk).isSome
def linePut (s : State) (lk : Nat) (l : SLine) : State := { s with llc := { s.llc with lines := tput s.llc.lines lk l } }
def lineDrop (s : State) (lk : Nat) : State := { s with llc := { s.llc with lines := tdel s.llc.lines lk } }

/-- Is the line pending: named by a contribution that has not been added (R226)? -/
def linePending (s : State) (lk : Nat) : Bool :=
  s.llc.redQ.any fun c => c.key ≤ lk && lk < c.key + ceilDiv c.bytes.length 128

/-! ### Outstanding misses (R217) -/

/-- The miss outstanding for a line. -/
def missAt (s : State) (lk : Nat) : Option Miss := s.llc.miss.find? fun m => m.line = lk

/-- The fill of a line arrives: its miss entry is free. DEDUCED: log entry 21. -/
def closeMiss (s : State) (lk : Nat) : State := { s with llc := { s.llc with miss := s.llc.miss.filter fun m => m.line ≠ lk } }

/-- A write to a line arrives: later reads join its miss no more. -/
def missWritten (s : State) (lk : Nat) : State :=
  { s with llc := { s.llc with miss := s.llc.miss.map fun m => if m.line = lk then { m with written := true } else m } }

/-- A miss is opened; with the 128 entries of its slice in use it waits until the oldest fill has arrived (R230). DEDUCED: log entry 21. -/
def openMiss (s : State) (lk : Nat) : State :=
  let mine := s.llc.miss.filter fun m => lineSlice s m.line = lineSlice s lk
  let s := if mine.length < 128 then s else ((mine.head?).map fun m => closeMiss s m.line).getD s
  { s with llc := { s.llc with miss := s.llc.miss ++ [⟨lk, false⟩] } }

/-- The 32-byte groups that a byte mask touches. -/
def groupsOf (m : BitVec 128) : BitVec 4 :=
  BitVec.ofNat 4 ((List.range 4).foldl (fun a g => if bits m.toNat (32 * g + 31) (32 * g) = 0 then a else a + 2 ^ g) 0)

/-! ### Recalls and invalidations (R219) -/

/-- An L1 writes its dirty bytes of a line to the slice (R219 recall); it keeps the line clean, without ownership. The marks of withheld
groups that it writes are cleared (R210). -/
def l1Recall (s : State) (pk lk : Nat) : State :=
  let c := coreOf s pk
  match tget? c.l1 lk with
  | none => s
  | some e =>
    let l := lineAt s lk
    let l' := (List.range 128).foldl (fun (l : SLine) i =>
      if e.dirty.getLsbD i then { l with data := lPut l.data i (lByte e.data i), syn := tdel l.syn i } else l) l
    let s := if e.dirty = 0 then s else missWritten s lk
    let s := linePut s lk { l' with valid := l.valid ||| e.dirty, dirty := l.dirty ||| e.dirty,
                                    withheld := l.withheld &&& ~~~groupsOf e.dirty }
    setCore s pk { c with l1 := tput c.l1 lk { e with dirty := 0, own := false } }

/-- An L1 drops a line whole. -/
def l1Drop (s : State) (pk lk : Nat) : State :=
  let c := coreOf s pk
  if (tget? c.l1 lk).isSome then setCore s pk { c with l1 := tdel c.l1 lk } else s

/-- The slice sends a recall or an invalidation to an L1: both sides count it (R233, R235). -/
def countRecall (s : State) (pk lk : Nat) : State :=
  count (count s (coreBase (pk / 272) (pk % 272)) 6 1) (slBase (lineSlice s lk)) 5 1

/-- Recall the owner's bytes, keeping its copy. -/
def recallOwner (s : State) (pk lk : Nat) : State := l1Recall (countRecall s pk lk) pk lk

/-- Recall and invalidate an L1's copy. -/
def recallDrop (s : State) (pk lk : Nat) : State := l1Drop (l1Recall (countRecall s pk lk) pk lk) pk lk

/-- Invalidate an L1's clean copy. -/
def invalidateL1 (s : State) (pk lk : Nat) : State := l1Drop (countRecall s pk lk) pk lk

/-- The 17 physical cores of every marked cluster but one core. -/
def markedCores (t : Nat) (vec : BitVec 16) (but : Option Nat) : List Nat :=
  ((List.range 272).filter fun i => vec.getLsbD (i / 17)).map (fun i => t * 272 + i) |>.filter fun k => some k ≠ but

/-- Cluster bit of a physical core. -/
def clusterBit (pk : Nat) : BitVec 16 := BitVec.ofNat 16 (2 ^ (pk % 272 / 17))

/-- Set the directory state of a line that the slice holds. -/
def setDir (s : State) (lk : Nat) (d : Dir) : State := linePut s lk { lineAt s lk with dir := d }

/-- Directory action for a read by an engine, Quince, the host or another tower (R219). -/
def dirRead (s : State) (lk : Nat) : State :=
  match (lineAt s lk).dir with
  | .m o => setDir (recallOwner s o lk) lk (.s o)
  | _ => s

/-- Directory action for a write by other than an L1, or an eviction (R219). -/
def dirWrite (s : State) (lk : Nat) : State :=
  match (lineAt s lk).dir with
  | .i => s
  | .s o => setDir (invalidateL1 s o lk) lk .i
  | .sc v => setDir ((markedCores (keyTower (lk * 128)) v none).foldl (fun s k => invalidateL1 s k lk) s) lk .i
  | .m o => setDir (recallDrop s o lk) lk .i

/-- Directory action for a read miss by the L1 of core q (R219). -/
def dirMiss (s : State) (lk q : Nat) : State :=
  match (lineAt s lk).dir with
  | .i => setDir s lk (.s q)
  | .s o => setDir s lk (if o = q then .s q else .sc (clusterBit o ||| clusterBit q))
  | .sc v => setDir s lk (.sc (v ||| clusterBit q))
  | .m o => if o = q then s else setDir (recallOwner s o lk) lk (.sc (clusterBit o ||| clusterBit q))

/-- Directory action for an ownership request by core q (R219). -/
def dirOwn (s : State) (lk q : Nat) : State :=
  match (lineAt s lk).dir with
  | .i => setDir s lk (.m q)
  | .s o => setDir (if o = q then s else invalidateL1 s o lk) lk (.m q)
  | .sc v =>
    setDir ((markedCores (keyTower (lk * 128)) v (some q)).foldl (fun s k => invalidateL1 s k lk) s) lk (.m q)
  | .m o => if o = q then s else setDir (recallDrop s o lk) lk (.m q)

/-! ### The slice's own checks and the column -/

/-- Check byte i of a line that the slice holds (R414, R418, R508): corrected in place, or made poison. -/
def sliceByte (s : State) (lk i source : Nat) : State × PByte :=
  let l := lineAt s lk
  let y := tget 0 l.syn i
  let b := lByte l.data i
  let base := slBase (lineSlice s lk)
  match decodeByte b y with
  | .clean v => (s, (v, false))
  | .corrected v =>
    let s := foundError s .llc base source y (lineOff lk + i) true
    (linePut s lk { l with data := lPut l.data i v, syn := tdel l.syn i }, (v, false))
  | .poison => (s, (0, true))
  | .bad =>
    let s := foundError s .llc base source y (lineOff lk + i) false
    let s := if l.reduced then { s with llc := { s.llc with redPoison := sadd s.llc.redPoison (lineSlice s lk) } } else s
    (linePut s lk { l with data := lPut l.data i 0, syn := tput l.syn i poisonSyn }, (0, true))

/-- Check n bytes of a held line from byte i. -/
def sliceBytes (lk source : Nat) : Nat → State → Nat → State × List PByte
  | 0, s, _ => (s, [])
  | n + 1, s, i =>
    let r := sliceByte s lk i source
    let q := sliceBytes lk source n r.1 (i + 1)
    (q.1, r.2 :: q.2)

/-- Fetch byte i of a line from the column into the slice (R214, R508): a corrected byte is installed dirty. -/
def fillByte (s : State) (lk i : Nat) : State :=
  let l := lineAt s lk
  let a := lk * 128 + i
  let b := s.mem.read a
  let y := s.mem.syndrome a
  let base := chBase (lineSlice s lk)
  let bitI := BitVec.ofNat 128 (2 ^ i)
  let inst (s : State) (v : Byte) (y : BitVec 5) (d : Bool) : State :=
    linePut s lk { l with valid := l.valid ||| bitI, dirty := if d then l.dirty ||| bitI else l.dirty,
                          data := lPut l.data i v, syn := tset 0 l.syn i y }
  match decodeByte b y with
  | .clean v => inst s v 0 false
  | .corrected v => inst (foundError s .vch base 0 y (lineOff lk + i) true) v 0 true
  | .poison => inst s 0 poisonSyn false
  | .bad => inst (memPut (foundError s .vch base 0 y (lineOff lk + i) false) a 0 poisonSyn) 0 poisonSyn false

/-! ### Draws of Bruise (R444) -/

/-- The next draw of tower t's LFSR. DEDUCED: log entry 52. -/
def lfsrDraw (s : State) (t : Nat) : State × Nat :=
  let x := Config.lfsrNext (tget 0 s.stone.lfsr t)
  ({ s with stone := { s.stone with lfsr := tput s.stone.lfsr t x } }, x.toNat)

/-- BRZ_CHAN_MASK selects the channel and slice. DEDUCED: log entry 52. -/
def brzSlice (s : State) (sl : Nat) : Bool := fbit s (brzBase (sl / 272) + 0x100 + 8 * (sl % 272 / 64)) (sl % 272 % 64)

/-- The longest stall of a read in force in tower t, in MCLK: at most 128 unless beyond is set. DEDUCED: log entry 52. -/
def stallMax (s : State) (t : Nat) : Nat :=
  let b := brzBase t
  let m := fget s (b + 0x10) 27 20
  if fbit s b 63 && fbit s b 2 then (if fbit s b 32 then m else Nat.min 128 m) else 0

/-- A read returns from a channel: the stall that a selected one draws delays it, and one that is not 0 counts in BRZ_PERTURBED (R448). The
delay itself is timing. DEDUCED: log entry 52. -/
def drawStall (s : State) (ch : Nat) : State :=
  let t := ch / 272
  if !brzSlice s ch ∨ stallMax s t = 0 then s
  else
    let r := lfsrDraw s t
    if r.2 % (stallMax s t + 1) = 0 then r.1 else count r.1 (brzBase t) 0 1

/-- Fetch every byte of a held line that is not valid. -/
def fillLine (s : State) (lk : Nat) : State :=
  let l := lineAt s lk
  if l.valid = BitVec.allOnes 128 then s
  else
    let ch := lineSlice s lk
    let s := drawStall (count (count (count s (slBase ch) 1 1) (chBase ch) 0 1) (chBase ch) 1 1) ch
    let s := (List.range 128).foldl (fun s i => if l.valid.getLsbD i then s else fillByte s lk i) s
    if l.reduced ∧ ¬ (lineAt s lk).syn.isEmpty then
      { s with llc := { s.llc with redPoison := sadd s.llc.redPoison ch } }
    else s

/-- A channel issues the WR of a line whose bytes `keep` the slice holds until the write has committed (R435, R436). DEDUCED: log entry 49. -/
def issueBeat (s : State) (lk : Nat) (keep : BitVec 128) : State :=
  { s with llc := { s.llc with beats := tput s.llc.beats (lineSlice s lk) ⟨lk, s.now, keep⟩ } }

/-- Write the dirty bytes of a held line to the column (R215), through the slice's check (source 4). -/
def writeBack (s : State) (lk : Nat) : State :=
  let l := lineAt s lk
  if l.dirty = 0 then s
  else
    let ch := lineSlice s lk
    let s := issueBeat (count (count (count s (slBase ch) 6 1) (chBase ch) 0 1) (chBase ch) 2 1) lk l.valid
    let s := (List.range 128).foldl (fun s i =>
      if l.dirty.getLsbD i then
        let r := sliceByte s lk i 4
        memPut r.1 (lk * 128 + i) (restOf r.2).1 (restOf r.2).2
      else s) s
    linePut s lk { lineAt s lk with dirty := 0 }

/-- Evict a line (R215, R219, R220). DEDUCED: log entry 21. -/
def evictLine (s : State) (lk : Nat) : State := closeMiss (lineDrop (writeBack (dirWrite s lk) lk) lk) lk

/-- The lines a slice holds, and those of one set. -/
def sliceLines (s : State) (sl : Nat) : List Nat := (s.llc.lines.map (·.1)).filter fun k => lineSlice s k = sl
def setLines (s : State) (lk : Nat) : List Nat :=
  (sliceLines s (lineSlice s lk)).filter fun k => llcSet (lineOff k / 128) = llcSet (lineOff lk / 128)

/-! ### Reduce-add (R224 to R229) -/

/-- Add contribution bytes to the present bytes, by format: LACC-96, INT32, INT64. -/
def reduceBytes (fmt : Nat) (old new : List Byte) : List Byte :=
  if fmt = 0xA then laccAddBytes old new else if fmt = 8 then wrapAddBytes 4 old new else wrapAddBytes 8 old new

/-- Store bytes of a line that the slice holds, as valid and dirty (R214, R417). -/
def storeLine (s : State) (lk o : Nat) (l : List PByte) : State :=
  let e := lineAt s lk
  let e := (indexed l).foldl (fun (e : SLine) p =>
    let r := restOf p.2
    { e with data := lPut e.data (o + p.1) r.1, syn := tset 0 e.syn (o + p.1) r.2 }) e
  let m := maskOf o l.length
  linePut (missWritten s lk) lk
    { e with valid := e.valid ||| m, dirty := e.dirty ||| m, withheld := e.withheld &&& ~~~groupsOf m }

/-- Read all the bytes of held lines lk, lk + 1, … in turn. -/
def readLines : List Nat → State → State × List PByte
  | [], s => (s, [])
  | lk :: r, s =>
    let a := sliceBytes lk 0 128 (fillLine s lk) 0
    let b := readLines r a.1
    (b.1, a.2 ++ b.2)

/-- Poison of a sum: a 32-byte group that a poisoned byte of either summand touches. -/
def sumPoison (key : Nat) (old : List PByte) (bad : List Bool) (v : List Byte) : List PByte :=
  spread (key * 128) ((indexed v).map fun e => (e.2, (old.getD e.1 (0, false)).2 || bad.getD e.1 false))

/-- Add one contribution into its lines (R226, R229); one that needs no fill counts as served without one (R235). -/
def addContrib (s : State) (c : Contrib) : State :=
  let n := ceilDiv c.bytes.length 128
  let lks := (List.range n).map fun i => c.key + i
  let sl := lineSlice s c.key
  let hit : Bool := lks.all fun lk => (lineAt s lk).valid = BitVec.allOnes 128
  let r := readLines lks s
  let s := count (if hit then count r.1 (slBase sl) 0 1 else r.1) (slBase sl) 3 n
  let out := sumPoison c.key r.2 c.poison (reduceBytes c.fmt (pdata r.2) c.bytes)
  let s := if anyPoison out then { s with llc := { s.llc with redPoison := sadd s.llc.redPoison sl } } else s
  lks.foldl (fun s lk =>
    let s := storeLine s lk 0 ((out.drop ((lk - c.key) * 128)).take 128)
    linePut s lk { lineAt s lk with reduced := true }) s

/-- Add every contribution that slice sl holds, in acceptance order (R226). -/
def drainSlice (s : State) (sl : Nat) : State :=
  let mine := s.llc.redQ.filter fun c => lineSlice s c.key = sl
  if mine.isEmpty then s
  else
    let rest := s.llc.redQ.filter fun c => lineSlice s c.key ≠ sl
    mine.foldl addContrib { s with llc := { s.llc with redQ := rest } }

/-- Key of the replacement tree of a line's set, and the tree (R203, R215). -/
def setKey (s : State) (lk : Nat) : Nat := lineSlice s lk * 512 + llcSet (lineOff lk / 128)
def setTree (s : State) (lk : Nat) : BitVec 16 := tget 0 s.llc.plru (setKey s lk)

/-- A line that the slice holds is used. -/
def lineTouch (s : State) (lk : Nat) : State :=
  { s with llc := { s.llc with plru := tset 0 s.llc.plru (setKey s lk) (plruTouch 4 1 (lineAt s lk).way (setTree s lk)) } }

/-- The line of a set that gives way to another (R215): the pseudo-LRU way among those neither pinned nor pending. DEDUCED: log entry 21. -/
def victim (s : State) (lk : Nat) : Option Nat :=
  let ways := setLines s lk
  let ok (k : Nat) : Bool := !(lineAt s k).pinned && !linePending s k
  let w := plruVictim (fun w => ways.any fun k => (lineAt s k).way = w && ok k) (setTree s lk) 4 1 0
  ways.find? fun k => (lineAt s k).way = w && ok k

/-- Make room for a line in its set (R214, R215, R227): the way that it takes. A set whose ways are all pinned or
pending lets one pending line that is not pinned go once it has added its contributions (R223). DEDUCED: log entry 21. -/
def takeWay (s : State) (lk : Nat) : State × Nat :=
  match freeWay 4 ((setLines s lk).map fun k => (lineAt s k).way) with
  | some w => (s, w)
  | none =>
    match victim s lk with
    | some k => (evictLine s k, (lineAt s k).way)
    | none =>
      match (setLines s lk).find? fun k => linePending s k && !(lineAt s k).pinned with
      | some k => (count (evictLine (drainSlice s (lineSlice s lk)) k) (slBase (lineSlice s lk)) 4 1, (lineAt s k).way)
      | none => (s, 0)

/-- A line stands in its slice, in an empty way when it did not, and has been used last. DEDUCED: log entry 21. -/
def ensureLine (s : State) (lk : Nat) : State :=
  if lineHeld s lk then lineTouch s lk
  else
    let r := takeWay s lk
    lineTouch (linePut r.1 lk { SLine.init with pinned := s.llc.pins.contains lk, way := r.2 }) lk

/-! ### Rowan channels (R257 to R259) -/

/-- Place of byte 0 of row address ra of the column that channel ch serves. -/
def rowKey (s : State) (ch ra : Nat) : Nat := placeKey (ch / 272) ((logicalCol s ch).getD 0) (ra * 2048)

/-- Row address of a place. -/
def keyRow (k : Nat) : Nat := keyOff k / 2048

/-- Regenerate a stale row (R258): its check bits are computed from its data, or every byte becomes poison. -/
def regenRow (s : State) (ch ra : Nat) : State :=
  let c := chanAt s ch
  if !c.stale.contains ra then s
  else
    let k := rowKey s ch ra
    let pp := c.poisonPending.contains ra
    let m := { s.mem with syn := tclear s.mem.syn k (k + 2048) }
    let s := { s with mem := m }
    let s := if pp then (List.range 2048).foldl (fun s i => memPut s (k + i) 0 poisonSyn) s else s
    let s := modChan s ch fun c => { c with stale := sdel c.stale ra, poisonPending := sdel c.poisonPending ra }
    count (count s (chBase ch) 7 1) (chBase ch) 0 1

/-- Regenerate every stale row of a channel, lowest row first (R249, R258). -/
def regenAll (s : State) (ch : Nat) : State := (chanAt s ch).stale.foldl (fun s ra => regenRow s ch ra) s

/-- The channel serves accesses without its slice: ENTERING, ROWAN or EXITING (R259). -/
def bypassed (s : State) (lk : Nat) : Bool := chanMode s (lineSlice s lk) ≠ 0

/-- An ordinary access to a column in Rowan mode waits (R259): the channel is still ENTERING, it is performing a ROWOP, or the access reads
a stale row. -/
def accessWaits (s : State) (ch ra : Nat) (read : Bool) : Bool :=
  chanMode s ch = 1 || ((chanAt s ch).queue.head?.map fun c => decide (c.kind = 0)).getD false || (read && (chanAt s ch).stale.contains ra)

/-- Count an access at the controller (R264): its ACT, its RD or WR, and whether it waited. -/
def countAccess (s : State) (ch ra : Nat) (read : Bool) : State :=
  count (count (count s (chBase ch) 8 (if accessWaits s ch ra read then 1 else 0)) (chBase ch) 0 1) (chBase ch) (if read then 1 else 2) 1

/-- A read of a column in Rowan mode (R259): a stale row is regenerated first; corrected bytes go back to the column. -/
def rowanRead (s : State) (lk o n : Nat) : State × List PByte :=
  let ch := lineSlice s lk
  let ra := keyRow (lk * 128)
  checkedReads .vch (chBase ch) 0 n (regenRow (drawStall (countAccess s ch ra true) ch) ch ra) (lk * 128 + o) (lineOff lk + o)

/-- A write of a column in Rowan mode (R259). -/
def rowanWrite (s : State) (lk o : Nat) (l : List PByte) : State :=
  memWrites l (issueBeat (countAccess s (lineSlice s lk) (keyRow (lk * 128)) false) lk 0) (lk * 128 + o)

/-! ### Forced misses (R444) -/

/-- The rate of forced misses in force in tower t, in 256ths: at most 16 unless beyond is set. DEDUCED: log entry 52. -/
def missRate (s : State) (t : Nat) : Nat :=
  let b := brzBase t
  let r := fget s (b + 0x10) 43 36
  if fbit s b 63 && fbit s b 4 then (if fbit s b 32 then r else Nat.min 16 r) else 0

/-- Draw whether a hit that the control selects is served as a miss; one that is counts in BRZ_PERTURBED (R448). DEDUCED: log entry 52. -/
def drawMiss (s : State) (t : Nat) (selected : Bool) : State × Bool :=
  let r := missRate s t
  if !selected ∨ r = 0 then (s, false)
  else
    let x := lfsrDraw s t
    if x.2 % 256 < r then (count x.1 (brzBase t) 0 1, true) else (x.1, false)

/-- Serve a request that the slice's valid bytes satisfy: a hit, or a forced miss, which writes back and fetches again. -/
def serveHit (s : State) (lk : Nat) : State :=
  let sl := lineSlice s lk
  let l := lineAt s lk
  let f := drawMiss s (sl / 272) (brzSlice s sl && !l.pinned && !l.reduced && !linePending s lk)
  if f.2 then
    let s := writeBack f.1 lk
    fillLine (linePut s lk { lineAt s lk with valid := 0, syn := [] }) lk
  else count f.1 (slBase sl) 0 1

/-! ### Accesses at the home slice (R201) -/

/-- Before an access to a line the slice adds the contributions that line waits for (R226). -/
def settleLine (s : State) (lk : Nat) : State := if linePending s lk then drainSlice s (lineSlice s lk) else s

/-- Serve a read of the bytes of a mask (R214, R217): from valid bytes, or by joining the miss that is outstanding for the line while no
write has arrived since it was opened, or by a miss. -/
def serveRead (s : State) (lk : Nat) (m : BitVec 128) : State :=
  if (lineAt s lk).valid &&& m = m then
    match missAt s lk with
    | some x => if x.written then serveHit (closeMiss s lk) lk else count s (slBase (lineSlice s lk)) 2 1
    | none => serveHit s lk
  else openMiss (fillLine s lk) lk

/-- An engine's, Quince's, the host's or a remote read of bytes o to o + n − 1 of a line (R219). -/
def homeRead (s : State) (lk o n : Nat) : State × List PByte :=
  if bypassed s lk then rowanRead s lk o n
  else
    let s := dirRead (settleLine (ensureLine s lk) lk) lk
    sliceBytes lk 0 n (closeMiss (serveRead s lk (maskOf o n)) lk) o

/-- A write by other than an L1 (R219). -/
def homeWrite (s : State) (lk o : Nat) (l : List PByte) : State :=
  if bypassed s lk then rowanWrite s lk o l
  else
    let s := dirWrite (settleLine (ensureLine s lk) lk) lk
    let s := count s (slBase (lineSlice s lk)) 0 1
    storeLine s lk o l

/-- A slice accepts a contribution (R226): it reserves the lines and applies R219 to each; with 64 queued it first adds
what waits. A channel in Rowan mode adds it in the column. -/
def acceptContrib (s : State) (key fmt : Nat) (bytes : List Byte) (poison : List Bool) : State :=
  let sl := lineSlice s key
  let n := ceilDiv bytes.length 128
  let lks := (List.range n).map fun i => key + i
  if bypassed s key then
    let r := lks.foldl (fun (r : State × List PByte) lk => let q := rowanRead r.1 lk 0 128; (q.1, r.2 ++ q.2)) (s, [])
    let out := sumPoison key r.2 poison (reduceBytes fmt (pdata r.2) bytes)
    let s := count r.1 (slBase sl) 3 n
    let s := if anyPoison out then { s with llc := { s.llc with redPoison := sadd s.llc.redPoison sl } } else s
    lks.foldl (fun s lk => rowanWrite s lk 0 ((out.drop ((lk - key) * 128)).take 128)) s
  else
    let s := if 64 ≤ (s.llc.redQ.filter fun c => lineSlice s c.key = sl).length then drainSlice s sl else s
    let s := lks.foldl (fun s lk => dirWrite (ensureLine s lk) lk) s
    { s with llc := { s.llc with redQ := s.llc.redQ ++ [⟨key, fmt, bytes, poison⟩] } }

/-! ### Cluster memory (R211 to R213) -/

/-- The CL_ block of a CMEM address, and the offset within the cluster. -/
def cmemBlk (a : Nat) : Nat :=
  clBase ((a - 0x20000000000) / 0x100000000) ((a - 0x20000000000) % 0x100000000 / 0x1000000)
def cmemOff (a : Nat) : Nat := a % 0x1000000

/-- Bank of a line of cluster memory: aperture and offset bits [11:7] (R211). -/
def cmemBank (a : Nat) : Nat := a / 0x1000000 * 32 + a / 128 % 32

/-- Merge slots that stand at CCLK c: those of the arrival cycle and the 7 after it (R212). DEDUCED: log entry 21. -/
def slotsOpen (t : Tbl Nat) (c : Nat) : Tbl Nat := t.filter fun e => c ≤ e.2 + 7

/-- A read of a whole line that reaches its bank (R211, R212): it is served from the line's merge slot while that stands, and else reads
the bank and opens a slot, when the bank has one free. DEDUCED: log entry 21. -/
def cmemLine (s : State) (la : Nat) : State × List PByte :=
  let t := slotsOpen s.llc.merge (cclk s)
  let join : Bool := (tget? t (la / 128)).isSome
  let room : Bool := (t.filter fun e => cmemBank (e.1 * 128) = cmemBank la).length < 4
  let s := { s with llc := { s.llc with merge := if join || !room then t else tput t (la / 128) (cclk s) } }
  checkedReads .cl (cmemBlk la) 0 128 (count s (cmemBlk la) (if join then 1 else 0) 1) la (cmemOff la)

/-- A byte-masked write at a bank; it closes the line's merge slot (R212). -/
def cmemWrite (s : State) (a : Nat) (l : List PByte) : State :=
  let s := { s with llc := { s.llc with merge := tdel s.llc.merge (a / 128) } }
  memWrites l (count s (cmemBlk a) 2 1) a

/-! ### The slow tier (R306, R307) -/

/-- Address of slow-tier offset 0. -/
def slowBase : Nat := 0x100000000000

/-- The QNC_ block of a slow-tier line, and the location field of its byte 0 (R425). -/
def slowBlk (la : Nat) : Nat := qchBase (slowPlace (la - slowBase)).1
def slowLoc (la : Nat) : Nat := (slowPlace (la - slowBase)).2 * 128

/-- A line holds a byte that a read rewrites: corrected, or poisoned because it cannot be corrected (R308, R508). -/
def slowDirty (s : State) (la : Nat) : Bool :=
  (List.range 128).any fun i => s.mem.syndrome (la + i) ≠ 0 && s.mem.syndrome (la + i) ≠ poisonSyn

/-- Quince reads a whole line, as a read (source 0), a merge (5) or scrub (1). A line that the read rewrites is written as a merge (R508);
the read of a merge is followed by the merge's own write. DEDUCED: log entry 42. -/
def slowLine (s : State) (la source : Nat) : State × List PByte :=
  let b := slowBlk la
  let s' := count s b 0 1
  checkedReads .qch b source 128 (if source ≠ 5 ∧ slowDirty s la then count (count s' b 1 1) b 2 1 else s') la (slowLoc la)

/-- Quince writes bytes within a line; a part of a line is merged (R307). -/
def slowWrite (s : State) (a : Nat) (l : List PByte) : State :=
  let la := a / 128 * 128
  let s := if l.length = 128 then s else count (slowLine s la 5).1 (slowBlk la) 2 1
  memWrites l (count s (slowBlk la) 1 1) a

/-! ### Module-local memory -/

/-- Read bytes o to o + n − 1 of the line at address la (R418: whole 32-byte groups travel with one poison bit). -/
def lineRead (s : State) (la o n : Nat) : State × List PByte :=
  let g := o / 32 * 32
  let m := ceilDiv (o + n) 32 * 32 - g
  let r : State × List PByte × Nat :=
    match place s la with
    | .fast k =>
      let q := homeRead s (k / 128) g m
      let f := takeFlight q.1 (k + g) m (spread (k + g) q.2)
      (f.1, f.2, g)
    | .cmem a =>
      let q := cmemLine s a
      let f := takeFlight q.1 (a + g) m ((spread a q.2).drop g |>.take m)
      (f.1, f.2, g)
    | .slow off =>
      let q := slowLine s (slowBase + off) 0
      (q.1, (spread la q.2).drop g |>.take m, g)
    | _ => (s, List.replicate m (0, false), g)
  (r.1, (r.2.1.drop (o - g)).take n)

/-- Write bytes within the line at address la from byte o (R416, R417). -/
def lineWrite (s : State) (la o : Nat) (l : List PByte) : State :=
  let l := spread (la + o) l
  match place s la with
  | .fast k => homeWrite (cancelFlight s (k + o) l) (k / 128) o l
  | .cmem a => cmemWrite (cancelFlight s (a + o) l) (a + o) l
  | .slow off => slowWrite s (slowBase + off + o) l
  | _ => s

/-- Bytes of the range a to a + n − 1 by line: line address, first byte, length. `fuel` bounds the number of lines. -/
def pieces : Nat → Nat → Nat → List (Nat × Nat × Nat)
  | 0, _, _ => []
  | f + 1, a, n =>
    if n = 0 then []
    else
      let o := a % 128
      let m := Nat.min n (128 - o)
      (a - o, o, m) :: pieces f (a + m) (n - m)

/-- Lines that a range touches. DEDUCED: log entry 41. -/
def linesOf (a n : Nat) : List (Nat × Nat × Nat) := pieces (n / 128 + 2) a n

/-- Read n bytes of memory at a module-local address. DEDUCED: log entry 41. -/
def memRead (s : State) (a n : Nat) : State × List PByte :=
  (linesOf a n).foldl (fun r p => let q := lineRead r.1 p.1 p.2.1 p.2.2; (q.1, r.2 ++ q.2)) (s, [])

/-- Write bytes of memory at a module-local address. DEDUCED: log entry 41. -/
def memWrite (s : State) (a : Nat) (l : List PByte) : State :=
  ((linesOf a l.length).foldl (fun (r : State × List PByte) p =>
    (lineWrite r.1 p.1 p.2.1 (r.2.take p.2.2), r.2.drop p.2.2)) (s, l)).1

/-- The lowest address of a range that does not lead where p allows. -/
def badAddr (s : State) (p : Place → Bool) (a n : Nat) : Option Nat :=
  ((linesOf a n).find? fun q => !p (place s q.1)).map fun q => q.1 + q.2.1

/-- Does every byte of a range lead where p allows?. DEDUCED: log entry 41. -/
def rangeOk (s : State) (p : Place → Bool) (a n : Nat) : Bool := (badAddr s p a n).isNone

/-- A read of a range meets a withheld group that its holder has not written again: it waits at the slice (R210). A read by the
holder itself (logical core `who`) does not. -/
def withheldFrom (s : State) (who a n : Nat) : Bool :=
  if s.llc.lines.all fun e => e.2.withheld = 0 then false
  else (linesOf a n).any fun p =>
    match place s p.1 with
    | .fast k =>
      let e := lineAt s (k / 128)
      let own := (tget L1Line.init (coreOf s (physCore s e.holder)).l1 (k / 128)).dirty.toNat
      e.holder ≠ who && (List.range 4).any fun g =>
        e.withheld.getLsbD g && p.2.1 < 32 * g + 32 && decide (32 * g < p.2.1 + p.2.2) && bits own (32 * g + 31) (32 * g) = 0
    | _ => false

/-- Ranges an engine may reach inside the module: memory and the host window, not control space (R45). -/
def Place.engineOk : Place → Bool
  | .fast _ => true
  | .cmem _ => true
  | .slow _ => true
  | .host _ => true
  | _ => false

def Place.isFast : Place → Bool
  | .fast _ => true
  | _ => false

def Place.isSlow : Place → Bool
  | .slow _ => true
  | _ => false

/-- The fast tier or a CMEM aperture of tower t. -/
def Place.inTower (t : Nat) : Place → Bool
  | .fast k => keyTower k = t
  | .cmem a => (a - 0x20000000000) / 0x100000000 = t
  | _ => false

/-! ### The L1 of a core (R205 to R209) -/

/-- The L1 set of a line: module-local address bits [14:7] (R205). In the pooled window they follow from the logical column by the hash of
R204. PRESUMED: log entry 22. -/
def l1Set (s : State) (lk : Nat) : Nat :=
  let o := lineOff lk
  let p := privBytes (poolUnits s (keyTower (lk * 128)))
  if o < p then lk % 256
  else
    let h := (o - p) / 128
    (keyCol (lk * 128) ^^^ h ^^^ (h / 256) ^^^ (h / 65536)) % 256

/-- The L1 of core q has used a line. PRESUMED: log entry 22. -/
def l1Touch (s : State) (q lk : Nat) : State :=
  match tget? (coreOf s q).l1 lk with
  | some e => modCore s q fun c =>
      { c with l1plru := tset 0 c.l1plru (l1Set s lk) (plruTouch 3 1 e.way (tget 0 c.l1plru (l1Set s lk))) }
  | none => s

/-- An L1 lets a line go (R219): the dirty bytes of an owned line are written back and the state becomes I; a clean line is dropped
silently. PRESUMED: log entry 22. -/
def l1Evict (s : State) (q lk : Nat) : State :=
  let e := tget L1Line.init (coreOf s q).l1 lk
  let s := if e.dirty = 0 then s else count (l1Recall s q lk) (slBase (lineSlice s lk)) 0 1
  let s := l1Drop s q lk
  if e.own ∧ (lineAt s lk).dir = .m q then setDir s lk .i else s

/-- The L1 of core q has a line, in a way that the tree of its set gives (R205): 8 ways in each of 256 sets. PRESUMED: log entry 22. -/
def l1Alloc (s : State) (q lk : Nat) : State :=
  let c := coreOf s q
  if (tget? c.l1 lk).isSome then s
  else
    let ways := c.l1.filter fun e => l1Set s e.1 = l1Set s lk
    let r : State × Nat := match freeWay 3 (ways.map (·.2.way)) with
      | some w => (s, w)
      | none =>
        let w := plruVictim (fun _ => true) (tget 0 c.l1plru (l1Set s lk)) 3 1 0
        (((ways.find? fun e => e.2.way = w).map fun e => l1Evict s q e.1).getD s, w)
    modCore r.1 q fun c => { c with l1 := tput c.l1 lk { L1Line.init with way := r.2 } }

/-- Fetch a line into the L1 of core q (R206, R416): bytes of poisoned groups stay not valid; dirty bytes stand. PRESUMED: log entry 22. -/
def l1Fill (s : State) (q lk : Nat) : State :=
  if bypassed s lk then s
  else
    let s := dirMiss (settleLine (ensureLine s lk) lk) lk q
    let s := serveRead s lk (BitVec.allOnes 128)
    let r := sliceBytes lk 0 128 s 0
    let f := takeFlight r.1 (lk * 128) 128 (spread (lk * 128) r.2)
    let s := l1Alloc f.1 q lk
    let c := coreOf s q
    let e := tget L1Line.init c.l1 lk
    let e' := (indexed f.2).foldl (fun (e : L1Line) p =>
      if e.dirty.getLsbD p.1 ∨ p.2.2 then e
      else { e with valid := e.valid ||| BitVec.ofNat 128 (2 ^ p.1), data := lPut e.data p.1 p.2.1 }) e
    count (l1Touch (setCore s q { c with l1 := tput c.l1 lk e' }) q lk) (coreBase (q / 272) (q % 272)) 4 1

/-- Are bytes o to o + n − 1 of a line valid in the L1 of core q? -/
def l1Hit (s : State) (q lk o n : Nat) : Bool :=
  let e := tget L1Line.init (coreOf s q).l1 lk
  e.valid &&& maskOf o n = maskOf o n

/-- Bytes of the L1's copy of a line. -/
def l1Bytes (s : State) (q lk o n : Nat) : List PByte :=
  let e := tget L1Line.init (coreOf s q).l1 lk
  (List.range n).map fun i => (lByte e.data (o + i), false)

/-- A store of clean bytes into the L1 of core q, which owns the line (R207). -/
def l1Store (s : State) (q lk o : Nat) (l : List Byte) : State :=
  let c := coreOf s q
  let e := tget L1Line.init c.l1 lk
  let d := (indexed l).foldl (fun d p => lPut d (o + p.1) p.2) e.data
  let m := maskOf o l.length
  l1Touch (setCore s q { c with l1 := tput c.l1 lk { e with valid := e.valid ||| m, dirty := e.dirty ||| m, data := d, own := true } }) q lk

/-- Grant core q ownership of a line (R207, R219). -/
def grantOwn (s : State) (q lk : Nat) : State :=
  let s := dirOwn (settleLine (ensureLine s lk) lk) lk q
  let s := l1Alloc (count s (slBase (lineSlice s lk)) 0 1) q lk
  modCore s q fun c => { c with l1 := tput c.l1 lk { tget L1Line.init c.l1 lk with own := true } }

/-- Write every dirty line of core q's L1 to the home slices, keeping the lines owned and clean (R209). -/
def l1WriteBack (s : State) (q : Nat) : State :=
  ((coreOf s q).l1.filter fun e => e.2.dirty ≠ 0).foldl (fun s e =>
    let s := ensureLine s e.1
    let own := (tget L1Line.init (coreOf s q).l1 e.1).own
    let s := count (l1Recall s q e.1) (slBase (lineSlice s e.1)) 0 1
    modCore s q fun c => { c with l1 := tput c.l1 e.1 { tget L1Line.init c.l1 e.1 with own := own } }) s

/-- On a replayable fault every dirty line of the L1 is invalidated whole and released at the directory (R209). -/
def l1Abandon (s : State) (q : Nat) : State :=
  ((coreOf s q).l1.filter fun e => e.2.dirty ≠ 0).foldl (fun s e =>
    let s := l1Drop s q e.1
    if (lineAt s e.1).dir = .m q then setDir s e.1 .i else s) s

/-- An L1 loses everything without writing back (R429, R436): the directory forgets it. -/
def l1Clear (s : State) (q : Nat) : State :=
  let s := (coreOf s q).l1.foldl (fun s e => if (lineAt s e.1).dir = .m q then setDir s e.1 .i else s) s
  modCore s q fun c => { c with l1 := [] }

/-- A slice writes back and invalidates every line it holds, after all pending lines have been added (R216, R248). -/
def flushSlice (s : State) (sl : Nat) : State :=
  let s := drainSlice s sl
  (sliceLines s sl).foldl (fun s k => evictLine s k) s

end Sys2Proof.Machine
end

