-- ==== Sys2Proof/Machine/RowOps.lean ====
section
/-! DEFINITION. The operations between rows of a column (R251 to R258), the mode changes of a channel (R247 to R250),
line clones (R261) and the move of a column to its spare (R262). -/

namespace Sys2Proof.Machine

/-- Set the mode of a channel, with LLC_SLICE_STATUS.rowan of its slice (R248, R249). -/
def setMode (s : State) (ch m : Nat) : State :=
  fset (fset s (chBase ch) 1 0 m) (slBase ch) 2 2 (if m = 2 ∨ m = 3 then 1 else 0)

/-- Two rows lie in the same subarray (R236). -/
def sameSub (a b : Nat) : Bool := a % 128 = b % 128 && a / 16384 = b / 16384

/-- Bank of a row address: die × 16 + bank (R236). -/
def rowBank (ra : Nat) : Nat := ra % 128

/-- Open a source row (R255): stale rows are regenerated first, every byte is checked and corrected. The row's ACT counts (R264). -/
def openRow (s : State) (ch ra : Nat) : State × List PByte :=
  let s := count (regenRow s ch ra) (chBase ch) 0 1
  checkedReads .vch (chBase ch) 2 2048 s (rowKey s ch ra) (ra * 2048)

/-- Bitwise result of source rows. -/
def rowMap2 (f : Byte → Byte → Byte) (a b : List PByte) : List PByte := List.zipWith (fun x y => (f x.1 y.1, x.2 || y.2)) a b
def rowMaj (a b c : List PByte) : List PByte :=
  List.zipWith (fun xy z => (((xy.1.1 &&& xy.2.1) ||| (xy.1.1 &&& z.1) ||| (xy.2.1 &&& z.1)), xy.1.2 || xy.2.2 || z.2)) (a.zip b) c

/-- Write a destination whose check row is valid (XOR, NOT, CLONE, FILL; R256, R257). -/
def putValid (s : State) (ch dst : Nat) (l : List PByte) : State :=
  let s := count (memWrites l s (rowKey s ch dst)) (chBase ch) 0 1
  modChan s ch fun c => { c with stale := sdel c.stale dst, poisonPending := sdel c.poisonPending dst }

/-- Write a destination that becomes stale (AND, OR, MAJ; R256, R257): any bad byte sets its poison-pending bit. -/
def putStale (s : State) (ch dst : Nat) (l : List PByte) : State :=
  let bad := anyPoison l
  let s := count (memWrites (clean (pdata l)) s (rowKey s ch dst)) (chBase ch) 0 1
  modChan s ch fun c =>
    { c with stale := sadd c.stale dst, poisonPending := if bad then sadd c.poisonPending dst else sdel c.poisonPending dst }

/-- Operations 0x01 to 0x08 (R252). -/
def rowAnd (s : State) (ch : Nat) (e : RowEnt) : State :=
  let a := openRow s ch e.a
  let b := openRow a.1 ch e.b
  putStale b.1 ch e.dst (rowMap2 (· &&& ·) a.2 b.2)
def rowOr (s : State) (ch : Nat) (e : RowEnt) : State :=
  let a := openRow s ch e.a
  let b := openRow a.1 ch e.b
  putStale b.1 ch e.dst (rowMap2 (· ||| ·) a.2 b.2)
def rowXor (s : State) (ch : Nat) (e : RowEnt) : State :=
  let a := openRow s ch e.a
  let b := openRow a.1 ch e.b
  putValid b.1 ch e.dst (rowMap2 (· ^^^ ·) a.2 b.2)
def rowNot (s : State) (ch : Nat) (e : RowEnt) : State :=
  let a := openRow s ch e.a
  putValid a.1 ch e.dst (a.2.map fun p => (~~~p.1, p.2))
def rowMajOp (s : State) (ch : Nat) (e : RowEnt) : State :=
  let a := openRow s ch e.a
  let b := openRow a.1 ch e.b
  let c := openRow b.1 ch e.c
  putStale c.1 ch e.dst (rowMaj a.2 b.2 c.2)
def rowClone (s : State) (ch : Nat) (e : RowEnt) : State :=
  let a := openRow s ch e.a
  putValid a.1 ch e.dst a.2
def rowFill (v : Byte) (s : State) (ch : Nat) (e : RowEnt) : State :=
  putValid s ch e.dst (List.replicate 2048 (v, false))

/-- Perform one entry by its code (R252); LOAD of the descriptor has refused any other code. -/
def rowPerform (s : State) (ch : Nat) (e : RowEnt) : State :=
  let s := match e.op with
    | 1 => rowAnd s ch e
    | 2 => rowOr s ch e
    | 3 => rowXor s ch e
    | 4 => rowNot s ch e
    | 5 => rowMajOp s ch e
    | 6 => rowClone s ch e
    | 7 => rowFill 0x00 s ch e
    | 8 => rowFill 0xFF s ch e
    | _ => s
  count s (chBase ch) 6 1

/-- Sources an operation uses (R252). -/
def rowSources (e : RowEnt) : List Nat :=
  match e.op with
  | 1 | 2 | 3 => [e.a, e.b]
  | 4 | 6 => [e.a]
  | 5 => [e.a, e.b, e.c]
  | _ => []

/-- The mode a new ROWOP will find when it reaches the front of the channel's queue (R248, R249, R253). -/
def modeAtEnd (s : State) (ch : Nat) : Nat :=
  (chanAt s ch).queue.foldl (fun m c => if c.kind = 1 then 2 else if c.kind = 2 then 0 else m)
    (if chanMode s ch = 1 then 2 else if chanMode s ch = 3 then 0 else chanMode s ch)

/-- A channel in memory mode with a ROWMODE to Rowan mode at the front of its queue is ENTERING, and its slice writes back and invalidates
its lines at once: accesses that arrive meanwhile find every byte in the column (R248, R259). A channel in Rowan mode that has taken a
ROWMODE to memory mode is EXITING: it performs what it accepted before (R249). -/
def chanFront (s : State) (ch : Nat) : State :=
  let q := (chanAt s ch).queue
  if chanMode s ch = 0 ∧ ((q.head?.map fun c => decide (c.kind = 1)).getD false) then setMode (flushSlice s ch) ch 1
  else if chanMode s ch = 2 ∧ q.any (fun c => c.kind = 2) then setMode s ch 3
  else s

/-- Put a command at the end of a channel's queue. -/
def chanPush (s : State) (ch : Nat) (c : ChanCmd) : State :=
  chanFront (modChan s ch fun x => { x with queue := x.queue ++ [c] }) ch

/-- Remove the command at the front of a channel's queue, when it has been performed. -/
def chanPop (s : State) (ch : Nat) : State := chanFront (modChan s ch fun x => { x with queue := x.queue.drop 1 }) ch

/-- Entry to Rowan mode, steps 2 to 4 of R248. -/
def enterRowan (s : State) (ch : Nat) : State := if chanMode s ch = 2 then s else setMode (if chanMode s ch = 1 then s else flushSlice s ch) ch 2

/-- Exit from Rowan mode, steps 3 and 4 of R249. -/
def exitRowan (s : State) (ch : Nat) : State := if chanMode s ch = 0 then s else setMode (regenAll s ch) ch 0

/-- Perform everything a channel's queue still holds, in order (R249 step 2). -/
def chanDrain (s : State) (ch : Nat) : State :=
  let q := (chanAt s ch).queue
  let s := modChan s ch fun x => { x with queue := [] }
  q.foldl (fun s c =>
    if c.kind = 1 then enterRowan s ch else if c.kind = 2 then exitRowan s ch else c.ents.foldl (fun s e => rowPerform s ch e) s) s

/-- Stone returns every channel in ROWAN or ENTERING to MEMORY (R250). -/
def channelsToMemory (s : State) : State :=
  let live := (List.range 4352).filter fun ch => chanMode s ch ≠ 0 || !(chanAt s ch).queue.isEmpty
  live.foldl (fun s ch => exitRowan (chanDrain s ch) ch) s

/-- Copy lines m to m + n − 1 of a row to the same positions of another row of the subarray (R261), by key. The slice
writes back the source lines first and treats the destination lines as written by an engine. -/
def cloneLines (s : State) (ch src dst m n : Nat) : State :=
  let sk := rowKey s ch src / 128
  let dk := rowKey s ch dst / 128
  let ls := (List.range n).map (m + ·)
  let s := ls.foldl (fun s i => if lineHeld s (sk + i) then writeBack (dirRead (settleLine s (sk + i)) (sk + i)) (sk + i) else s) s
  let s := ls.foldl (fun s i =>
    if lineHeld s (dk + i) then
      let s := dirWrite (settleLine s (dk + i)) (dk + i)
      let l := lineAt s (dk + i)
      linePut s (dk + i) { l with valid := 0, dirty := 0, data := 0, syn := [], withheld := 0 }
    else s) s
  let s := ls.foldl (fun s i =>
    let r := checkedReads .vch (chBase ch) 3 128 s ((sk + i) * 128) (src * 2048 + i * 128)
    memWrites r.2 r.1 ((dk + i) * 128)) s
  count (count s (chBase ch) 9 1) (chBase ch) 0 2

/-- ROW_STALE_i of a channel (R249). -/
def staleWord (s : State) (ch : Nat) : W64 :=
  let c := chanAt s ch
  let mx := (List.range 128).foldl (fun m b => Nat.max m (c.stale.filter fun r => rowBank r = b).length) 0
  BitVec.ofNat 64 (mx + c.poisonPending.length * 2 ^ 12 + c.stale.length * 2 ^ 32)

end Sys2Proof.Machine
end

