-- ==== Sys2Proof/Machine/Scale.lean ====
section
/-! DEFINITION. Scale tables of cores and of Quince (R185 to R192, R320, R322, R323): reading entries, staged captures,
and the update at commit. -/

namespace Sys2Proof.Machine

/-- The granule of the low half of entry t in a core's CORE_ block, and of Quince's. -/
def coreScale (pk t : Nat) : Nat := coreBase (pk / 272) (pk % 272) + 0x1000 + 16 * t
def qncScale (t : Nat) : Nat := qncBase + 0x10000 + 16 * t

/-- The granule of slot i of an entry's amax ring, given the entry's granule: cores at 0x2000 + 32t, Quince at
0x2_0000 + 32t. -/
def ringGranule (o i : Nat) : Nat :=
  let r := if o < 0x40000000 then o / 0x10000 * 0x10000 + 0x2000 + 2 * (o % 0x10000 - 0x1000)
    else qncBase + 0x20000 + 2 * (o - (qncBase + 0x10000))
  r + 8 * (i / 4)

/-- Slot i of an entry's amax ring. -/
def ringSlot (s : State) (o i : Nat) : Nat := fget s (ringGranule o i) (16 * (i % 4) + 15) (16 * (i % 4))
def putRingSlot (s : State) (o i v : Nat) : State := fset s (ringGranule o i) (16 * (i % 4) + 15) (16 * (i % 4)) v

/-- The scale exponent of an entry. -/
def scaleExp (s : State) (o : Nat) : Int := fgetS s o 7 0

/-- The exponent of a core's entry; 0xFF names none and contributes 0 (R180). -/
def coreExp (s : State) (pk t : Nat) : Int := if t = 0xFF then 0 else scaleExp s (coreScale pk t)

/-- sr_global of a core's entry (R183). -/
def srGlobal (s : State) (pk t : Nat) : Bool := fbit s (coreScale pk t) 33

/-- The granules of entry t of a core: its state and its ring (R185). -/
def scaleGranules (pk t : Nat) : List Nat :=
  let o := coreScale pk t
  [o, o + 8] ++ (List.range 8).map fun i => ringGranule o (4 * i)

/-- What the decoder finds in a stored byte of a scale table (R185, R414). DEDUCED: log entry 95. -/
def scaleFound (s : State) (a : Nat) : Found :=
  decodeByte (BitVec.ofNat 8 (fget s (a / 8 * 8) (8 * (a % 8) + 7) (8 * (a % 8)))) (tget 0 s.ctl.syn a)

/-- Stored bytes of entry t of a core that are not clean. -/
def scaleDirty (s : State) (pk t : Nat) : List Nat :=
  (s.ctl.syn.map (·.1)).filter fun a => (scaleGranules pk t).contains (a / 8 * 8)

/-- An entry holds an uncorrectable error (R185). DEDUCED: log entry 95. -/
def scaleBad (s : State) (pk t : Nat) : Bool :=
  (scaleDirty s pk t).any fun a => match scaleFound s a with
    | .clean _ | .corrected _ => false
    | _ => true

/-- The corrections of an entry that is read are written back (R508). DEDUCED: log entry 95. -/
def scaleFix (s : State) (pk t : Nat) : State :=
  (scaleDirty s pk t).foldl (fun s a => match scaleFound s a with
    | .corrected v =>
      let s := fset s (a / 8 * 8) (8 * (a % 8) + 7) (8 * (a % 8)) v.toNat
      { s with ctl := { s.ctl with syn := tdel s.ctl.syn a } }
    | _ => s) s

/-- Entries that an MST to entry t reads: its own and the two that give its input exponents (R180). -/
def scaleChain (s : State) (pk t : Nat) : List Nat :=
  t :: ([fget s (coreScale pk t) 55 48, fget s (coreScale pk t) 63 56].filter (· ≠ 0xFF))

/-- Combine two captures (R187). -/
def Cap.join (a b : Cap) : Cap := ⟨Nat.max a.amax b.amax, a.flush + b.flush, a.sat + b.sat, a.nonfin || b.nonfin⟩

/-- Step 1 of R188: push a BF16 magnitude into the ring. -/
def scaleRing (s : State) (o amax : Nat) : State :=
  let pos := fget s (o + 8) 3 0
  let s := putRingSlot s o pos amax
  let s := fset s (o + 8) 3 0 ((pos + 1) % 16)
  fset s o 20 16 (Nat.min 16 (fget s o 20 16 + 1))

/-- Step 2 of R188: update the exponent. -/
def scaleUpdate (s : State) (o : Nat) : State :=
  let fill := fget s o 20 16
  match updateMax (fget s o 39 36) with
  | some mx =>
    if !fbit s o 32 ∨ isLacc (fget s o 39 36) ∨ fget s o 39 36 = 8 ∨ fget s o 39 36 = 9 then s
    else
      let h := (List.range fill).foldl (fun m i => Nat.max m (ringSlot s o i % 2 ^ 15)) 0
      match newExp h (fget s o 42 40) mx with
      | none => fset s o 14 14 1
      | some e => fset s o 7 0 (unsigned 8 e)
  | none => s

/-- Steps 1 and 2 of R188: push a BF16 magnitude and update the exponent. -/
def scalePush (s : State) (o amax : Nat) : State := scaleUpdate (scaleRing s o amax) o

/-- The silent watch of R191 on a push: the state, and whether the entry newly became silent. -/
def scaleWatch (s : State) (o amax : Nat) : State × Bool :=
  if amax = 0 then
    let z := Nat.min 0xFFFF (fget s (o + 8) 31 16 + 1)
    let s := fset s (o + 8) 31 16 z
    let n := fget s (o + 8) 15 8
    let n := if n = 0 then 64 else n
    if n ≤ z ∧ fbit s (o + 8) 4 ∧ !fbit s o 15 then (fset s o 15 15 1, true) else (s, false)
  else (fset (fset s (o + 8) 31 16 0) o 15 15 0, false)

/-- Count flushes in an entry: event counter 64 + t of its block (R190, R322). -/
def scaleFlush (s : State) (base o t n : Nat) : State := countAt s base (o + 8) 63 32 (64 + t) n

/-- R188 on entry t of the core at physical position pk with logical identifier lc; `raise` says whether this core raises
the notice of R191 for a shared entry. -/
def coreEntryUpdate (s : State) (pk lc t amax : Nat) (own : Cap) (raise : Bool) : State :=
  let o := coreScale pk t
  let base := coreBase (pk / 272) (pk % 272)
  let s := scalePush s o amax
  let s := scaleFlush s base o t own.flush
  let s := count s base 2 own.sat
  let s := if own.nonfin then fset s o 13 13 1 else s
  let w := scaleWatch s o amax
  if w.2 ∧ raise then
    notice w.1 0x0B01 0 lc (pk / 272) (t + fget w.1 o 35 34 * 2 ^ 8 + fget w.1 (o + 8) 31 16 * 2 ^ 16 + fget w.1 (o + 8) 63 32 * 2 ^ 32)
  else w.1

/-- Physical cores that hold a logical position, in logical order, with their logical identifiers. -/
def logicalCores (s : State) : List (Nat × Nat) := (List.range 4096).map fun l => (l, physCore s l)

/-- What the attention engine of a logical core's cluster has staged for the scale entries of that core (R271, R278). DEDUCED: log entry 44. -/
def engineCaps (s : State) (lc : Nat) : List (Nat × Cap) :=
  (tget AttEng.init s.att (lc / 16)).staged.filterMap fun x =>
    match x.kind with
    | .amax t c => if x.core = lc then some (t, c) else none
    | _ => none

/-- The staged captures of a logical core at its physical place, its own and the engine's (R187, R278). -/
def capsOf (s : State) (lp : Nat × Nat) : Tbl Cap :=
  (engineCaps s lp.1).foldl (fun t e => tput t e.1 ((tget Cap.init t e.1).join e.2)) (coreOf s lp.2).stage

/-- The share value of an entry (R185). -/
def shareOf (s : State) (pk t : Nat) : Nat := fget s (coreScale pk t) 35 34

/-- The share value that an entry acts under: outside fabric plans 2 acts as 1 (R185). -/
def actsShare (fabric : Bool) (sh : Nat) : Nat := if !fabric ∧ sh = 2 then 1 else sh

/-- The captures of R187 that a commit applies, in entry order of each core: shared entries are reduced over the
device, with what the fabric barrier `bar` brought (R189). `fabric` is the plan's mode flag. -/
def commitScales (s : State) (fabric : Bool) (bar : Option Nat) : State :=
  let cores := logicalCores s
  let shareOf (s : State) (pk t : Nat) : Nat := actsShare fabric (shareOf s pk t)
  let shared := cores.foldl (fun (acc : Tbl Nat) lp =>
    (capsOf s lp).foldl (fun acc e =>
      let sh := shareOf s lp.2 e.1
      if sh = 0 then acc else tput acc (sh * 256 + e.1) (Nat.max (tget 0 acc (sh * 256 + e.1)) e.2.amax)) acc) []
  let shared := match bar with
    | some k => (tget [] s.fab.barTouched k).foldl (fun acc t =>
      tput acc (2 * 256 + t) (Nat.max (tget 0 acc (2 * 256 + t)) (tget 0 (tget [] s.fab.barAmax k) t))) shared
    | none => shared
  let s0 := s
  let s := cores.foldl (fun s lp =>
    let stage := capsOf s0 lp
    let s := stage.foldl (fun s e =>
      if shareOf s0 lp.2 e.1 = 0 then coreEntryUpdate s lp.2 lp.1 e.1 e.2.amax e.2 true else s) s
    shared.foldl (fun s e =>
      let t := e.1 % 256
      if shareOf s0 lp.2 t = e.1 / 256 then
        let first := cores.find? fun q => shareOf s0 q.2 t = e.1 / 256
        coreEntryUpdate s lp.2 lp.1 t e.2 (tget Cap.init stage t) (first = some lp)
      else s) s) s
  cores.foldl (fun s lp =>
    let c := coreOf s lp.2
    if c.stage.isEmpty ∧ c.stageUnfit = 0 then s
    else
      let s := count s (coreBase (lp.2 / 272) (lp.2 % 272)) 3 c.stageUnfit
      modCore s lp.2 fun c => { c with stage := [], stageUnfit := 0 }) s

/-- The silent watch on Quince's entry t (R191, R323). -/
def qncWatch (s : State) (t amax : Nat) : State :=
  let o := qncScale t
  let w := scaleWatch s o amax
  if w.2 then
    notice w.1 0x2001 0 0xFFFF 0xFF (t + fget w.1 (o + 8) 31 16 * 2 ^ 16 + fget w.1 (o + 8) 63 32 * 2 ^ 32)
  else w.1

/-- Quince's entry t as the working copy's entry of a touched group (R320 items 1 and 3). -/
def qncWorkUpdate (s : State) (t amax flushes sats : Nat) (nonfin : Bool) : State :=
  let o := qncScale t
  let s := scalePush s o amax
  let s := scaleFlush s qncBase o t flushes
  let s := count s qncBase 6 sats
  let s := if nonfin then fset s o 13 13 1 else s
  qncWatch s t amax

/-- Quince's entry t as the gradient's entry of a touched group (R320 item 2). -/
def qncGradUpdate (s : State) (t amax : Nat) : State := qncWatch (scaleRing s (qncScale t) amax) t amax

end Sys2Proof.Machine
end

