-- ==== Sys2Proof/Machine/Flit.lean ====
section
/-! DEFINITION. A flit on the wire (R333 to R335): the RS(56,44) code of a lane, the PAM4 symbols, the control field, and the CRC. -/

namespace Sys2Proof.Machine

/-! ### GF(2^8) and the code of a lane (R333) -/

/-- Multiply by α modulo x^8 + x^4 + x^3 + x^2 + 1. -/
def gfStep (x : Nat) : Nat := if x < 128 then 2 * x else (2 * x) ^^^ 0x11D

/-- The product of two field elements. -/
def gfMul (a b : Nat) : Nat :=
  (List.range 8).foldl (fun acc i => let d := gfStep acc; if b.testBit (7 - i) then d ^^^ a else d) 0

/-- α^i. -/
def gfPow : Nat → Nat
  | 0 => 1
  | i + 1 => gfStep (gfPow i)

/-- α^i times x. -/
def gfShift (x : Nat) : Nat → Nat
  | 0 => x
  | i + 1 => gfStep (gfShift x i)

/-- The inverse a^254. -/
def gfInv (a : Nat) : Nat :=
  ((List.range 7).foldl (fun (r : Nat × Nat) _ => let s := gfMul r.1 r.1; (s, gfMul r.2 s)) (a, 1)).2

/-- Value of a polynomial, low degree first. -/
def gfEval (p : List Nat) (x : Nat) : Nat := p.foldr (fun c acc => gfMul acc x ^^^ c) 0

/-- Sum of two polynomials. -/
def gfAdd : List Nat → List Nat → List Nat
  | [], q => q
  | p, [] => p
  | a :: p, b :: q => (a ^^^ b) :: gfAdd p q

/-- The generator polynomial with roots α^0 to α^11, below its leading coefficient, high degree first. DEDUCED: log entry 96. -/
def rsGenerator : List Nat :=
  let g := (List.range 12).foldl (fun g i => gfAdd (0 :: g) (g.map fun c => gfMul c (gfPow i))) [1]
  (g.take 12).reverse

/-- The 12 parity bytes of 44 data bytes: the remainder of the data by the generator. DEDUCED: log entry 96. -/
def rsParity (d : List Nat) : List Nat :=
  d.foldl (fun r b =>
    let f := b ^^^ r.headD 0
    gfAdd (r.drop 1 ++ [0]) (rsGenerator.map fun g => gfMul g f)) (List.replicate 12 0)

/-- The 56 bytes of a codeword: data, then parity. -/
def rsEncode (d : List Byte) : List Byte :=
  d ++ (rsParity (d.map BitVec.toNat)).map fun x => BitVec.ofNat 8 x

/-- The 12 syndromes of a received codeword. -/
def rsSyndromes (c : List Nat) : List Nat := (List.range 12).map fun i => c.foldl (fun acc b => gfShift acc i ^^^ b) 0

/-- The state of the Berlekamp-Massey algorithm. -/
structure Locator where
  cur : List Nat
  old : List Nat
  len : Nat
  gap : Nat
  last : Nat
deriving DecidableEq, Repr

/-- One step of the algorithm on syndrome n. -/
def locatorStep (syn : List Nat) (k : Locator) (n : Nat) : Locator :=
  let d := (List.range (k.len + 1)).foldl (fun d i => d ^^^ gfMul (k.cur.getD i 0) (syn.getD (n - i) 0)) 0
  if d = 0 then { k with gap := k.gap + 1 }
  else
    let f := gfMul d (gfInv k.last)
    let new := gfAdd k.cur (List.replicate k.gap 0 ++ k.old.map fun c => gfMul c f)
    if 2 * k.len ≤ n then ⟨new, k.cur, n + 1 - k.len, 1, d⟩ else { k with cur := new, gap := k.gap + 1 }

/-- The error locator of 12 syndromes. -/
def rsLocator (syn : List Nat) : Locator := (List.range 12).foldl (locatorStep syn) ⟨[1], [1], 0, 1, 1⟩

/-- Positions of the errors: those whose inverse locator is a root. -/
def rsPositions (l : List Nat) : List Nat := (List.range 56).filter fun p => gfEval l (gfPow (255 - (55 - p))) = 0

/-- The value of the error at a position (Forney). -/
def rsValue (syn l : List Nat) (p : Nat) : Nat :=
  let x := gfPow (55 - p)
  let y := gfPow (255 - (55 - p))
  let omega := (List.range 12).map fun n => (List.range (n + 1)).foldl (fun d i => d ^^^ gfMul (l.getD i 0) (syn.getD (n - i) 0)) 0
  let slope := ((l.drop 1).mapIdx fun i x => (i, x)).map fun e => if e.1 % 2 = 0 then e.2 else 0
  gfMul x (gfMul (gfEval omega y) (gfInv (gfEval slope y)))

/-- Decode a codeword of 56 bytes: the 44 data bytes and the number of bytes corrected, at most 6; none when it cannot be corrected (R333). DEDUCED: log entry 96. -/
def rsDecode (c : List Byte) : Option (List Byte × Nat) :=
  let n := c.map BitVec.toNat
  let syn := rsSyndromes n
  if syn.all (· = 0) then some (c.take 44, 0)
  else
    let l := rsLocator syn
    let ps := rsPositions l.cur
    if l.len ≤ 6 ∧ ps.length = l.len then
      some (((c.mapIdx fun i x => (i, x)).map fun e => if ps.contains e.1 then e.2 ^^^ BitVec.ofNat 8 (rsValue syn l.cur e.1) else e.2).take 44, ps.length)
    else none

/-! ### Symbols (R333) -/

/-- The PAM4 level of a pair of bits, Gray coded, and back. DEDUCED: log entry 96. -/
def grayLevel (n : Nat) : BitVec 2 := BitVec.ofNat 2 ([0, 1, 3, 2].getD n 0)
def grayPair (v : BitVec 2) : Nat := [0, 1, 3, 2].getD v.toNat 0

/-- The four symbols of a byte, most significant pair first. DEDUCED: log entry 96. -/
def symbolsOf (b : Byte) : List (BitVec 2) := [grayLevel (b.toNat / 64), grayLevel (b.toNat / 16 % 4), grayLevel (b.toNat / 4 % 4), grayLevel (b.toNat % 4)]

/-- The bytes of a lane's symbols. -/
def bytesOfSymbols : List (BitVec 2) → List Byte
  | a :: b :: c :: d :: r => BitVec.ofNat 8 (grayPair a * 64 + grayPair b * 16 + grayPair c * 4 + grayPair d) :: bytesOfSymbols r
  | _ => []

/-! ### The control field and the CRC (R334, R335) -/

/-- One byte of the CRC-64 of R335, most significant bit first. -/
def crcByte (c : W64) (b : Byte) : W64 :=
  (List.range 8).foldl (fun c _ => if c.getLsbD 63 then (c <<< 1) ^^^ 0x42F0E1EBA9EA3693#64 else c <<< 1)
    (c ^^^ (BitVec.ofNat 64 b.toNat <<< 56))

/-- The CRC of control bytes 0 to 15 and the body (R335). -/
def flitCrc (l : List Byte) : W64 := ~~~(l.foldl crcByte (BitVec.allOnes 64))

/-- Control bytes 0 to 15. -/
def Flit.control (f : Flit) : List Byte :=
  let cr (i : Nat) : List Byte := let c := f.creds.getD i (0, 0, 0); leBytes 4 (c.1 + c.2.1 * 4 + c.2.2 * 65536)
  leBytes 1 f.kind ++ leBytes 1 (f.vc + f.hop * 4) ++ leBytes 2 f.seq ++ leBytes 2 f.ack ++
    leBytes 1 (b2n f.nak + 2 * b2n f.spareReq + f.lane * 4) ++ leBytes 1 0 ++ cr 0 ++ cr 1

/-- The 352 bytes of a flit: the control field with its CRC, and the body. -/
def Flit.bytes (f : Flit) : List Byte := f.control ++ leBytes 8 (flitCrc (f.control ++ f.body)).toNat ++ f.body

/-- The fields of 352 bytes, and the CRC they carry. -/
def flitOf (b : List Byte) : Flit × W64 :=
  let cred (o : Nat) : Nat × Nat × Nat := let v := leAt b o 4; (bits v 1 0, bits v 4 2, bits v 31 16)
  let k := leAt b 6 1
  (⟨leAt b 0 1, leAt b 1 1 % 4, leAt b 1 1 / 4 % 8, leAt b 2 2, leAt b 4 2, k.testBit 0, k.testBit 1, k / 4 % 16, [cred 8, cred 12],
    bytesAt b 24 328⟩, BitVec.ofNat 64 (leAt b 16 8))

/-! ### Lanes (R333, R337) -/

/-- The lane that carries codeword i: lane 8 in place of a lane that has been replaced. -/
def laneOf (spared : Option Nat) (i : Nat) : Nat := if spared = some i then 8 else i

/-- The symbols of the 9 lanes for 352 flit bytes: byte j lies in codeword j mod 8 at position j div 8. An unused lane has none. -/
def lanesOf (spared : Option Nat) (b : List Byte) : List (List (BitVec 2)) :=
  let word (i : Nat) : List Byte := rsEncode ((List.range 44).map fun k => b.getD (8 * k + i) 0)
  (List.range 9).map fun n =>
    match (List.range 8).find? fun i => laneOf spared i = n with
    | some i => (word i).flatMap symbolsOf
    | none => []

/-- What FEC makes of a lane: its 44 data bytes, and the bytes corrected, none for a codeword that cannot be corrected and stays as
received. -/
def laneWord (lane : List (BitVec 2)) : List Byte × Option Nat :=
  let c := bytesOfSymbols lane
  match rsDecode c with
  | some r => (r.1, some r.2)
  | none => (c.take 44, none)

/-- What FEC makes of the 9 lanes: the 352 flit bytes, and the corrections of each codeword. -/
def fromLanes (spared : Option Nat) (lanes : List (List (BitVec 2))) : List Byte × List (Option Nat) :=
  let ws := (List.range 8).map fun i => laneWord (lanes.getD (laneOf spared i) [])
  ((List.range 352).map fun j => ((ws.getD (j % 8) ([], none)).1).getD (j / 8) 0, ws.map (·.2))

end Sys2Proof.Machine
end

