-- ==== Sys2Proof/Machine/FabOps.lean ====
section
/-! DEFINITION. The module's side of the Idger fabric that other units use: headers (R341), routes (R352), the send side
of a link (R335, R340), tunnels (R358), and the spread of barrier and cap messages (R366). -/

namespace Sys2Proof.Machine

/-! ### Headers -/

/-- Message types (R342). -/
def mtIdent : Nat := 0x01
def mtTime : Nat := 0x02
def mtBarrier : Nat := 0x03
def mtCap : Nat := 0x04
def mtFailover : Nat := 0x05
def mtRead : Nat := 0x10
def mtWrite : Nat := 0x11
def mtReduce : Nat := 0x12
def mtReadResp : Nat := 0x20
def mtAck : Nat := 0x21
def mtPut : Nat := 0x30
def mtTag : Nat := 0x31
def mtTunnel : Nat := 0x40

/-- Virtual channel of a message type (R342). -/
def msgVc (ty : Nat) : Nat := if ty < 0x10 then 0 else if ty < 0x20 then 1 else if ty < 0x30 then 2 else 3

/-- A header of zeros to one destination. -/
def hdrTo (dest src : Nat) : Header :=
  ⟨0, BitVec.ofNat 16 dest, BitVec.ofNat 16 src, 0, 0, 0, 0, 0, 0, 0, 0⟩

/-- The 24 bytes of a header of type ty (R341). -/
def hdrBytes (ty : Nat) (h : Header) : List Byte :=
  leBytes 1 ty ++ leBytes 1 h.lines.toNat ++ leBytes 2 h.dest.toNat ++ leBytes 2 h.src.toNat ++
  leBytes 1 (h.srcTower.toNat + 16 * h.dstTower.toNat) ++ leBytes 1 h.fmt.toNat ++ leBytes 6 h.addr.toNat ++
  leBytes 2 h.id.toNat ++ leBytes 2 h.poison.toNat ++ leBytes 2 h.status.toNat ++ leBytes 4 h.step.toNat

/-! ### Ports -/

def linkBase (l : Nat) : Nat := idgBase (l / 4) (l % 4)
def portAt (s : State) (l : Nat) : Port := tget Port.init s.fab.ports l
def modPort (s : State) (l : Nat) (f : Port → Port) : State :=
  { s with fab := { s.fab with ports := tmod Port.init s.fab.ports l f } }

/-- State of a port (R338): 0 OFF, 1 DOWN, 2 TRAINING, 3 IDENT, 4 UP, 5 FAILED. -/
def portState (s : State) (l : Nat) : Nat := fget s (linkBase l) 2 0
def setPortState (s : State) (l v : Nat) : State := fset s (linkBase l) 2 0 v

/-- The fabric is in service (R344, R351). -/
def fabEnabled (s : State) : Bool := fbit s (stnBase + 0x2000) 63

/-- Bunch and member of this module, and the fabric's size. -/
def ownBunch (s : State) : Nat := deviceId s / 16
def ownMember (s : State) : Nat := deviceId s % 16
def fabNb (s : State) : Nat := fget s (stnBase + 0x2000) 15 6
def fabMembers (s : State) : Nat := if 2 ≤ fget s (stnBase + 0x2000) 15 6 then 16 else fget s (stnBase + 0x2000) 4 0

/-- Granule of a route entry of tower t for a destination device (R352). -/
def routeGranule (s : State) (t dest : Nat) : Nat :=
  if dest / 16 = ownBunch s then idgBase t 0 + 0x4000 + 8 * (dest % 16)
  else idgBase t 0 + 0x8000 + 8 * (2 * (dest / 16) + dest % 2)

/-- The link of an entry that sel n selects: 0 primary, 1 to 3 the alternates; none when its field is not valid. -/
def routeField (w : W64) (n : Nat) : Option Nat :=
  if getField w (8 * n + 7) (8 * n + 7) = 1 then some (getField w (8 * n + 5) (8 * n)) else none

/-- The link in force of an entry (R352). -/
def linkInForce (w : W64) : Option Nat := if getField w 63 63 = 1 then routeField w (getField w 57 56) else none

/-- The table of bunches has an entry for a device: one of 1,026 (R352). -/
def hasRoute (s : State) (dest : Nat) : Bool := dest / 16 = ownBunch s || 2 * (dest / 16) + dest % 2 < 1026

/-- The link a message takes from tower t to a device (R352, R344). -/
def routeLink (s : State) (t dest : Nat) : Option Nat :=
  if hasRoute s dest then linkInForce (regGet s (routeGranule s t dest)) else none

/-- Flits the peer can still take of one virtual channel and hop class (R340). -/
def creditInit (vc : Nat) : Nat := if vc = 0 then 8 else if vc = 3 then 64 else 48
def creditOf (p : Port) (vc hop : Nat) : Nat := tget (creditInit vc) p.credits (vc * 8 + hop)

/-- The lane whose codeword lane 8 carries in the flit of a sequence number (R337). -/
def sparedIn (p : Port) (seq : Nat) : Option Nat := p.spareAt.bind fun x => if (seq + 65536 - x.2) % 65536 < 32768 then some x.1 else none

/-- Credits of a port that are no longer withheld at a time (R444). DEDUCED: log entry 61. -/
def readyReturns (p : Port) (now : Nat) : List Nat := (p.toReturn.filter fun e => e.2 ≤ now).map (·.1)

/-- Credit returns that fit a flit (R334): those of two buffers; and what is left. DEDUCED: log entry 61. -/
def takeReturns (p : Port) (now : Nat) : List (Nat × Nat × Nat) × List (Nat × Nat) :=
  let ready := readyReturns p now
  let ks := (ready.foldl sadd []).take 2
  (ks.map fun k => (k / 8, k % 8, ready.count k), p.toReturn.filter fun e => decide (now < e.2) || !ks.contains e.1)

/-- Send a flit with the acknowledgement and the credit returns of its port (R334, R335). -/
def emitFlit (s : State) (l : Nat) (f : Flit) : State :=
  let p := portAt s l
  let r := takeReturns p s.now
  let f := { f with ack := (p.rxSeq + 65535) % 65536, creds := r.1 }
  let s := modPort s l fun p => { p with toReturn := r.2 }
  emit s (.flit l f (lanesOf (sparedIn p (if f.kind = 1 then f.seq else p.txSeq)) f.bytes))

/-- A flit without data, which carries what the control field holds. -/
def bareFlit (nak : Bool) : Flit := ⟨0, 0, 0, 0, 0, nak, false, 0, [], List.replicate 328 0⟩

/-- Put a data flit of the retry buffer on the wire; it carries the spare request that left with it (R335, R337). -/
def wireFlit (s : State) (l : Nat) (f : FlitBody) : State :=
  let ask := (portAt s l).asked.bind fun x => if x.2 = f.seq then some x.1 else none
  emitFlit (count s (linkBase l) 0 1) l ⟨1, f.vc, f.hop, f.seq, 0, false, ask.isSome, ask.getD 0, [], f.body⟩

/-- Send one data flit: it enters the retry buffer under the next sequence number s, and a spare request leaves with it, to hold from
s + 32 (R335, R337). VC1 to VC3 count in the window of 64 (R340). DEDUCED: log entry 61. -/
def sendFlit (s : State) (l : Nat) (f : FlitBody) : State :=
  let p := portAt s l
  let f := { f with seq := p.txSeq }
  let w := if f.vc = 0 then p.window else p.window + 1
  let s := modPort s l fun p =>
    { p with retry := p.retry ++ [f], txSeq := (p.txSeq + 1) % 65536,
             credits := tset (creditInit f.vc) p.credits (f.vc * 8 + f.hop) (creditOf p f.vc f.hop - 1)
             window := if 64 ≤ w then 0 else w
             sent := if f.vc = 0 then p.sent else if 64 ≤ w then [] else tset 0 p.sent f.vc (tget 0 p.sent f.vc + 1)
             asked := match p.toAsk with
               | some n => some (n, f.seq)
               | none => p.asked
             spareAt := match p.toAsk with
               | some n => some (n, (f.seq + 32) % 65536)
               | none => p.spareAt
             toAsk := none }
  wireFlit s l f

/-- Units of a message may leave now: the port is UP, or in IDENT for a link-local message; a retrained port carries only those; the retry
buffer has room and the peer has credit (R335, R340, R349, R361). DEDUCED: log entry 61. -/
def canSend (s : State) (l : Nat) (w : Units) : Bool :=
  let p := portAt s l
  (portState s l = 4 && (w.loc || !p.localOnly) || portState s l = 3 && w.loc) && p.retry.length < 256 && 0 < creditOf p w.vc w.hop

/-- Weight of a virtual channel at a port (R340). -/
def vcWeight (p : Port) (vc : Nat) : Nat := bits p.weights (8 * vc - 1) (8 * (vc - 1))

/-- Whose units leave next (R340): VC0's; else those of the first of VC1 to VC3 that has not had its weight in the window; else, the slot
passing on, those of the first that waits. -/
def nextWaiting (p : Port) (can : Units → Bool) : Option Units :=
  let of_ (vc : Nat) : Option Units := p.held.find? fun w => w.vc = vc && can w
  let due := [1, 2, 3].filter fun vc => (of_ vc).isSome
  match of_ 0 with
  | some w => some w
  | none => ((due.find? fun vc => tget 0 p.sent vc < vcWeight p vc).orElse fun _ => due.head?).bind of_

/-- Fill a body of one virtual channel and hop class in unit order, messages going on across flits (R340, R341): its bytes, and what still
waits. -/
def fillBody (k : Units) : Nat → List Units → List Byte × List Units
  | _, [] => ([], [])
  | room, w :: r =>
    if 0 < room ∧ w.vc = k.vc ∧ w.hop = k.hop ∧ w.loc = k.loc then
      let t := fillBody k (room - w.bytes.length) r
      (w.bytes.take room ++ t.1, if w.bytes.length ≤ room then t.2 else { w with bytes := w.bytes.drop room } :: t.2)
    else
      let t := fillBody k room r
      (t.1, w :: t.2)

/-- The next body of a port, of the kind of units given: 328 bytes, the last ones 0 where no unit waits. -/
def nextBody (p : Port) (k : Units) : FlitBody × List Units :=
  let t := fillBody k 328 p.held
  (⟨0, k.vc, k.hop, bytesAt t.1 0 328⟩, t.2)

/-- Flits that what waits at a port can take. -/
def heldFlits (p : Port) : Nat := (p.held.map fun w => ceilDiv w.bytes.length 328).sum

/-- Send the units that wait at a port (R335, R340, R341). DEDUCED: log entry 61. -/
def pumpPort : Nat → State → Nat → State
  | 0, s, _ => s
  | n + 1, s, l =>
    match nextWaiting (portAt s l) (canSend s l) with
    | none => s
    | some w =>
      let b := nextBody (portAt s l) w
      pumpPort n (sendFlit (modPort s l fun p => { p with held := b.2 }) l b.1) l

/-- Let a port send what it can. -/
def pump (s : State) (l : Nat) : State := pumpPort (heldFlits (portAt s l)) s l

/-- A message's units wait at a port. -/
def waitAt (s : State) (l vc hop : Nat) (loc : Bool) (b : List Byte) : State :=
  modPort s l fun p => { p with held := p.held ++ [⟨vc, hop, loc, b⟩] }

/-- Queue a message at a port and send what can go. -/
def queueAt (s : State) (l vc hop : Nat) (loc : Bool) (b : List Byte) : State := pump (waitAt s l vc hop loc b) l

/-- The path of a link's tunnel: the first valid path whose first link is up (R358): its number, first link and via device. DEDUCED: log entry 58. -/
def tunnelPath (s : State) (l : Nat) : Option (Nat × Nat × Nat) :=
  let w := regGet s (linkBase l + 0x20)
  let ok (v f : Nat) : Bool := getField w v v = 1 && portState s f = 4 && !(portAt s f).localOnly
  if ok 31 (getField w 29 24) then some (0, getField w 29 24, getField w 23 8)
  else if ok 63 (getField w 61 56) then some (1, getField w 61 56, getField w 55 40)
  else none

/-- The header of a message to the peer of a link by a tunnel path: to the via device first, when the path has one, with the peer in the
identifier field (R354, R358). -/
def tunnelHeader (s : State) (l via addr : Nat) : Header :=
  let peer := fget s (linkBase l + 0x10) 63 48
  if via = 0xFFFF then { hdrTo peer (deviceId s) with addr := BitVec.ofNat 48 addr, id := 0xFFFF }
  else { hdrTo via (deviceId s) with addr := BitVec.ofNat 48 addr, id := BitVec.ofNat 16 peer }

/-- Send the body of a flit of link l under sequence number seq as a TUNNEL message by a path (R358, R341). DEDUCED: log entry 58. -/
def tunnelBody (s : State) (l : Nat) (path : Nat × Nat × Nat) (vc hop seq : Nat) (body : List Byte) : State :=
  let h := tunnelHeader s l path.2.2 (seq + fget s (linkBase l + 0x10) 45 40 * 65536)
  let s := count s (linkBase l) 7 1
  queueAt (emit s (.message path.2.1 (hdrBytes mtTunnel h) body)) path.2.1 vc hop false (hdrBytes mtTunnel h ++ body)

/-- What waits at a link goes into its open tunnel, with the sequence continuing; without a path whose first link is up it stays (R358, R360). -/
def drainTunnel : Nat → State → Nat → State
  | 0, s, _ => s
  | n + 1, s, l =>
    let p := portAt s l
    match tunnelPath s l, nextWaiting p fun _ => true with
    | some path, some w =>
      let b := nextBody p w
      let s := modPort s l fun p => { p with held := b.2, txSeq := (p.txSeq + 1) % 65536, tunnel := some path.1 }
      drainTunnel n (tunnelBody s l path w.vc w.hop p.txSeq b.1.body) l
    | _, _ => s

/-- A tunnel whose link's routes have switched closes once it has delivered what it held (R359). -/
def closeTunnel (s : State) (l : Nat) : State :=
  if (portAt s l).switched ∧ (portAt s l).held.isEmpty then modPort (fset s (linkBase l) 7 7 0) l fun p => { p with tunnel := none } else s

/-- The open tunnel of a link takes what waits. -/
def tunnelGo (s : State) (l : Nat) : State := closeTunnel (drainTunnel (heldFlits (portAt s l)) s l) l

/-- Send a message of a virtual channel on a link, and record it. While the link's tunnel is open its flits travel as TUNNEL messages (R358). -/
def sendVc (s : State) (l vc ty hop : Nat) (h : Header) (data : List Byte) : State :=
  let b := hdrBytes ty h ++ data
  let loc : Bool := ty = mtIdent || ty = mtTime
  let s := waitAt (emit s (.message l (hdrBytes ty h) data)) l vc hop loc b
  if fbit s (linkBase l) 7 then tunnelGo s l else pump s l

/-- Send a message on a link, on the virtual channel of its type. -/
def sendOn (s : State) (l ty hop : Nat) (h : Header) (data : List Byte) : State := sendVc s l (msgVc ty) ty hop h data

/-- Inject a routed message from tower t (R352, R344); none when no valid entry leads there. -/
def inject (s : State) (t ty : Nat) (h : Header) (data : List Byte) : Option State :=
  if fabEnabled s then (routeLink s t h.dest.toNat).map fun l => sendOn s l ty 0 h data else none

/-- Forward a message in transit: its hop class rises, and above class 4 it is discarded (R352, R355). -/
def forwardVc (s : State) (fromLink vc ty hop : Nat) (h : Header) (data : List Byte) : State :=
  if !fabEnabled s then s
  else
    match routeLink s (fromLink / 4) h.dest.toNat with
    | none => s
    | some l =>
      if 4 < hop + 1 then notice (count s (linkBase l) 8 1) 0x0405 1 l (l / 4) h.dest.toNat
      else sendVc s l vc ty (hop + 1) h data

/-- Forward a message on the virtual channel of its type. -/
def forward (s : State) (fromLink ty hop : Nat) (h : Header) (data : List Byte) : State :=
  forwardVc s fromLink (msgVc ty) ty hop h data

/-- The other members of this module's bunch. -/
def otherMembers (s : State) : List Nat := (List.range (fabMembers s)).filter (· ≠ ownMember s)

/-- Send a control message to every other member of the bunch by its stem (R366 phases 2 and 4). -/
def toMembers (s : State) (ty : Nat) (h : Header) (data : List Byte) : State :=
  (otherMembers s).foldl (fun s m =>
    let d := ownBunch s * 16 + m
    (inject s 0 ty { h with dest := BitVec.ofNat 16 d } data).getD s) s

/-- The runner links of the module that are UP and carry routed messages. -/
def runnersUp (s : State) : List Nat := (List.range 64).filter fun l => 2 ≤ l % 4 && portState s l = 4 && !(portAt s l).localOnly

/-- Send a control message on every runner (R366 phase 3). -/
def toRunners (s : State) (ty : Nat) (h : Header) (data : List Byte) : State :=
  (runnersUp s).foldl (fun s l =>
    sendOn s l ty 0 { h with dest := BitVec.ofNat 16 (fget s (linkBase l + 0x10) 63 48) } data) s

/-! ### Barrier messages (R366) -/

/-- Pairs of scale entry and BF16 maximum, and the touched entries, as the data of a BARRIER message. DESIGN CHOICE: log entry 57. -/
def barData (amax : Tbl Nat) (touched : List Nat) : List Byte :=
  let b := leBytes 2 touched.length ++
    (touched.map fun t => leBytes 2 t ++ leBytes 2 (tget 0 amax t)).flatten
  bytesAt b 0 (ceilDiv b.length 128 * 128)

/-- The maxima and touched entries a BARRIER message carries. -/
def barParse (d : List Byte) : List (Nat × Nat) :=
  (List.range (leAt d 0 2)).map fun i => (leAt d (2 + 4 * i) 2, leAt d (4 + 4 * i) 2)

/-- The maxima that the BARRIER messages of a barrier carry (R189, R366). DEDUCED: log entry 32. -/
def barMaxima (s : State) (k : Nat) : List Byte := barData (tget [] s.fab.barAmax k) (tget [] s.fab.barTouched k)

/-- A maximum of an entry joins those of a barrier. DEDUCED: log entry 32. -/
def barJoin (s : State) (k t v : Nat) : State :=
  { s with fab := { s.fab with barTouched := tmod [] s.fab.barTouched k fun l => sadd l t
                               barAmax := tmod [] s.fab.barAmax k fun m => tmod 0 m t fun w => Nat.max w v } }

/-- Key of a fabric barrier instance: step number and instance (0 the commit, k the k-th ARRIVE of scope 3). -/
def barKey (step inst : Nat) : Nat := step * 65536 + inst

/-- Header of a BARRIER message: the address holds the instance, the bunch it speaks for and its phase. -/
def barHeader (s : State) (step inst bunch phase : Nat) : Header :=
  { hdrTo 0xFFFF (deviceId s) with
      addr := BitVec.ofNat 48 (inst + bunch * 2 ^ 16 + phase * 2 ^ 32), step := BitVec.ofNat 32 step }

/-- Bunches that take part in the running plan (R367), from its route set. -/
def planBunches (s : State) : List Nat :=
  match s.run.bind fun r => tget? s.plans r.handle with
  | none => []
  | some p =>
    let m := leNat (bytesAt p.routes 80 72)
    (List.range 513).filter fun b => m.testBit b

/-- Every participating bunch is known complete at an instance (phase 6 of R366). -/
def barComplete (s : State) (step inst : Nat) : Bool :=
  let done := tget [] s.fab.barBunches (barKey step inst)
  (planBunches s).all fun b => done.contains b

/-- Record members of the own bunch; when all have arrived the bunch is complete, and each runner is told (phase 3). -/
def barMember (s : State) (step inst m : Nat) : State :=
  let k := barKey step inst
  let was := tget [] s.fab.barMembers k
  let ms := sadd was m
  let s := { s with fab := { s.fab with barMembers := tput s.fab.barMembers k ms } }
  let need := (List.range (fabMembers s)).all fun x => ms.contains x
  if need ∧ ¬ (tget [] s.fab.barBunches k).contains (ownBunch s) then
    let s := { s with fab := { s.fab with barBunches := tmod [] s.fab.barBunches k fun l => sadd l (ownBunch s) } }
    toRunners s mtBarrier (barHeader s step inst (ownBunch s) 1) (barMaxima s k)
  else s

/-- Phase 1 is complete: this module has arrived; it tells the other members (phase 2). -/
def barArrive (s : State) (step inst : Nat) : State :=
  if (tget [] s.fab.barMembers (barKey step inst)).contains (ownMember s) then s
  else
    let s := toMembers s mtBarrier (barHeader s step inst (ownBunch s) 0) (barMaxima s (barKey step inst))
    barMember s step inst (ownMember s)

/-- Take the maxima of a BARRIER message into those of its barrier (R189, R366). -/
def barTake (s : State) (k : Nat) (d : List Byte) : State := (barParse d).foldl (fun s e => barJoin s k e.1 e.2) s

/-- The module takes part in the barriers of the plan that runs: its bunch is marked in the route set (R367). Before its plan runs it
keeps what arrives. DEDUCED: log entry 32. -/
def takesPart (s : State) : Bool := s.run.isNone || (planBunches s).contains (ownBunch s)

end Sys2Proof.Machine
end

