-- ==== Sys2Proof/Machine/Keccak.lean ====
section
/-! DEFINITION. SHAKE256 (FIPS 202), which the spec uses for every digest: plans, shapes, measurements, images and
service commands (R62, R69, R451, R472). FIPS 202 is named by the spec and not restated there (PRESUMED: log entry
on SHAKE256). -/

namespace Sys2Proof.Machine

/-- One step of the rounds' LFSR. -/
def rcStep (r : Nat) : Nat := let r := 2 * r; if 256 ≤ r then Nat.xor r 0x171 else r

/-- Bit t of the rounds' bit sequence. -/
def rcBit (t : Nat) : Bool := (Nat.rec (motive := fun _ => Nat) 1 (fun _ r => rcStep r) t).testBit 0

/-- Round constant i. PRESUMED: log entry 71. -/
def keccakRc (i : Nat) : Nat :=
  (List.range 7).foldl (fun acc j => acc + (if rcBit (j + 7 * i) then 2 ^ (2 ^ j - 1) else 0)) 0

/-- Rotation offsets of lane x + 5y. PRESUMED: log entry 71. -/
def keccakRho : List Nat :=
  [0, 1, 62, 28, 27, 36, 44, 6, 55, 20, 3, 10, 43, 25, 39, 41, 45, 15, 21, 8, 18, 2, 61, 56, 14]

/-- Rotate a 64-bit number left. -/
def rol64 (v n : Nat) : Nat := (v * 2 ^ n % 2 ^ 64) ||| (v >>> (64 - n))

/-- Lane x + 5y of a state. -/
def kLane (st : List Nat) (x y : Nat) : Nat := st.getD (x % 5 + 5 * (y % 5)) 0

/-- One round of Keccak-f[1600]. -/
def keccakRound (st : List Nat) (rc : Nat) : List Nat :=
  let c := (List.range 5).map fun x =>
    (List.range 5).foldl (fun acc y => acc ^^^ kLane st x y) 0
  let d := (List.range 5).map fun x => (c.getD ((x + 4) % 5) 0) ^^^ rol64 (c.getD ((x + 1) % 5) 0) 1
  let a := (List.range 25).map fun i => rol64 (st.getD i 0 ^^^ d.getD (i % 5) 0) (keccakRho.getD i 0)
  -- pi: lane (x, y) comes from lane (x + 3y, x)
  let b := (List.range 25).map fun i => kLane a (i % 5 + 3 * (i / 5)) (i % 5)
  let e := (List.range 25).map fun i =>
    let x := i % 5
    let y := i / 5
    kLane b x y ^^^ ((2 ^ 64 - 1 - kLane b (x + 1) y) &&& kLane b (x + 2) y)
  match e with
  | h :: t => (h ^^^ rc) :: t
  | [] => []

/-- Keccak-f[1600]. PRESUMED: log entry 71. -/
def keccakF (st : List Nat) : List Nat := (List.range 24).foldl (fun s i => keccakRound s (keccakRc i)) st

/-- Absorb whole blocks of 136 bytes. -/
def shakeAbsorb : List (List Byte) → List Nat → List Nat
  | [], st => st
  | b :: r, st =>
    shakeAbsorb r (keccakF (st.mapIdx fun i l => if i < 17 then l ^^^ leAt b (8 * i) 8 else l))

/-- Squeeze up to `fuel` blocks. -/
def shakeSqueeze : Nat → List Nat → List Byte
  | 0, _ => []
  | f + 1, st => ((st.take 17).map (leBytes 8)).flatten ++ shakeSqueeze f (keccakF st)

/-- The padded message of SHAKE256. PRESUMED: log entry 71. -/
def shakePad (m : List Byte) : List Byte :=
  let n := 136 - m.length % 136
  if n = 1 then m ++ [0x9F] else m ++ [0x1F] ++ List.replicate (n - 2) 0 ++ [0x80]

/-- SHAKE256 of a message, `n` bytes of output. PRESUMED: log entry 71. -/
def shake256 (n : Nat) (m : List Byte) : List Byte :=
  let p := shakePad m
  (shakeSqueeze (ceilDiv n 136) (shakeAbsorb (chunks 136 p.length p) (List.replicate 25 0))).take n

end Sys2Proof.Machine
end

