-- ==== Sys2Proof/Machine/Shape.lean ====
section
/-! DEFINITION. The shape table (R69 to R71), the effective issue limit with its sources (R383 to R386), cap epochs and
cap notices (R384, R396, R397). -/

namespace Sys2Proof.Machine

/-! ### The shape table -/

/-- Cluster spares mapped into logical positions: positions that a unit other than the one of their own index holds. -/
def sparesUsed (s : State) : Nat :=
  (List.range 4096).foldl (fun n l =>
    let t := l / 256
    let c := l / 16 % 16
    n + b2n (coreMap s t c (l % 16) ≠ l % 16) + b2n (colMap s t c (l % 16) ≠ l % 16)) 0

/-- region_limit of a tower: 2 bits per region (R69). -/
def regionLimitWord (s : State) (t : Nat) : Nat :=
  (List.range 16).foldl (fun w c => w + tget 0 s.stone.regionLimit (t * 16 + c) * 4 ^ c) 0

/-- The portable part of the shape table: bytes 128 to 2,047 (R69). -/
def shapePortable (s : State) : List Byte :=
  let head := leBytes 4 1 ++ leBytes 1 0xB0 ++ leBytes 1 1 ++ leBytes 4 0x02101010 ++ leBytes 2 64 ++
    leBytes 4 0x12000000 ++ leBytes 4 (256 + 4096 * 65536) ++ leBytes 1 16 ++ leBytes 1 12 ++ List.replicate 42 0
  let cls := (s.stone.thermalClass.map fun n => BitVec.ofNat 8 n)
  let lim := ((List.range 16).map fun t => leBytes 4 (regionLimitWord s t)).flatten
  let nar := (s.stone.narrow.map fun n => leBytes 2 n.1 ++ leBytes 1 n.2.1 ++ leBytes 1 n.2.2).flatten
  bytesAt (head ++ cls ++ lim ++ leBytes 4 s.stone.narrow.length ++ leBytes 4 0 ++ nar) 0 1920

/-- The shape digest (R69). -/
def shapeDigest (s : State) : List Byte := shake256 64 (shapePortable s)

/-- The shape table, 2,048 bytes. -/
def shapeTable (s : State) : List Byte :=
  leBytes 4 s.stone.shapeGen ++ leBytes 1 s.boot.fw.major ++ leBytes 1 s.boot.fw.minor ++ leBytes 2 (sparesUsed s) ++
  leBytes 8 Config.serial.toNat ++ List.replicate 48 0 ++ shapeDigest s ++ shapePortable s

/-- The portable part has changed: shape_gen advances, plans of another shape become stale, and notice 0x15 is raised
(R67, R71). -/
def shapeChanged (s : State) : State :=
  let g := (s.stone.shapeGen + 1) % 2 ^ 32
  let s := { s with stone := { s.stone with shapeGen := g } }
  let d := shapeDigest s
  let s := { s with plans := s.plans.map fun e => (e.1, if e.2.shapeDigest = d then e.2 else { e.2 with stale := true }) }
  notice s 0x1015 0 0xFFFF 0xFF g

/-- Give a region a region_limit (R69, R71). -/
def setRegionLimit (s : State) (r v : Nat) : State :=
  if tget 0 s.stone.regionLimit r = v then s
  else shapeChanged { s with stone := { s.stone with regionLimit := tset 0 s.stone.regionLimit r v } }

/-! ### The effective limit -/

/-- PWT_REGION_c granule of region r (tower × 16 + cluster). -/
def regionReg (r : Nat) : Nat := pwtBase (r / 16) + 0x100 + 8 * (r % 16)

/-- State of a region (R399): 0 AWAKE, 1 STAGING, 2 PARKED, 3 OFF. -/
def regionState (s : State) (r : Nat) : Nat := fget s (regionReg r) 25 24
def setRegionState (s : State) (r v : Nat) : State := fset s (regionReg r) 25 24 v

/-- Wake staging limit of a region now (R401). -/
def wakeLim (s : State) (r : Nat) : Nat := if s.now < tget 0 s.pwr.wakeLimit r then 48 else 64

/-- The planned sources of a region, by a table of values (R383). -/
def plannedMin (tb : Tbl Nat) (r : Nat) : Nat :=
  [0, 1, 2, 3, 4, 16 + r / 16, 32 + r / 16].foldl (fun m i => Nat.min m (tget 64 tb i)) 64

/-- The protective sources of a region without wake staging (R383). -/
def protMin (s : State) (r : Nat) : Nat :=
  Nat.min (Nat.min s.pwr.guard.limit s.pwr.coolant.limit)
    (Nat.min (tget Prot.init s.pwr.therm r).limit (tget 64 s.pwr.phaseLimit r))

/-- The effective limit L of the cores of a region (R383). -/
def effLimit (s : State) (r : Nat) : Nat :=
  Nat.max 1 (Nat.min (plannedMin s.pwr.applied r) (Nat.min (protMin s r) (wakeLim s r)))

/-- Protective sources as the next cap epoch leaves them. DEDUCED: log entry 66. -/
def protNext (s : State) (r : Nat) : Nat :=
  let f (p : Prot) : Nat := if p.rise then 64 else p.limit
  Nat.min (Nat.min (f s.pwr.guard) (f s.pwr.coolant))
    (Nat.min (f (tget Prot.init s.pwr.therm r)) (tget 64 s.pwr.phaseLimit r))

/-- MFS special register 13 of a core of a region (R386). -/
def mfsCap (s : State) (r : Nat) : Nat :=
  let next := Nat.max 1 (Nat.min (plannedMin s.pwr.want r) (Nat.min (protNext s r) (wakeLim s r)))
  effLimit s r + next * 2 ^ 8 + b2n (protMin s r < plannedMin s.pwr.applied r) * 2 ^ 16

/-- lim(w) for whole watts (R387). -/
def limW (w : Nat) : Nat :=
  let p := Config.calIdle.toNat
  if w ≤ p then 1 else Nat.max 1 (Nat.min 64 (64 * (w - p) / Config.calSpan.toNat))

/-- A planned source takes a new wanted value; it waits for a cap epoch (R384). -/
def setWant (s : State) (i v : Nat) : State :=
  let p := s.pwr
  let low := if v < tget 64 p.applied i then
      (if (tget? p.lowSince i).isSome then p.lowSince else tput p.lowSince i s.now)
    else tdel p.lowSince i
  { s with pwr := { p with want := tset 64 p.want i v, lowSince := low } }

/-- The applied planned sources as PWM_GOV_STATE shows them. -/
def showPlanned (s : State) : State :=
  let o := pwmBase + 0x38
  let s := fset (fset (fset (fset s o 6 0 (tget 64 s.pwr.applied 1)) o 14 8 (tget 64 s.pwr.applied 2))
    o 22 16 (tget 64 s.pwr.applied 3)) o 30 24 (tget 64 s.pwr.applied 4)
  fset s o 43 43 (b2n (!s.pwr.lowSince.isEmpty))

/-- The operator profile in force, as PWM_GOV, PWM_RAMP_HOLD and PWM_GOV_STATE show it (R392). -/
def showProfile (s : State) : State :=
  let p := s.pwr.prof
  let s := regPut s (pwmBase + 0x30) (BitVec.ofNat 64 (p.up + p.down * 2 ^ 16 + p.floor * 2 ^ 32 + p.cap * 2 ^ 48))
  let s := regPut s (pwmBase + 0x40) (BitVec.ofNat 64 p.hold)
  fset s (pwmBase + 0x38) 40 40 (p.flags % 2)

/-! ### Cap notices and the follow table -/

/-- The running plan. -/
def runPlan (s : State) : Option Plan := s.run.bind fun r => tget? s.plans r.handle

/-! ### Pools (R281) -/

/-- A pool descriptor. -/
structure Pool where
  tower : Nat
  idx : Nat
  maxPages : Nat
  tokBytes : Nat
  ringLog : Nat
  relLog : Nat
  pages : Nat
  seqs : Nat
  desc : Nat
  seq : Nat
  table : Nat
  ring : Nat
  rel : Nat
  ctrl : Nat
deriving DecidableEq, Repr

/-- Pool descriptor n of a KV section. -/
def poolOf (kv : List Byte) (n : Nat) : Pool :=
  let o := 64 * n
  ⟨leAt kv o 1, leAt kv (o + 1) 1, leAt kv (o + 2) 2, leAt kv (o + 4) 2, leAt kv (o + 6) 1, leAt kv (o + 7) 1,
    leAt kv (o + 8) 4, leAt kv (o + 12) 4, leAt kv (o + 16) 8, leAt kv (o + 24) 8, leAt kv (o + 32) 8, leAt kv (o + 40) 8,
    leAt kv (o + 48) 8, leAt kv (o + 56) 8⟩

/-- The pools of a plan. -/
def planPools (p : Plan) : List Pool := (List.range (p.kv.length / 64)).map (poolOf p.kv)

/-! ### The follow table -/

/-- Update the follow table (R397): a notice of a limit, or a clear. -/
def followPut (s : State) (origin limit reason : Nat) (clear : Bool) : State :=
  if !((runPlan s).map (·.capFollow)).getD false then s
  else
    let rest := s.pwr.follow.filter fun f => f.origin ≠ origin
    let tbl :=
      if clear then rest
      else
        let rest := if rest.length < 64 then rest
          else
            let top := rest.foldl (fun m f => Nat.max m f.limit) 0
            match takeFirst (fun f => f.limit = top) rest with
            | some q => q.2
            | none => rest
        rest ++ [⟨origin, limit, reason, s.now⟩]
    let s := { s with pwr := { s.pwr with follow := tbl } }
    setWant s 4 (tbl.foldl (fun m f => Nat.min m f.limit) 64)

/-- The lowest emergency limit with its reason, tower and region (R396). -/
def lowestEmergency (s : State) : Nat × Nat × Nat × Nat :=
  let p := s.pwr
  let a : List (Nat × Nat × Nat × Nat) := [(p.guard.limit, 3, 0xFF, 0xFF), (p.coolant.limit, 5, 0xFF, 0xFF)]
  let b := p.therm.map fun e => (e.2.limit, if p.thermCore.contains e.1 then 2 else 1, e.1 / 16, e.1 % 16)
  let c := p.phaseLimit.map fun e => (e.2, 4, e.1 / 16, e.1 % 16)
  (a ++ b ++ c).foldl (fun m x => if x.1 < m.1 then x else m) (64, 0, 0xFF, 0xFF)

/-- The data line of a CAP message (R396). DESIGN CHOICE: log entry 57. -/
def capLine (s : State) (l : Nat × Nat × Nat × Nat) (reason : Nat) : List Byte :=
  bytesAt (leBytes 2 (deviceId s) ++ leBytes 1 l.1 ++ leBytes 1 reason ++ leBytes 1 l.2.2.1 ++ leBytes 1 l.2.2.2 ++
    leBytes 1 (b2n (l.1 = 64)) ++ leBytes 1 0 ++ leBytes 8 s.pwr.capSince) 0 128

/-- Send a cap notice (R396): within a fabric plan to the other members and the runners, and into the own follow table. -/
def sendCap (s : State) : State :=
  let l := lowestEmergency s
  let s := { s with pwr := { s.pwr with lastCap := l.1, lastCapAt := s.now } }
  let s := followPut s (deviceId s) l.1 l.2.1 (l.1 = 64)
  if ((runPlan s).map (·.fabric)).getD false then
    let h := { hdrTo 0xFFFF (deviceId s) with step := BitVec.ofNat 32 (curStep s) }
    let d := capLine s l l.2.1
    let runner := { h with addr := BitVec.ofNat 48 (2 ^ 32) }
    toRunners (toMembers s mtCap h d) mtCap runner d
  else s

/-- Send a cap notice when the lowest emergency limit has changed (R396). -/
def capChanged (s : State) : State :=
  if (lowestEmergency s).1 = s.pwr.lastCap then s else sendCap { s with pwr := { s.pwr with capSince := s.now } }

/-- Clear the rise of protective sources that may rise (R385). -/
def protRise (s : State) : State :=
  let f (p : Prot) : Prot := if p.rise then Prot.init else p
  let p := s.pwr
  let s := { s with pwr := { p with guard := f p.guard, coolant := f p.coolant
                                    therm := p.therm.filter fun e => !e.2.rise
                                    thermCore := p.thermCore.filter fun r => !(tget Prot.init p.therm r).rise } }
  let s := s.pwr.therm.foldl (fun s e => fset s (regionReg e.1) 14 8 e.2.limit) s
  let s := (p.therm.filter fun e => e.2.rise).foldl (fun s e => fset s (regionReg e.1) 14 8 64) s
  let s := fset s pwmBase 6 0 (Nat.min s.pwr.guard.limit s.pwr.coolant.limit)
  capChanged s

/-- Apply every planned change that waits, and the profile (R384, R392): the effect of a cap epoch, of a plan's start,
and of a tick while no plan runs. -/
def applyPlanned (s : State) : State :=
  let p := s.pwr
  let s := { s with pwr := { p with applied := p.want, lowSince := [],
                                    prof := p.profNext.getD p.prof, profNext := none } }
  let s := showProfile (showPlanned s)
  let f := tget 64 s.pwr.applied 4
  if f = 64 then { s with pwr := { s.pwr with followEpisode := false } }
  else if s.pwr.followEpisode then s
  else
    let e := (s.pwr.follow.find? fun e => e.limit = f).getD ⟨0, f, 0, 0⟩
    notice { s with pwr := { s.pwr with followEpisode := true } } 0x1508 0 0xFFFF 0xFF
      (e.origin + f * 2 ^ 16 + e.reason * 2 ^ 24)

/-- A cap epoch (R384, R385). DEDUCED: log entry 65. -/
def capEpoch (s : State) : State := protRise (applyPlanned (count s pwmBase 2 1))

end Sys2Proof.Machine
end

