-- ==== Sys2Proof/Machine/Jobs.lean ====
section
/-! DEFINITION. The effects of a Quince job at its due commit (R317, R320), shared by commits and plan ends (R321). -/

namespace Sys2Proof.Machine

/-- The first 64 bytes of a group descriptor (R317). -/
def jobDesc (s : State) (d : JobDef) (g : Nat) : List Byte := pdata (memRead s (d.groups + 128 * g) 128).2

/-- Every invocation of the job has returned. -/
def jobFinished (j : Job) : Bool := j.groups.all fun g => g.finished

/-- Write an exponent into entry t of every logical core of the module (R320 item 4). -/
def deliverExp (s : State) (t : Nat) (e : Int) : State :=
  (logicalCores s).foldl (fun s lp => fset s (coreScale lp.2 t) 7 0 (unsigned 8 e)) s

/-- An FP32 magnitude of a capture as a BF16 code rounded up (R188). -/
def amaxCode (a : Nat) : Nat := bf16Up (fp32.decode a).mag

/-- The effects of one touched group (R320). -/
def applyGroup (s : State) (d : JobDef) (g : Nat) (r : GroupRun) : State :=
  if !r.finished ∨ r.skipped then s
  else
    let b := jobDesc s d g
    let w := leAt b 8 2
    let ge := leAt b 10 2
    let fmt := leAt b 12 1
    let s := if 512 ≤ w then count s qncBase 6 r.sats
      else qncWorkUpdate s w (amaxCode r.amaxW) r.flushes r.sats r.nonfin
    let s := if 512 ≤ ge then s else qncGradUpdate s ge (amaxCode r.amaxG)
    if leAt b 14 1 % 2 = 1 ∧ (fmt = 2 ∨ fmt = 3 ∨ fmt = 7) then deliverExp s (leAt b 13 1) r.exp else s

/-- The effects of a job (R320). -/
def applyJob (s : State) (j : Job) : State :=
  count ((indexed j.groups).foldl (fun s e => applyGroup s j.d e.1 e.2) s) qncBase 0 1

end Sys2Proof.Machine
end

