-- ==== Sys2Proof/Machine/Ops.lean ====
section
/-! DEFINITION. The named operations that the meanings share: the end of every command, completions and records (R89,
R90), tokens (R120), effects (R78), faults of a core (R126 to R128) and the end or stop of a plan (R82). -/

namespace Sys2Proof.Machine

/-! ### The end of a command -/

/-- RDY follows the record area (R93) and ALERT_L the masked alert status (R495) once the pins are in their RUN
functions (R492). DEDUCED: log entry 9. -/
def settle (s : State) : State :=
  if s.boot.pinsRun then
    let on : Bool := fget s (stnBase + 0x1018) 63 32 ≠ s.cmd.recHead
    let s := if on = s.pip.rdy then s
      else { s with pip := { s.pip with rdy := on }, out := s.out ++ [.pin 1 on] }
    alertUpdate s
  else s

/-- Every meaning ends by letting the pins follow the registers. DEDUCED: log entry 9. -/
def finish (s : State) : Host.Outcome State Fault Refusal := .next (settle s)

/-- A meaning whose operands must have a shape the sender can produce. DESIGN CHOICE: log entry 8. -/
def shaped (ok : Bool) (name : String) (s : State) : Host.Outcome State Fault Refusal :=
  if ok then finish s else .fault (.malformedOperand name)

/-! ### Requests to the host (R484) -/

/-- Bus Master Enable is 1 and the function is in D0. -/
def busMaster (s : State) : Bool := fbit s pciBase 14 && !fbit s pciBase 15

/-- Send a request to the host, or hold it (R484). -/
def toHost (s : State) (o : Out) : State :=
  if busMaster s then emit s o else { s with pci := { s.pci with held := s.pci.held ++ [o] } }

/-- Read n bytes of the host (R483): reads of at most Max_Read_Request_Size, none across a 4 KiB boundary. PRESUMED: log entry 97. -/
def readHost (s : State) (a n : Nat) : State :=
  (cuts (maxRead s) (n / maxRead s + 2) a n).foldl (fun s c => toHost s (.hostRead c.1 c.2)) s

/-- Write bytes to the host in payloads of at most Max_Payload_Size. PRESUMED: log entry 97. -/
def writeHost (s : State) (a : Nat) (bs : List Byte) : State :=
  (cuts (maxPayload s) (bs.length / maxPayload s + 2) a bs.length).foldl (fun s c => toHost s (.hostWrite c.1 (bytesAt bs (c.1 - a) c.2) false)) s

/-! ### Completions -/

/-- Statuses of R90. -/
def stOk : Nat := 0
def stBadCommand : Nat := 1
def stBadImage : Nat := 2
def stDigest : Nat := 3
def stShape : Nat := 4
def stRejected : Nat := 5
def stWindow : Nat := 6
def stBusy : Nat := 7
def stAborted : Nat := 8
def stStepFailed : Nat := 9
def stRegionLost : Nat := 0xA
def stTimeout : Nat := 0xB
def stBadHandle : Nat := 0xC

/-- Produce a completion record (R90, R92); it waits for room in the record area. -/
def produce (s : State) (index tag status step detail : Nat) : State :=
  let c := s.cmd
  { s with cmd := { c with stamp := c.stamp + 1, done := c.done ++ [⟨c.stamp, status, tag, step, index, s.now, detail⟩] } }

/-- A FENCE at the front of the commands in progress has no earlier command left and ends (R89). -/
def endFences : Nat → State → State
  | 0, s => s
  | n + 1, s =>
    match s.cmd.active with
    | a :: r =>
      if a.op = 6 ∧ s.cmd.entries.all (fun e => a.num ≤ e.num) then
        endFences n (produce { s with cmd := { s.cmd with active := r } } a.index a.tag stOk 0 0)
      else s
    | [] => s

/-- Is a command in progress the LAUNCH_PLAN of the running plan? -/
def Active.runs (a : Active) (s : State) : Bool :=
  match s.run with
  | some r => a.op = 2 && r.num = a.num
  | none => false

/-- End a command in progress (R89, R90). -/
def endActive (s : State) (a : Active) (status step detail : Nat) : State :=
  let s := { s with cmd := { s.cmd with active := s.cmd.active.filter fun b => b.num ≠ a.num } }
  endFences (s.cmd.active.length) (produce s a.index a.tag status step detail)

/-! ### Logical cores -/

/-- Physical core of a logical one, and the record of its router. -/
def coreL (s : State) (lc : Nat) : Core := coreOf s (physCore s lc)
def modCoreL (s : State) (lc : Nat) (f : Core → Core) : State := modCore s (physCore s lc) f
def routerOf (s : State) (lc : Nat) : Router := tget Router.init s.routers lc
def modRouter (s : State) (lc : Nat) (f : Router → Router) : State := { s with routers := tmod Router.init s.routers lc f }

/-- Count n effects of a logical core's command, the k-th of its share that has effects (R78): false when an earlier attempt has
issued them, so that they are suppressed. DEDUCED: log entry 89. -/
def takeEffect (s : State) (lc k : Nat) (remote : Bool) (n : Nat) : State × Bool :=
  let r := routerOf s lc
  let c := tget 0 r.cur k + n
  let e := tget 0 (if remote then r.effRemote else r.effLocal) k
  (modRouter s lc fun r =>
    { r with cur := tput r.cur k c
             effLocal := if remote ∨ c ≤ e then r.effLocal else tput r.effLocal k c
             effRemote := if remote ∧ e < c then tput r.effRemote k c else r.effRemote }, decide (e < c))

/-- The effects of a logical core that have been issued in the step: the count e of R78. DEDUCED: log entry 89. -/
def Router.count (r : Router) : Nat := ((r.effLocal ++ r.effRemote).map (·.2)).sum

/-! ### The end of a plan -/

/-- The regions of memory a stopped step leaves undefined: its output set (R82). DESIGN CHOICE: log entry 6. -/
def forgetRange (s : State) (a n : Nat) : State :=
  (linesOf a n).foldl (fun s p =>
    match place s p.1 with
    | .fast k =>
      let s := closeMiss (lineDrop (dirWrite s (k / 128)) (k / 128)) (k / 128)
      { s with mem := s.mem.forget k 128 s.free }
    | .cmem a => { s with mem := s.mem.forget a 128 s.free }
    | .slow off => { s with mem := s.mem.forget (slowBase + off) 128 s.free }
    | _ => s) s

/-- The output set of a step: base and size of each declaration (R65). -/
def stepSet (p : Plan) (first cnt : Nat) : List (Nat × Nat) :=
  ((p.ids.drop first).take cnt).filterMap fun id => (p.places.find? fun q => q.id = id).map fun q => (q.base, q.size)

/-- What a stopped plan leaves undefined. -/
def loseOutputs (s : State) : State :=
  match s.run, runPlan s with
  | some r, some p =>
    if r.started then
      match p.steps[r.stepIdx]? with
      | some e => fresh ((stepSet p e.outFirst e.outCount).foldl (fun s q => forgetRange s q.1 q.2) s)
      | none => s
    else s
  | _, _ => s

/-- The pages that the step took from the rings return to them, and their contents are undefined (R296). DESIGN CHOICE: log entry 6. -/
def losePages (s : State) : State :=
  match runPlan s with
  | some p =>
    fresh ((s.att.flatMap fun e => e.2.binds).foldl (fun s b =>
      match (planPools p).find? fun q => q.idx = b.pool with
      | some q =>
        let r := memRead s (q.desc + 32 * b.page) 8
        forgetRange r.1 (leNat (pdata r.2)) 65536
      | none => s) s)
  | none => s

/-- An array whose queues are emptied (R128): its mode and its rebuild log stand until the next rebuild point (R156). -/
def Arr.emptied (a : Arr) : Arr := { a with cq := [], wq := [], run := [] }

/-- A core that no plan runs on: its queues and buffers are empty; what R94 names keeps its value. -/
def Core.idle (c : Core) : Core :=
  { c with st := .off, stream := [], stalled := false, fly := [], loads := [], pend := [], wb := [], eng := [], waits := [],
           halting := [], arr0 := c.arr0.emptied, arr1 := c.arr1.emptied, stage := [], stageUnfit := 0, attempt := 0, poisonAt := none, delay := none }

/-- Every core leaves the plan; the dirty lines of a step that did not commit are discarded. -/
def coresOff (s : State) : State :=
  (s.cores.map (·.1)).foldl (fun s k =>
    if (coreOf s k).st = .off then s else modCore (l1Abandon s k) k Core.idle) s

/-- When a plan ends the slices write back their pinned lines and clear every pinned bit (R223). DEDUCED: log entry 83. -/
def unpinAll (s : State) : State :=
  let held := s.llc.lines.filter fun e => e.2.pinned
  let s := held.foldl (fun s e => writeBack s e.1) s
  let s := held.foldl (fun s e => linePut s e.1 { lineAt s e.1 with pinned := false }) s
  { s with llc := { s.llc with pins := [] } }

/-- Add everything the reduction queues hold and clear the step's marks on lines (R229). -/
def settleReductions (s : State) : State :=
  let s := (s.llc.redQ.map fun c => lineSlice s c.key).foldl drainSlice s
  { s with llc := { s.llc with lines := s.llc.lines.map fun e => (e.1, { e.2 with reduced := false, withheld := 0 })
                               redPoison := [] } }

/-- Write a field of every tower's PTH_WINDOW_CFG.locked (R33). -/
def lockWindows (s : State) (v : Nat) : State := (List.range 16).foldl (fun s t => fset s (pthBase t + 0x100) 31 31 v) s

/-- Stone wakes the parked regions (R399). -/
def wakeAll (s : State) : State :=
  let rs := (List.range 256).filter fun r => regionState s r = 1 ∨ regionState s r = 2
  let s := rs.foldl (fun s r => setRegionState s r 0) s
  { s with pwr := { s.pwr with staging := [], wakeLimit := [] } }

/-- After the plan the plan limits return to 64 (R393). -/
def freePlanLimits (s : State) : State := (0 :: (List.range 16).map (16 + ·)).foldl (fun s i => setWant s i 64) s

/-- The LAUNCH_PLAN that has ended gets its completion, once no Quince job runs (R321); ABORT_PLANs end with it (R89). -/
def closeRun (s : State) (status step detail : Nat) : State :=
  let launch := s.cmd.active.filter fun a => a.runs s
  let s := s.qnc.jobs.foldl applyJob s
  let s := { s with qnc := { s.qnc with jobs := [], defs := [], tries := [], late := false }, run := none }
  let s := lockWindows s 0
  let s := if status = stOk ∨ status = stAborted then s else setAlert s 2
  let s := launch.foldl (fun s a => endActive s a status step detail) s
  (s.cmd.active.filter fun a => a.op = 3).foldl (fun s a => endActive s a stOk 0 0) s

/-- End the running plan with a status (R82, R89, R223, R250, R296, R321, R393, R399). Its completion waits for Quince's jobs and
for a warm reset to end (R434). -/
def planEnd (s : State) (status step detail : Nat) : State :=
  match s.run with
  | none => s
  | some r =>
    let s := coresOff s
    let s := channelsToMemory s
    let s := settleReductions s
    let s := if status = stOk ∨ status = stAborted then s else losePages (loseOutputs s)
    let s := unpinAll s
    let s := wakeAll s
    let s := freePlanLimits s
    let s := { s with att := [], ringTaken := [], routers := [],
                      pwr := { s.pwr with follow := [], followEpisode := false }
                      fab := { s.fab with coll := [], reqs := [], barMembers := [], barBunches := [],
                                          barAmax := [], barTouched := [] } }
    let s := setWant s 4 64
    if s.qnc.jobs.all jobFinished ∧ s.boot.resets.isEmpty then closeRun s status step detail
    else { s with run := some { r with ending := some (status, detail, step), sigs := [] } }

/-- Stop the running plan (R82): the record carries the number of the step in progress. DEDUCED: log entry 46. -/
def stopPlan (s : State) (status detail : Nat) : State :=
  match s.run with
  | none => s
  | some r => if r.ending.isSome then s else planEnd s status r.stepNo detail

/-- An uncorrectable error in a committed scale entry of a logical core stops the plan (R185). DEDUCED: log entry 95. -/
def scaleLost (s : State) (lc : Nat) : State :=
  let idx := (s.run.map (·.stepIdx)).getD 0
  stopPlan (notice s 0x1013 0 lc 0xFF (0xFFFFFFFF + idx * 2 ^ 32)) stRegionLost 0

/-! ### Faults of a core (R126 to R128) -/

/-- The pseudo address of a fault without a data address (R127). -/
def pseudoAddr (pc slot : Nat) : Nat := 0x7FFF00000000 + pc * 32 + slot * 8

/-- Record a fault in CORE_FAULT_INFO and CORE_FAULT_ADDR (R128). -/
def recordFault (s : State) (lc pc slot cls dev addr : Nat) : State :=
  let pk := physCore s lc
  let base := coreBase (pk / 272) (pk % 272)
  let at_ := (coreOf s pk).attempt
  let w := 1 + cls * 2 ^ 8 + (Nat.min at_ 2) * 2 ^ 16 + slot * 2 ^ 18 + pc % 4096 * 2 ^ 20 + lc * 2 ^ 32
  regPut (regPut s (base + 0x100) (BitVec.ofNat 64 w)) (base + 0x108) (BitVec.ofNat 64 (addr % 2 ^ 48 + dev * 2 ^ 48))

/-- A window violation: recorded, counted, and the plan stops with WINDOW (R82, R126). -/
def windowFault (s : State) (lc pc slot cls dev : Nat) (addr : Option Nat) : State :=
  let pk := physCore s lc
  let a := addr.getD (pseudoAddr pc slot)
  let s := recordFault s lc pc slot cls (if addr.isSome then dev else 0xFFFF) a
  let s := count s (coreBase (pk / 272) (pk % 272)) 1 1
  stopPlan s stWindow (lc + a % 2 ^ 48 * 2 ^ 16)

/-- Commands of a core that stop at their next row or line when its share is abandoned (R128). -/
def Core.started (c : Core) : List QCmd :=
  (c.arr0.run ++ c.arr1.run).filter (fun q => q.op = .mst) ++ c.eng.filter fun q => (q.op = .dma || q.op = .dmar) && q.st = 1

/-- Abandon a share (R77, R128): queues are emptied, arrivals withdrawn, dirty L1 lines and staged updates discarded;
commands started on the Rowan, attention and collective engines run on, and started MSTs, DMAs and DMARs stop at their next row or line.
The core waits for its replay. -/
def abandonShare (s : State) (lc : Nat) : State :=
  let pk := physCore s lc
  let s := l1Abandon s pk
  let s := fresh s
  let s := modCore s pk fun c =>
    { c with st := .faulted, stream := [], stalled := false, fly := [], loads := [], pend := [], wb := [], eng := [],
             waits := [], halting := c.started, arr0 := c.arr0.emptied, arr1 := c.arr1.emptied,
             stage := [], stageUnfit := 0, v := [], vstamp := s.free, vTag := [], delay := none }
  let s := modRouter s lc fun r =>
    { r with cur := [], arrK := [],
             standing := r.standing.filter fun a =>
               a.1 = 3 && (tget [] s.fab.barMembers (barKey (curStep s) (a.2 + 1))).contains (ownMember s) }
  { s with att := s.att.map fun e => (e.1, { e.2 with
             queue := (e.2.queue.filter fun q => q.core ≠ lc || q.started).map fun q =>
               if q.core = lc then { q with abandoned := true } else q
             staged := e.2.staged.filter fun q => q.core ≠ lc
             edits := e.2.edits.filter fun q => q.1 ≠ lc })
           fab := { s.fab with coll := s.fab.coll.map fun e => (e.1, { e.2 with
             queue := e.2.queue.map fun q => if q.core = lc then { q with abandoned := true } else q })
                               reqs := s.fab.reqs.filter fun q => q.core ≠ lc } }

/-- A consume or partition fault: recorded, counted, and the share is abandoned (R126 to R128). `src` is the address its
poison came from, for the resolution of R83. -/
def consumeFault (s : State) (lc pc slot cls : Nat) (addr src : Option Nat) : State :=
  let pk := physCore s lc
  let s := recordFault s lc pc slot cls 0xFFFF (addr.getD (pseudoAddr pc slot))
  let s := count s (coreBase (pk / 272) (pk % 272)) 0 1
  let s := if cls = 1 then countStn s 20 1 else s
  let s := abandonShare s lc
  modCore s pk fun c => { c with poisonAt := if cls = 1 then src else none }

/-! ### Tokens (R120) -/

/-- Increment a token counter of a logical core; past 0xFFFF it is class 0x15 of that core. -/
def tokInc (s : State) (lc tok : Nat) : State :=
  let c := coreL s lc
  if c.st = .off ∨ c.st = .faulted then s
  else if tget 0 c.tok tok = 0xFFFF then windowFault s lc c.pc 3 0x15 0xFFFF none
  else modCoreL s lc fun c => { c with tok := tput c.tok tok (tget 0 c.tok tok + 1) }

/-- The token increment of a command's completion, when it asked for one (R105). -/
def tokDone (s : State) (lc : Nat) (i : Ins) : State :=
  if i.imm.getLsbD 20 then tokInc s lc (bits i.imm.toNat 19 16) else s

/-! ### Regions of the running plan -/

/-- The declaration that holds an address (R64). -/
def regionOf (p : Plan) (a : Nat) : Option Placement := p.places.find? fun q => q.base ≤ a && a < q.base + q.size

/-- Is any byte of the 32-byte group at an address poisoned at rest, or uncorrectable? -/
def poisonAtRest (s : State) (a : Nat) : Bool := anyPoison (memRead s (a / 32 * 32) 32).2

/-- Resolve poison at rest (R83; source and tower of a declared region's notice, and a regen source that is not mapped, are settled by the
log), met by logical core lc or, above 4,095, by another unit: rewrite the region's affected 64 KiB-aligned extent from its source, or lose the
region. The Bool says whether the plan goes on. DEDUCED: log entry 88. -/
def resolvePoison (s : State) (lc a : Nat) : State × Bool :=
  match s.run, runPlan s with
  | some r, some p =>
    if !poisonAtRest s a then (s, true)
    else
      let lose (s : State) (id source : Nat) : State × Bool :=
        (stopPlan (notice s 0x1013 0 source 0xFF (id + r.stepIdx * 2 ^ 32)) stRegionLost 0, false)
      match regionOf p a with
      | none =>
        if lc < 4096 then
          let pk := physCore s lc
          lose (regPut s (coreBase (pk / 272) (pk % 272) + 0x108) (BitVec.ofNat 64 (a + 0xFFFF * 2 ^ 48))) 0xFFFFFFFE lc
        else lose s 0xFFFFFFFE 0xFFFF
      | some q =>
        if q.regen ≠ 1 then lose s q.id 0xFFFF
        else
          let lo := Nat.max q.base (a / 0x10000 * 0x10000)
          let hi := Nat.min (q.base + q.size) (a / 0x10000 * 0x10000 + 0x10000)
          let src := q.regenAddr + (lo - q.base)
          if !rangeOk s Place.remoteOk src (hi - lo) then lose s q.id 0xFFFF
          else
            let d := memRead s src (hi - lo)
            if anyPoison d.2 then lose d.1 q.id 0xFFFF
            else (countStn (memWrite d.1 lo d.2) 18 1, true)
  | _, _ => (s, true)

end Sys2Proof.Machine
end

