-- ==== Sys2Proof/Machine/Operands.lean ====
section
/-! DEFINITION. The operand fields of KCI instructions (R103 to R107): the slots, the checks made at decode (R101,
R104), source and destination registers, and the registers as an instruction sees them at issue (R94, R98). -/

namespace Sys2Proof

open Machine

/-! ### Fields -/

/-- Bits [hi:lo] of the immediate. -/
def Ins.im (i : Ins) (hi lo : Nat) : Nat := bits i.imm.toNat hi lo
def Ins.fmtA (i : Ins) : Nat := i.im 31 28
def Ins.fmtW (i : Ins) : Nat := i.im 27 24
def Ins.mode (i : Ins) : Nat := i.im 23 23
def Ins.rndM (i : Ins) : Nat := i.im 22 21
def Ins.rndV (i : Ins) : Nat := i.im 27 26
def Ins.func (i : Ins) : Nat := i.im 25 20
def Ins.cc (i : Ins) : Nat := i.im 19 16
def Ins.tokEn (i : Ins) : Bool := i.imm.getLsbD 20
def Ins.tok (i : Ins) : Nat := i.im 19 16
def Ins.tensor (i : Ins) : Nat := i.im 15 8
def Ins.first (i : Ins) : Nat := i.im 13 8
def Ins.count (i : Ins) : Nat := i.im 5 0 + 1
def Ins.imm16 (i : Ins) : Nat := i.im 15 0
def Ins.scope (i : Ins) : Nat := i.im 25 24
/-- The array, bank and partition of an M-slot instruction (R105). -/
def Ins.arr (i : Ins) : Nat := bits i.d.toNat 4 4
def Ins.bank (i : Ins) : Nat := bits i.d.toNat 3 2
def Ins.part (i : Ins) : Nat := bits i.d.toNat 1 0
/-- Sign-extended immediates. -/
def Ins.sext32 (i : Ins) : Int := signed 32 i.imm.toNat
def Ins.sext16 (i : Ins) : Int := signed 16 i.imm16
/-- Immediate bits outside a mask are 0. -/
def Ins.only (i : Ins) (m : W32) : Bool := i.imm &&& ~~~m = 0
def Ins.noB (i : Ins) : Bool := i.b = 0
def Ins.noC (i : Ins) : Bool := i.c = 0
def Ins.noD (i : Ins) : Bool := i.d = 0
def Ins.noA (i : Ins) : Bool := i.a = 0
/-- tok is 0 where tok_en is 0 (R105). -/
def Ins.tokOk (i : Ins) : Bool := i.tokEn || i.tok = 0

end Sys2Proof

namespace Sys2Proof.Machine

/-- A branch (R100). -/
def isBranch : KOp → Bool
  | .br | .bnzd | .jr => true
  | _ => false

/-! ### Decode checks (R101, R104) -/

/-- A predicate register field has its two high bits 0 (R105). -/
def predOk (r : BitVec 5) : Bool := r.toNat < 8

/-- Formats of VCVT and VCVTW (R113). -/
def vFmtOk (f : Nat) : Bool := 1 ≤ f && f ≤ 7
/-- Format pairs of MMAC (R111). -/
def pairOk (a w : Nat) : Bool :=
  (isFp8 a && isFp8 w) || (a = 7 && w = 7) || (isMx a && a = w) || (a = 1 && w = 1)

/-- Fields of the C-slot instructions. -/
def decodeC (o : KOp) (i : Ins) : Bool :=
  match o with
  | .add | .sub | .mul | .mulhu | .divu | .remu | .and | .or | .xor | .shl | .shr | .sar => i.noC && i.only 0
  | .addi => i.noB && i.noC
  | .shi => i.noB && i.noC && i.only 0x33F && i.im 9 8 ≠ 3
  | .li | .lih => i.noA && i.noB && i.noC
  | .cmp => predOk i.d && i.noC && i.only 7 && i.im 2 0 ≤ 5
  | .plog => predOk i.d && predOk i.a && predOk i.b && i.noC && i.only 3
  | .pmov => predOk i.d && i.noB && i.noC && i.only 0
  | .ptos => predOk i.a && i.noB && i.noC && i.only 0
  | .mfs => i.noA && i.noB && i.noC && i.only 0xFF && i.im 7 0 ≤ 13
  | .ldp => i.noA && i.noB && i.noC && i.only 0xF8
  | .ld8 | .ld16 | .ld32 | .ld64 => i.noB && i.noC
  | .st8 | .st16 | .st32 | .st64 => i.noD && i.noC
  | .br => i.noD && i.noA && i.noB && i.noC
  | .bnzd => i.noD && i.noB && i.noC
  | .jr => i.noD && i.noB && i.noC && i.only 0
  | _ => true

/-- Fields of the V-slot instructions. DESIGN CHOICE: log entry 91. -/
def decodeV (o : KOp) (i : Ins) : Bool :=
  match o with
  | .vadd | .vsub | .vmul | .vmax | .vmin | .vperm => i.noC && i.only 0
  | .vfma => i.only 0
  | .vsfu => i.noB && i.noC && i.only 0x03F00000 && i.func ≤ 3
  | .vcmp => predOk i.d && i.noC && i.only 0x000F0000 && i.cc ≤ 5
  | .vmov | .vrsum | .vrmax => i.noB && i.noC && i.only 0
  | .viadd | .vshift => i.noC && i.only 0x03F00000 && i.func ≤ 2
  | .vlogic => i.noC && i.only 0x03F00000 && i.func ≤ 3 && (i.func ≠ 3 || i.noB)
  | .vcvt => i.noC && i.only 0xFC00FF00 && vFmtOk i.fmtA && i.rndV ≤ 1
  | .vcvtw => i.noB && i.noC && i.only 0xF000FF00 && vFmtOk i.fmtA
  | .vbcl => i.noB && i.noC && i.only 0x3F
  | _ => true

/-- Fields of the M-slot instructions. DESIGN CHOICE: log entry 91. -/
def decodeM (o : KOp) (i : Ins) : Bool :=
  match o with
  | .mpcfg => i.bank = 0 && i.part = 0 && i.noA && i.noB && i.noC && i.only 3 && i.im 1 0 ≠ 3
  | .mmask => i.bank = 0 && i.noC && i.only 0
  | .mwld => i.bank = 0 && i.noC && i.only 0x0F1F0000 && i.tokOk && vFmtOk i.fmtW
  | .mswap => i.bank = 0 && i.noA && i.noB && i.noC && i.only 0
  | .mmac => i.noC && i.only 0xFF9F3F3F && i.tokOk && pairOk i.fmtA i.fmtW
  | .mclr => i.noA && i.noB && i.noC && i.only 0x001F0000 && i.tokOk
  | .mst => i.only 0xF0FFFF00 && i.tokOk && i.rndM ≤ 1 && i.fmtA ≤ 0xB &&
      (i.mode = 0 || i.fmtA = 0xA || i.fmtA = 8 || i.fmtA = 9)
  | .mrdv => i.only 0x007F0000 && i.tokOk && i.rndM ≤ 1
  | .mlda => i.noC && i.only 0xF09F3F3F && i.tokOk && isLacc i.fmtA
  | .mgang => i.noD && i.noA && i.noB && i.noC && i.only 0
  | _ => true

/-- Fields of the X-slot instructions. -/
def decodeX (o : KOp) (i : Ins) : Bool :=
  match o with
  | .vld => i.noB && i.noC && i.only 0xFFFF
  | .vst => i.noD && i.noC && i.only 0xFFFF
  | .movsv => i.noB && i.noC && i.only 0
  | .movvs => i.noB && i.noC && i.only 0x3F
  | .dma => i.noD && i.only 0x001F0000 && i.tokOk
  | .dmar => i.noD && i.only 0xF01F0000 && i.tokOk && (i.fmtA = 0xA || i.fmtA = 8 || i.fmtA = 9)
  | .pref => i.noD && i.noB && i.noC && i.only 0x0300FFFF && i.scope ≤ 1
  | .sig => i.noD && i.noB && i.noC && i.only 0x000F0000
  | .arrive => i.noD && i.noA && i.noB && i.noC && i.only 0x030F0000
  | .wait => i.noD && i.noA && i.noB && i.noC && i.only 0x000FFFFF
  | .commit => i.noD && i.noA && i.noB && i.noC && i.only 1
  | .attcmd | .pfxwalk | .rowop => i.noD && i.noB && i.noC && i.only 0x001F0000 && i.tokOk
  | .rowmodeEnter | .rowmodeExit => i.noD && i.noB && i.noC && i.only 0x001F0001 && i.tokOk
  | .coll => i.noD && i.noA && i.noB && i.noC && i.only 0x001FFFFF && i.tokOk
  | .rwake => i.noD && i.noA && i.noB && i.noC && i.only 0x001F000F && i.tokOk
  | .rsleep => i.noD && i.noA && i.noB && i.noC && i.only 0xF
  | _ => true

/-- The word spells the opcode in the opcode's slot, every field that the opcode does not use is 0 and every code is listed (R104,
R105). -/
def decodeOk (o : KOp) (i : Ins) : Bool := i.spells o && decodeC o i && decodeM o i && decodeV o i && decodeX o i

/-- The slot that a word stands in. -/
def Slot.pos (x : Slot) : Nat := x.ins.slot.toNat

/-- The word spells the opcode under which it stands: an opcode that is listed, in its own slot (R104). -/
def Slot.known (x : Slot) : Bool := x.ins.spells x.op

/-! ### Registers named -/

/-- A register of a core. -/
inductive Reg where
  | s (n : Nat)
  | p (n : Nat)
  | v (n : Nat)
deriving DecidableEq, Repr

/-- Source registers that an instruction consumes (R95): a poison tag on them is a consume fault. -/
def usesOf (o : KOp) (i : Ins) : List Reg :=
  let sa := Reg.s i.a.toNat
  let sb := Reg.s i.b.toNat
  let sc := Reg.s i.c.toNat
  let va := Reg.v i.a.toNat
  let vb := Reg.v i.b.toNat
  match o with
  | .add | .sub | .mul | .mulhu | .divu | .remu | .and | .or | .xor | .shl | .shr | .sar | .cmp => [sa, sb]
  | .addi | .shi | .pmov | .ld8 | .ld16 | .ld32 | .ld64 | .st8 | .st16 | .st32 | .st64 | .bnzd | .jr => [sa]
  | .lih => [.s i.d.toNat]
  | .plog => [.p i.a.toNat, .p i.b.toNat]
  | .ptos => [.p i.a.toNat]
  | .vadd | .vsub | .vmul | .vmax | .vmin | .vcmp | .viadd | .vshift | .vperm => [va, vb]
  | .vlogic => if i.func = 3 then [va] else [va, vb]
  | .vfma => [va, vb, .v i.c.toNat]
  | .vsfu | .vcvtw | .vrsum | .vrmax | .vbcl => [va]
  | .vcvt => [va, sb]
  | .mmask | .mwld | .mmac | .mlda => [sa, sb]
  | .mst => [sa, sb, sc]
  | .mrdv => [sa, sb]
  | .vld | .vst => [sa]
  | .dma | .dmar => [sa, sb, sc]
  | .sig | .attcmd | .pfxwalk | .rowop | .rowmodeEnter | .rowmodeExit => [sa]
  | _ => []

/-- Source registers that an instruction only copies (R95). -/
def copiesOf (o : KOp) (i : Ins) : List Reg :=
  match o with
  | .st8 | .st16 | .st32 | .st64 => [.s i.b.toNat]
  | .vmov | .movvs => [.v i.a.toNat]
  | .vst => [.v i.b.toNat]
  | .movsv => [.s i.a.toNat]
  | .pref => [.s i.a.toNat]
  | _ => []

/-- The register that an instruction writes (R98). -/
def dstOf (o : KOp) (i : Ins) : Option Reg :=
  match o with
  | .add | .addi | .sub | .mul | .mulhu | .divu | .remu | .and | .or | .xor | .shl | .shr | .sar | .shi | .li | .lih
  | .ptos | .mfs | .ldp | .ld8 | .ld16 | .ld32 | .ld64 | .movvs => some (.s i.d.toNat)
  | .cmp | .plog | .pmov | .vcmp => some (.p i.d.toNat)
  | .bnzd => some (.s i.a.toNat)
  | .vadd | .vsub | .vmul | .vfma | .vmax | .vmin | .vsfu | .vmov | .viadd | .vlogic | .vshift | .vcvt | .vcvtw
  | .vrsum | .vrmax | .vbcl | .vperm | .vld | .movsv => some (.v i.d.toNat)
  | .mrdv => some (.v i.c.toNat)
  | _ => none

/-- The guard register (R101). -/
def guardReg (i : Ins) : Reg := .p i.pg.toNat

/-- Every register an instruction reads, its guard included. -/
def readsOf (o : KOp) (i : Ins) : List Reg := guardReg i :: usesOf o i ++ copiesOf o i

/-! ### Values (R94) -/

/-- s[n]: s0 reads 0. -/
def Core.sGet (c : Core) (n : Nat) : W64 := if n = 0 then 0 else tget 0 c.s n
/-- p[n]: p0 reads all ones. -/
def Core.pGet (c : Core) (n : Nat) : W64 := if n = 0 then BitVec.allOnes 64 else tget 0 c.p n
/-- v[n]. DEDUCED: log entry 31. -/
def Core.vGet (c : Core) (n : Nat) : VReg :=
  (tget? c.v n).getD (if c.vstamp = 0 then 0 else Config.freeVreg (c.vstamp - 1) n)

/-- Lane i of a vector register. -/
def lane (v : VReg) (i : Nat) : W32 := v.extractLsb' (32 * i) 32

/-- The vector register of 64 lanes. -/
def ofLanes (f : Nat → W32) : VReg :=
  BitVec.ofNat 2048 ((List.range 64).foldr (fun i acc => (f i).toNat + 2 ^ 32 * acc) 0)

/-- The 256 bytes of a vector register. -/
def vBytes (v : VReg) : List Byte := leBytes 256 v.toNat

/-- Bits of a v register that the lanes of a mask cover. -/
def laneMask (m : W64) : VReg := ofLanes fun i => if m.getLsbD i then BitVec.allOnes 32 else 0

/-- The 8-lane groups in which a mask has a lane. -/
def maskGroups (m : W64) : List Nat := (List.range 8).filter fun g => (m.toNat >>> (8 * g)) % 256 ≠ 0

/-- The guard of an instruction (R101). -/
def guardOf (c : Core) (i : Ins) : W64 := if i.gn then ~~~(c.pGet i.pg.toNat) else c.pGet i.pg.toNat

/-- A C-, M- or X-slot instruction executes. -/
def executes (c : Core) (o : KOp) (i : Ins) : Bool := slotOf o = 2 || (guardOf c i).getLsbD 0

/-- Groups of its source that a packed format fills from byte 0 (R106, R113): 64 elements of BF16 take 128 bytes, and no other packed
format takes more than 64. -/
def packedGroups (fmt : Nat) : Nat := if fmt = 1 then 4 else 2

/-- Poison tags that an instruction consumes: the address the poison came from (R95). VBCL reads one group, VCVTW the groups that
hold the packed elements, and VPERM the groups that its index lanes name. -/
def poisonUse (c : Core) (o : KOp) (i : Ins) : Option Nat :=
  (usesOf o i).findSome? fun r =>
    match r with
    | .s n => tget? c.sTag n
    | .p _ => none
    | .v n =>
      let gs := match o with
        | .vbcl => [i.im 5 0 / 8]
        | .vcvtw => List.range (packedGroups i.fmtA)
        | .vperm =>
          if n = i.b.toNat then List.range 8
          else (List.range 64).map fun l => (lane (c.vGet i.b.toNat) l).toNat % 64 / 8
        | _ => List.range 8
      gs.findSome? fun g => tget? c.vTag (8 * n + g)

/-- Land one register write (R95, R98, R101). Writes to s0 and p0 are discarded. -/
def Core.land (c : Core) : RegW → Core
  | .sreg d v tag =>
    if d = 0 then c
    else { c with s := tset 0 c.s d v, sTag := match tag with
                    | some a => tput c.sTag d a
                    | none => tdel c.sTag d }
  | .preg d m v => if d = 0 then c else { c with p := tset 0 c.p d ((c.pGet d &&& ~~~m) ||| (v &&& m)) }
  | .vreg d m v tags =>
    let lm := laneMask m
    { c with v := tput c.v d ((c.vGet d &&& ~~~lm) ||| (v &&& lm))
             vTag := (maskGroups m).foldl (fun t g => match tget? tags g with
               | some a => tput t (8 * d + g) a
               | none => tdel t (8 * d + g)) c.vTag }

/-- Land every result due by cycle n, in order of the cycle it is due and, within a cycle, of issue (R98). -/
def Core.landTo (c : Core) (n : Nat) : Core :=
  let due := c.fly.takeWhile fun f => f.due ≤ n
  { due.foldl (fun c f => c.land f.w) c with fly := c.fly.dropWhile fun f => f.due ≤ n }

/-- Put a result in flight behind every result due no later. -/
def flyIns (f : Fly) : List Fly → List Fly
  | [] => [f]
  | g :: r => if g.due ≤ f.due then g :: flyIns f r else f :: g :: r

/-- The register a write in flight names. -/
def RegW.reg : RegW → Reg
  | .sreg d _ _ => .s d
  | .preg d _ _ => .p d
  | .vreg d _ _ _ => .v d

end Sys2Proof.Machine
end

