-- ==== Sys2Proof/Machine/Flags.lean ====
section
/-! DEFINITION. The condition codes that write predicates: CMP and PLOG (R108), VCMP (R113). -/

namespace Sys2Proof.Machine

/-- The condition of CMP (R108): 0 EQ, 1 NE, 2 LT, 3 LTU, 4 GE, 5 GEU. -/
def cmpCond (cc : Nat) (a b : W64) : Bool :=
  match cc with
  | 0 => a = b
  | 1 => a ≠ b
  | 2 => a.toInt < b.toInt
  | 3 => a.toNat < b.toNat
  | 4 => b.toInt ≤ a.toInt
  | _ => b.toNat ≤ a.toNat

/-- The operation of PLOG (R108): AND, OR, XOR, AND-NOT. -/
def plogOp (f : Nat) (a b : W64) : W64 :=
  match f with
  | 0 => a &&& b
  | 1 => a ||| b
  | 2 => a ^^^ b
  | _ => a &&& ~~~b

/-- The condition of VCMP on two FP32 patterns (R113): 0 EQ, 1 NE, 2 LT, 3 LE, 4 GT, 5 GE, ordered: false on a NaN. DEDUCED: log entry 30. -/
def vcmpCond (cc : Nat) (a b : W32) : Bool :=
  let x := fp32.decode a.toNat
  let y := fp32.decode b.toNat
  if fp32.isNan a.toNat || fp32.isNan b.toNat then false
  else
    match cc with
    | 0 => x.eqv y
    | 1 => !x.eqv y
    | 2 => x.lt y
    | 3 => x.lt y || x.eqv y
    | 4 => y.lt x
    | _ => y.lt x || x.eqv y

/-- The predicate whose bit i is f i. -/
def predOf (f : Nat → Bool) : W64 := BitVec.ofNat 64 ((List.range 64).foldr (fun i acc => b2n (f i) + 2 * acc) 0)

end Sys2Proof.Machine
end

