-- ==== Sys2Proof/Machine/CoreScalar.lean ====
section
/-! DEFINITION. The C-slot instructions that compute on registers (R108): values, latencies, the special registers of
MFS (R118) and the parameter block (R117). Every value is taken from the registers as they stand at issue. -/

namespace Sys2Proof.Machine

/-! ### Integer operations -/

def valAdd (a b : W64) : W64 := a + b
def valSub (a b : W64) : W64 := a - b
def valMul (a b : W64) : W64 := a * b
/-- High half of the unsigned product. -/
def valMulhu (a b : W64) : W64 := BitVec.ofNat 64 (a.toNat * b.toNat / 2 ^ 64)
/-- Unsigned quotient; all ones for a zero divisor. -/
def valDivu (a b : W64) : W64 := if b = 0 then BitVec.allOnes 64 else BitVec.ofNat 64 (a.toNat / b.toNat)
/-- Unsigned remainder; the dividend for a zero divisor. -/
def valRemu (a b : W64) : W64 := if b = 0 then a else BitVec.ofNat 64 (a.toNat % b.toNat)
/-- Shift by the low six bits of b: 0 left, 1 logical right, 2 arithmetic right. -/
def valShift (kind : Nat) (a : W64) (n : Nat) : W64 :=
  match kind with
  | 0 => a <<< n
  | 1 => a >>> n
  | _ => a.sshiftRight n
/-- s[d] with its upper half replaced. -/
def valLih (d : W64) (imm : W32) : W64 := BitVec.ofNat 64 (imm.toNat * 2 ^ 32 + d.toNat % 2 ^ 32)

/-! ### Special registers (R118) -/

/-- Free entries of a queue with room for n. -/
def freeOf (n used : Nat) : Nat := n - Nat.min n used

/-- Commands that occupy an array's compute queue: from issue until they complete (R110, R121). -/
def cqUsed (a : Arr) : Nat := a.cq.length + a.run.length

/-- queue_free (R118). -/
def queueFree (c : Core) : Nat :=
  freeOf 8 (cqUsed c.arr0) + freeOf 8 (cqUsed c.arr1) * 2 ^ 4 + freeOf 2 c.arr0.wq.length * 2 ^ 8 +
    freeOf 2 c.arr1.wq.length * 2 ^ 10 + freeOf 8 c.eng.length * 2 ^ 12

/-- Four token counters from t(4j) (R118). -/
def tokens4 (c : Core) (j : Nat) : Nat :=
  (List.range 4).foldr (fun k acc => tget 0 c.tok (4 * j + k) + 2 ^ 16 * acc) 0

/-- A special register as MFS reads it (R118). DEDUCED: log entry 34. -/
def mfsVal (s : State) (lc : Nat) (c : Core) (n : Nat) : Nat :=
  match n with
  | 0 => lc
  | 1 => curStep s
  | 2 => (s.run.map (·.stepIdx)).getD 0
  | 3 => (s.run.map (·.iter)).getD 0 % 2 ^ 32
  | 4 => ((runPlan s).map (·.seed.toNat)).getD 0
  | 5 => s.now
  | 6 => c.cyc
  | 7 => deviceId s
  | 8 => queueFree c
  | 13 => mfsCap s (lc / 16)
  | n => tokens4 c (n - 9)

/-- The parameter block of a logical core: 256 bytes per core in the order of the identifiers (R63, R117). -/
def ldpVal (s : State) (lc off : Nat) : Nat :=
  ((runPlan s).map fun p => leNat (bytesAt p.params (256 * lc + off) 8)).getD 0

/-! ### Results -/

/-- Result and latency of the C-slot instructions that write a register (R108). DEDUCED: log entry 27. -/
def scalarResult (s : State) (lc : Nat) (c : Core) (o : KOp) (i : Ins) : Option (RegW × Nat) :=
  let a := c.sGet i.a.toNat
  let b := c.sGet i.b.toNat
  let d := i.d.toNat
  let sw (v : W64) (l : Nat) : Option (RegW × Nat) := some (.sreg d v none, l)
  let pw (v : W64) : Option (RegW × Nat) := some (.preg (d % 8) (BitVec.allOnes 64) v, 1)
  match o with
  | .add => sw (valAdd a b) 1
  | .addi => sw (valAdd a (BitVec.ofInt 64 i.sext32)) 1
  | .sub => sw (valSub a b) 1
  | .mul => sw (valMul a b) 3
  | .mulhu => sw (valMulhu a b) 3
  | .divu => sw (valDivu a b) 18
  | .remu => sw (valRemu a b) 18
  | .and => sw (a &&& b) 1
  | .or => sw (a ||| b) 1
  | .xor => sw (a ^^^ b) 1
  | .shl => sw (valShift 0 a (b.toNat % 64)) 1
  | .shr => sw (valShift 1 a (b.toNat % 64)) 1
  | .sar => sw (valShift 2 a (b.toNat % 64)) 1
  | .shi => sw (valShift (i.im 9 8) a (i.im 5 0)) 1
  | .li => sw (BitVec.ofInt 64 i.sext32) 1
  | .lih => sw (valLih (c.sGet d) i.imm) 1
  | .cmp => pw (if cmpCond (i.im 2 0) a b then BitVec.allOnes 64 else 0)
  | .plog => pw (plogOp (i.im 1 0) (c.pGet i.a.toNat) (c.pGet i.b.toNat))
  | .pmov => pw a
  | .ptos => sw (c.pGet i.a.toNat) 1
  | .mfs => sw (BitVec.ofNat 64 (mfsVal s lc c (i.im 7 0))) (if i.im 7 0 = 5 ∨ i.im 7 0 = 6 then 4 else 1)
  | .ldp => sw (BitVec.ofNat 64 (ldpVal s lc (i.im 7 0))) 2
  | .bnzd => some (.sreg i.a.toNat (a - 1) none, 1)
  | _ => none

/-! ### Branches (R100, R108) -/

/-- Target of a branch of the bundle at pc, 12 bits; none when it is not taken. A BNZD of s0 sees 2^64 − 1. DEDUCED: log entry 27. DEDUCED: log entry 29. -/
def branchTarget (c : Core) (o : KOp) (i : Ins) : Option Nat :=
  let rel := unsigned 12 ((c.pc : Int) + i.sext32)
  match o with
  | .br => some rel
  | .bnzd => if c.sGet i.a.toNat - 1 ≠ 0 then some rel else none
  | .jr => some ((c.sGet i.a.toNat).toNat % 4096)
  | _ => none

end Sys2Proof.Machine
end

