-- ==== Sys2Proof/Machine/RegRead.lean ====
section
/-! DEFINITION. Reads of control space (R43 to R48): the value a register shows, fields that follow other state laid over
the stored ones, and the read latch of each requester and block. -/

namespace Sys2Proof.Machine

/-- Replace fields of a register, each given by its bits and its value. -/
def overlay (w : W64) (fs : List (Nat × Nat × Nat)) : W64 := fs.foldl (fun w f => setField w f.1 f.2.1 f.2.2) w

/-- ARR_STATUS: what the array holds (Matrix arrays, Registers). -/
def liveArr (s : State) (b : Blk) (w : W64) : W64 :=
  let c := coreOf s (b.tower * 272 + b.idx / 2)
  let a := if b.idx % 2 = 0 then c.arr0 else c.arr1
  overlay w [(41, 32, Nat.min 512 a.log.length), (31, 31, b2n (a.gang ≠ 0)), (19, 19, b2n a.logFull),
    (1, 0, a.mode)]

/-- ATT_STATUS (R301). DEDUCED: log entry 43. -/
def liveAtt (s : State) (b : Blk) (w : W64) : W64 :=
  let e := tget AttEng.init s.att (b.tower * 16 + b.idx)
  overlay w [(42, 32, Nat.min 1024 e.staged.length), (24, 16, Nat.min 256 e.binds.length), (13, 8, e.queue.length),
    (7, 5, (e.queue.filter fun q => q.started).length),
    (0, 0, b2n (e.queue.any fun q => q.abandoned))]

/-- LLC_SLICE_STATUS (R235). -/
def liveSlice (s : State) (b : Blk) (w : W64) : W64 :=
  let sl := b.tower * 272 + b.idx
  let ls := s.llc.lines.filter fun e => lineSlice s e.1 = sl
  overlay w [(44, 32, (ls.filter fun e => e.2.pinned).length),
    (31, 24, Nat.min 128 (s.llc.miss.filter fun m => lineSlice s m.line = sl).length),
    (23, 17, Nat.min 64 (s.llc.redQ.filter fun c => lineSlice s c.key = sl).length),
    (3, 3, b2n (0 < s.boot.ended && (logicalCol s sl).isSome)), (1, 1, b2n (s.llc.redPoison.contains sl)),
    (0, 0, b2n (ls.any fun e => e.2.withheld ≠ 0))]

/-- VCH_STATUS (R263). -/
def liveChan (s : State) (b : Blk) (w : W64) : W64 :=
  let ch := b.tower * 272 + b.idx
  let c := chanAt s ch
  overlay w [(55, 50, c.bondUsed.length), (24, 20, Nat.min 16 c.queue.length),
    (8, 8, b2n (0 < s.boot.ended && (logicalCol s ch).isSome))]

/-- PIP_STATUS.level: ALERT_L and RDY in RUN (R492, R502). -/
def pipLevels (s : State) (w : W64) : W64 :=
  if s.boot.pinsRun then overlay w [(0, 0, b2n (!s.pip.alert)), (1, 1, b2n s.pip.rdy)] else w

/-- PIP_I3C_ID (R496): DCR, BCR and the Provisional ID. -/
def i3cId : Nat := 0x02 * 2 ^ 48 + 0x0D4B * 2 ^ 33 + 2 ^ 32 + Config.serial.toNat % 2 ^ 32

/-- The value a granule shows. -/
def regLive (s : State) (o : Nat) : W64 :=
  let w := regGet s o
  match blkOf o with
  | none => 0
  | some b =>
    let r := o - b.base
    match b.kind with
    | .pth => if r = 0x100 then setField w 11 4 (18 - getField w 3 0) else w
    | .pwt => if 0x100 ≤ r ∧ r < 0x180 then setField w 6 0 (effLimit s (b.tower * 16 + (r - 0x100) / 8)) else w
    | .arr => if r = 0 then liveArr s b w else w
    | .att => if r = 0 then liveAtt s b w else w
    | .llc => if r = 0 then liveSlice s b w else w
    | .vch => if r = 0 then liveChan s b w else w
    | .row => if 0x1000 ≤ r ∧ r < 0x1000 + 8 * 272 then staleWord s (b.tower * 272 + (r - 0x1000) / 8) else w
    | .qnc => if r = 0 then setField w 10 0 (s.qnc.jobs.length) else w
    | .stn =>
      if r = 0x2018 then BitVec.ofNat 64 s.now
      else if 0x10000 ≤ r ∧ r < 0x10800 then BitVec.ofNat 64 (leAt (shapeTable s) (r - 0x10000) 8)
      else w
    | .pip => if r = 0 then pipLevels s w else if r = 0x20 then BitVec.ofNat 64 i3cId else w
    | _ => w

/-- The value a read returns: write-only fields read 0 (R7). They are never stored. -/
def regShown (s : State) (o : Nat) : Nat := (regLive s o).toNat

/-- Is the granule one 64-bit register, so that the latch of R48 applies, or two of 32 bits (R44)? A granule that holds no register
is neither. DEDUCED: log entry 11. -/
def isWide (o : Nat) : Bool :=
  match blkOf o with
  | none => false
  | some b =>
    !(flds b.kind b.idx (o - b.base)).isEmpty &&
    match b.kind, o - b.base with
    | .pth, 0x100 => false
    | .stn, 0x1008 => false
    | .stn, 0x1018 => false
    | .stn, 0x2008 => false
    | .stn, 0x3000 => false
    | .pip, 0x10 => false
    | .pip, 0x18 => false
    | .boot, 8 => false
    | .sec, 0 => false
    | .cl, 0x30 => false
    | .qnc, 0x108 => false
    | .arr, 0x20 => false
    | k, r => !(hasCeLog k && r == 0x480)

/-- Key of a requester and block in the latches of R48: host 0, Stone 1, I3C 2, Pith of tower t 3 + t, logical core l
32 + l, Quince hart h 8,192 + h. -/
def latchKey (who base : Nat) : Nat := who * 2 ^ 32 + base

/-- Number of a requester. -/
def whoNum : Who → Nat
  | .host => 0
  | .stone => 1
  | .i3c => 2
  | .pith t => 3 + t.toNat
  | .hart h => 8192 + h.toNat

/-- An access of another register of the block discards the held low half (R48). DEDUCED: log entry 11. -/
def dropHold (s : State) (key g : Nat) : State :=
  match tget? s.ctl.whold key with
  | some h => if h.1 = g then s else { s with ctl := { s.ctl with whold := tdel s.ctl.whold key } }
  | none => s

/-- Read 8 or 4 bytes of control space at an aligned offset inside a block (R43, R44, R48). DEDUCED: log entry 11. -/
def ctlRead (s : State) (who off : Nat) (wide : Bool) : State × Nat :=
  let g := off / 8 * 8
  match blkOf g with
  | none => (s, 0)
  | some b =>
    let key := latchKey who b.base
    let s := dropHold s key g
    let v := regShown s g
    if wide then (s, v)
    else if off % 8 = 0 then
      let s := if isWide g then
          { s with ctl := { s.ctl with rlatch := tput s.ctl.rlatch key (g, BitVec.ofNat 32 (v / 2 ^ 32)) } }
        else s
      (s, v % 2 ^ 32)
    else
      match tget? s.ctl.rlatch key with
      | some (h, l) => if isWide g ∧ h = g then (s, l.toNat) else (s, v / 2 ^ 32)
      | none => (s, v / 2 ^ 32)

end Sys2Proof.Machine
end

