-- ==== Sys2Proof/Machine/CoreMemory.lean ====
section
/-! DEFINITION. Loads, stores and prefetches of a core (R97, R102, R108, R109, R114, R205 to R210): address checks, the L1
and the write buffer, and the return of loads and stores. -/

namespace Sys2Proof.Machine

/-- Why an executing instruction is a window violation: class, device field and address (none: the pseudo address of
R127). -/
structure Trap where
  cls : Nat
  dev : Nat
  addr : Option Nat
deriving DecidableEq, Repr

/-! ### Addresses (R109) -/

/-- Bytes of a load or store. -/
def accSize : KOp → Nat
  | .ld8 | .st8 => 1
  | .ld16 | .st16 => 2
  | .ld32 | .st32 => 4
  | .ld64 | .st64 => 8
  | _ => 256

/-- Module-local address of a load or store: s[a][47:0] plus the immediate, modulo 2^48. DEDUCED: log entry 23. -/
def accAddr (c : Core) (o : KOp) (i : Ins) : Nat :=
  let base : Nat := (c.sGet i.a.toNat).toNat % 2 ^ 48
  unsigned 48 ((base : Int) + (if accSize o = 256 then i.sext16 else i.sext32))

/-- Bits [63:48] of the address register. DEDUCED: log entry 23. -/
def accDev (c : Core) (i : Ins) : Nat := (c.sGet i.a.toNat).toNat / 2 ^ 48

/-- Stores to memory. -/
def isStore : KOp → Bool
  | .st8 | .st16 | .st32 | .st64 | .vst => true
  | _ => false

/-- May a core reach the place with an access of n bytes (R31, R43, R45)? -/
def accPlaceOk (store : Bool) (n : Nat) : Place → Bool
  | .ctl _ => !store && (n = 4 || n = 8)
  | .unmapped => false
  | _ => true

/-- Window violations of a load or store (R43, R109, R126). -/
def accTraps (s : State) (c : Core) (o : KOp) (i : Ins) : List Trap :=
  let n := accSize o
  let a := accAddr c o i
  let dev := accDev c i
  let al := if n = 256 then 64 else n
  let t10 :=
    if dev ≠ 0 ∧ dev ≠ 0xFFFF then [⟨0x10, dev, some a⟩]
    else match badAddr s (accPlaceOk (isStore o) n) a n with
      | some b => [⟨0x10, 0xFFFF, some b⟩]
      | none => []
  t10 ++ (if aligned al a then [] else [⟨0x11, if dev = 0 then 0xFFFF else dev, some a⟩])

/-! ### What a core sees of memory -/

/-- The host address that an access at address a is translated to when it issues (R36): none outside the host window. -/
def busOf (s : State) (a : Nat) : Option Nat :=
  match place s a with
  | .host b => some b
  | _ => none

/-- Two ranges of addresses meet. -/
def overlap (a n b m : Nat) : Bool := a < b + m && b < a + n

/-- An outstanding load older than command `id` covers a byte of a range (R102). -/
def loadOver (c : Core) (id a n : Nat) : Bool := c.loads.any fun l => l.id < id && overlap l.addr l.size a n

/-- The newest buffered store over a byte, among those older than command `id` (R102). -/
def wbByte (c : Core) (id a : Nat) : Option PByte :=
  (c.wb.reverse.find? fun e => e.id < id && e.addr ≤ a && a < e.addr + e.bytes.length).map fun e =>
    (e.bytes.getD (a - e.addr) 0, e.poison.getD (a - e.addr) false)

/-- The line of an address in the core's own tower's fast tier; none elsewhere (R202). -/
def ownLine (s : State) (pk a : Nat) : Option Nat :=
  match place s a with
  | .fast k => if keyTower k = pk / 272 then some (k / 128) else none
  | _ => none

/-- A byte that the core's own copies hold: the write buffer before the L1. -/
def nearByte (s : State) (pk : Nat) (c : Core) (a : Nat) : Option PByte :=
  match wbByte c c.nextId a with
  | some b => some b
  | none =>
    (ownLine s pk a).bind fun lk =>
      let e := tget L1Line.init c.l1 lk
      if e.valid.getLsbD (a % 128) then some (lByte e.data (a % 128), false) else none

/-- All the bytes of a range, when the core's own copies hold them: a load hit (R206). A load behind an outstanding load of the same
bytes is no hit (R102). -/
def nearBytes (s : State) (pk : Nat) (c : Core) (a n : Nat) : Option (List PByte) :=
  if loadOver c c.nextId a n then none else
  ((List.range n).map fun i => nearByte s pk c (a + i)).foldr (fun b acc =>
    match b, acc with
    | some x, some l => some (x :: l)
    | _, _ => none) (some [])

/-- The own lines that an access finds in the L1 have been used (R205). -/
def touchLines (s : State) (pk a n : Nat) : State :=
  ((linesOf a n).filterMap fun p => ownLine s pk p.1).foldl (fun s lk => l1Touch s pk lk) s

/-- The lines that hold the L1's 32 miss entries: those that the outstanding loads wait for, oldest first; a second miss to a line joins its
entry (R205, R230). -/
def missLines (s : State) (pk : Nat) : List Nat :=
  (((coreOf s pk).loads.flatMap fun l => (linesOf l.addr l.size).filterMap fun p => ownLine s pk p.1).eraseDups.filter
    fun lk => !l1Hit s pk lk 0 128).take 32

/-! ### Register writes of loads -/

/-- The poison tags of a v register loaded from address a: per group, the address of its first poisoned byte. -/
def groupTags (a : Nat) (l : List PByte) : Tbl Nat :=
  (List.range 8).filterMap fun g =>
    ((indexed ((l.drop (32 * g)).take 32)).find? fun p => p.2.2).map fun p => (g, a + 32 * g + p.1)

/-- What a load writes: a zero-extended word, or a v register (R95, R108, R114). -/
def loadWrite (vec : Bool) (d a : Nat) (l : List PByte) : RegW :=
  if vec then .vreg d (BitVec.allOnes 64) (BitVec.ofNat 2048 (leNat (pdata l))) (groupTags a l)
  else .sreg d (BitVec.ofNat 64 (leNat (pdata l))) (((indexed l).find? fun p => p.2.2).map fun p => a + p.1)

/-- Put a result in flight, due L cycles after issue (R98). -/
def Core.fly1 (c : Core) (l : Nat) (w : RegW) (lock : Bool) : Core := { c with fly := flyIns ⟨c.cyc + l, w, lock⟩ c.fly }

/-- Issue a load: a hit returns in 4 or 6 CCLK, a miss, or a hit that Bruise forces to miss (R444), waits for its data (R108, R114). `c0` is the core as the bundle
found it. -/
def issueLoad (s : State) (pk : Nat) (c0 : Core) (o : KOp) (i : Ins) : State :=
  let n := accSize o
  let a := accAddr c0 o i
  let vec : Bool := n = 256
  let miss (s : State) : State := modCore s pk fun c =>
    { c with nextId := c.nextId + 1
             loads := c.loads ++ [⟨c.nextId, vec, i.d.toNat, a, n, c.pc, BitVec.allOnes 64, busOf s a⟩] }
  match nearBytes s pk (coreOf s pk) a n with
  | some l =>
    let f := drawMiss s (pk / 272) (fbit s (brzBase (pk / 272) + 0x18) 13)
    if f.2 then miss f.1 else modCore (touchLines f.1 pk a n) pk fun c => c.fly1 (if vec then 6 else 4) (loadWrite vec i.d.toNat a l) true
  | none => miss s

/-! ### Stores -/

/-- Bytes and poison of a store (R95): the low bytes of s[b], or v[b] with its tags by group. -/
def storeData (c : Core) (o : KOp) (i : Ins) : List PByte :=
  if accSize o = 256 then
    (indexed (vBytes (c.vGet i.b.toNat))).map fun e => (e.2, (tget? c.vTag (8 * i.b.toNat + e.1 / 32)).isSome)
  else
    (leBytes (accSize o) (c.sGet i.b.toNat).toNat).map fun b => (b, (tget? c.sTag i.b.toNat).isSome)

/-- The lines of the core's own tower that a store covers, when every byte lies there. -/
def ownPieces (s : State) (pk a n : Nat) : Option (List (Nat × Nat × Nat)) :=
  ((linesOf a n).map fun p => (ownLine s pk p.1).map fun lk => (lk, p.2.1, p.2.2)).foldr (fun b acc =>
    match b, acc with
    | some x, some l => some (x :: l)
    | _, _ => none) (some [])

/-- Write clean bytes into the L1, line by line (R207). -/
def l1Stores (s : State) (pk : Nat) : List (Nat × Nat × Nat) → List PByte → State
  | [], _ => s
  | p :: r, l => l1Stores (l1Store s pk p.1 p.2.1 (pdata (l.take p.2.2))) pk r (l.drop p.2.2)

/-- Does a store go at once into lines that the L1 owns (R207)? -/
def storesNow (s : State) (pk : Nat) (c : Core) (a : Nat) (l : List PByte) : Option (List (Nat × Nat × Nat)) :=
  match ownPieces s pk a l.length with
  | some ps =>
    if !anyPoison l && !loadOver c c.nextId a l.length && ps.all (fun p => (tget L1Line.init c.l1 p.1).own && !bypassed s p.1) &&
        c.wb.all (fun e => e.addr + e.bytes.length ≤ a || a + l.length ≤ e.addr) then some ps
    else none
  | none => none

/-- Issue a store: into the L1 at once, or into the write buffer (R97, R207). -/
def issueStore (s : State) (pk : Nat) (c0 : Core) (o : KOp) (i : Ins) : State :=
  let a := accAddr c0 o i
  let l := storeData c0 o i
  match storesNow s pk (coreOf s pk) a l with
  | some ps => l1Stores s pk ps l
  | none => modCore s pk fun c =>
      { c with nextId := c.nextId + 1
               wb := c.wb ++ [⟨c.nextId, a, pdata l, l.map (·.2), c.pc, slotOf o, busOf s a⟩] }

/-! ### PREF (R114, R125) -/

/-- PREF: a hint carried out at once, but for lines that hold withheld bytes (R210). An unmapped or misaligned PREF, and one whose s[a] is tagged, is dropped. DEDUCED: log entry 24. -/
def issuePref (s : State) (pk : Nat) (c0 : Core) (i : Ins) : State :=
  let a := (c0.sGet i.a.toNat).toNat % 2 ^ 48
  let dev := accDev c0 i
  let n := 128 * i.imm16
  if (dev ≠ 0 ∧ dev ≠ 0xFFFF) ∨ (tget? c0.sTag i.a.toNat).isSome ∨ !aligned 128 a ∨ !rangeOk s Place.isFast a n then s
  else
    (linesOf a n).foldl (fun s p =>
      match place s p.1 with
      | .fast k =>
        let lk := k / 128
        if bypassed s lk || withheldFrom s 4096 p.1 128 then s
        else if i.scope = 0 ∧ keyTower k = pk / 272 then
          (if l1Hit s pk lk 0 128 then s else l1Fill s pk lk)
        else if (lineAt s lk).valid = BitVec.allOnes 128 then s
        else openMiss (fillLine (settleLine (ensureLine s lk) lk) lk) lk
      | _ => s) s

/-! ### Data returns (R97, R206) -/

/-- The bytes that load e brings: the host window by what the host answered, control space by registers, the own tower
through the L1, everything else at its target; the core's own older buffered stores stand over them (R102). -/
def loadBytes (s : State) (pk lc : Nat) (e : LoadEnt) (host : HostData) : State × List PByte :=
  let a := e.addr
  let n := e.size
  let r : State × List PByte :=
    match e.bus, place s a with
    | some _, _ =>
      let d := hostBytes host
      (s, (List.range n).map fun i => d.getD i (0, false))
    | none, .ctl off =>
      let q := ctlRead s (32 + lc) off (n = 8)
      (q.1, clean (leBytes n q.2))
    | none, _ =>
      (linesOf a n).foldl (fun r p =>
        let s := r.1
        match ownLine s pk p.1 with
        | some lk =>
          if bypassed s lk then
            let q := lineRead s p.1 p.2.1 p.2.2
            (q.1, r.2 ++ q.2)
          else
            let s := if l1Hit s pk lk p.2.1 p.2.2 then l1Touch s pk lk else closeMiss (l1Fill s pk lk) lk
            let e := tget L1Line.init (coreOf s pk).l1 lk
            (s, r.2 ++ (List.range p.2.2).map fun i =>
              (lByte e.data (p.2.1 + i), !e.valid.getLsbD (p.2.1 + i)))
        | none =>
          let q := lineRead s p.1 p.2.1 p.2.2
          (q.1, r.2 ++ q.2)) (s, [])
  let c := coreOf r.1 pk
  (r.1, (indexed r.2).map fun x => (wbByte c e.id (a + x.1)).getD (if x.2.2 then (0, true) else x.2))

/-- The bytes that a load's data come with: whole lines of the own tower, which the L1 fetches, else its own (R206). -/
def fetchRange (s : State) (pk : Nat) (e : LoadEnt) : Nat × Nat :=
  if (ownLine s pk e.addr).isSome then (e.addr / 128 * 128, ceilDiv (e.addr % 128 + e.size) 128 * 128) else (e.addr, e.size)

/-- The oldest load returns: its register is written and the interlock ends (R97). A read of the host that is held waits
(R484). -/
def returnLoad (s : State) (pk lc : Nat) (host : HostData) : State :=
  match (coreOf s pk).loads with
  | [] => s
  | e :: rest =>
    let go (s : State) : State :=
      let r := loadBytes s pk lc e host
      modCore r.1 pk fun c => { c with loads := rest }.land (loadWrite e.vec e.d e.addr r.2)
    if withheldFrom s lc (fetchRange s pk e).1 (fetchRange s pk e).2 then s
    else match e.bus with
    | some bus => if busMaster s then go (emit s (.hostRead bus e.size)) else s
    | none => go s

/-! ### Stores performed (R207) -/

/-- Does the oldest buffered store wait for ownership of lines of the own tower? Poisoned bytes go to the home slice. -/
def wantsOwnership (s : State) (pk : Nat) (e : StoreEnt) : Option (List (Nat × Nat × Nat)) :=
  match ownPieces s pk e.addr e.bytes.length with
  | some ps => if e.poison.any id || ps.any (fun p => bypassed s p.1) then none else some ps
  | none => none

/-- Ownership of the lines of the oldest buffered store is granted and its bytes enter the L1 (R207, R219), behind every older load of the
same bytes (R102). -/
def ownOldest (s : State) (pk : Nat) : State :=
  match (coreOf s pk).wb with
  | [] => s
  | e :: rest =>
    if loadOver (coreOf s pk) e.id e.addr e.bytes.length then s else
    match wantsOwnership s pk e with
    | none => s
    | some ps =>
      let s := ps.foldl (fun s p => if (tget L1Line.init (coreOf s pk).l1 p.1).own then s else grantOwn s pk p.1) s
      let s := l1Stores s pk ps (clean e.bytes)
      modCore s pk fun c => { c with wb := rest }

/-- The target of the oldest buffered store acknowledges it (R207): memory outside the own L1's range, poisoned bytes,
or the host. A store whose lines are owned by now enters the L1. It waits for every older load of the same bytes (R102). -/
def performOldest (s : State) (pk : Nat) : State :=
  match (coreOf s pk).wb with
  | [] => s
  | e :: rest =>
    if loadOver (coreOf s pk) e.id e.addr e.bytes.length then s else
    match wantsOwnership s pk e with
    | some ps =>
      if ps.all fun p => (tget L1Line.init (coreOf s pk).l1 p.1).own then ownOldest s pk else s
    | none =>
      let l := List.zip e.bytes e.poison
      let s := match e.bus with
        | some bus => toHost s (.hostWrite bus e.bytes (e.poison.any id))
        | none => memWrite s e.addr l
      modCore s pk fun c => { c with wb := rest }

end Sys2Proof.Machine
end

