-- ==== Sys2Proof/Machine/CoreVector.lean ====
section
/-! DEFINITION. The V-slot instructions (R113, R505) with their conversions (R168 to R171, R186, R187) and Sloe mode
(R198). Values are taken from the registers as they stand at issue; the guard masks what is written (R101). -/

namespace Sys2Proof.Machine

/-- Does the running plan set mode_flags.sloe (R62)? -/
def sloe (s : State) : Bool := ((runPlan s).map (·.sloe)).getD false

/-! ### FP32 operations per lane -/

/-- An operand and a result under Sloe mode: subnormals become zero of the same sign (R198). -/
def dazIf (z : Bool) (a : Nat) : Nat := if z then fp32.daz a else a

/-- An FP32 operation of two operands, in Sloe mode or not. -/
def fop2 (z : Bool) (f : Nat → Nat → Nat) (a b : W32) : W32 :=
  BitVec.ofNat 32 (dazIf z (f (dazIf z a.toNat) (dazIf z b.toNat)))

/-- Fused multiply-add. -/
def fop3 (z : Bool) (a b c : W32) : W32 :=
  BitVec.ofNat 32 (dazIf z (fp32.fma (dazIf z a.toNat) (dazIf z b.toNat) (dazIf z c.toNat)))

/-- VSFU (R505): 0 exp, 1 log, 2 reciprocal, 3 rsqrt. -/
def vsfu (f : Nat) (a : W32) : W32 :=
  BitVec.ofNat 32 (match f with
    | 0 => sfuExp a.toNat
    | 1 => sfuLog a.toNat
    | 2 => sfuRecip a.toNat
    | _ => sfuRsqrt a.toNat)

/-- VIADD: 0 add, 1 subtract, 2 multiply low. -/
def viadd (f : Nat) (a b : W32) : W32 :=
  match f with
  | 0 => a + b
  | 1 => a - b
  | _ => a * b

/-- VLOGIC: 0 AND, 1 OR, 2 XOR, 3 NOT of the first. -/
def vlogic (f : Nat) (a b : W32) : W32 :=
  match f with
  | 0 => a &&& b
  | 1 => a ||| b
  | 2 => a ^^^ b
  | _ => ~~~a

/-- VSHIFT by the low five bits: 0 left, 1 logical right, 2 arithmetic right. -/
def vshift (f : Nat) (a b : W32) : W32 :=
  let n := b.toNat % 32
  match f with
  | 0 => a <<< n
  | 1 => a >>> n
  | _ => a.sshiftRight n

/-- VRSUM: the pairwise tree over the 64 lanes. -/
def vrsum (z : Bool) (v : VReg) : W32 :=
  BitVec.ofNat 32 (treeSum (fun a b => dazIf z (fp32.add a b)) 6 ((List.range 64).map fun i => dazIf z (lane v i).toNat))

/-- VRMAX: the maximum over the 64 lanes under the ordering of VMAX. -/
def vrmax (z : Bool) (v : VReg) : W32 :=
  BitVec.ofNat 32 ((List.range 64).foldl (fun m i => fp32.max m (dazIf z (lane v i).toNat)) (dazIf z (lane v 0).toNat))

/-! ### Conversions -/

/-- The rounding of element `elem` (R107, R183): nearest even, or stochastic with its draw. -/
def rndOf (s : State) (code core : Nat) (elem : W64) : Rnd :=
  if code = 0 then .rne
  else .sr (srDraw (((runPlan s).map (·.seed)).getD 0) (curStep s) core elem)

/-- Counts of R169 over a list of conversions. -/
def flushes (l : List ConvKind) : Nat := (l.filter fun k => k = .flush).length
def saturations (l : List ConvKind) : Nat := (l.filter fun k => k = .saturation).length
def nonfinites (l : List ConvKind) : Bool := l.any fun k => k = .nonfinite

/-- What conversions of the inputs `vs` capture (R187). -/
def capOf (vs : List FVal) (ks : List ConvKind) : Cap := ⟨bf16Up (amaxOf vs), flushes ks, saturations ks, nonfinites ks⟩

/-- Stage a capture for entry t of a core (R187). -/
def stageCap (c : Core) (t : Nat) (k : Cap) : Core := { c with stage := tput c.stage t ((tget Cap.init c.stage t).join k) }

/-- Convert to BF16 under Sloe mode: nearest even, a subnormal result becomes zero and counts as a flush (R198). -/
def sloeBf16 (v : FVal) : Nat × ConvKind :=
  let r := bf16.ofVal .rne v
  if bf16.isSub r.1 then (bf16.daz r.1, .flush) else r

/-- Encode one element of a non-MX target (R168, R198). DEDUCED: log entry 94. -/
def encodeOne (z : Bool) (fmt : Nat) (r : Rnd) (v : FVal) : Nat × ConvKind :=
  if z && fmt = 1 then sloeBf16 v else encodeElem fmt r v

/-- Formats whose conversion applies the scale of an entry (R186). -/
def scaled (fmt : Nat) : Bool := fmt = 2 || fmt = 3 || fmt = 7

/-- VCVT of 64 lanes with the exponent, the enabled lanes and the rounding of each lane: 256 bytes and what is captured
(R113, R186, R187). Disabled lanes encode 0. Under Sloe mode subnormal inputs are zeros (R198), and to BF16 each of them counts as the
flush of its subnormal result. DEDUCED: log entry 94. -/
def vcvt (z : Bool) (fmt : Nat) (e : Int) (m : W64) (rnd : Nat → Rnd) (v : VReg) : VReg × Cap :=
  let at_ (z : Bool) (i : Nat) : FVal :=
    if m.getLsbD i then fp32.decode (dazIf z (lane v i).toNat) else FVal.fin false 0 0
  let ins := (List.range 64).map (at_ z)
  let real := (indexed ins).filterMap fun x => if m.getLsbD x.1 then some x.2 else none
  if isMx fmt then
    let r := mxEncode fmt ((indexed ins).map fun x => (x.2, rnd x.1))
    (BitVec.ofNat 2048 (leNat r.1), capOf real ((indexed r.2).filterMap fun k => if m.getLsbD k.1 then some k.2 else none))
  else
    let k := if scaled fmt then e else 0
    let r := (List.range 64).map fun i => encodeOne z fmt (rnd i) ((at_ (z && fmt ≠ 1) i).scale2 k)
    let w := 8 * fmtBytes fmt
    (BitVec.ofNat 2048 (r.foldr (fun x acc => x.1 + 2 ^ w * acc) 0),
      capOf real ((indexed r).filterMap fun q => if m.getLsbD q.1 then some q.2.2 else none))

/-- VCVTW: element i widened to FP32 (R113, R186), a subnormal result being zero under Sloe mode (R198). DEDUCED: log entry 94. -/
def vcvtw (z : Bool) (fmt : Nat) (e : Int) (v : VReg) (i : Nat) : W32 :=
  let x :=
    if isMx fmt then mxElem fmt (vBytes v) i
    else
      let w := 8 * fmtBytes fmt
      (elemVal fmt ((v.toNat >>> (w * i)) % 2 ^ w)).scale2 (if scaled fmt then -e else 0)
  BitVec.ofNat 32 (dazIf z (fp32.rne x))

/-! ### Results -/

/-- Tags of a copied register by group (R95). -/
def copyTags (c : Core) (n : Nat) : Tbl Nat := (List.range 8).filterMap fun g => (tget? c.vTag (8 * n + g)).map fun a => (g, a)

/-- Lane results of the V-slot instructions that work lane by lane; none for the others. -/
def vLane (z : Bool) (c : Core) (o : KOp) (i : Ins) : Option (Nat → W32) :=
  let a := lane (c.vGet i.a.toNat)
  let b := lane (c.vGet i.b.toNat)
  match o with
  | .vadd => some fun k => fop2 z fp32.add (a k) (b k)
  | .vsub => some fun k => fop2 z fp32.sub (a k) (b k)
  | .vmul => some fun k => fop2 z fp32.mul (a k) (b k)
  | .vfma => some fun k => fop3 z (a k) (b k) (lane (c.vGet i.c.toNat) k)
  | .vmax => some fun k => fop2 z fp32.max (a k) (b k)
  | .vmin => some fun k => fop2 z fp32.min (a k) (b k)
  | .vsfu => some fun k => vsfu i.func (a k)
  | .vmov => some a
  | .viadd => some fun k => viadd i.func (a k) (b k)
  | .vlogic => some fun k => vlogic i.func (a k) (b k)
  | .vshift => some fun k => vshift i.func (a k) (b k)
  | .vbcl => some fun _ => a (i.im 5 0)
  | .vperm => some fun k => a ((b k).toNat % 64)
  | _ => none

/-- Latency of the V-slot instructions (R113). -/
def vLatency : KOp → Nat
  | .vadd | .vsub | .vmul | .vfma | .vcvtw => 4
  | .vmax | .vmin | .vcmp | .vbcl => 2
  | .vsfu => 12
  | .vcvt | .vrmax => 6
  | .vrsum => 10
  | .vperm => 3
  | _ => 1

/-- The register write of a V-slot instruction, and what it captures: the entry and the capture. -/
def vectorResult (s : State) (pk lc : Nat) (c : Core) (o : KOp) (i : Ins) : Option (RegW × Option (Nat × Cap)) :=
  let z := sloe s
  let g := guardOf c i
  let d := i.d.toNat
  let va := c.vGet i.a.toNat
  match vLane z c o i with
  | some f => some (.vreg d g (ofLanes f) (if o = .vmov then copyTags c i.a.toNat else []), none)
  | none =>
    match o with
    | .vcmp =>
      let vb := c.vGet i.b.toNat
      let dz (w : W32) : W32 := BitVec.ofNat 32 (dazIf z w.toNat)
      some (.preg (d % 8) g (predOf fun k => vcmpCond i.cc (dz (lane va k)) (dz (lane vb k))), none)
    | .vcvt =>
      let core := if srGlobal s pk i.tensor then 0x1000 else lc
      let base := c.sGet i.b.toNat
      let r := vcvt z i.fmtA (scaleExp s (coreScale pk i.tensor)) g
        (fun k => rndOf s i.rndV core (base + BitVec.ofNat 64 k)) va
      some (.vreg d (BitVec.allOnes 64) r.1 [], some (i.tensor, r.2))
    | .vcvtw => some (.vreg d g (ofLanes fun k => vcvtw z i.fmtA (scaleExp s (coreScale pk i.tensor)) va k) [], none)
    | .vrsum => some (.vreg d (BitVec.allOnes 64) (ofLanes fun k => if k = 0 then vrsum z va else 0) [], none)
    | .vrmax => some (.vreg d (BitVec.allOnes 64) (ofLanes fun k => if k = 0 then vrmax z va else 0) [], none)
    | _ => none

end Sys2Proof.Machine
end

