-- ==== Sys2Proof/Machine/ArrayMath.lean ====
section
/-! DEFINITION. What a matrix array computes: partitions (R146, R147), feeding (R134, R136, R149, R208), column sums
(R177 to R179, R197), landing in a bank (R176), and the values of readout (R180 to R184). -/

namespace Sys2Proof.Machine

/-! ### Partitions -/

/-- Array rows and columns of partition p: first row, rows, first column, columns (R146). -/
def partGeom (mode p : Nat) : Nat × Nat × Nat × Nat :=
  match mode with
  | 0 => (0, 64, 0, 64)
  | 1 => (0, 64, 32 * p, 32)
  | _ => (32 * (p / 2), 32, 32 * (p % 2), 32)

/-- Number of partitions of a mode. -/
def partCount (mode : Nat) : Nat := if mode = 0 then 1 else if mode = 1 then 2 else 4

/-- Key of a bank entry, and of a bank of a partition. -/
def bankKey (bank row col : Nat) : Nat := bank * 4096 + row * 64 + col
def scopeKey (p bank : Nat) : Nat := p * 4 + bank

def Core.arrN (c : Core) (n : Nat) : Arr := if n = 0 then c.arr0 else c.arr1
def Core.putArr (c : Core) (n : Nat) (a : Arr) : Core := if n = 0 then { c with arr0 := a } else { c with arr1 := a }
def modArr (s : State) (pk n : Nat) (f : Arr → Arr) : State := modCore s pk fun c => c.putArr n (f (c.arrN n))
def arrBlk (pk n : Nat) : Nat := arrBase (pk / 272) (pk % 272) n

/-- Bad physical columns of an array, and its row fault (R160). -/
def badCols (s : State) (pk n : Nat) : List Nat :=
  let b := arrBlk pk n
  let w := (regGet s (b + 0x10)).toNat + (regGet s (b + 0x18)).toNat * 2 ^ 64
  (List.range 66).filter fun i => w.testBit i
def rowFault (s : State) (pk n : Nat) : Bool := fbit s (arrBlk pk n + 0x18) 63

/-- The physical columns that stand for logical columns 0, 1, …: the first 64 that are not bad, in ascending order (R133); none in an
array with a row fault (R160). DEDUCED: log entry 37. -/
def columnMap (s : State) (pk n : Nat) : List Nat :=
  if rowFault s pk n then [] else ((List.range 66).filter fun i => !(badCols s pk n).contains i).take 64

/-- Working columns of an array, as its last rebuild point found them (R150, R160, R163). DEDUCED: log entry 37. -/
def Arr.width (a : Arr) : Nat := a.cols.length

/-- Does logical column j exist in an array of width w (R163)? -/
def colExists (w : Nat) (bf : Bool) (j : Nat) : Bool := if bf then 4 * (j % 16) + 3 < w else j < w

/-- Enabled columns of a partition under a column mask. DEDUCED: log entry 37. -/
def enabledCols (w : Nat) (bf : Bool) (geom : Nat × Nat × Nat × Nat) (cmask : W64) : List Nat :=
  (List.range geom.2.2.2).filter fun j => cmask.getLsbD j && colExists w bf (geom.2.2.1 + j)

/-- Enabled rows of a partition under a row mask. -/
def enabledRows (geom : Nat × Nat × Nat × Nat) (rmask : W64) : List Nat := (List.range geom.2.1).filter fun k => rmask.getLsbD k

/-! ### Feeding (R136, R137, R149, R208) -/

/-- Address of row k: s[a][47:0] + k × s[b], modulo 2^48. -/
def rowAddr (va vb : W64) (k : Nat) : Nat := (va.toNat % 2 ^ 48 + k * vb.toNat) % 2 ^ 48

/-- A byte that a feeder reads from the host window: what arrived for its address; a byte that did not arrive is poisoned (R486). -/
def hostByte (h : HostFeed) (a : Nat) : PByte :=
  ((h.find? fun c => c.1.toNat ≤ a && a < c.1.toNat + c.2.bytes.length).map fun c =>
    (hostBytes c.2).getD (a - c.1.toNat) (0, true)).getD (0, true)

/-- A feeder's read: from the L1 when every byte is valid there, else from the home (R208), or from the host. -/
def feedRead (s : State) (pk : Nat) (h : HostFeed) (a n : Nat) : State × List PByte :=
  (linesOf a n).foldl (fun r p =>
    let s := r.1
    match place s p.1 with
    | .host bus => (emit s (.hostRead (bus + p.2.1) p.2.2), r.2 ++ (List.range p.2.2).map fun i => hostByte h (p.1 + p.2.1 + i))
    | _ =>
      match ownLine s pk p.1 with
      | some lk =>
        if l1Hit s pk lk p.2.1 p.2.2 then (s, r.2 ++ l1Bytes s pk lk p.2.1 p.2.2)
        else let q := lineRead s p.1 p.2.1 p.2.2; (q.1, r.2 ++ q.2)
      | none => let q := lineRead s p.1 p.2.1 p.2.2; (q.1, r.2 ++ q.2)) (s, [])

/-- First and last member of an ascending list. -/
def spanOf (l : List Nat) : Option (Nat × Nat) :=
  match l with
  | [] => none
  | x :: _ => some (x, l.getLastD x)

/-- Byte ranges that feeding a row reads: offset and length (R149). In MX, the scale and the block of every block that holds an enabled
element. -/
def feedSpans (fmt : Nat) (en : List Nat) : List (Nat × Nat) :=
  if isMx fmt then
    let bs := (List.range 4).filter fun b => en.any fun e => e / 32 = b
    bs.map (fun b => (b, 1)) ++ bs.map fun b => (4 + b * mxBlock fmt, mxBlock fmt)
  else
    match spanOf en with
    | none => []
    | some (lo, hi) => [(lo * fmtBytes fmt, (hi - lo + 1) * fmtBytes fmt)]

/-- Feed a row of n elements at address a, of which `en` are enabled. -/
def feedRow (s : State) (pk : Nat) (h : HostFeed) (fmt n a : Nat) (en : List Nat) : State × Fed :=
  let r := (feedSpans fmt en).foldl (fun (r : State × List (Nat × List PByte)) sp =>
    let q := feedRead r.1 pk h (a + sp.1) sp.2
    (q.1, r.2 ++ [(sp.1, q.2)])) (s, [])
  let byteAt (o : Nat) : PByte :=
    ((r.2.find? fun p => p.1 ≤ o && o < p.1 + p.2.length).map fun p => p.2.getD (o - p.1) (0, false)).getD (0, false)
  let w := if isMx fmt then mxBits fmt else 8 * fmtBytes fmt
  let el (i : Nat) : Nat × Bool :=
    if !en.contains i then (0, false)
    else
      let blk := if isMx fmt then i / 32 else 0
      let bitO := if isMx fmt then 8 * (4 + blk * mxBlock fmt) + w * (i % 32) else w * i
      let o := bitO / 8
      let bs := (List.range ((bitO + w - 1) / 8 - o + 1)).map fun k => byteAt (o + k)
      ((leNat (pdata bs) >>> (bitO % 8)) % 2 ^ w, anyPoison bs || (isMx fmt && (byteAt blk).2))
  (r.1, ⟨(List.range n).map el, if isMx fmt then (List.range (n / 32)).map fun b => (byteAt b).1.toNat else []⟩)

/-- Does the row carry poison into the array? -/
def Fed.bad (f : Fed) : Bool := f.elems.any (·.2)

/-- The violation of a row that starts at address a with enabled spans: class 0x10 (R109, R137). -/
def feedTrap (s : State) (dev a : Nat) (spans : List (Nat × Nat)) : Option Trap :=
  if dev ≠ 0 ∧ dev ≠ 0xFFFF then some ⟨0x10, dev, some a⟩
  else (spans.findSome? fun sp => badAddr s Place.engineOk (a + sp.1) sp.2).map fun b => ⟨0x10, 0xFFFF, some b⟩

/-! ### Column sums -/

/-- Element i of an activation vector, and element of weight row k in column j. -/
def pat (l : List (Nat × Bool)) (i : Nat) : Nat := (l.getD i (0, false)).1

/-- FP8 and INT8 (R177): the LACC sum of a column's exact products. -/
def sumLacc (fa fw : Nat) (v : Fed) (w : WBuf) (rows : List Nat) (j : Nat) : Nat :=
  (rows.foldl (fun acc k =>
    laccAdd acc (laccOf ((elemVal fa (pat v.elems k)).mul (elemVal fw ((w.rows.getD k []).getD j 0))))) (0 : Lacc)).toNat

/-- MX (R178): the block results of output column j, in the order in which they are added. `n` elements. A block without an enabled
element is not read and contributes 0 (R149). -/
def sumMx (fmt : Nat) (v : Fed) (w : WBuf) (rows : List Nat) (n j : Nat) : List Nat :=
  let wr := w.rows.getD j []
  (List.range (n / 32)).map fun b =>
    let sa := v.scales.getD b 0
    let sw := wr.getD (n + b) 0
    if !(rows.any fun k => k / 16 = b) then 0
    else if sa = 255 ∨ sw = 255 then fp32.nanCode
    else
      let sum := (List.range 32).foldl (fun (acc : FVal) i =>
        let e := 32 * b + i
        if rows.contains (e / 2) then acc.add ((elemVal fmt (pat v.elems e)).mul (elemVal fmt (wr.getD e 0))) else acc)
        (FVal.fin false 0 0)
      fp32.rne (sum.scale2 ((sa : Int) + (sw : Int) - 254))

/-- A BF16 product rounded to FP32; under Sloe mode with subnormals replaced (R179, R197). -/
def prodBf (z : Bool) (a w : Nat) : Nat :=
  let d (n : Nat) : FVal := bf16.decode (if z then bf16.daz n else n)
  dazIf z (fp32.rne ((d a).mul (d w)))

/-- BF16 (R179, R197): the values added to the entry in turn: one tree sum, or under Sloe mode one per group of 16. -/
def sumBf (z : Bool) (v : Fed) (w : WBuf) (rows : List Nat) (nrows j : Nat) : List Nat :=
  let leaf (k : Nat) : Nat :=
    if rows.contains k then prodBf z (pat v.elems k) ((w.rows.getD k []).getD j 0) else 0
  let leaves := (List.range nrows).map leaf
  if z then (chunks 16 4 leaves).map fun g => treeSum (fun a b => dazIf true (fp32.add a b)) 4 g
  else [treeSum fp32.add (if nrows = 64 then 6 else 5) leaves]

/-- The values of one column sum, by format pair. -/
def colSum (z : Bool) (fa fw : Nat) (v : Fed) (w : WBuf) (rows : List Nat) (nrows j : Nat) : List Nat :=
  if fa = 1 then sumBf z v w rows nrows j
  else if isMx fa then sumMx fa v w rows (2 * nrows) j
  else [sumLacc fa fw v w rows j]

/-! ### Landing (R176) -/

/-- The kind of bank an MMAC writes: 1 LACC, 2 FP32. -/
def macKind (fa : Nat) : Nat := if fa = 1 ∨ isMx fa then 2 else 1

/-- One value lands in a bank entry. An overwriting BF16 sum replaces the entry; an MX or Sloe chain starts from +0. -/
def Arr.landOne (a : Arr) (l : Land) : Arr :=
  let old := tget 0 a.bank l.key
  let new : Lacc :=
    if l.fp then
      let st := if l.clear then 0 else old.toNat % 2 ^ 32
      match l.clear, l.vals with
      | true, [v] => BitVec.ofNat 96 v
      | _, vs => BitVec.ofNat 96 (vs.foldl (fun x y => dazIf l.daz (fp32.add x y)) st)
    else
      let v : Lacc := BitVec.ofNat 96 (l.vals.headD 0)
      if l.clear then v else laccAdd old v
  let bad := l.poison || (!l.clear && a.poison.contains l.key)
  { a with bank := tset 0 a.bank l.key new, poison := if bad then sadd a.poison l.key else sdel a.poison l.key }

def Arr.landAll (a : Arr) (ls : List Land) : Arr := ls.foldl Arr.landOne a

/-- Make a bank of a partition CLEAR (R176). DEDUCED: log entry 36. -/
def Arr.clearBank (a : Arr) (geom : Nat × Nat × Nat × Nat) (p bank : Nat) : Arr :=
  let inside (k : Nat) : Bool :=
    k / 4096 = bank && geom.1 ≤ k % 4096 / 64 && k % 4096 / 64 < geom.1 + geom.2.1 &&
      geom.2.2.1 ≤ k % 64 && k % 64 < geom.2.2.1 + geom.2.2.2
  { a with bank := a.bank.filter fun e => !inside e.1, poison := a.poison.filter fun k => !inside k
           kind := tdel a.kind (scopeKey p bank) }

/-! ### Readout (R180 to R184) -/

/-- The exact value of an entry with the exponent of its LACC units. DEDUCED: log entry 36. -/
def entryVal (kind : Nat) (v : Nat) (k : Int) : FVal :=
  if kind = 2 then fp32.decode v else (laccVal (BitVec.ofNat 96 v)).scale2 k

/-- Exponents of an MST's entry: e_out for its target, and −(e_a + e_w). -/
def mstExps (s : State) (pk t fmt : Nat) : Int × Int :=
  let o := coreScale pk t
  (if scaled fmt then scaleExp s o else 0, -(coreExp s pk (fget s o 55 48) + coreExp s pk (fget s o 63 56)))

/-- Is the target of an MST rounded, so that it captures (R187)? -/
def mstCaptures (fmt mode : Nat) : Bool := !isLacc fmt && mode = 0

/-- Encode one bank row to memory bytes: the pieces to write (offset, bytes), and what is captured. `vals` holds the
enabled columns. -/
def mstRow (z : Bool) (fmt kind : Nat) (exps : Int × Int) (rnd : Nat → Rnd) (vals : List (Nat × Nat)) :
    List (Nat × List Byte) × Cap × Nat :=
  let real := vals.map fun v => (v.1, entryVal kind v.2 exps.2)
  if isMx fmt then
    let ins := (List.range 64).map fun i => (((real.find? fun v => v.1 = i).map (·.2)).getD (FVal.fin false 0 0), rnd i)
    let r := mxEncode fmt ins
    let ks := (indexed r.2).filterMap fun k => if vals.any (fun v => v.1 = k.1) then some k.2 else none
    let blocks := (List.range 2).filter fun b => vals.any fun v => v.1 / 32 = b
    let pieces := blocks.map (fun b => (b, bytesAt r.1 b 1)) ++ (if blocks.isEmpty then [] else [(2, [0, 0])]) ++
      blocks.map fun b => (4 + b * mxBlock fmt, bytesAt r.1 (4 + b * mxBlock fmt) (mxBlock fmt))
    (pieces, capOf (real.map (·.2)) ks, 0)
  else if fmt = 10 then (vals.map fun v => (12 * v.1, leBytes 12 v.2), Cap.init, 0)
  else if fmt = 11 then
    let r := vals.map fun v => (v.1, laccNarrow (BitVec.ofNat 96 v.2))
    (r.map fun v => (8 * v.1, leBytes 8 v.2.1), Cap.init, (r.filter fun v => v.2.2).length)
  else
    let n := fmtBytes fmt
    let r := real.map fun v => (v.1, encodeOne z fmt (rnd v.1) (v.2.scale2 exps.1))
    (r.map fun v => (n * v.1, leBytes n v.2.1), capOf (real.map (·.2)) (r.map fun v => v.2.2), 0)

/-- Join pieces that touch into runs. -/
def joinPieces (l : List (Nat × List Byte)) : List (Nat × List Byte) :=
  l.foldr (fun p acc =>
    match acc with
    | q :: r => if p.1 + p.2.length = q.1 then (p.1, p.2 ++ q.2) :: r else p :: acc
    | [] => [p]) []

end Sys2Proof.Machine
end

