-- ==== Sys2Proof/Machine/Array.lean ====
section
/-! DEFINITION. The commands of the matrix arrays (R110 to R112, R133 to R166): checks at issue, queues, dispatch, weight
loads, completion with readout, and the rebuild of a partition. -/

namespace Sys2Proof.Machine

/-! ### Issue -/

/-- Window violations of an M-slot instruction at issue (R110, R121, R147, R182). -/
def arrTraps (s : State) (c : Core) (o : KOp) (i : Ins) : List Trap :=
  let a := c.arrN i.arr
  let g := partGeom a.progMode i.part
  let none12 : Trap := ⟨0x12, 0xFFFF, none⟩
  let bad12 : Bool :=
    match o with
    | .mpcfg => false
    | _ =>
      i.part ≥ partCount a.progMode ||
      (match o with
        | .mmac => i.first + i.count > g.2.1 || (sloe s && (i.fmtA ≠ 1 || i.fmtW ≠ 1))
        | .mlda => i.first + i.count > g.2.1
        | .mrdv => (c.sGet i.a.toNat).toNat % 64 ≥ g.2.1 || (sloe s && i.rndM = 1)
        | .mst => sloe s && i.rndM = 1
        | _ => false)
  let full : Bool := if o = .mwld then 2 ≤ a.wq.length else 8 ≤ cqUsed a
  if o = .mgang then [⟨0x1A, 0xFFFF, none⟩]
  else (if bad12 then [none12] else []) ++ (if full then [⟨0x14, 0xFFFF, none⟩] else [])

/-- Masks of a partition in program order (R149). -/
def Arr.mask (a : Arr) (p : Nat) : W64 × W64 := tget (BitVec.allOnes 64, BitVec.allOnes 64) a.masks p

/-- Enter an array command into its queue (R110, R149): program-order mode and masks move at issue. -/
def issueArr (s : State) (pk : Nat) (c0 : Core) (o : KOp) (i : Ins) : State :=
  let va := c0.sGet i.a.toNat
  let vb := c0.sGet i.b.toNat
  let vc := c0.sGet i.c.toNat
  modCore s pk fun c =>
    let id := c.nextId
    let a := c.arrN i.arr
    let m := a.mask i.part
    let q : QCmd := { id := id, op := o, ins := i, va := va, vb := vb, vc := vc, rmask := m.1, cmask := m.2, pc := c.pc,
                      aux := if o = .mswap then tget 0 a.lastMwld i.part else 0, cfg := a.lastCfg, st := 0, buf := 0,
                      kind := 0, land := [], rows := [], bank := scopeKey i.part i.bank,
                      eff := c.effNext, win := none }
    let a := match o with
      | .mpcfg => { a with progMode := i.im 1 0, masks := [], lastMwld := [], lastCfg := id + 1, cq := a.cq ++ [q] }
      | .mmask => { a with masks := tput a.masks i.part (va, vb), cq := a.cq ++ [q] }
      | .mwld => { a with lastMwld := tput a.lastMwld i.part (id + 1), wq := a.wq ++ [q] }
      | .mswap => { a with lastMwld := tdel a.lastMwld i.part, cq := a.cq ++ [q] }
      | _ => { a with cq := a.cq ++ [q] }
    let c := { c.putArr i.arr a with
      nextId := id + 1, effNext := if o = .mst ∧ i.mode = 1 then c.effNext + 1 else c.effNext }
    if o = .mrdv then { c with pend := sadd c.pend i.c.toNat } else c

/-! ### Faults of running commands -/

/-- A command of an array meets a window violation (R127). -/
def arrTrap (s : State) (lc : Nat) (q : QCmd) (t : Trap) : State := windowFault s lc q.pc 1 t.cls t.dev t.addr

/-- Device field of a command's base address. -/
def QCmd.dev (q : QCmd) : Nat := q.va.toNat / 2 ^ 48

/-- Number of elements per activation vector or weight row of a format in a partition (R146). -/
def vecElems (fmt : Nat) (g : Nat × Nat × Nat × Nat) : Nat := if isMx fmt then 2 * g.2.1 else g.2.1

/-- Enabled elements of an activation vector (R149). -/
def enabledElems (fmt : Nat) (g : Nat × Nat × Nat × Nat) (rmask : W64) : List Nat :=
  (List.range (vecElems fmt g)).filter fun e => rmask.getLsbD (if isMx fmt then e / 2 else e)

/-! ### Weight loads (R140, R141, R149) -/

/-- Rows that an MWLD reads: shadow row, the enabled elements of each, and the elements of a row. -/
def mwldRows (w : Nat) (q : QCmd) (g : Nat × Nat × Nat × Nat) : List Nat × List Nat × Nat :=
  let cols := enabledCols w (q.ins.fmtW = 1) g q.cmask
  if isMx q.ins.fmtW then (cols, enabledElems q.ins.fmtW g q.rmask, vecElems q.ins.fmtW g)
  else (enabledRows g q.rmask, cols, g.2.2.2)

/-- The start of row 0 (alignment al) or the stride (alignment st) breaks R137: the first row whose start shows it. DEDUCED: log entry 93. -/
def strideTrap (q : QCmd) (al st : Nat) : Option Trap :=
  if !aligned al (rowAddr q.va q.vb 0) then some ⟨0x11, 0xFFFF, some (rowAddr q.va q.vb 0)⟩
  else if !aligned st q.vb.toNat then some ⟨0x11, 0xFFFF, some (rowAddr q.va q.vb 1)⟩
  else none

/-- First violation of the rows that a command reads or writes, in row order: its mapping, then the alignment of start and stride, whatever
the masks leave of it (R109, R137). DEDUCED: log entry 93. -/
def rowsTrap (s : State) (q : QCmd) (al st : Nat) (rows : List Nat) (spans : List (Nat × Nat)) : Option Trap :=
  match rows with
  | [] => strideTrap q al st
  | k :: rest =>
    match feedTrap s q.dev (rowAddr q.va q.vb k) spans with
    | some t => some t
    | none =>
      match strideTrap q al st with
      | some t => some t
      | none => rest.findSome? fun k => feedTrap s q.dev (rowAddr q.va q.vb k) spans

/-- A row that a feeder reads holds a withheld group of another core (R210), or lies in the host window while reads of the host are held
(R484). -/
def rowsWait (s : State) (lc : Nat) (q : QCmd) (rows : List Nat) (spans : List (Nat × Nat)) : Bool :=
  rows.any fun k => spans.any fun sp =>
    let a := rowAddr q.va q.vb k + sp.1
    withheldFrom s lc a sp.2 || ((busOf s a).isSome && !busMaster s)

/-- Feed the rows of an MWLD: the buffer and the number of rows fed with poison. -/
def mwldLoad (s : State) (pk w : Nat) (h : HostFeed) (q : QCmd) (g : Nat × Nat × Nat × Nat) : State × WBuf × Nat :=
  let p := mwldRows w q g
  let n := if isMx q.ins.fmtW then g.2.2.2 else g.2.1
  let r := (List.range n).foldl (fun (r : State × List (List Nat) × W64 × Nat) k =>
    if p.1.contains k then
      let f := feedRow r.1 pk h q.ins.fmtW p.2.2 (rowAddr q.va q.vb k) p.2.1
      let bad : W64 :=
        if isMx q.ins.fmtW then (if f.2.bad then BitVec.ofNat 64 (2 ^ k) else 0)
        else predOf fun j => (f.2.elems.getD j (0, false)).2
      (f.1, r.2.1 ++ [f.2.elems.map (·.1) ++ f.2.scales], r.2.2.1 ||| bad, r.2.2.2 + b2n f.2.bad)
    else (r.1, r.2.1 ++ [List.replicate (p.2.2 + p.2.2 / 32) 0], r.2.2.1, r.2.2.2)) (s, [], 0, 0)
  (r.1, ⟨1, q.ins.fmtW, r.2.1, r.2.2.1⟩, r.2.2.2)

/-- Append a dispatched command to the rebuild log (R156). -/
def Arr.logCmd (a : Arr) (q : QCmd) : Arr :=
  if 512 ≤ a.log.length then { a with logFull := true } else { a with log := a.log ++ [q] }

/-- The buffer of a partition that is not active (R142). -/
def Arr.spareBuf (a : Arr) (p : Nat) : Nat := 2 * p + (1 - tget 0 a.active p)
def Arr.activeBuf (a : Arr) (p : Nat) : Nat := 2 * p + tget 0 a.active p

/-- No older store of the core waits to be performed (R102). -/
def storesBefore (c : Core) (id : Nat) : Bool := c.wb.all fun e => id < e.id

/-- The MWLD at the head of the weight queue may be fetched: the MPCFG before it has dispatched, and every older store of the core has
been performed (R102, R112). -/
def mwldReady (c : Core) (a : Arr) (q : QCmd) : Bool :=
  q.st = 0 && !(a.cq.any fun x => x.id + 1 = q.cfg) && !(a.run.any fun x => x.op = .mpcfg ∧ x.id + 1 = q.cfg) && storesBefore c q.id

/-- The staging buffer fetches the rows of the MWLD at the head of the weight queue (R140), whatever the state of the weight buffers. UNVERIFIED: log entry 35. -/
def stageMwld (s : State) (pk lc n : Nat) (h : HostFeed) : State :=
  let c := coreOf s pk
  let a := c.arrN n
  match a.wq with
  | [] => s
  | q :: _ =>
    if !mwldReady c a q ∨ a.staging.any (fun x => x.id = q.id) then s
    else
      let pr := mwldRows a.width q (partGeom a.mode q.ins.part)
      let spans := feedSpans q.ins.fmtW pr.2.1
      match rowsTrap s q 4 4 pr.1 spans with
      | some t => arrTrap s lc q t
      | none =>
        if rowsWait s lc q pr.1 spans then s
        else
          let r := mwldLoad s pk a.width h q (partGeom a.mode q.ins.part)
          modArr r.1 pk n fun a => { a with staging := some ⟨q.id, r.2.1, r.2.2⟩ }

/-- The staged MWLD starts to write the non-active buffer of its partition, once that is FREE (R140 to R142). -/
def writeMwld (s : State) (pk n : Nat) : State :=
  let a := (coreOf s pk).arrN n
  match a.wq, a.staging with
  | q :: rest, some g =>
    if g.id ≠ q.id ∨ q.st ≠ 0 ∨ (tget WBuf.init a.bufs (a.spareBuf q.ins.part)).st ≠ 0 then s
    else
      let s := count s (arrBlk pk n) 4 g.bad
      let q := { q with st := 1, buf := a.spareBuf q.ins.part }
      modArr s pk n fun a => ({ a with wq := q :: rest, staging := none, bufs := tput a.bufs q.buf g.buf }).logCmd q
  | _, _ => s

/-- MWLD_START: the head of the weight queue is staged, and written when it may be. -/
def startMwld (s : State) (pk lc n : Nat) (h : HostFeed) : State := writeMwld (stageMwld s pk lc n h) pk n

/-! ### Dispatch (R143) -/

/-- Class 0x12 causes that arise when an MMAC, MLDA or MST dispatches (R111, R176). DESIGN CHOICE: log entry 91. -/
def kindTrap (a : Arr) (q : QCmd) : Bool :=
  let k := tget 0 a.kind q.bank
  match q.op with
  | .mmac => (tget WBuf.init a.bufs (a.activeBuf q.ins.part)).fmt ≠ q.ins.fmtW ||
      (q.ins.mode = 0 && k ≠ 0 && k ≠ macKind q.ins.fmtA)
  | .mlda => q.ins.mode = 0 && k ≠ 0 && k ≠ 1
  | .mst => isLacc q.ins.fmtA && k = 2
  | _ => false

/-- The head may dispatch in CCLK t (R112, R143): the feed of its partition and the readout port are free, the bank rule, the weights of an
MSWAP, the drain before an MPCFG, and the core's older stores. -/
def dispatchOk (t : Nat) (c : Core) (a : Arr) (q : QCmd) : Bool :=
  storesBefore c q.id &&
  (match q.op with
    | .mclr | .mst | .mrdv | .mlda => !(a.run.any fun x => (x.op = .mmac || x.op = .mlda) && x.bank = q.bank)
    | .mswap => !(a.wq.any fun x => x.id + 1 = q.aux)
    | .mpcfg => a.run.isEmpty && a.wq.all (fun x => q.id < x.id)
    | _ => true) &&
  (match q.op with
    | .mmac | .mlda => tget 0 a.feed q.ins.part ≤ t
    | .mst | .mrdv => a.port ≤ t
    | _ => true)

/-- What the feed of an MMAC or MLDA reads of each vector or row: its format, its elements, and those enabled (R146, R149). -/
def feedShape (a : Arr) (q : QCmd) : Nat × Nat × List Nat :=
  let g := partGeom a.mode q.ins.part
  if q.op = .mmac then (q.ins.fmtA, vecElems q.ins.fmtA g, enabledElems q.ins.fmtA g q.rmask)
  else (q.ins.fmtA, g.2.2.2, enabledCols a.width false g q.cmask)

/-- Feed vector or row v of a command from memory. -/
def feedVec (s : State) (pk : Nat) (h : HostFeed) (a : Arr) (q : QCmd) (v : Nat) : State × Fed :=
  let f := feedShape a q
  feedRow s pk h f.1 f.2.1 (rowAddr q.va q.vb v) f.2.2

/-- 128-byte FIFO entries that a vector or row takes (R139). -/
def fifoSize (a : Arr) (q : QCmd) : Nat :=
  let f := feedShape a q
  Nat.max 1 (ceilDiv (if isMx f.1 then mxRowBytes f.1 f.2.1 else f.2.1 * fmtBytes f.1) 128)

/-- Vector v of a command as the FIFO holds it. -/
def Arr.held (a : Arr) (q : QCmd) (v : Nat) : Option Fed := (a.fifo.find? fun x => x.id = q.id && x.v = v).map (·.fed)

/-- Rows of a command that are not in the FIFO. -/
def Arr.toFetch (a : Arr) (q : QCmd) : List Nat := (List.range q.ins.count).filter fun v => (a.held q v).isNone

/-- Violation of rows that an MMAC or MLDA feeds. -/
def feedsTrap (s : State) (a : Arr) (q : QCmd) (rows : List Nat) : Option Trap :=
  let f := feedShape a q
  let al := if q.op = .mmac then 4 else 128
  rowsTrap s q al al rows (feedSpans f.1 f.2.2)

/-- Rows of an MMAC or MLDA wait for a withheld group or for the host. -/
def feedsWait (s : State) (lc : Nat) (a : Arr) (q : QCmd) (rows : List Nat) : Bool :=
  (q.op = .mmac || q.op = .mlda) && rowsWait s lc q rows (feedSpans (feedShape a q).1 (feedShape a q).2.2)

/-- The FIFO fetches vector v of a queued command, when it has room (R139). The Bool says whether fetching goes on. UNVERIFIED: log entry 35. -/
def fifoFetch (pk lc n : Nat) (h : HostFeed) (r : State × Bool) (x : QCmd × Nat) : State × Bool :=
  let s := r.1
  let c := coreOf s pk
  let a := c.arrN n
  let q := x.1
  let used := (a.fifo.map (·.size)).sum
  if !r.2 || 128 < used + fifoSize a q || !storesBefore c q.id || feedsWait s lc a q [x.2] then (s, false)
  else
    match feedsTrap s a q [x.2] with
    | some t => (arrTrap s lc q t, false)
    | none =>
      let f := feedVec s pk h a q x.2
      (modArr f.1 pk n fun a => { a with fifo := a.fifo ++ [⟨q.id, x.2, fifoSize a q, f.2⟩] }, true)

/-- The vectors and rows that the FIFO is to fetch, in compute-queue order; none behind an MPCFG, which empties it (R139, R150). -/
def Arr.wanted (a : Arr) : List (QCmd × Nat) :=
  ((a.cq.takeWhile fun q => q.op ≠ .mpcfg).filter fun q => q.op = .mmac || q.op = .mlda).flatMap fun q =>
    (a.toFetch q).map fun v => (q, v)

/-- The activation FIFO fetches in compute-queue order until it is full (R139). -/
def fifoFill (s : State) (pk lc n : Nat) (h : HostFeed) : State :=
  (((coreOf s pk).arrN n).wanted.foldl (fifoFetch pk lc n h) (s, true)).1

/-- The vectors of an MMAC or the rows of an MLDA enter, each from the FIFO or, past its 128 entries, fetched as the earlier ones leave:
what each lands, and how many carry poison. -/
def feedLands (s : State) (pk : Nat) (h : HostFeed) (a : Arr) (q : QCmd) : State × List Land × Nat :=
  let i := q.ins
  let g := partGeom a.mode i.part
  let z := sloe s
  let clear : Bool := i.mode = 1
  (List.range i.count).foldl (fun (r : State × List Land × Nat) v =>
    let key (j : Nat) := bankKey i.bank (g.1 + i.first + v) (g.2.2.1 + j)
    let f : State × Fed := match a.held q v with
      | some f => (r.1, f)
      | none => feedVec r.1 pk h a q v
    let ls : List Land :=
      if q.op = .mmac then
        let wb := tget WBuf.init a.bufs (a.activeBuf i.part)
        (enabledCols a.width (i.fmtA = 1) g q.cmask).map fun j =>
          ⟨key j, clear, decide (macKind i.fmtA = 2), z, colSum z i.fmtA i.fmtW f.2 wb (enabledRows g q.rmask) g.2.1 j,
            f.2.bad || wb.bad.getLsbD j⟩
      else
        (enabledCols a.width false g q.cmask).map fun j =>
          let e := f.2.elems.getD j (0, false)
          ⟨key j, clear, false, false, [if i.fmtA = 11 then (laccWiden e.1).toNat else e.1], e.2⟩
    (f.1, r.2.1 ++ ls, r.2.2 + b2n f.2.bad)) (s, [], 0)

/-- Vector slots of a command (R144): n × k for an MMAC, n for an MLDA. -/
def feedSlots (s : State) (q : QCmd) : Nat :=
  q.ins.count * (if q.op = .mmac ∧ q.ins.fmtA = 1 then (if sloe s then 64 else 4) else 1)

/-- The issue limit of a core's region (R132, R151). DEDUCED: log entry 28. UNVERIFIED: log entry 35. -/
def arrLimit (s : State) (pk : Nat) : Nat := effLimit s (pk / 272 * 16 + pk % 272 / 17)

/-- CCLK that slots take under an issue limit (R151). UNVERIFIED: log entry 35. -/
def slotSpan (limit slots : Nat) : Nat := ceilDiv (slots * 64) limit

/-- CCLK with an entering vector that slots starting in CCLK t add to those counted up to `till` (R165). UNVERIFIED: log entry 35. -/
def newSlots (limit t till slots : Nat) : Nat :=
  if till ≤ t then slots else Nat.min slots ((t + slotSpan limit slots - till) * limit / 64)

/-- A command takes its slots: they are counted, and its partition's feed is busy until the last (R144, R165). UNVERIFIED: log entry 35. -/
def enterSlots (s : State) (pk n : Nat) (q : QCmd) : State :=
  let a := (coreOf s pk).arrN n
  let k := feedSlots s q
  let l := arrLimit s pk
  let t := cclk s
  modArr (count s (arrBlk pk n) 0 (newSlots l t a.vecEnd k)) pk n fun a =>
    { a with feed := tput a.feed q.ins.part (t + slotSpan l k - 1), vecEnd := Nat.max a.vecEnd (t + slotSpan l k) }

/-- Columns of its partition that an MST stores: those enabled, of which a narrow array has, in a bank of BF16 sums, the output columns of
R163. -/
def mstCols (a : Arr) (q : QCmd) : List Nat :=
  enabledCols a.width (a.bf.contains q.bank) (partGeom a.mode q.ins.part) q.cmask

/-- The rows that an MST or MRDV reads at its dispatch (R145, R149). -/
def readRows (a : Arr) (q : QCmd) : List ReadRow :=
  let i := q.ins
  let g := partGeom a.mode i.part
  let one (k : Nat) (cols : List Nat) : ReadRow :=
    let ks := cols.map fun j => (j, bankKey i.bank (g.1 + k) (g.2.2.1 + j))
    ⟨k, ks.map fun x => (x.1, (tget 0 a.bank x.2).toNat), ks.any fun x => a.poison.contains x.2⟩
  if q.op = .mst then (enabledRows g q.rmask).map fun k => one k (mstCols a q)
  else [one (q.va.toNat % 64) (List.range g.2.2.2)]

/-- Contributions of an MST row under mode 1: offset from the row start, bytes, in groups of 384 bytes for LACC-96 and
lines otherwise (R225). -/
def mstUnit (fmt : Nat) : Nat := if fmt = 10 then 384 else 128
def mstRowBytes (fmt cols : Nat) : Nat := fmtBytes fmt * cols

/-- A reduction unit lies in the fast tier; a LACC-96 group lies in the private part of one column (R224, R225). -/
def reduceOk (s : State) (fmt a n : Nat) : Bool :=
  rangeOk s Place.isFast a n &&
  (fmt ≠ 10 || ((linesOf a n).all fun p => p.1 % 2 ^ 37 < 0x1200000000 &&
    p.1 / 2 ^ 37 = a / 2 ^ 37 && p.1 % 2 ^ 37 / colBytes = a % 2 ^ 37 / colBytes))

/-- Violation of the rows that an MST writes, detected before any line is issued (R137, R224, R225). Mode 0 constrains its stride only. DEDUCED: log entry 93. -/
def mstTrap (s : State) (a : Arr) (q : QCmd) : Option Trap :=
  let i := q.ins
  let g := partGeom a.mode i.part
  let cols := mstCols a q
  let rows := enabledRows g q.rmask
  if i.mode = 0 then
    let spans := if isMx i.fmtA then (if cols.isEmpty then [] else [(0, 4)] ++ (feedSpans i.fmtA cols).filter fun sp => 4 ≤ sp.1)
      else feedSpans i.fmtA cols
    rowsTrap s q 1 4 rows spans
  else
    let bytes := mstRowBytes i.fmtA g.2.2.2
    match rowsTrap s q 128 128 rows [(0, bytes)] with
    | some t => some t
    | none => rows.findSome? fun k =>
        ((List.range (bytes / mstUnit i.fmtA)).find? fun u =>
          !reduceOk s i.fmtA (rowAddr q.va q.vb k + u * mstUnit i.fmtA) (mstUnit i.fmtA)).map fun u =>
            ⟨0x10, 0xFFFF, some (rowAddr q.va q.vb k + u * mstUnit i.fmtA)⟩

/-- Return both arrays of a core from ganged mode (R164). DEDUCED: log entry 39. -/
def endGang (s : State) (pk : Nat) : State :=
  modCore s pk fun c => { c with arr0 := { c.arr0 with gang := 0 }, arr1 := { c.arr1 with gang := 0 } }

/-- The array at a rebuild point of MPCFG (R150): queues stay, everything else starts again in the new mode, on the columns that the repair
map now gives. -/
def Arr.reconfig (a : Arr) (cols : List Nat) (m : Nat) : Arr :=
  { a with mode := m, bufs := [], active := [], bank := [], poison := [], kind := [], bf := [], log := [], logFull := false,
           cols := cols, fifo := [], staging := none, feed := [] }

/-- The array at the start of an attempt (R150): the columns that the repair map gives; the pulp generator and the slots counted go on. -/
def Arr.restart (a : Arr) (cols : List Nat) : Arr := { Arr.init with cols := cols, lfsr := a.lfsr, vecEnd := a.vecEnd }

/-- An MMAC or MLDA marks its bank (R176) and takes its vectors out of the FIFO. -/
def Arr.takes (a : Arr) (q : QCmd) : Arr :=
  { a with kind := tput a.kind q.bank (if q.op = .mlda then 1 else macKind q.ins.fmtA)
           bf := if q.op = .mmac ∧ q.ins.fmtA = 1 then sadd a.bf q.bank else sdel a.bf q.bank
           fifo := a.fifo.filter fun x => x.id ≠ q.id }

/-- Carry out the command q, which has left the head of the compute queue. UNVERIFIED: log entry 35. -/
def runArr (s : State) (pk lc n : Nat) (h : HostFeed) (q : QCmd) : State :=
  let a := (coreOf s pk).arrN n
  let i := q.ins
  let trap12 : Trap := ⟨0x12, 0xFFFF, none⟩
  let done (s : State) (q : QCmd) (f : Arr → Arr) : State :=
    modArr s pk n fun a => let a := f a; { a with run := a.run ++ [{ q with st := 1 }] }
  match q.op with
  | .mpcfg => done (endGang s pk) q fun a => a.reconfig (columnMap s pk n) (i.im 1 0)
  | .mswap =>
    if q.aux = 0 then arrTrap s lc q trap12
    else done s q fun a =>
      let old := a.activeBuf i.part
      let new := a.spareBuf i.part
      ({ a with bufs := tput (tdel a.bufs old) new { tget WBuf.init a.bufs new with st := 3 }
                active := tset 0 a.active i.part (1 - tget 0 a.active i.part) }).logCmd q
  | .mclr => done s q fun a => (a.clearBank (partGeom a.mode i.part) i.part i.bank).logCmd q
  | .mmac | .mlda =>
    if kindTrap a q then arrTrap s lc q trap12
    else
      match feedsTrap s a q (a.toFetch q) with
      | some t => arrTrap s lc q t
      | none =>
        let r := feedLands s pk h a q
        let s := enterSlots (count r.1 (arrBlk pk n) 4 r.2.2) pk n q
        done s { q with land := r.2.1 } fun a => (a.takes q).logCmd q
  | .mst =>
    if kindTrap a q then arrTrap s lc q trap12
    else
      match mstTrap s a q with
      | some t => arrTrap s lc q t
      | none => done s { q with rows := readRows a q, kind := tget 0 a.kind q.bank, win := busOf s 0x400000000000 } fun a =>
          { a with port := cclk s + 64 }
  | .mrdv => done s { q with rows := readRows a q, kind := tget 0 a.kind q.bank } fun a => { a with port := cclk s + 2 }
  | _ => done s q id

/-- The head of the compute queue dispatches, when it may (R143): a vector that is not in the FIFO holds it up unless it is one that the FIFO
has no room for. -/
def dispatchHead (s : State) (pk lc n : Nat) (h : HostFeed) : State :=
  let c := coreOf s pk
  let a := c.arrN n
  match a.cq with
  | [] => s
  | q :: rest =>
    if !dispatchOk (cclk s) c a q ∨ feedsWait s lc a q (a.toFetch q) then s
    else runArr (modArr s pk n fun a => { a with cq := rest }) pk lc n h q

/-- ARRAY_DISPATCH: the FIFO fetches, and the head of the compute queue dispatches unless a fetch met a violation. -/
def dispatchArr (s : State) (pk lc n : Nat) (h : HostFeed) : State :=
  let t := fifoFill s pk lc n h
  if (coreOf t pk).st = (coreOf s pk).st then dispatchHead t pk lc n h else t

/-! ### Completion (R112) -/

/-- The rounding of column i of a readout (R183, R184). -/
def readRnd (s : State) (code core : Nat) (base : W64) (i : Nat) : Rnd := rndOf s code core (base + BitVec.ofNat 64 i)

/-- Element index of column 0 of bank row k of an MST (R184). -/
def mstBase (q : QCmd) (k : Nat) : W64 :=
  let fmt := q.ins.fmtA
  q.vc + BitVec.ofNat 64 (if isMx fmt then k * 64 * (q.vb.toNat / mxRowBytes fmt 64) else k * (q.vb.toNat / fmtBytes fmt))

/-- Write bytes of an MST row at an address: memory, or the host at the address that the row was translated to (R36). -/
def mstWrite (s : State) (win : Option Nat) (a : Nat) (bs : List Byte) : State :=
  if 0x400000000000 ≤ a ∧ a < 0x7F0000000000 then
    match win with
    | some w => toHost s (.hostWrite (w + (a - 0x400000000000)) bs false)
    | none => s
  else memWrite s a (clean bs)

/-- Issue one row of an MST under mode 1 as contributions (R224, R225): each counts its lines as effects (R78). -/
def mstReduce (s : State) (lc eff fmt a : Nat) (pieces : List (Nat × List Byte)) (bytes : Nat) : State :=
  let whole := pieces.foldl (fun (row : List Byte) p => row.take p.1 ++ p.2 ++ row.drop (p.1 + p.2.length))
    (List.replicate bytes 0)
  (List.range (bytes / mstUnit fmt)).foldl (fun s u =>
    let o := u * mstUnit fmt
    let e := takeEffect s lc eff false (mstUnit fmt / 128)
    if e.2 then
      match place e.1 (a + o) with
      | .fast k => acceptContrib e.1 (k / 128) fmt ((whole.drop o).take (mstUnit fmt)) []
      | _ => e.1
    else e.1) s

/-- An MST writes its rows in order; the first poisoned row is a consume fault (R154). The Bool says that it completed. -/
def mstRows (pk lc : Nat) (z : Bool) (q : QCmd) (cols : Nat) : List ReadRow → State → Cap × Nat → State × (Cap × Nat) × Bool
  | [], s, acc => (s, acc, true)
  | r :: rest, s, acc =>
    let a := rowAddr q.va q.vb r.row
    if r.poison then (consumeFault s lc q.pc 1 1 none (some a), acc, false)
    else
      let i := q.ins
      let core := if srGlobal s pk i.tensor then 0x1000 else lc
      let m := mstRow z i.fmtA q.kind (mstExps s pk i.tensor i.fmtA) (readRnd s i.rndM core (mstBase q r.row)) r.vals
      let s :=
        if i.mode = 1 then mstReduce s lc q.eff i.fmtA a m.1 (mstRowBytes i.fmtA cols)
        else (joinPieces m.1).foldl (fun s p => mstWrite s q.win (a + p.1) p.2) s
      mstRows pk lc z q cols rest s (acc.1.join m.2.1, acc.2 + m.2.2)

/-- The v register that an MRDV writes (R110, R147, R180): lanes at and above the partition's width are 0. -/
def mrdvWrite (s : State) (lc : Nat) (q : QCmd) (r : ReadRow) : RegW :=
  .vreg q.ins.c.toNat (BitVec.allOnes 64) (ofLanes fun j =>
    match r.vals.find? fun v => v.1 = j with
    | some v => BitVec.ofNat 32 (fp32.ofVal (readRnd s q.ins.rndM lc q.vb j) (entryVal q.kind v.2 0)).1
    | none => 0) []

/-- Remove a command from the array's lists. -/
def Arr.retire (a : Arr) (id : Nat) : Arr :=
  { a with run := a.run.filter fun x => x.id ≠ id, wq := a.wq.filter fun x => x.id ≠ id }

/-- Complete a dispatched command: its results land, its pending register is written, its token increments. -/
def finishArr (s : State) (pk lc n : Nat) (q : QCmd) : State :=
  let i := q.ins
  let retired (s : State) : State := tokDone (modArr s pk n fun a => a.retire q.id) lc i
  match q.op with
  | .mwld => retired (modArr s pk n fun a =>
      { a with bufs := tput a.bufs q.buf { tget WBuf.init a.bufs q.buf with st := 2 } })
  | .mmac | .mlda => retired (modArr s pk n fun a => a.landAll q.land)
  | .mst =>
    let chain := scaleChain s pk i.tensor
    if chain.any (scaleBad s pk) then scaleLost s lc
    else
    let s := chain.foldl (fun s t => scaleFix s pk t) s
    let cols := (partGeom ((coreOf s pk).arrN n).mode i.part).2.2.2
    let r := mstRows pk lc (sloe s) q cols q.rows s (Cap.init, 0)
    if !r.2.2 then r.1
    else
      let s := modCore r.1 pk fun c =>
        let c := if mstCaptures i.fmtA i.mode then stageCap c i.tensor r.2.1.1 else c
        { c with stageUnfit := c.stageUnfit + r.2.1.2 }
      retired s
  | .mrdv =>
    match q.rows with
    | r :: _ =>
      if r.poison then consumeFault s lc q.pc 1 1 none none
      else
        let w := mrdvWrite s lc q r
        retired (modCore s pk fun c => { c with pend := sdel c.pend i.c.toNat }.land w)
    | [] => retired s
  | _ => retired s

/-- Commands that may complete: the MWLD that writes, then the dispatched commands; MMACs and MLDAs of a partition
complete in order (R112, R138). -/
def completable (a : Arr) (k : Nat) : Option QCmd :=
  let l := (a.wq.filter fun x => x.st ≠ 0) ++ a.run
  match l[k]? with
  | none => none
  | some q =>
    if (q.op = .mmac ∨ q.op = .mlda) ∧
        (a.run.any fun x => (x.op = .mmac || x.op = .mlda) && x.ins.part = q.ins.part && x.id < q.id) then none
    else some q

/-! ### Partition faults (R155 to R159) -/

/-- Bring a logged command's effect on a partition up to date, as its first execution did (R157): its operands are read again, its vectors
and its poisoned rows count again. DEDUCED: log entry 38. DEDUCED: log entry 81. -/
def replayLogged (pk n : Nat) (h : HostFeed) (s : State) (q : QCmd) : State :=
  let a := (coreOf s pk).arrN n
  let i := q.ins
  match q.op with
  | .mwld =>
    let r := mwldLoad s pk a.width h q (partGeom a.mode i.part)
    let live := a.wq.any fun x => x.id = q.id
    modArr (count r.1 (arrBlk pk n) 4 r.2.2) pk n fun a =>
      { a with bufs := tput a.bufs q.buf { r.2.1 with st := if live then 1 else 2 } }
  | .mswap => modArr s pk n fun a =>
      let old := a.activeBuf i.part
      let new := a.spareBuf i.part
      { a with bufs := tput (tdel a.bufs old) new { tget WBuf.init a.bufs new with st := 3 }
               active := tset 0 a.active i.part (1 - tget 0 a.active i.part) }
  | .mclr => modArr s pk n fun a => a.clearBank (partGeom a.mode i.part) i.part i.bank
  | .mmac | .mlda =>
    let r := feedLands s pk h a q
    modArr (enterSlots (count r.1 (arrBlk pk n) 4 r.2.2) pk n q) pk n fun a =>
      let a := a.takes q
      if a.run.any fun x => x.id = q.id then
        { a with run := a.run.map fun x => if x.id = q.id then { x with land := r.2.1 } else x }
      else a.landAll r.2.1
  | _ => s

/-- Rebuild a partition from the log (R157): its FIFO entries are discarded, its buffers and bank view start again, and its logged commands
run in order. DEDUCED: log entry 38. DEDUCED: log entry 81. -/
def rebuildPart (s : State) (pk n p : Nat) (h : HostFeed) : State :=
  let a := (coreOf s pk).arrN n
  let g := partGeom a.mode p
  let s := modArr s pk n fun a =>
    let a := (List.range 4).foldl (fun a b => a.clearBank g p b) a
    { a with bufs := tdel (tdel a.bufs (2 * p)) (2 * p + 1), active := tdel a.active p
             fifo := a.fifo.filter fun x => !(a.cq.any fun q => q.id = x.id && q.ins.part = p) }
  let s := (a.log.filter fun q => q.ins.part = p).foldl (replayLogged pk n h) s
  count (fset s (arrBlk pk n) (8 + p) (8 + p) 1) (arrBlk pk n) 2 1

/-- An uncontained error: class 0x04 at the command concerned, of partition p when the site names one (R155). -/
def uncontained (s : State) (pk lc n : Nat) (p : Option Nat) : State :=
  let a := (coreOf s pk).arrN n
  let q := (a.run ++ a.wq ++ a.cq).find? fun x => p.all fun p => x.ins.part = p
  let pc := (q.map (·.pc)).getD (coreOf s pk).pc
  let s := count (fset s (arrBlk pk n) 7 7 1) (arrBlk pk n) 3 1
  consumeFault s lc pc 1 4 none none

end Sys2Proof.Machine
end

