-- ==== Sys2Proof/Machine/CoreStart.lean ====
section
/-! DEFINITION. The start of engine commands (R114, R128): ROWOP and ROWMODE enter a channel's queue (R247 to R254), ATTCMD and
PFXWALK the cluster's attention engine (R266), COLL the tower's collective engine (R368, R373), and RWAKE begins to
un-gate a region (R400, R401). DMA and DMAR only start; their data move when they complete. -/

namespace Sys2Proof.Machine

/-- Mark an engine command with a state: 1 started, 2 its requests have been sent. -/
def engMark (s : State) (lc id st : Nat) : State :=
  modCoreL s lc fun c => { c with eng := c.eng.map fun q => if q.id = id then { q with st := st } else q }

/-- An engine command of a core meets a window violation (R127): X slot, its own pc. -/
def engTrap (s : State) (lc pc : Nat) (t : Trap) : State := windowFault s lc pc 3 t.cls t.dev t.addr

/-- A fault of a core with no data address. -/
def bare (cls : Nat) : Trap := ⟨cls, 0xFFFF, none⟩

/-- The descriptor address of a command in s[a]: bits [63:48] must name the module itself. -/
def descTrap (va : W64) : Option Trap :=
  let dev := va.toNat / 2 ^ 48
  if dev = 0 ∨ dev = 0xFFFF then none else some ⟨0x10, dev, some (va.toNat % 2 ^ 48)⟩

/-! ### Rowan (R247 to R254) -/

/-- Read a Rowan descriptor's entries. -/
def rowEnts (b : List Byte) : List RowEnt :=
  (List.range (leAt b 1 1)).map fun j =>
    let w0 := leAt b (16 + 16 * j) 8
    let w1 := leAt b (24 + 16 * j) 8
    ⟨bits w0 7 0, bits w0 33 16, bits w0 51 34, bits w1 17 0, bits w1 35 18⟩

/-- Rows that an entry names: the destination and its sources. -/
def entRows (e : RowEnt) : List Nat := e.dst :: rowSources e

/-- Reserved fields and codes of an entry, and source fields that its operation does not use (R251, R252). -/
def entReservedOk (b : List Byte) (j : Nat) (e : RowEnt) : Bool :=
  let w0 := leAt b (16 + 16 * j) 8
  let w1 := leAt b (24 + 16 * j) 8
  bits w0 15 8 = 0 && bits w0 63 52 = 0 && bits w1 63 36 = 0 && 1 ≤ e.op && e.op ≤ 8 &&
    (match e.op with
      | 1 | 2 | 3 => e.c = 0
      | 4 | 6 => e.b = 0 && e.c = 0
      | 5 => true
      | _ => e.a = 0 && e.b = 0 && e.c = 0)

/-- Start a ROWOP (R251, R253): read its descriptor, check it whole, and queue it at the channel. -/
def startRowop (s : State) (lc : Nat) (q : QCmd) : State :=
  let t := lc / 256
  let a := q.va.toNat % 2 ^ 48
  let fail (x : Trap) : State := engTrap s lc q.pc x
  match descTrap q.va with
  | some x => fail x
  | none =>
    if !rangeOk s (Place.inTower t) a 16 then fail ⟨0x10, 0xFFFF, some a⟩
    else if !aligned 128 a then fail ⟨0x11, 0xFFFF, some a⟩
    else
      let h := memRead s a 16
      let n := leAt (pdata h.2) 1 1
      if anyPoison h.2 then consumeFault h.1 lc q.pc 3 1 (some a) (some a)
      else if n = 0 ∨ 64 < n ∨ (pdata h.2).drop 2 ≠ List.replicate 14 0 then engTrap h.1 lc q.pc ⟨0x12, 0xFFFF, some a⟩
      else if !rangeOk s (Place.inTower t) a (16 + 16 * n) then fail ⟨0x10, 0xFFFF, badAddr s (Place.inTower t) a (16 + 16 * n)⟩
      else
        let r := memRead h.1 (a + 16) (16 * n)
        let s := r.1
        let b := pdata h.2 ++ pdata r.2
        let es := rowEnts b
        let ch := chanOf s t (leAt b 0 1)
        let rows := es.flatMap entRows
        let priv := privBytes (poolUnits s t)
        let bad (c : Nat) : State := engTrap s lc q.pc ⟨c, 0xFFFF, some a⟩
        if anyPoison r.2 then consumeFault s lc q.pc 3 1 (some a) (some a)
        else if rows.any (fun ra => priv < (ra + 1) * 2048) then bad 0x10
        else if !((indexed es).all fun e => entReservedOk b e.1 e.2) then bad 0x12
        else if !(es.all fun e => (entRows e).all fun ra => sameSub e.dst ra) then bad 0x12
        else if modeAtEnd s ch ≠ 2 then bad 0x12
        else chanPush (engMark s lc q.id 1) ch ⟨lc, q.id, 0, es⟩

/-- Start a ROWMODE (R247): it takes its place in the channel's queue. -/
def startRowmode (s : State) (lc : Nat) (q : QCmd) (kind : Nat) : State :=
  chanPush (engMark s lc q.id 1) (chanOf s (lc / 256) (q.va.toNat % 256)) ⟨lc, q.id, kind, []⟩

/-! ### Attention (R266) -/

/-- Attention engine of a core: tower × 16 + cluster. -/
def attIdx (lc : Nat) : Nat := lc / 16

def attAt (s : State) (e : Nat) : AttEng := tget AttEng.init s.att e
def modAtt (s : State) (e : Nat) (f : AttEng → AttEng) : State := { s with att := tput s.att e (f (attAt s e)) }

/-- Own cluster's CMEM aperture or the fast tier of the own tower (R267). -/
def Place.ownCluster (e : Nat) : Place → Bool
  | .fast k => keyTower k = e / 16
  | .cmem a => (a - 0x20000000000) / 0x1000000 = e / 16 * 256 + e % 16
  | _ => false

/-- What an engine command meets: a window violation, poison at an address, or a parity error of the engine's own buffers. -/
inductive EngErr where
  | trap (t : Trap)
  | poison (addr : Nat)
  | parity
deriving DecidableEq, Repr

/-- Report what an engine command of a core met (R127, R270). -/
def engErr (s : State) (lc pc : Nat) : EngErr → State
  | .trap t => engTrap s lc pc t
  | .poison a => consumeFault s lc pc 3 1 (some a) (some a)
  | .parity => consumeFault s lc pc 3 2 none none

/-- Address of the first poisoned byte of a list that starts at a. -/
def firstPoison (a : Nat) (l : List PByte) : Option EngErr := (l.findIdx? (·.2)).map fun i => .poison (a + i)

/-- A share starts again as attempt 0: what its abandoned commands still do counts apart from the new attempt's copies (R292). DEDUCED: log entry 43. -/
def attRestart (s : State) (lc : Nat) : State :=
  modAtt s (attIdx lc) fun x =>
    { x with queue := x.queue.map fun q => if q.core = lc then { q with att := q.att + 4 } else q
             ords := x.ords.map fun o => if o.1 / 65536 = lc then (lc * 65536 + (o.1 + 4) % 65536, o.2) else o }

/-- Remove a command from an attention engine's queue. -/
def attDrop (s : State) (e : Nat) (q : AttCmd) : State :=
  modAtt s e fun x => { x with queue := x.queue.filter fun r => !(r.core = q.core && r.att = q.att && r.id = q.id) }

/-- A command of the engine met an error: it leaves the queue; an abandoned command reports nothing. DEDUCED: log entry 43. -/
def attErr (s : State) (e : Nat) (q : AttCmd) (x : EngErr) : State :=
  let s := attDrop s e q
  if q.abandoned then s else engErr s q.core q.pc x

/-- The engine reads a descriptor when its command starts (R267, R270). -/
def attRead (s : State) (e : Nat) (q : AttCmd) : State :=
  let a := q.desc % 2 ^ 48
  match descTrap (BitVec.ofNat 64 q.desc) with
  | some x => attErr s e q (.trap x)
  | none =>
    if !rangeOk s (Place.ownCluster e) a 64 then attErr s e q (.trap ⟨0x10, 0xFFFF, some a⟩)
    else if !aligned 64 a then attErr s e q (.trap ⟨0x11, 0xFFFF, some a⟩)
    else
      let r := memRead s a 64
      match firstPoison a r.2 with
      | some x => attErr r.1 e q x
      | none =>
        let b := pdata r.2
        let op := leAt b 0 1
        if !q.walk ∧ (op = 0 ∨ 10 < op) then attErr r.1 e q (.trap ⟨0x12, 0xFFFF, some a⟩)
        else modAtt r.1 e fun x => { x with queue := x.queue.map fun c =>
          if c.core = q.core ∧ c.att = q.att ∧ c.id = q.id then { c with started := true, bytes := b } else c }

/-- Commands start in order of arrival, at most 4 in progress at once (R266). -/
def attAdvance (s : State) (e : Nat) : State :=
  (List.range 4).foldl (fun s _ =>
    match ((attAt s e).queue.take 4).find? fun q => !q.started with
    | some q => attRead s e q
    | none => s) s

/-- Start an ATTCMD or PFXWALK: it arrives at the cluster's engine, whose queue holds 32 entries. -/
def startAtt (s : State) (lc : Nat) (q : QCmd) (walk : Bool) : State :=
  let e := attIdx lc
  if 32 ≤ (attAt s e).queue.length then s
  else
    let s := engMark s lc q.id 1
    let n := (coreL s lc).attempt
    attAdvance (modAtt s e fun x => { x with queue := x.queue ++ [⟨lc, n, q.id, q.pc, q.va.toNat, walk, false, [], false⟩] }) e

/-! ### Collectives (R368, R369, R373) -/

/-- The slot of tower t in entry e of the running plan's collective schedule: offset, count and dtype (R369). -/
def collSlot (p : Plan) (e t : Nat) : Nat × Nat × Nat :=
  let w := leAt p.coll (128 * e + 8 * t) 8
  (bits w 31 0, bits w 47 32, bits w 55 48)

/-- Operation n of a list: kind, tag, count, a, b, len and its reserved bytes. -/
structure CollOp where
  kind : Nat
  tag : Nat
  count : Nat
  a : Nat
  b : Nat
  len : Nat
  rsv : Nat
deriving DecidableEq, Repr

def collOp (p : Plan) (off n : Nat) : CollOp :=
  let o := off + 32 * n
  ⟨leAt p.coll o 1, leAt p.coll (o + 2) 1, leAt p.coll (o + 4) 4, leAt p.coll (o + 8) 8, leAt p.coll (o + 16) 8,
    leAt p.coll (o + 24) 8, leAt p.coll (o + 1) 1 + leAt p.coll (o + 3) 1⟩

/-- Every PUT of the list targets this module (R373). -/
def collLocal (s : State) (p : Plan) (sl : Nat × Nat × Nat) : Bool :=
  (List.range sl.2.1).all fun n =>
    let o := collOp p sl.1 n
    o.kind ≠ 1 || isSelf s (o.a / 2 ^ 48)

def collEng (s : State) (t : Nat) : CollEng := tget CollEng.init s.fab.coll t
def modColl (s : State) (t : Nat) (f : CollEng → CollEng) : State :=
  { s with fab := { s.fab with coll := tput s.fab.coll t (f (collEng s t)) } }

/-- An abandoned run is that of a replayed COLL: the same command of the core's share (R373). -/
def CollRun.replays (r : CollRun) (lc eff : Nat) : Bool := r.core = lc && r.eff = eff && r.abandoned

/-- A COLL that R78 suppresses takes over the run that the abandoned attempt started: it waits for its end, takes its fault, or finds it
done (R373). DEDUCED: log entry 60. -/
def adoptColl (s : State) (t lc : Nat) (q : QCmd) : State :=
  match (collEng s t).faulted.find? fun r => r.replays lc q.eff with
  | some r =>
    let s := modColl s t fun c => { c with faulted := c.faulted.filter fun r => !r.replays lc q.eff }
    match r.fault with
    | some x => engTrap s lc q.pc ⟨x.1, x.2.1, x.2.2⟩
    | none => s
  | none =>
    let take : CollRun → CollRun := fun r => if r.replays lc q.eff then { r with id := q.id, pc := q.pc, abandoned := false } else r
    modColl s t fun c => { c with queue := c.queue.map take }

/-- Start a COLL (R368, R373): the tower's engine accepts it as one reduction effect, when it has room. DEDUCED: log entry 60. -/
def startColl (s : State) (lc : Nat) (q : QCmd) : State :=
  let t := lc / 256
  match runPlan s with
  | none => s
  | some p =>
    let e := q.ins.imm16
    if p.coll.length < 128 * (e + 1) then engTrap s lc q.pc (bare 0x12)
    else
      let sl := collSlot p e t
      if sl.2.1 = 0 then engMark s lc q.id 1
      else
        let f := takeEffect s lc q.eff (!collLocal s p sl) 1
        if !f.2 then adoptColl (engMark f.1 lc q.id 1) t lc q
        else if 16 ≤ (collEng s t).queue.length then s
        else modColl (engMark f.1 lc q.id 1) t fun c => { c with queue := c.queue ++ [⟨lc, q.id, q.pc, e, q.eff, 0, false, none⟩] }

/-! ### Region wake (R129, R400, R401) -/

/-- Regions adjacent to region c of a tower. -/
def adjacent (c : Nat) : List Nat := (if c = 0 then [] else [c - 1]) ++ (if c < 15 then [c + 1] else [])

/-- Start an RWAKE: a PARKED region begins to stage; each adjacent AWAKE region above 48/64 takes the wake staging limit
(R401). A region that is awake needs nothing. -/
def startWake (s : State) (lc : Nat) (q : QCmd) : State :=
  let t := lc / 256
  let c := q.ins.im 3 0
  let r := t * 16 + c
  let s := engMark s lc q.id 1
  if regionState s r = 2 then
    let hot := (adjacent c).filter fun d => regionState s (t * 16 + d) = 0 && 48 < effLimit s (t * 16 + d)
    let s := setRegionState (count s (pwtBase t) 0 1) r 1
    let s := hot.foldl (fun s d =>
      let s := { s with pwr := { s.pwr with wakeLimit := tput s.pwr.wakeLimit (t * 16 + d) (s.now + 2000) } }
      let s := fset (fset s (regionReg (t * 16 + d)) 30 30 1) (regionReg r) 30 30 1
      notice (count s (pwtBase t) 1 1) 0x0203 1 c t (c + d * 16)) s
    { s with pwr := { s.pwr with staging := s.pwr.staging ++ [⟨r, s.now + 2000, lc, q.id⟩] } }
  else if regionState s r = 1 then
    { s with pwr := { s.pwr with staging := s.pwr.staging ++
      [⟨r, ((s.pwr.staging.find? fun x => x.region = r).map (·.until_)).getD s.now, lc, q.id⟩] } }
  else s

/-! ### Starting in issue order (R114) -/

/-- Start one engine command. -/
def startCmd (s : State) (lc : Nat) (q : QCmd) : State :=
  match q.op with
  | .rowop => startRowop s lc q
  | .rowmodeEnter => startRowmode s lc q 1
  | .rowmodeExit => startRowmode s lc q 2
  | .attcmd => startAtt s lc q false
  | .pfxwalk => startAtt s lc q true
  | .coll => startColl s lc q
  | .rwake => startWake s lc q
  | _ => engMark s lc q.id 1

/-- Has an engine command of a core started? -/
def engStarted (s : State) (lc id : Nat) : Bool := (coreL s lc).eng.any fun q => q.id = id && q.st ≠ 0

/-- Start the core's waiting engine commands in issue order, each once every older store has been performed (R102,
R207). -/
def startEngine (s : State) (lc : Nat) : State :=
  let go := ((coreL s lc).eng.filter fun q => q.st = 0).foldl (fun (r : State × Bool) q =>
    if !r.2 then r
    else
      let c := coreL r.1 lc
      if !storesBefore c q.id ∨ !(c.st = .run ∨ c.st = .commit) then (r.1, false)
      else
        let s := startCmd r.1 lc q
        (s, engStarted s lc q.id)) (s, true)
  go.1

end Sys2Proof.Machine
end

