-- ==== Sys2Proof/Machine/AttMath.lean ====
section
/-! DEFINITION. The arithmetic of the attention engine (R274 to R279): FP32, rounding to nearest even, subnormals kept,
with the special functions of VSFU. Values are FP32 patterns. -/

namespace Sys2Proof.Machine

def f32One : Nat := 0x3F800000
def f32NegInf : Nat := 0xFF800000

/-- A list of FP32 patterns from bytes, and back. -/
def f32List (b : List Byte) : List Nat := (chunks 4 b.length b).map leNat
def f32Bytes (l : List Nat) : List Byte := (l.map (leBytes 4)).flatten

/-- Equality of numbers, as C compares them. -/
def f32Eq (a b : Nat) : Bool := (fp32.decode a).eqv (fp32.decode b)

/-- exp(m − n), 1 when both are equal (R275, R277). -/
def attScale (m n : Nat) : Nat := if f32Eq m n then f32One else sfuExp (fp32.sub m n)

/-- Levels of the fixed pairwise tree over w values padded to a power of two (R275). -/
def treeLevels (w : Nat) : Nat := Nat.log2 (2 * w - 1)

/-- tree_sum of R275. -/
def padSum (l : List Nat) : Nat :=
  let k := treeLevels l.length
  treeSum fp32.add k (l ++ List.replicate (2 ^ k - l.length) 0)

/-- Element (r, c) is masked (R274). -/
def attMasked (causal : Bool) (sv x y r c : Nat) : Bool := sv ≤ c || (causal && x + r < y + c)

/-- A row of P: the patterns in fmt of exp(scaled score − m) where not masked (R275, R279). -/
def probRow (fmt m : Nat) (zero : Bool) (sc : List (Option Nat)) : List Nat :=
  sc.map fun v => match v with
    | some x => if zero then 0 else (encodeElem fmt .rne (fp32.decode (sfuExp (fp32.sub x m)))).1
    | none => 0

/-- Scaled scores of a row; a masked element is none. -/
def scoreRow (z : Nat) (mask : Nat → Bool) (l : List Nat) : List (Option Nat) :=
  (indexed l).map fun e => if mask e.1 then none else some (fp32.mul e.2 z)

/-- A row of SOFTMAX (R275): the row of P and the new state m, l, alpha. -/
def softmaxRow (fmt z : Nat) (mask : Nat → Bool) (mo lo : Nat) (l : List Nat) : List Nat × Nat × Nat × Nat :=
  let sc := scoreRow z mask l
  let mb := sc.foldl (fun m v => match v with | some x => fp32.max m x | none => m) f32NegInf
  let mn := fp32.max mo mb
  let a := attScale mo mn
  let p := probRow fmt mn false sc
  let t := padSum (p.map fun x => fp32.rne (elemVal fmt x))
  (p, mn, fp32.add (fp32.mul a lo) t, a)

/-- A part of MERGE, row r: m, l and O (R277). -/
structure Part where
  m : Nat
  l : Nat
  o : List Nat
deriving DecidableEq, Repr

/-- merge2 of R277: p absorbs q. -/
def merge2 (p q : Part) : Part :=
  let m := fp32.max p.m q.m
  let cp := attScale p.m m
  let cq := attScale q.m m
  let f (a b : Nat) : Nat := fp32.add (fp32.mul cp a) (fp32.mul cq b)
  ⟨m, f p.l q.l, List.zipWith f p.o q.o⟩

/-- One level of R277 with a gap: part i absorbs part i + gap, for every i a multiple of 2 × gap. -/
def mergeLevel (gap : Nat) (ps : List Part) : List Part :=
  (indexed ps).map fun e =>
    if e.1 % (2 * gap) = 0 then
      match ps[e.1 + gap]? with
      | some q => merge2 e.2 q
      | none => e.2
    else e.2

/-- The merge of one row over k ≤ 16 parts (R277). -/
def mergeRow (ps : List Part) : Part :=
  let go (ps : List Part) (gap : Nat) : List Part := if gap < ps.length then mergeLevel gap ps else ps
  (go (go (go (go ps 1) 2) 4) 8).headD ⟨0, 0, []⟩

/-- Normalised values of a row (R278): O ÷ l, and the row statistic L; a row with l = 0 gives +0 and −infinity. -/
def normRow (p : Part) : List Nat × Nat :=
  if (fp32.decode p.l).isZero then (p.o.map fun _ => 0, f32NegInf)
  else (p.o.map fun x => fp32.div x p.l, fp32.add p.m (sfuLog p.l))

/-- A row of FP32 values converted to fmt under exponent e as VCVT would (R278, R186, R198): its bytes, and what is captured.
An MX row is laid out as one 64-element encoding after another. DEDUCED: log entry 94. -/
def convRow (z : Bool) (fmt : Nat) (e : Int) (l : List Nat) : List Byte × Cap :=
  let vs := l.map fun x => fp32.decode (if z ∧ fmt ≠ 1 then fp32.daz x else x)
  if isMx fmt then
    let r := (chunks 64 l.length vs).map fun c => mxEncode fmt (c.map fun v => (v, Rnd.rne))
    ((r.map (·.1)).flatten, capOf vs (r.map (·.2)).flatten)
  else
    let r := vs.map fun v => encodeOne z fmt .rne (v.scale2 (if scaled fmt then e else 0))
    ((r.map fun x => leBytes (fmtBytes fmt) x.1).flatten, capOf vs (r.map (·.2)))

/-- Bytes of a converted row of d values. -/
def convBytes (fmt d : Nat) : Nat := if isMx fmt then d / 64 * mxRowBytes fmt 64 else d * fmtBytes fmt

/-! ### The prefix hash (R297) -/

/-- Token pairs of a block; an odd last token is paired with 0xFFFF_FFFF. DEDUCED: log entry 44. -/
def pfxPairs : List Nat → List Nat
  | a :: b :: r => (a + b * 2 ^ 32) :: pfxPairs r
  | [a] => [a + 0xFFFFFFFF * 2 ^ 32]
  | [] => []

/-- pfx_hash of R297. DEDUCED: log entry 44. -/
def pfxHash (parent : W64) (tok : List Nat) : W64 :=
  let h := (pfxPairs tok).foldl (fun h w => srMix (h ^^^ BitVec.ofNat 64 w)) (srMix (parent ^^^ 0x3A91C5E70B26D84F#64))
  srMix (h ^^^ BitVec.ofNat 64 tok.length)

end Sys2Proof.Machine
end

