-- ==== Sys2Proof/Machine/AttPool.lean ====
section
/-! DEFINITION. The KV cache (R281 to R296): pools, page descriptors, table versions with their epochs, staged effects, copy on
write, and what a commit applies. -/

namespace Sys2Proof.Machine

/-! ### Pools (R281) -/

/-- Tokens of a page, and bytes of a table slot. -/
def Pool.tpp (p : Pool) : Nat := 65536 / Nat.max 1 p.tokBytes
def Pool.slotBytes (p : Pool) : Nat := ceilDiv (16 + 8 * p.maxPages) 128 * 128
def Pool.slot (p : Pool) (q b : Nat) : Nat := p.table + (2 * q + b) * p.slotBytes

/-! ### Reads that an engine computes on -/

/-- Address of the first poisoned byte of those at a that are used. -/
def usedPoison (a : Nat) (l : List PByte) (used : Nat → Bool) : Option EngErr :=
  ((indexed l).find? fun x => x.2.2 && used x.1).map fun x => .poison (a + x.1)

/-- Read n bytes, of which the engine computes on those that are used: poison in one of them is an error (R270). DEDUCED: log entry 44. -/
def eReadOf (used : Nat → Bool) (s : State) (a n : Nat) : State × Except EngErr (List Byte) :=
  let r := memRead s a n
  match usedPoison a r.2 used with
  | some x => (r.1, .error x)
  | none => (r.1, .ok (pdata r.2))

/-- Read n bytes that the engine computes on. -/
def eRead (s : State) (a n : Nat) : State × Except EngErr (List Byte) := eReadOf (fun _ => true) s a n

/-- Read several ranges, each with the bytes of it that the engine computes on. -/
def eReads (l : List (Nat × Nat × (Nat → Bool))) (s : State) : State × Except EngErr (List (List Byte)) :=
  l.foldl (fun r q =>
    match r.2 with
    | .error x => (r.1, .error x)
    | .ok bs =>
      let d := eReadOf q.2.2 r.1 q.1 q.2.1
      (d.1, d.2.map fun b => bs ++ [b])) (s, .ok [])

/-- The bytes of state records (R274) that hold m and l, and those that hold alpha. -/
def usesMl (i : Nat) : Bool := i % 16 < 8
def usesAlpha (i : Nat) : Bool := 8 ≤ i % 16 && i % 16 < 12

/-! ### Sequences and pages (R283, R284) -/

/-- A table version as a command snapshots it (R285): epoch, slot, length and the entries as page and fill. -/
structure Snap where
  epoch : Nat
  slot : Nat
  len : Nat
  ents : List (Nat × Nat)
deriving DecidableEq, Repr

/-- Take the snapshot of sequence q (R284, R285). A page index outside the pool is no page. -/
def snapshot (s : State) (p : Pool) (q : Nat) : State × Except EngErr Snap :=
  let w := eRead s (p.seq + 8 * q) 8
  match w.2 with
  | .error x => (w.1, .error x)
  | .ok wb =>
    let b := bits (leNat wb) 32 32
    let h := eReadOf (fun i => i < 8) w.1 (p.slot q b) 16
    match h.2 with
    | .error x => (h.1, .error x)
    | .ok hb =>
      let n := Nat.min (leAt hb 0 4) p.maxPages
      let t := eReadOf (fun i => i % 8 < 6) h.1 (p.slot q b + 16) (8 * n)
      match t.2 with
      | .error x => (t.1, .error x)
      | .ok tb =>
        let es := (List.range n).map fun j => (leAt tb (8 * j) 4, leAt tb (8 * j + 4) 2)
        if es.any fun e => p.pages ≤ e.1 then (t.1, .error (.trap (⟨0x12, 0xFFFF, some (p.slot q b)⟩)))
        else (t.1, .ok ⟨bits (leNat wb) 31 0, b, leAt hb 4 4, es⟩)

/-- A page descriptor: address, refcount, flags, gen. -/
structure Page where
  addr : Nat
  ref : Nat
  flags : Nat
  gen : Nat
deriving DecidableEq, Repr

def pageOf (b : List Byte) : Page := ⟨leAt b 0 8, leAt b 8 2, leAt b 10 2, leAt b 12 4⟩
def Page.live (g : Page) : Bool := bit g.flags 0
def Page.onRing (g : Page) : Bool := bit g.flags 1
def Page.perm (g : Page) : Bool := bit g.flags 2
def Page.spare (g : Page) : Bool := g.ref = 0 && !g.onRing && !g.perm

/-- Read the descriptors of pages in committed state. -/
def readPages (p : Pool) : List Nat → State → State × Except EngErr (List Page)
  | [], s => (s, .ok [])
  | i :: r, s =>
    let d := eReadOf (fun i => i < 16) s (p.desc + 32 * i) 32
    match d.2 with
    | .error x => (d.1, .error x)
    | .ok b =>
      let q := readPages p r d.1
      (q.1, q.2.map fun l => pageOf b :: l)

/-- Bytes of a table version (R284). -/
def versionBytes (epoch len : Nat) (ents : List (Nat × Nat)) : List Byte :=
  leBytes 4 ents.length ++ leBytes 4 len ++ leBytes 4 epoch ++ leBytes 4 0 ++
  (ents.map fun e => leBytes 4 e.1 ++ leBytes 2 e.2 ++ leBytes 2 0).flatten

/-! ### Staging (R271) -/

/-- Stage effects of a command; an abandoned command stages nothing. The log holds 1,024 entries. -/
def stageAll (s : State) (e : Nat) (q : AttCmd) (l : List Staged) : State × Option EngErr :=
  if q.abandoned then (s, none)
  else if 1024 < (attAt s e).staged.length + l.length then (s, some (.trap (bare 0x14)))
  else (modAtt s e fun x => { x with staged := x.staged ++ l }, none)

/-- Another engine has edited this sequence in this step (R287). DESIGN CHOICE: log entry 6. -/
def editedElsewhere (s : State) (e : Nat) (p : Pool) (sq : Nat) : Bool :=
  s.att.any fun x => x.1 ≠ e && x.2.edits.any fun y => y.2 = (p.idx, sq)

/-- Edit sequence sq (R286): a second edit, made by another engine, leaves the slot undefined (R287, DESIGN CHOICE: log entry 6); else write the new version into the other slot and stage its publication with other effects. -/
def editSeq (s : State) (e : Nat) (q : AttCmd) (p : Pool) (sq : Nat) (sn : Snap) (len : Nat) (ents : List (Nat × Nat))
    (l : List StagedKind) : State × Option EngErr :=
  let epoch := (sn.epoch + 1) % 2 ^ 32
  let nb := 1 - sn.slot
  let w := BitVec.ofNat 64 (epoch + nb * 2 ^ 32)
  let st := (l ++ [StagedKind.publish sq w]).map fun k => (⟨q.core, p.idx, k⟩ : Staged)
  let r := stageAll s e q st
  match r.2 with
  | some x => (r.1, some x)
  | none =>
    let s := if editedElsewhere r.1 e p sq then fresh (forgetRange r.1 (p.slot sq nb) p.slotBytes)
      else memWrite r.1 (p.slot sq nb) (clean (versionBytes epoch len ents))
    if q.abandoned then (s, none)
    else (modAtt s e fun x => { x with edits := x.edits ++ [(q.core, p.idx, sq)] }, none)

/-- The engine has edited this sequence in this step already (R287). -/
def edited (s : State) (e : Nat) (q : AttCmd) (p : Pool) (sq : Nat) : Bool :=
  !q.abandoned && (attAt s e).edits.any fun x => x.2 = (p.idx, sq)

/-! ### Copy on write (R290 to R292) -/

/-- fold8 of R291. -/
def fold8 (m : Nat) : Nat := bits m 7 0 ^^^ bits m 15 8 ^^^ bits m 19 16

/-- clone_ok of R291. -/
def cloneOk (src dst units : Nat) : Bool :=
  let ms := src / 2 ^ 15
  let md := dst / 2 ^ 15
  let row0 := (288 - 16 * units) * 512
  let rs := row0 + ms / 16
  let rd := row0 + md / 16
  fold8 ms = fold8 md && ms % 16 = md % 16 && rs % 128 = rd % 128 && rs / 2 ^ 14 = rd / 2 ^ 14

/-- Offset of an address in the pooled window of its tower. -/
def pooledOff (a : Nat) : Nat := a % 2 ^ 37 - 0x1800000000

/-- Copy a page by line clone (R291): two lines at each of the tower's 256 home slices. -/
def clonePage (s : State) (t src dst : Nat) : State :=
  let base := privBytes (poolUnits s t)
  let so := base + pooledOff src / 2 ^ 15 * 128
  let do_ := base + pooledOff dst / 2 ^ 15 * 128
  (List.range 256).foldl (fun s l =>
    cloneLines s (chanOf s t l) (so / 2048) (do_ / 2048) (so % 2048 / 128) 2) s

/-- Copy a page by DMA, poison as poison. -/
def copyPage (s : State) (src dst : Nat) : State :=
  let r := memRead s src 65536
  memWrite r.1 dst r.2

/-- Every channel of tower t is in MEMORY. -/
def towerMemory (s : State) (t : Nat) : Bool := (List.range 272).all fun i => chanMode s (t * 272 + i) = 0

/-- The page a copy on write takes (R292): the one bound to its ordinal, or the next of the ring. -/
def takePage (s : State) (e : Nat) (q : AttCmd) (p : Pool) : State × Except EngErr Nat :=
  let x := attAt s e
  let key := q.core * 65536 + q.att
  let ord := tget 0 x.ords key
  let s := modAtt s e fun x => { x with ords := tput x.ords key (ord + 1) }
  match x.binds.find? fun b => b.core = q.core && b.ord = ord with
  | some b => (s, .ok b.page)
  | none =>
    let c := eRead s p.ctrl 8
    match c.2 with
    | .error y => (c.1, .error y)
    | .ok cb =>
      let rk := p.tower * 16 + p.idx
      let n := tget 0 s.ringTaken rk
      let s := c.1
      if unsigned 32 ((leAt cb 4 4 : Int) - leAt cb 0 4) ≤ n then
        (count s (attBase (e / 16) (e % 16)) 8 1, .error (.trap ⟨0x10, 0xFFFF, some p.ring⟩))
      else if 256 ≤ x.binds.length then (s, .error (.trap (bare 0x14)))
      else
        let i := (leAt cb 0 4 + n) % 2 ^ p.ringLog
        let r := eRead s (p.ring + 4 * i) 4
        match r.2 with
        | .error y => (r.1, .error y)
        | .ok rb =>
          let s := { r.1 with ringTaken := tput r.1.ringTaken rk (n + 1) }
          (modAtt s e fun x => { x with binds := x.binds ++ [⟨q.core, ord, p.idx, leNat rb⟩] }, .ok (leNat rb))

/-- Copy an old page to a new one (R290 item 2): the state, and whether line clone was used. -/
def cowCopy (s : State) (e : Nat) (old new : Page) : State × Bool :=
  let t := e / 16
  let ok := cloneOk (pooledOff old.addr) (pooledOff new.addr) (poolUnits s t) && towerMemory s t
  let s := count s (attBase t (e % 16)) 1 1
  if ok then (count (clonePage s t old.addr new.addr) (attBase t (e % 16)) 2 1, true)
  else (copyPage s old.addr new.addr, false)

/-! ### What commit applies (R293, R294) -/

/-- Write the refcount, flags and gen of a page. -/
def putPage (s : State) (p : Pool) (i : Nat) (g : Page) : State :=
  memWrite s (p.desc + 32 * i + 8) (clean (leBytes 2 g.ref ++ leBytes 2 g.flags ++ leBytes 4 g.gen))

def getPage (s : State) (p : Pool) (i : Nat) : State × Page :=
  let r := memRead s (p.desc + 32 * i) 32
  (r.1, pageOf (pdata r.2))

/-- Pool notices and counts stand in the engine of cluster 0 of the pool's tower (R301, R302). -/
def poolNotice (s : State) (p : Pool) (n v : Nat) : State :=
  notice s (0x0D00 + n) 0 0xFFFF p.tower (v + p.idx * 2 ^ 32)
def poolCount (s : State) (p : Pool) (n : Nat) : State := count s (attBase p.tower 0) n 1

/-- A +1 change. -/
def pageInc (p : Pool) (s : State) (i : Nat) : State :=
  let r := getPage s p i
  let g := r.2
  let s := r.1
  if g.perm then s
  else if g.ref = 0xFFFF then
    poolNotice (poolCount (putPage s p i { g with flags := putBits g.flags 2 2 1 }) p 6) p 1 i
  else if g.ref = 0 then
    putPage s p i { g with ref := 1, flags := putBits (putBits g.flags 0 0 1) 1 1 0, gen := (g.gen + 1) % 2 ^ 32 }
  else putPage s p i { g with ref := g.ref + 1 }

/-- A −1 change: the state with the pages that reached 0. -/
def pageDec (p : Pool) (r : State × List Nat) (i : Nat) : State × List Nat :=
  let q := getPage r.1 p i
  let g := q.2
  let s := q.1
  if g.perm then (s, r.2)
  else if g.ref = 0 then
    (poolNotice (poolCount (putPage s p i { g with flags := putBits g.flags 3 3 1 }) p 7) p 2 i, r.2)
  else if g.ref = 1 then (putPage s p i { g with ref := 0, flags := putBits g.flags 0 0 0 }, sadd r.2 i)
  else (putPage s p i { g with ref := g.ref - 1 }, r.2)

/-- Write a list of indices into a ring of 2^log entries from index i. -/
def ringPut (base log : Nat) : List Nat → State → Nat → State
  | [], s, _ => s
  | v :: r, s, i => ringPut base log r (memWrite s (base + 4 * (i % 2 ^ log)) (clean (leBytes 4 v))) (i + 1)

/-- A u32 of the control block. -/
def ctlWord (s : State) (p : Pool) (o : Nat) : State × Nat :=
  let r := memRead s (p.ctrl + o) 4
  (r.1, leNat (pdata r.2))
def putCtlWord (s : State) (p : Pool) (o v : Nat) : State := memWrite s (p.ctrl + o) (clean (leBytes 4 (v % 2 ^ 32)))

/-- A commit leaves the ring below ring_low (R294). -/
def ringWatch (s : State) (p : Pool) : State :=
  let h := ctlWord s p 0
  let t := ctlWord h.1 p 4
  let l := ctlWord t.1 p 16
  let s := l.1
  let level := unsigned 32 ((t.2 : Int) - h.2)
  let k := p.tower * 16 + p.idx
  if level < l.2 then
    if s.ringLow.contains k then s else poolNotice { s with ringLow := sadd s.ringLow k } p 3 level
  else { s with ringLow := sdel s.ringLow k }

/-- The staged effects of a pool, ordered by logical core, then by command order. -/
def poolStaged (s : State) (idx : Nat) : List Staged :=
  let all := (s.att.flatMap fun e => e.2.staged).filter fun x => x.pool = idx
  sortOn (·.core) all

/-- The effects of one pool at a commit (R293). -/
def poolCommit (s : State) (p : Pool) : State :=
  let l := poolStaged s p.idx
  if l.isEmpty then ringWatch s p
  else
    let s := l.foldl (fun s x => match x.kind with | .inc i => pageInc p s i | _ => s) s
    let d := l.foldl (fun r x => match x.kind with | .dec i => pageDec p r i | _ => r) (s, [])
    let rt := ctlWord d.1 p 12
    let s := ringPut p.rel p.relLog d.2 rt.1 rt.2
    let s := if d.2.isEmpty then s else putCtlWord s p 12 (rt.2 + d.2.length)
    let pops := (l.filter fun x => x.kind = .pop).length
    let h := ctlWord s p 0
    let s := if pops = 0 then h.1 else putCtlWord h.1 p 0 (h.2 + pops)
    let pushes := l.filterMap fun x => match x.kind with | .push i => some i | _ => none
    let t := ctlWord s p 4
    let s := ringPut p.ring p.ringLog pushes t.1 t.2
    let s := pushes.foldl (fun s i =>
      let g := getPage s p i
      putPage g.1 p i { g.2 with flags := putBits g.2.flags 1 1 1 }) s
    let s := if pushes.isEmpty then s else putCtlWord s p 4 (t.2 + pushes.length)
    let s := l.foldl (fun s x =>
      match x.kind with
      | .publish sq w => memWrite s (p.seq + 8 * sq) (clean (leBytes 8 w.toNat))
      | _ => s) s
    ringWatch s p

/-- The attention engines' effects at a commit (R293, R292). -/
def attCommit (s : State) (pl : Plan) : State :=
  let ps := sortOn (·.idx) (planPools pl)
  let s := ps.foldl poolCommit s
  { s with ringTaken := []
           att := s.att.map fun e => (e.1, { e.2 with staged := [], binds := [], ords := [], edits := [] }) }

end Sys2Proof.Machine
end

