-- ==== Sys2Proof/Machine/AttOps.lean ====
section
/-! DEFINITION. The operations of an ATTCMD descriptor (R267 to R270, R274 to R279, R285 to R292), each answering the result field
or the error it met. -/

namespace Sys2Proof.Machine

/-- What an operation answers. -/
abbrev AttAns := State × Except EngErr Nat

/-! ### Descriptor fields (R267) -/

def AttCmd.f (q : AttCmd) (o n : Nat) : Nat := leAt q.bytes o n
def AttCmd.op (q : AttCmd) : Nat := q.f 0 1
def AttCmd.flags (q : AttCmd) : Nat := q.f 1 1
def AttCmd.fmt (q : AttCmd) : Nat := q.f 2 1
def AttCmd.pool (q : AttCmd) : Nat := q.f 3 1
def AttCmd.n (q : AttCmd) : Nat := q.f 4 2
def AttCmd.w (q : AttCmd) : Nat := q.f 6 2
def AttCmd.a0 (q : AttCmd) : Nat := q.f 8 8
def AttCmd.a1 (q : AttCmd) : Nat := q.f 16 8
def AttCmd.a2 (q : AttCmd) : Nat := q.f 24 8
def AttCmd.a3 (q : AttCmd) : Nat := q.f 32 8
def AttCmd.x (q : AttCmd) : Nat := q.f 40 4
def AttCmd.y (q : AttCmd) : Nat := q.f 44 4
def AttCmd.z (q : AttCmd) : Nat := q.f 48 4
def AttCmd.s (q : AttCmd) : Nat := q.f 52 4
def AttCmd.at_ (q : AttCmd) : Option Nat := some (q.desc % 2 ^ 48)

/-- Every byte of the descriptor before the result field that lies outside the given fields (offset, length) is 0. DEDUCED: log entry 44. -/
def AttCmd.onlyFields (q : AttCmd) (l : List (Nat × Nat)) : Bool :=
  (List.range 56).all fun i => l.any (fun f => f.1 ≤ i && i < f.1 + f.2) || leAt q.bytes i 1 = 0

/-! ### Checks (R270) -/

/-- The violation of the lowest class, when any condition fails. -/
def pickErr (l : List (Bool × Nat × Option Nat)) : Option EngErr :=
  ((sortOn (fun x => x.2.1) (l.filter fun x => !x.1)).head?).map fun x => .trap ⟨x.2.1, 0xFFFF, x.2.2⟩

/-- The checks of an array: its range in the tower, and its alignment. -/
def arrOk (s : State) (e a n al : Nat) : List (Bool × Nat × Option Nat) :=
  [(a < 2 ^ 48 && rangeOk s (Place.inTower (e / 16)) a n, 0x10, some (((badAddr s (Place.inTower (e / 16)) a n).getD a) % 2 ^ 48)),
   (aligned al a, 0x11, some (a % 2 ^ 48))]

/-- A rule of fields: class 0x12 at the descriptor. -/
def fieldOk (q : AttCmd) (b : Bool) : Bool × Nat × Option Nat := (b, 0x12, q.at_)

/-- Go on when there is no error. -/
def orElse (s : State) (x : Option EngErr) (k : State → AttAns) : AttAns :=
  match x with
  | some e => (s, .error e)
  | none => k s

/-- Go on with the bytes read. -/
def withBytes (r : State × Except EngErr α) (k : State → α → AttAns) : AttAns :=
  match r.2 with
  | .error e => (r.1, .error e)
  | .ok b => k r.1 b

/-! ### SOFTMAX, RECOMP, ACCUM, MERGE -/

/-- Rules of the fields that SOFTMAX and RECOMP share. -/
def softFields (q : AttCmd) : List (Bool × Nat × Option Nat) :=
  [fieldOk q (q.onlyFields [(0, 3), (4, 52)] && q.flags ≤ 3), fieldOk q (1 ≤ q.n && q.n ≤ 64),
   fieldOk q (64 ≤ q.w && q.w ≤ 512 && q.w % 64 = 0), fieldOk q (q.fmt ≤ 3)]

/-- Row r of an array of rows of w elements. -/
def rowOf {α : Type} (l : List α) (w r : Nat) : List α := (l.drop (r * w)).take w

/-- Op 0x01 (R275). -/
def attSoftmax (s : State) (e : Nat) (q : AttCmd) : AttAns :=
  let init := bit q.flags 0
  let mask := attMasked (bit q.flags 1) q.s q.x q.y
  let eb := fmtBytes q.fmt
  let chk := softFields q ++ arrOk s e q.a0 (4 * q.n * q.w) 4 ++ (if init then [] else arrOk s e q.a1 (16 * q.n) 4) ++
    arrOk s e q.a2 (16 * q.n) 4 ++ arrOk s e q.a3 (q.n * q.w * eb) (if q.fmt = 0 then 4 else 1)
  orElse s (pickErr chk) fun s =>
    let sc := memRead s q.a0 (4 * q.n * q.w)
    orElse sc.1 (usedPoison q.a0 sc.2 fun i => !mask (i / 4 / q.w) (i / 4 % q.w)) fun s =>
      withBytes (if init then (s, .ok []) else eReadOf usesMl s q.a1 (16 * q.n)) fun s st =>
        let sv := f32List (pdata sc.2)
        let rows := (List.range q.n).map fun r =>
          softmaxRow q.fmt q.z (mask r) (if init then f32NegInf else leAt st (16 * r) 4)
            (if init then 0 else leAt st (16 * r + 4) 4) (rowOf sv q.w r)
        let s := memWrite s q.a3 (clean ((rows.map fun r => (r.1.map (leBytes eb)).flatten).flatten))
        let s := memWrite s q.a2 (clean ((rows.map fun r => f32Bytes [r.2.1, r.2.2.1, r.2.2.2, 0]).flatten))
        (s, .ok 0)

/-- Op 0x02 (R279). -/
def attRecomp (s : State) (e : Nat) (q : AttCmd) : AttAns :=
  let mask := attMasked (bit q.flags 1) q.s q.x q.y
  let eb := fmtBytes q.fmt
  let chk := softFields q ++ [fieldOk q (q.a2 = 0)] ++ arrOk s e q.a0 (4 * q.n * q.w) 4 ++ arrOk s e q.a1 (4 * q.n) 4 ++
    arrOk s e q.a3 (q.n * q.w * eb) (if q.fmt = 0 then 4 else 1)
  orElse s (pickErr chk) fun s =>
    withBytes (eRead s q.a1 (4 * q.n)) fun s lb =>
      let ls := f32List lb
      let dead (r : Nat) : Bool := ls.getD r 0 = f32NegInf
      let sc := memRead s q.a0 (4 * q.n * q.w)
      orElse sc.1 (usedPoison q.a0 sc.2 fun i => !mask (i / 4 / q.w) (i / 4 % q.w) && !dead (i / 4 / q.w)) fun s =>
        let sv := f32List (pdata sc.2)
        let rows := (List.range q.n).map fun r =>
          probRow q.fmt (ls.getD r 0) (dead r) (scoreRow q.z (mask r) (rowOf sv q.w r))
        (memWrite s q.a3 (clean ((rows.map fun r => (r.map (leBytes eb)).flatten).flatten)), .ok 0)

/-- Op 0x03 (R276). -/
def attAccum (s : State) (e : Nat) (q : AttCmd) : AttAns :=
  let init := bit q.flags 0
  let m := 4 * q.n * q.w
  let chk := [fieldOk q (q.onlyFields [(0, 2), (4, 36)] && q.flags ≤ 1), fieldOk q (1 ≤ q.n && q.n ≤ 64),
      fieldOk q (64 ≤ q.w && q.w ≤ 256 && q.w % 64 = 0)] ++ arrOk s e q.a0 m 4 ++ arrOk s e q.a2 m 4 ++
    (if init then [] else arrOk s e q.a1 m 4 ++ arrOk s e q.a3 (16 * q.n) 4)
  orElse s (pickErr chk) fun s =>
    let all : Nat → Bool := fun _ => true
    withBytes (eReads (if init then [(q.a0, m, all)] else [(q.a0, m, all), (q.a1, m, all), (q.a3, 16 * q.n, usesAlpha)]) s) fun s bs =>
      let pv := f32List (bs.getD 0 [])
      let oi := f32List (bs.getD 1 [])
      let st := bs.getD 2 []
      let out := if init then pv
        else (indexed (pv.zip oi)).map fun x =>
          fp32.add (fp32.mul (leAt st (16 * (x.1 / q.w) + 8) 4) x.2.2) x.2.1
      (memWrite s q.a2 (clean (f32Bytes out)), .ok 0)

/-- Op 0x04 (R277, R278). DEDUCED: log entry 44. -/
def attMerge (s : State) (e : Nat) (q : AttCmd) : AttAns :=
  let norm := bit q.flags 0
  let d := q.w
  let om := 4 * q.n * d
  let chk := [fieldOk q (q.onlyFields (if norm then [(0, 32), (40, 4)] else [(0, 2), (4, 20), (32, 12)]) && q.flags ≤ 1),
      fieldOk q (1 ≤ q.n && q.n ≤ 64), fieldOk q (64 ≤ d && d ≤ 256 && d % 64 = 0), fieldOk q (1 ≤ q.x && q.x ≤ 16),
      fieldOk q (q.fmt ≤ 7)] ++ arrOk s e q.a0 (16 * q.x) 1 ++
    (if norm then arrOk s e q.a1 (q.n * convBytes q.fmt d) (if q.fmt = 0 then 4 else 1) ++
        (if q.a2 = 0 then [] else arrOk s e q.a2 (4 * q.n) 4)
      else arrOk s e q.a1 (16 * q.n) 4 ++ arrOk s e q.a3 om 4)
  orElse s (pickErr chk) fun s =>
    withBytes (eRead s q.a0 (16 * q.x)) fun s lb =>
      let ps := (List.range q.x).map fun i => (leAt lb (16 * i) 8, leAt lb (16 * i + 8) 8)
      orElse s (pickErr (ps.flatMap fun p => arrOk s e p.1 (16 * q.n) 4 ++ arrOk s e p.2 om 4)) fun s =>
        withBytes (eReads (ps.flatMap fun p => [(p.1, 16 * q.n, usesMl), (p.2, om, fun _ => true)]) s) fun s bs =>
          let os := (List.range q.x).map fun i => f32List (bs.getD (2 * i + 1) [])
          let rows := (List.range q.n).map fun r => mergeRow ((indexed os).map fun x =>
            ⟨leAt (bs.getD (2 * x.1) []) (16 * r) 4, leAt (bs.getD (2 * x.1) []) (16 * r + 4) 4, rowOf x.2 d r⟩)
          if norm then
            let ns := rows.map normRow
            let ex := scaleExp s (coreScale (physCore s q.core) q.pool)
            let cs := ns.map fun x => convRow (sloe s) q.fmt ex x.1
            let st := stageAll s e q [⟨q.core, 256, .amax q.pool ((cs.map (·.2)).foldl Cap.join Cap.init)⟩]
            orElse st.1 st.2 fun s =>
              let s := memWrite s q.a1 (clean ((cs.map (·.1)).flatten))
              (if q.a2 = 0 then s else memWrite s q.a2 (clean (f32Bytes (ns.map (·.2)))), .ok 0)
          else
            let s := memWrite s q.a1 (clean ((rows.map fun p => f32Bytes [p.m, p.l, 0, 0]).flatten))
            (memWrite s q.a3 (clean ((rows.map fun p => f32Bytes p.o).flatten)), .ok 0)

/-! ### The KV cache -/

/-- The pool a command names: it must be a pool of the engine's tower. -/
def withPool (s : State) (e : Nat) (q : AttCmd) (chk : Pool → List (Bool × Nat × Option Nat)) (k : State → Pool → AttAns) :
    AttAns :=
  match ((runPlan s).map planPools).bind fun l => l.find? fun p => p.idx = q.pool with
  | none => (s, .error (.trap ⟨0x12, 0xFFFF, q.at_⟩))
  | some p => orElse s (pickErr ((p.tower = e / 16, 0x10, q.at_) :: chk p)) fun s => k s p

/-- Address of a token of a page. -/
def tokAddr (p : Pool) (g : Page) (pos : Nat) : Nat := g.addr + pos % p.tpp * p.tokBytes

/-- Every page lies in the fast tier of the engine's tower. -/
def pagesOk (s : State) (e : Nat) (gs : List Page) : List (Bool × Nat × Option Nat) :=
  gs.map fun g => (g.addr < 2 ^ 48 && rangeOk s (Place.inTower (e / 16)) g.addr 65536, 0x10, some (g.addr % 2 ^ 48))

/-- Bytes lo to lo + n − 1 of each position's token. -/
def readToks (p : Pool) (gs : Tbl Page) (lo n : Nat) : List Nat → State → State × List (List PByte)
  | [], s => (s, [])
  | i :: r, s =>
    let g := (tget? gs (i / p.tpp)).getD ⟨0, 0, 0, 0⟩
    let d := memRead s (tokAddr p g i + lo) n
    let t := readToks p gs lo n r d.1
    (t.1, d.2 :: t.2)

/-- Op 0x05 (R268, R285): copy positions x to x + n − 1 out of the sequence's pages. -/
def attGather (s : State) (e : Nat) (q : AttCmd) : AttAns :=
  let tr := bit q.flags 1
  let eb := if tr then fmtBytes q.fmt else 1
  let rows (p : Pool) : Nat := if tr then p.tokBytes / 2 / eb else q.n
  let rowLen (p : Pool) : Nat := if tr then q.n * eb else p.tokBytes / 2
  withPool s e q (fun p =>
    [fieldOk q (q.onlyFields [(0, 6), (8, 8), (40, 8), (52, 4)] && q.flags ≤ 3), fieldOk q (1 ≤ q.n && q.n ≤ 512),
      fieldOk q (if tr then q.fmt = 1 || isFp8 q.fmt || q.fmt = 7 else q.fmt = 0), fieldOk q (q.s < p.seqs)] ++
    (List.range (rows p)).flatMap fun r => arrOk s e (q.a0 + r * q.y) (rowLen p) 1) fun s p =>
    withBytes (snapshot s p q.s) fun s sn =>
      let last := q.x + q.n - 1
      let idx := (List.range (last / p.tpp + 1 - q.x / p.tpp)).map (q.x / p.tpp + ·)
      if sn.len ≤ last ∨ sn.ents.length ≤ last / p.tpp then (s, .error (.trap ⟨0x12, 0xFFFF, q.at_⟩))
      else
        withBytes (readPages p (idx.map fun j => (sn.ents.getD j (0, 0)).1) s) fun s gs =>
          orElse s (pickErr (pagesOk s e gs)) fun s =>
            let half := p.tokBytes / 2
            let r := readToks p (idx.zip gs) (if bit q.flags 0 then half else 0) half
              ((List.range q.n).map (q.x + ·)) s
            let out := if tr then
                (List.range (rows p)).map fun j => (r.2.map fun t => (t.drop (j * eb)).take eb).flatten
              else r.2
            let s := (indexed out).foldl (fun s x => memWrite s (q.a0 + x.1 * q.y) x.2) r.1
            (s, .ok sn.epoch)

/-- Read the tokens of an APPEND from their source. -/
def readSrc (s : State) (a stride bytes n : Nat) : State × List (List PByte) :=
  (List.range n).foldl (fun (r : State × List (List PByte)) i =>
    let d := memRead r.1 (a + i * stride) bytes
    (d.1, r.2 ++ [d.2])) (s, [])

/-- What an APPEND does to its entries in turn: the page each takes, copies made, line clones, staged effects. -/
structure Cow where
  ents : Tbl (Nat × Page)
  made : Nat
  clone : Bool
  staged : List StagedKind

/-- One entry touched by an APPEND (R290): written in place, or copied first. -/
def touchEntry (s : State) (e : Nat) (q : AttCmd) (p : Pool) (c : Cow) (j pg : Nat) (g : Page) :
    State × Except EngErr Cow :=
  if g.ref = 1 ∧ !g.perm then (s, .ok { c with ents := tput c.ents j (pg, g) })
  else
    let t := takePage s e q p
    match t.2 with
    | .error x => (t.1, .error x)
    | .ok i =>
      if p.pages ≤ i then (t.1, .error (.trap ⟨0x12, 0xFFFF, some p.ring⟩))
      else
        let d := readPages p [i] t.1
        match d.2 with
        | .error x => (d.1, .error x)
        | .ok gs =>
          let g' := gs.headD ⟨0, 0, 0, 0⟩
          match pickErr (pagesOk d.1 e [g']) with
          | some x => (d.1, .error x)
          | none =>
            let r := cowCopy d.1 e g g'
            (r.1, .ok ⟨tput c.ents j (i, g'), c.made + 1, c.clone || r.2, c.staged ++ [.dec pg, .inc i, .pop]⟩)

/-- The entries touched, in order. -/
def touchAll (e : Nat) (q : AttCmd) (p : Pool) : List (Nat × Nat × Page) → State → Cow → State × Except EngErr Cow
  | [], s, c => (s, .ok c)
  | (j, pg, g) :: r, s, c =>
    let x := touchEntry s e q p c j pg g
    match x.2 with
    | .error y => (x.1, .error y)
    | .ok c => touchAll e q p r x.1 c

/-- Answer after an edit. -/
def edAns (r : State × Option EngErr) (v : Nat) : AttAns :=
  match r.2 with
  | some x => (r.1, .error x)
  | none => (r.1, .ok v)

/-- Op 0x06 (R290 to R292). -/
def attAppend (s : State) (e : Nat) (q : AttCmd) : AttAns :=
  withPool s e q (fun p =>
    [fieldOk q (q.onlyFields [(0, 1), (3, 3), (8, 8), (44, 4), (52, 4)]), fieldOk q (1 ≤ q.n && q.n ≤ 64),
      fieldOk q (q.s < p.seqs), fieldOk q (!edited s e q p q.s)] ++
    (List.range q.n).flatMap fun i => arrOk s e (q.a0 + i * q.y) p.tokBytes 1) fun s p =>
    withBytes (snapshot s p q.s) fun s sn =>
      let last := sn.len + q.n - 1
      let idx := (List.range (last / p.tpp + 1 - sn.len / p.tpp)).map (sn.len / p.tpp + ·)
      if sn.ents.length ≤ last / p.tpp then (s, .error (.trap ⟨0x12, 0xFFFF, q.at_⟩))
      else
        let pgs := idx.map fun j => (sn.ents.getD j (0, 0)).1
        withBytes (readPages p pgs s) fun s gs =>
          orElse s (pickErr (pagesOk s e gs)) fun s =>
            let src := readSrc s q.a0 q.y p.tokBytes q.n
            withBytes (touchAll e q p (idx.zip (pgs.zip gs)) src.1 ⟨[], 0, false, []⟩) fun s c =>
              let s := (indexed src.2).foldl (fun s x =>
                let pos := sn.len + x.1
                memWrite s (tokAddr p ((tget? c.ents (pos / p.tpp)).getD (0, ⟨0, 0, 0, 0⟩)).2 pos) x.2) s
              let ents := (indexed sn.ents).map fun x =>
                match tget? c.ents x.1 with
                | some y => (y.1, Nat.min p.tpp (sn.len + q.n - x.1 * p.tpp))
                | none => x.2
              edAns (editSeq s e q p q.s sn (sn.len + q.n) ents c.staged)
                (sn.epoch + c.made % 256 * 2 ^ 32 + b2n c.clone * 2 ^ 40)

/-- A list without repeats. -/
def distinct : List Nat → Bool
  | [] => true
  | x :: r => !r.contains x && distinct r

/-- The page list of ATTACH and RINGFILL. -/
def pageList (s : State) (q : AttCmd) : State × Except EngErr (List Nat) :=
  let r := eRead s q.a0 (4 * q.n)
  (r.1, r.2.map fun b => f32List b)

/-- Op 0x07 (R289). -/
def attAttach (s : State) (e : Nat) (q : AttCmd) : AttAns :=
  let bad (s : State) : AttAns := (s, .error (.trap ⟨0x12, 0xFFFF, q.at_⟩))
  withPool s e q (fun p =>
    [fieldOk q (q.onlyFields [(0, 1), (3, 3), (8, 8), (52, 4)]), fieldOk q (1 ≤ q.n && q.n ≤ 64),
      fieldOk q (q.s < p.seqs), fieldOk q (!edited s e q p q.s)] ++ arrOk s e q.a0 (4 * q.n) 4) fun s p =>
    withBytes (pageList s q) fun s ps =>
      if !distinct ps ∨ ps.any (fun i => p.pages ≤ i) then bad s
      else
        withBytes (snapshot s p q.s) fun s sn =>
          withBytes (readPages p ps s) fun s gs =>
            let full := match sn.ents.getLast? with
              | none => true
              | some x => x.2 = p.tpp
            if !full ∨ p.maxPages < sn.ents.length + q.n ∨ !(gs.all fun g => g.live || g.spare) then bad s
            else
              edAns (editSeq s e q p q.s sn sn.len (sn.ents ++ ps.map fun i => (i, 0)) (ps.map StagedKind.inc)) sn.epoch

/-- Op 0x08 (R289). -/
def attFork (s : State) (e : Nat) (q : AttCmd) : AttAns :=
  let bad (s : State) : AttAns := (s, .error (.trap ⟨0x12, 0xFFFF, q.at_⟩))
  withPool s e q (fun p =>
    [fieldOk q (q.onlyFields [(0, 1), (3, 3), (40, 4), (52, 4)]), fieldOk q (q.s < p.seqs && q.x < p.seqs),
      fieldOk q (!edited s e q p q.s)]) fun s p =>
    withBytes (snapshot s p q.s) fun s sn =>
      withBytes (snapshot s p q.x) fun s sx =>
        if !sn.ents.isEmpty ∨ sx.ents.length < q.n then bad s
        else
          let es := sx.ents.take q.n
          edAns (editSeq s e q p q.s sn (es.foldl (fun n x => n + x.2) 0) es (es.map fun x => StagedKind.inc x.1)) sx.epoch

/-- Op 0x09 (R289). -/
def attDropSeq (s : State) (e : Nat) (q : AttCmd) : AttAns :=
  withPool s e q (fun p =>
    [fieldOk q (q.onlyFields [(0, 1), (3, 1), (52, 4)]), fieldOk q (q.s < p.seqs), fieldOk q (!edited s e q p q.s)]) fun s p =>
    withBytes (snapshot s p q.s) fun s sn =>
      edAns (editSeq s e q p q.s sn 0 [] (sn.ents.map fun x => StagedKind.dec x.1)) sn.epoch

/-- Op 0x0A (R289). DEDUCED: log entry 44. -/
def attRingfill (s : State) (e : Nat) (q : AttCmd) : AttAns :=
  let bad (s : State) : AttAns := (s, .error (.trap ⟨0x12, 0xFFFF, q.at_⟩))
  withPool s e q (fun _ =>
    [fieldOk q (q.onlyFields [(0, 1), (3, 3), (8, 8)]), fieldOk q (1 ≤ q.n && q.n ≤ 64)] ++ arrOk s e q.a0 (4 * q.n) 4) fun s p =>
    withBytes (pageList s q) fun s ps =>
      if !distinct ps ∨ ps.any (fun i => p.pages ≤ i) then bad s
      else
        withBytes (readPages p ps s) fun s gs =>
          withBytes (eRead s p.ctrl 8) fun s cb =>
            if !(gs.all Page.spare) ∨ 2 ^ p.ringLog < unsigned 32 ((leAt cb 4 4 : Int) - leAt cb 0 4) + q.n then bad s
            else edAns (stageAll s e q (ps.map fun i => ⟨q.core, p.idx, .push i⟩)) 0

/-! ### The prefix walk (R298, R299) -/

/-- Where a walk of one block ends: the leaf's page, or a reason. -/
abbrev WalkEnd := Sum Nat Nat

/-- Compare a leaf (R299 step 3). -/
def walkLeaf (s : State) (e : Nat) (p : Pool) (a : Nat) (prev h : W64) (tok : List Nat) :
    State × Except EngErr WalkEnd :=
  match pickErr (arrOk s e a 32 1) with
  | some x => (s, .error x)
  | none =>
    let r := eReadOf (fun i => i < 26) s a 32
    match r.2 with
    | .error x => (r.1, .error x)
    | .ok b =>
      if leAt b 0 8 ≠ h.toNat then (r.1, .ok (.inr 1))
      else if leAt b 8 8 ≠ prev.toNat ∨ leAt b 24 2 ≠ p.tpp then (r.1, .ok (.inr 2))
      else
        match pickErr (arrOk r.1 e (a + 32) (4 * p.tpp) 1) with
        | some x => (r.1, .error x)
        | none =>
          let t := eRead r.1 (a + 32) (4 * p.tpp)
          match t.2 with
          | .error x => (t.1, .error x)
          | .ok tb =>
            if f32List tb ≠ tok then (t.1, .ok (.inr 2))
            else if p.pages ≤ leAt b 16 4 then (t.1, .ok (.inr 3))
            else
              let g := readPages p [leAt b 16 4] t.1
              match g.2 with
              | .error x => (g.1, .error x)
              | .ok gs =>
                let pg := gs.headD ⟨0, 0, 0, 0⟩
                (g.1, .ok (if pg.live && pg.gen = leAt b 20 4 then .inl (leAt b 16 4) else .inr 3))

/-- Descend from a node at depth 16 − fuel (R298). -/
def walkDown (e : Nat) (p : Pool) (prev h : W64) (tok : List Nat) : Nat → State → Nat → State × Except EngErr WalkEnd
  | 0, s, _ => (s, .ok (.inr 1))
  | f + 1, s, node =>
    match pickErr (arrOk s e node 128 128) with
    | some x => (s, .error x)
    | none =>
      let d := 16 - (f + 1)
      let r := eRead s (node + 8 * getField h (63 - 4 * d) (60 - 4 * d)) 8
      match r.2 with
      | .error x => (r.1, .error x)
      | .ok b =>
        let w := leNat b
        let child := bits w 40 0 * 128
        if bits w 63 62 = 0 then (r.1, .ok (.inr 1))
        else if bits w 63 62 = 3 ∨ bits w 61 41 ≠ 0 then (r.1, .error (.trap ⟨0x12, 0xFFFF, some node⟩))
        else if bits w 63 62 = 1 then walkDown e p prev h tok f r.1 child
        else walkLeaf r.1 e p child prev h tok

/-- Walk blocks i, i + 1, … in turn (R299): each is counted as examined when its examination ends, and a match is counted and its page
index written at once (R301). The answer: blocks matched, the hash of the last match, the reason. DEDUCED: log entry 44. -/
def walkBlocks (e : Nat) (p : Pool) (q : AttCmd) : Nat → State → W64 → Nat → State × Except EngErr (Nat × W64 × Nat)
  | 0, s, prev, i => (s, .ok (i, prev, 0))
  | f + 1, s, prev, i =>
    let b := attBase (e / 16) (e % 16)
    let t := eRead s (q.a0 + 4 * p.tpp * i) (4 * p.tpp)
    match t.2 with
    | .error x => (t.1, .error x)
    | .ok tb =>
      let tok := f32List tb
      let h := pfxHash prev tok
      let d := walkDown e p prev h tok 16 t.1 q.a1
      match d.2 with
      | .error x => (d.1, .error x)
      | .ok (.inl pg) =>
        walkBlocks e p q f (memWrite (count (count d.1 b 3 1) b 4 1) (q.a3 + 4 * i) (clean (leBytes 4 pg))) h (i + 1)
      | .ok (.inr why) => (let s := count d.1 b 3 1; if why = 2 then count s b 5 1 else s, .ok (i, prev, why))

/-- PFXWALK (R299). -/
def attWalk (s : State) (e : Nat) (q : AttCmd) : AttAns :=
  let out := q.a3
  match ((runPlan s).map planPools).bind fun l => l.find? fun p => p.idx = q.f 0 1 with
  | none => (s, .error (.trap ⟨0x12, 0xFFFF, q.at_⟩))
  | some p =>
    let hashAt := out + ceilDiv (4 * q.n) 8 * 8
    let chk : List (Bool × Nat × Option Nat) := [(p.tower == e / 16, 0x10, q.at_), fieldOk q (q.onlyFields [(0, 1), (4, 2), (8, 32)]),
        fieldOk q (1 ≤ q.n && q.n ≤ 256)] ++
      arrOk s e q.a0 (4 * q.n * p.tpp) 4 ++ arrOk s e q.a1 128 128 ++ arrOk s e out (hashAt + 8 - out) 4
    orElse s (pickErr chk) fun s =>
      withBytes (walkBlocks e p q q.n s (BitVec.ofNat 64 q.a2) 0) fun s r =>
        (memWrite s hashAt (clean (leBytes 8 r.2.1.toNat)), .ok (r.1 + r.2.2 * 2 ^ 16))

end Sys2Proof.Machine
end

