-- ==== Sys2Proof/Machine/Attention.lean ====
section
/-! DEFINITION. The attention engine's commands (R266 to R300): each row completes the oldest command of its operation among the four
in progress at a cluster's engine. -/

namespace Sys2Proof.Machine

/-- Complete a command (R267, R269): write the result field, count it, and let the next one start. -/
def attDone (s : State) (e : Nat) (q : AttCmd) (res : Nat) : State :=
  let s := memWrite s (q.desc % 2 ^ 48 + 56) (clean (leBytes 8 res))
  attAdvance (count (attDrop s e q) (attBase (e / 16) (e % 16)) 0 1) e

/-- What a command answered takes effect. DEDUCED: log entry 43. -/
def attEnd (e : Nat) (q : AttCmd) (r : AttAns) : State :=
  match r.2 with
  | .ok v => attDone r.1 e q v
  | .error x => attAdvance (attErr r.1 e q x) e

/-- Complete the oldest command of an operation at the engine of a cluster. -/
def attRow (s : State) (tower cluster : BitVec 4) (op : Nat) (f : State → Nat → AttCmd → AttAns) : State :=
  let e := tower.toNat * 16 + cluster.toNat
  let s := attAdvance s e
  match ((attAt s e).queue.take 4).find? fun q => q.started && !q.walk && q.op = op with
  | some q => attEnd e q (f s e q)
  | none => s

/-- SOFTMAX (R275). -/
def execSoftmax (tower cluster : BitVec 4) (s : State) : Host.Outcome State Fault Refusal :=
  finish (attRow s tower cluster 1 attSoftmax)

/-- RECOMP (R279). -/
def execRecomp (tower cluster : BitVec 4) (s : State) : Host.Outcome State Fault Refusal :=
  finish (attRow s tower cluster 2 attRecomp)

/-- ACCUM (R276). -/
def execAccum (tower cluster : BitVec 4) (s : State) : Host.Outcome State Fault Refusal :=
  finish (attRow s tower cluster 3 attAccum)

/-- MERGE (R277, R278). -/
def execMerge (tower cluster : BitVec 4) (s : State) : Host.Outcome State Fault Refusal :=
  finish (attRow s tower cluster 4 attMerge)

/-- GATHER (R268, R285). -/
def execGather (tower cluster : BitVec 4) (s : State) : Host.Outcome State Fault Refusal :=
  finish (attRow s tower cluster 5 attGather)

/-- APPEND (R290). -/
def execAppend (tower cluster : BitVec 4) (s : State) : Host.Outcome State Fault Refusal :=
  finish (attRow s tower cluster 6 attAppend)

/-- ATTACH (R289). -/
def execAttach (tower cluster : BitVec 4) (s : State) : Host.Outcome State Fault Refusal :=
  finish (attRow s tower cluster 7 attAttach)

/-- FORK (R289). -/
def execFork (tower cluster : BitVec 4) (s : State) : Host.Outcome State Fault Refusal :=
  finish (attRow s tower cluster 8 attFork)

/-- DROP (R289). -/
def execDrop (tower cluster : BitVec 4) (s : State) : Host.Outcome State Fault Refusal :=
  finish (attRow s tower cluster 9 attDropSeq)

/-- RINGFILL (R289). -/
def execRingfill (tower cluster : BitVec 4) (s : State) : Host.Outcome State Fault Refusal :=
  finish (attRow s tower cluster 10 attRingfill)

end Sys2Proof.Machine
end

