-- ==== Sys2Proof/Machine/Issue.lean ====
section
/-! DEFINITION. Issue of bundles (R96 to R102): the instructions a core has been sent form bundles; a bundle passes the
checks of decode, waits where R97 says so, meets its precise faults (R126, R127) or takes effect in all its slots at
once. Then the pc moves (R100), and a COMMIT waits for what the core has outstanding (R122). -/

namespace Sys2Proof.Machine

/-! ### Fetch (R100, R115, R116) -/

/-- bundle_count of a logical core's image (R115). -/
def bundleCount (s : State) (lc : Nat) : Nat :=
  match runPlan s with
  | none => 0
  | some p => if p.codeParam = 0 then p.code.length / 32 else bits (leAt p.code (8 * lc) 8) 43 32 + 1

/-- pc of the next bundle after the present one: the target after a delay bundle (R100). DEDUCED: log entry 29. -/
def Core.nextPc (c : Core) : Nat :=
  match c.delay with
  | some (some t) => t
  | _ => (c.pc + 1) % 4096

/-- Pass n bundles of NOPs: each takes one CCLK. The first fetch outside the image stops it there (R116). -/
def Core.passNops (bc : Nat) : Nat → Core → Core × Bool
  | 0, c => (c, true)
  | n + 1, c =>
    let c := { c with pc := c.nextPc, delay := none, cyc := c.cyc + 1 }
    if bc ≤ c.pc then (c, false) else Core.passNops bc n c

/-- Cycles after which every fixed-latency result has become architectural. DEDUCED: log entry 80. -/
def drainCycles : Nat := 18

/-- Let every result in flight become architectural while issue is stopped (R97). DEDUCED: log entry 28. -/
def Core.drain (c : Core) : Core := { c.landTo (c.cyc + drainCycles) with cyc := c.cyc + drainCycles }

/-! ### Checks -/

/-- Decode faults of a bundle (R98, R100, R101, R104, R122), as slot and class, whatever the guards. DEDUCED: log entry 29. -/
def decodeFaults (c : Core) (b : List Slot) : List (Nat × Nat) :=
  let bad := b.filterMap fun x => if decodeOk x.op x.ins then none else some (x.pos, 0x12)
  let n := b.length
  let b := b.filter Slot.known
  let dup := b.filterMap fun x =>
    match dstOf x.op x.ins with
    | none => none
    | some r => if b.any fun y => slotOf x.op < slotOf y.op && dstOf y.op y.ins = some r then some (slotOf x.op, 0x13) else none
  let lone := b.filterMap fun x => if x.op = .commit ∧ n ≠ 1 then some (3, 0x18) else none
  let del := b.filterMap fun x => if isBranch x.op ∧ c.delay.isSome then some (0, 0x1C) else none
  bad ++ dup ++ lone ++ del

/-- The lowest of a list of slot and class (R127). -/
def lowest (l : List (Nat × Trap)) : Option (Nat × Trap) :=
  match l with
  | [] => none
  | x :: r => some (r.foldl (fun m y => if y.1 < m.1 ∨ (y.1 = m.1 ∧ y.2.cls < m.2.cls) then y else m) x)

/-- A pending register that an instruction reads or writes (R99). -/
def pendTrap (c : Core) (o : KOp) (i : Ins) : List Trap :=
  let rs := readsOf o i ++ (dstOf o i).toList
  if rs.any fun r => match r with
      | .v n => c.pend.contains n
      | _ => false
  then [bare 0x16] else []

/-- Window violations of a DMA or DMAR that its operands show at issue (R109, R114, R225, R344): a device that no route leads
to, an address that is not 128-byte aligned, a length that is no multiple of its unit. DEDUCED: log entry 33. -/
def dmaTraps (s : State) (lc : Nat) (c : Core) (o : KOp) (i : Ins) : List Trap :=
  let unit := if o = .dmar ∧ i.fmtA = 0xA then 384 else 128
  let addrs := [(c.sGet i.a.toNat).toNat, (c.sGet i.b.toNat).toNat]
  let dev (v : Nat) : List Trap :=
    let d := v / 2 ^ 48
    if isSelf s d || (fabEnabled s && (routeLink s (lc / 256) d).isSome) then [] else [⟨0x10, d, some (v % 2 ^ 48)⟩]
  let ali (v : Nat) : List Trap := if aligned 128 (v % 2 ^ 48) then [] else [⟨0x11, v / 2 ^ 48, some (v % 2 ^ 48)⟩]
  addrs.flatMap dev ++ addrs.flatMap ali ++ (if (c.sGet i.c.toNat).toNat % unit = 0 then [] else [bare 0x11])

/-- Window violations of the X-slot instructions at issue. -/
def moveTraps (s : State) (lc : Nat) (c : Core) (o : KOp) (i : Ins) : List Trap :=
  let a := (c.sGet i.a.toNat).toNat
  let full := if 8 ≤ c.eng.length then [bare 0x14] else []
  match o with
  | .vld | .vst => accTraps s c o i
  | .dma | .dmar => full ++ dmaTraps s lc c o i
  | .attcmd | .pfxwalk | .rowop | .rowmodeEnter | .rowmodeExit | .coll | .rwake =>
    full
  | .sig => if a ≥ 4096 then [bare 0x12] else if (coreL s a).st = .parked then [bare 0x1B] else []
  | .arrive =>
    if (i.scope = 3 ∧ !((runPlan s).map (·.fabric)).getD false) ∨ c.waits.any (fun w => w.scope = i.scope) then [bare 0x17]
    else []
  | .commit =>
    let ce := (s.run.bind fun r => (runPlan s).bind fun p => (p.steps[r.stepIdx]?).map (·.capEpoch)).getD 0
    if i.im 0 0 = ce % 2 then [] else [bare 0x18]
  | _ => []

/-- Window violations of an executing instruction at issue (R126). DEDUCED: log entry 26. -/
def issueTraps (s : State) (lc : Nat) (c : Core) (o : KOp) (i : Ins) : List Trap :=
  pendTrap c o i ++
  (match o with
    | .ld8 | .ld16 | .ld32 | .ld64 | .st8 | .st16 | .st32 | .st64 => accTraps s c o i
    | .vcvt => if sloe s ∧ i.rndV = 1 then [bare 0x12] else []
    | .mpcfg | .mmask | .mwld | .mswap | .mmac | .mclr | .mst | .mrdv | .mlda | .mgang => arrTraps s c o i
    | _ => moveTraps s lc c o i)

/-! ### Waiting (R97) -/

/-- Registers that a bundle reads. -/
def bundleReads (b : List Slot) : List Reg := b.flatMap fun x => readsOf x.op x.ins

/-- Stores of a bundle that would need an entry of the write buffer. -/
def storesOf (c : Core) (b : List Slot) : Nat := (b.filter fun x => isStore x.op && executes c x.op x.ins).length

/-- Does the bundle wait for something that an event brings (R97)?. DEDUCED: log entry 28. -/
def mustWait (c : Core) (b : List Slot) : Bool :=
  c.loads.any (fun l => (bundleReads b).contains (if l.vec then .v l.d else .s l.d)) ||
  (0 < storesOf c b && 16 < c.wb.length + storesOf c b) ||
  b.any (fun x => x.op = .wait && executes c x.op x.ins && tget 0 c.tok x.ins.tok < x.ins.imm16)

/-- The cycle at which the loads in flight that a bundle reads have returned (R97 case 2). -/
def interlockTo (c : Core) (b : List Slot) : Nat :=
  c.fly.foldl (fun n f => if f.lock && (bundleReads b).contains f.w.reg then Nat.max n f.due else n) c.cyc

/-- The scale entry that a conversion reads (R113). -/
def scaleUse : KOp → Ins → Option Nat
  | .vcvt, i | .vcvtw, i => some i.tensor
  | _, _ => none

/-- An executing conversion of a bundle names an entry with an uncorrectable error (R185). DEDUCED: log entry 95. -/
def scaleStops (s : State) (pk : Nat) (b : List Slot) : Bool :=
  b.any fun x => match scaleUse x.op x.ins with
    | some t => scaleBad s pk t
    | none => false

/-! ### Effects -/

/-- Enter an engine command into the core's engine queue (R114). -/
def issueEng (s : State) (pk : Nat) (c0 : Core) (o : KOp) (i : Ins) : State :=
  modCore s pk fun c =>
    let q : QCmd := { id := c.nextId, op := o, ins := i, va := c0.sGet i.a.toNat, vb := c0.sGet i.b.toNat,
                      vc := c0.sGet i.c.toNat, rmask := 0, cmask := 0, pc := c.pc, aux := 0, cfg := 0, st := 0, buf := 0,
                      kind := 0, land := [], rows := [], bank := 0, eff := c.effNext, win := none }
    { c with nextId := c.nextId + 1, effNext := if o = .dmar ∨ o = .coll then c.effNext + 1 else c.effNext, eng := c.eng ++ [q] }

/-- SIG (R78, R114): an effect of this module; a suppressed one has been sent by an earlier attempt. -/
def issueSig (s : State) (pk lc : Nat) (c0 : Core) (i : Ins) : State :=
  let e := takeEffect s lc (coreOf s pk).effNext false 1
  let id := (coreOf e.1 pk).nextId
  let s := modCore e.1 pk fun c => { c with nextId := id + 1, effNext := c.effNext + 1 }
  if !e.2 then s
  else
    match s.run with
    | none => s
    | some r => { s with run := some { r with sigs := r.sigs ++ [⟨lc, (c0.sGet i.a.toNat).toNat, i.tok, id⟩] } }

/-- ARRIVE (R122, R507): the k-th ARRIVE of its scope in the attempt joins the k-th instance of the step. -/
def issueArrive (s : State) (pk lc : Nat) (i : Ins) : State :=
  let k := tget 0 (routerOf s lc).arrK i.scope
  let s := modRouter s lc fun r =>
    { r with arrK := tput r.arrK i.scope (k + 1)
             standing := if r.standing.contains (i.scope, k) then r.standing else r.standing ++ [(i.scope, k)] }
  modCore s pk fun c => { c with nextId := c.nextId + 1, waits := c.waits ++ [⟨i.scope, k, i.tok, c.nextId⟩] }

/-- RSLEEP (R130): park a region of this tower at the next commit. -/
def issueSleep (s : State) (lc : Nat) (i : Ins) : State :=
  match s.run with
  | none => s
  | some r => { s with run := some { r with toPark := sadd r.toPark (lc / 256 * 16 + i.im 3 0) } }

/-- The effect of one executing instruction. `c0` is the core as the bundle found it. -/
def effect (s : State) (pk lc : Nat) (c0 : Core) (o : KOp) (i : Ins) : State :=
  match o with
  | .ld8 | .ld16 | .ld32 | .ld64 | .vld => issueLoad s pk c0 o i
  | .st8 | .st16 | .st32 | .st64 | .vst => issueStore s pk c0 o i
  | .mpcfg | .mmask | .mwld | .mswap | .mmac | .mclr | .mst | .mrdv | .mlda => issueArr s pk c0 o i
  | .movsv =>
    let tag := tget? c0.sTag i.a.toNat
    let w := (c0.sGet i.a.toNat).setWidth 32
    modCore s pk fun c => c.fly1 1 (.vreg i.d.toNat (BitVec.allOnes 64) (ofLanes fun _ => w)
      (match tag with
        | some a => (List.range 8).map fun g => (g, a)
        | none => [])) false
  | .movvs =>
    let l := i.im 5 0
    modCore s pk fun c => c.fly1 2 (.sreg i.d.toNat ((lane (c0.vGet i.a.toNat) l).setWidth 64)
      (tget? c0.vTag (8 * i.a.toNat + l / 8))) false
  | .pref => issuePref s pk c0 i
  | .sig => issueSig s pk lc c0 i
  | .arrive => issueArrive s pk lc i
  | .wait => modCore s pk fun c => { c with tok := tset 0 c.tok i.tok (tget 0 c.tok i.tok - i.imm16) }
  | .commit => modCore s pk fun c => { c with st := .commit }
  | .rsleep => issueSleep s lc i
  | .dma | .dmar | .attcmd | .pfxwalk | .rowop | .rowmodeEnter | .rowmodeExit | .coll | .rwake => issueEng s pk c0 o i
  | _ =>
    match scalarResult s lc c0 o i with
    | some r => modCore s pk fun c => c.fly1 r.2 r.1 false
    | none =>
      let s := ((scaleUse o i).map (scaleFix s pk)).getD s
      match vectorResult s pk lc c0 o i with
      | some r => modCore s pk fun c =>
          let c := c.fly1 (vLatency o) r.1 false
          match r.2 with
          | some k => stageCap c k.1 k.2
          | none => c
      | none => s

/-! ### One bundle -/

/-- The bundle in slot order C, M, V, X (R96). DEDUCED: log entry 26. -/
def inSlotOrder (b : List Slot) : List Slot := (List.range 4).flatMap fun n => b.filter fun x => x.pos = n

/-- A bundle with its leading NOPs and stall already spent. -/
def spent (b : List Slot) : List Slot := b.map fun x => { x with ins := { x.ins with gap := 0, stall := 0 } }

/-- Move past an issued bundle (R100). -/
def Core.advance (c : Core) (c0 : Core) (b : List Slot) : Core :=
  let d : Option (Option Nat) :=
    match b.find? fun x => isBranch x.op with
    | some x => some (if executes c0 x.op x.ins then branchTarget c0 x.op x.ins else none)
    | none => none
  let c := { c with pc := c0.nextPc, delay := d, cyc := c.cyc + 1 }
  c.landTo c.cyc

/-- Issue the bundle b of a running core. The Bool says that it has left the stream. DEDUCED: log entry 26. DEDUCED: log entry 29. DEDUCED: log entry 51. -/
def issueBundle (s : State) (pk lc : Nat) (b : List Slot) : State × Bool :=
  let c := coreOf s pk
  let gap : Nat := (b.head?.map fun (x : Slot) => x.ins.gap).getD 0
  let stall : Nat := (b.head?.map fun (x : Slot) => x.ins.stall).getD 0
  let n := Core.passNops (bundleCount s lc) gap c
  let s := setCore s pk n.1
  if !n.2 then (windowFault s lc n.1.pc 0 0x19 0xFFFF none, true)
  else
    let c := { n.1 with cyc := n.1.cyc + stall }
    let c := c.landTo c.cyc
    let t := interlockTo c b
    let c := { c.landTo t with cyc := t }
    let b := inSlotOrder (spent b)
    let ok := b.filter fun x => decodeOk x.op x.ins
    if mustWait c ok then
      let c := if c.stalled then c else { c.drain with stalled := true }
      (setCore s pk c, false)
    else
      let c := { c with stalled := false }
      let s := setCore s pk c
      let live := ok.filter fun x => executes c x.op x.ins
      match lowest (((decodeFaults c b).map fun x => (x.1, bare x.2)) ++
          live.flatMap fun x => (issueTraps s lc c x.op x.ins).map fun t => (x.pos, t)) with
      | some t => (windowFault s lc c.pc t.1 t.2.cls t.2.dev t.2.addr, true)
      | none =>
        if s.stone.parityAt.contains pk ∧ !b.isEmpty then
          let s := { s with stone := { s.stone with parityAt := sdel s.stone.parityAt pk } }
          (consumeFault s lc c.pc ((b.head?.map Slot.pos).getD 0) 2 none none, true)
        else
          match live.findSome? fun x => (poisonUse c x.op x.ins).map fun a => (x.pos, a) with
          | some p => (consumeFault s lc c.pc p.1 1 none (some p.2), true)
          | none =>
            if scaleStops s pk live then (scaleLost s lc, true)
            else
            let s := live.foldl (fun s x => effect s pk lc c x.op x.ins) s
            let s := modCore s pk fun d => d.advance c b
            let d := coreOf s pk
            if d.st = .run ∧ bundleCount s lc ≤ d.pc then (windowFault s lc d.pc 0 0x19 0xFFFF none, true)
            else (s, true)

/-! ### A core runs -/

/-- The first whole bundle of a stream, with the rest. DESIGN CHOICE: log entry 25. -/
def splitBundle : List Slot → Option (List Slot × List Slot)
  | [] => none
  | x :: r => if x.ins.last then some ([x], r) else (splitBundle r).map fun q => (x :: q.1, q.2)

/-- The core's outstanding work that COMMIT waits for (R73, R122). -/
def commitReady (s : State) (pk : Nat) : Bool :=
  let c := coreOf s pk
  let idle (a : Arr) : Bool := a.cq.isEmpty && a.wq.isEmpty && a.run.isEmpty
  c.st = .commit && idle c.arr0 && idle c.arr1 && c.eng.isEmpty && c.waits.isEmpty && c.wb.isEmpty && c.loads.isEmpty

/-- Complete the share (R73): dirty lines go back and the core arrives. Its registers are the next step entry state, which the
commit puts in force; until then a step-wide replay finds the old one (R79). DEDUCED: log entry 29. -/
def tryCommit (s : State) (pk : Nat) : State :=
  if !commitReady s pk then s
  else
    let s := l1WriteBack s pk
    modCore s pk fun c =>
      { c.drain with st := .arrived, stalled := false }

/-- Issue as many of the bundles sent as can issue; each also lets engine commands start. DEDUCED: log entry 28. -/
def runCore : Nat → State → Nat → Nat → State
  | 0, s, _, _ => s
  | n + 1, s, pk, lc =>
    let c := coreOf s pk
    if c.st ≠ .run then s
    else
      match splitBundle c.stream with
      | none => s
      | some q =>
        let r := issueBundle s pk lc q.1
        if r.2 then
          let s := modCore r.1 pk fun c => if c.st = .run ∨ c.st = .commit then { c with stream := q.2 } else c
          runCore n (startEngine s lc) pk lc
        else modCore r.1 pk fun c => { c with stream := spent q.1 ++ q.2 }

/-- Let a logical core go on after something it may wait for: engine commands start, bundles issue, COMMIT completes. DESIGN CHOICE: log entry 25. -/
def resume (s : State) (lc : Nat) : State :=
  let pk := physCore s lc
  let s := startEngine s lc
  let s := runCore (coreOf s pk).stream.length s pk lc
  tryCommit s pk

/-- The bundle that is being sent holds nothing in the instruction's slot yet. -/
def slotFree (i : Ins) (l : List Slot) : Bool :=
  (l.reverse.takeWhile fun x => !x.ins.last).all fun x => x.pos ≠ i.slot.toNat

/-- Close the bundle that is being sent. DESIGN CHOICE: log entry 25. -/
def closeBundle : List Slot → List Slot
  | [] => []
  | [x] => [{ x with ins := { x.ins with last := true } }]
  | x :: y :: r => x :: closeBundle (y :: r)

/-- A core is sent one slot's word, which its row says spells opcode o. A core that does not run takes none. A word for a slot that the bundle being
sent has filled begins a new bundle. DESIGN CHOICE: log entry 25. -/
def submit (o : KOp) (i : Ins) (s : State) : State :=
  let lc := i.core.toNat
  let pk := physCore s lc
  if (coreOf s pk).st ≠ .run then s
  else
    resume (modCore s pk fun c =>
      { c with stream := (if slotFree i c.stream then c.stream else closeBundle c.stream) ++ [⟨o, i⟩] }) lc

/-- The row of opcode o carries a word that spells it, or a word that spells no listed opcode of its slot: that word meets class 0x12
when its bundle issues (R104). A NOP, and the word of another row, are no word of this row. DESIGN CHOICE: log entry 90. -/
def rowTakes (o : KOp) (i : Ins) : Bool := i.word ≠ 0 && (i.spells o || i.op.isNone)

/-- What every row of a KCI opcode does: its word goes to the core. DESIGN CHOICE: log entry 90. -/
def kci (o : KOp) (name : String) (i : Ins) (s : State) : Host.Outcome State Fault Refusal :=
  shaped (rowTakes o i) name (submit o i s)

end Sys2Proof.Machine
end

