-- ==== Sys2Proof/Machine/CoreEvents.lean ====
section
/-! DEFINITION. What comes back to a core: loads (R97), stores (R207), ownership (R219), L1 fills (R206), the arrays' own
events (R140, R143, R112), SIG increments (R124, R506) and barrier releases (R123, R507). -/

namespace Sys2Proof.Machine

/-- The core runs a share: it issues, or its COMMIT is completing. -/
def live (c : Core) : Bool := c.st = .run || c.st = .commit

/-- Apply an event to a core that runs a share, and let it go on. -/
def coreEvent (s : State) (lc : Nat) (f : State → Nat → State) : State :=
  let pk := physCore s lc
  if live (coreOf s pk) then resume (f s pk) lc else s

/-- LOAD_RETURN (R97): the oldest load's data return and release the interlock. -/
def execLoadReturn (core : BitVec 12) (host : HostData) (s : State) : Host.Outcome State Fault Refusal :=
  finish (coreEvent s core.toNat fun s pk => returnLoad s pk core.toNat host)

/-- STORE_PERFORMED (R207): the target acknowledges the oldest buffered store. -/
def execStorePerformed (core : BitVec 12) (s : State) : Host.Outcome State Fault Refusal :=
  finish (coreEvent s core.toNat performOldest)

/-- OWNERSHIP_GRANT (R207, R219): the directory grants the oldest buffered store its lines. -/
def execOwnershipGrant (core : BitVec 12) (s : State) : Host.Outcome State Fault Refusal :=
  finish (coreEvent s core.toNat ownOldest)

/-- L1_MISS (R205, R206): the line that a load misses and that holds a miss entry is fetched from its home slice; dirty bytes stand. The
request waits there for bytes withheld from it (R210). -/
def execL1Miss (core : BitVec 12) (addr : BitVec 48) (s : State) : Host.Outcome State Fault Refusal :=
  finish (coreEvent s core.toNat fun s pk =>
    match ownLine s pk addr.toNat with
    | some lk =>
      if (missLines s pk).contains lk && !withheldFrom s core.toNat (addr.toNat / 128 * 128) 128 then l1Fill s pk lk else s
    | none => s)

/-- MWLD_START (R140): the MWLD at the head of the weight queue starts. -/
def execMwldStart (core : BitVec 12) (arr : BitVec 1) (host : HostFeed) (s : State) : Host.Outcome State Fault Refusal :=
  finish (coreEvent s core.toNat fun s pk => startMwld s pk core.toNat arr.toNat host)

/-- ARRAY_DISPATCH (R143): the head of a compute queue dispatches. -/
def execArrayDispatch (core : BitVec 12) (arr : BitVec 1) (host : HostFeed) (s : State) : Host.Outcome State Fault Refusal :=
  finish (coreEvent s core.toNat fun s pk => dispatchArr s pk core.toNat arr.toNat host)

/-- ARRAY_COMMAND_COMPLETION (R112): the k-th of the commands under way completes. -/
def execArrayCommandCompletion (core : BitVec 12) (arr : BitVec 1) (k : Nat) (s : State) :
    Host.Outcome State Fault Refusal :=
  finish (coreEvent s core.toNat fun s pk =>
    match completable ((coreOf s pk).arrN arr.toNat) k with
    | some q => finishArr s pk core.toNat arr.toNat q
    | none => s)

/-! ### SIG (R78, R124, R506) -/

/-- Every store that the source made before the SIG is visible. DEDUCED: log entry 32. -/
def sigReady (s : State) (g : Sig) : Bool := storesBefore (coreL s g.src) g.before

/-- Deliver the oldest SIG to a target that may be delivered: the router counts it and the token rises. DEDUCED: log entry 32. -/
def deliverSig (s : State) (tgt : Nat) : State :=
  match s.run with
  | none => s
  | some r =>
    match takeFirst (fun g => g.tgt = tgt && sigReady s g) r.sigs with
    | none => s
    | some q =>
      let s := { s with run := some { r with sigs := q.2 } }
      let s := modRouter s tgt fun x => { x with rcv := tput x.rcv q.1.tok (tget 0 x.rcv q.1.tok + 1) }
      resume (tokInc s tgt q.1.tok) tgt

/-- SIG_DELIVERY (R124): a SIG arrives and increments the target's counter. -/
def execSigDelivery (target : BitVec 12) (s : State) : Host.Outcome State Fault Refusal := finish (deliverSig s target.toNat)

/-! ### Barriers (R123, R507) -/

/-- Logical cores of a group. -/
def groupCores (scope g : Nat) : List Nat :=
  if scope = 0 then (List.range 16).map (16 * g + ·) else if scope = 1 then (List.range 256).map (256 * g + ·)
  else List.range 4096

/-- The number of instances of a scope's group that have been released in the step. -/
def released (s : State) (scope g : Nat) : Nat := ((s.run.map fun r => tget 0 r.rel (scope * 65536 + g)).getD 0)

/-- A core has arrived at instance k of a scope: a standing arrival whose earlier stores are performed (R124); a parked
core counts as arrived (R123), and a core of a region that is off takes no part. -/
def hasArrived (s : State) (scope k lc : Nat) : Bool :=
  let c := coreL s lc
  c.st = .parked || c.st = .off ||
    ((routerOf s lc).standing.contains (scope, k) &&
      c.waits.all fun w => w.scope ≠ scope || w.k ≠ k || storesBefore c w.before)

/-- Release instance k of a scope's group at one core: its wait ends and its token rises. -/
def releaseCore (scope k : Nat) (s : State) (lc : Nat) : State :=
  let c := coreL s lc
  match takeFirst (fun (w : Waiting) => w.scope = scope && w.k = k) c.waits with
  | some q => resume (tokInc (modCoreL s lc fun c => { c with waits := q.2 }) lc q.1.tok) lc
  | none => s

/-- A barrier instance releases: the counts move on, standing arrivals end, and every participant's token rises. -/
def releaseInstance (s : State) (scope g k : Nat) : State :=
  match s.run with
  | none => s
  | some r =>
    let s := { s with run := some { r with rel := tput r.rel (scope * 65536 + g) (k + 1) } }
    let cores := groupCores scope g
    let s := cores.foldl (fun s lc => modRouter s lc fun x => { x with standing := x.standing.filter (· ≠ (scope, k)) }) s
    cores.foldl (releaseCore scope k) s

/-- A replay's arrival at an instance that has released is released at once (R507). -/
def lateArrival (s : State) (scope g : Nat) : Option (Nat × Nat) :=
  (groupCores scope g).findSome? fun lc =>
    ((coreL s lc).waits.find? fun w => w.scope = scope ∧ w.k < released s scope g).map fun w => (lc, w.k)

/-- The fabric barrier of an instance: instance k of scope 3 releases when every bunch is known complete (R366). -/
def fabricReleased (s : State) (k : Nat) : Bool := barComplete s (curStep s) (k + 1)

/-- BARRIER_RELEASE for a group of scope 0 to 3. DEDUCED: log entry 32. -/
def barrierStep (s : State) (scope g : Nat) : State :=
  match lateArrival s scope g with
  | some w =>
    modRouter (releaseCore scope w.2 s w.1) w.1 fun x => { x with standing := x.standing.filter (· ≠ (scope, w.2)) }
  | none =>
    let k := released s scope g
    if (groupCores scope g).all (hasArrived s scope k) && (groupCores scope g).any (fun lc => (routerOf s lc).standing.contains (scope, k)) then
      if scope = 3 then
        let s := barArrive s (curStep s) (k + 1)
        if fabricReleased s k then releaseInstance s scope g k else s
      else releaseInstance s scope g k
    else s

/-- BARRIER_RELEASE (R123, R507): the next instance of a scope's group releases once every participant has arrived. The
group is the cluster (tower × 16 + cluster), the tower, or 0. -/
def execBarrierRelease (scope : BitVec 2) (group : BitVec 8) (s : State) : Host.Outcome State Fault Refusal :=
  finish (barrierStep s scope.toNat (if scope.toNat ≤ 1 then group.toNat else 0))

end Sys2Proof.Machine
end

