-- ==== Sys2Proof/Machine/EngineMove.lean ====
section
/-! DEFINITION. The data movement of DMA and DMAR (R109, R114, R224, R225, R343, R344), and the requests they send to
other modules. -/

namespace Sys2Proof.Machine

/-- The tower that holds an address; 0 for the slow tier. -/
def addrTower (a : Nat) : Nat :=
  if a < 0x20000000000 then a / 2 ^ 37
  else if a < 0x21000000000 then (a - 0x20000000000) / 0x100000000
  else 0

/-- The poison field of a header: bit g stands for group g of the data (R341). -/
def poisonField (l : List PByte) : BitVec 16 :=
  BitVec.ofNat 16 ((chunks 32 16 l).foldr (fun c acc => b2n (anyPoison c) + 2 * acc) 0)

/-- Data of a message with the poison its header names. -/
def msgBytes (h : Header) (d : List Byte) : List PByte := d.mapIdx fun i b => (b, h.poison.getLsbD (i / 32))

/-- Send a request from tower t to the device and address of `remote`, and remember it (R343, R344). No valid route: none. -/
def sendReq (s : State) (q : Req) (ty fmt : Nat) (data : List PByte) : Option State :=
  let a := q.remote % 2 ^ 48
  let id := s.fab.nextReq
  let h : Header := { hdrTo (q.remote / 2 ^ 48) (deviceId s) with
    lines := BitVec.ofNat 2 (q.lines - 1), srcTower := BitVec.ofNat 4 q.tower, dstTower := BitVec.ofNat 4 (addrTower a),
    fmt := BitVec.ofNat 8 fmt, addr := BitVec.ofNat 48 a, id := BitVec.ofNat 16 id, poison := poisonField data }
  (inject s q.tower ty h (pdata data)).map fun s =>
    { s with fab := { s.fab with nextReq := (id + 1) % 65536, reqs := s.fab.reqs ++ [{ q with id := id }] } }

/-- A DMA or DMAR under way: its core, and where the host's data of its source lie. -/
structure Mover where
  lc : Nat
  q : QCmd
  host : HostData
deriving DecidableEq, Repr

/-- Bytes of one transfer: a reduction group for LACC-96, else a line (R225). -/
def Mover.unit (m : Mover) : Nat := if m.q.op = .dmar ∧ m.q.ins.fmtA = 0xA then 384 else 128
def Mover.src (m : Mover) : Nat := m.q.va.toNat
def Mover.dst (m : Mover) : Nat := m.q.vb.toNat
def Mover.len (m : Mover) : Nat := m.q.vc.toNat
/-- A window violation of the command at an address. -/
def moveTrap (dev a : Nat) : Trap := ⟨0x10, dev, some (a % 2 ^ 48)⟩
/-- The request that carries one unit. -/
def Mover.req (m : Mover) (read : Bool) (remote dest n : Nat) : Req :=
  ⟨0, m.lc, m.q.id, m.q.pc, m.lc / 256, read, remote, dest, n / 128⟩

/-- Does a destination accept a reduce-add of n bytes (R224, R225)? -/
def reduceTargetOk (s : State) (a n : Nat) (group : Bool) : Bool :=
  rangeOk s Place.isFast a n &&
  (!group || (a % 2 ^ 37 < 0x1200000000 && a % 2 ^ 37 / colBytes = (a + n - 1) % 2 ^ 37 / colBytes &&
    a / 2 ^ 37 = (a + n - 1) / 2 ^ 37))

/-- Add a unit of contribution bytes at its home slices (R226). -/
def contribute (s : State) (fmt a : Nat) (l : List PByte) : State :=
  let unit := if fmt = 0xA then 384 else 128
  (indexed (chunks unit (l.length / unit + 1) l)).foldl (fun s e =>
    match place s (a + e.1 * unit) with
    | .fast k => acceptContrib s (k / 128) fmt (pdata e.2) (e.2.map (·.2))
    | _ => s) s

/-- Read a unit of a local source: memory, or the host window (R484). -/
def Mover.read (m : Mover) (s : State) (off : Nat) : State × List PByte :=
  let a := m.src % 2 ^ 48 + off
  (linesOf a m.unit).foldl (fun r p =>
    match place r.1 p.1 with
    | .host bus =>
      let d := hostBytes m.host
      (emit r.1 (.hostRead bus 128), r.2 ++ (List.range 128).map fun i => d.getD (p.1 - m.src % 2 ^ 48 + i) (0, false))
    | _ => let q := lineRead r.1 p.1 0 128; (q.1, r.2 ++ q.2)) (s, [])

/-- Write a unit at a local destination, or send it to the host window (R420). -/
def writeOut (s : State) (a : Nat) (l : List PByte) : State :=
  ((linesOf a l.length).foldl (fun (r : State × List PByte) p =>
    let d := r.2.take p.2.2
    (match place r.1 p.1 with
      | .host bus => toHost r.1 (.hostWrite (bus + p.2.1) (pdata d) (anyPoison d))
      | _ => lineWrite r.1 p.1 p.2.1 d, r.2.drop p.2.2)) (s, l)).1

/-- Deliver a unit that has been read to its destination, or the violation it meets. -/
def Mover.deliver (m : Mover) (s : State) (off : Nat) (l : List PByte) : State × Option Trap :=
  let dev := m.dst / 2 ^ 48
  let a := m.dst % 2 ^ 48 + off
  let red := m.q.op = .dmar
  let fmt := if red then m.q.ins.fmtA else 0
  if isSelf s dev then
    if red then
      if !reduceTargetOk s a m.unit (m.unit = 384) then (s, some (moveTrap 0xFFFF a))
      else
        let f := takeEffect s m.lc m.q.eff false (m.unit / 128)
        (if f.2 then contribute f.1 fmt a l else f.1, none)
    else
      match badAddr s Place.engineOk a m.unit with
      | some b => (s, some (moveTrap 0xFFFF b))
      | none => (writeOut s a l, none)
  else
    let f := if red then takeEffect s m.lc m.q.eff true (m.unit / 128) else (s, true)
    if !f.2 then (f.1, none)
    else
      match sendReq f.1 (m.req false (dev * 2 ^ 48 + a) 0 m.unit) (if red then mtReduce else mtWrite) fmt l with
      | some s => (s, none)
      | none => (f.1, some (moveTrap dev a))

/-- Move the unit at offset off: a local one is read and delivered, a remote one is asked for. -/
def Mover.one (m : Mover) (s : State) (off : Nat) : State × Option Trap :=
  let dev := m.src / 2 ^ 48
  let a := m.src % 2 ^ 48 + off
  if isSelf s dev then
    match badAddr s Place.engineOk a m.unit with
    | some b => (s, some (moveTrap 0xFFFF b))
    | none => let r := m.read s off; m.deliver r.1 off r.2
  else
    match sendReq s (m.req true (dev * 2 ^ 48 + a) (m.dst + off) m.unit) mtRead 0 [] with
    | some s => (s, none)
    | none => (s, some (moveTrap dev a))

/-- Move at most n units of a command from offset off on, up to the first violation. DEDUCED: log entry 33. -/
def Mover.run (m : Mover) : Nat → State → Nat → State × Option Trap
  | 0, s, _ => (s, none)
  | n + 1, s, off =>
    if m.len ≤ off then (s, none)
    else
      let r := m.one s off
      if r.2.isSome then r else m.run n r.1 (off + m.unit)

/-- Does the source of a command touch the host? -/
def Mover.fromHost (m : Mover) (s : State) : Bool :=
  isSelf s (m.src / 2 ^ 48) && (match place s (m.src % 2 ^ 48) with | .host _ => true | _ => false)

/-- Is a request of the command still unanswered? -/
def reqOpen (s : State) (lc id : Nat) : Bool := s.fab.reqs.any fun r => r.core = lc && r.cmd = id

/-- A DMA or DMAR goes on: it moves its data the first time, and has completed once no request of it is open. The Bool says
that it has completed. A read of the host that is held waits (R484). -/
def moveStep (s : State) (lc : Nat) (q : QCmd) (host : HostData) : State × Bool :=
  let m : Mover := ⟨lc, q, host⟩
  if q.st = 2 then (s, !reqOpen s lc q.id)
  else if m.fromHost s && !busMaster s then (s, false)
  else if isSelf s (m.src / 2 ^ 48) && withheldFrom s lc (m.src % 2 ^ 48) m.len then (s, false)
  else
    let s := engMark s lc q.id 2
    let r := m.run (m.len / 128) s 0
    match r.2 with
    | some t => (engTrap r.1 lc q.pc t, false)
    | none => (r.1, !reqOpen r.1 lc q.id)

/-! ### Commands of an abandoned attempt (R128) -/

/-- A started DMA or DMAR stops at a 128-byte line: the units before it, a number the spec leaves open, have been moved. DEDUCED: log entry 33. -/
def haltMove (s : State) (lc : Nat) (q : QCmd) : State :=
  let m : Mover := ⟨lc, q, ⟨[], []⟩⟩
  if m.fromHost s && !busMaster s || isSelf s (m.src / 2 ^ 48) && withheldFrom s lc (m.src % 2 ^ 48) m.len then s
  else
    let n := Config.freeChoice s.free (m.len / m.unit) % (m.len / m.unit + 1)
    let m := { m with host := ⟨(List.range (n * m.unit)).map (Config.freeByte (s.free + 1)), []⟩ }
    (m.run n (fresh (fresh s)) 0).1

/-- A started MST stops at a row: the rows before it, a number the spec leaves open and none that is poisoned, have been stored. DEDUCED: log entry 33. -/
def haltStore (s : State) (pk lc : Nat) (q : QCmd) : State :=
  let cols := (partGeom ((coreOf s pk).arrN q.ins.arr).mode q.ins.part).2.2.2
  let rows := q.rows.takeWhile fun r => !r.poison
  let n := Config.freeChoice s.free rows.length % (rows.length + 1)
  (mstRows pk lc (sloe s) q cols (rows.take n) (fresh s) (Cap.init, 0)).1

/-- The commands that an abandoned attempt of a core had started stop (R128): what they have moved stays moved, with its effects counted
(R78), and nothing of them is answered. DEDUCED: log entry 33. -/
def haltAll (s : State) (lc : Nat) : State :=
  let pk := physCore s lc
  let s := (coreOf s pk).halting.foldl (fun s q => if q.op = .mst then haltStore s pk lc q else haltMove s lc q) s
  let s := modRouter (modCore s pk fun c => { c with halting := [] }) lc fun r => { r with cur := [] }
  { s with fab := { s.fab with reqs := s.fab.reqs.filter fun r => r.core ≠ lc } }

end Sys2Proof.Machine
end

