-- ==== Sys2Proof/Machine/Engines.lean ====
section
/-! DEFINITION. The completion of engine commands (R114, R120): when its work is done, a command leaves the core's engine queue and
its token rises. -/

namespace Sys2Proof.Machine

/-- The command leaves the engine queue and its token rises (R114, R120). -/
def engDone (s : State) (lc : Nat) (q : QCmd) : State :=
  if (coreL s lc).eng.any fun x => x.id = q.id then
    tokDone (modCoreL s lc fun c => { c with eng := c.eng.filter fun x => x.id ≠ q.id }) lc q.ins
  else s

/-- The core still holds the engine command (it was not abandoned). -/
def engHolds (s : State) (lc id : Nat) : Bool := (coreL s lc).eng.any fun x => x.id = id

/-! ### Channels (R247 to R254) -/

/-- Perform the ROWMODE at the front of a channel's queue. -/
def modeFront (s : State) (ch : Nat) (c : ChanCmd) : State :=
  chanPop (if c.kind = 1 then enterRowan s ch else exitRowan s ch) ch

/-- ROWMODEs of abandoned attempts run to completion by themselves (R128). -/
def chanSettle : Nat → State → Nat → State
  | 0, s, _ => s
  | n + 1, s, ch =>
    match (chanAt s ch).queue with
    | c :: _ => if c.kind ≠ 0 ∧ !engHolds s c.core c.id then chanSettle n (modeFront s ch c) ch else s
    | [] => s

/-- Let a channel's abandoned ROWMODEs run. -/
def chanGo (s : State) (ch : Nat) : State := chanSettle (chanAt s ch).queue.length s ch

/-- A channel still holds a command of a core. -/
def chanHolds (s : State) (ch lc id : Nat) : Bool := (chanAt s ch).queue.any fun c => c.core = lc && c.id = id

/-- Some channel of a tower still holds a command of a core. -/
def towerHolds (s : State) (t lc id : Nat) : Bool :=
  s.chans.any fun e => e.1 / 272 = t && e.2.queue.any fun c => c.core = lc && c.id = id

/-- A ROWMODE ends once it stands at the front of its channel's queue (R247 to R249). -/
def endRowmode (s : State) (lc : Nat) (q : QCmd) : State :=
  let ch := chanOf s (lc / 256) (q.va.toNat % 256)
  let s := chanGo s ch
  if !chanHolds s ch lc q.id then engDone s lc q
  else
    match (chanAt s ch).queue with
    | c :: _ => if c.core = lc ∧ c.id = q.id then engDone (modeFront s ch c) lc q else s
    | [] => s

/-! ### The other engines -/

/-- What a walk answered takes effect. -/
def walkEnd (e : Nat) (x : AttCmd) (r : AttAns) : State :=
  match r.2 with
  | .ok v => attDone r.1 e x v
  | .error y => attAdvance (attErr r.1 e x y) e

/-- Walks of abandoned attempts run to completion by themselves (R128, R271). DEDUCED: log entry 43. -/
def walkSettle (s : State) (e : Nat) : State :=
  (List.range (attAt s e).queue.length).foldl (fun s _ =>
    match ((attAt s e).queue.take 4).find? fun x => x.started && x.walk && x.abandoned with
    | some x => walkEnd e x (attWalk s e x)
    | none => s) (attAdvance s e)

/-- PFXWALK (R299): the walk runs and the command ends. -/
def endWalk (s : State) (lc : Nat) (q : QCmd) : State :=
  let e := attIdx lc
  let s := walkSettle s e
  match ((attAt s e).queue.take 4).find? fun x => x.started && x.walk && x.core = lc && x.id = q.id with
  | some x =>
    let r := attWalk s e x
    let t := walkEnd e x r
    match r.2 with
    | .ok _ => engDone t lc q
    | .error _ => t
  | none => s

/-- An attention engine still holds a command of the core's attempt. -/
def attHolds (s : State) (lc id : Nat) : Bool :=
  (attAt s (attIdx lc)).queue.any fun x => x.core = lc && x.id = id && !x.abandoned

/-- The tower's collective engine still runs or holds a COLL of the core. -/
def collHolds (s : State) (lc id : Nat) : Bool := (collEng s (lc / 256)).queue.any fun x => x.core = lc && x.id = id

/-- A region wake that the command waits for has not ended. -/
def wakeHolds (s : State) (lc id : Nat) : Bool := s.pwr.staging.any fun x => x.core = lc && x.id = id

/-- Complete a started engine command of a core if its work is done. -/
def endEngine (s : State) (lc : Nat) (q : QCmd) (host : HostData) : State :=
  match q.op with
  | .dma | .dmar =>
    let r := moveStep s lc q host
    if r.2 then engDone r.1 lc q else r.1
  | .rowop => if towerHolds s (lc / 256) lc q.id then s else engDone s lc q
  | .rowmodeEnter | .rowmodeExit => endRowmode s lc q
  | .attcmd => if attHolds s lc q.id then s else engDone s lc q
  | .pfxwalk => endWalk s lc q
  | .coll => if collHolds s lc q.id then s else engDone s lc q
  | .rwake => if wakeHolds s lc q.id then s else engDone s lc q
  | _ => engDone s lc q

/-- ENGINE_COMMAND_COMPLETION (R114, R120): the k-th of the core's started engine commands completes. DEDUCED: log entry 33. -/
def execEngineCommandCompletion (core : BitVec 12) (k : Nat) (host : HostData) (s : State) :
    Host.Outcome State Fault Refusal :=
  finish (coreEvent s core.toNat fun s _ =>
    let lc := core.toNat
    match ((coreL s lc).eng.filter fun q => q.st ≠ 0)[k]? with
    | some q => endEngine s lc q host
    | none => s)

end Sys2Proof.Machine
end

