-- ==== Sys2Proof/Machine/Fence.lean ====
section
/-! DEFINITION. Spares (R427 to R430): states of cores and columns, fencing and spare substitution (R81), the repair of
array columns (R160 to R163), column migration (R262, R263) and regions powered off (R71). -/

namespace Sys2Proof.Machine

/-! ### States of units (R428) -/

/-- States of a physical core (tower × 272 + index). -/
def csSpare : Nat := 0
def csActive : Nat := 1
def csFencing : Nat := 2
def csFenced : Nat := 3
def csRetired : Nat := 4
def csQuar : Nat := 5

def unitField (pk : Nat) : Nat × Nat × Nat :=
  let p := pk % 272 % 17
  (clBase (pk / 272) (pk % 272 / 17), 3 * p + 2, 3 * p)
def coreState (s : State) (pk : Nat) : Nat := let f := unitField pk; fget s (f.1 + 0x40) f.2.1 f.2.2
def setCoreState (s : State) (pk v : Nat) : State := let f := unitField pk; fset s (f.1 + 0x40) f.2.1 f.2.2 v
def colState (s : State) (ch : Nat) : Nat := let f := unitField ch; fget s (f.1 + 0x48) f.2.1 f.2.2
def setColState (s : State) (ch v : Nat) : State := let f := unitField ch; fset s (f.1 + 0x48) f.2.1 f.2.2 v

/-- Record a retired unit in the flash's repair record: kind 0 core, 1 column. -/
def recordRetired (s : State) (kind u : Nat) : State :=
  { s with boot := { s.boot with repair := if s.boot.repair.contains (kind, u) then s.boot.repair else s.boot.repair ++ [(kind, u)] } }

/-- The 17 units of the cluster of a unit. -/
def clusterUnits (u : Nat) : List Nat := (List.range 17).map fun p => u / 272 * 272 + u % 272 / 17 * 17 + p

/-- The cluster's unmapped spare, when there is one. -/
def spareCore (s : State) (pk : Nat) : Option Nat := (clusterUnits pk).find? fun u => coreState s u = csSpare
def spareCol (s : State) (ch : Nat) : Option Nat := (clusterUnits ch).find? fun u => colState s u = 0

/-- Entry k of a map of the CL_ block at `cl` (R429): `o` is 0x10 for cores, 0x20 for columns. -/
def mapEntry (s : State) (cl o k : Nat) : Nat := fget s (cl + o + 8 * (k / 8)) (8 * (k % 8) + 4) (8 * (k % 8))
def setMapEntry (s : State) (cl o k v : Nat) : State := fset s (cl + o + 8 * (k / 8)) (8 * (k % 8) + 4) (8 * (k % 8)) v

/-- Map a physical unit into logical position k of its cluster (R429): `o` is 0x10 for cores, 0x20 for columns. A position that the unit
itself stood in, fenced without a spare and holding no core since (R81), is left with the unit that gives up position k, so that the
mapping stays one-to-one (R17). DEDUCED: log entry 14. -/
def mapUnit (s : State) (o u k : Nat) : State :=
  let cl := clBase (u / 272) (u % 272 / 17)
  let p := u % 272 % 17
  let gone := mapEntry s cl o k
  let s := ((List.range 16).filter fun j => mapEntry s cl o j = p).foldl (fun s j => setMapEntry s cl o j gone) s
  let s := setMapEntry s cl o k p
  fset s (cl + 0x30) 31 0 ((fget s (cl + 0x30) 31 0 + 1) % 2 ^ 32)

/-! ### Regions powered off (R71, R82) -/

/-- Power a region off (R71): region_limit becomes 3 and a running plan stops. DEDUCED: log entry 46. -/
def regionOff (s : State) (r : Nat) : State :=
  let s := setRegionState s r 3
  setRegionLimit (stopPlan s stShape 0) r 3

/-! ### Fencing (R81, R429) -/

/-- Copy the committed scale table of a core to another (R185, R429): entries, rings, and the overflow flags of the flush counters that
the entries hold, CORE_CNT_OVF1 to CORE_CNT_OVF4, so that each copied counter reads as it read in the source (R51). DEDUCED: log entry 87. DEDUCED: log entry 95. -/
def copyScales (s : State) (src dst : Nat) : State :=
  let a := coreBase (src / 272) (src % 272)
  let b := coreBase (dst / 272) (dst % 272)
  let copy (o n : Nat) (s : State) : State :=
    (List.range n).foldl (fun s i => regPut s (b + o + 8 * i) (regGet s (a + o + 8 * i))) s
  let syn := (s.ctl.syn.filter fun e => a + 0x1000 ≤ e.1 && e.1 < a + 0x4000).foldl (fun t e => tput t (e.1 - a + b) e.2)
    (tclear s.ctl.syn (b + 0x1000) (b + 0x4000))
  copy 0x708 4 (copy 0x1000 512 (copy 0x2000 1024 { s with ctl := { s.ctl with syn := syn } }))

/-- Fence a core (R81 step 1): the notice and the count. -/
def fenceCore (s : State) (pk : Nat) : State :=
  let s := setCoreState s pk csFencing
  countStn (notice s 0x1012 1 (pk % 272) (pk / 272) 0) 19 1

/-- The router of a core that may not inject refuses what the core sends all the same; a sound core sends nothing, and the spec fixes no number
for one that is not (R429, R438, R441). DEDUCED: log entry 48. -/
def refuseInjections (s : State) (pk : Nat) : State := count (fresh s) (nocBase (pk / 272)) 0 (Config.freeChoice s.free 0)

/-- Put the spare u in the logical position of the fenced core (R81 steps 2 to 5, R429). The share, when there is one,
waits for its replay on the spare, as the first attempt there; a share that has arrived is not replayed, and its captures stay staged (R187). -/
def installSpare (s : State) (lc pk u : Nat) : State :=
  let old := coreOf s pk
  let s := copyScales (refuseInjections s pk) pk u
  let s := l1Clear s pk
  let s := l1Clear s u
  let s := mapUnit s 0x10 u (lc % 16)
  let s := setCoreState (setCoreState s u csActive) pk csFenced
  let s := setCore s u { Core.init with
    st := old.st, nextId := old.nextId, entry := old.entry, attempt := 0, poisonAt := old.poisonAt,
    s := if old.st = .arrived ∨ old.st = .parked then old.s else [], p := if old.st = .arrived ∨ old.st = .parked then old.p else [],
    pc := old.pc, sTag := if old.st = .arrived ∨ old.st = .parked then old.sTag else []
    stage := if old.st = .arrived then old.stage else []
    stageUnfit := if old.st = .arrived then old.stageUnfit else 0 }
  modCore s pk Core.idle

/-- Fence a core and substitute the cluster's spare, or stop the plan and power the region off (R81). DEDUCED: log entry 46. -/
def fenceAndSpare (s : State) (pk : Nat) : State :=
  match logicalCore s pk with
  | none => setCoreState (fenceCore s pk) pk csFenced
  | some lc =>
    let s := fenceCore s pk
    match spareCore s pk with
    | some u =>
      let c := coreOf s pk
      let s := if c.st = .run ∨ c.st = .commit then abandonShare s lc else s
      installSpare (haltAll s lc) lc pk u
    | none =>
      let s := setCoreState s pk csFenced
      let s := if s.run.isSome then stopPlan s stStepFailed 0 else s
      let r := lc / 16
      setRegionLimit (setRegionState s r 3) r 3

/-! ### Array columns (R160 to R163) -/

/-- Repair state and width for a count of bad columns (R160). -/
def repairOf (n : Nat) (row : Bool) : Nat × Nat :=
  if row then (3, 0) else if n = 0 then (0, 64) else if n ≤ 2 then (1, 64) else (2, Nat.max 1 (66 - n))

/-- Show the repair state of an array that its bad columns give, with the notices of R162, R163 and R166 for what is new:
`newCols` are the columns just marked. -/
def setRepair (s : State) (pk n : Nat) (newCols : List Nat) (was : Nat) : State :=
  let r := repairOf (badCols s pk n).length (rowFault s pk n)
  let s := fset (fset s (arrBlk pk n) 30 24 r.2) (arrBlk pk n) 22 20 r.1
  let det (c : Nat) : Nat := n + c * 2 ^ 8 + r.2 * 2 ^ 16 + r.1 * 2 ^ 24
  let say (s : State) (k c : Nat) : State := notice s (0x0C00 + k) 1 (pk % 272) (pk / 272) (det c)
  if r.1 ≤ 1 then newCols.foldl (fun s c => say s 1 c) s
  else if r.1 = 2 then (if was = 2 then s else say s 2 (newCols.headD 0x7F))
  else (if was = 3 then s else say s 3 0x7F)

/-- List the narrow arrays of the logical cores (R69). DEDUCED: log entry 37. -/
def narrowList (s : State) : List (Nat × Nat × Nat) :=
  (List.range 4096).flatMap fun l =>
    let pk := physCore s l
    [0, 1].filterMap fun n =>
      if coreState s pk = csActive ∧ fget s (arrBlk pk n) 22 20 = 2 then some (l, n, fget s (arrBlk pk n) 30 24) else none

/-- Write ARR_BAD_COLS of an array (R160, R162): bad columns as bits 65:0, the row fault in bit 127. What arrays compute follows at their
next rebuild point (R150). -/
def writeBadCols (s : State) (pk n : Nat) (v : Nat) : State :=
  let b := arrBlk pk n
  let before := badCols s pk n
  let was := fget s b 22 20
  let s := regPut (regPut s (b + 0x10) (BitVec.ofNat 64 v)) (b + 0x18) (BitVec.ofNat 64 (bits v 65 64 * 1 + bits v 127 127 * 2 ^ 63))
  setRepair s pk n ((badCols s pk n).filter fun c => !before.contains c) was

/-- The repair state of an array. -/
def repairState (s : State) (pk n : Nat) : Nat := fget s (arrBlk pk n) 22 20

/-- An array of a core is narrow or failed. -/
def armsBad (s : State) (pk : Nat) : Bool := 2 ≤ repairState s pk 0 || 2 ≤ repairState s pk 1

/-- STN_ notice 0x15 for an array that has entered the narrow state (R163). -/
def narrowNotice (s : State) (was now : Nat) : State :=
  if now = 2 ∧ was < 2 then notice s 0x1015 0 0xFFFF 0xFF s.stone.shapeGen else s

/-- The narrow arrays that the shape table lists follow the arrays (R69, R163). -/
def relist (s : State) : State :=
  let l := narrowList s
  if l = s.stone.narrow then s else shapeChanged { s with stone := { s.stone with narrow := l } }

/-- An array of a core has entered the narrow or failed state `now` (R160, R162, R163). A mapped core gives its position to the spare under
R81; with none free the plan that runs stops as R81 says, and without a plan a failed array costs the region and a narrow one enters the
shape table. An unmapped spare is retired. DEDUCED: log entry 37. -/
def arrayLost (s : State) (pk was now : Nat) : State :=
  match logicalCore s pk with
  | none =>
    narrowNotice (if coreState s pk = csSpare then recordRetired (setCoreState s pk csRetired) 0 pk else s) was now
  | some lc =>
    if (spareCore s pk).isSome then narrowNotice (fenceAndSpare s pk) was now
    else if s.run.isSome then fenceAndSpare s pk
    else if now = 3 then
      relist (setRegionLimit (setRegionState (recordRetired (setCoreState s pk csRetired) 0 pk) (lc / 16) 3) (lc / 16) 3)
    else relist s

/-- What follows when the bad columns of an array have been written: `was` is the repair state before. -/
def repairActs (s : State) (pk n was : Nat) : State :=
  let now := repairState s pk n
  if was < now ∧ 2 ≤ now then arrayLost s pk was now
  else if now = 2 then relist s else s

/-! ### Columns (R262, R263) -/

/-- Copy every byte of a logical column (R262 step 4): single-bit errors are corrected, what cannot be read becomes
poison. Every line is read on the old channel and written on the spare's (R264). DEDUCED: log entry 45. -/
def copyColumn (s : State) (ch u l : Nat) : State :=
  let s := count (count s (chBase ch) 0 147456) (chBase ch) 1 2359296
  let s := count (count s (chBase u) 0 147456) (chBase u) 2 2359296
  let t := ch / 272
  let lo := placeKey t l 0
  let bad := (s.mem.syn.map (·.1)).filter fun k => lo ≤ k && k < lo + colBytes
  bad.foldl (fun s k => (checkedRead s .vch (chBase ch) 3 k (k - lo)).1) s

/-- The lines the running plan pins that a slice is home of are pinned there (R223). -/
def repin (s : State) (ch : Nat) : State :=
  (s.llc.pins.filter fun k => lineSlice s k = ch).foldl (fun s k => fillLine (ensureLine s k) k) s

/-- A column whose cluster has no spare column is lost (R263). -/
def columnLost (s : State) (ch : Nat) : State :=
  let s := notice s 0x0505 1 (ch % 272) (ch / 272) (ch % 272)
  let s := modChan s ch fun c => { c with wantMigrate := false }
  regionOff s (ch / 272 * 16 + ch % 272 / 17)

/-- Migrate a column to the cluster's spare column (R262, R263). DEDUCED: log entry 45. -/
def migrate (s : State) (ch : Nat) : State :=
  match logicalCol s ch, spareCol s ch with
  | some l, some u =>
    let s := setColState s ch 2
    let mode := chanMode s ch
    let s := setMode (regenAll (chanDrain s ch) ch) ch 0
    let s := copyColumn (flushSlice s ch) ch u l
    let s := setColState (setColState (mapUnit s 0x20 u (l % 16)) u 1) ch 3
    let s := fset (fset s (chBase ch) 11 11 1) (chBase ch) 9 9 1
    let s := recordRetired s 1 ch
    let s := setMode s u mode
    let s := if mode = 0 then repin s u else s
    let s := modChan s ch fun c => { c with wantMigrate := false }
    let s := { s with run := s.run.map fun r => { r with held := true } }
    let us := Config.freeChoice s.free 1601 % 1601
    notice (fresh s) 0x0504 1 (ch % 272) (ch / 272) (ch % 272 + u % 272 * 2 ^ 16 + us * 2 ^ 32)
  | some _, none => columnLost s ch
  | none, _ => modChan s ch fun c => { c with wantMigrate := false }

end Sys2Proof.Machine
end

