-- ==== Sys2Proof/Machine/Channel.lean ====
section
/-! DEFINITION. The vertical channels: Rowan operations (R251 to R258), ordinary accesses in Rowan mode (R259), line clones
(R261), the maintenance window (R241 to R246), refresh rates (R243) and column migration (R262). Rows address a channel
by its tower and its index 17c + p. -/

namespace Sys2Proof.Machine

/-- A channel by tower and index. -/
def chanIdx (tower : BitVec 4) (chan : BitVec 9) : Nat := tower.toNat * 272 + chan.toNat
def chanOk (chan : BitVec 9) : Bool := chan.toNat < 272

/-! ### Operations (R252, R254) -/

/-- Drop the first entry of the ROWOP at the front of the queue; an empty ROWOP leaves the queue. -/
def rowNext (s : State) (ch : Nat) : State :=
  match (chanAt s ch).queue with
  | c :: r =>
    if c.ents.length ≤ 1 then chanGo (chanPop s ch) ch
    else modChan s ch fun x => { x with queue := { c with ents := c.ents.drop 1 } :: r }
  | [] => s

/-- The next operation of a channel in ROWAN, or in EXITING, when it has the code (R249, R254). -/
def rowRun (s : State) (ch op : Nat) (f : State → Nat → RowEnt → State) : State :=
  let s := chanGo s ch
  match (chanAt s ch).queue with
  | c :: _ =>
    match c.ents with
    | e :: _ =>
      if c.kind = 0 ∧ e.op = op ∧ 2 ≤ chanMode s ch then rowNext (count (f s ch e) (chBase ch) 6 1) ch else s
    | [] => s
  | [] => s

def execRowanAnd (tower : BitVec 4) (chan : BitVec 9) (s : State) : Host.Outcome State Fault Refusal :=
  shaped (chanOk chan) "ROWAN_AND" (rowRun s (chanIdx tower chan) 1 rowAnd)
def execRowanOr (tower : BitVec 4) (chan : BitVec 9) (s : State) : Host.Outcome State Fault Refusal :=
  shaped (chanOk chan) "ROWAN_OR" (rowRun s (chanIdx tower chan) 2 rowOr)
def execRowanXor (tower : BitVec 4) (chan : BitVec 9) (s : State) : Host.Outcome State Fault Refusal :=
  shaped (chanOk chan) "ROWAN_XOR" (rowRun s (chanIdx tower chan) 3 rowXor)
def execRowanNot (tower : BitVec 4) (chan : BitVec 9) (s : State) : Host.Outcome State Fault Refusal :=
  shaped (chanOk chan) "ROWAN_NOT" (rowRun s (chanIdx tower chan) 4 rowNot)
def execRowanMaj (tower : BitVec 4) (chan : BitVec 9) (s : State) : Host.Outcome State Fault Refusal :=
  shaped (chanOk chan) "ROWAN_MAJ" (rowRun s (chanIdx tower chan) 5 rowMajOp)
def execRowanClone (tower : BitVec 4) (chan : BitVec 9) (s : State) : Host.Outcome State Fault Refusal :=
  shaped (chanOk chan) "ROWAN_CLONE" (rowRun s (chanIdx tower chan) 6 rowClone)
def execFill0 (tower : BitVec 4) (chan : BitVec 9) (s : State) : Host.Outcome State Fault Refusal :=
  shaped (chanOk chan) "FILL0" (rowRun s (chanIdx tower chan) 7 (rowFill 0x00))
def execFill1 (tower : BitVec 4) (chan : BitVec 9) (s : State) : Host.Outcome State Fault Refusal :=
  shaped (chanOk chan) "FILL1" (rowRun s (chanIdx tower chan) 8 (rowFill 0xFF))

/-! ### Regeneration (R258) -/

/-- Stale rows of one bank of a die, lowest first. -/
def staleIn (s : State) (ch die bank : Nat) : List Nat :=
  (chanAt s ch).stale.filter fun ra => ra % 16 = bank && ra / 16 % 8 = die

/-- REGENERATION: the bank's regenerator takes the row that a waiting access or operation names, or its lowest stale row. -/
def execRegeneration (tower : BitVec 4) (chan : BitVec 9) (die : BitVec 3) (bank : BitVec 4) (want : Option (BitVec 18))
    (s : State) : Host.Outcome State Fault Refusal :=
  let ch := chanIdx tower chan
  let l := staleIn s ch die.toNat bank.toNat
  let pick := (want.bind fun w => l.find? (· = w.toNat)).orElse fun _ => l.head?
  shaped (chanOk chan) "REGENERATION" (match pick with
    | some ra => regenRow s ch ra
    | none => s)

/-! ### Ordinary accesses in Rowan mode (R259) and line clones (R261) -/

/-- ROWAN_ORDINARY_ACCESS: an access to a column whose channel is not in MEMORY is performed at the controller: a read of the
whole line, or a write of the bytes given, within the line. -/
def execRowanOrdinaryAccess (write : Bool) (addr : BitVec 48) (data : HostData) (s : State) : Host.Outcome State Fault Refusal :=
  let a := addr.toNat
  let d := hostBytes data
  shaped (!write || a % 128 + d.length ≤ 128) "ROWAN_ORDINARY_ACCESS" (match place s a with
    | .fast k =>
      if bypassed s (k / 128) then
        if write then lineWrite s (a / 128 * 128) (a % 128) d else (lineRead s (a / 128 * 128) 0 128).1
      else s
    | _ => s)

/-- LINE_CLONE (R261): lines first to first + n − 1 of a row are copied to another row of the subarray, in memory mode. -/
def execLineClone (tower : BitVec 4) (chan : BitVec 9) (src dst : BitVec 18) (first : BitVec 4) (n : BitVec 5) (s : State) :
    Host.Outcome State Fault Refusal :=
  let ch := chanIdx tower chan
  let ok : Bool := chanOk chan && src.toNat < 147456 && dst.toNat < 147456 && sameSub src.toNat dst.toNat && 1 ≤ n.toNat &&
    first.toNat + n.toNat ≤ 16
  shaped ok "LINE_CLONE" (if chanMode s ch = 0 ∧ (logicalCol s ch).isSome then
    cloneLines s ch src.toNat dst.toNat first.toNat n.toNat else s)

/-! ### The maintenance window (R241 to R246) -/

/-- The refresh slot (R243): at normal rate every fourth window, at quadruple rate every window. -/
def refreshSlot (s : State) (ch : Nat) : State :=
  let c := chanAt s ch
  let quad := fbit s (chBase ch) 5
  let s := if quad then count s (chBase ch) 4 1 else s
  if quad ∨ c.window % 4 = 0 then
    count (modChan s ch fun x => { x with refresh := (x.refresh + 1) % 1152 }) (chBase ch) 3 1
  else s

/-- The scrub slot (R245). A slot that cannot hold every correction makes some of them, and the pointer stays; uncorrectable bytes count as
they are found (R262). -/
def scrubSlot (s : State) (ch : Nat) (fits : Bool) : State :=
  let c := chanAt s ch
  let ra := c.scrub
  let on (s : State) : State := modChan s ch fun x => { x with scrub := (ra + 1) % 147456 }
  if c.stale.contains ra then on s
  else
    let s := count (count s (chBase ch) 5 1) (chBase ch) 0 1
    if (logicalCol s ch).isNone then on s
    else
      let k := rowKey s ch ra
      let found := (s.mem.syn.filter fun e => k ≤ e.1 && e.1 < k + 2048).map fun e => decodeByte (s.mem.read e.1) e.2
      let fix : Bool := found.any fun f => match f with | .corrected _ => true | _ => false
      let all := fits || !fix
      let n := if all then 2048 else Config.freeChoice s.free 2048 % 2048
      let bad := (s.mem.syn.filter fun e => k ≤ e.1 && e.1 < k + n && decodeByte (s.mem.read e.1) e.2 = .bad).length
      let s := (checkedReads .vch (chBase ch) 1 n (if all then s else fresh s) k (ra * 2048)).1
      let s := modChan s ch fun x =>
        { x with scrubBad := x.scrubBad + bad, wantMigrate := x.wantMigrate || (8 ≤ x.scrubBad + bad) }
      if all then on s else s

/-- The bond test slot (R246): the next group; a failing signal takes the group's spare, or asks for migration. -/
def bondSlot (s : State) (ch : Nat) (fails : Bool) : State :=
  let c := chanAt s ch
  let g := c.bondNext
  let s := modChan s ch fun x => { x with bondNext := (g + 1) % 56 }
  if !fails then s
  else if c.bondUsed.contains g then modChan s ch fun x => { x with wantMigrate := true }
  else
    let sig := Config.freeChoice s.free 32 % 32
    let s := fresh (modChan s ch fun x => { x with bondUsed := sadd x.bondUsed g })
    notice s 0x0503 1 (ch % 272) (ch / 272) (g + sig * 2 ^ 8)

/-- The regeneration slot (R242): on each die up to 4 stale rows of different banks, the lowest row of each. -/
def regenSlot (s : State) (ch : Nat) : State :=
  (List.range 8).foldl (fun s die =>
    (((List.range 16).filterMap fun b => (staleIn s ch die b).head?).take 4).foldl (fun s ra => regenRow s ch ra) s) s

/-- A migration that is needed in a cluster without a free spare column loses the column at once (R263). DEDUCED: log entry 45. -/
def lossDue (s : State) (ch : Nat) : State :=
  if (chanAt s ch).wantMigrate ∧ (logicalCol s ch).isSome ∧ (spareCol s ch).isNone then columnLost s ch else s

/-- MAINTENANCE_WINDOW (R241, R242): one window of a channel. `bondFails`: the bond test finds a failing signal; `fits`: the
scrub slot holds every correction. A channel in self-refresh has no windows. DEDUCED: log entry 45. -/
def execMaintenanceWindow (tower : BitVec 4) (chan : BitVec 9) (bondFails fits : Bool) (s : State) :
    Host.Outcome State Fault Refusal :=
  let ch := chanIdx tower chan
  shaped (chanOk chan) "MAINTENANCE_WINDOW" (
    if fbit s (chBase ch) 11 then s
    else
      let s := scrubSlot (refreshSlot s ch) ch fits
      let s := regenSlot (bondSlot s ch bondFails) ch
      lossDue (modChan s ch fun x => { x with window := x.window + 1 }) ch)

/-- NORMAL_REFRESH (R243): the governing temperature has stayed at or below 90 °C for 10 ms. -/
def execNormalRefresh (tower : BitVec 4) (chan : BitVec 9) (s : State) : Host.Outcome State Fault Refusal :=
  let ch := chanIdx tower chan
  let due : Bool := match (chanAt s ch).coolSince with
    | some t => t + 10000000 ≤ s.now
    | none => false
  shaped (chanOk chan) "NORMAL_REFRESH" (
    if fbit s (chBase ch) 5 ∧ due then
      notice (fset s (chBase ch) 5 5 0) 0x0502 1 (ch % 272) (ch / 272) (fget s (chBase ch) 47 40)
    else s)

/-- COLUMN_MIGRATION (R262, R263): a requested migration takes place at once while no plan runs; under a plan it waits for
the next commit, which carries it out. DEDUCED: log entry 45. -/
def execColumnMigration (tower : BitVec 4) (chan : BitVec 9) (s : State) : Host.Outcome State Fault Refusal :=
  let ch := chanIdx tower chan
  shaped (chanOk chan) "COLUMN_MIGRATION" (if (chanAt s ch).wantMigrate ∧ s.run.isNone then migrate s ch else s)

/-- At a commit every requested migration takes place (R262). DEDUCED: log entry 45. -/
def commitMigrations (s : State) : State :=
  ((s.chans.filter fun e => e.2.wantMigrate).map (·.1)).foldl (fun s ch => if s.run.isSome then migrate s ch else s) s

end Sys2Proof.Machine
end

