-- ==== Sys2Proof/Machine/FabricLink.lean ====
section
/-! DEFINITION. The links of the module: wiring (R345 to R351), flits with their CRC and retry (R333 to R337), failures with
tunnels and alternates (R336, R357 to R361). -/

namespace Sys2Proof.Machine

/-! ### Wiring (R345 to R348) -/

/-- Stem port number and runner port number of a link index. -/
def stemPort (l : Nat) : Nat := 2 * (l / 4) + l % 4
def runnerPort (l : Nat) : Nat := 2 * (l / 4) + l % 4 - 2
def stemLink (sp : Nat) : Nat := 4 * (sp / 2) + sp % 2
def runnerLink (rp : Nat) : Nat := 4 * (rp / 2) + 2 + rp % 2

/-- The stem port whose stem a port carries, after this module's substitutions (R345); none for a port out of use. -/
def stemCarried (s : State) (sp : Nat) : Option Nat :=
  let w := regGet s (stnBase + 0x2008)
  let from0 := getField w 4 0
  let from1 := getField w 12 8
  let v0 : Bool := getField w 5 5 = 1
  let v1 : Bool := getField w 13 13 = 1
  if sp = 30 then (if v0 then some from0 else none)
  else if sp = 31 then (if v1 then some from1 else none)
  else if (v0 && sp = from0) || (v1 && sp = from1) then none
  else some sp

/-- The device and link index at the far end of a stem (R345) of member m; none for a member the bunch does not have. -/
def stemPeer (s : State) (sp : Nat) : Option (Nat × Nat) :=
  let m := fget s (stnBase + 0x2000) 19 16
  let b := fget s (stnBase + 0x2000) 31 20
  let j := if sp < 15 then sp else sp - 15
  let n := (m + 1 + j) % 16
  let j' := (m + 16 - n - 1) % 16
  if n < fabMembers s then some (b * 16 + n, stemLink (if sp < 15 then j' else j' + 15)) else none

/-- The device and link index at the far end of a runner (R346). -/
def runnerPeer (s : State) (rp : Nat) : Option (Nat × Nat) :=
  let m := fget s (stnBase + 0x2000) 19 16
  let b := fget s (stnBase + 0x2000) 31 20
  let nb := fabNb s
  if nb < 2 then none
  else
    let r := 32 * m + rp
    let d := r % (nb - 1)
    let slot := (nb - 2 - d) + r / (nb - 1) * (nb - 1)
    some (((b + 1 + d) % nb) * 16 + slot / 32, runnerLink (slot % 32))

/-- What the rules wire a link to (R345, R346); none where they leave it unwired. -/
def linkPeer (s : State) (l : Nat) : Option (Nat × Nat) :=
  if l % 4 < 2 then (stemCarried s (stemPort l)).bind (stemPeer s) else runnerPeer s (runnerPort l)

/-- The far end of a link is as required (R351): its identifier and link index. The peer of a stem may carry it on one of its own
spare ports, links 60 and 61, and the link keeps the 40 ns of R339. DEDUCED: log entry 62. -/
def peerRight (s : State) (l : Nat) : Bool :=
  match linkPeer s l with
  | none => false
  | some r =>
    let id := fget s (linkBase l + 0x10) 63 48
    let pl := fget s (linkBase l + 0x10) 45 40
    id = r.1 && (pl = r.2 || (l % 4 < 2 && 60 ≤ pl && pl ≤ 61)) && fget s (linkBase l) 39 32 ≤ 40

/-- Route entries of the module that are listed: granules in the tables of port 0 of every tower. -/
def routeEntries (s : State) : List Nat :=
  (s.ctl.regs.map (·.1)).filter fun g => g < 0x40000000 &&
    (let o := g % 0x4000000 - 0x300000
     0x300000 ≤ g % 0x4000000 && ((0x4000 ≤ o && o < 0x4080) || (0x8000 ≤ o && o < 0x8000 + 8 * 1026)))

/-- STN_FABRIC_STATUS follows the ports and the tables: ready, alternates and tunnels. -/
def fabShow (s : State) : State :=
  let ready : Bool := fabEnabled s && (List.range 64).all fun l =>
    !fbit s (linkBase l) 5 || (portState s l = 4 && fbit s (linkBase l) 6)
  let alt : Bool := (routeEntries s).any fun g => fget s g 57 56 ≠ 0
  let tun : Bool := (List.range 64).any fun l => fbit s (linkBase l) 7
  let o := stnBase + 0x2010
  fset (fset (fset s o 0 0 (b2n ready)) o 6 6 (b2n alt)) o 7 7 (b2n tun)

/-- Check a wired port against its peer (R351): a mismatch clears wiring_ok and raises the notice. DEDUCED: log entry 62. -/
def checkWiring (s : State) (l : Nat) : State :=
  match linkPeer s l with
  | none => s
  | some r =>
    if peerRight s l then fset s (linkBase l) 6 6 1
    else
      let id := fget s (linkBase l + 0x10) 63 48
      let pl := fget s (linkBase l + 0x10) 45 40
      notice (fset s (linkBase l) 6 6 0) 0x0403 1 l (l / 4) (r.1 + id * 2 ^ 16 + pl * 2 ^ 32)

/-! ### IDENT (R349) -/

/-- Send an IDENT on a link. The echo is the peer's last timestamp with the time it was held here. -/
def sendIdent (s : State) (l : Nat) : State :=
  let p := portAt s l
  let echo := if p.peerSent = 0 then 0 else (p.peerSent + (s.now - p.peerAt)) % 2 ^ 64
  let d := leBytes 8 Config.serial.toNat ++ leBytes 1 l ++ leBytes 1 0xB0 ++ leBytes 1 s.boot.fw.major ++ leBytes 1 s.boot.fw.minor ++
    leBytes 2 (deviceId s) ++ leBytes 8 s.now ++ leBytes 8 echo
  sendOn (modPort s l fun p => { p with identAt := s.now }) l mtIdent 0 (hdrTo (fget s (linkBase l + 0x10) 63 48) (deviceId s)) (bytesAt d 0 64)

/-- Re-send IDENT on every UP link (R351). -/
def identAll (s : State) : State := ((List.range 64).filter fun l => portState s l = 4).foldl sendIdent s

/-- A port in IDENT that has received no IDENT sends its own again every microsecond (R349). -/
def identTick (s : State) : State :=
  ((s.fab.ports.map (·.1)).filter fun l =>
    let p := portAt s l
    portState s l = 3 && !p.heard && p.identAt + 1000 ≤ s.now).foldl sendIdent s

/-- A link reaches IDENT: both ends count from 0, and the first IDENT leaves (R349). -/
def enterIdent (s : State) (l : Nat) : State :=
  let s := modPort (setPortState s l 3) l fun p =>
    { p with retry := [], txSeq := 0, rxSeq := 0, resent := false, credits := [], toReturn := [], window := 0, sent := [], spareAt := none,
             toAsk := none, asked := none, fecMs := [], early := [], validAt := s.now, heard := false, peerSent := 0 }
  sendIdent s l

/-- What reached a module by another link's tunnel can go on: FAILOVERs that found no path, and what open tunnels hold (R360). -/
def resumeTunnels (send : State → Nat → State) (s : State) : State :=
  ((s.fab.ports.filter fun e => e.2.failed).map (·.1)).foldl (fun s l =>
    if fbit s (linkBase l) 7 then tunnelGo s l
    else if (portAt s l).tunnel.isNone ∧ !(portAt s l).switched then send s l
    else s) s

/-- Entries of a route word whose link is up, from the first alternate on. -/
def firstAlternate (s : State) (w : W64) : Option Nat :=
  [1, 2, 3].find? fun n => match routeField w n with
    | some l => portState s l = 4
    | none => false

/-- The switch of every entry that has link l in force to its first alternate whose link is up (R359). Entries without one
keep the failed link, and the notice of R360 is raised. The tunnel closes once it has delivered what it holds. -/
def switchLink (s : State) (l : Nat) : State :=
  let es := (routeEntries s).filter fun g => linkInForce (regGet s g) = some l
  let lost := es.any fun g => (firstAlternate s (regGet s g)).isNone
  let s := es.foldl (fun s g => match firstAlternate s (regGet s g) with
    | some n => fset s g 57 56 n
    | none => s) s
  let s := if lost then notice s 0x0404 1 l (l / 4) l else s
  let s := modPort s l fun p => { p with switched := true }
  fabShow (if fbit s (linkBase l) 7 then closeTunnel s l else s)

/-- The module's own FAILOVER for link l (R358 step 2), sent on the first path whose first link is up. DESIGN CHOICE: log entry 57. -/
def sendFailover (s : State) (l : Nat) : State :=
  match tunnelPath s l with
  | none => notice s 0x0404 1 l (l / 4) l
  | some (n, f, via) =>
    let seq := ((portAt s l).rxSeq + 65535) % 65536
    sendOn (modPort s l fun p => { p with tunnel := some n }) f mtFailover 0 (tunnelHeader s l via (seq + l * 65536)) []

/-- Open tunnels that the failure of a link leaves without a path hold their traffic, with the notice of R360. -/
def tunnelsCut (s : State) : State :=
  ((s.fab.ports.filter fun e => e.2.tunnel.isSome).map (·.1)).foldl (fun s l =>
    if (tunnelPath s l).isNone then notice (modPort s l fun p => { p with tunnel := none }) 0x0404 1 l (l / 4) l else s) s

/-- Link l fails (R336, R358): it is counted and reported, and its traffic waits for the tunnel. While no plan runs its routes
switch at once, otherwise at the next commit (R359). DEDUCED: log entry 61. -/
def failLink (s : State) (l cause : Nat) : State :=
  if portState s l ≠ 4 then s
  else
    let s := modPort (setPortState s l 5) l fun p => { p with failedAt := s.now, failed := true, switched := false }
    let s := notice (count s (linkBase l) 6 1) 0x0402 1 l (l / 4) cause
    let s := sendFailover (tunnelsCut s) l
    fabShow (if s.run.isNone then switchLink s l
      else { s with fab := { s.fab with toSwitch := sadd s.fab.toSwitch l } })

/-- A port is UP again or newly: tunnels that found no path go on. One that had failed carries only link-local messages, and one with its
old peer is reported (R361). -/
def portUp (s : State) (l : Nat) (same : Bool) : State :=
  let s := setPortState s l 4
  let s :=
    if (portAt s l).failed then
      let s := modPort (fset s (linkBase l) 7 7 0) l fun p => { p with failed := false, tunnel := none, localOnly := true }
      if same then notice s 0x0406 1 l (l / 4) (regGet s (linkBase l + 0x18)).toNat else s
    else s
  resumeTunnels sendFailover (pump s l)

/-- A received IDENT (R349): the peer is recorded; once it echoes this end's IDENT the delay is known and the port is UP. DEDUCED: log entry 62. -/
def takeIdent (s : State) (l : Nat) (m : IdentMsg) (received : W64) : State :=
  let st := portState s l
  if st ≠ 3 ∧ st ≠ 4 then s
  else
    let same : Bool := regGet s (linkBase l + 0x18) = m.serial
    let s := regPut s (linkBase l + 0x18) m.serial
    let w := regGet s (linkBase l + 0x10)
    let s := regPut s (linkBase l + 0x10)
      (setField (setField (setField w 63 48 m.device.toNat) 45 40 m.link.toNat) 39 32 m.stepping.toNat)
    let s := modPort s l fun p => { p with peerSent := m.sent.toNat, peerAt := received.toNat, heard := true }
    let s := if m.echo = 0 then sendIdent s l
      else
        let trip := (received - m.echo - m.held).toNat
        let s := fset s (linkBase l) 39 32 (Nat.min 255 (ceilDiv trip 2))
        if st = 3 then portUp (sendIdent s l) l same else s
    fabShow (if fabEnabled s ∧ fbit s (linkBase l) 5 then checkWiring s l else s)

/-- The link of this module whose far end is link `pl` of device `src`. -/
def linkOfPeer (s : State) (src pl : Nat) : Option Nat :=
  (List.range 64).find? fun l => fget s (linkBase l + 0x10) 63 48 = src && fget s (linkBase l + 0x10) 45 40 = pl

/-- Flits of a retry buffer that follow sequence number seq. -/
def afterSeq (l : List FlitBody) (seq : Nat) : List FlitBody := l.filter fun f => (f.seq + 65536 - seq - 1) % 65536 < 32768

/-- The peer's FAILOVER arrived (R358 step 3): the tunnel opens; the flits the peer has not taken, then the waiting ones, go
through it. DEDUCED: log entry 58. -/
def openTunnel (s : State) (l seq : Nat) : State :=
  if fbit s (linkBase l) 7 ∨ portState s l ≠ 5 then s
  else
    match tunnelPath s l with
    | none => s
    | some path =>
      let p := portAt s l
      let s := modPort (fset s (linkBase l) 7 7 1) l fun p => { p with retry := [], tunnel := some path.1 }
      let s := (afterSeq p.retry seq).foldl (fun s x => tunnelBody s l path x.vc x.hop x.seq x.body) s
      fabShow (tunnelGo s l)

/-- A received FAILOVER (R358): the failure is taken over from the peer when it is not known here, and the tunnel opens. DESIGN CHOICE: log entry 57. -/
def takeFailover (s : State) (src pl seq : Nat) : State :=
  match linkOfPeer s src pl with
  | none => s
  | some l =>
    let s := if portState s l = 4 then failLink s l 4 else s
    openTunnel s l seq

/-- Bodies that arrived early are accepted as their turn comes. DEDUCED: log entry 58. -/
def acceptEarly : Nat → State → Nat → State
  | 0, s, _ => s
  | n + 1, s, l =>
    let p := portAt s l
    if p.early.contains p.rxSeq then
      acceptEarly n (count (modPort s l fun p =>
        { p with rxSeq := (p.rxSeq + 1) % 65536, early := p.early.filter (· ≠ p.rxSeq) }) (linkBase l) 1 1) l
    else s

/-- A tunnelled body for link l (R358): taken in original order, one ahead of its turn later, one that has been received not again. DEDUCED: log entry 58. -/
def takeTunnel (s : State) (l seq : Nat) : State :=
  let p := portAt s l
  if (seq + 65536 - p.rxSeq) % 65536 < 32768 then
    let s := modPort s l fun p => { p with early := sadd p.early seq }
    acceptEarly (portAt s l).early.length s l
  else s

/-! ### Lanes (R337) -/

/-- Lane 8 takes the place of a lane: it is counted and reported (R337, R463). -/
def laneSpared (s : State) (l lane : Nat) : State :=
  let o := linkBase l
  let s := fset (fset (fset s o 24 24 1) o 23 20 lane) o (8 + lane) (8 + lane) 0
  notice (count s o 5 1) 0x0401 1 l (l / 4) lane

/-- A lane is replaced by lane 8 (R337); with lane 8 already in use the link fails (R336). -/
def spareLane (s : State) (l lane : Nat) : State :=
  if portState s l ≠ 4 then s
  else if fbit s (linkBase l) 24 then failLink s l 2
  else laneSpared (modPort s l fun p => { p with fecMs := tset 0 p.fecMs lane 0 }) l lane

/-- This end decides to replace a lane (R337): its next data flit carries the request. -/
def askSpare (s : State) (l lane : Nat) : State :=
  let free : Bool := portState s l = 4 && !fbit s (linkBase l) 24
  let s := spareLane s l lane
  if free then modPort s l fun p => { p with toAsk := some lane } else s

/-- The peer requests the replacement of a lane with the flit of sequence number seq (R337). Both ends may have asked for one lane. -/
def heedSpare (s : State) (l lane seq : Nat) : State :=
  let o := linkBase l
  if fbit s o 24 ∧ fget s o 23 20 = lane then s
  else
    let free : Bool := portState s l = 4 && !fbit s o 24
    let s := spareLane s l lane
    if free then modPort s l fun p => { p with spareAt := some (lane, (seq + 32) % 65536) } else s

/-- Training of a FAILED or DOWN link begins, once a second (R361, R463). -/
def trainBegin (s : State) (l : Nat) : State :=
  if (portState s l = 5 ∨ portState s l = 1) ∧ (portAt s l).failedAt + 1000000000 ≤ s.now then
    modPort (setPortState s l 2) l fun p => { p with failedAt := s.now }
  else s

/-- The locked lanes of a link that has trained (R463): with 8 or 9 it enters IDENT, lane 8 taking the place of a failed lane; with fewer
it is DOWN. -/
def trained (s : State) (l lanes : Nat) : State :=
  let o := linkBase l
  let s := fset (fset (fset s o 16 8 lanes) o 24 24 0) o 23 20 0
  if ((List.range 9).filter fun i => lanes.testBit i).length < 8 then setPortState s l 1
  else
    match (List.range 8).find? fun i => !lanes.testBit i with
    | some i => modPort (enterIdent (laneSpared s l i) l) l fun p => { p with spareAt := some (i, 0) }
    | none => enterIdent s l

/-- Training of a link in TRAINING ends. -/
def trainEnd (s : State) (l lanes : Nat) : State := if portState s l = 2 then trained s l lanes else s

/-! ### Flits (R333 to R336) -/

/-- Tell the peer which flit was last taken in order, asking for a resend. DEDUCED: log entry 61. -/
def sendNak (s : State) (l : Nat) : State := emitFlit s l (bareFlit true)

/-- A flit that fails its CRC (R335, R336): it is discarded with a nak; the one that the last nak asked for takes the link down. -/
def badFlit (s : State) (l : Nat) (f : Flit) : State :=
  let s := count s (linkBase l) 3 1
  let p := portAt s l
  if p.resent ∧ f.kind = 1 ∧ f.seq = p.rxSeq then failLink s l 1
  else sendNak (modPort s l fun p => { p with resent := true }) l

/-- Resend every flit of the retry buffer (R335). -/
def resendAll (s : State) (l : Nat) : State :=
  let p := portAt s l
  if p.retry.isEmpty then s
  else p.retry.foldl (fun s f => wireFlit s l f) (count s (linkBase l) 4 1)

/-- Credit that a port has after a return: a buffer never holds more credit than it has flits. -/
def creditAfter (p : Port) (vc hop n : Nat) : Nat := Nat.min (creditInit vc) (creditOf p vc hop + n)

/-- Credit returns (R335, R340). -/
def takeCredits (s : State) (l : Nat) (cs : List (Nat × Nat × Nat)) : State :=
  cs.foldl (fun s c =>
    modPort s l fun p =>
      let new := creditAfter p c.1 c.2.1 c.2.2
      { p with credits := tset (creditInit c.1) p.credits (c.1 * 8 + c.2.1) new }) s

/-- Count corrected bytes by codeword; a lane whose codeword has more than 4,096 in one ms is replaced (R337). -/
def fecCount (s : State) (l : Nat) (cs : List Nat) : State :=
  let s := count s (linkBase l) 2 cs.sum
  let ms := s.now / 1000000
  let old := (portAt s l).fecMs
  let old := if tget 0 old 15 = ms then old else tset 0 [] 15 ms
  let new := (indexed (cs.take 8)).foldl (fun t e => tset 0 t e.1 (tget 0 t e.1 + e.2)) old
  let s := modPort s l fun p => { p with fecMs := new }
  match (List.range 8).find? fun i => 4096 < tget 0 new i with
  | some i => askSpare s l i
  | none => s

/-- How long port l withholds the credit of a flit of a virtual channel, in ns (R444): when Bruise selects both, at most 40 ns and none on VC0
unless beyond is set. DEDUCED: log entry 52. -/
def holdNs (s : State) (l vc : Nat) : Nat :=
  let b := brzBase (l / 4)
  let h := fget s (b + 0x10) 15 0
  if fbit s b 63 && fbit s b 1 && fbit s (b + 0x18) (8 + l % 4) && fbit s (b + 0x10) (16 + vc) then
    (if fbit s b 32 then h else if vc = 0 then 0 else Nat.min 40 h)
  else 0

/-- The credit of a flit that has been taken is to be returned, after the time for which Bruise withholds it; one that is withheld counts in
BRZ_PERTURBED (R335, R448). DEDUCED: log entry 52. -/
def oweCredit (s : State) (l vc hop : Nat) : State :=
  let h := holdNs s l vc
  let s := if h = 0 then s else count s (brzBase (l / 4)) 0 1
  modPort s l fun p => { p with toReturn := p.toReturn ++ [(vc * 8 + hop, s.now + h)] }

/-- The data part of a good flit: the next in order is taken, and its buffer's credit is to be returned; a gap without an open nak is naked; a
repeat is dropped. DEDUCED: log entry 61. -/
def takeData (s : State) (l : Nat) (f : Flit) : State :=
  let p := portAt s l
  if f.seq = p.rxSeq then
    let s := oweCredit (modPort s l fun p => { p with rxSeq := (p.rxSeq + 1) % 65536, resent := false }) l f.vc f.hop
    let s := count s (linkBase l) 1 1
    if f.spareReq then heedSpare s l (f.lane % 8) f.seq else s
  else if (p.rxSeq + 65536 - f.seq) % 65536 < 32768 ∨ p.resent then s
  else sendNak (modPort s l fun p => { p with resent := true }) l

/-- A good flit (R334, R335): acknowledgement, credits, data, nak, then what can be sent, and the acknowledgement of data. -/
def goodFlit (s : State) (l : Nat) (f : Flit) : State :=
  let s := modPort s l fun p => { p with validAt := s.now, retry := afterSeq p.retry f.ack }
  let s := takeCredits s l f.creds
  let took : Bool := f.kind = 1 && f.seq = (portAt s l).rxSeq
  let s := if f.kind = 1 then takeData s l f else s
  let s := if f.nak then resendAll s l else s
  let s := pump s l
  if took then emitFlit s l (bareFlit false) else s

/-- Credits that Bruise has withheld long enough leave in flits without data (R444). -/
def creditTick (s : State) : State :=
  (s.fab.ports.map (·.1)).foldl (fun s l =>
    if (portState s l = 4 ∨ portState s l = 3) ∧ !(readyReturns (portAt s l) s.now).isEmpty then emitFlit s l (bareFlit false) else s) s

/-- A received flit (R333 to R337), as the symbols of its 9 lanes: FEC, CRC, then what it carries. DEDUCED: log entry 61. -/
def takeFlit (s : State) (l : Nat) (lanes : List (List (BitVec 2))) : State :=
  if portState s l ≠ 4 ∧ portState s l ≠ 3 then s
  else
    let r := fromLanes (sparedIn (portAt s l) (portAt s l).rxSeq) lanes
    let f := flitOf r.1
    let s := fecCount s l (r.2.map fun n => n.getD 0)
    if portState s l = 5 then s
    else if flitCrc (f.1.control ++ f.1.body) ≠ f.2 ∨ (r.1.take 16) ≠ f.1.control then badFlit s l f.1
    else if 2 < f.1.kind then s
    else goodFlit s l f.1

/-! ### Enabling (R351) -/

/-- STN_ROUTE_DIGEST (R351): the member tables, then the bunch tables, of towers 0 to 15, with sel read as 0. -/
def routeDigest (s : State) : List Byte :=
  let entry (g : Nat) : List Byte := leBytes 8 (setField (regGet s g) 57 56 0).toNat
  let mem := (List.range 16).flatMap fun t => (List.range 16).flatMap fun y => entry (idgBase t 0 + 0x4000 + 8 * y)
  let bun := (List.range 16).flatMap fun t => (List.range 1026).flatMap fun x => entry (idgBase t 0 + 0x8000 + 8 * x)
  shake256 64 (mem ++ bun)

/-- Show a digest in STN_ROUTE_DIGEST. -/
def putDigest (s : State) (d : List Byte) : State :=
  (List.range 8).foldl (fun s i => regPut s (stnBase + 0x2040 + 8 * i) (BitVec.ofNat 64 (leAt d (8 * i) 8))) s

/-- This module is the time root (R363). -/
def isRoot (s : State) : Bool := fget s (stnBase + 0x2000) 47 32 = deviceId s && fabEnabled s

/-- enable goes from 0 to 1 (R351): the digest, IDENT on every UP link, and which ports the rules wire; each is checked as its peer's
identifier arrives. Retrained links carry traffic again (R361). Time synchronisation begins; the root is its own time base. DEDUCED: log entry 59. -/
def enableFabric (s : State) : State :=
  let s := putDigest s (routeDigest s)
  let s := { s with fab := { s.fab with lockRun := 0, firstLock := false, slew := 0, holdRate := false, lastTime := s.now
                                        ports := s.fab.ports.map fun e => (e.1, { e.2 with localOnly := false }) } }
  let s := fset s (stnBase + 0x2010) 1 1 (b2n (isRoot s))
  let s := (List.range 64).foldl (fun s l => fset s (linkBase l) 5 5 (b2n (linkPeer s l).isSome)) s
  fabShow (identAll s)

/-- enable is cleared (R351): the digest reads 0, and synchronisation stops. -/
def disableFabric (s : State) : State :=
  let s := putDigest s []
  let s := fset s (stnBase + 0x2010) 1 1 0
  let s := { s with fab := { s.fab with lockRun := 0, firstLock := false, slew := 0, holdRate := false } }
  fabShow (identAll s)

end Sys2Proof.Machine
end

