-- ==== Sys2Proof/Machine/Power.lean ====
section
/-! DEFINITION. Power (R376 to R401): telemetry and energy, the ramp governor with pulp, the input guard, phases and converters,
forced planned reductions, cap notices and the wake of regions. -/

namespace Sys2Proof.Machine

/-! ### Regions -/

/-- Region limits change together: the shape table changes once (R69, R71). -/
def setRegionLimits (s : State) (l : List (Nat × Nat)) : State :=
  let tb := l.foldl (fun t e => tset 0 t e.1 (Nat.max (tget 0 t e.1) e.2)) s.stone.regionLimit
  if tb = s.stone.regionLimit then s else shapeChanged { s with stone := { s.stone with regionLimit := tb } }

/-- Power regions off (R71, R377): they are OFF, a running plan stops, and the shape table shows them. -/
def regionsOff (s : State) (rs : List Nat) : State :=
  let s := rs.foldl (fun s r => setRegionState s r 3) s
  setRegionLimits (stopPlan s stShape 0) (rs.map fun r => (r, 3))

def allRegions : List Nat := List.range 256

/-! ### Phases and converters (R377 to R380) -/

/-- Phases that region r has lost, and those that a domain of tower t has lost. -/
def vlgLost (s : State) (r : Nat) : Nat := (s.pwr.phaseLost.filter fun x => x / 4 = r).length
def domLost (s : State) (t d : Nat) : Nat := (s.pwr.domLost.filter fun x => x / 16 = t * 4 + d).length

/-- region_limit that the lost phases of a region and of its tower's domains give (R379, R380). -/
def phaseLevel (s : State) (r : Nat) : Nat :=
  let dom := [1, 2, 3].foldl (fun m d => Nat.max m (domLost s (r / 16) d)) 0
  Nat.max (Nat.min 3 (vlgLost s r)) (if dom ≤ 1 then 0 else if dom = 2 then 2 else 3)

/-- The limit of a level, in 64ths. -/
def levelLimit (n : Nat) : Nat := if n = 0 then 64 else if n = 1 then 48 else 32

/-- Show a region's phase limit (R383). -/
def putPhaseLimit (s : State) (r v : Nat) : State :=
  fset { s with pwr := { s.pwr with phaseLimit := tset 64 s.pwr.phaseLimit r v } } (regionReg r) 22 16 v

/-- The lost phases take effect on regions: limits, the shape table, and power-off (R379, R380). -/
def applyPhases (s : State) (rs : List Nat) : State :=
  let s := rs.foldl (fun s r => putPhaseLimit s r (levelLimit (phaseLevel s r))) s
  let off := rs.filter fun r => phaseLevel s r = 3 && regionState s r ≠ 3
  let s := if off.isEmpty then s else regionsOff s off
  capChanged (setRegionLimits s (rs.map fun r => (r, phaseLevel s r)))

/-- A phase is lost until the next cold boot (R379). -/
def losePhase (s : State) (t d ph : Nat) : State :=
  let key := if d = 0 then t * 64 + ph else (t * 4 + d) * 16 + ph
  let known := if d = 0 then s.pwr.phaseLost.contains key else s.pwr.domLost.contains key
  if known then s
  else
    let r := t * 16 + ph / 4
    let s := if d = 0 then
        fset { s with pwr := { s.pwr with phaseLost := sadd s.pwr.phaseLost key } } (regionReg r) (26 + ph % 4) (26 + ph % 4) 0
      else { s with pwr := { s.pwr with domLost := sadd s.pwr.domLost key } }
    let rs := if d = 0 then [r] else (List.range 16).map (t * 16 + ·)
    let s := count s (pwtBase t) 2 1
    let lim := phaseLevel s (rs.headD r)
    applyPhases (notice s 0x0201 1 (if d = 0 then ph / 4 else 0) t (d + ph * 2 ^ 4 + lim * 2 ^ 16)) rs

/-- PHASE_LOSS (R379, R380): phase of domain 0 VLG (0 to 63), 1 VMA, 2 VMI or 3 VLK (0 to 5). -/
def execPhaseLoss (tower domain : BitVec 4) (phase : BitVec 6) (s : State) : Host.Outcome State Fault Refusal :=
  shaped (domain.toNat = 0 || (domain.toNat < 4 && phase.toNat < 6)) "PHASE_LOSS"
    (losePhase s tower.toNat domain.toNat phase.toNat)

/-- Intermediate bus converters in service. -/
def ibcOk (s : State) : Nat := fget s pwmBase 23 16
def ibcCount (s : State) : Nat := ((List.range 8).filter fun i => (ibcOk s).testBit i).length

/-- CONVERTER_LOSS (R377): a converter in service fails; with six lost every region is powered off. -/
def execConverterLoss (i : BitVec 3) (s : State) : Host.Outcome State Fault Refusal :=
  let b := 16 + i.toNat
  finish (
    if !fbit s pwmBase b then s
    else
      let s := fset s pwmBase b b 0
      let s := notice s 0x1506 0 0xFFFF 0xFF (ibcOk s)
      if ibcCount s ≤ 2 then regionsOff s allRegions else s)

/-- The detail and notice of an input out of range (R376, R410). -/
def inputNotice (s : State) (kind : Nat) : State :=
  notice s 0x1505 0 0xFFFF 0xFF (fget s (pwmBase + 0x10) 15 0 + kind * 2 ^ 16)

/-- UNDERVOLTAGE_STOP (R376): the input has been below 40 V for 1 ms. -/
def execUndervoltageStop (s : State) : Host.Outcome State Fault Refusal :=
  finish (match s.pwr.underSince with
    | some t => if t + 1000000 ≤ s.now then inputNotice (regionsOff s allRegions) 3 else s
    | none => s)

/-- OVERVOLTAGE_STOP (R376): the input is above 60 V; the converters shut down. -/
def execOvervoltageStop (s : State) : Host.Outcome State Fault Refusal :=
  finish (if 6000 < fget s (pwmBase + 0x10) 15 0 then
      inputNotice (regionsOff (fset s pwmBase 23 16 0) allRegions) 3
    else s)

/-! ### The input guard (R394) -/

/-- The lowest power that the guard holds: module_cap, 11,500 W and the limit of lost converters (R377). -/
def guardPower (s : State) : Nat :=
  let m := Nat.min s.pwr.prof.cap 11500
  if ibcCount s ≤ 6 then Nat.min m (1540 * ibcCount s) else m

/-- P over the last n ticks as energy in 10^-9 J and the number of ticks; a tick lasts 100 µs. -/
def energyOver (s : State) (n : Nat) : Nat × Nat := let l := s.pwr.histP.take n; (l.sum, Nat.max 1 l.length)

/-- Mean power in W over the last n ticks, rounded down. DEDUCED: log entry 65. -/
def meanPower (s : State) (n : Nat) : Nat := let e := energyOver s n; e.1 / (100000 * e.2)

/-- The excess of R394, and the release condition. -/
def guardHot (s : State) : Bool :=
  let e := energyOver s 10
  let i := s.pwr.histI.take 10
  guardPower s * 102 * 100000 * e.2 < e.1 * 100 || 26622 * i.length < i.sum * 10
def guardCool (s : State) : Bool :=
  let e := energyOver s 10
  let i := s.pwr.histI.take 10
  e.1 * 100 ≤ guardPower s * 98 * 100000 * e.2 && i.sum * 10 ≤ 25578 * i.length

/-- Show the module-wide emergency limit. -/
def showEmergency (s : State) : State := fset s pwmBase 6 0 (Nat.min s.pwr.guard.limit s.pwr.coolant.limit)

/-- The guard at a tick (R394): its activation lowers the limit by 4 at once. -/
def guardTick (s : State) : State :=
  let g := s.pwr.guard
  if guardHot s then
    if g.limit = 64 then
      let s := showEmergency { s with pwr := { s.pwr with guard := ⟨60, s.now, none, false, true⟩ } }
      capChanged (notice (count s pwmBase 1 1) 0x1501 0 0xFFFF 0xFF (meanPower s 10 % 65536 + 60 * 2 ^ 16))
    else { s with pwr := { s.pwr with guard := { g with hot := true, okSince := none, rise := false } } }
  else
    let ok := if g.limit < 64 ∧ guardCool s then some (g.okSince.getD s.now) else none
    { s with pwr := { s.pwr with guard := { g with hot := false, okSince := ok } } }

/-- INPUT_GUARD_STEP (R394): a further 4/64 after 1 ms of excess. -/
def execInputGuardStep (s : State) : Host.Outcome State Fault Refusal :=
  let g := s.pwr.guard
  finish (if g.limit < 64 ∧ g.hot ∧ g.last + 1000000 ≤ s.now then
      capChanged (showEmergency { s with pwr := { s.pwr with guard := { g with limit := g.limit - 4, last := s.now } } })
    else s)

/-- The release time of a protective source has passed. DEDUCED: log entry 66. -/
def Prot.released (p : Prot) (now : Nat) : Bool :=
  p.limit < 64 && (match p.okSince with
    | some t => t + 10000000 ≤ now
    | none => false)

/-- EMERGENCY_RELEASE (R385, R394, R395): after 10 ms within the release levels the input guard, or a region's thermal limit, may rise
at the next cap epoch. -/
def execEmergencyRelease (source : Option (BitVec 8)) (s : State) : Host.Outcome State Fault Refusal :=
  finish (match source with
    | none =>
      let g := s.pwr.guard
      if g.released s.now then { s with pwr := { s.pwr with guard := { g with rise := true } } } else s
    | some r =>
      let p := tget Prot.init s.pwr.therm r.toNat
      if p.released s.now then
        { s with pwr := { s.pwr with therm := tset Prot.init s.pwr.therm r.toNat { p with rise := true } } }
      else s)

/-! ### The ramp governor (R387 to R391) -/

/-- binary64 constants: 2, 64, 0.1 and 100 µs. -/
def g2 : Nat := f64OfNat 2
def g64 : Nat := f64OfNat 64
def gTenth : Nat := f64OfFrac 1 10
def gDt : Nat := f64OfFrac 1 10000

/-- lim of a binary64 power (R387). -/
def limF (w : Nat) : Nat :=
  let x := f64Floor (fp64.div (fp64.mul g64 (fp64.sub w (f64OfNat Config.calIdle.toNat))) (f64OfNat Config.calSpan.toNat))
  if x < 1 then 1 else if 64 < x then 64 else x.toNat

/-- The smallest integer at or above a binary64 value. -/
def f64Ceil (a : Nat) : Int :=
  let f := f64Floor a
  if f64Lt (if f < 0 then fp64.sub 0 (f64OfNat (-f).toNat) else f64OfNat f.toNat) a then f + 1 else f

/-- The hold is active (R389). -/
def holdActive (s : State) : Bool := s.now < s.pwr.prof.hold

/-- The envelopes U, D and the floor F after a tick with measured power p (R388, R390). DEDUCED: log entry 65. -/
def govNext (s : State) (p : Nat) : Nat × Nat × Nat :=
  let up := f64OfNat s.pwr.prof.up
  let dn := fp64.mul (f64OfNat s.pwr.prof.down) gDt
  let b := fp64.add (fp64.div (fp64.mul g2 (f64OfNat Config.calSpan.toNat)) g64) (fp64.mul up gTenth)
  let top := fp64.add p b
  let want := if s.pwr.prof.flags % 2 = 1 then f64OfNat s.pwr.prof.floor else 0
  match s.pwr.gov with
  | none => (top, p, f64Min want (fp64.mul up gDt))
  | some (u, d, f) =>
    let u := if holdActive s then f64Min u top else f64Min (fp64.add u (fp64.mul up gDt)) top
    (u, f64Max p (fp64.sub d dn), f64Min want (fp64.add f (fp64.mul up gDt)))

/-- The pulp rate after a tick (R390), and whether the target exceeds what pulp reaches (R391): full pulp does not lift the power
to it. DEDUCED: log entry 65. -/
def pulpNext (q p t : Nat) : Nat × Bool :=
  let range := fp64.sub (f64OfNat Config.calPulp.toNat) (f64OfNat Config.calIdle.toNat)
  if f64Lt p t then
    let n := f64Ceil (fp64.div (fp64.mul g64 (fp64.sub t p)) range)
    (Nat.min 64 (q + Nat.max 1 n.toNat), q = 64)
  else if f64Lt (fp64.add t (fp64.div (f64OfNat Config.calSpan.toNat) g64)) p then (q - 1, false)
  else (q, false)

/-- Watts shown in a register of 16 bits. DEDUCED: log entry 65. -/
def showW (x : Nat) : Nat := Nat.min 65535 (f64Floor x).toNat

/-- Count milliseconds with pulp (R409). -/
def pulpCount (s : State) (q : Nat) : State :=
  if q = 0 then s
  else if s.pwr.pulpTicks + 1 < 10 then { s with pwr := { s.pwr with pulpTicks := s.pwr.pulpTicks + 1 } }
  else count { s with pwr := { s.pwr with pulpTicks := 0 } } pwmBase 4 1

/-- What the governor leaves (R388 to R391): the envelopes n, the pulp rate with whether pulp falls short of the target t (q), and the
ceiling as a planned source. -/
def govPut (s : State) (p : Nat) (n : Nat × Nat × Nat) (t : Nat) (q : Nat × Bool) : State :=
  let o := pwmBase + 0x38
  let s := setWant { s with pwr := { s.pwr with gov := some n } } 1 (limF n.1)
  let s := fset (fset (fset s o 38 32 q.1) o 41 41 (b2n (holdActive s))) o 42 42 (b2n q.2)
  let s := fset (fset s (pwmBase + 0x18) 63 48 (showW n.2.1)) (pwmBase + 0x18) 47 32 (showW n.1)
  let s := if q.2 ∧ !s.pwr.floorEpisode then notice s 0x1502 0 0xFFFF 0xFF (showW t + showW p * 2 ^ 16) else s
  pulpCount { s with pwr := { s.pwr with floorEpisode := q.2 } } q.1

/-- The governor at a tick (R388, R390, R391). -/
def govTick (s : State) (p : Nat) : State :=
  let n := govNext s p
  let t := f64Max n.2.2 (fp64.sub n.2.1 (fp64.mul (f64OfNat s.pwr.prof.down) gDt))
  govPut s p n t (pulpNext (fget s (pwmBase + 0x38) 38 32) p t)

/-! ### Telemetry (R381, R382) -/

/-- Entry into a voltage band (R376): 1 low, 2 high; again only after 10 ms in the operating range. -/
def bandTick (s : State) (v : Nat) : State :=
  let p := s.pwr
  let s := { s with pwr := { p with underSince := if v < 4000 then some (p.underSince.getD s.now) else none } }
  if 4400 ≤ v ∧ v ≤ 5800 then
    let t := p.inRangeSince.getD s.now
    { s with pwr := { s.pwr with inRangeSince := some t, band := if t + 10000000 ≤ s.now then 0 else p.band } }
  else
    let s := { s with pwr := { s.pwr with inRangeSince := none } }
    let b := if v < 4400 then 1 else 2
    if p.band ≠ 0 then s else inputNotice { s with pwr := { s.pwr with band := b } } b

/-- What the input reports: voltage, current, and the energy of the last 100 µs (R381, R382). DEDUCED: log entry 65. -/
def inputTick (s : State) (v a e : Nat) : State :=
  let p := s.pwr
  let s := { s with pwr := { p with histP := (e :: p.histP).take 10000, histI := (a :: p.histI).take 10,
                                    energyRem := (p.energyRem + e) % 1000 } }
  let s := count s pwmBase 0 ((p.energyRem + e) / 1000)
  let w (n : Nat) : Nat := Nat.min 65535 (meanPower s n)
  let s := regPut s (pwmBase + 0x10) (BitVec.ofNat 64 (v + a * 2 ^ 16 + w 1 * 2 ^ 32))
  fset (fset s (pwmBase + 0x18) 15 0 (w 10)) (pwmBase + 0x18) 31 16 (w 10000)

/-- No step of a plan runs: planned changes and rises of protective sources take effect at the next tick (R384, R385). -/
def noPlan (s : State) : Bool :=
  match s.run with
  | none => true
  | some r => r.ending.isSome

/-- Phases of a tower by domain: the first and the number (R378). -/
def domPhases (d : Nat) : Nat × Nat := if d = 0 then (0, 64) else (58 + 6 * d, 6)

/-- The current of n phases of a tower from the k-th on, and the voltage of a domain, as last reported. -/
def phaseSum (s : State) (t k n : Nat) : Nat := (((s.pwr.phaseAmps.drop (82 * t + k)).take n).map (·.toNat)).sum
def domVolt (s : State) (t d : Nat) : Nat := (s.pwr.volts.getD (4 * t + d) 0).toNat
def domAmps (s : State) (t d : Nat) : Nat := phaseSum s t (domPhases d).1 (domPhases d).2

/-- Power of a region in units of 1/160,000 W: its VLG power and one sixteenth of the tower's VMA and VMI power (R381). -/
def regionPower (s : State) (r : Nat) : Nat :=
  let t := r / 16
  16 * (domVolt s t 0 * phaseSum s t (4 * (r % 16)) 4) + domVolt s t 1 * domAmps s t 1 + domVolt s t 2 * domAmps s t 2

/-- The reports of the VPMs (R381): the phases' currents and the domains' voltages show in PWT_DOMAIN_d and PWT_REGION_c, and form the
power map Q. DEDUCED: log entry 65. -/
def domainTick (s : State) (volts phases : List (BitVec 16)) : State :=
  let s := { s with pwr := { s.pwr with volts := volts, phaseAmps := phases } }
  let s := (List.range 64).foldl (fun s e =>
    regPut s (pwtBase (e / 4) + 0x10 + 8 * (e % 4))
      (Config.domainWord (domVolt s (e / 4) (e % 4)) (domAmps s (e / 4) (e % 4))
        (if e % 4 = 0 then 64 - ((List.range 16).map fun c => vlgLost s (e / 4 * 16 + c)).sum else 6 - domLost s (e / 4) (e % 4)))) s
  let s := allRegions.foldl (fun s r => fset s (regionReg r) 47 32 (phaseSum s (r / 16) (4 * (r % 16)) 4)) s
  { s with pwr := { s.pwr with qmap := allRegions.map fun r =>
      (r, BitVec.ofNat 32 (fp32.convert .rne false ⟨regionPower s r, 160000, 0⟩).1) } }

/-- Energy of ten samples of input voltage (10 mV) and current (0.1 A), 10 µs apart, in units of 10^-9 J (R382). -/
def inputEnergy (input : List (BitVec 16 × BitVec 16)) : Nat := (input.map fun x => 10 * (x.1.toNat * x.2.toNat)).sum

/-- The mean of what the samples report. -/
def sampleMean (l : List (BitVec 16)) : Nat := (l.map (·.toNat)).sum / l.length

/-- The pulp slots of one array in a tick (R152): as many as its idle granted cycles and the rate q leave, at most q of every 64 CCLK, a
number that the spec does not fix. The generator goes on by one word a slot. DESIGN CHOICE: log entry 92. -/
def pulpArr (q lim : Nat) (s : State) (x : Nat × Nat) : State :=
  let n := Config.freeChoice s.free (94000 * Nat.min q lim / 64) % (94000 * Nat.min q lim / 64 + 1)
  let s := count (fresh s) (arrBlk x.1 x.2) 1 n
  modArr s x.1 x.2 fun a => { a with lfsr := Nat.iterate Config.pulpNext n a.lfsr }

/-- Pulp of the 100 µs that end at a tick, under the rate that the last tick set: every array of an awake core takes part (R152, R390). DESIGN CHOICE: log entry 92. -/
def pulpTick (s : State) : State :=
  let q := fget s (pwmBase + 0x38) 38 32
  if q = 0 then s
  else
    (logicalCores s).foldl (fun s lp =>
      if regionState s (lp.1 / 16) = 0 then [0, 1].foldl (fun s n => pulpArr q (effLimit s (lp.1 / 16)) s (lp.2, n)) s else s) s

/-- Flits that network jitter, and credits that withholding at the mesh bridges, have delayed in the 100 µs that end at a tick: the spec fixes
no number, and the generator goes on by one draw for each (R444, R448). DEDUCED: log entry 52. -/
def jitterTick (s : State) (t : Nat) : State :=
  let b := brzBase t
  let jitter : Bool := fbit s b 0 && fget s (b + 0x18) 7 0 ≠ 0
  let bridges : Bool := fbit s b 1 && fbit s (b + 0x18) 12 && fget s (b + 0x10) 15 0 ≠ 0
  if fbit s b 63 && fget s (b + 0x10) 19 16 ≠ 0 && (jitter || bridges) then
    let n := Config.freeChoice s.free 0
    let s := { fresh s with stone := { s.stone with lfsr := tmod 0 s.stone.lfsr t (Nat.iterate Config.lfsrNext n) } }
    count s b 0 n
  else s

/-- TELEMETRY_TICK (R381): ten samples of the input's voltage (10 mV) and current (0.1 A), the domains' voltages (mV; tower × 4 + domain)
and the phases' currents (0.1 A; tower × 82 + phase). -/
def execTelemetryTick (input : List (BitVec 16 × BitVec 16)) (volts phases : List (BitVec 16)) (s : State) :
    Host.Outcome State Fault Refusal :=
  let ok : Bool := input.length = 10 && volts.length = 64 && phases.length = 1312
  let v := sampleMean (input.map (·.1))
  let e := inputEnergy input
  let s := (List.range 16).foldl jitterTick s
  let s := domainTick (inputTick (pulpTick s) v (sampleMean (input.map (·.2))) e) volts phases
  let s := govTick (guardTick (bandTick s v)) (f64OfFrac e 100000)
  shaped ok "TELEMETRY_TICK" (if noPlan s then protRise (applyPlanned s) else showPlanned s)

/-! ### Planned reductions, cap notices and following (R384, R396, R397) -/

/-- PLANNED_REDUCTION_FORCED (R384): a planned source has stood below its applied value for 100 ms without a cap epoch. -/
def execPlannedReductionForced (source : BitVec 6) (s : State) : Host.Outcome State Fault Refusal :=
  let i := source.toNat
  finish (match tget? s.pwr.lowSince i with
    | some t =>
      if t + 100000000 ≤ s.now then
        let v := tget 64 s.pwr.want i
        let p := s.pwr
        let s := { s with pwr := { p with applied := tset 64 p.applied i v, lowSince := tdel p.lowSince i } }
        notice (showPlanned s) 0x1507 0 0xFFFF 0xFF v
      else s
    | none => s)

/-- CAP_NOTICE_REPEAT (R396): 10 ms have passed since the last cap notice and an emergency limit stands. -/
def execCapNoticeRepeat (s : State) : Host.Outcome State Fault Refusal :=
  finish (if (lowestEmergency s).1 < 64 ∧ s.pwr.lastCapAt + 10000000 ≤ s.now then sendCap s else s)

/-- FOLLOW_ENTRY_EXPIRY (R397): 50 ms have passed since the origin's last notice. DEDUCED: log entry 66. -/
def execFollowEntryExpiry (origin : BitVec 16) (s : State) : Host.Outcome State Fault Refusal :=
  let o := origin.toNat
  finish (match s.pwr.follow.find? fun f => f.origin = o with
    | some f => if f.time + 50000000 ≤ s.now then followPut s o 64 0 true else s
    | none => s)

/-! ### The wake of a region (R399 to R401) -/

/-- The clusters whose cores resume after the next commit (R130). -/
def addResume (s : State) (r : Nat) : State :=
  match s.run with
  | some x => { s with run := some { x with toResume := sadd x.toResume r } }
  | none => s

/-- Staging of a region ends: it is AWAKE and the RWAKEs that wait for it complete (R129, R400). -/
def wakeDone (s : State) (r : Nat) : State :=
  let mine := s.pwr.staging.filter fun x => x.region = r
  let s := { s with pwr := { s.pwr with staging := s.pwr.staging.filter fun x => x.region ≠ r } }
  let s := addResume (setRegionState s r 0) r
  mine.foldl (fun s x => coreEvent s x.core fun s _ =>
    match (coreL s x.core).eng.find? fun q => q.id = x.id with
    | some q => engDone s x.core q
    | none => s) s

/-- REGION_WAKE_COMPLETE (R400): 2 µs have passed since the wake started. -/
def execRegionWakeComplete (region : BitVec 8) (s : State) : Host.Outcome State Fault Refusal :=
  let r := region.toNat
  let due : Bool := s.pwr.staging.any fun x => x.region = r && x.until_ ≤ s.now
  finish (if regionState s r = 1 ∧ due then wakeDone s r else s)

end Sys2Proof.Machine
end

