-- ==== Sys2Proof/Machine/HartFp.lean ====
section
/-! DEFINITION. The floating-point arithmetic of Quince's harts (R309, R310): IEEE 754 binary32 and binary64 with the rounding modes and
exception flags of the RISC-V F and D extensions, subnormals kept, division and square root correctly rounded. The encodings are those of
the RISC-V specifications that R309 names (log entry 98). -/

namespace Sys2Proof.Machine

/-! ### Rounding -/

/-- Round a fraction to an integer: 0 nearest even, 1 towards zero, 2 down, 3 up, 4 nearest with ties away, 5 to odd. -/
def rmInt (rm : Nat) (neg : Bool) (n d : Nat) : Nat :=
  let lo := n / d
  let r := n % d
  if r = 0 then lo
  else match rm with
    | 0 => if 2 * r < d then lo else if d < 2 * r then lo + 1 else lo + lo % 2
    | 1 => lo
    | 2 => if neg then lo + 1 else lo
    | 3 => if neg then lo else lo + 1
    | 4 => if 2 * r < d then lo else lo + 1
    | _ => lo + (1 - lo % 2)

/-- Exception flags of fflags: inexact, underflow, overflow, division by zero, invalid. -/
def fNX : Nat := 1
def fUF : Nat := 2
def fOF : Nat := 4
def fDZ : Nat := 8
def fNV : Nat := 16

/-- Overflow goes to infinity in this rounding mode. -/
def toInf (rm : Nat) (neg : Bool) : Bool := rm = 0 || rm = 4 || (rm = 2 && neg) || (rm = 3 && !neg)

/-- The sign of a format as a number. -/
def FFmt.sgn (f : FFmt) (neg : Bool) : Nat := if neg then 2 ^ (f.ebits + f.mbits) else 0

/-- Round a magnitude under a rounding mode: the pattern and the flags; tininess is found after rounding. -/
def FFmt.roundRm (f : FFmt) (rm : Nat) (neg : Bool) (v : Mag) : Nat × Nat :=
  if v.num = 0 then (f.sgn neg, 0)
  else
    let q := f.ulpExp v
    let s := v.scale q
    let c := (q - f.qmin).toNat * 2 ^ f.mbits + rmInt rm neg s.1 s.2
    if f.maxCode < c then (f.sgn neg + (if toInf rm neg then f.infCode else f.maxCode), fOF + fNX)
    else
      let u := v.log2 - (f.mbits : Int)
      let t := v.scale u
      let tiny : Bool := !leScaled 1 (f.qmin + (f.mbits : Int)) (rmInt rm neg t.1 t.2) u
      (f.sgn neg + c, if s.1 % s.2 = 0 then 0 else if tiny then fUF + fNX else fNX)

/-- Round an exact result; an exact zero takes the sign given. A NaN that no operand brought is invalid. -/
def FFmt.finishRm (f : FFmt) (rm : Nat) (zneg : Bool) : FVal → Nat × Nat
  | .nan => (f.nanCode, fNV)
  | .inf n => (f.sgn n + f.infCode, 0)
  | .fin n m e => if m = 0 then (f.sgn zneg, 0) else f.roundRm rm n ⟨m, 1, e⟩

/-- A signalling NaN. -/
def FFmt.snan (f : FFmt) (a : Nat) : Bool := f.isNan a && !a.testBit (f.mbits - 1)

/-- An operation whose operands bring a NaN gives the canonical NaN, invalid when one is signalling. -/
def FFmt.nanOr (f : FFmt) (l : List Nat) (g : Nat × Nat) : Nat × Nat :=
  if l.any f.isNan then (f.nanCode, if l.any f.snan then fNV else 0) else g

/-! ### Operations: pattern and flags -/

/-- The sign of an exact zero sum. -/
def zeroSum (rm : Nat) (a b : Bool) : Bool := if a = b then a else rm = 2

def FFmt.addRm (f : FFmt) (rm a b : Nat) : Nat × Nat :=
  f.nanOr [a, b] (f.finishRm rm (zeroSum rm (f.signBit a) (f.signBit b)) ((f.decode a).add (f.decode b)))

/-- The pattern with its sign inverted. -/
def FFmt.flip (f : FFmt) (a : Nat) : Nat := a ^^^ 2 ^ (f.ebits + f.mbits)

def FFmt.subRm (f : FFmt) (rm a b : Nat) : Nat × Nat := f.nanOr [a, b] (f.addRm rm a (f.flip b))

def FFmt.mulRm (f : FFmt) (rm a b : Nat) : Nat × Nat :=
  f.nanOr [a, b] (f.finishRm rm (f.signBit a != f.signBit b) ((f.decode a).mul (f.decode b)))

/-- a × b + c, rounded once; ∞ × 0 is invalid whatever c is. -/
def FFmt.fmaRm (f : FFmt) (rm a b c : Nat) : Nat × Nat :=
  let p := (f.decode a).mul (f.decode b)
  if !(f.isNan a) && !(f.isNan b) && p = .nan then (f.nanCode, fNV)
  else f.nanOr [a, b, c] (f.finishRm rm (zeroSum rm (f.signBit a != f.signBit b) (f.signBit c)) (p.add (f.decode c)))

def FFmt.divRm (f : FFmt) (rm a b : Nat) : Nat × Nat :=
  let n := f.signBit a != f.signBit b
  f.nanOr [a, b] (match f.decode a, f.decode b with
    | .inf _, .inf _ => (f.nanCode, fNV)
    | .inf _, _ => (f.sgn n + f.infCode, 0)
    | _, .inf _ => (f.sgn n, 0)
    | .fin _ m x, .fin _ l y =>
      if l = 0 then (if m = 0 then (f.nanCode, fNV) else (f.sgn n + f.infCode, fDZ))
      else f.roundRm rm n ⟨m, l, x - y⟩
    | _, _ => (f.nanCode, fNV))

def FFmt.sqrtRm (f : FFmt) (rm a : Nat) : Nat × Nat :=
  f.nanOr [a] (match f.decode a with
    | .fin neg m x =>
      if m = 0 then (f.sgn neg, 0)
      else if neg then (f.nanCode, fNV)
      else
        let x' := if x % 2 = 0 then x else x - 1
        let m' := if x % 2 = 0 then m else 2 * m
        let big := m' * 2 ^ 160
        let s := isqrt big 112 0
        f.roundRm rm false ⟨2 * s + b2n (s * s ≠ big), 1, x' / 2 - 80 - 1⟩
    | .inf neg => if neg then (f.nanCode, fNV) else (f.infCode, 0)
    | .nan => (f.nanCode, 0))

/-- minimumNumber and maximumNumber: a NaN operand gives the other, -0 is below +0. -/
def FFmt.minMaxRm (f : FFmt) (isMax : Bool) (a b : Nat) : Nat × Nat :=
  let fl := if f.snan a || f.snan b then fNV else 0
  (if f.isNan a then (if f.isNan b then f.nanCode else b)
   else if f.isNan b then a
   else if isMax then f.max a b else f.min a b, fl)

/-- Comparisons: 0 a ≤ b, 1 a < b, both invalid on any NaN; 2 a = b, invalid on a signalling NaN. -/
def FFmt.cmpRm (f : FFmt) (k a b : Nat) : Bool × Nat :=
  let x := f.decode a
  let y := f.decode b
  let nan : Bool := f.isNan a || f.isNan b
  match k with
  | 0 => (FVal.lt x y || FVal.eqv x y, if nan then fNV else 0)
  | 1 => (FVal.lt x y, if nan then fNV else 0)
  | _ => (FVal.eqv x y, if f.snan a || f.snan b then fNV else 0)

/-- Sign injection: 0 the sign of b, 1 its inverse, 2 the exclusive or of both. -/
def FFmt.signInject (f : FFmt) (k a b : Nat) : Nat :=
  let m := a % 2 ^ (f.ebits + f.mbits)
  m + f.sgn (match k with
    | 0 => f.signBit b
    | 1 => !f.signBit b
    | _ => f.signBit a != f.signBit b)

/-- The class mask of FCLASS. -/
def FFmt.classOf (f : FFmt) (a : Nat) : Nat :=
  let n := f.signBit a
  match f.decode a with
  | .nan => if f.snan a then 2 ^ 8 else 2 ^ 9
  | .inf _ => if n then 2 ^ 0 else 2 ^ 7
  | .fin _ m _ =>
    if m = 0 then (if n then 2 ^ 3 else 2 ^ 4)
    else if f.isSub a then (if n then 2 ^ 2 else 2 ^ 5)
    else (if n then 2 ^ 1 else 2 ^ 6)

/-- To an integer of w bits, signed or not: out of range and NaN saturate and are invalid. -/
def FFmt.toIntRm (f : FFmt) (rm w : Nat) (sgd : Bool) (a : Nat) : Nat × Nat :=
  let top : Int := if sgd then 2 ^ (w - 1) - 1 else 2 ^ w - 1
  let bot : Int := if sgd then -(2 ^ (w - 1)) else 0
  match f.decode a with
  | .nan => (unsigned w top, fNV)
  | .inf n => (unsigned w (if n then bot else top), fNV)
  | .fin n m e =>
    let s := (Mag.mk m 1 e).scale 0
    let i : Int := rmInt rm n s.1 s.2
    let i := if n then -i else i
    if i < bot then (unsigned w bot, fNV)
    else if top < i then (unsigned w top, fNV)
    else (unsigned w i, if s.1 % s.2 = 0 then 0 else fNX)

/-- From an integer. -/
def FFmt.ofIntRm (f : FFmt) (rm : Nat) (i : Int) : Nat × Nat := f.roundRm rm (i < 0) ⟨i.natAbs, 1, 0⟩

/-- To another format. -/
def FFmt.toFmtRm (f g : FFmt) (rm a : Nat) : Nat × Nat :=
  if f.isNan a then (g.nanCode, if f.snan a then fNV else 0) else g.finishRm rm (f.signBit a) (f.decode a)

/-! ### Seven-bit estimates of the V extension -/

/-- Significand estimate of a reciprocal: round(2^15 / (2^7 + i + 1/2)) less its leading bit. -/
def rec7Sig (i : Nat) : Nat := (2 ^ 17 + (2 * (2 ^ 7 + i) + 1)) / (2 * (2 * (2 ^ 7 + i) + 1)) - 128

/-- Significand estimate of a reciprocal square root, from the low bit of the exponent and the six top significand bits. DESIGN CHOICE: log entry 98. -/
def rsqrt7Sig (odd : Nat) (i : Nat) : Nat :=
  -- the value is x = (128 + 2i + 1) / 128, doubled for an even exponent; 256 / sqrt x, rounded
  let num := 2 ^ 25
  let den := (129 + 2 * i) * (if odd = 1 then 1 else 2)
  (isqrt (num / den) 20 0 + 1) / 2 - 128

/-- A finite nonzero magnitude as exponent and significand of mbits bits, subnormals normalised: (exponent field, possibly below 1, fraction). -/
def FFmt.normal (f : FFmt) (a : Nat) : Int × Nat :=
  let c := a % 2 ^ (f.ebits + f.mbits)
  let e := c / 2 ^ f.mbits
  let m := c % 2 ^ f.mbits
  if e ≠ 0 then (e, m)
  else
    let l := Nat.log2 m
    ((l : Int) - (f.mbits : Int) + 1, m * 2 ^ (f.mbits - l) % 2 ^ f.mbits)

/-- vfrec7. -/
def FFmt.rec7 (f : FFmt) (rm a : Nat) : Nat × Nat :=
  let n := f.signBit a
  match f.decode a with
  | .nan => (f.nanCode, if f.snan a then fNV else 0)
  | .inf _ => (f.sgn n, 0)
  | .fin _ m _ =>
    if m = 0 then (f.sgn n + f.infCode, fDZ)
    else
      let x := f.normal a
      let sig := rec7Sig (x.2 / 2 ^ (f.mbits - 7)) * 2 ^ (f.mbits - 7)
      let e : Int := 2 * (f.bias : Int) - 1 - x.1
      if x.1 < -1 then (f.sgn n + (if toInf rm n then f.infCode else f.maxCode), fOF + fNX)
      else if 1 ≤ e then (f.sgn n + e.toNat * 2 ^ f.mbits + sig, 0)
      else
        let full := 2 ^ f.mbits + sig
        (f.sgn n + full / 2 ^ (1 - e).toNat, 0)

/-- vfrsqrt7. -/
def FFmt.rsqrt7 (f : FFmt) (a : Nat) : Nat × Nat :=
  let n := f.signBit a
  match f.decode a with
  | .nan => (f.nanCode, if f.snan a then fNV else 0)
  | .inf _ => if n then (f.nanCode, fNV) else (0, 0)
  | .fin _ m _ =>
    if m = 0 then (f.sgn n + f.infCode, fDZ)
    else if n then (f.nanCode, fNV)
    else
      let x := f.normal a
      let odd := (x.1 % 2).toNat
      let sig := rsqrt7Sig odd (x.2 / 2 ^ (f.mbits - 6)) * 2 ^ (f.mbits - 7)
      (((3 * (f.bias : Int) - 1 - x.1) / 2).toNat * 2 ^ f.mbits + sig, 0)

end Sys2Proof.Machine
end

