-- ==== Sys2Proof/Machine/Hart.lean ====
section
/-! DEFINITION. A hart of Quince (R309 to R311): its registers and memory, and the scalar instructions of RV64IMAFDC with Zicsr and Zifencei.
R309 defines the instruction set by reference to the RISC-V specifications; encodings and effects follow those (log entry 98). -/

namespace Sys2Proof.Machine

/-! ### A run of a hart -/

/-- How a run stops: a trap with its RISC-V cause and value, poison read at a module address, or the return of the rule. -/
inductive HEnd where
  | trap (cause tval : Nat)
  | poison (addr : Nat)
  | ret
deriving DecidableEq, Repr

/-- A run of a rule on a hart: the module, the hart's index and state, the bytes staged for module memory (R314), and whether it is a prologue. -/
structure HRun where
  s : State
  idx : Nat
  h : Hart
  staged : Tbl Byte
  prologue : Bool
deriving DecidableEq, Repr

/-- A step of a run, which may stop it. -/
abbrev HM (α : Type) : Type := EStateM HEnd HRun α

def hstop {α : Type} (e : HEnd) : HM α := fun r => .error e r
/-- RISC-V causes: 2 illegal instruction, 3 breakpoint, 4 and 6 misaligned load and store, 1, 5 and 7 access faults of fetch, load and store,
8 environment call. -/
def htrap {α : Type} (cause tval : Nat) : HM α := hstop (.trap cause tval)
def illegal {α : Type} : HM α := htrap 2 0
def hartGet : HM Hart := fun r => .ok r.h r
def hartMod (f : Hart → Hart) : HM Unit := fun r => .ok () { r with h := f r.h }

/-! ### Registers -/

/-- x0 reads 0 and discards writes. -/
def Hart.xr (h : Hart) (n : Nat) : W64 := if n = 0 then 0 else tget 0 h.x n
def xset (n : Nat) (v : W64) : HM Unit := if n = 0 then pure () else hartMod fun h => { h with x := tset 0 h.x n v }
def Hart.fr (h : Hart) (n : Nat) : W64 := tget 0 h.f n
def fsetD (n : Nat) (v : Nat) : HM Unit := hartMod fun h => { h with f := tset 0 h.f n (BitVec.ofNat 64 v) }
/-- A single is held NaN-boxed; one that is not reads as the canonical NaN. -/
def Hart.f32r (h : Hart) (n : Nat) : Nat :=
  let v := (h.fr n).toNat
  if v / 2 ^ 32 = 2 ^ 32 - 1 then v % 2 ^ 32 else fp32.nanCode
def fsetS (n v : Nat) : HM Unit := fsetD n ((2 ^ 32 - 1) * 2 ^ 32 + v % 2 ^ 32)

/-- The operand of a format, and the write of a result in it. -/
def Hart.fop (h : Hart) (dbl : Bool) (n : Nat) : Nat := if dbl then (h.fr n).toNat else h.f32r n
def fput (dbl : Bool) (n v : Nat) : HM Unit := if dbl then fsetD n v else fsetS n v
def fmtOf (dbl : Bool) : FFmt := if dbl then fp64 else fp32

/-- Control and status registers held: 3 fcsr, 8 vstart, 0xF vcsr, 0xC20 vl, 0xC21 vtype, and those of machine mode. -/
def Hart.cr (h : Hart) (n : Nat) : Nat := (tget 0 h.csr n).toNat
def crset (n v : Nat) : HM Unit := hartMod fun h => { h with csr := tset 0 h.csr n (BitVec.ofNat 64 v) }
def Hart.frm (h : Hart) : Nat := bits (h.cr 3) 7 5
def orFlags (fl : Nat) : HM Unit := hartMod fun h => { h with csr := tset 0 h.csr 3 (BitVec.ofNat 64 (h.cr 3 ||| fl)) }

/-- A user-mode read of a control and status register: none for one that user mode does not have. The counters read open values. -/
def csrRead (n : Nat) : HM Nat := fun r =>
  let h := r.h
  let open_ : EStateM.Result HEnd HRun Nat := .ok (Config.freeWord r.s.free).toNat { r with s := fresh r.s }
  match n with
  | 0x001 => .ok (h.cr 3 % 32) r
  | 0x002 => .ok h.frm r
  | 0x003 => .ok (h.cr 3) r
  | 0x008 => .ok (h.cr 8) r
  | 0x009 => .ok (h.cr 0xF % 2) r
  | 0x00A => .ok (h.cr 0xF / 2 % 4) r
  | 0x00F => .ok (h.cr 0xF) r
  | 0xC00 => open_
  | 0xC01 => open_
  | 0xC02 => open_
  | 0xC20 => .ok (h.cr 0xC20) r
  | 0xC21 => .ok (h.cr 0xC21) r
  | 0xC22 => .ok 128 r
  | _ => .error (.trap 2 0) r

/-- A user-mode write; the read-only registers refuse it. -/
def csrWrite (n v : Nat) : HM Unit := do
  let h ← hartGet
  match n with
  | 0x001 => crset 3 (h.cr 3 / 32 * 32 + v % 32)
  | 0x002 => crset 3 (h.cr 3 % 32 + v % 8 * 32)
  | 0x003 => crset 3 (v % 256)
  | 0x008 => crset 8 (v % 1024)
  | 0x009 => crset 0xF (h.cr 0xF / 2 * 2 + v % 2)
  | 0x00A => crset 0xF (h.cr 0xF % 2 + v % 4 * 2)
  | 0x00F => crset 0xF (v % 8)
  | _ => illegal

/-! ### Memory (R311) -/

/-- Base of scratch and of rule memory. -/
def scratchBase : Nat := 0x200000000000
def ruleBase : Nat := 0x200010000000

/-- A byte of rule memory: the text loaded there. -/
def ruleByte (s : State) (o : Nat) : Byte :=
  match s.qnc.rules.find? fun e => e.2.place ≤ o ∧ o < e.2.place + e.2.text.length with
  | some e => e.2.text.getD (o - e.2.place) 0
  | none => Config.hartByte 16 o

/-- What an access of n bytes at a reaches in user mode. -/
inductive HPlace where
  | scratch (o : Nat)
  | rule (o : Nat)
  | mem
  | nowhere
deriving DecidableEq, Repr

def hplace (s : State) (a n : Nat) : HPlace :=
  if scratchBase ≤ a ∧ a + n ≤ scratchBase + 0x40000 then .scratch (a - scratchBase)
  else if ruleBase ≤ a ∧ a + n ≤ ruleBase + 0x200000 then .rule (a - ruleBase)
  else if rangeOk s Place.remoteOk a n then .mem
  else .nowhere

/-- A byte of a hart's scratch. DESIGN CHOICE: log entry 6. -/
def Hart.scratchByte (h : Hart) (idx o : Nat) : Byte := (tget? h.scratch o).getD (Config.hartByte idx o)

/-- Load n bytes at a naturally aligned address (R311): a run reads its own staged bytes. DESIGN CHOICE: log entry 98. -/
def hload (a n : Nat) : HM Nat := fun r =>
  if a % n ≠ 0 then .error (.trap 4 a) r
  else
    match hplace r.s a n with
    | .scratch o => .ok (leNat ((List.range n).map fun i => r.h.scratchByte r.idx (o + i))) r
    | .rule o => .ok (leNat ((List.range n).map fun i => ruleByte r.s (o + i))) r
    | .nowhere => .error (.trap 5 a) r
    | .mem =>
      let m := memRead r.s a n
      let r := { r with s := m.1 }
      let b := (indexed m.2).map fun e => (tget? r.staged (a + e.1)).elim e.2 fun b => (b, false)
      match b.findIdx? (·.2) with
      | some i => .error (.poison (a + i)) r
      | none => .ok (leNat (pdata b)) r

/-- Store n bytes at a naturally aligned address: module memory is staged, up to 128 KiB; a prologue writes none (R314). DESIGN CHOICE: log entry 98. -/
def hstore (a n v : Nat) : HM Unit := fun r =>
  let bs := indexed (leBytes n v)
  if a % n ≠ 0 then .error (.trap 6 a) r
  else
    match hplace r.s a n with
    | .scratch o => .ok () { r with h := { r.h with scratch := bs.foldl (fun t e => tput t (o + e.1) e.2) r.h.scratch } }
    | .mem =>
      if r.prologue then .error (.trap 7 a) r
      else
        let t := bs.foldl (fun t e => tput t (a + e.1) e.2) r.staged
        if 0x20000 < t.length then .error (.trap 24 a) r else .ok () { r with staged := t }
    | _ => .error (.trap 7 a) r

/-! ### Integer operations -/

/-- The operations of OP and OP-IMM by funct3; `alt` is bit 30. -/
def aluOp (f3 : Nat) (alt : Bool) (a b : W64) : W64 :=
  match f3 with
  | 0 => if alt then a - b else a + b
  | 1 => a <<< (b.toNat % 64)
  | 2 => BitVec.ofNat 64 (b2n (a.slt b))
  | 3 => BitVec.ofNat 64 (b2n (a.ult b))
  | 4 => a ^^^ b
  | 5 => if alt then a.sshiftRight (b.toNat % 64) else a >>> (b.toNat % 64)
  | 6 => a ||| b
  | _ => a &&& b

/-- A 32-bit result, sign-extended. -/
def sext32 (n : Nat) : W64 := (BitVec.ofNat 32 n).signExtend 64

/-- The operations on 32-bit operands. -/
def aluW (f3 : Nat) (alt : Bool) (a b : Nat) : W64 :=
  let x := BitVec.ofNat 32 a
  match f3 with
  | 0 => sext32 (if alt then a + 2 ^ 32 - b % 2 ^ 32 else a + b)
  | 1 => (x <<< (b % 32)).signExtend 64
  | _ => (if alt then x.sshiftRight (b % 32) else x >>> (b % 32)).signExtend 64

/-- Division of the M extension on w bits: by zero the quotient is all ones and the remainder the dividend. -/
def divRem (w : Nat) (sgd rem : Bool) (a b : Nat) : Nat :=
  let x : Int := if sgd then signed w a else (a % 2 ^ w : Nat)
  let y : Int := if sgd then signed w b else (b % 2 ^ w : Nat)
  if y = 0 then (if rem then a % 2 ^ w else 2 ^ w - 1)
  else unsigned w (if rem then x.tmod y else x.tdiv y)

/-- The operations of the M extension by funct3. -/
def mulOp (f3 : Nat) (a b : W64) : W64 :=
  match f3 with
  | 0 => a * b
  | 1 => BitVec.ofNat 64 (unsigned 64 (a.toInt * b.toInt / 2 ^ 64))
  | 2 => BitVec.ofNat 64 (unsigned 64 (a.toInt * (b.toNat : Int) / 2 ^ 64))
  | 3 => BitVec.ofNat 64 (a.toNat * b.toNat / 2 ^ 64)
  | _ => BitVec.ofNat 64 (divRem 64 (f3 % 2 = 0) (6 ≤ f3) a.toNat b.toNat)

/-- The 32-bit ones. -/
def mulW (f3 a b : Nat) : W64 := sext32 (if f3 = 0 then a * b else divRem 32 (f3 % 2 = 0) (6 ≤ f3) a b)

/-- Is a branch of this funct3 taken? -/
def branchTaken (f3 : Nat) (a b : W64) : Bool :=
  match f3 with
  | 0 => a = b
  | 1 => a ≠ b
  | 4 => a.slt b
  | 5 => !a.slt b
  | 6 => a.ult b
  | _ => !a.ult b

/-- What an atomic operation stores, of w bits. -/
def amoOp (k w a b : Nat) : Nat :=
  let lt : Bool := signed w a < signed w b
  match k with
  | 0x00 => a + b
  | 0x01 => b
  | 0x04 => a ^^^ b
  | 0x0C => a &&& b
  | 0x08 => a ||| b
  | 0x10 => if lt then a else b
  | 0x14 => if lt then b else a
  | 0x18 => Nat.min a b
  | _ => Nat.max a b

/-! ### Immediates -/

def immI (w : Nat) : W64 := BitVec.ofInt 64 (signed 12 (bits w 31 20))
def immS (w : Nat) : W64 := BitVec.ofInt 64 (signed 12 (bits w 31 25 * 32 + bits w 11 7))
def immB (w : Nat) : W64 :=
  BitVec.ofInt 64 (signed 13 (bits w 31 31 * 4096 + bits w 7 7 * 2048 + bits w 30 25 * 32 + bits w 11 8 * 2))
def immU (w : Nat) : W64 := BitVec.ofInt 64 (signed 32 (bits w 31 12 * 4096))
def immJ (w : Nat) : W64 :=
  BitVec.ofInt 64 (signed 21 (bits w 31 31 * 2 ^ 20 + bits w 19 12 * 2 ^ 12 + bits w 20 20 * 2 ^ 11 + bits w 30 21 * 2))

/-! ### The compressed instructions: each as the instruction it stands for -/

def encI (imm rs1 f3 rd op : Nat) : Nat := imm % 4096 * 2 ^ 20 + rs1 * 2 ^ 15 + f3 * 2 ^ 12 + rd * 2 ^ 7 + op
def encS (imm rs2 rs1 f3 op : Nat) : Nat := imm / 32 * 2 ^ 25 + rs2 * 2 ^ 20 + rs1 * 2 ^ 15 + f3 * 2 ^ 12 + imm % 32 * 2 ^ 7 + op
def encR (f7 rs2 rs1 f3 rd op : Nat) : Nat := f7 * 2 ^ 25 + rs2 * 2 ^ 20 + rs1 * 2 ^ 15 + f3 * 2 ^ 12 + rd * 2 ^ 7 + op
def encB (imm rs1 f3 : Nat) : Nat :=
  bits imm 12 12 * 2 ^ 31 + bits imm 10 5 * 2 ^ 25 + rs1 * 2 ^ 15 + f3 * 2 ^ 12 + bits imm 4 1 * 2 ^ 8 + bits imm 11 11 * 2 ^ 7 + 0x63
def encJ (imm : Nat) : Nat :=
  bits imm 20 20 * 2 ^ 31 + bits imm 10 1 * 2 ^ 21 + bits imm 11 11 * 2 ^ 20 + bits imm 19 12 * 2 ^ 12 + 0x6F

/-- Quadrant 0: loads and stores by a register of x8 to x15, and the address of a stack slot. -/
def expand0 (w : Nat) : Option Nat :=
  let r1 := 8 + bits w 9 7
  let r2 := 8 + bits w 4 2
  let off8 := bits w 12 10 * 8 + bits w 6 5 * 64
  let off4 := bits w 12 10 * 8 + bits w 6 6 * 4 + bits w 5 5 * 64
  match bits w 15 13 with
  | 0 =>
    let imm := bits w 12 11 * 16 + bits w 10 7 * 64 + bits w 6 6 * 4 + bits w 5 5 * 8
    if imm = 0 then none else some (encI imm 2 0 r2 0x13)
  | 1 => some (encI off8 r1 3 r2 0x07)
  | 2 => some (encI off4 r1 2 r2 0x03)
  | 3 => some (encI off8 r1 3 r2 0x03)
  | 5 => some (encS off8 r2 r1 3 0x27)
  | 6 => some (encS off4 r2 r1 2 0x23)
  | 7 => some (encS off8 r2 r1 3 0x23)
  | _ => none

/-- Quadrant 1: immediates, arithmetic of x8 to x15, jumps and branches. -/
def expand1 (w : Nat) : Option Nat :=
  let rd := bits w 11 7
  let r1 := 8 + bits w 9 7
  let r2 := 8 + bits w 4 2
  let sh := bits w 12 12 * 32 + bits w 6 2
  let imm6 := unsigned 12 (signed 6 sh)
  let br (f3 : Nat) : Nat :=
    encB (unsigned 13 (signed 9 (bits w 12 12 * 256 + bits w 11 10 * 8 + bits w 6 5 * 64 + bits w 4 3 * 2 + bits w 2 2 * 32))) r1 f3
  match bits w 15 13 with
  | 0 => some (encI imm6 rd 0 rd 0x13)
  | 1 => if rd = 0 then none else some (encI imm6 rd 0 rd 0x1B)
  | 2 => some (encI imm6 0 0 rd 0x13)
  | 3 =>
    if sh = 0 then none
    else if rd = 2 then
      some (encI (unsigned 12 (signed 10 (bits w 12 12 * 512 + bits w 6 6 * 16 + bits w 5 5 * 64 + bits w 4 3 * 128 + bits w 2 2 * 32))) 2 0 2 0x13)
    else some (unsigned 20 (signed 6 sh) * 2 ^ 12 + rd * 2 ^ 7 + 0x37)
  | 4 =>
    match bits w 11 10 with
    | 0 => some (encI sh r1 5 r1 0x13)
    | 1 => some (encI (sh + 1024) r1 5 r1 0x13)
    | 2 => some (encI imm6 r1 7 r1 0x13)
    | _ =>
      match bits w 12 12 * 4 + bits w 6 5 with
      | 0 => some (encR 32 r2 r1 0 r1 0x33)
      | 1 => some (encR 0 r2 r1 4 r1 0x33)
      | 2 => some (encR 0 r2 r1 6 r1 0x33)
      | 3 => some (encR 0 r2 r1 7 r1 0x33)
      | 4 => some (encR 32 r2 r1 0 r1 0x3B)
      | 5 => some (encR 0 r2 r1 0 r1 0x3B)
      | _ => none
  | 5 =>
    some (encJ (unsigned 21 (signed 12 (bits w 12 12 * 2048 + bits w 11 11 * 16 + bits w 10 9 * 256 + bits w 8 8 * 1024 + bits w 7 7 * 64 +
      bits w 6 6 * 128 + bits w 5 3 * 2 + bits w 2 2 * 32))))
  | 6 => some (br 0)
  | _ => some (br 1)

/-- Quadrant 2: stack-relative loads and stores, shifts, moves and jumps. -/
def expand2 (w : Nat) : Option Nat :=
  let rd := bits w 11 7
  let rs2 := bits w 6 2
  let off8 := bits w 12 12 * 32 + bits w 6 5 * 8 + bits w 4 2 * 64
  let off4 := bits w 12 12 * 32 + bits w 6 4 * 4 + bits w 3 2 * 64
  let st8 := bits w 12 10 * 8 + bits w 9 7 * 64
  match bits w 15 13 with
  | 0 => some (encI (bits w 12 12 * 32 + rs2) rd 1 rd 0x13)
  | 1 => some (encI off8 2 3 rd 0x07)
  | 2 => if rd = 0 then none else some (encI off4 2 2 rd 0x03)
  | 3 => if rd = 0 then none else some (encI off8 2 3 rd 0x03)
  | 4 =>
    if bits w 12 12 = 0 then
      if rs2 = 0 then (if rd = 0 then none else some (encI 0 rd 0 0 0x67)) else some (encR 0 rs2 0 0 rd 0x33)
    else if rs2 = 0 then some (if rd = 0 then 0x00100073 else encI 0 rd 0 1 0x67)
    else some (encR 0 rs2 rd 0 rd 0x33)
  | 5 => some (encS st8 rs2 2 3 0x27)
  | 6 => some (encS (bits w 12 9 * 4 + bits w 8 7 * 64) rs2 2 2 0x23)
  | _ => some (encS st8 rs2 2 3 0x23)

/-- The instruction that a 16-bit instruction stands for. -/
def expandC (w : Nat) : Option Nat :=
  if w = 0 then none
  else match w % 4 with
    | 0 => expand0 w
    | 1 => expand1 w
    | _ => expand2 w

/-! ### Execution -/

/-- Set the program counter. -/
def jump (a : W64) : HM Unit := hartMod fun h => { h with pc := a &&& ~~~1 }

/-- A load of funct3: bytes, sign extension. -/
def loadX (f3 : Nat) (rd : Nat) (a : W64) : HM Unit := do
  if f3 = 7 then illegal
  let n := 2 ^ (f3 % 4)
  let v ← hload a.toNat n
  xset rd (if f3 < 4 then BitVec.ofInt 64 (signed (8 * n) v) else BitVec.ofNat 64 v)

/-- LR, SC and the atomic memory operations. -/
def amo (w : Nat) (rd : Nat) (a : W64) (b : W64) : HM Unit := do
  let f3 := bits w 14 12
  if f3 ≠ 2 ∧ f3 ≠ 3 then illegal
  let n := 2 ^ f3
  let k := bits w 31 27
  let put (v : Nat) : HM Unit := xset rd (BitVec.ofInt 64 (signed (8 * n) v))
  if k = 2 then
    let v ← hload a.toNat n
    hartMod fun h => { h with reserved := some a.toNat }
    put v
  else if k = 3 then
    let h ← hartGet
    if h.reserved = some a.toNat then
      hstore a.toNat n b.toNat
      xset rd 0
    else
      let _ ← hload a.toNat n
      xset rd 1
    hartMod fun h => { h with reserved := none }
  else if [0, 1, 4, 8, 0xC, 0x10, 0x14, 0x18, 0x1C].contains k then
    let v ← hload a.toNat n
    hstore a.toNat n (amoOp k (8 * n) v (b.toNat % 2 ^ (8 * n)))
    put v
  else illegal

/-- The rounding mode of an instruction: its own, or frm. -/
def rmOf (h : Hart) (rm : Nat) : HM Nat :=
  let r := if rm = 7 then h.frm else rm
  if r ≤ 4 then pure r else illegal

/-- Write a floating-point result and raise its flags. -/
def fres (dbl : Bool) (rd : Nat) (r : Nat × Nat) : HM Unit := do
  orFlags r.2
  fput dbl rd r.1

/-- The fused operations of opcodes 0x43, 0x47, 0x4B and 0x4F. -/
def fused (w : Nat) : HM Unit := do
  let h ← hartGet
  let k := bits w 26 25
  if 1 < k then illegal
  let dbl : Bool := k = 1
  let f := fmtOf dbl
  let rm ← rmOf h (bits w 14 12)
  let a := h.fop dbl (bits w 19 15)
  let b := h.fop dbl (bits w 24 20)
  let c := h.fop dbl (bits w 31 27)
  let negP : Bool := bits w 6 2 = 0x12 || bits w 6 2 = 0x13
  let negC : Bool := bits w 6 2 = 0x11 || bits w 6 2 = 0x13
  let fl (n : Bool) (x : Nat) : Nat := if n && !f.isNan x then f.flip x else x
  fres dbl (bits w 11 7) (f.fmaRm rm (fl negP a) b (fl negC c))

/-- The operations of opcode 0x53. -/
def fpOp (w : Nat) : HM Unit := do
  let h ← hartGet
  let k := bits w 26 25
  if 1 < k then illegal
  let dbl : Bool := k = 1
  let f := fmtOf dbl
  let rd := bits w 11 7
  let r1 := bits w 19 15
  let r2 := bits w 24 20
  let m := bits w 14 12
  let a := h.fop dbl r1
  let b := h.fop dbl r2
  match bits w 31 27 with
  | 0x00 => do let rm ← rmOf h m; fres dbl rd (f.addRm rm a b)
  | 0x01 => do let rm ← rmOf h m; fres dbl rd (f.subRm rm a b)
  | 0x02 => do let rm ← rmOf h m; fres dbl rd (f.mulRm rm a b)
  | 0x03 => do let rm ← rmOf h m; fres dbl rd (f.divRm rm a b)
  | 0x0B => do
    let rm ← rmOf h m
    if r2 ≠ 0 then illegal else fres dbl rd (f.sqrtRm rm a)
  | 0x04 => if 2 < m then illegal else fput dbl rd (f.signInject m a b)
  | 0x05 => if 1 < m then illegal else fres dbl rd (f.minMaxRm (m = 1) a b)
  | 0x08 => do
    let rm ← rmOf h m
    if r2 + k ≠ 1 then illegal else fres dbl rd ((fmtOf (!dbl)).toFmtRm f rm (h.fop (!dbl) r1))
  | 0x14 =>
    if 2 < m then illegal
    else do
      let c := f.cmpRm m a b
      orFlags c.2
      xset rd (BitVec.ofNat 64 (b2n c.1))
  | 0x18 => do
    let rm ← rmOf h m
    if 3 < r2 then illegal
    else do
      let n := if r2 < 2 then 32 else 64
      let c := f.toIntRm rm n (r2 % 2 = 0) a
      orFlags c.2
      xset rd (if r2 < 2 then sext32 c.1 else BitVec.ofNat 64 c.1)
  | 0x1A => do
    let rm ← rmOf h m
    if 3 < r2 then illegal
    else do
      let n := if r2 < 2 then 32 else 64
      let x := (h.xr r1).toNat
      fres dbl rd (f.ofIntRm rm (if r2 % 2 = 0 then signed n x else (x % 2 ^ n : Nat)))
  | 0x1C =>
    if r2 ≠ 0 then illegal
    else match m with
      | 0 => xset rd (if dbl then h.fr r1 else sext32 ((h.fr r1).toNat % 2 ^ 32))
      | 1 => xset rd (BitVec.ofNat 64 (f.classOf a))
      | _ => illegal
  | 0x1E => if r2 = 0 ∧ m = 0 then fput dbl rd (h.xr r1).toNat else illegal
  | _ => illegal

/-- The system instructions of opcode 0x73 in user mode. -/
def systemOp (w : Nat) : HM Unit := do
  let h ← hartGet
  let f3 := bits w 14 12
  let rs1 := bits w 19 15
  let n := bits w 31 20
  if f3 = 0 then
    if w = 0x00000073 then htrap 8 0
    else if w = 0x00100073 then htrap 3 h.pc.toNat
    else if w = 0x10500073 then pure ()
    else illegal
  else if f3 = 4 then illegal
  else
    let v := if f3 < 4 then (h.xr rs1).toNat else rs1
    if f3 % 4 = 1 then
      let old ← (if bits w 11 7 = 0 then pure 0 else csrRead n)
      csrWrite n v
      xset (bits w 11 7) (BitVec.ofNat 64 old)
    else
      let old ← csrRead n
      if rs1 ≠ 0 then csrWrite n (if f3 % 4 = 2 then old ||| v else (BitVec.ofNat 64 old &&& ~~~(BitVec.ofNat 64 v)).toNat)
      xset (bits w 11 7) (BitVec.ofNat 64 old)

/-- The scalar instruction of a 32-bit word at the program counter, `len` bytes long; false for a word of the V extension. -/
def scalarOp (w len : Nat) : HM Bool := do
  let h ← hartGet
  let rd := bits w 11 7
  let f3 := bits w 14 12
  let f7 := bits w 31 25
  let a := h.xr (bits w 19 15)
  let b := h.xr (bits w 24 20)
  let next : W64 := h.pc + BitVec.ofNat 64 len
  jump next
  match w % 128 with
  | 0x37 => do xset rd (immU w); pure true
  | 0x17 => do xset rd (h.pc + immU w); pure true
  | 0x6F => do xset rd next; jump (h.pc + immJ w); pure true
  | 0x67 => do
    if f3 ≠ 0 then illegal
    xset rd next; jump (a + immI w); pure true
  | 0x63 => do
    if f3 = 2 ∨ f3 = 3 then illegal
    if branchTaken f3 a b then jump (h.pc + immB w)
    pure true
  | 0x03 => do loadX f3 rd (a + immI w); pure true
  | 0x23 => do
    if 3 < f3 then illegal
    hstore (a + immS w).toNat (2 ^ f3) b.toNat; pure true
  | 0x13 => do
    let sh : Bool := f3 = 1 || f3 = 5
    if sh && bits w 31 26 ≠ 0 && !(f3 = 5 && bits w 31 26 = 16) then illegal
    xset rd (aluOp f3 (f3 = 5 && w.testBit 30) a (immI w)); pure true
  | 0x1B => do
    if f3 ≠ 0 ∧ f3 ≠ 1 ∧ f3 ≠ 5 then illegal
    if f3 ≠ 0 && f7 ≠ 0 && !(f3 = 5 && f7 = 32) then illegal
    xset rd (aluW f3 (f3 = 5 && w.testBit 30) a.toNat (if f3 = 0 then (immI w).toNat else bits w 24 20)); pure true
  | 0x33 => do
    if f7 = 1 then xset rd (mulOp f3 a b)
    else if f7 = 0 ∨ (f7 = 32 ∧ (f3 = 0 ∨ f3 = 5)) then xset rd (aluOp f3 (f7 = 32) a b)
    else illegal
    pure true
  | 0x3B => do
    if f7 = 1 ∧ f3 ≠ 1 ∧ f3 ≠ 2 ∧ f3 ≠ 3 then xset rd (mulW f3 a.toNat b.toNat)
    else if (f7 = 0 ∧ (f3 = 0 ∨ f3 = 1 ∨ f3 = 5)) ∨ (f7 = 32 ∧ (f3 = 0 ∨ f3 = 5)) then xset rd (aluW f3 (f7 = 32) a.toNat b.toNat)
    else illegal
    pure true
  | 0x0F => if f3 ≤ 1 then pure true else illegal
  | 0x2F => do amo w rd a b; pure true
  | 0x73 => do systemOp w; pure true
  | 0x53 => do fpOp w; pure true
  | 0x43 => do fused w; pure true
  | 0x47 => do fused w; pure true
  | 0x4B => do fused w; pure true
  | 0x4F => do fused w; pure true
  | 0x07 =>
    if f3 = 2 then do
      let v ← hload (a + immI w).toNat 4
      fsetS rd v; pure true
    else if f3 = 3 then do
      let v ← hload (a + immI w).toNat 8
      fsetD rd v; pure true
    else pure false
  | 0x27 =>
    if f3 = 2 then do hstore (a + immS w).toNat 4 (h.fr (bits w 24 20)).toNat; pure true
    else if f3 = 3 then do hstore (a + immS w).toNat 8 (h.fr (bits w 24 20)).toNat; pure true
    else pure false
  | 0x57 => pure false
  | _ => illegal

end Sys2Proof.Machine
end

