-- ==== Sys2Proof/Machine/HartVec.lean ====
section
/-! DEFINITION. The vector instructions of a hart (R309, R310): the V extension 1.0 with VLEN 1,024 and ELEN 64. Elements past vl and masked-off
elements keep their values, which the extension allows for both policies; vfredusum and vfwredusum add in element order (R310). Encodings and
effects follow the RISC-V specification (log entry 98). -/

namespace Sys2Proof.Machine

/-! ### vtype and vl -/

/-- 8 × LMUL of the code in vtype. -/
def lmul8 (code : Nat) : Nat := [8, 16, 32, 64, 0, 1, 2, 4].getD code 0

/-- SEW in bits, 8 × LMUL, and the largest vl of a vtype. -/
def vSew (t : Nat) : Nat := 8 * 2 ^ bits t 5 3
def vLmul (t : Nat) : Nat := lmul8 (bits t 2 0)
def vlMax (t : Nat) : Nat := 128 * vLmul t / vSew t

/-- A vtype is supported: SEW up to 64 and no more than LMUL × ELEN; no reserved bit. -/
def vtypeOk (t : Nat) : Bool := t < 256 && bits t 5 3 ≤ 3 && vLmul t ≠ 0 && 8 * vSew t ≤ 64 * vLmul t

/-- vsetvli, vsetivli and vsetvl. An AVL above VLMAX sets vl to VLMAX. DESIGN CHOICE: log entry 98. -/
def vsetOp (w : Nat) : HM Unit := do
  let h ← hartGet
  let rd := bits w 11 7
  let rs1 := bits w 19 15
  let imm : Bool := bits w 31 30 = 3
  let t := if w.testBit 31 then (if imm then bits w 29 20 else (h.xr (bits w 24 20)).toNat) else bits w 30 20
  if w.testBit 31 && !imm && bits w 31 25 ≠ 0x40 then illegal
  if !vtypeOk t then
    crset 0xC21 (2 ^ 63); crset 0xC20 0; xset rd 0
  else
    let avl := if imm then rs1 else if rs1 ≠ 0 then (h.xr rs1).toNat else if rd ≠ 0 then 2 ^ 64 - 1 else h.cr 0xC20
    let vl := Nat.min avl (vlMax t)
    crset 0xC21 t; crset 0xC20 vl; xset rd (BitVec.ofNat 64 vl)
  crset 8 0

/-! ### Elements -/

/-- Element i of w bits of the group at register r. -/
def Hart.vel (h : Hart) (r i w : Nat) : Nat := (tget 0 h.v (r + i * w / 1024)).toNat >>> (i * w % 1024) % 2 ^ w
def vput (r i w v : Nat) : HM Unit := hartMod fun h =>
  let k := r + i * w / 1024
  { h with v := tset 0 h.v k (BitVec.ofNat 1024 (putBits (tget 0 h.v k).toNat (i * w % 1024 + w - 1) (i * w % 1024) v)) }
/-- Bit i of a mask register. -/
def Hart.vbit (h : Hart) (r i : Nat) : Bool := (tget 0 h.v r).getLsbD i
def vputBit (r i : Nat) (b : Bool) : HM Unit := vput r i 1 (b2n b)

/-- What a vector instruction works under: SEW, 8 × LMUL, vl, and whether it is unmasked; the hart before it. -/
structure VCtx where
  h : Hart
  sew : Nat
  l8 : Nat
  vl : Nat
  vm : Bool
deriving DecidableEq, Repr

/-- The context of a word; a vtype that is not supported makes it illegal. -/
def vctx (w : Nat) : HM VCtx := do
  let h ← hartGet
  let t := h.cr 0xC21
  if !vtypeOk t then illegal
  pure ⟨h, vSew t, vLmul t, h.cr 0xC20, w.testBit 25⟩

/-- Element i is active. -/
def VCtx.on (c : VCtx) (i : Nat) : Bool := c.vm || c.h.vbit 0 i

/-- For each element from vstart to vl, for each active one of them, in order. -/
def VCtx.each (c : VCtx) (f : Nat → HM Unit) : HM Unit := (List.range c.vl).forM fun i => if c.h.cr 8 ≤ i then f i else pure ()
def VCtx.active (c : VCtx) (f : Nat → HM Unit) : HM Unit := c.each fun i => if c.on i then f i else pure ()

/-- A group of 8 × EMUL at register r: EMUL within 1/8 to 8 and r a multiple of it; a masked instruction does not write v0 as data. -/
def groupOk (r e8 : Nat) : Bool := 1 ≤ e8 && e8 ≤ 64 && r % Nat.max 1 (e8 / 8) = 0
def needGroup (r e8 : Nat) : HM Unit := if groupOk r e8 then pure () else illegal
def needDest (c : VCtx) (r e8 : Nat) : HM Unit := if groupOk r e8 && (c.vm || r ≠ 0) then pure () else illegal
/-- Registers that hold one group of 8 × EMUL. -/
def groupRegs (e8 : Nat) : Nat := Nat.max 1 (e8 / 8)

/-! ### Integer elements -/

/-- Fixed-point rounding off of d bits under vxrm: nearest up, nearest even, down, to odd. -/
def roundOff (vxrm : Nat) (v : Int) (d : Nat) : Int :=
  let lo := v / 2 ^ d
  let r := v % 2 ^ d
  if d = 0 then v
  else match vxrm with
    | 0 => if (2 : Int) ^ (d - 1) ≤ r then lo + 1 else lo
    | 1 => if (2 : Int) ^ (d - 1) < r ∨ (r = 2 ^ (d - 1) ∧ lo % 2 ≠ 0) then lo + 1 else lo
    | 2 => lo
    | _ => if r ≠ 0 ∧ lo % 2 = 0 then lo + 1 else lo

/-- Saturate to w bits, signed or not: the pattern, and whether it saturated. -/
def satInt (w : Nat) (sgd : Bool) (v : Int) : Nat × Bool :=
  let top : Int := if sgd then 2 ^ (w - 1) - 1 else 2 ^ w - 1
  let bot : Int := if sgd then -(2 ^ (w - 1)) else 0
  if top < v then (unsigned w top, true) else if v < bot then (unsigned w bot, true) else (unsigned w v, false)

/-- Single-width operations of OPIVV, OPIVX and OPIVI by funct6: vs2 is a, the other operand b. -/
def viOp (k w a b : Nat) : Option Nat :=
  let sa := signed w a
  let sb := signed w b
  match k with
  | 0x00 => some (a + b)
  | 0x02 => some (a + 2 ^ w - b)
  | 0x03 => some (b + 2 ^ w - a)
  | 0x04 => some (Nat.min a b)
  | 0x05 => some (if sa < sb then a else b)
  | 0x06 => some (Nat.max a b)
  | 0x07 => some (if sa < sb then b else a)
  | 0x09 => some (a &&& b)
  | 0x0A => some (a ||| b)
  | 0x0B => some (a ^^^ b)
  | 0x25 => some (a <<< (b % w))
  | 0x28 => some (a >>> (b % w))
  | 0x29 => some (unsigned w (sa / 2 ^ (b % w)))
  | _ => none

/-- Saturating and rounding operations by funct6 (0x27 vsmul). -/
def vfixOp (k vxrm w a b : Nat) : Option (Nat × Bool) :=
  let sa := signed w a
  let sb := signed w b
  match k with
  | 0x20 => some (satInt w false (a + b))
  | 0x21 => some (satInt w true (sa + sb))
  | 0x22 => some (satInt w false ((a : Int) - b))
  | 0x23 => some (satInt w true (sa - sb))
  | 0x27 => some (satInt w true (roundOff vxrm (sa * sb) (w - 1)))
  | 0x2A => some (unsigned w (roundOff vxrm a (b % w)), false)
  | 0x2B => some (unsigned w (roundOff vxrm sa (b % w)), false)
  | _ => none

/-- Narrowing operations: a has 2w bits. -/
def vnarrowOp (k vxrm w a b : Nat) : Option (Nat × Bool) :=
  let d := b % (2 * w)
  let sa := signed (2 * w) a
  match k with
  | 0x2C => some (a >>> d % 2 ^ w, false)
  | 0x2D => some (unsigned w (sa / 2 ^ d), false)
  | 0x2E => some (satInt w false (roundOff vxrm a d))
  | 0x2F => some (satInt w true (roundOff vxrm sa d))
  | _ => none

/-- Comparisons 0x18 to 0x1F. -/
def vcmpOp (k w a b : Nat) : Bool :=
  match k with
  | 0x18 => a = b
  | 0x19 => a ≠ b
  | 0x1A => a < b
  | 0x1B => signed w a < signed w b
  | 0x1C => a ≤ b
  | 0x1D => signed w a ≤ signed w b
  | 0x1E => b < a
  | _ => signed w b < signed w a

/-- Single-width operations of OPMVV and OPMVX: averaging, division, multiplication and multiply-add; `d` is vd. -/
def vmOp (k vxrm w a b d : Nat) : Option Nat :=
  let sa := signed w a
  let sb := signed w b
  match k with
  | 0x08 => some (unsigned w (roundOff vxrm (a + b) 1))
  | 0x09 => some (unsigned w (roundOff vxrm (sa + sb) 1))
  | 0x0A => some (unsigned w (roundOff vxrm ((a : Int) - b) 1))
  | 0x0B => some (unsigned w (roundOff vxrm (sa - sb) 1))
  | 0x20 => some (divRem w false false a b)
  | 0x21 => some (divRem w true false a b)
  | 0x22 => some (divRem w false true a b)
  | 0x23 => some (divRem w true true a b)
  | 0x24 => some (a * b / 2 ^ w)
  | 0x25 => some (a * b)
  | 0x26 => some (unsigned w (sa * b / 2 ^ w))
  | 0x27 => some (unsigned w (sa * sb / 2 ^ w))
  | 0x29 => some (unsigned w ((b : Int) * d + a))
  | 0x2B => some (unsigned w ((a : Int) - b * d))
  | 0x2D => some (unsigned w ((b : Int) * a + d))
  | 0x2F => some (unsigned w ((d : Int) - b * a))
  | _ => none

/-- Widening operations to 2w bits: a is vs2, of 2w bits from 0x34 to 0x37; d is vd. -/
def vwideOp (k w a b d : Nat) : Option Int :=
  let sa := signed w a
  let sb := signed w b
  match k with
  | 0x30 => some (a + b)
  | 0x31 => some (sa + sb)
  | 0x32 => some ((a : Int) - b)
  | 0x33 => some (sa - sb)
  | 0x34 => some (a + b)
  | 0x35 => some (a + sb)
  | 0x36 => some ((a : Int) - b)
  | 0x37 => some ((a : Int) - sb)
  | 0x38 => some (a * b)
  | 0x3A => some (sa * b)
  | 0x3B => some (sa * sb)
  | 0x3C => some ((a * b + d : Nat) : Int)
  | 0x3D => some (sa * sb + d)
  | 0x3E => some (sa * b + d)
  | 0x3F => some ((a : Int) * sb + d)
  | _ => none

/-- Reductions 0x00 to 0x07. -/
def vredOp (k w a b : Nat) : Nat :=
  match k with
  | 0 => (a + b) % 2 ^ w
  | 1 => a &&& b
  | 2 => a ||| b
  | 3 => a ^^^ b
  | 4 => Nat.min a b
  | 5 => if signed w a < signed w b then a else b
  | 6 => Nat.max a b
  | _ => if signed w a < signed w b then b else a

/-- Set vxsat. -/
def orSat (b : Bool) : HM Unit := if b then hartMod fun h => { h with csr := tset 0 h.csr 0xF (BitVec.ofNat 64 (h.cr 0xF ||| 1)) } else pure ()

/-- The active elements of vs2 in order. -/
def VCtx.actives (c : VCtx) (vs2 w : Nat) : List Nat := ((List.range c.vl).filter c.on).map fun i => c.h.vel vs2 i w

/-- Write a pattern to element i of vd and flag its saturation; a funct6 without an operation is illegal. -/
def vres (vd i w : Nat) : Option (Nat × Bool) → HM Unit
  | some v => do orSat v.2; vput vd i w (v.1 % 2 ^ w)
  | none => illegal

/-- The slides and gathers: element i of vd from element j of vs2, none for a zero. -/
def vmove (c : VCtx) (vd vs2 i : Nat) (j : Nat) : HM Unit :=
  vput vd i c.sew (if j < 16 * c.l8 * 8 / c.sew then c.h.vel vs2 j c.sew else 0)

/-- OPIVV, OPIVX and OPIVI. -/
def vInt (w : Nat) : HM Unit := do
  let c ← vctx w
  let f3 := bits w 14 12
  let k := bits w 31 26
  let vd := bits w 11 7
  let vs1 := bits w 19 15
  let vs2 := bits w 24 20
  let n := c.sew
  let vv : Bool := f3 = 0
  let vi : Bool := f3 = 3
  let vxrm := c.h.cr 0xF / 2 % 4
  let x : Nat := if vi then (if [0x0C, 0x0E, 0x0F, 0x25, 0x28, 0x29, 0x2A, 0x2B, 0x2C, 0x2D, 0x2E, 0x2F].contains k then vs1 else unsigned 64 (signed 5 vs1))
    else (c.h.xr vs1).toNat
  let b (i : Nat) : Nat := if vv then c.h.vel vs1 i n else x % 2 ^ n
  if k = 0x27 ∧ vi then
    if !([0, 1, 3, 7].contains vs1) || vd % (vs1 + 1) ≠ 0 || vs2 % (vs1 + 1) ≠ 0 then illegal
    (List.range (vs1 + 1)).forM fun r => vput (vd + r) 0 1024 (tget 0 c.h.v (vs2 + r)).toNat
  else if 0x18 ≤ k ∧ k ≤ 0x1F then
    needGroup vs2 c.l8
    if vv then needGroup vs1 c.l8
    if (vv && 0x1E ≤ k) || (vi && (k = 0x1A || k = 0x1B)) then illegal
    c.active fun i => vputBit vd i (vcmpOp k n (c.h.vel vs2 i n) (b i))
  else if k = 0x11 ∨ k = 0x13 then
    needGroup vs2 c.l8
    if k = 0x13 ∧ vi then illegal
    c.each fun i =>
      let cin := if c.vm then 0 else b2n (c.h.vbit 0 i)
      let a := c.h.vel vs2 i n
      vputBit vd i (if k = 0x11 then 2 ^ n ≤ a + b i + cin else a < b i + cin)
  else if k = 0x30 ∨ k = 0x31 then
    if !vv || n = 64 then illegal
    needGroup vs2 c.l8
    if 0 < c.vl then
      let sx (v : Nat) : Nat := if k = 0x31 then unsigned (2 * n) (signed n v) else v
      vput vd 0 (2 * n) ((c.actives vs2 n).foldl (fun acc v => (acc + sx v) % 2 ^ (2 * n)) (c.h.vel vs1 0 (2 * n)))
  else if 0x2C ≤ k ∧ k ≤ 0x2F then
    if n = 64 then illegal
    needDest c vd c.l8; needGroup vs2 (2 * c.l8)
    c.active fun i => vres vd i n (vnarrowOp k vxrm n (c.h.vel vs2 i (2 * n)) (b i))
  else
    needDest c vd c.l8; needGroup vs2 c.l8
    if vv then needGroup vs1 (if k = 0x0E then 16 * c.l8 / n else c.l8)
    if k = 0x0C then c.active fun i => vmove c vd vs2 i (if vv then b i else x)
    else if k = 0x0E then
      if vv then c.active fun i => vmove c vd vs2 i (c.h.vel vs1 i 16)
      else c.active fun i => if x ≤ i then vmove c vd vs2 i (i - x) else pure ()
    else if k = 0x0F then (if vv then illegal else c.active fun i => vmove c vd vs2 i (i + x))
    else if k = 0x10 ∨ k = 0x12 then
      if c.vm || (k = 0x12 && vi) then illegal
      c.each fun i =>
        let cin := b2n (c.h.vbit 0 i)
        let a := c.h.vel vs2 i n
        vput vd i n ((if k = 0x10 then a + b i + cin else a + 2 ^ (n + 1) - b i - cin) % 2 ^ n)
    else if k = 0x17 then
      if c.vm && vs2 ≠ 0 then illegal
      c.each fun i => vput vd i n (if c.vm || c.h.vbit 0 i then b i else c.h.vel vs2 i n)
    else
      if (k = 0x02 && vi) || (k = 0x03 && vv) || (4 ≤ k && k ≤ 7 && vi) || ((k = 0x22 || k = 0x23) && vi) then illegal
      c.active fun i =>
        let a := c.h.vel vs2 i n
        vres vd i n (((viOp k n a (b i)).map fun v => (v, false)).orElse fun _ => vfixOp k vxrm n a (b i))
  crset 8 0

/-! ### OPMVV and OPMVX -/

/-- Mask-register logic 0x18 to 0x1F. -/
def vmaskOp (k : Nat) (a b : Bool) : Bool :=
  match k with
  | 0x18 => a && !b
  | 0x19 => a && b
  | 0x1A => a || b
  | 0x1B => a != b
  | 0x1C => a || !b
  | 0x1D => !(a && b)
  | 0x1E => !(a || b)
  | _ => a == b

/-- vmsbf, vmsof, vmsif, viota and vid (VMUNARY0). -/
def vmunary (c : VCtx) (k vd vs2 : Nat) : HM Unit :=
  let set (i : Nat) : Bool := c.on i && c.h.vbit vs2 i
  let first := ((List.range c.vl).find? set).getD c.vl
  match k with
  | 1 => c.active fun i => vputBit vd i (i < first)
  | 2 => c.active fun i => vputBit vd i (i = first)
  | 3 => c.active fun i => vputBit vd i (i ≤ first)
  | 16 => c.active fun i => vput vd i c.sew (((List.range i).filter set).length % 2 ^ c.sew)
  | 17 => c.active fun i => vput vd i c.sew (i % 2 ^ c.sew)
  | _ => illegal

/-- OPMVV and OPMVX. -/
def vMul (w : Nat) : HM Unit := do
  let c ← vctx w
  let k := bits w 31 26
  let vd := bits w 11 7
  let vs1 := bits w 19 15
  let vs2 := bits w 24 20
  let n := c.sew
  let vv : Bool := bits w 14 12 = 2
  let vxrm := c.h.cr 0xF / 2 % 4
  let x := (c.h.xr vs1).toNat
  let b (i : Nat) : Nat := if vv then c.h.vel vs1 i n else x % 2 ^ n
  if k = 0x10 then
    if vv then
      match vs1 with
      | 0 => xset vd (BitVec.ofInt 64 (signed n (c.h.vel vs2 0 n)))
      | 16 => xset vd (BitVec.ofNat 64 ((List.range c.vl).filter fun i => c.on i && c.h.vbit vs2 i).length)
      | 17 => xset vd (((List.range c.vl).find? fun i => c.on i && c.h.vbit vs2 i).elim (BitVec.allOnes 64) fun i => BitVec.ofNat 64 i)
      | _ => illegal
    else if vs2 ≠ 0 then illegal
    else if c.h.cr 8 < c.vl then vput vd 0 n (x % 2 ^ n)
  else if k < 8 ∧ vv then
    needGroup vs2 c.l8
    if 0 < c.vl then vput vd 0 n ((c.actives vs2 n).foldl (vredOp k n) (c.h.vel vs1 0 n))
  else if (k = 0x0E ∨ k = 0x0F) ∧ !vv then
    needDest c vd c.l8; needGroup vs2 c.l8
    c.active fun i =>
      if k = 0x0E then (if i = 0 then vput vd 0 n (x % 2 ^ n) else vmove c vd vs2 i (i - 1))
      else if i + 1 = c.vl then vput vd i n (x % 2 ^ n) else vmove c vd vs2 i (i + 1)
  else if k = 0x12 ∧ vv then
    let q := [0, 0, 8, 8, 4, 4, 2, 2].getD vs1 0
    if q = 0 ∨ n / q < 8 then illegal
    needDest c vd c.l8; needGroup vs2 (c.l8 / q)
    c.active fun i =>
      let v := c.h.vel vs2 i (n / q)
      vput vd i n (if vs1 % 2 = 1 then unsigned n (signed (n / q) v) else v)
  else if k = 0x14 ∧ vv then vmunary c vs1 vd vs2
  else if k = 0x17 ∧ vv then
    if !c.vm then illegal
    needGroup vd c.l8; needGroup vs2 c.l8
    (indexed ((List.range c.vl).filter fun i => c.h.vbit vs1 i)).forM fun e => vput vd e.1 n (c.h.vel vs2 e.2 n)
  else if 0x18 ≤ k ∧ k ≤ 0x1F ∧ vv then
    if !c.vm then illegal
    c.each fun i => vputBit vd i (vmaskOp k (c.h.vbit vs2 i) (c.h.vbit vs1 i))
  else if 0x30 ≤ k then
    if n = 64 ∨ (k = 0x3E ∧ vv) then illegal
    let wide : Bool := 0x34 ≤ k && k ≤ 0x37
    needDest c vd (2 * c.l8); needGroup vs2 (if wide then 2 * c.l8 else c.l8)
    c.active fun i =>
      match vwideOp k n (c.h.vel vs2 i (if wide then 2 * n else n)) (b i) (c.h.vel vd i (2 * n)) with
      | some v => vput vd i (2 * n) (unsigned (2 * n) v)
      | none => illegal
  else
    needDest c vd c.l8; needGroup vs2 c.l8
    if vv then needGroup vs1 c.l8
    c.active fun i => vres vd i n ((vmOp k vxrm n (c.h.vel vs2 i n) (b i) (c.h.vel vd i n)).map fun v => (v, false))
  crset 8 0

/-! ### OPFVV and OPFVF -/

/-- Single-width operations by funct6: a is vs2, b the other operand, d is vd. -/
def vfOp (f : FFmt) (rm k a b d : Nat) : Option (Nat × Nat) :=
  match k with
  | 0x00 => some (f.addRm rm a b)
  | 0x02 => some (f.subRm rm a b)
  | 0x04 => some (f.minMaxRm false a b)
  | 0x06 => some (f.minMaxRm true a b)
  | 0x08 => some (f.signInject 0 a b, 0)
  | 0x09 => some (f.signInject 1 a b, 0)
  | 0x0A => some (f.signInject 2 a b, 0)
  | 0x20 => some (f.divRm rm a b)
  | 0x21 => some (f.divRm rm b a)
  | 0x24 => some (f.mulRm rm a b)
  | 0x27 => some (f.subRm rm b a)
  | 0x28 => some (f.fmaRm rm d b a)
  | 0x29 => some (f.fmaRm rm (f.flip d) b (f.flip a))
  | 0x2A => some (f.fmaRm rm d b (f.flip a))
  | 0x2B => some (f.fmaRm rm (f.flip d) b a)
  | 0x2C => some (f.fmaRm rm b a d)
  | 0x2D => some (f.fmaRm rm (f.flip b) a (f.flip d))
  | 0x2E => some (f.fmaRm rm b a (f.flip d))
  | 0x2F => some (f.fmaRm rm (f.flip b) a d)
  | _ => none

/-- Widening operations to binary64, on operands already widened. -/
def vfwideOp (rm k a b d : Nat) : Option (Nat × Nat) :=
  match k with
  | 0x30 => some (fp64.addRm rm a b)
  | 0x32 => some (fp64.subRm rm a b)
  | 0x34 => some (fp64.addRm rm a b)
  | 0x36 => some (fp64.subRm rm a b)
  | 0x38 => some (fp64.mulRm rm a b)
  | 0x3C => some (fp64.fmaRm rm b a d)
  | 0x3D => some (fp64.fmaRm rm (fp64.flip b) a (fp64.flip d))
  | 0x3E => some (fp64.fmaRm rm b a (fp64.flip d))
  | 0x3F => some (fp64.fmaRm rm (fp64.flip b) a d)
  | _ => none

/-- Comparisons: 0x18 equal, 0x19 at most, 0x1B below, 0x1C not equal, 0x1D above, 0x1F at least. -/
def vfCmp (f : FFmt) (k a b : Nat) : Option (Bool × Nat) :=
  match k with
  | 0x18 => some (f.cmpRm 2 a b)
  | 0x19 => some (f.cmpRm 0 a b)
  | 0x1B => some (f.cmpRm 1 a b)
  | 0x1C => some (!(f.cmpRm 2 a b).1, (f.cmpRm 2 a b).2)
  | 0x1D => some (f.cmpRm 1 b a)
  | 0x1F => some (f.cmpRm 0 b a)
  | _ => none

/-- Write a floating-point element and raise its flags. -/
def vfres (vd i w : Nat) : Option (Nat × Nat) → HM Unit
  | some v => do orFlags v.2; vput vd i w v.1
  | none => illegal

/-- The conversions of VFUNARY0: source width, destination width, and the conversion; n is SEW, and q = 0 single-width, 1 widening,
2 narrowing. -/
def vfCvt (rm n q k a : Nat) : Option (Nat × Nat) :=
  let fmtAt (w : Nat) : Option FFmt := if w = 32 then some fp32 else if w = 64 then some fp64 else none
  let src := if q = 2 then 2 * n else n
  let dst := if q = 1 then 2 * n else n
  let toInt (rm : Nat) (sgd : Bool) : Option (Nat × Nat) := (fmtAt src).map fun f => f.toIntRm rm dst sgd a
  let ofInt (sgd : Bool) : Option (Nat × Nat) := (fmtAt dst).map fun f => f.ofIntRm rm (if sgd then signed src a else a)
  match k % 8 with
  | 0 => toInt rm false
  | 1 => toInt rm true
  | 2 => ofInt false
  | 3 => ofInt true
  | 4 => if q = 0 then none else (fmtAt src).bind fun f => (fmtAt dst).map fun g => f.toFmtRm g rm a
  | 5 => if q ≠ 2 then none else (fmtAt src).bind fun f => (fmtAt dst).map fun g => f.toFmtRm g 5 a
  | 6 => toInt 1 false
  | _ => toInt 1 true

/-- OPFVV and OPFVF. -/
def vFloat (w : Nat) : HM Unit := do
  let c ← vctx w
  let k := bits w 31 26
  let vd := bits w 11 7
  let vs1 := bits w 19 15
  let vs2 := bits w 24 20
  let n := c.sew
  let vv : Bool := bits w 14 12 = 1
  let rm ← rmOf c.h 7
  if k = 0x12 ∧ vv then
    let q := vs1 / 8
    if 2 < q ∨ (n = 64 ∧ q ≠ 0) then illegal
    needDest c vd (if q = 1 then 2 * c.l8 else c.l8); needGroup vs2 (if q = 2 then 2 * c.l8 else c.l8)
    c.active fun i => vfres vd i (if q = 1 then 2 * n else n) (vfCvt rm n q vs1 (c.h.vel vs2 i (if q = 2 then 2 * n else n)))
    return ← crset 8 0
  if n < 32 then illegal
  let dbl : Bool := n = 64
  let f := fmtOf dbl
  let x := c.h.fop dbl vs1
  let b (i : Nat) : Nat := if vv then c.h.vel vs1 i n else x
  let widen (v : Nat) : Nat := (fp32.toFmtRm fp64 0 v).1
  if k = 0x10 then
    if vv then
      if vs1 ≠ 0 then illegal
      fput dbl vd (c.h.vel vs2 0 n)
    else if vs2 ≠ 0 then illegal
    else if c.h.cr 8 < c.vl then vput vd 0 n x
  else if k = 0x13 ∧ vv then
    needDest c vd c.l8; needGroup vs2 c.l8
    c.active fun i =>
      let a := c.h.vel vs2 i n
      vfres vd i n (match vs1 with
        | 0 => some (f.sqrtRm rm a)
        | 4 => some (f.rsqrt7 a)
        | 5 => some (f.rec7 rm a)
        | 16 => some (f.classOf a, 0)
        | _ => none)
  else if k = 0x17 then
    if vv || (c.vm && vs2 ≠ 0) then illegal
    needDest c vd c.l8
    c.each fun i => vput vd i n (if c.vm || c.h.vbit 0 i then x else c.h.vel vs2 i n)
  else if [0x18, 0x19, 0x1B, 0x1C, 0x1D, 0x1F].contains k then
    if vv && 0x1D ≤ k then illegal
    needGroup vs2 c.l8
    c.active fun i =>
      match vfCmp f k (c.h.vel vs2 i n) (b i) with
      | some r => do orFlags r.2; vputBit vd i r.1
      | none => illegal
  else if [0x01, 0x03, 0x05, 0x07].contains k ∧ vv then
    needGroup vs2 c.l8
    if 0 < c.vl then
      let r := (c.actives vs2 n).foldl (fun (acc : Nat × Nat) v =>
        let t := if k < 4 then f.addRm rm acc.1 v else f.minMaxRm (k = 7) acc.1 v
        (t.1, acc.2 ||| t.2)) (c.h.vel vs1 0 n, 0)
      orFlags r.2
      vput vd 0 n r.1
  else if [0x31, 0x33].contains k ∧ vv then
    if dbl then illegal
    needGroup vs2 c.l8
    if 0 < c.vl then
      let r := (c.actives vs2 32).foldl (fun (acc : Nat × Nat) v =>
        let u := fp32.toFmtRm fp64 0 v
        let t := fp64.addRm rm acc.1 u.1
        (t.1, acc.2 ||| u.2 ||| t.2)) (c.h.vel vs1 0 64, 0)
      orFlags r.2
      vput vd 0 64 r.1
  else if (k = 0x0E ∨ k = 0x0F) ∧ !vv then
    needDest c vd c.l8; needGroup vs2 c.l8
    c.active fun i =>
      if k = 0x0E then (if i = 0 then vput vd 0 n x else vmove c vd vs2 i (i - 1))
      else if i + 1 = c.vl then vput vd i n x else vmove c vd vs2 i (i + 1)
  else if 0x30 ≤ k then
    if dbl then illegal
    let wide : Bool := k = 0x34 || k = 0x36
    needDest c vd (2 * c.l8); needGroup vs2 (if wide then 2 * c.l8 else c.l8)
    c.active fun i => do
      let a32 := c.h.vel vs2 i 32
      if (!wide && fp32.snan a32) || fp32.snan (b i) then orFlags fNV
      vfres vd i 64 (vfwideOp rm k (if wide then c.h.vel vs2 i 64 else widen a32) (widen (b i)) (c.h.vel vd i 64))
  else
    if vv && (k = 0x21 || k = 0x27) then illegal
    needDest c vd c.l8; needGroup vs2 c.l8
    if vv then needGroup vs1 c.l8
    c.active fun i => vfres vd i n (vfOp f rm k (c.h.vel vs2 i n) (b i) (c.h.vel vd i n))
  crset 8 0

/-! ### Loads and stores -/

/-- Move one element between memory and element i of w bits at register r. -/
def velem (store : Bool) (a : W64) (r i w : Nat) : HM Unit := do
  if store then
    let h ← hartGet
    hstore a.toNat (w / 8) (h.vel r i w)
  else
    let v ← hload a.toNat (w / 8)
    vput r i w v

/-- Run a step whose trap shortens vl to i, from element 1 on (fault-only-first); true when it trapped. -/
def firstOnly (i : Nat) (m : HM Unit) : HM Bool := fun r =>
  match m r with
  | .ok _ t => .ok false t
  | .error (.trap c v) t =>
    if i = 0 then .error (.trap c v) t else .ok true { r with h := { r.h with csr := tset 0 r.h.csr 0xC20 (BitVec.ofNat 64 i) } }
  | .error e t => .error e t

/-- Elements i of a fault-only-first load, until one traps. -/
def faultFirst (f : Nat → HM Unit) : List Nat → HM Unit
  | [] => pure ()
  | i :: l => do
    let t ← firstOnly i (f i)
    if t then pure () else faultFirst f l

/-- A vector load or store (opcodes 0x07 and 0x27). -/
def vMem (w : Nat) : HM Unit := do
  let store : Bool := w % 128 = 0x27
  let h ← hartGet
  let mop := bits w 27 26
  let sub := bits w 24 20
  let nf := bits w 31 29 + 1
  let vd := bits w 11 7
  let base := h.xr (bits w 19 15)
  let eew := [8, 0, 0, 0, 0, 16, 32, 64].getD (bits w 14 12) 0
  if w.testBit 28 then illegal
  if mop = 0 ∧ sub = 8 then
    if !([1, 2, 4, 8].contains nf) || vd % nf ≠ 0 || (store && eew ≠ 8) then illegal
    (List.range (nf * 1024 / eew)).forM fun i => if h.cr 8 ≤ i then velem store (base + BitVec.ofNat 64 (i * (eew / 8))) vd i eew else pure ()
  else
    let c ← vctx w
    if mop = 0 ∧ sub = 11 then
      if eew ≠ 8 ∨ nf ≠ 1 then illegal
      (List.range (ceilDiv c.vl 8)).forM fun i => if h.cr 8 ≤ i then velem store (base + BitVec.ofNat 64 i) vd i 8 else pure ()
    else
      if mop = 0 && sub ≠ 0 && !(sub = 16 && !store) then illegal
      let idx : Bool := mop % 2 = 1
      let dw := if idx then c.sew else eew
      if eew * c.l8 % c.sew ≠ 0 then illegal
      let e8 := if idx then c.l8 else eew * c.l8 / c.sew
      let regs := groupRegs e8
      if store then needGroup vd e8 else needDest c vd e8
      if 8 < nf * regs ∨ 32 < vd + nf * regs then illegal
      if idx then needGroup sub (eew * c.l8 / c.sew)
      let stride : W64 := if mop = 2 then h.xr sub else BitVec.ofNat 64 (nf * (eew / 8))
      let at_ (i : Nat) : W64 := base + (if idx then BitVec.ofNat 64 (h.vel sub i eew) else BitVec.ofNat 64 i * stride)
      let one (i : Nat) : HM Unit :=
        if c.on i then (List.range nf).forM fun k => velem store (at_ i + BitVec.ofNat 64 (k * (dw / 8))) (vd + k * regs) i dw else pure ()
      if mop = 0 ∧ sub = 16 then faultFirst one ((List.range c.vl).filter fun i => h.cr 8 ≤ i) else c.each one
  crset 8 0

/-- The vector instruction of a word. -/
def vectorOp (w : Nat) : HM Unit :=
  if w % 128 = 0x57 then
    match bits w 14 12 with
    | 0 => vInt w
    | 1 => vFloat w
    | 2 => vMul w
    | 3 => vInt w
    | 4 => vInt w
    | 5 => vFloat w
    | 6 => vMul w
    | _ => vsetOp w
  else if [0, 5, 6, 7].contains (bits w 14 12) then vMem w
  else illegal

end Sys2Proof.Machine
end

