-- ==== Sys2Proof/Machine/QuinceRules.lean ====
section
/-! DEFINITION. Quince's rules: the loading of rule images (R312, R313) and the Adam reference rule of slot 0 (R324). -/

namespace Sys2Proof.Machine

/-! ### Loading (R312, R313) -/

/-- QNC_RULE_k. -/
def ruleReg (k : Nat) : Nat := qncBase + 0x1000 + 16 * k

/-- Size of rule memory (R311). -/
def ruleMemory : Nat := 0x200000

/-- Bytes of rule memory a text takes at a 4 KiB boundary. -/
def rulePages (r : Rule) : Nat := ceilDiv r.text.length 4096 * 4096

/-- The lowest 4 KiB boundary with n free bytes before the end of rule memory, past the loaded rules. DEDUCED: log entry 55. -/
def rulePlace (rs : List Rule) (n : Nat) : Option Nat :=
  let free (p : Nat) : Bool := p + n ≤ ruleMemory && rs.all fun r => p + n ≤ r.place || r.place + rulePages r ≤ p
  (0 :: sortOn id (rs.map fun r => r.place + rulePages r)).find? free

/-- A rule image's header obeys R312. -/
def ruleHeaderOk (h : List Byte) : Bool :=
  let n := leAt h 8 4
  leAt h 0 4 = 0x4C555251 && leAt h 4 4 = 1 && aligned 4 n && 4 ≤ n && n ≤ 262144 && leAt h 12 1 ≤ 1 &&
    (bytesAt h 13 3).all (· = 0) && (leAt h 16 4 = 0xFFFFFFFF || leAt h 16 4 < n) && leAt h 20 4 < n &&
    (bytesAt h 24 40).all (· = 0)

/-- The rule that a header and a text describe. -/
def ruleOf (h text : List Byte) (place : Nat) : Rule := ⟨leAt h 12 1, leAt h 16 4 ≠ 0xFFFFFFFF, text, place, leAt h 16 4, leAt h 20 4⟩

/-- Load the image of slot k (R313): the state and the load status (1 loaded, 2 bad header, 3 digest mismatch, 4 rule memory
full). An image outside the slow tier, or a header with poison, is a bad header; a text with poison fails its digest. -/
def ruleFetch (s : State) (k : Nat) : State × Nat :=
  let a := fget s (ruleReg k) 47 7 * 128
  if !rangeOk s Place.isSlow a 128 then (s, 2)
  else
    let h := memRead s a 128
    let hb := pdata h.2
    let n := leAt hb 8 4
    if anyPoison h.2 || !ruleHeaderOk hb || !rangeOk s Place.isSlow (a + 128) n then (h.1, 2)
    else
      let t := memRead h.1 (a + 128) n
      let text := pdata t.2
      if anyPoison t.2 || shake256 64 text ≠ bytesAt hb 64 64 then (t.1, 3)
      else
        let rest := tdel s.qnc.rules k
        match rulePlace (rest.map (·.2)) (ceilDiv n 4096 * 4096) with
        | none => (t.1, 4)
        | some p => ({ t.1 with qnc := { t.1.qnc with rules := tput rest k (ruleOf hb text p) } }, 1)

/-- A write of load to QNC_RULE_k (R313): without effect in slots 0 to 15 and while a plan runs. DEDUCED: log entry 54. -/
def ruleLoad (s : State) (k : Nat) : State :=
  if k < 16 ∨ s.run.isSome then s
  else
    let r := ruleFetch s k
    let s := fset (fset r.1 (ruleReg k) 62 60 r.2) (ruleReg k) 63 63 (b2n (tget? r.1.qnc.rules k).isSome)
    notice s 0x2005 0 0xFFFF 0xFF (k + r.2 * 2 ^ 8)

/-! ### The Adam rule (R324) -/

/-- The FP32 operations of the rule on one element: gradient (as FP32), master, m and v, with the rule area; the new m, v and
master. -/
structure Adam where
  lr : Nat
  b1 : Nat
  b2 : Nat
  eps : Nat
  wd : Nat
  r1 : Nat
  r2 : Nat
deriving DecidableEq, Repr

/-- The fields of bytes 64 to 127 of a group descriptor. -/
def adamOf (d : List Byte) : Adam :=
  ⟨leAt d 64 4, leAt d 68 4, leAt d 72 4, leAt d 76 4, leAt d 80 4, leAt d 112 4, leAt d 116 4⟩

/-- A binary64 or FP32 pattern in the other format, rounded to nearest even. -/
def f64To32 (a : Nat) : Nat := fp32.rne (fp64.decode a)
def f32To64 (a : Nat) : Nat := fp64.rne (fp32.decode a)
def f64One : Nat := 0x3FF0000000000000

/-- The bias-correction factor of a running power. -/
def adamFactor (p : Nat) : Nat := f64To32 (fp64.div f64One (fp64.sub f64One p))

/-- adam_prologue: bytes 64 to 127 of the group descriptor after it. DESIGN CHOICE: log entry 53. -/
def adamPrologue (d : List Byte) : List Byte :=
  let t := (leAt d 88 8 + 1) % 2 ^ 64
  let p1 := fp64.mul (leAt d 96 8) (f32To64 (leAt d 68 4))
  let p2 := fp64.mul (leAt d 104 8) (f32To64 (leAt d 72 4))
  bytesAt d 64 24 ++ leBytes 8 t ++ leBytes 8 p1 ++ leBytes 8 p2 ++ leBytes 4 (adamFactor p1) ++ leBytes 4 (adamFactor p2) ++
    bytesAt d 120 8

/-- One element of adam_body: the new m, v and w. -/
def Adam.elem (a : Adam) (gr w0 m0 v0 : Nat) : Nat × Nat × Nat :=
  let omb1 := fp32.sub f32One a.b1
  let omb2 := fp32.sub f32One a.b2
  let m := fp32.fma a.b1 m0 (fp32.mul omb1 gr)
  let v := fp32.fma a.b2 v0 (fp32.mul omb2 (fp32.mul gr gr))
  let u := fp32.div (fp32.mul m a.r1) (fp32.add (fp32.sqrt (fp32.mul v a.r2)) a.eps)
  (m, v, fp32.sub w0 (fp32.mul a.lr (fp32.fma a.wd w0 u)))

/-- The largest finite magnitude of FP32 patterns, as a pattern (R315). -/
def f32Amax (l : List Nat) : Nat :=
  l.foldl (fun a x => if (fp32.decode x).nonfinite then a else Nat.max a (x % 2 ^ 31)) 0

/-- Bytes of an MX working copy: groups of 128 elements, one after another (R134, R170). DEDUCED: log entry 54. -/
def mxWork (fmt : Nat) (l : List Nat) : List Byte × List ConvKind :=
  let r := (chunks 128 l.length (l.map fp32.decode)).map fun c => mxEncode fmt (c.map fun v => (v, Rnd.rne))
  ((r.map (·.1)).flatten, (r.map (·.2)).flatten)

/-- The working copy of a run of elements under exponent e (R324 q_convert): its bytes and what was counted. DEDUCED: log entry 54. -/
def workCopy (fmt : Nat) (e : Int) (l : List Nat) : List Byte × List ConvKind :=
  if fmt = 0xFF then ([], [])
  else if isMx fmt then mxWork fmt l
  else
    let r := l.map fun x => encodeElem fmt .rne ((fp32.decode x).scale2 (if scaled fmt then e else 0))
    ((r.map fun x => leBytes (fmtBytes fmt) x.1).flatten, r.map (·.2))

/-- Offset of element i of a working copy. -/
def workOff (fmt i : Nat) : Nat := if isMx fmt then i / 128 * mxRowBytes fmt 128 else i * fmtBytes fmt

/-- How an invocation ends: it returns, meets a rule fault of a class at an address, reads poison at an address, or has not come to its end. -/
inductive RunEnd where
  | ret (r : RuleRun)
  | fault (cls addr : Nat)
  | poison (addr : Nat)
  | running
deriving DecidableEq, Repr

/-- A hart's access of elements of al bytes at a is a rule fault (R311): outside module memory, or misaligned. -/
def hartFault (s : State) (a n al : Nat) : Option (Nat × Nat) :=
  if a % al ≠ 0 then some (0x11, a)
  else (badAddr s Place.remoteOk a n).map fun x => (0x10, x)

/-- adam_body on elements first to first + n − 1 of the group of descriptor d, whose working copy takes exponent e (R324): its result, the
first rule fault of its accesses in the order of the text (R311), or the lowest poisoned address of the first tensor that has one. DESIGN CHOICE: log entry 53. -/
def adamBody (s : State) (d : List Byte) (e : Int) (first n : Nat) : State × RunEnd :=
  let fmt := leAt d 12 1
  let at_ (o : Nat) : Nat := leAt d o 8 % 2 ^ 48
  let grad := at_ 48 + 2 * first
  let master := at_ 24 + 4 * first
  let s1 := at_ 32 + 4 * first
  let s2 := at_ 40 + 4 * first
  let work := at_ 16 + workOff fmt first
  let size := if fmt = 0xFF then 0 else workOff fmt (first + n) - workOff fmt first
  match (hartFault s grad (2 * n) 2).orElse fun _ => (hartFault s master (4 * n) 4).orElse fun _ => (hartFault s s1 (4 * n) 4).orElse fun _ =>
      (hartFault s s2 (4 * n) 4).orElse fun _ => if size = 0 then none else hartFault s work size (if fmt = 1 then 2 else 1) with
  | some x => (s, .fault x.1 x.2)
  | none =>
    let g := memRead s grad (2 * n)
    let w := memRead g.1 master (4 * n)
    let m := memRead w.1 s1 (4 * n)
    let v := memRead m.1 s2 (4 * n)
    let bad (base : Nat) (l : List PByte) : Option Nat := (l.findIdx? (·.2)).map fun i => base + i
    match (bad grad g.2).orElse fun _ => (bad master w.2).orElse fun _ => (bad s1 m.2).orElse fun _ => bad s2 v.2 with
    | some a => (v.1, .poison a)
    | none =>
      let gr := (chunks 2 n (pdata g.2)).map fun b => leNat b * 65536
      let ws := f32List (pdata w.2)
      let ms := f32List (pdata m.2)
      let vs := f32List (pdata v.2)
      let r := (List.range n).map fun i => (adamOf d).elem (gr.getD i 0) (ws.getD i 0) (ms.getD i 0) (vs.getD i 0)
      let nw := r.map fun x => x.2.2
      let c := workCopy fmt e nw
      let word (a : Nat) (l : List Nat) : BitVec 48 × List Byte := (BitVec.ofNat 48 a, f32Bytes l)
      let writes := [word s1 (r.map fun x => x.1), word s2 (r.map fun x => x.2.1), word master nw, (BitVec.ofNat 48 work, c.1)]
      let nf : Bool := (nw ++ gr).any fun x => (fp32.decode x).nonfinite
      (v.1, .ret ⟨0, writes, [], BitVec.ofNat 32 (if fmt = 0xFF then 0 else f32Amax nw), BitVec.ofNat 32 (f32Amax gr), flushes c.2,
        saturations c.2, nf, 0, none⟩)

/-! ### Damped inversion (R326) -/

/-- A binary64 pattern is a number greater than 0. -/
def f64Pos (a : Nat) : Bool := f64Lt 0 a

/-- Row i of the Cholesky factor of A + λI, from the rows before it; none when its pivot is not greater than 0 or is NaN. -/
def cholRow (a : Nat → Nat → Nat) (lam i : Nat) (rows : List (List Nat)) : Option (List Nat) :=
  let sum (j : Nat) (row lj : List Nat) (x : Nat) : Nat :=
    (List.range j).foldl (fun x k => fp64.sub x (fp64.mul (row.getD k 0) (lj.getD k 0))) x
  let row := (List.range i).foldl (fun row j =>
    let lj := rows.getD j []
    row ++ [fp64.div (sum j row lj (a i j)) (lj.getD j 0)]) []
  let p := sum i row row (fp64.add (a i i) lam)
  if f64Pos p then some (row ++ [fp64.sqrt p]) else none

/-- The Cholesky factor of A + λI of order n, when an attempt completes. DESIGN CHOICE: log entry 53. -/
def cholesky (a : Nat → Nat → Nat) (lam : Nat) : Nat → Option (List (List Nat))
  | 0 => some []
  | i + 1 => (cholesky a lam i).bind fun rows => (cholRow a lam i rows).map fun r => rows ++ [r]

/-- The attempts λ, 10λ, 100λ and 1,000λ. -/
def dampings (lam : Nat) : List Nat :=
  let ten := fp64.mul 0x4024000000000000
  [lam, ten lam, ten (ten lam), ten (ten (ten lam))]

/-- The attempt that completes, or 4 (R326). DESIGN CHOICE: log entry 53. -/
def dampAttempt (d : Damped) : Nat :=
  ((dampings d.lam.toNat).findIdx? fun l => (cholesky (fun i j => (d.a.getD (i * d.n + j) 0).toNat) l d.n).isSome).getD 4

/-- What a library rule brings: one that inverts a matrix returns and retries as its attempts fall out (R326). DESIGN CHOICE: log entry 53. -/
def settledRun (r : RuleRun) : RuleRun :=
  match r.damped with
  | none => r
  | some d => { r with ret := if dampAttempt d = 4 then 1 else 0, retries := Nat.min 3 (dampAttempt d) }

end Sys2Proof.Machine
end

