-- ==== Sys2Proof/Machine/HartRun.lean ====
section
/-! DEFINITION. The call of a rule on a hart (R310, R314): the entry by the monitor, the run in user mode, and the return or trap. -/

namespace Sys2Proof.Machine

def hartOf (s : State) (k : Nat) : Hart := tget Hart.init s.qnc.harts k

/-- The return address that a rule is given: even, as every RISC-V address of an instruction is, and outside rule memory, which holds texts
alone (bit 28 is 1 throughout it). DESIGN CHOICE: log entry 98. -/
def returnAt : W64 := Config.ruleReturn &&& ~~~0x10000001

/-- One instruction, fetched from rule memory (R311), of 16 or 32 bits. DESIGN CHOICE: log entry 98. -/
def hartFetch : HM Unit := do
  let h ← hartGet
  let a := h.pc.toNat
  let half (a : Nat) : HM Nat := fun r =>
    match hplace r.s a 2 with
    | .rule o => .ok (leNat [ruleByte r.s o, ruleByte r.s (o + 1)]) r
    | _ => .error (.trap 1 a) r
  let lo ← half a
  if lo % 4 = 3 then
    let hi ← half (a + 2)
    let w := lo + hi * 2 ^ 16
    let done ← scalarOp w 4
    if done then pure () else vectorOp w
  else
    match expandC lo with
    | some w => do
      let _ ← scalarOp w 2
    | none => illegal

/-- One instruction; the return address ends the rule. DESIGN CHOICE: log entry 98. -/
def hartStep : HM Unit := fun r => if r.h.pc = returnAt then .error .ret r else hartFetch r

/-- At most n instructions; none when the rule has not ended. A trap leaves the program counter at the instruction. -/
def hartRun : Nat → HRun → HRun × Option HEnd
  | 0, r => (r, none)
  | n + 1, r =>
    match hartStep r with
    | .ok _ t => hartRun n t
    | .error e t => ({ t with h := { t.h with pc := r.h.pc } }, some e)

/-- The entry of a rule (R310, R314): arguments, stack pointer at the top of scratch, return address, frm nearest even, user mode; the
descriptor and the capture record stand in scratch. DESIGN CHOICE: log entry 98. -/
def hartEnter (h : Hart) (pc first count step : Nat) (d : List Byte) : Hart :=
  let args : List (Nat × Nat) := [(2, scratchBase + 0x40000), (10, scratchBase + Config.descriptorAt), (11, first), (12, count),
    (13, scratchBase + Config.captureAt), (14, step)]
  let x := args.foldl (fun x e => tset 0 x e.1 (BitVec.ofNat 64 e.2)) (tset 0 h.x 1 returnAt)
  let put (o : Nat) (bs : List Byte) (t : Tbl Byte) : Tbl Byte := (indexed bs).foldl (fun t e => tput t (o + e.1) e.2) t
  { h with x := x, csr := tset 0 h.csr 3 (BitVec.ofNat 64 (h.cr 3 % 32)), pc := BitVec.ofNat 64 (ruleBase + pc), user := true, reserved := none
           scratch := put Config.captureAt Config.captureInit (put Config.descriptorAt d h.scratch) }

/-- The hart is back in machine mode: a trap saves its pc, cause, value and status as the privileged architecture has it; frm is nearest even
again. DESIGN CHOICE: log entry 98. -/
def hartLeave (h : Hart) (trap : Option (Nat × Nat)) : Hart :=
  let h := { h with user := false, csr := tset 0 h.csr 3 (BitVec.ofNat 64 (h.cr 3 % 32)) }
  match trap with
  | none => h
  | some t =>
    let ms := h.cr 0x300
    let ms := putBits (putBits (putBits ms 12 11 0) 7 7 (bits ms 3 3)) 3 3 0
    let csr := [(0x341, h.pc.toNat), (0x342, t.1), (0x343, t.2), (0x300, ms)].foldl (fun c e => tset 0 c e.1 (BitVec.ofNat 64 e.2)) h.csr
    { h with csr := csr, pc := BitVec.ofNat 64 (h.cr 0x305 / 4 * 4) }

/-- Class of the rule fault of a trap (R311, R314). DESIGN CHOICE: log entry 98. -/
def trapCls (cause : Nat) : Nat :=
  match cause with
  | 4 => 0x11
  | 6 => 0x11
  | 1 => 0x10
  | 5 => 0x10
  | 7 => 0x10
  | 24 => 0x14
  | c => Config.trapClass c % 256

/-- Runs of consecutive addresses among staged bytes. -/
def stagedRuns : Tbl Byte → List (Nat × List Byte)
  | [] => []
  | (a, b) :: t =>
    match stagedRuns t with
    | (c, bs) :: r => if c = a + 1 then (a, b :: bs) :: r else (a, [b]) :: (c, bs) :: r
    | [] => [(a, [b])]

/-- What a rule that has returned amounts to (R314, R315): its status, its staged writes, a prologue's bytes 64 to 127 of the descriptor's copy,
and the capture record. DESIGN CHOICE: log entry 98. -/
def hartResult (r : HRun) : RuleRun :=
  let byte (o : Nat) : Byte := r.h.scratchByte r.idx o
  let c := Config.captureFields fun i => byte (Config.captureAt + i)
  ⟨(r.h.xr 10).toNat, (stagedRuns r.staged).map fun w => (BitVec.ofNat 48 w.1, w.2),
    if r.prologue then (List.range 64).map fun i => byte (Config.descriptorAt + 64 + i) else [], c.1, c.2.1, c.2.2.1, c.2.2.2.1, c.2.2.2.2, 0, none⟩

/-- An invocation of a rule on a hart (R314): entry at a text offset with elements `first` and `count`, at most n instructions. DESIGN CHOICE: log entry 98. -/
def runRule (s : State) (k : Nat) (rule : Rule) (prologue : Bool) (first count step n : Nat) (d : List Byte) : State × RunEnd :=
  let h := hartEnter (hartOf s k) (rule.place + (if prologue then rule.proAt else rule.bodyAt)) first count step d
  let r := hartRun n ⟨s, k, h, [], prologue⟩
  let keep (trap : Option (Nat × Nat)) : State :=
    { r.1.s with qnc := { r.1.s.qnc with harts := tput r.1.s.qnc.harts k (hartLeave r.1.h trap) } }
  match r.2 with
  | none => (s, .running)
  | some .ret => (keep none, .ret (hartResult r.1))
  | some (.trap c v) => (keep (some (c, v)), .fault (trapCls c) v)
  | some (.poison a) => (keep none, .poison a)

end Sys2Proof.Machine
end

