-- ==== Sys2Proof/Machine/Quince.lean ====
section
/-! DEFINITION. Quince's jobs (R316 to R329): their start at a commit, the invocations of their groups, faults of harts, and the
status words. -/

namespace Sys2Proof.Machine

/-! ### Rules -/

/-- RULE_LOAD (R313): a write of load to a rule slot. -/
def execRuleLoad (slot : BitVec 6) (s : State) : Host.Outcome State Fault Refusal := finish (ruleLoad s slot.toNat)

/-- The rule of a slot as a job runs it: slot 0 is the Adam rule, elementwise with a prologue (R324). -/
def ruleOfSlot (s : State) (k : Nat) : Rule :=
  let r := tget ⟨0, false, [], 0, 0, 0⟩ s.qnc.rules k
  if k = 0 then { r with kind := 0, prologue := true } else r

/-! ### The job table (R316) -/

/-- The entries of a job table of n entries as bytes. -/
def jobDefs (b : List Byte) (n : Nat) : List JobDef :=
  (List.range n).map fun i => let o := 64 * i
    ⟨leAt b o 4, leAt b (o + 4) 4, leAt b (o + 8) 2, leAt b (o + 16) 4, leAt b (o + 24) 8, leAt b (o + 32) 8⟩

/-- Entry i of a job table obeys R316. -/
def jobDefOk (s : State) (p : Plan) (b : List Byte) (i : Nat) (d : JobDef) : Bool :=
  let zero (o n : Nat) : Bool := (bytesAt b (64 * i + o) n).all (· = 0)
  d.startIdx < p.stepCount && 1 ≤ d.span && d.span ≤ p.stepCount && d.rule < 64 && (tget? s.qnc.rules d.rule).isSome &&
    1 ≤ d.count && d.count ≤ 65536 && zero 10 6 && zero 20 4 && zero 40 24 &&
    rangeOk s Place.isSlow d.groups (128 * d.count) && rangeOk s Place.isSlow d.status (32 * d.count)

/-! ### Starting (R318, R320) -/

/-- The exponent that a group's working copy takes: exp of w_entry as it stands (R320). -/
def groupExp (s : State) (d : JobDef) (g : Nat) : Int :=
  let w := leAt (jobDesc s d g) 8 2
  if w < 512 then scaleExp s (qncScale w) else 0

/-- A job at its start commit. -/
def newJob (s : State) (i : Nat) (d : JobDef) (no : Nat) : Job :=
  ⟨i, d, no, (no + d.span) % 2 ^ 32, false,
    (List.range d.count).map fun g => ⟨false, 0, [], false, false, groupExp s d g, 0, 0, 0, 0, false, 0⟩⟩

/-- JOB_START (R318): Quince begins a started job once every job that the same commit started before it in table order has
begun. -/
def execJobStart (job : Nat) (s : State) : Host.Outcome State Fault Refusal :=
  finish (match s.qnc.jobs.find? fun j => j.idx = job with
    | some j =>
      if s.qnc.jobs.all fun k => k.startNo ≠ j.startNo || j.idx ≤ k.idx || k.begun then
        { s with qnc := { s.qnc with jobs := s.qnc.jobs.map fun k => if k.idx = job then { k with begun := true } else k } }
      else s
    | none => s)

/-! ### The end of a job -/

/-- Change one group of a job. -/
def modGroup (s : State) (job group : Nat) (f : GroupRun → GroupRun) : State :=
  { s with qnc := { s.qnc with jobs := s.qnc.jobs.map fun j =>
      if j.idx = job then { j with groups := lmod j.groups group f } else j } }

/-- The plan has ended, every job has run to its end and no tower is in warm reset: the LAUNCH_PLAN completes (R321, R434). -/
def closeIfDone (s : State) : State :=
  match s.run with
  | some r =>
    match r.ending with
    | some e => if s.qnc.jobs.all jobFinished ∧ s.boot.resets.isEmpty then closeRun s e.1 e.2.2 e.2.1 else s
    | none => s
  | none => s

/-- What a group of a job that cannot complete leaves undefined (R321): its working copy and its state tensors. DEDUCED: log entry 54. -/
def forgetGroup (s : State) (d : JobDef) (g : Nat) : State :=
  let b := jobDesc s d g
  let n := leAt b 0 8
  let fmt := leAt b 12 1
  let wide (i : Nat) : Nat := if d.rule = 0 then 4 else Config.stateBytes d.rule i
  let s := if fmt = 0xFF then s else forgetRange s (leAt b 16 8 % 2 ^ 48) (workOff fmt n)
  [(24, 0), (32, 1), (40, 2)].foldl (fun s e => forgetRange s (leAt b e.1 8 % 2 ^ 48) (n * wide e.2)) s

/-- A job that cannot complete ends without effect on its unfinished groups; every location it writes is undefined (R321). DEDUCED: log entry 54. -/
def loseJob (s : State) (j : Job) : State :=
  let s := fresh ((indexed j.groups).foldl (fun s e => forgetGroup s j.d e.1) s)
  { s with qnc := { s.qnc with jobs := s.qnc.jobs.map fun k =>
      if k.idx = j.idx then { k with groups := k.groups.map fun g =>
        if g.finished then g else { g with finished := true, skipped := true } } else k } }

/-- The 32-byte status word of a group (R327). -/
def statusWord (j : Job) (r : GroupRun) (old : Nat) : List Byte :=
  let code := if r.skipped then 1 else if r.nonfin then 2 else 0
  leBytes 4 j.dueNo ++ leBytes 1 code ++ leBytes 1 (Nat.min 3 r.retries) ++ leBytes 2 0 ++
    leBytes 4 (if r.skipped then Nat.min 0xFFFFFFFF (old + 1) else old) ++ leBytes 1 (unsigned 8 r.exp) ++ leBytes 3 0 ++
    leBytes 4 r.amaxW ++ leBytes 4 r.amaxG ++ leBytes 4 r.flushes ++ leBytes 4 r.sats

/-- Every invocation of a group has returned (R326, R327). The saturations of a group that is skipped count now (R330); those of a touched
group count at the due commit (R320). DEDUCED: log entry 54. -/
def endGroup (s : State) (job group : Nat) : State :=
  match s.qnc.jobs.find? fun j => j.idx = job with
  | none => s
  | some j =>
    match j.groups[group]? with
    | none => s
    | some r =>
      let a := j.d.status + 32 * group
      let old := memRead s (a + 8) 4
      let s := memWrite old.1 a (clean (statusWord j r (leNat (pdata old.2))))
      let det := group + job * 2 ^ 32 + j.d.rule * 2 ^ 48
      let s := if r.skipped then notice (count (count s qncBase 4 1) qncBase 6 r.sats) 0x2002 0 0xFFFF 0xFF det
        else if r.nonfin then notice s 0x2003 0 0xFFFF 0xFF det
        else s
      closeIfDone (modGroup s job group fun g => { g with finished := true })

/-! ### Faults (R328, R329) -/

/-- QNC_STATUS.hart_fenced. -/
def hartFenced (s : State) (h : Nat) : Bool := fbit s qncBase (32 + h)
def allFenced (s : State) : Bool := fget s qncBase 47 32 = 0xFFFF

/-- An invocation: its job, group and chunk (none: the prologue). -/
structure InvId where
  job : Nat
  group : Nat
  chunk : Option Nat
deriving DecidableEq, Repr

/-- Failures of an invocation so far. -/
def Tries.is (t : Tries) (i : InvId) : Bool := t.job = i.job && t.group = i.group && t.chunk = i.chunk
def triesOf (s : State) (i : InvId) : Option Tries := s.qnc.tries.find? fun t => t.is i
def setTries (s : State) (i : InvId) (t : Option Tries) : State :=
  { s with qnc := { s.qnc with tries := (s.qnc.tries.filter fun t => !t.is i) ++ t.toList } }

/-- Every hart is fenced, or a job's region is lost: the plan stops, and what cannot complete ends (R321, R328). -/
def stopJobs (s : State) (lost : List Job) (status detail : Nat) : State :=
  closeIfDone (stopPlan (lost.foldl loseJob s) status detail)

/-- With every hart fenced the plan stops with STEP_FAILED (R328). -/
def stopFenced (s : State) : State := if allFenced s ∧ s.run.isSome then stopJobs s s.qnc.jobs stStepFailed 0 else s

/-- The jobs that the commit of a step index starts (R316, R318). -/
def startJobs (s : State) (stepIdx no : Nat) : State :=
  let new := (indexed s.qnc.defs).filterMap fun e => if e.2.startIdx = stepIdx then some (newJob s e.1 e.2 no) else none
  let s := { s with qnc := { s.qnc with jobs := s.qnc.jobs ++ new } }
  if new.isEmpty then s else stopFenced s

/-- An invocation runs again (R330). -/
def rerun (s : State) : State := count s qncBase 2 1

/-- An invocation fails on a hart with a rule fault of a class, or a parity error (class 0x02 without the fault) (R328). DEDUCED: log entry 54. -/
def hartFail (s : State) (i : InvId) (hart cls addr : Nat) (rule : Bool) : State :=
  let was := (triesOf s i).getD ⟨i.job, i.group, i.chunk, hart, 0, false⟩
  let n := if was.hart = hart then was.count + 1 else 1
  if n < 3 then setTries (rerun s) i (some ⟨i.job, i.group, i.chunk, hart, n, was.ruleFault⟩)
  else
    let s := notice (fset s qncBase (32 + hart) (32 + hart) 1) 0x2004 1 hart 0xFF cls
    let s := setTries s i (some ⟨i.job, i.group, i.chunk, 16, 0, was.ruleFault || rule⟩)
    if allFenced s then stopFenced s
    else if rule ∧ was.ruleFault then
      stopJobs s (s.qnc.jobs.filter fun j => j.idx = i.job) stWindow (hart + 0xF * 2 ^ 12 + addr % 2 ^ 48 * 2 ^ 16)
    else rerun s

/-- An invocation reads poison at rest (R329): it runs again after the resolution of R83, or the region is lost. -/
def hartPoison (s : State) (job addr : Nat) : State :=
  let r := resolvePoison s 4096 addr
  if r.2 then rerun r.1
  else closeIfDone ((r.1.qnc.jobs.filter fun j => j.idx = job).foldl loseJob r.1)

/-! ### Invocations (R314, R318) -/

/-- Body invocations of a group of cnt elements. -/
def chunkCount (rule : Rule) (cnt : Nat) : Nat := if rule.kind = 1 then 1 else ceilDiv cnt 4096

/-- Elements of chunk k of a group: its first, and how many: 4,096 or the rest for an elementwise rule, all for a whole one (R314). -/
def chunkSpan (rule : Rule) (cnt k : Nat) : Nat × Nat :=
  if rule.kind = 1 then (0, cnt) else (4096 * k, Nat.min 4096 (cnt - 4096 * k))

/-- Chunk k of a group has returned. -/
def GroupRun.did (g : GroupRun) (k : Nat) : Bool := k < g.next || g.ahead.contains k

/-- Chunk k returns: `next` passes over those that returned before it. DEDUCED: log entry 54. -/
def GroupRun.doneChunk (g : GroupRun) (k : Nat) : GroupRun :=
  let l := sadd g.ahead k
  let n := l.length
  let next := (List.range n).foldl (fun m _ => if l.contains m then m + 1 else m) g.next
  { g with next := next, ahead := l.filter fun x => next ≤ x }

/-- Body invocations of a group that have not returned, of those below chunk k. -/
def GroupRun.left (g : GroupRun) (k : Nat) : Nat :=
  if g.finished then 0 else k - g.next - (g.ahead.filter fun x => x < k).length

/-- Invocations of a job that have not returned and that harts take before an invocation of it (R318): the prologue of every group, then the
bodies of elementwise groups chunk by chunk, group by group. With no invocation given, all of them. -/
def jobBefore (s : State) (j : Job) (i : Option InvId) : Nat :=
  let rule := ruleOfSlot s j.d.rule
  let gs := indexed j.groups
  let chunksOf (g : Nat) : Nat := chunkCount rule (leAt (jobDesc s j.d g) 0 8)
  let pros (upTo : Nat) : Nat :=
    if rule.prologue then ((gs.take upTo).filter fun e => !e.2.prologueDone && !e.2.finished).length else 0
  let bodies (upTo : Nat) : Nat := ((gs.take upTo).map fun e => e.2.left (chunksOf e.1)).sum
  match i with
  | none => pros gs.length + bodies gs.length
  | some x =>
    match x.chunk with
    | none => pros x.group
    | some k => pros gs.length + bodies x.group + ((j.groups[x.group]?).map fun g => g.left k).getD 0

/-- Invocations that harts take before this one: those of the jobs begun before its job, and of its own (R318). DEDUCED: log entry 54. -/
def takenBefore (s : State) (j : Job) (i : InvId) : Nat :=
  ((s.qnc.jobs.takeWhile fun k => k.idx ≠ j.idx).map fun k => if k.begun then jobBefore s k none else 0).sum + jobBefore s j (some i)

/-- Harts that take invocations. -/
def freeHarts (s : State) : Nat := ((List.range 16).filter fun h => !hartFenced s h).length

/-- Add an invocation's captures to its group (R315). -/
def GroupRun.capture (g : GroupRun) (r : RuleRun) : GroupRun :=
  { g with amaxW := Nat.max g.amaxW r.amaxW.toNat, amaxG := Nat.max g.amaxG r.amaxG.toNat, flushes := g.flushes + r.flushes,
           sats := g.sats + r.sats, nonfin := g.nonfin || r.nonfin, retries := g.retries + r.retries }

/-- Class of the rule fault that a run amounts to (R311, R314), with its address: a write outside module memory or, from a
prologue, any write of module memory; more staged bytes than 128 KiB; a return value above 1. -/
def runFault (s : State) (prologue : Bool) (r : RuleRun) : Option (Nat × Nat) :=
  if 1 < r.ret then some (0x12, 0)
  else if 0x20000 < (r.writes.map fun w => w.2.length).sum then some (0x14, 0)
  else
    match r.writes.find? fun w => prologue || !rangeOk s Place.remoteOk w.1.toNat w.2.length with
    | some w => some (0x10, w.1.toNat)
    | none => none

/-- A prologue returned (R314): its new bytes 64 to 127 reach the group descriptor; on a skip the group ends untouched. DESIGN CHOICE: log entry 53. DEDUCED: log entry 54. -/
def prologueDone (s : State) (j : Job) (group : Nat) (r : RuleRun) : State :=
  let s := modGroup s j.idx group fun g => { g.capture r with prologueDone := true }
  if r.ret = 1 then endGroup (modGroup s j.idx group fun g => { g with skipped := true }) j.idx group
  else if r.area.isEmpty then s
  else memWrite s (j.d.groups + 128 * group + 64) (clean (bytesAt r.area 0 64))

/-- A body invocation of a chunk returned: on 0 its staged writes are released whole. DESIGN CHOICE: log entry 53. -/
def bodyDone (s : State) (j : Job) (group chunk : Nat) (r : RuleRun) : State :=
  let n := chunkCount (ruleOfSlot s j.d.rule) (leAt (jobDesc s j.d group) 0 8)
  let s := if r.ret = 1 then s else r.writes.foldl (fun s w => memWrite s w.1.toNat (clean w.2)) s
  let s := modGroup s j.idx group fun g => { (g.capture r).doneChunk chunk with skipped := g.skipped || r.ret = 1 }
  let next := ((s.qnc.jobs.find? fun k => k.idx = j.idx).bind fun k => (k.groups[group]?).map (·.next)).getD 0
  if n ≤ next then endGroup s j.idx group else s

/-- What an invocation that fails leaves counted: its damping retries, and the saturations of its conversions (R330). DEDUCED: log entry 54. -/
def failCounts (s : State) (run : RuleRun) : State := count (count s qncBase 5 run.retries) qncBase 6 run.sats

/-- An invocation that ran to its return, or met a rule fault on the way. -/
def runDone (s : State) (j : Job) (i : InvId) (hart : Nat) (r : RuleRun) : State :=
  match runFault s i.chunk.isNone r with
  | some f => hartFail (failCounts s r) i hart f.1 f.2 true
  | none =>
    let s := setTries (count (count s qncBase 5 r.retries) qncBase 1 1) i none
    match i.chunk with
    | none => prologueDone s j i.group r
    | some k => bodyDone s j i.group k r

/-- How an invocation of a job's rule ends on a hart: slot 0 is computed (R324), a rule of slots 1 to 15, whose text the spec does not give,
brings its result with the command, and the text of slots 16 to 63 runs, at most `steps` instructions (R312, R314). -/
def ruleEnd (s : State) (j : Job) (i : InvId) (hart steps : Nat) (d : List Byte) (g : GroupRun) (err : InvErr) (run : RuleRun) : State × RunEnd :=
  if j.d.rule = 0 then
    match i.chunk with
    | none => (s, .ret ⟨0, [], adamPrologue d, 0, 0, 0, 0, false, 0, none⟩)
    | some k =>
      let c := chunkSpan (ruleOfSlot s 0) (leAt d 0 8) k
      adamBody s d g.exp c.1 c.2
  else if 16 ≤ j.d.rule then
    let rule := ruleOfSlot s j.d.rule
    let c := i.chunk.elim (0, 0) fun k => chunkSpan rule (leAt d 0 8) k
    runRule s hart rule i.chunk.isNone c.1 c.2 j.startNo steps d
  else
    match err with
    | .poison a => (s, .poison a.toNat)
    | .rule cls a => (s, .fault cls.toNat a.toNat)
    | _ => (s, .ret (settledRun run))

/-- An invocation on a hart: its descriptor is copied (R314) and it runs to its end. DESIGN CHOICE: log entry 53. -/
def invoke (s : State) (j : Job) (i : InvId) (hart steps : Nat) (g : GroupRun) (err : InvErr) (run : RuleRun) : State :=
  let a := j.d.groups + 128 * i.group
  let d := memRead s a 128
  match d.2.findIdx? (·.2) with
  | some o => hartPoison d.1 j.idx (a + o)
  | none =>
    let r := ruleEnd d.1 j i hart steps (pdata d.2) g err run
    let left (s : State) : State := if j.d.rule < 16 then failCounts s run else s
    match r.2 with
    | .ret x => runDone r.1 j i hart x
    | .fault c a => hartFail (left r.1) i hart c a true
    | .poison a => hartPoison (left r.1) j.idx a
    | .running => s

/-- The invocation is to run next on a hart (R318, R328): its job has begun, it has not returned, its group's prologue has, fewer invocations
are taken before it than there are harts, and the hart is neither fenced nor another than the one that tries it. DEDUCED: log entry 54. -/
def invocable (s : State) (j : Job) (g : GroupRun) (i : InvId) (hart : Nat) : Bool :=
  let rule := ruleOfSlot s j.d.rule
  let held : Bool := ((triesOf s i).map fun t => t.count ≠ 0 && t.hart ≠ hart).getD false
  let due : Bool := match i.chunk with
    | none => !g.prologueDone
    | some k => !g.did k && k < chunkCount rule (leAt (jobDesc s j.d i.group) 0 8)
  j.begun && !g.finished && due && !hartFenced s hart && !held && takenBefore s j i < freeHarts s

/-- One invocation, or its failure (R328, R329). -/
def invocation (s : State) (job group chunk hart steps : Nat) (err : InvErr) (run : RuleRun) : State :=
  match s.qnc.jobs.find? fun j => j.idx = job with
  | none => s
  | some j =>
    match j.groups[group]? with
    | none => s
    | some g =>
      let pro : Bool := (ruleOfSlot s j.d.rule).prologue && !g.prologueDone
      let i : InvId := ⟨job, group, if pro then none else some chunk⟩
      if !invocable s j g i hart then s
      else
        match err with
        | .parity w =>
          if parityOk w then invoke s j i hart steps g err run else hartFail (failCounts s run) i hart 2 0 false
        | _ => invoke s j i hart steps g err run

/-- INVOCATION (R314, R318): a hart runs the prologue of a group of a job, while that has not returned, or else a chunk of its body. DESIGN CHOICE: log entry 53. -/
def execInvocation (job group chunk : Nat) (hart : BitVec 4) (steps : Nat) (err : InvErr) (run : RuleRun) (s : State) :
    Host.Outcome State Fault Refusal :=
  finish (invocation s job group chunk hart.toNat steps err run)

end Sys2Proof.Machine
end

