-- ==== Sys2Proof/Machine/Integrity.lean ====
section
/-! DEFINITION. Hiding failures: partition rebuilds (R155 to R159), core diagnosis (R430), hop retry (R415), dead routers (R431,
R432), warm reset of a core die (R433 to R437), state probes and quarantine (R438, R439). -/

namespace Sys2Proof.Machine

/-! ### Arrays and cores -/

/-- A physical column of an array is bad (R159, R162). -/
def markColumn (s : State) (pk n column : Nat) : State :=
  let b := arrBlk pk n
  let w := (regGet s (b + 0x10)).toNat + bits (regGet s (b + 0x18)).toNat 1 0 * 2 ^ 64 + b2n (rowFault s pk n) * 2 ^ 127
  writeBadCols s pk n (w ||| 2 ^ column)

/-- Logical column of a physical column in an array's repair map (R133). -/
def Arr.logical (a : Arr) (column : Nat) : Option Nat := a.cols.findIdx? (· = column)

/-- A physical column lies in partition p: a working column whose logical column the partition holds (R133, R146). A site without a column
lies in the partition by itself. -/
def Arr.siteIn (a : Arr) (p : Nat) (column : Option (BitVec 7)) : Bool :=
  let g := partGeom a.mode p
  p < partCount a.mode &&
  column.all fun c => (a.logical c.toNat).any fun j => g.2.2.1 ≤ j && j < g.2.2.1 + g.2.2.2

/-- The MST at fault has stored the first r rows of its list (R154, R155): it stands as k-th of the commands under way in partition p. The
Bool says that it has issued a line under mode 1. -/
def mstPart (s : State) (pk lc n p : Nat) (m : Option (Nat × Nat)) : State × Bool :=
  let a := (coreOf s pk).arrN n
  match m.bind fun m => (a.run[m.1]?).map fun q => (q, m.2) with
  | none => (s, false)
  | some (q, r) =>
    if q.op ≠ .mst ∨ q.ins.part ≠ p then (s, false)
    else
      let rows := (q.rows.takeWhile fun x => !x.poison).take r
      let cols := (partGeom a.mode p).2.2.2
      ((mstRows pk lc (sloe s) q cols rows s (Cap.init, 0)).1, q.ins.mode = 1 && !rows.isEmpty)

/-- A check error of an array (R152, R155, R157, R159). It counts; on a pulp vector it does nothing more. Outside the partitions, with a full
log, behind a line that an MST has issued, in a partition that is rebuilding, or again in the same column, it is uncontained; otherwise
its partition is rebuilt. A column marked bad that narrows the array costs the core its position (R162). DEDUCED: log entry 38. DESIGN CHOICE: log entry 56. DESIGN CHOICE: log entry 92. -/
def checkError (s : State) (pk lc n : Nat) (e : CheckErr) (h : HostFeed) : State :=
  let s := count s (arrBlk pk n) 5 1
  let a := (coreOf s pk).arrN n
  match e.site with
  | .pulp => s
  | .shared => uncontained s pk lc n none
  | .part p column =>
    let p := p.toNat
    let m := mstPart s pk lc n p e.mst
    let s := m.1
    if e.again then
      match column with
      | some c =>
        let was := repairState s pk n
        repairActs (uncontained (markColumn s pk n c.toNat) pk lc n (some p)) pk n was
      | none => uncontained s pk lc n (some p)
    else if a.logFull || m.2 || e.rebuilding then uncontained s pk lc n (some p)
    else rebuildPart s pk n p h

/-- The site of a check error exists in the array. -/
def siteOk (a : Arr) : CheckSite → Bool
  | .part p column => a.siteIn p.toNat column
  | _ => true

/-- PARTITION_REBUILD (R157): an array's own check finds an error. DEDUCED: log entry 38. -/
def execPartitionRebuild (core : BitVec 12) (arr : BitVec 1) (err : CheckErr) (host : HostFeed) (s : State) :
    Host.Outcome State Fault Refusal :=
  finish (coreEvent s core.toNat fun s pk =>
    if siteOk ((coreOf s pk).arrN arr.toNat) err.site then checkError s pk core.toNat arr.toNat err host else s)

/-- What diagnosis finds of a fenced core (R430): its arrays' bad columns, and whether it may be a spare again. DEDUCED: log entry 47. -/
def diagnose (s : State) (pk : Nat) (pass : Bool) (bad0 bad1 : Nat) : State :=
  if coreState s pk ≠ csFenced then s
  else
    let was0 := repairState s pk 0
    let was1 := repairState s pk 1
    let s := endGang (writeBadCols (writeBadCols s pk 0 bad0) pk 1 bad1) pk
    let s := narrowNotice (narrowNotice s was0 (repairState s pk 0)) was1 (repairState s pk 1)
    let good : Bool := pass && !armsBad s pk && !(coreOf s pk).fencedBefore && !s.stone.dead.contains pk
    let s := modCore s pk fun c => { c with fencedBefore := true }
    let s := if good then setCoreState s pk csSpare else recordRetired (setCoreState s pk csRetired) 0 pk
    notice s 0x1019 1 (pk % 272) (pk / 272) (b2n good)

/-- CORE_DIAGNOSIS (R430): Pith's tests of a fenced core end; `pass` covers the scalar, vector, L1 and instruction-memory tests,
the words are the bad columns and the row fault that the ganged self-test found. DEDUCED: log entry 39. -/
def execCoreDiagnosis (tower : BitVec 4) (core : BitVec 9) (pass : Bool) (bad0 bad1 : BitVec 128) (s : State) :
    Host.Outcome State Fault Refusal :=
  shaped (core.toNat < 272) "CORE_DIAGNOSIS" (diagnose s (tower.toNat * 272 + core.toNat) pass bad0.toNat bad1.toNat)

/-! ### Routers (R415, R431, R432) -/

/-- Row and column of a router on its tower. -/
def routerRow (u : Nat) : Nat := u % 272 / 17
def routerCol (u : Nat) : Nat := u % 272 % 17

def netOf (s : State) (u : Nat) : Net := tget Net.init s.stone.nets u
def modNet (s : State) (u : Nat) (f : Net → Net) : State :=
  { s with stone := { s.stone with nets := tmod Net.init s.stone.nets u f } }

/-- Buffer class of the route from router a to router b of a tower: 0 row first (R19), 1 column first, as the turn-order table of a has it
(R431). DEDUCED: log entry 50. -/
def routeClass (s : State) (a b : Nat) : Nat := b2n ((netOf s a).columnFirst.contains (b % 272))

/-- The router where the route from a to b turns: the router of a's row and b's column, or of a's column and b's row when it travels column
first. DEDUCED: log entry 50. -/
def turnsAt (s : State) (a b : Nat) : Nat :=
  a / 272 * 272 + (if routeClass s a b = 0 then 17 * routerRow a + routerCol b else 17 * routerRow b + routerCol a)

/-- The routes whose row-first turning point is router u travel column first (R431): from every other router of its row to every other
router of its column. DEDUCED: log entry 50. -/
def turnAround (s : State) (u : Nat) : State :=
  let dsts := ((List.range 16).filter (· ≠ routerRow u)).map fun r => 17 * r + routerCol u
  ((List.range 17).filter (· ≠ routerCol u)).foldl (fun s c =>
    modNet s (u / 272 * 272 + 17 * routerRow u + c) fun n => { n with columnFirst := n.columnFirst ++ dsts.filter fun d => !n.columnFirst.contains d }) s

/-- Failures of the flit at the head of the hop buffer of class k that feeds a hop of a router. -/
def Net.fails (n : Net) (hop k : Nat) : Nat := ((n.failed.find? fun f => f.1 = hop ∧ f.2.1 = k).map fun f => f.2.2).getD 0

/-- Set it; 0 when the flit has passed. -/
def Net.setFails (n : Net) (hop k v : Nat) : Net :=
  let rest := n.failed.filter fun f => f.1 ≠ hop ∨ f.2.1 ≠ k
  { n with failed := if v = 0 then rest else rest ++ [(hop, k, v)] }

/-- A flit of the route from a to b arrives on a hop of router u as these nine-bit bytes (R415). The latches of a bypassed router check
nothing (R431). DEDUCED: log entry 50. -/
def hopArrives (s : State) (u hop a b : Nat) (flit : List (BitVec 9)) : State :=
  let n := netOf s u
  let k := routeClass s a b
  if n.bypass then s
  else if flit.all parityOk then modNet s u fun n => n.setFails hop k 0
  else if n.fails hop k < 3 then count (modNet s u fun n => n.setFails hop k (n.fails hop k + 1)) (nocBase (u / 272)) 1 1
  else emit s (.probe 2 u)

/-- HOP_RETRY (R415, R412): a flit arrives on a hop of a router as these nine-bit bytes. If a byte fails its parity check the flit is resent
from the sender's hop buffer, up to three times; the fourth failure makes Pith test both routers of the hop by loopback, and ROUTER_DEAD
brings the result. DEDUCED: log entry 50. -/
def execHopRetry (tower : BitVec 4) (router : BitVec 9) (hop : BitVec 3) (src dst : BitVec 9) (flit : List (BitVec 9)) (s : State) :
    Host.Outcome State Fault Refusal :=
  let t := tower.toNat * 272
  shaped (router.toNat < 272 ∧ src.toNat < 272 ∧ dst.toNat < 272 ∧ hop.toNat < 6) "HOP_RETRY"
    (hopArrives s (t + router.toNat) hop.toNat (t + src.toNat) (t + dst.toNat) flit)

def deadAt (s : State) (t row col : Nat) : Bool := s.stone.dead.contains (t * 272 + 17 * row + col)

/-- Another dead router of the tower in a different row and a different column. DEDUCED: log entry 47. -/
def crossDead (s : State) (u : Nat) : Bool :=
  s.stone.dead.any fun d => d / 272 = u / 272 && routerRow d ≠ routerRow u && d % 272 % 17 ≠ u % 272 % 17

/-- The column beside a dead router leaves service (R432): a mapped one migrates, a spare one is retired. DEDUCED: log entry 50. -/
def leaveColumn (s : State) (ch : Nat) : State :=
  if colState s ch = 1 ∨ colState s ch = 4 then migrate s ch
  else if colState s ch = 0 then recordRetired (setColState s ch 3) 1 ch
  else s

/-- A router is declared dead (R432). DEDUCED: log entry 50. -/
def routerDead (s : State) (u : Nat) (atBringUp : Bool) : State :=
  if s.stone.dead.contains u then s
  else
    let s := stopPlan s stStepFailed 0
    let cross := crossDead s u
    let s := { s with stone := { s.stone with dead := sadd s.stone.dead u } }
    let s := turnAround (modNet s u fun n => { n with bypass := true, failed := [] }) u
    let s := if coreState s u = csActive ∨ coreState s u = csSpare then fenceAndSpare s u else s
    let s := leaveColumn s u
    let r := u / 272 * 16 + routerRow u
    let s := if cross then regionsOff s [r] else s
    notice s 0x0801 1 (u % 272) (u / 272) (b2n atBringUp + 2 * b2n (regionState s r = 3))

/-- ROUTER_DEAD (R432). DEDUCED: log entry 50. -/
def execRouterDead (tower : BitVec 4) (router : BitVec 9) (atBringUp : Bool) (s : State) : Host.Outcome State Fault Refusal :=
  shaped (router.toNat < 272) "ROUTER_DEAD" (routerDead s (tower.toNat * 272 + router.toNat) atBringUp)

/-! ### Warm reset (R433 to R437) -/

/-- The Idger ports of a tower go down (R434). DEDUCED: log entry 49. -/
def downPorts (s : State) (t : Nat) : State :=
  let s := (List.range 4).foldl (fun s k =>
    let l := 4 * t + k
    let s := if portState s l = 0 then s else setPortState s l 1
    { s with fab := { s.fab with ports := tdel s.fab.ports l, toSwitch := sdel s.fab.toSwitch l } }) s
  fabShow s

/-- The hold edge meets the last WR of a channel (R435). Its data beat comes 4 MCLK after it (R239). One that the memory die has not sampled
leaves all 128 bytes as poison at rest; the salvage writes the bytes that the slice kept again (R436). DEDUCED: log entry 49. -/
def settleBeat (s : State) (ch : Nat) (b : Beat) : State :=
  if b.time + 4 ≤ s.now then s
  else
    let sampled := Config.freeChoice s.free 2 % 2 = 1
    let s := fresh s
    if sampled then s
    else
      count ((List.range 128).foldl (fun s i => if b.keep.getLsbD i then s else memPut s (b.line * 128 + i) 0 poisonSyn) s) (chBase ch) 11 128

/-- Every channel of tower t settles its writes at the hold edge (R434 step 3, R435). -/
def settleBeats (s : State) (t : Nat) : State :=
  (s.llc.beats.filter fun e => e.1 / 272 = t).foldl (fun s e => settleBeat s e.1 e.2) s

/-- A warm reset of tower t begins (R434 steps 1 to 3). DEDUCED: log entry 49. -/
def warmReset (s : State) (t cause : Nat) : State :=
  if inReset s t then s
  else
    let dur := Config.freeChoice s.free 250001 % 250001
    let s := fresh s
    let s := { s with boot := { s.boot with resets := s.boot.resets ++ [(t, cause, s.now, dur)] } }
    let s := settleBeats (downPorts (stopPlan s stStepFailed 0) t) t
    fset s (stnBase + 0x3000) (16 + t) (16 + t) 1

/-- Every field of a granule keeps its value through a warm reset (R437). DEDUCED: log entry 49. -/
def warmKeeps (k : BK) (r : Nat) : Bool :=
  (k ≠ .stn && 0x200 ≤ r && r < 0x200 + 8 * cntCount k) || (0x700 ≤ r && r < 0x780) || (hasCeLog k && 0x400 ≤ r && r < 0x488) ||
  (match k with
    | .core => r = 0x100 || r = 0x108 || 0x1000 ≤ r
    | .arr => r = 0x10 || r = 0x18
    | .cl => 0x10 ≤ r && r < 0x50
    | .pwt => 0x100 ≤ r && r < 0x180
    | _ => false)

/-- A field keeps its value through a warm reset (R437): W1C status, suspect bits, pool_units, and the states that Stone reloads
from its record (R434 step 5): repair state and width, self-refresh and retirement of a channel. Port states stay as R434 step 2
leaves them. DEDUCED: log entry 49. -/
def warmField (k : BK) (r : Nat) (f : Fld) : Bool :=
  (f.acc = .w1c && k ≠ .brz)  ||
  (match k with
    | .thm => 0x1000 ≤ r && f.lo = 48
    | .pth => f.hi = 3
    | .vch => r = 0 && (f.lo = 11 || f.lo = 9)
    | .arr => r = 0 && (f.lo = 24 || f.lo = 20)
    | .idg => r = 0 && f.hi = 2
    | .brz => r = 0 && f.hi = 63
    | _ => false)

/-- The value a granule of a tower takes (R437). -/
def warmValue (b : Blk) (o : Nat) (w : W64) : W64 :=
  let r := o - b.base
  if warmKeeps b.kind r then
    (if b.kind = .pwt ∧ 0x100 ≤ r ∧ getField w 25 24 ≠ 3 then setField w 25 24 0 else w)
  else
    ((flds b.kind b.idx r).filter (warmField b.kind r)).foldl (fun v f => setField v f.hi f.lo (getField w f.hi f.lo)) (regReset o)

/-- The registers of tower t after the reset, and the latches of R48. -/
def warmRegs (s : State) (t : Nat) : State :=
  let mine := (s.ctl.regs.map (·.1)).filter fun o => o / 0x4000000 = t
  let s := mine.foldl (fun s o =>
    match blkOf o with
    | some b => regPut s o (warmValue b o (regGet s o))
    | none => s) s
  let out (e : Nat) : Bool := e % 2 ^ 32 / 0x4000000 ≠ t
  { s with ctl := { s.ctl with rlatch := s.ctl.rlatch.filter fun e => out e.1, whold := s.ctl.whold.filter fun e => out e.1 } }

/-- Salvage the slices of tower t (R436): dirty bytes reach the columns; pins, directory and reduction queue are gone. -/
def salvage (s : State) (t : Nat) : State :=
  let mine := (s.llc.lines.map (·.1)).filter fun k => keyTower (k * 128) = t
  let s := mine.foldl writeBack s
  { s with llc := { lines := s.llc.lines.filter fun e => keyTower (e.1 * 128) ≠ t
                    redQ := s.llc.redQ.filter fun c => keyTower (c.key * 128) ≠ t
                    redPoison := s.llc.redPoison.filter fun c => c / 272 ≠ t
                    pins := s.llc.pins.filter fun k => keyTower (k * 128) ≠ t
                    merge := s.llc.merge.filter fun e => (e.1 * 128 - 0x20000000000) / 0x100000000 ≠ t
                    miss := s.llc.miss.filter fun m => keyTower (m.line * 128) ≠ t
                    plru := s.llc.plru.filter fun e => e.1 / 512 / 272 ≠ t
                    beats := s.llc.beats.filter fun e => e.1 / 272 ≠ t } }

/-- The cores of tower t start anew: L1s, arrays and registers hold nothing. -/
def warmCores (s : State) (t : Nat) : State :=
  let s := fresh s
  let s := { s with stone := { s.stone with nets := s.stone.nets.map fun (e : Nat × Net) =>
    if e.1 / 272 = t then (e.1, { e.2 with failed := [] }) else e } }
  let ks := (s.cores.map (·.1)).filter fun k => k / 272 = t
  ks.foldl (fun s k => setCore s k { Core.init with fencedBefore := (coreOf s k).fencedBefore, vstamp := s.free }) s

/-- The tower returns to service (R434 steps 5 and 6). DEDUCED: log entry 49. -/
def warmDone (s : State) (e : Nat × Nat × Nat × Nat) : State :=
  let t := e.1
  let beyond := fbit s (brzBase t) 32
  let s := warmRegs (warmCores (salvage s t) t) t
  let s := if beyond then notice s 0x0902 1 0 t (fget s (brzBase t) 31 0) else s
  let s := { s with boot := { s.boot with resets := s.boot.resets.filter fun x => x.1 ≠ t }
                    pwr := { s.pwr with wakeLimit := s.pwr.wakeLimit.filter fun x => x.1 / 16 ≠ t
                                        staging := s.pwr.staging.filter fun x => x.region / 16 ≠ t } }
  let s := fabShow (fset s (stnBase + 0x3000) (16 + t) (16 + t) 0)
  closeIfDone (notice s 0x1018 0 0xFFFF t (e.2.1 + e.2.2.2 * 2 ^ 32))

/-- Towers whose warm reset has lasted its time return to service. DEDUCED: log entry 49. -/
def warmTick (s : State) : State := (s.boot.resets.filter fun e => e.2.2.1 + 1000 * e.2.2.2 ≤ s.now).foldl warmDone s

/-- HEARTBEAT_TIMEOUT (R433): Pith has not answered Stone's heartbeat for 10 ms. -/
def execHeartbeatTimeout (tower : BitVec 4) (s : State) : Host.Outcome State Fault Refusal := finish (warmReset s tower.toNat 1)
/-- PLL_LOSS_OF_LOCK (R433). -/
def execPllLossOfLock (tower : BitVec 4) (s : State) : Host.Outcome State Fault Refusal := finish (warmReset s tower.toNat 2)
/-- PITH_UNCORRECTABLE_ERROR (R433). -/
def execPithUncorrectableError (tower : BitVec 4) (s : State) : Host.Outcome State Fault Refusal :=
  finish (warmReset s tower.toNat 3)

/-! ### State probes (R438, R439) -/

/-- Attempts made on a unit under quarantine; none when it is not. -/
def quarTries (s : State) (kind u : Nat) : Option Nat :=
  (s.stone.quarantine.find? fun q => q.1 = kind ∧ q.2.1 = u).map fun q => q.2.2
def setQuar (s : State) (kind u : Nat) (n : Option Nat) : State :=
  let rest := s.stone.quarantine.filter fun q => q.1 ≠ kind ∨ q.2.1 ≠ u
  { s with stone := { s.stone with quarantine := rest ++ (n.map fun n => (kind, u, n)).toList } }

/-- A core under quarantine loses its logical position to the cluster's spare (R438 item 2); with none free the plan stops and the
region, which no core can serve, is powered off (R427). -/
def takeOver (s : State) (pk : Nat) : State :=
  match logicalCore s pk with
  | none => s
  | some lc =>
    match spareCore s pk with
    | some u => setCoreState (installSpare s lc pk u) pk csQuar
    | none => regionsOff (stopPlan s stStepFailed 0) [lc / 16]

/-- At a step boundary the quarantined cores' positions are taken over and quarantined columns migrate (R438). -/
def commitQuarantine (s : State) : State :=
  s.stone.quarantine.foldl (fun s q =>
    if q.1 = 0 then takeOver s q.2.1
    else if q.1 = 1 ∧ (logicalCol s q.2.1).isSome then migrate (setQuar s 1 q.2.1 none) q.2.1
    else s) s

/-- Quarantine a core (R438): without a running plan its position is taken over at once. DEDUCED: log entry 48. -/
def quarCore (s : State) (pk : Nat) : State :=
  let s := if coreState s pk = csRetired then s else setQuar (setCoreState s pk csQuar) 0 pk (some 0)
  if noPlan s then takeOver s pk else s

/-- Quarantine a column (R438). DEDUCED: log entry 48. -/
def quarCol (s : State) (ch : Nat) : State :=
  if colState s ch = 3 then s else setQuar (setColState s ch 4) 1 ch (some 0)

/-- The quarantine notice (R440). DEDUCED: log entry 48. -/
def quarNotice (s : State) (kind t u st inBand : Nat) : State :=
  notice s 0x1017 1 u (if kind = 5 then 0xFF else t) (kind + (if kind = 5 then 0 else t) * 2 ^ 4 + st % 256 * 2 ^ 8 + inBand * 2 ^ 16)

/-- A probe of a core under quarantine that holds no position (R438 items 4 and 5). DEDUCED: log entry 48. -/
def reprobeCore (s : State) (pk tries : Nat) (agree : Bool) : State :=
  if (logicalCore s pk).isSome then s
  else if agree then setCoreState (setQuar s 0 pk none) pk csSpare
  else if tries < 2 then setQuar s 0 pk (some (tries + 1))
  else recordRetired (setCoreState (setQuar s 0 pk none) pk csRetired) 0 pk

/-- A probe of a column under quarantine. DEDUCED: log entry 48. -/
def reprobeCol (s : State) (ch tries : Nat) (agree : Bool) : State :=
  if agree then setColState (setQuar s 1 ch none) ch (if (logicalCol s ch).isSome then 1 else 0)
  else if tries < 2 then setQuar s 1 ch (some (tries + 1))
  else if (logicalCol s ch).isSome then migrate (setQuar s 1 ch none) ch
  else recordRetired (setColState (setQuar s 1 ch none) ch 3) 1 ch

/-- Position of a mapped unit in its cluster, and the generation of the maps it should report. -/
def unitGen (s : State) (u : Nat) : Nat := fget s (clBase (u / 272) (u % 272 / 17) + 0x30) 31 0

/-- An answer that agrees with a record of a mapped unit: position, generation and state. -/
def answerOk (s : State) (u : Nat) (pos : Option Nat) (st : Nat) (a : Identity) : Bool :=
  a.answered && pos.all (fun l => a.position = l % 16) && a.gen.toNat = unitGen s u && a.state.toNat = st

/-- Probe of a core (R438). An ACTIVE core that does not answer is fenced (R81). -/
def probeCore (s : State) (kind idx pk : Nat) (a : Identity) : State :=
  let st := coreState s pk
  let pos := logicalCore s pk
  match quarTries s 0 pk with
  | some n => reprobeCore s pk n (answerOk s pk none csSpare a)
  | none =>
    if st = csActive then
      if !a.answered then fenceAndSpare s pk
      else if answerOk s pk pos st a then s
      else quarNotice (quarCore s pk) kind (pk / 272) idx st a.state.toNat
    else if a.answered ∧ a.state.toNat = csActive then
      quarNotice (quarCore (refuseInjections s pk) pk) kind (pk / 272) idx st a.state.toNat
    else s

/-- Probe of a column, its channel or its slice. -/
def probeCol (s : State) (kind idx ch : Nat) (a : Identity) : State :=
  let st := colState s ch
  let pos := logicalCol s ch
  match quarTries s 1 ch with
  | some n => reprobeCol s ch n (answerOk s ch pos (if pos.isSome then 1 else 0) a)
  | none =>
    if (if st = 1 then answerOk s ch pos st a else !(a.answered && a.state.toNat = 1)) then s
    else quarNotice (quarCol s ch) kind (ch / 272) idx st a.state.toNat

/-- Probe of an Idger port: a port that Stone has UP and that does not work in band sends no valid flit, and its link fails with that cause (R336, R358). DEDUCED: log entry 48. -/
def probePort (s : State) (l : Nat) (a : Identity) : State :=
  let st := portState s l
  if a.answered ∧ a.state.toNat = st then s
  else quarNotice (failLink s l 3) 4 (l / 4) l st a.state.toNat

/-- Probe of a Quince hart: fenced while it disagrees. The state is its bit of QNC_STATUS.hart_fenced. -/
def probeHart (s : State) (h : Nat) (a : Identity) : State :=
  let st := b2n (hartFenced s h)
  let fence (s : State) (v : Nat) : State := fset s qncBase (32 + h) (32 + h) v
  match quarTries s 5 h with
  | some n =>
    if a.answered ∧ a.state.toNat = 0 then fence (setQuar s 5 h none) 0
    else setQuar s 5 h (if n < 2 then some (n + 1) else none)
  | none =>
    if a.answered ∧ a.state.toNat = st then s
    else if st = 1 then quarNotice s 5 0xFF h st a.state.toNat
    else stopFenced (quarNotice (setQuar (fence s 1) 5 h (some 0)) 5 0xFF h st a.state.toNat)

/-- Probe of a region: AWAKE in the record and PARKED or OFF in band is treated as OFF (R438). -/
def probeRegion (s : State) (r : Nat) (a : Identity) : State :=
  let st := regionState s r
  if a.answered ∧ a.state.toNat = st then s
  else
    let s := quarNotice s 6 (r / 16) (r % 16) st a.state.toNat
    if st = 0 ∧ (!a.answered ∨ a.state.toNat = 2 ∨ a.state.toNat = 3) then regionsOff s [r] else s

/-- Number of units of a kind per tower. -/
def unitCount (kind : Nat) : Nat :=
  match kind with
  | 0 => 272
  | 1 => 272
  | 2 => 272
  | 3 => 544
  | 4 => 4
  | 5 => 16
  | 6 => 16
  | _ => 0

/-- A probe of a unit. DEDUCED: log entry 48. -/
def probe (s : State) (kind t i : Nat) (a : Identity) : State :=
  match kind with
  | 0 => probeCore s 0 i (t * 272 + i) a
  | 1 => probeCol s 1 i (t * 272 + i) a
  | 2 => probeCol s 2 i (t * 272 + i) a
  | 3 => probeCore s 3 (i / 2) (t * 272 + i / 2) a
  | 4 => probePort s (4 * t + i) a
  | 5 => probeHart s i a
  | _ => probeRegion s (t * 16 + i) a

/-- STATE_PROBE (R438): Stone's probe of a unit, with what the unit answers. -/
def execStateProbe (u : UnitId) (answer : Identity) (s : State) : Host.Outcome State Fault Refusal :=
  shaped (u.idx < unitCount u.kind.toNat) "STATE_PROBE" (probe s u.kind.toNat u.tower.toNat u.idx answer)

end Sys2Proof.Machine
end

