-- ==== Sys2Proof/Machine/Bruise.lean ====
section
/-! DEFINITION. Bruise (R442 to R449): the enable strap, the perturbation controls, the beyond-bound flag and injections. -/

namespace Sys2Proof.Machine

/-- The debug strap was 1 at the PWRGD rise (R442). -/
def brzOn (s : State) (t : Nat) : Bool := fbit s (brzBase t) 63

/-- The requesters that may write the BRZ_ registers of tower t: the host, Stone and its own Pith (R443). -/
def brzRight (t : Nat) : Who → Bool
  | .host => true
  | .stone => true
  | .pith p => p.toNat = t
  | .i3c => false
  | .hart _ => false

/-- The notice that beyond has changed (R446, R449). -/
def beyondNotice (s : State) (t : Nat) (set : Bool) : State :=
  notice s (if set then 0x0901 else 0x0902) 1 0 t (fget s (brzBase t) 31 0)

/-- BRZ_CTL takes a value (R443, R446): an enable bit that rises seeds the LFSR, a seed of 0 counting as 1; a change of beyond raises
its notice. -/
def brzCtl (s : State) (t v : Nat) : State :=
  if !brzOn s t then s
  else
    let b := brzBase t
    let old := fget s b 5 0
    let was := fbit s b 32
    let seed := Nat.max 1 (regGet s (b + 8)).toNat
    let rise : Bool := (List.range 6).any fun i => v.testBit i && !old.testBit i
    let s := fset (fset s b 5 0 (bits v 5 0)) b 32 32 (bits v 32 32)
    let s := if rise then { s with stone := { s.stone with lfsr := tput s.stone.lfsr t (BitVec.ofNat 64 seed) } } else s
    if fbit s b 32 = was then s else beyondNotice s t (!was)

/-- BEYOND_SET (R446): a write that sets BRZ_CTL.beyond and keeps the other fields. -/
def execBeyondSet (who : Who) (tower : BitVec 4) (s : State) : Host.Outcome State Fault Refusal :=
  let t := tower.toNat
  finish (if brzRight t who ∧ !inReset s t then brzCtl s t (fget s (brzBase t) 5 0 + 2 ^ 32) else s)

/-- BEYOND_CLEAR (R446). -/
def execBeyondClear (who : Who) (tower : BitVec 4) (s : State) : Host.Outcome State Fault Refusal :=
  let t := tower.toNat
  finish (if brzRight t who ∧ !inReset s t then brzCtl s t (fget s (brzBase t) 5 0) else s)

/-! ### Injections (R447) -/

/-- The fields of BRZ_INJECT. -/
def injKind (s : State) (t : Nat) : Nat := fget s (brzBase t + 0x40) 50 48
def injAddr (s : State) (t : Nat) : Nat := fget s (brzBase t + 0x40) 47 0
def injA (s : State) (t : Nat) : Nat := fget s (brzBase t + 0x40) 59 56
def injB (s : State) (t : Nat) : Nat := fget s (brzBase t + 0x40) 63 60
def injCore (s : State) (t : Nat) : Nat := fget s (brzBase t + 0x48) 16 8
def injBusy (s : State) (t : Nat) : Bool := fbit s (brzBase t + 0x48) 2

/-- The address an injection may have: mapped, in the fast-tier slot or the CMEM aperture of this tower. -/
def injPlaceOk (s : State) (t : Nat) : Bool :=
  match place s (injAddr s t) with
  | .fast k => keyTower k = t
  | .cmem a => (a - 0x20000000000) / 0x100000000 = t
  | _ => false

/-- The rules of R447 for the fields that the kind uses. -/
def injOk (s : State) (t : Nat) : Bool :=
  match injKind s t with
  | 0 => injPlaceOk s t && injA s t ≤ 12
  | 1 => injPlaceOk s t && injA s t ≤ 12 && injB s t ≤ 12 && injA s t ≠ injB s t
  | 2 => injPlaceOk s t
  | 3 => injPlaceOk s t
  | 4 => injCore s t < 272
  | _ => false

/-- The injection has been performed or refused: done is set. -/
def injDone (s : State) (t : Nat) (refused : Bool) : State :=
  let o := brzBase t + 0x48
  let s := fset (fset (fset s o 2 2 0) o 3 3 1) o 4 4 (b2n refused)
  if refused then s else count s (brzBase t) 1 1

/-- Change a stored byte and its syndrome where it lies (R447): in the slice's copy when the slice holds the byte, else in the column;
at the bank for CMEM. -/
def pokeByte (s : State) (a : Nat) (f : Byte → BitVec 5 → Byte × BitVec 5) : State :=
  let raw (s : State) (k : Nat) : State :=
    let p := f (s.mem.read k) (s.mem.syndrome k)
    memPut s k p.1 p.2
  match place s a with
  | .fast k =>
    let lk := k / 128
    let s := if bypassed s lk then s else settleLine s lk
    let l := lineAt s lk
    if l.valid.getLsbD (k % 128) then
      let p := f (lByte l.data (k % 128)) (tget 0 l.syn (k % 128))
      linePut s lk { l with data := lPut l.data (k % 128) p.1, syn := tset 0 l.syn (k % 128) p.2 }
    else raw s k
  | .cmem a => raw s a
  | _ => s

/-- The access of an injection at the home slice: the owner's bytes are recalled first; a kind that writes the byte invalidates the
copies too (R201, R219). DEDUCED: log entry 51. -/
def injAccess (s : State) (a : Nat) (write : Bool) : State :=
  match place s a with
  | .fast k =>
    if lineHeld s (k / 128) then (if write then dirWrite s (k / 128) else dirRead s (k / 128)) else s
  | .cmem a => { s with llc := { s.llc with merge := tdel s.llc.merge (a / 128) } }
  | _ => s

/-- The group key of kind 3: the place of the address's 32-byte group. -/
def flightKey (s : State) (a : Nat) : Nat :=
  match place s a with
  | .fast k => k / 32
  | .cmem a => a / 32
  | _ => 0

/-- A pending injection of a kind is carried out (R447). DEDUCED: log entry 51. -/
def injRun (s : State) (t kind : Nat) (f : State → State) : State :=
  if injBusy s t ∧ injKind s t = kind then (if injOk s t then injDone (f s) t false else injDone s t true) else s

/-- The write of BRZ_INJECT.go (R447): it starts an injection unless one is in progress; a reserved kind is refused at once. DEDUCED: log entry 51. -/
def injGo (s : State) (t : Nat) : State :=
  if !brzOn s t ∨ injBusy s t then s
  else if 5 ≤ injKind s t then injDone s t true
  else fset s (brzBase t + 0x48) 2 2 1

/-- INJECT_SINGLE_BIT (kind 0): one bit of the code word is inverted. -/
def execInjectSingleBit (tower : BitVec 4) (s : State) : Host.Outcome State Fault Refusal :=
  let t := tower.toNat
  finish (injRun s t 0 fun s =>
    pokeByte (injAccess s (injAddr s t) false) (injAddr s t) fun b y => flipBit b y (injA s t))

/-- INJECT_DOUBLE_BIT (kind 1): two bits of the code word are inverted. -/
def execInjectDoubleBit (tower : BitVec 4) (s : State) : Host.Outcome State Fault Refusal :=
  let t := tower.toNat
  finish (injRun s t 1 fun s =>
    pokeByte (injAccess s (injAddr s t) false) (injAddr s t) fun b y =>
      let p := flipBit b y (injA s t)
      flipBit p.1 p.2 (injB s t))

/-- INJECT_POISON_AT_REST (kind 2): the byte becomes poison at rest. -/
def execInjectPoisonAtRest (tower : BitVec 4) (s : State) : Host.Outcome State Fault Refusal :=
  let t := tower.toNat
  finish (injRun s t 2 fun s => pokeByte (injAccess s (injAddr s t) true) (injAddr s t) fun _ _ => (0, poisonSyn))

/-- INJECT_POISON_IN_FLIGHT (kind 3): the next read of the group that leaves its home location carries the poison bit. -/
def execInjectPoisonInFlight (tower : BitVec 4) (s : State) : Host.Outcome State Fault Refusal :=
  let t := tower.toNat
  finish (injRun s t 3 fun s =>
    { s with stone := { s.stone with flightPoison := sadd s.stone.flightPoison (flightKey s (injAddr s t)) } })

/-- INJECT_PARITY_ERROR (kind 4): the next register-file read of the core meets a parity error, class 0x02. -/
def execInjectParityError (tower : BitVec 4) (s : State) : Host.Outcome State Fault Refusal :=
  let t := tower.toNat
  finish (injRun s t 4 fun s =>
    { s with stone := { s.stone with parityAt := sadd s.stone.parityAt (t * 272 + injCore s t) } })

/-! ### Time -/

/-- A millisecond of fabric time has ended: every tower with beyond at 1 counts it (R448). -/
def beyondMs (s : State) : State :=
  (List.range 16).foldl (fun s t => if fbit s (brzBase t) 32 then count s (brzBase t) 2 1 else s) s

end Sys2Proof.Machine
end

