-- ==== Sys2Proof/Machine/Records.lean ====
section
/-! DEFINITION. The doorbells and the record area (R57, R86 to R93), the host's reach into the module (R31, R458, R484), and
the split of a tower's columns (R33, R34). -/

namespace Sys2Proof.Machine

/-! ### Phases -/

/-- BOOT_STATUS.mode: 0 BOOT, 1 RECOVERY, 2 RUN, 3 FAULT. -/
def bootMode (s : State) : Nat := fget s bootBase 1 0
def inRun (s : State) : Bool := s.boot.pwrgd && bootMode s = 2

/-- BAR requests are served: Memory Space Enable is 1 and the function is in D0 (R484). -/
def hostReach (s : State) : Bool := s.boot.pwrgd && fbit s pciBase 13 && !fbit s pciBase 15

/-- AER logs an error type (R486). PRESUMED: log entry 72. -/
def aerLog (s : State) (bit : Nat) : State := { s with pci := { s.pci with aer := sadd s.pci.aer bit } }

/-- An error Message leaves when Device Control, or for an uncorrectable error SERR# Enable, reports that severity. PRESUMED: log entry 97. -/
def errSignal (s : State) (severity : Nat) : State :=
  if (cfgWord s 0x58).testBit severity ∨ (severity ≠ 0 ∧ (cfgWord s 0x04).testBit 8) then emit s (.errMessage severity) else s

/-- AER logs an uncorrectable error and signals it under its mask and severity (R486); an advisory one of non-fatal severity is signalled as a
correctable error. PRESUMED: log entry 97. -/
def aerError (s : State) (bit : Nat) (advisory : Bool) : State :=
  let fatal := (cfgWord s 0x10C).testBit bit
  let masked := (cfgWord s 0x108).testBit bit
  let s := aerLog s bit
  if advisory && !fatal then
    let s := aerLog s 45
    if masked ∨ (cfgWord s 0x114).testBit 13 then s else errSignal s 0
  else if masked then s
  else errSignal s (if fatal then 2 else 1)

/-- A host request is an Unsupported Request (R31, R484, R502): logged and counted; a read gets its Completion. DEDUCED: log entry 74. -/
def unsupported (s : State) (read : Bool) : State :=
  let s := count s pciBase 1 1
  let s := if (cfgWord s 0x58).testBit 3 then aerError s 20 read else aerLog (if read then aerLog s 45 else s) 20
  if read then emit s (.completion 1 [] false) else s

/-- The stage of R455 at whose end the units of a block kind enter service (R458); 0 for the blocks that are always reached. -/
def serviceStage : BK → Nat
  | .stn => 0
  | .boot => 0
  | .sec => 0
  | .pci => 0
  | .pip => 0
  | .pth => 3
  | .pwt => 3
  | .thm => 3
  | .noc => 3
  | .brz => 3
  | .pkm => 3
  | .pwm => 3
  | .vch => 4
  | .row => 4
  | .llc => 6
  | .llcCommon => 6
  | .cl => 6
  | .qch => 7
  | .idg => 8
  | .core => 9
  | .arr => 9
  | .att => 9
  | .qnc => 10

/-- A block answers accesses: in RUN every block; before RUN and in FAULT as R458 and R456 say. DEDUCED: log entry 13. -/
def inService (s : State) (k : BK) : Bool :=
  serviceStage k = 0 || bootMode s = 2 || (bootMode s ≠ 3 && serviceStage k ≤ s.boot.ended)

/-! ### Doorbells (R87) -/

def ringOn (s : State) : Bool := fbit s (stnBase + 0x1008) 31
def recOn (s : State) : Bool := fbit s (stnBase + 0x1018) 31
def cmdHead (s : State) : Nat := fget s (stnBase + 0x1008) 63 32
def recTail (s : State) : Nat := fget s (stnBase + 0x1018) 63 32
def ringSize (s : State) : Nat := 2 ^ fget s (stnBase + 0x1008) 4 0
def recSize (s : State) : Nat := 2 ^ fget s (stnBase + 0x1018) 4 0

/-- CMD_TAIL takes a value, unless it runs further ahead of STN_CMD_HEAD than the ring is long. -/
def takeTail (s : State) (v : Nat) : State :=
  let h := cmdHead s
  if ringSize s < (v + 2 ^ 32 - h) % 2 ^ 32 then notice s 0x1014 0 0xFFFF 0xFF (v + h * 2 ^ 32)
  else { s with cmd := { s.cmd with cmdTail := v } }

/-- REC_HEAD takes a value. -/
def takeHead (s : State) (v : Nat) : State := { s with cmd := { s.cmd with recHead := v } }

/-- A doorbell write (0 CMD_TAIL, 1 REC_HEAD): kept until RUN when it comes before, and Unsupported Request while BAR4 is not
served (R480, R484). -/
def doorbell (s : State) (which v : Nat) : State :=
  if !hostReach s then unsupported s false
  else if bootMode s = 2 then (if which = 0 then takeTail s v else takeHead s v)
  else { s with cmd := { s.cmd with kept := s.cmd.kept ++ [(which, v)] } }

/-- The value last written to a doorbell (R87): one that is kept until RUN, else the one in force. A write that is ignored leaves it. DEDUCED: log entry 77. -/
def doorbellValue (s : State) (which : Nat) : Nat :=
  match (s.cmd.kept.filter fun k => k.1 = which).getLast? with
  | some k => k.2
  | none => if which = 0 then s.cmd.cmdTail else s.cmd.recHead

/-- A host write to BAR4 (R87, R480): other than 4 bytes it is an Unsupported Request, and away from the doorbells it is ignored. -/
def bar4Write (s : State) (off n v : Nat) : State :=
  if n ≠ 4 ∨ !aligned 4 off ∨ 65536 ≤ off ∨ !hostReach s then unsupported s false
  else if off = 0 then doorbell s 0 v
  else if off = 4 then doorbell s 1 v
  else s

/-- A host read of BAR4 (R87, R480). -/
def bar4Read (s : State) (off n : Nat) : State :=
  if n ≠ 4 ∨ !aligned 4 off ∨ 65536 ≤ off ∨ !hostReach s then unsupported s true
  else emit s (.completion 0 (leBytes 4 (if off = 0 then doorbellValue s 0 else if off = 4 then doorbellValue s 1 else 0)) false)

/-- The doorbells kept from before RUN are acted on (R457). -/
def takeKept (s : State) : State :=
  s.cmd.kept.foldl (fun s k => if k.1 = 0 then takeTail s k.2 else takeHead s k.2) { s with cmd := { s.cmd with kept := [] } }

/-! ### Records (R57, R90 to R92) -/

/-- The record area has room and records may be written now. -/
def recRoom (s : State) : Bool :=
  inRun s && recOn s && busMaster s && (recTail s + 2 ^ 32 - s.cmd.recHead) % 2 ^ 32 < recSize s

/-- Write one record of 32 bytes at STN_REC_TAIL and advance it; the phase bit is bit 0 of byte 1 (R91). -/
def putRecord (s : State) (b0 flags : Nat) (rest : List Byte) : State :=
  let x := recTail s
  let n := recSize s
  let phase := 1 - x / n % 2
  let a := (regGet s (stnBase + 0x1010)).toNat + 32 * (x % n)
  let s := emit s (.hostWrite a (leBytes 1 b0 ++ leBytes 1 (phase + flags) ++ rest) false)
  fset s (stnBase + 0x1018) 63 32 ((x + 1) % 2 ^ 32)

/-- Bytes 2 to 31 of a completion record (R90). -/
def Completion.bytes (c : Completion) : List Byte :=
  leBytes 2 c.status ++ leBytes 4 c.tag ++ leBytes 4 c.step ++ leBytes 4 c.index ++ leBytes 8 c.time ++ leBytes 8 c.detail

/-- Bytes 2 to 31 of a notice record (R57). -/
def Notice.bytes (n : Notice) : List Byte :=
  leBytes 2 n.code ++ leBytes 2 n.source ++ leBytes 1 n.tower ++ leBytes 1 0 ++ leBytes 4 n.step ++ leBytes 4 n.seq ++
    leBytes 8 n.time ++ leBytes 8 n.detail

/-- Write the completion record that waits first, when no older notice waits. -/
def writeCompletion (s : State) : State :=
  match s.cmd.done with
  | [] => s
  | c :: rest =>
    if recRoom s && s.cmd.notices.all (fun n => c.stamp < n.stamp) then
      putRecord { s with cmd := { s.cmd with done := rest } } 1 0 c.bytes
    else s

/-- Write the notice record that waits first, when no older completion waits; it says whether notices were lost before it. -/
def writeNotice (s : State) : State :=
  match s.cmd.notices with
  | [] => s
  | n :: rest =>
    if recRoom s && s.cmd.done.all (fun c => n.stamp < c.stamp) then
      let f := 2 * n.service + 4 * b2n s.cmd.lostBefore
      putRecord { s with cmd := { s.cmd with notices := rest, lostBefore := false } } 2 f n.bytes
    else s

/-! ### The split of the columns (R33, R34) -/

/-- pool_units of a tower changes: every column offset from the smaller private size up becomes undefined. DEDUCED: log entry 19. -/
def setPoolUnits (s : State) (t p : Nat) : State :=
  let old := poolUnits s t
  if old = p then s
  else
    let lo := privBytes (Nat.max old p)
    let gone (k : Nat) : Bool := keyTower (k * 128) = t && lo ≤ keyOff (k * 128)
    let n := s.free
    let mem := (List.range 256).foldl (fun (m : Mem) l => m.forget (placeKey t l lo) (colBytes - lo) n) s.mem
    let s := fresh { s with mem := mem, llc := { s.llc with lines := s.llc.lines.filter fun e => !gone e.1 }
                            cores := s.cores.map fun e => (e.1, { e.2 with l1 := e.2.l1.filter fun x => !gone x.1 }) }
    fset s (pthBase t + 0x100) 3 0 p

end Sys2Proof.Machine
end

