-- ==== Sys2Proof/Machine/Boot.lean ====
section
/-! DEFINITION. Bring-up (R454 to R466), the training cache (R460 to R462), recovery and update (R467 to R470), and the resets
of the module and of its endpoint (R487, R488). -/

namespace Sys2Proof.Machine

def setMode_ (s : State) (m : Nat) : State := fset s bootBase 1 0 m
def setStage (s : State) (c : Nat) : State := fset s bootBase 15 8 c
def strap (s : State) (i : Nat) : Bool := fbit s (bootBase + 8) i

/-! ### Pins (R492 to R494) -/

/-- The 24 bits of a progress frame (R493). -/
def frameBits (code : Nat) : Nat := 0xD5 * 2 ^ 16 + code * 2 ^ 8 + (code ^^^ 0xFF)

/-- The levels of PIP0 during a frame, in half bit times of 5 µs: Manchester code, most significant bit first, high before low for a 0 and low
before high for a 1 (R493). -/
def frameLevels (code : Nat) : List Bool :=
  (List.range 24).flatMap fun i => let b := (frameBits code).testBit (23 - i); [!b, b]

/-- Send a progress frame. DEDUCED: log entry 68. -/
def sendFrame (s : State) (code : Nat) : State :=
  emit (fset s pipBase 15 8 code) (.frame (frameLevels code))

/-- Drive PIP1 as BUSY, or low. -/
def drivePip1 (s : State) (on : Bool) : State :=
  if fbit s pipBase 1 = on then s else emit (fset s pipBase 1 1 (b2n on)) (.pin 1 on)

/-- Enter the FAULT phase (R456, R492): PIP1 is low and the FAULT pattern starts. -/
def enterFault (s : State) (f : Nat) : State :=
  let s := fset (setMode_ s 3) bootBase 31 24 f
  let s := drivePip1 (fset s pipBase 5 4 3) false
  { s with boot := { s.boot with phaseAt := s.now, frameAt := s.now } }

/-! ### The image (R451 to R453) -/

/-- Entry k of an image's directory: type, flags and reserved word, offset, size. -/
def imgEntry (b : List Byte) (k : Nat) : Nat × Nat × Nat × Nat :=
  let o := 32768 + 32 * k
  (leAt b o 2, leAt b (o + 2) 6, leAt b (o + 8) 8, leAt b (o + 16) 8)

/-- Sizes that R452 allows each section type. -/
def sectionSizeOk (ty n : Nat) : Bool :=
  match ty with
  | 1 => n ≤ 8 * mib
  | 2 => n ≤ 2 * mib
  | 3 => n = 65536
  | 4 => n ≤ mib
  | 5 => n ≤ 8 * mib
  | 6 => n ≤ 4 * mib
  | _ => false

/-- Ranges of a list do not overlap. -/
def disjointRanges : List (Nat × Nat) → Bool
  | [] => true
  | x :: r => r.all (fun y => x.1 + x.2 ≤ y.1 || y.1 + y.2 ≤ x.1) && disjointRanges r

/-- All the bytes of a range of an image are 0. -/
def zeroBytes (b : List Byte) (o n : Nat) : Bool := ((b.drop o).take n).all (· = 0)

/-- Section of a type in an image. -/
def imgSection (b : List Byte) (ty : Nat) : List Byte :=
  match ((List.range 6).map (imgEntry b)).find? fun e => e.1 = ty with
  | some e => (b.drop e.2.2.1).take e.2.2.2
  | none => []

/-- The image obeys R451, R452 and R453 items 1 and 2; `n` is the number of bytes read. DEDUCED: log entry 70. -/
def imageFormOk (b : List Byte) (n : Nat) : Bool :=
  let size := leAt b 16 4
  let es := (List.range 6).map (imgEntry b)
  bytesAt b 0 8 = [0x4B, 0x53, 0x31, 0x36, 0x46, 0x49, 0x52, 0x4D] && leAt b 8 4 = 1 && leAt b 12 4 = 256 && size = n &&
  0x9000 ≤ size && size ≤ 48 * mib && leAt b 23 1 = 0xB0 && leAt b 24 4 = 6 && leAt b 28 4 = 0 && zeroBytes b 96 160 &&
  zeroBytes b 30048 2720 && zeroBytes b (32768 + 192) 320 &&
  [1, 2, 3, 4, 5, 6].all (fun ty => (es.filter fun e => e.1 = ty).length = 1) &&
  es.all (fun e => e.2.1 = 0 && aligned 4096 e.2.2.1 && 0x9000 ≤ e.2.2.1 && e.2.2.1 + e.2.2.2 ≤ size &&
    sectionSizeOk e.1 e.2.2.2) &&
  disjointRanges (es.map fun e => (e.2.2.1, e.2.2.2)) && leAt b 20 1 = 1

/-- The first check of R453 that an image fails, as a result value of R468; 0 for a valid image. DEDUCED: log entry 68. -/
def imageCheck (s : State) (b : List Byte) (n : Nat) : Nat :=
  if !imageFormOk b n then 2
  else if shake256 64 (bytesAt b 32 64) ≠ Config.keyDigest then 3
  else if leAt b 22 1 < s.boot.minSvn then 4
  else
    let ctx : List Byte := [0x4B, 0x53, 0x31, 0x36, 0x46, 0x57]
    let msg := b.take 256 ++ (b.drop 32768).take (n - 32768)
    if Config.slhVerify (bytesAt b 32 64) ctx msg ((b.drop 256).take 29792) then 0 else 5

/-- The rule images of the library, in slot order, each 128-byte aligned (R452): the rules with their slots. DEDUCED: log entry 55. -/
def libraryRules (b : List Byte) : Nat → Nat → Nat → List Rule → Tbl Rule
  | 0, _, _, _ => []
  | f + 1, k, o, done =>
    let h := bytesAt b o 128
    let n := leAt h 8 4
    let next := ceilDiv (o + 128 + n) 128 * 128
    match rulePlace done (ceilDiv n 4096 * 4096) with
    | some p =>
      let r := ruleOf h ((b.drop (o + 128)).take n) p
      if b.length < o + 128 then [] else (k, r) :: libraryRules b f (k + 1) next (done ++ [r])
    | none => []

/-- Start an image's Stone code (stage 0x01, R469): release, versions and measurements 0 to 7. -/
def startImage (s : State) (b : List Byte) : State :=
  let fw : Fw := ⟨leAt b 20 1, leAt b 21 1, leAt b 22 1⟩
  let ms := (0, shake256 64 (b.take 256)) :: ([1, 2, 3, 4, 5, 6].map fun ty => (ty, shake256 64 (imgSection b ty))) ++
    [(7, shake256 64 Config.manufacturing)]
  let s := { s with boot := { s.boot with fw := fw, meas := ms } }
  fset (fset s secBase 16 16 1) secBase 7 0 fw.svn

/-- Show min_svn. -/
def putMinSvn (s : State) (v : Nat) : State :=
  fset { s with boot := { s.boot with minSvn := v } } secBase 15 8 v

/-! ### Cold boot (R454) -/

/-- Registers that the repair record carries over a cold boot: ARR_BAD_COLS (R450). DEDUCED: log entry 4. DEDUCED: log entry 69. -/
def bootKeeps (o : Nat) : Bool :=
  match blkOf o with
  | some b => b.kind = .arr && (o - b.base = 0x10 || o - b.base = 0x18)
  | none => false

/-- The state after a PWRGD rise (R454): everything starts at its cold-boot value but the flash, one-time storage and what lies
outside the module. DEDUCED: log entry 4. DEDUCED: log entry 59. DEDUCED: log entry 69. -/
def coldBoot (s : State) (straps : Nat) : State :=
  let z := State.reset
  let n := s.free
  let boot := { z.boot with pwrgd := true, perst := s.boot.perst, input50 := s.boot.input50, slot := s.boot.slot,
                            cacheA := s.boot.cacheA, cacheB := s.boot.cacheB, minSvn := s.boot.minSvn,
                            repair := s.boot.repair, frameAt := 1000000 }
  let chans := (s.chans.filter fun e => !e.2.bondUsed.isEmpty).map fun e => (e.1, { Chan.init with bondUsed := e.2.bondUsed })
  let mem : Mem := ⟨[], [], cmemExtents.map fun e => { e with stamp := n + e.stamp }⟩
  let s := { z with pending := s.pending, out := s.out, free := n + 16, boot := boot, chans := chans, mem := mem
                    ctl := { z.ctl with regs := s.ctl.regs.filter fun e => bootKeeps e.1 } }
  let s := fset (fset s (bootBase + 8) 3 0 straps) pipBase 3 0 straps
  let s := fset s secBase 15 8 s.boot.minSvn
  (List.range 16).foldl (fun s t => fset s (brzBase t) 63 63 (straps / 8 % 2)) s

/-- PWRGD_RISE (R454): the straps PIP0 to PIP3, bit i for PIPi, are sampled and bring-up begins. DEDUCED: log entry 3. -/
def execPwrgdRise (straps : BitVec 4) (s : State) : Host.Outcome State Fault Refusal :=
  finish (if s.boot.pwrgd then s else coldBoot s straps.toNat)

/-! ### Units that fail bring-up (R423, R456) -/

/-- A core or column is retired at bring-up. -/
def bootRetire (s : State) (kind u : Nat) : State :=
  if kind = 0 then recordRetired (setCoreState s u csRetired) 0 u
  else recordRetired (fset (setColState s u 3) (chBase u) 9 9 1) 1 u

/-- A unit fails its stage: 0 core, 1 column, 2 region, 3 Idger port, 4 slow-tier channel; in stage 0x06 a checker failed, which
raises STN_ notice 0x1B. -/
def bootFail (code : Nat) (s : State) (f : Nat × BitVec 4 × Nat) : State :=
  let t := f.2.1.toNat
  let u := f.2.2
  let s :=
    match f.1 with
    | 0 => if u < 272 then bootRetire s 0 (t * 272 + u) else s
    | 1 => if u < 272 then bootRetire s 1 (t * 272 + u) else s
    | 2 => if u < 16 then setRegionState s (t * 16 + u) 3 else s
    | 3 => if u < 4 then setPortState s (4 * t + u) 1 else s
    | 4 => if u < 32 then fset s (qchBase u) 0 0 0 else s
    | _ => s
  if code = 6 then
    let k := match f.1 with
      | 2 => 6
      | 4 => 1
      | k => k
    notice s 0x101B 1 u (if f.1 = 4 then 0xFF else t) (k + (if f.1 = 4 then 0 else t) * 2 ^ 4)
  else s

/-- Fix a cluster's mapping of cores or columns (R423, R428, R456): a position whose unit is out of service takes the spare; with
none left the region is powered off. DEDUCED: log entry 47. -/
def fixCluster (s : State) (t c : Nat) (core : Bool) : State :=
  let u (p : Nat) : Nat := t * 272 + 17 * c + p
  let st (s : State) (p : Nat) : Nat := if core then coreState s (u p) else colState s (u p)
  let put (s : State) (p v : Nat) : State := if core then setCoreState s (u p) v else setColState s (u p) v
  let out (p : Nat) : Bool := if core then st s p = csRetired || armsBad s (u p) else st s p = 3
  let spare := !out 16
  match (List.range 16).filter out with
  | [] => s
  | k :: rest =>
    let s := if spare then
        let s := if core then recordRetired (setCoreState s (u k) csRetired) 0 (u k) else s
        put (mapUnit s (if core then 0x10 else 0x20) (u 16) k) 16 1
      else s
    let lost := if spare then rest else k :: rest
    let dead (p : Nat) : Bool := !core || st s p = csRetired || repairState s (u p) 0 = 3 || repairState s (u p) 1 = 3
    if lost.any dead then setRegionState s (t * 16 + c) 3 else s

/-- Show the repair state of an array after the self-test of stage 0x09. -/
def bootArray (s : State) (pk n : Nat) : State :=
  let r := repairOf (badCols s pk n).length (rowFault s pk n)
  fset (fset s (arrBlk pk n) 30 24 r.2) (arrBlk pk n) 22 20 r.1

/-- Arrays with a bad column or a row fault. DEDUCED: log entry 47. -/
def badArrays (s : State) : List (Nat × Nat) :=
  (List.range 4352).flatMap fun pk => ([0, 1].filter fun n => !(badCols s pk n).isEmpty || rowFault s pk n).map fun n => (pk, n)

/-- The core table of a physical core (R465). -/
def coreTable (s : State) (pk : Nat) : List Byte :=
  let i := pk % 272
  let trims := (Config.manufacturing.drop (64 * pk)).take 64
  let bad (n : Nat) : List Byte := leBytes 8 (regGet s (arrBlk pk n + 0x10)).toNat ++ leBytes 8 (regGet s (arrBlk pk n + 0x18)).toNat
  bytesAt (leBytes 2 ((logicalCore s pk).getD 0xFFFF) ++ leBytes 2 i ++ leBytes 4 (unitGen s pk) ++ bad 0 ++ bad 1 ++ bytesAt trims 0 64) 0 256

/-! ### Training (R460, R461, R463) -/

/-- A copy of the training cache is valid for the running image (R460 item 2). -/
def cacheValid (s : State) (c : Cache) : Bool := c.valid && c.major = s.boot.fw.major && c.minor = s.boot.fw.minor

/-- The copy in use: the valid one of the higher generation. -/
def cacheUsed (s : State) : Option Cache :=
  let a := s.boot.cacheA
  let b := s.boot.cacheB
  if cacheValid s a && cacheValid s b then some (if b.gen ≤ a.gen then a else b)
  else if cacheValid s a then some a
  else if cacheValid s b then some b
  else none

/-- What the cache holds for a group that trains fast (R460): serial numbers agree, the temperature lies within 15 K, and a link's
peer trains it fast too. -/
def fastGroup (s : State) (g : Group) (peer : Bool) : Option Group :=
  if strap s 0 then none
  else
    (cacheUsed s).bind fun c =>
      c.groups.find? fun x => x.kind = g.kind && x.idx = g.idx && x.serials = g.serials && (g.temp - x.temp).natAbs ≤ 240 &&
        (g.kind ≠ 2 || peer)

/-- A group trains; one that fails its verification pass after fast training trains fully and is reported (R461). -/
def trainGroup (s : State) (g : Group) (peer pass : Bool) : State :=
  let full (s : State) : State := { s with boot := { s.boot with full := s.boot.full ++ [g] } }
  match fastGroup s g peer with
  | some x =>
    if pass then fset { s with boot := { s.boot with fast := s.boot.fast ++ [x] } } bootBase (16 + g.kind) (16 + g.kind) 1
    else notice (full s) 0x1201 0 0xFFFF 0xFF (g.kind + g.idx * 2 ^ 8)
  | none => full s

/-- The kind of group that a stage trains. -/
def trainKind (code : Nat) : Option Nat := if code = 4 then some 0 else if code = 7 then some 1 else if code = 8 then some 2 else none

/-- The locked lanes of a link in its stage: all 9 where the list does not name it. -/
def lanesIn (ls : List (BitVec 6 × BitVec 9)) (l : Nat) : Nat := ((ls.find? fun x => x.1.toNat = l).map (·.2.toNat)).getD 0x1FF

/-- The groups of a stage train. A trained slow-tier channel enters service; a link enters IDENT with its lanes, or is DOWN (R463). -/
def trainStage (s : State) (code : Nat) (gs : List (BitVec 2 × Nat × List Nat × Int × Bool × Bool)) (ls : List (BitVec 6 × BitVec 9)) : State :=
  match trainKind code with
  | none => s
  | some k =>
    (gs.filter fun g => g.1.toNat = k && g.2.1 < (if k = 0 then 16 else if k = 1 then 32 else 64)).foldl (fun s g =>
      let s := trainGroup s ⟨k, g.2.1, g.2.2.1, g.2.2.2.1⟩ g.2.2.2.2.1 g.2.2.2.2.2
      if k = 1 then fset s (qchBase g.2.1) 0 0 1
      else if k = 2 then trained s g.2.1 (lanesIn ls g.2.1)
      else s) s

/-! ### Stages (R455) -/

/-- The stage after a stage; 0x0F after the last. -/
def nextStage (c : Nat) : Nat := if c = 1 then 3 else if c = 0xB then 0xF else c + 1

/-- Stage 0x01: the image is validated; Stone starts from it, or enters recovery (R455, R467). -/
def stageOne (s : State) : State :=
  let n := leAt s.boot.slot 16 4
  let r := imageCheck s (s.boot.slot.take n) n
  if r = 0 ∧ !strap s 1 then setStage (startImage s (s.boot.slot.take n)) 3
  else
    let s := fset (setMode_ s 1) bootBase 23 20 r
    fset s secBase 16 16 (b2n (r = 0))

/-- Stage 0x03: the units of the hub and the towers run; every converter is in service, and retired units keep their state. DESIGN CHOICE: log entry 56. -/
def stageThree (s : State) : State :=
  let s := s.boot.repair.foldl (fun s r => bootRetire s r.1 r.2) s
  fset s pwmBase 23 16 0xFF

/-- Stage 0x09: the arrays show what the self-test found, and the boot store holds the core tables and the stub (R464). -/
def stageNine (s : State) : State :=
  let s := (badArrays s).foldl (fun s a => bootArray s a.1 a.2) s
  { s with boot := { s.boot with tables := (List.range 4352).map fun pk => (pk, coreTable s pk)
                                 stub := imgSection s.boot.slot 3 } }

/-- Stage 0x0A: the rule library is loaded into slots 0 to 15 (R313). DEDUCED: log entry 55. -/
def stageTen (s : State) : State :=
  let rules := libraryRules (imgSection s.boot.slot 5) 16 0 0 []
  let s := { s with qnc := { s.qnc with rules := rules } }
  rules.foldl (fun s e => fset (fset s (ruleReg e.1) 63 63 1) (ruleReg e.1) 62 60 1) s

/-- Stage 0x0B: mappings are fixed, the shape table shows them, and calibration and thermal classes are published (R406). With no
region AWAKE the module enters FAULT (R456). -/
def stageEleven (s : State) : State :=
  let s := (List.range 256).foldl (fun s r => fixCluster (fixCluster s (r / 16) (r % 16) true) (r / 16) (r % 16) false) s
  let off := (List.range 256).filter fun r => regionState s r = 3
  let cls := (List.range 16).map fun t => (Config.thermalClass t).val
  let s := { s with stone := { s.stone with thermalClass := cls, narrow := narrowList s
                                            regionLimit := off.foldl (fun tb r => tset 0 tb r 3) s.stone.regionLimit } }
  let s := fset (fset (fset s (pwmBase + 0x50) 15 0 Config.calIdle.toNat) (pwmBase + 0x50) 31 16 Config.calSpan.toNat)
    (pwmBase + 0x50) 47 32 Config.calPulp.toNat
  let s := (indexed cls).foldl (fun s e => setWant s (32 + e.1) (64 - 8 * e.2)) s
  let s := showPlanned { s with pwr := { s.pwr with applied := s.pwr.want, lowSince := [] } }
  if off.length = 256 then enterFault s 4 else s

/-- The work of a stage. DEDUCED: log entry 68. -/
def stageWork (s : State) (code : Nat) (run : StageRun) : State :=
  let s := trainStage s code run.groups run.lanes
  let s := run.failed.foldl (bootFail code) s
  match code with
  | 1 => stageOne s
  | 3 => stageThree s
  | 9 => stageNine s
  | 10 => stageTen s
  | 11 => stageEleven s
  | _ => s

/-- The cause that takes a stage to FAULT (R456): boot ROM self-test or an unreadable flash in stage 0x01, the hub's clock or the input
voltage in stage 0x03, the hub itself in any. DEDUCED: log entry 68. -/
def stageFault (code : Nat) (run : StageRun) : Nat :=
  let f := run.fault.toNat
  if code = 1 ∧ f = 1 then 1
  else if code = 1 ∧ (f = 2 ∨ !Config.manufacturingOk) then 2
  else if code = 3 ∧ (f = 3 ∨ f = 6) then f
  else if f = 5 then 5
  else 0

/-- A stage begins once the previous one has ended, and does its work (R455). -/
def bringUp (s : State) (code : Nat) (run : StageRun) : State :=
  if !s.boot.pwrgd ∨ bootMode s ≠ 0 ∨ fget s bootBase 15 8 ≠ code ∨ code = 0xF then s
  else
    let f := stageFault code run
    if f ≠ 0 then enterFault s f
    else
      let s := stageWork s code run
      let s := { s with boot := { s.boot with ended := code } }
      if bootMode s = 0 ∧ code ≠ 1 then setStage s (nextStage code) else s

/-- BRING_UP_STAGE (R455). DEDUCED: log entry 68. -/
def execBringUpStage (code : BitVec 8) (run : StageRun) (s : State) : Host.Outcome State Fault Refusal :=
  finish (bringUp s code.toNat run)

/-- ENDPOINT_READY (R459): stage 0x02 ends; the endpoint answers. One progress frame of code 0x02 is sent in the BOOT phase (R455). -/
def execEndpointReady (s : State) : Host.Outcome State Fault Refusal :=
  finish (if s.boot.pwrgd && 1 ≤ s.boot.ended && !s.boot.endpoint then
    let s := { s with boot := { s.boot with endpoint := true, perst := false } }
    if fget s pipBase 5 4 = 1 then sendFrame s 2 else s
  else s)

/-- The copy of the training cache that a save writes (R462): an invalid one, else the one of lower generation. -/
def saveCopy (s : State) : Nat :=
  if !s.boot.cacheA.valid then 0 else if !s.boot.cacheB.valid then 1 else if s.boot.cacheA.gen ≤ s.boot.cacheB.gen then 0 else 1

/-- A save begins: the copy is invalid until its digest is written. -/
def startSave (s : State) : State :=
  if s.boot.full.isEmpty then s
  else
    let k := saveCopy s
    let s := { s with boot := { s.boot with saving := some k
                                            cacheA := { s.boot.cacheA with valid := s.boot.cacheA.valid && k ≠ 0 }
                                            cacheB := { s.boot.cacheB with valid := s.boot.cacheB.valid && k ≠ 1 } } }
    fset s bootBase 19 19 1

/-- Entry to RUN (R457): the mode and boot_ms, the pins (R492), the doorbells kept, and the background save of R462. -/
def enterRun (s : State) : State :=
  let s := fset (setMode_ (setStage s 0xF) 2) bootBase 63 32 ((s.now - s.boot.riseAt) / 1000000 % 2 ^ 32)
  let s := sendFrame (sendFrame (sendFrame s 0xF) 0xF) 0xF
  let s := drivePip1 (fset s pipBase 5 4 2) false
  let s := { s with boot := { s.boot with phaseAt := s.now } }
  startSave (takeKept s)

/-- RUN_ENTRY (R457). -/
def execRunEntry (s : State) : Host.Outcome State Fault Refusal :=
  finish (if s.boot.pwrgd && bootMode s = 0 && s.boot.ended = 0xB then enterRun s else s)

/-- PROGRESS_FRAME (R493): 1 ms after the PWRGD rise the module drives the BOOT functions, and every 1 ms it sends a frame with the code of the
stage, 0xE0 in recovery, or 0xE1 while it processes an image (R467). PIP1 is BUSY. -/
def execProgressFrame (s : State) : Host.Outcome State Fault Refusal :=
  let busy := fbit s (bootBase + 0x108) 9
  finish (if s.boot.pwrgd && bootMode s < 2 && s.boot.frameAt ≤ s.now then
    let code := if bootMode s = 0 then fget s bootBase 15 8 else if busy then 0xE1 else 0xE0
    let s := fset (fset s pipBase 5 4 1) pipBase 0 0 1
    let s := sendFrame (drivePip1 s (bootMode s = 0 || busy)) code
    { s with boot := { s.boot with frameAt := s.now + 1000000 } }
  else s)

/-- FAULT_PATTERN (R494): f pulses of 200 ms, 200 ms apart, and 1.6 s low. -/
def execFaultPattern (s : State) : Host.Outcome State Fault Refusal :=
  let f := fget s bootBase 31 24
  finish (if s.boot.pwrgd && bootMode s = 3 && s.boot.frameAt ≤ s.now then
    let s := emit s (.faultPattern f)
    { s with boot := { s.boot with frameAt := s.now + (400 * f + 1400) * 1000000 } }
  else s)

/-- RUN_PHASE_PINS (R492): 1 ms after the entry to RUN PIP0 becomes ALERT_L, released, and PIP1 becomes RDY. -/
def execRunPhasePins (s : State) : Host.Outcome State Fault Refusal :=
  finish (if inRun s && !s.boot.pinsRun && s.boot.phaseAt + 1000000 ≤ s.now then
    emit { s with boot := { s.boot with pinsRun := true }, pip := { s.pip with alert := false, rdy := false } } (.pin 0 true)
  else s)

/-- I3C_TARGET_READY (R492): 10 ms after the entry to RUN. -/
def execI3cTargetReady (s : State) : Host.Outcome State Fault Refusal :=
  finish (if inRun s && s.boot.phaseAt + 10000000 ≤ s.now then { s with boot := { s.boot with i3cReady := true } } else s)

/-- INPUT_50V_APPLIED (R500): the 50 V input is present. -/
def execInput50vApplied (s : State) : Host.Outcome State Fault Refusal :=
  finish { s with boot := { s.boot with input50 := true } }

/-! ### The training cache (R462) -/

/-- The save ends: the copy holds the groups trained fully and those kept, with a generation one above the other copy's. -/
def endSave (s : State) (k : Nat) : State :=
  let b := s.boot
  let other := if k = 0 then b.cacheB else b.cacheA
  let c : Cache := ⟨true, (other.gen + 1) % 2 ^ 32, b.fw.major, b.fw.minor, b.full ++ b.fast⟩
  let s := { s with boot := if k = 0 then { b with cacheA := c, saving := none } else { b with cacheB := c, saving := none } }
  notice (fset s bootBase 19 19 0) 0x1202 0 0xFFFF 0xFF (c.gen + k * 2 ^ 32)

/-- TRAINING_CACHE_SAVE (R462): the background save that began at the entry to RUN ends. -/
def execTrainingCacheSave (s : State) : Host.Outcome State Fault Refusal :=
  finish (match s.boot.saving with
    | some k => endSave s k
    | none => s)

/-! ### Recovery and update (R467 to R470) -/

def rcvCtl : Nat := bootBase + 0x108
def rcvBusy (s : State) : Bool := fbit s rcvCtl 9
def rcvLength (s : State) : Nat := fget s rcvCtl 63 32

/-- A load ends with a result. -/
def rcvEnd (s : State) (r : Nat) : State := fset (fset (fset s rcvCtl 9 9 0) rcvCtl 8 8 1) rcvCtl 23 16 r

/-- The notice of an ended update (R470, R476). DEDUCED: log entry 68. -/
def updateNotice (s : State) (r svn : Nat) (raised : Bool) : State :=
  notice s 0x1203 0 0xFFFF 0xFF (r + svn * 2 ^ 8 + b2n raised * 2 ^ 16)

/-- A write of go (R468 to R470): ignored while a load is in progress; refused while a plan runs; else the image is read from host memory. A
training-cache save in progress ends, its copy invalid (R462). DEDUCED: log entry 68. -/
def rcvGo (s : State) : State :=
  if rcvBusy s ∨ !(bootMode s = 1 ∨ bootMode s = 2) then s
  else if s.run.isSome then updateNotice (rcvEnd s 8) 8 0 false
  else
    let s := if bootMode s = 2 then fset { s with boot := { s.boot with saving := none } } bootBase 19 19 0 else s
    let s := fset (fset s rcvCtl 9 9 1) rcvCtl 23 16 0
    readHost s ((regGet s (bootBase + 0x100)).toNat / 4096 * 4096) (rcvLength s)

/-- A read of the whole image has arrived without error or poison. -/
def readWhole (d : HostData) (n : Nat) : Bool := d.bytes.length = n && d.poison.isEmpty

/-- Read, verify and program the image (R468): the state and the result. -/
def rcvRun (s : State) (first second : HostData) : State × Nat :=
  let n := rcvLength s
  if !readWhole first n then (s, 7)
  else
    let r := imageCheck s first.bytes n
    if r ≠ 0 then (s, r)
    else
      let s := readHost s ((regGet s (bootBase + 0x100)).toNat / 4096 * 4096) n
      let s := { s with boot := { s.boot with slot := second.bytes } }
      if !readWhole second n then (s, 7)
      else if shake256 64 second.bytes ≠ shake256 64 first.bytes then (s, 6)
      else (s, 1)

/-- min_svn rises to the image's svn on result 1 with raise_svn (R469, R470). -/
def raiseSvn (s : State) (svn : Nat) : State :=
  if fbit s rcvCtl 1 then putMinSvn s (Nat.max s.boot.minSvn svn) else s

/-- The load that go started in recovery ends (R468, R469). With result 1 bring-up goes on from stage 0x03. -/
def recoveryLoad (s : State) (first second : HostData) : State :=
  if s.boot.pwrgd && bootMode s = 1 && rcvBusy s && busMaster s then
    let q := rcvRun s first second
    let s := rcvEnd q.1 q.2
    if q.2 = 1 then
      let s := startImage (raiseSvn s (leAt first.bytes 22 1)) first.bytes
      setStage (setMode_ { s with boot := { s.boot with fromRecovery := true } } 0) 3
    else if q.2 = 6 ∨ q.2 = 7 then fset s secBase 16 16 (b2n (imageCheck s s.boot.slot s.boot.slot.length = 0))
    else s
  else s

/-- The load that go started in RUN ends (R470); the image takes effect at the next cold boot. -/
def firmwareUpdate (s : State) (first second : HostData) : State :=
  if inRun s && rcvBusy s && busMaster s then
    let q := rcvRun s first second
    let old := q.1.boot.minSvn
    let svn := leAt first.bytes 22 1
    let s := rcvEnd q.1 q.2
    let s := if q.2 = 1 then raiseSvn s svn else s
    updateNotice s q.2 svn (s.boot.minSvn ≠ old)
  else s

/-- RECOVERY_LOAD (R468): the image's two reads and their verification. -/
def execRecoveryLoad (first second : HostData) (s : State) : Host.Outcome State Fault Refusal :=
  finish (recoveryLoad s first second)

/-- FIRMWARE_UPDATE (R470): the image's two reads and their verification. -/
def execFirmwareUpdate (first second : HostData) (s : State) : Host.Outcome State Fault Refusal :=
  finish (firmwareUpdate s first second)

/-! ### Resets of the endpoint and of the module (R487, R488) -/

/-- Nothing is recorded for the running plan: its LAUNCH_PLAN is forgotten. -/
def forgetLaunch (s : State) : State := { s with cmd := { s.cmd with active := s.cmd.active.filter fun a => !a.runs s } }

/-- The endpoint alone is reset (R487): link, configuration space, window, ring and record area; the running plan ends at its next commit,
or at once when its first step has not begun, without a record. DEDUCED: log entry 77. -/
def endpointReset (s : State) (byPin : Bool) : State :=
  let s := regPut (regPut s pciBase 0) (pciBase + 0x100) 0
  let s := { s with pci := { s.pci with cfg := [], bar2Log := 36, aer := [], lastPtm := 0, ptmLost := false,
                                        waiting := [], doeIn := [], doeOut := [], doeError := false } }
  let s := fset (fset s (pciBase + 0x110) 1 1 0) (pciBase + 0x110) 0 0 0
  let s := fset (fset s (stnBase + 0x1008) 31 31 0) (stnBase + 0x1018) 31 31 0
  let s := notice (count s pciBase 3 1) 0x1103 0 0xFFFF 0xFF (b2n byPin)
  match s.run with
  | none => s
  | some r =>
    let s := forgetLaunch s
    if r.started ∨ r.ending.isSome then { s with run := some { r with abort := true } } else planEnd s stAborted 0 0

/-- PERST_L_ASSERT (R487): after the PWRGD rise. -/
def execPerstLAssert (s : State) : Host.Outcome State Fault Refusal :=
  finish (if s.boot.pwrgd && !s.boot.perst then
    endpointReset { s with boot := { s.boot with perst := true, endpoint := s.boot.endpoint && bootMode s = 2 } } true else s)

/-- HOT_RESET (R487): a Hot Reset, or the link goes down. -/
def execHotReset (s : State) : Host.Outcome State Fault Refusal :=
  finish (if s.boot.pwrgd && fbit s pciBase 11 then endpointReset s false else s)

/-- Power is lost while a load is in progress (R470): programming may have begun, and then the slot holds no valid image. DEDUCED: log entry 69. -/
def tornSlot (s : State) : State :=
  if rcvBusy s then
    if Config.freeChoice s.free 2 % 2 = 1 then { fresh s with boot := { s.boot with slot := [] } } else fresh s
  else s

/-- PWRGD_FALL (R488): the plan stops without a record, every region is powered off and the pins are released. -/
def execPwrgdFall (s : State) : Host.Outcome State Fault Refusal :=
  finish (if s.boot.pwrgd then
    let s := stopPlan (forgetLaunch (tornSlot s)) stShape 0
    let s := allRegions.foldl (fun s r => setRegionState s r 3) s
    let s := regPut s pipBase 0
    { s with run := none, qnc := { s.qnc with jobs := [], tries := [] }
             boot := { s.boot with pwrgd := false, pinsRun := false, i3cReady := false, endpoint := false, ended := 0 } }
  else s)

end Sys2Proof.Machine
end

