-- ==== Sys2Proof/Machine/CacheEvents.lean ====
section
/-! DEFINITION. Events of the home slices (R214, R217, R226, R227), of cluster memory (R212) and of the slow tier (R307, R308)
that no core's own command brings about. -/

namespace Sys2Proof.Machine

/-! ### Slices -/

/-- SLICE_FILL (R214, R217): the fill of a line arrives at its home slice and is delivered to every requester that joined: it writes only
bytes that are not valid, and the line's miss entry is free. A channel that is not in MEMORY fills nothing. -/
def execSliceFill (addr : BitVec 48) (s : State) : Host.Outcome State Fault Refusal :=
  finish (match place s addr.toNat with
    | .fast k => if bypassed s (k / 128) then s else closeMiss (fillLine (ensureLine s (k / 128)) (k / 128)) (k / 128)
    | _ => s)

/-- Add the oldest contribution that a slice holds (R226). -/
def addOldest (s : State) (sl : Nat) : State :=
  match takeFirst (fun (c : Contrib) => lineSlice s c.key = sl) s.llc.redQ with
  | some q => addContrib { s with llc := { s.llc with redQ := q.2 } } q.1
  | none => s

/-- REDUCE_ADD (R226): the slice adds its oldest queued contribution into its lines. -/
def execReduceAdd (tower : BitVec 4) (slice : BitVec 9) (s : State) : Host.Outcome State Fault Refusal :=
  shaped (slice.toNat < 272) "REDUCE_ADD" (addOldest s (tower.toNat * 272 + slice.toNat))

/-- Every way of the set that a line falls in is pinned or pending (R227). -/
def setBlocked (s : State) (lk : Nat) : Bool :=
  let ways := setLines s lk
  16 ≤ ways.length && ways.all fun k => (lineAt s k).pinned || linePending s k

/-- FORCED_EVICTION (R227): an allocation of the line at an address that finds every way pinned or pending. -/
def execForcedEviction (addr : BitVec 48) (s : State) : Host.Outcome State Fault Refusal :=
  finish (match place s addr.toNat with
    | .fast k =>
      let lk := k / 128
      if !bypassed s lk && !lineHeld s lk && setBlocked s lk then ensureLine s lk else s
    | _ => s)

/-! ### Cluster memory -/

/-- CMEM_READ (R212): a read of a line that reaches its bank. -/
def execCmemRead (addr : BitVec 48) (s : State) : Host.Outcome State Fault Refusal :=
  finish (match place s addr.toNat with
    | .cmem a => (cmemLine s (a / 128 * 128)).1
    | _ => s)

/-! ### The slow tier -/

/-- SLOW_TIER_ACCESS (R307): an access within one slow-tier line: a read of the whole line, or a write of the bytes given. -/
def execSlowTierAccess (write : Bool) (addr : BitVec 48) (len : BitVec 8) (data : HostData) (corr : Nat) (s : State) :
    Host.Outcome State Fault Refusal :=
  let a := addr.toNat
  let d := hostBytes data
  let ok : Bool := 1 ≤ len.toNat && a % 128 + len.toNat ≤ 128 && (!write || d.length = len.toNat)
  shaped ok "SLOW_TIER_ACCESS" (match place s a with
    | .slow off =>
      let s := count s (slowBlk (slowBase + off / 128 * 128)) 3 corr
      if write then slowWrite s (slowBase + off) (spread (slowBase + off) d)
      else (slowLine s (slowBase + off / 128 * 128) 0).1
    | _ => s)

/-- Address of a channel line of a slow-tier channel: the inverse of the interleave (R306). -/
def slowAddr (ch line : Nat) : Nat :=
  let f := (line ^^^ (line >>> 5) ^^^ (line >>> 10) ^^^ (line >>> 15) ^^^ (line >>> 20) ^^^ (line >>> 25)) % 32
  slowBase + (line * 32 + (ch ^^^ f)) * 128

/-- SLOW_TIER_SCRUB (R308): the next line of a channel is read, corrected bytes are written back and uncorrectable bytes become
the poison pattern. -/
def execSlowTierScrub (chan : BitVec 5) (corr : Nat) (s : State) : Host.Outcome State Fault Refusal :=
  let ch := chan.toNat
  let line := tget 0 s.qnc.scrub ch
  let s := (slowLine s (slowAddr ch line) 1).1
  let s := count (count s (qchBase ch) 4 1) (qchBase ch) 3 corr
  finish { s with qnc := { s.qnc with scrub := tset 0 s.qnc.scrub ch ((line + 1) % 2 ^ 29) } }

end Sys2Proof.Machine
end

