-- ==== Sys2Proof/Machine/Fabric.lean ====
section
/-! DEFINITION. What arrives on the Idger links and what the links do: discovery and time (R349, R363 to R365), barriers and cap
notices (R366, R396, R397), failover (R357 to R361), requests and responses (R343, R344), and flits (R333 to R337). -/

namespace Sys2Proof.Machine

/-! ### Receiving -/

/-- The link delivers messages: it is UP, or it has failed and the peer's tunnel may still deliver what left on it (R358, R359). -/
def linkLive (s : State) (l : Nat) : Bool := portState s l = 4 || (portAt s l).failed

/-- A routed message: delivered here when its destination is this module, else forwarded in transit (R352, R356). Nothing is
taken while the fabric is out of service. -/
def routed (s : State) (m : Msg) (ty : Nat) (f : State → State) : State :=
  let l := m.link.toNat
  if !fabEnabled s || !linkLive s l then s
  else if m.hdr.dest.toNat = deviceId s then f s
  else forward s l ty m.hop.toNat m.hdr m.data

/-! ### IDENT and TIME (R349, R363 to R365) -/

/-- IDENT (R349). -/
def execIdent (link : BitVec 6) (m : IdentMsg) (received : W64) (s : State) : Host.Outcome State Fault Refusal :=
  finish (takeIdent s link.toNat m received)

/-- The link towards the time parent (R363): the one tower 0's tables have in force for the time root. -/
def parentLink (s : State) : Option Nat :=
  let root := fget s (stnBase + 0x2000) 47 32
  if !fabEnabled s || root = 0xFFFF || root = deviceId s then none else routeLink s 0 root

/-- Data of a TIME message: the timestamps in order. DESIGN CHOICE: log entry 57. -/
def timeData (ts : List Nat) : List Byte := bytesAt (ts.map (leBytes 8)).flatten 0 32

/-- TIME_EXCHANGE (R363): the module asks its time parent. -/
def execTimeExchange (s : State) : Host.Outcome State Fault Refusal :=
  finish (match parentLink s with
    | some l => sendOn s l mtTime 0 (hdrTo (fget s (linkBase l + 0x10) 63 48) (deviceId s)) (timeData [s.now])
    | none => s)

/-- Clear time_locked with the notice of R365; the last rate is held. DEDUCED: log entry 59. -/
def unlockTime (s : State) : State :=
  if fbit s (stnBase + 0x2010) 1 then
    let s := { s with fab := { s.fab with holdRate := true } }
    notice (fset s (stnBase + 0x2010) 1 1 0) 0x1016 0 0xFFFF 0xFF (unsigned 64 s.fab.offset)
  else s

/-- An offset from the time parent has been measured (R364, R365): the first after enable may move time forward in a step, the
others are slewed. An offset above 1 µs on a locked module ends the lock and leaves the rate as it is. DEDUCED: log entry 59. -/
def takeOffset (s : State) (off : Int) : State :=
  let f := s.fab
  let sat : Int := max (-32768) (min 32767 off)
  let s := fset s (stnBase + 0x2010) 47 32 (unsigned 16 sat)
  let jump : Bool := !f.firstLock && 0 < off
  let run := if off.natAbs < 45 then f.lockRun + 1 else 0
  let lost : Bool := 1000 < off.natAbs && fbit s (stnBase + 0x2010) 1
  let s := { s with now := if jump then (s.now + off.toNat) % 2 ^ 64 else s.now }
  let s := { s with fab := { s.fab with
      firstLock := true, slew := if jump then 0 else if lost then f.slew else off, holdRate := false, offset := off, lastTime := s.now,
      lockRun := Nat.min 8 run } }
  if 1000 < off.natAbs then unlockTime s
  else if 8 ≤ run then fset s (stnBase + 0x2010) 1 1 1
  else s

/-- A difference of two timestamps. -/
def timeDiff (a b : W64) : Int := (a - b).toInt

/-- TIME (R363): a request is answered with its timestamps; a reply from the time parent gives the offset, with equal delay in
both directions. DEDUCED: log entry 59. -/
def execTime (link : BitVec 6) (reply : Bool) (t1 t2 t3 t4 : W64) (s : State) : Host.Outcome State Fault Refusal :=
  let l := link.toNat
  finish (
    if !fabEnabled s || !linkLive s l then s
    else if !reply then
      sendOn s l mtTime 0 (hdrTo (fget s (linkBase l + 0x10) 63 48) (deviceId s)) (timeData [t1.toNat, t2.toNat, s.now])
    else if parentLink s = some l then takeOffset s ((timeDiff t2 t1 + timeDiff t3 t4) / 2)
    else s)

/-- TIME_UNLOCK (R365): no TIME reply has come for 10 ms. -/
def execTimeUnlock (s : State) : Host.Outcome State Fault Refusal :=
  finish (if (parentLink s).isSome ∧ s.fab.lastTime + 10000000 ≤ s.now then unlockTime s else s)

/-! ### Barriers and cap notices (R366, R396, R397) -/

/-- A bunch is known complete at an instance (R366 phases 3 and 4). The Bool says that this is news. -/
def bunchDone (s : State) (k b : Nat) : State × Bool :=
  if (tget [] s.fab.barBunches k).contains b then (s, false)
  else ({ s with fab := { s.fab with barBunches := tmod [] s.fab.barBunches k fun l => sadd l b } }, true)

/-- A BARRIER message for this module: a member's arrival, a bunch that a runner reports, or that a member forwards. -/
def takeBarrier (s : State) (m : Msg) : State :=
  let a := m.hdr.addr.toNat
  let step := m.hdr.step.toNat
  let inst := a % 65536
  let bunch := a / 65536 % 65536
  let phase := a / 2 ^ 32
  let s := barTake s (barKey step inst) m.data
  if phase = 0 then barMember s step inst (m.hdr.src.toNat % 16)
  else
    let r := bunchDone s (barKey step inst) bunch
    if phase = 1 ∧ r.2 then
      toMembers r.1 mtBarrier (barHeader r.1 step inst bunch 2) (barMaxima r.1 (barKey step inst))
    else r.1

/-- BARRIER (R366). -/
def execBarrier (m : Msg) (s : State) : Host.Outcome State Fault Refusal :=
  finish (routed s m mtBarrier fun s => if takesPart s then takeBarrier s m else s)

/-- A copy of a cap notice that has come already over a parallel runner (R366): within the 10 µs in which a notice reaches every module. DEDUCED: log entry 66. -/
def capRepeat (s : State) (m : Msg) : Bool :=
  match tget? s.fab.capSeen (leAt m.data 0 2) with
  | some x => x.2 = bytesAt m.data 0 16 && decide (s.now ≤ x.1 + 10000)
  | none => false

/-- A cap notice for this module (R396, R397): it is counted, spread by the phases of R366, and followed. DESIGN CHOICE: log entry 57. -/
def takeCap (s : State) (m : Msg) : State :=
  let s := count s pwmBase 3 1
  let d := bytesAt m.data 0 128
  let s := { s with fab := { s.fab with capSeen := tput s.fab.capSeen (leAt d 0 2) (s.now, bytesAt d 0 16) } }
  let h := { m.hdr with src := BitVec.ofNat 16 (deviceId s) }
  let phase := m.hdr.addr.toNat / 2 ^ 32
  let s :=
    if phase = 0 then
      let r := { h with addr := BitVec.ofNat 48 (2 ^ 32) }
      toRunners s mtCap r d
    else if phase = 1 then
      let r := { h with addr := BitVec.ofNat 48 (2 * 2 ^ 32) }
      toMembers s mtCap r d
    else s
  followPut s (leAt d 0 2) (leAt d 2 1) (leAt d 3 1) (leAt d 6 1 % 2 = 1)

/-- CAP (R396). Duplicates over parallel runners are ignored (R366). -/
def execCap (m : Msg) (s : State) : Host.Outcome State Fault Refusal :=
  finish (routed s m mtCap fun s => if capRepeat s m then s else takeCap s m)

/-! ### Failover (R357 to R361) -/

/-- A FAILOVER or TUNNEL at its via device goes on to the module that its identifier field names (R354). DESIGN CHOICE: log entry 57. DEDUCED: log entry 58. -/
def viaOnward (s : State) (m : Msg) (vc ty : Nat) (f : State → State) : State :=
  if m.hdr.id = 0xFFFF ∨ m.hdr.id.toNat = deviceId s then f s
  else forwardVc s m.link.toNat vc ty m.hop.toNat { m.hdr with dest := m.hdr.id, id := 0xFFFF } m.data

/-- FAILOVER (R358): the peer names its link and its last in-order flit. -/
def execFailover (m : Msg) (s : State) : Host.Outcome State Fault Refusal :=
  finish (routed s m mtFailover fun s => viaOnward s m 0 mtFailover fun s =>
    takeFailover s m.hdr.src.toNat (m.hdr.addr.toNat / 65536 % 64) (m.hdr.addr.toNat % 65536))

/-- TUNNEL (R358): a body of the failed link that the header names, or one in transit. -/
def execTunnel (vc : BitVec 2) (m : Msg) (s : State) : Host.Outcome State Fault Refusal :=
  let l := m.link.toNat
  finish (
    if !fabEnabled s || !linkLive s l then s
    else if m.hdr.dest.toNat = deviceId s then
      viaOnward s m vc.toNat mtTunnel fun s => takeTunnel s (m.hdr.addr.toNat / 65536 % 64) (m.hdr.addr.toNat % 65536)
    else forwardVc s l vc.toNat mtTunnel m.hop.toNat m.hdr m.data)

/-- LINK_FAILURE (R336): causes 1 retry, 2 lanes, 3 silence of 200 ns, 4 peer report. -/
def execLinkFailure (link : BitVec 6) (cause : BitVec 3) (s : State) : Host.Outcome State Fault Refusal :=
  shaped (1 ≤ cause.toNat && cause.toNat ≤ 4) "LINK_FAILURE"
    (if cause = 3 ∧ s.now < (portAt s link.toNat).validAt + 200 then s else failLink s link.toNat cause.toNat)

/-- LANE_SPARE (R337): this end decides to replace a lane and asks the peer to follow. -/
def execLaneSpare (link : BitVec 6) (lane : BitVec 3) (s : State) : Host.Outcome State Fault Refusal :=
  finish (askSpare s link.toNat lane.toNat)

/-- LINK_RETRAIN (R361, R463): training of a link begins, or ends with the lanes that have locked. -/
def execLinkRetrain (link : BitVec 6) (lanes : Option (BitVec 9)) (s : State) : Host.Outcome State Fault Refusal :=
  finish (match lanes with
    | none => trainBegin s link.toNat
    | some n => trainEnd s link.toNat n.toNat)

/-- FLIT (R333 to R337). -/
def execFlit (link : BitVec 6) (lanes : List (List (BitVec 2))) (s : State) : Host.Outcome State Fault Refusal :=
  shaped (lanes.length = 9) "FLIT" (takeFlit s link.toNat lanes)

/-! ### Requests and responses (R343, R344) -/

/-- Bytes of a message's lines. -/
def hdrLen (h : Header) : Nat := (h.lines.toNat + 1) * 128

/-- Answer a request (R343): a READ_RESP or ACK goes back from the tower that the request named. -/
def answer (s : State) (h : Header) (ty status : Nat) (data : List PByte) : State :=
  let r : Header := { hdrTo h.src.toNat (deviceId s) with
    lines := h.lines, srcTower := h.dstTower, dstTower := h.srcTower, id := h.id, status := BitVec.ofNat 16 status,
    poison := poisonField data }
  (inject s h.dstTower.toNat ty r (pdata data)).getD s

/-- A request that the target refuses (R38): it counts at the ingress port. -/
def refuse (s : State) (m : Msg) (ty : Nat) : State := answer (count s (linkBase m.link.toNat) 9 1) m.hdr ty 1 []

/-- A READ for this module. One that meets withheld bytes waits at the slice (R210). -/
def takeRead (s : State) (m : Msg) : State :=
  let a := m.hdr.addr.toNat
  let n := hdrLen m.hdr
  if !rangeOk s Place.remoteOk a n then refuse s m mtReadResp
  else if withheldFrom s 4096 a n then
    { s with fab := { s.fab with waitReads := s.fab.waitReads ++ [(m.link.toNat, m.hdr)] } }
  else
    let r := memRead s a n
    answer r.1 m.hdr mtReadResp 0 r.2

/-- A WRITE or a PUT for this module: the lines are written, poison included, and acknowledged. -/
def takeWrite (s : State) (m : Msg) (ok : Place → Bool) : State :=
  let a := m.hdr.addr.toNat
  let n := hdrLen m.hdr
  if !rangeOk s ok a n then refuse s m mtAck
  else answer (memWrite s a (msgBytes m.hdr (bytesAt m.data 0 n))) m.hdr mtAck 0 []

/-- A REDUCE for this module (R224, R225): INT32 or INT64 by line, LACC-96 as one group of three lines. -/
def takeReduce (s : State) (m : Msg) : State :=
  let a := m.hdr.addr.toNat
  let n := hdrLen m.hdr
  let fmt := m.hdr.fmt.toNat
  let ok : Bool := if fmt = 0xA then n = 384 else fmt = 8 || fmt = 9
  if !ok || !reduceTargetOk s a n (fmt = 0xA) then refuse s m mtAck
  else answer (contribute s fmt a (msgBytes m.hdr (bytesAt m.data 0 n))) m.hdr mtAck 0 []

/-- READs that waited at a slice are taken up in order (R210). -/
def serveWaiting (s : State) : State :=
  s.fab.waitReads.foldl (fun s e => takeRead s ⟨BitVec.ofNat 6 e.1, 0, e.2, []⟩) { s with fab := { s.fab with waitReads := [] } }

/-- READ (R343). READs that wait come first. -/
def execRead (m : Msg) (s : State) : Host.Outcome State Fault Refusal :=
  finish (routed s m mtRead fun s => takeRead (serveWaiting s) m)

/-- WRITE (R343). -/
def execWrite (m : Msg) (s : State) : Host.Outcome State Fault Refusal :=
  finish (routed s m mtWrite fun s => takeWrite s m Place.remoteOk)

/-- REDUCE (R343). -/
def execReduce (m : Msg) (s : State) : Host.Outcome State Fault Refusal := finish (routed s m mtReduce fun s => takeReduce s m)

/-- PUT (R370): collective data for this module. -/
def execPut (m : Msg) (s : State) : Host.Outcome State Fault Refusal :=
  finish (routed s m mtPut fun s => takeWrite s m Place.remoteOk)

/-- Take the open request that a response names; a READ's by READ_RESP, another's by ACK. -/
def openReq (s : State) (m : Msg) (read : Bool) : Option (Req × State) :=
  (takeFirst (fun (q : Req) => q.id = m.hdr.id.toNat && q.read = read && q.remote / 2 ^ 48 = m.hdr.src.toNat) s.fab.reqs).map
    fun q => (q.1, { s with fab := { s.fab with reqs := q.2 } })

/-- A refused request is a window violation of the core it works for (R38, R344). -/
def refused (s : State) (q : Req) : State :=
  engTrap s q.core q.pc ⟨0x10, q.remote / 2 ^ 48, some (q.remote % 2 ^ 48)⟩

/-- The lines of a READ arrive: they go on to the command's destination. -/
def takeResp (s : State) (m : Msg) : State :=
  match openReq s m true with
  | none => s
  | some (q, s) =>
    if m.hdr.status = 1 then refused s q
    else
      match (coreL s q.core).eng.find? fun x => x.id = q.cmd with
      | some c =>
        let v : Mover := ⟨q.core, c, ⟨[], []⟩⟩
        (v.deliver s (q.dest - v.dst) (msgBytes m.hdr (bytesAt m.data 0 (q.lines * 128)))).1
      | none => s

/-- READ_RESP (R342). -/
def execReadResp (m : Msg) (s : State) : Host.Outcome State Fault Refusal :=
  finish (routed s m mtReadResp fun s => takeResp s m)

/-- ACK (R343): the request has been performed, or refused. -/
def execAck (m : Msg) (s : State) : Host.Outcome State Fault Refusal :=
  finish (routed s m mtAck fun s =>
    match openReq s m false with
    | some (q, s) => if m.hdr.status = 1 then refused s q else s
    | none => s)

end Sys2Proof.Machine
end

