-- ==== Sys2Proof/Machine/Collective.lean ====
section
/-! DEFINITION. The collective engines (R368 to R373): each row performs the next operation of the list that a tower's engine runs,
when it has that kind. -/

namespace Sys2Proof.Machine

/-- Places a collective operation may name: the fast tier and the CMEM apertures (R370). -/
def Place.collOk : Place → Bool
  | .fast _ => true
  | .cmem _ => true
  | _ => false

/-! ### Tags (R368, R370) -/

/-- Increment a tag counter of a tower's engine. -/
def tagInc (s : State) (t tag : Nat) : State :=
  modColl s t fun e => { e with tags := tput e.tags tag ((tget 0 e.tags tag + 1) % 2 ^ 32) }

/-- A TAG arrives with its step number: that of a later step than the engine's own is held, and so is one that arrives while no plan
runs. -/
def takeTag (s : State) (t tag step : Nat) : State :=
  let later : Bool := s.run.isNone || serialCmp (BitVec.ofNat 32 (curStep s)) (BitVec.ofNat 32 step) = -1
  if later then modColl s t fun e => { e with heldTags := e.heldTags ++ [(tag, step)] } else tagInc s t tag

/-- At a commit the tags are cleared and the held TAGs of the new step are applied. -/
def commitTags (s : State) : State :=
  let held := s.fab.coll.flatMap fun (e : Nat × CollEng) => e.2.heldTags.map fun (g : Nat × Nat) => (e.1, g.1, g.2)
  let empty (e : Nat × CollEng) : Nat × CollEng := (e.1, { e.2 with tags := [], heldTags := [], faulted := [] })
  let s := { s with fab := { s.fab with coll := s.fab.coll.map empty } }
  held.foldl (fun s g => takeTag s g.1 g.2.1 g.2.2) s

/-- TAG (R370). DEDUCED: log entry 60. -/
def execTag (m : Msg) (s : State) : Host.Outcome State Fault Refusal :=
  finish (routed s m mtTag fun s => takeTag s m.hdr.dstTower.toNat (m.hdr.addr.toNat % 64) m.hdr.step.toNat)

/-! ### Operations (R369, R370) -/

/-- The operation at the front of an engine: the run, its slot and the operation. -/
def collFront (s : State) (t : Nat) : Option (CollRun × (Nat × Nat × Nat) × CollOp) :=
  match runPlan s, (collEng s t).queue with
  | some p, r :: _ =>
    let sl := collSlot p r.entry t
    some (r, sl, collOp p sl.1 r.next)
  | _, _ => none

/-- A malformed operation, which is of class 0x12 (R369, R370). DEDUCED: log entry 60. -/
def collBad (o : CollOp) (dtype : Nat) : Bool :=
  !([0, 8, 9, 0xA, 0xFF].contains dtype) || o.kind = 0 || 4 < o.kind || o.rsv ≠ 0 || 64 ≤ o.tag || (o.kind = 3 && dtype = 0xFF) ||
    (o.kind ≠ 2 && (o.len = 0 || !aligned 128 o.len || 2 ^ 30 < o.len || (dtype = 0xA && !aligned 384 o.len)))

/-- A fault of an operation (R370): a window violation of the core that issued the COLL. An abandoned run's waits for the COLL that replays
it (R373); the engine goes on with the next run. DEDUCED: log entry 60. -/
def collFault (s : State) (t : Nat) (r : CollRun) (x : Trap) : State :=
  let s := modColl s t fun e =>
    { e with queue := e.queue.drop 1, faulted := if r.abandoned then e.faulted ++ [{ r with fault := some (x.cls, x.dev, x.addr) }] else e.faulted }
  if r.abandoned then s else engTrap s r.core r.pc x

/-- The front operation is done; after the last one the COLL leaves the engine (R368). -/
def collNext (s : State) (t : Nat) (n : Nat) : State :=
  modColl s t fun e => match e.queue with
    | r :: q => if n ≤ r.next + 1 then { e with queue := q } else { e with queue := { r with next := r.next + 1 } :: q }
    | [] => e

/-- Perform the front operation when it has the kind; a malformed one faults whatever row asks. -/
def collRow (s : State) (t kind : Nat) (f : State → CollRun → Nat → CollOp → State) : State :=
  match collFront s t with
  | none => s
  | some (r, sl, o) =>
    if collBad o sl.2.2 then collFault s t r (bare 0x12)
    else if o.kind = kind then f s r sl.2.1 o
    else s

/-- Send the PUT messages of an operation: up to four lines each (R342); none when no valid entry leads there (R344). -/
def putLines (t : Nat) (r : CollRun) (dest : Nat) : Nat → State → Nat → List PByte → Option State
  | 0, s, _, _ => some s
  | n + 1, s, off, l =>
    if l.isEmpty then some s
    else
      let d := l.take 512
      match sendReq s ⟨0, r.core, r.id, r.pc, t, false, dest + off, 0, d.length / 128⟩ mtPut 0 d with
      | some s => putLines t r dest n s (off + 512) (l.drop 512)
      | none => none

/-- PUT (R370): local bytes to a fabric address, then the tag of the engine of the tower that holds it. DEDUCED: log entry 60. -/
def collPut (s : State) (t : Nat) (r : CollRun) (n : Nat) (o : CollOp) : State :=
  let dev := o.a / 2 ^ 48
  let a := o.a % 2 ^ 48
  let b := o.b % 2 ^ 48
  let fail (d x : Nat) : State := collFault s t r ⟨0x10, d, some x⟩
  if !isSelf s (o.b / 2 ^ 48) then fail (o.b / 2 ^ 48) b
  else
    match badAddr s Place.collOk b o.len with
    | some x => fail 0xFFFF x
    | none =>
      if withheldFrom s 4096 b o.len then s else
      let d := memRead s b o.len
      if isSelf s dev then
        match badAddr s Place.collOk a o.len with
        | some x => fail 0xFFFF x
        | none => collNext (tagInc (memWrite d.1 a d.2) (addrTower a) o.tag) t n
      else
        match putLines t r o.a (o.len / 512 + 1) d.1 0 d.2 with
        | none => fail dev a
        | some s =>
          let h : Header := { hdrTo dev (deviceId s) with
            srcTower := BitVec.ofNat 4 t, dstTower := BitVec.ofNat 4 (addrTower a), addr := BitVec.ofNat 48 o.tag,
            step := BitVec.ofNat 32 (curStep s) }
          collNext ((inject s t mtTag h []).getD s) t n

/-- WAIT (R370). -/
def collWait (s : State) (t : Nat) (_r : CollRun) (n : Nat) (o : CollOp) : State :=
  let v := tget 0 (collEng s t).tags o.tag
  if o.count ≤ v then collNext (modColl s t fun e => { e with tags := tput e.tags o.tag (v - o.count) }) t n else s

/-- Elementwise sum in a dtype (R370). -/
def collSum (dtype : Nat) (a b : List Byte) : List Byte :=
  if dtype = 0 then fp32AddBytes a b else if dtype = 8 then wrapAddBytes 4 a b else if dtype = 9 then wrapAddBytes 8 a b
  else laccAddBytes a b

/-- The local operands of an ADD or COPY, when both may be reached. -/
def collLocalOp (s : State) (t : Nat) (r : CollRun) (o : CollOp) (f : Nat → Nat → State) : State :=
  let a := o.a % 2 ^ 48
  let b := o.b % 2 ^ 48
  let fail (d x : Nat) : State := collFault s t r ⟨0x10, d, some x⟩
  if !isSelf s (o.a / 2 ^ 48) then fail (o.a / 2 ^ 48) a
  else if !isSelf s (o.b / 2 ^ 48) then fail (o.b / 2 ^ 48) b
  else
    match badAddr s Place.collOk a o.len, badAddr s Place.collOk b o.len with
    | some x, _ => fail 0xFFFF x
    | none, some x => fail 0xFFFF x
    | none, none => if withheldFrom s 4096 a o.len || withheldFrom s 4096 b o.len then s else f a b

/-- Bytes of an element of a dtype. -/
def collWidth (dtype : Nat) : Nat := if dtype = 0xA then 12 else if dtype = 9 then 8 else 4

/-- Poison of either operand's element, byte by byte of the sum: it reaches every group of 32 bytes that the element lies in. -/
def collPoison (w : Nat) (x y : List PByte) : List Bool :=
  let bad := (chunks w (x.length / w + 1) (List.zipWith (fun p q => p.2 || q.2) x y)).map fun c => c.any id
  bad.flatMap fun b => List.replicate w b

/-- ADD (R370): b ← b + a; every output group that a poisoned input touches is poisoned. DEDUCED: log entry 60. -/
def collAdd (dtype : Nat) (s : State) (t : Nat) (r : CollRun) (n : Nat) (o : CollOp) : State :=
  collLocalOp s t r o fun a b =>
    let x := memRead s a o.len
    let y := memRead x.1 b o.len
    let v := collSum dtype (pdata y.2) (pdata x.2)
    collNext (memWrite y.1 b (v.zip (collPoison (collWidth dtype) x.2 y.2))) t n

/-- COPY (R370): b ← a. -/
def collCopy (s : State) (t : Nat) (r : CollRun) (n : Nat) (o : CollOp) : State :=
  collLocalOp s t r o fun a b => let x := memRead s a o.len; collNext (memWrite x.1 b x.2) t n

/-- dtype of the front run's slot. DEDUCED: log entry 60. -/
def collDtype (s : State) (t : Nat) : Nat := ((collFront s t).map fun f => f.2.1.2.2).getD 0xFF

/-- COLL_PUT (R370). -/
def execCollPut (tower : BitVec 4) (s : State) : Host.Outcome State Fault Refusal :=
  let t := tower.toNat
  finish (collRow s t 1 fun s r n o => collPut s t r n o)

/-- COLL_WAIT (R370). -/
def execCollWait (tower : BitVec 4) (s : State) : Host.Outcome State Fault Refusal :=
  let t := tower.toNat
  finish (collRow s t 2 fun s r n o => collWait s t r n o)

/-- COLL_ADD (R370). -/
def execCollAdd (tower : BitVec 4) (s : State) : Host.Outcome State Fault Refusal :=
  let t := tower.toNat
  finish (collRow s t 3 fun s r n o => collAdd (collDtype s t) s t r n o)

/-- COLL_COPY (R370). -/
def execCollCopy (tower : BitVec 4) (s : State) : Host.Outcome State Fault Refusal :=
  let t := tower.toNat
  finish (collRow s t 4 fun s r n o => collCopy s t r n o)

end Sys2Proof.Machine
end

