-- ==== Sys2Proof/Machine/PlanCheck.lean ====
section
/-! DEFINITION. The checks that LOAD_PLAN makes on a plan image (R62 to R66, R115, R221, R222, R281, R282, R362, R369, R393),
in the order of R66, and the plan they accept. -/

namespace Sys2Proof.Machine

/-! ### The refusal detail (R66) -/

/-- Detail of REJECTED: the check, what is named, the directory index of the section, and the index named. DEDUCED: log entry 75. -/
def rejDetail (check what sec idx : Nat) : Nat :=
  check + what * 2 ^ 8 + sec % 2 ^ 16 * 2 ^ 16 + (if what = 0xFF then 0 else idx % 2 ^ 32) * 2 ^ 32

/-- Every condition holds, or the detail. -/
def need (ok : Bool) (detail : Nat) : Option Nat := if ok then none else some detail

/-- The first detail that a list of entries gives, in order. -/
def firstRej {α : Type} (f : Nat → α → Option Nat) (l : List α) : Option Nat :=
  (indexed l).findSome? fun e => f e.1 e.2

def allZero (b : List Byte) : Bool := b.all (· = 0)

/-! ### The header (R62) -/

/-- Check 1 of R66: the header alone. -/
def headerOk (img : List Byte) (size : Nat) : Bool :=
  let f (o n : Nat) : Nat := leAt img o n
  leAt img 0 8 = 0x4E414C503631534B && f 8 4 = 0x10000 && f 12 4 = 256 && f 80 8 = size && f 80 8 ≤ 2 ^ 32 &&
  1 ≤ f 88 4 && f 88 4 ≤ 2 ^ 20 && 1 ≤ f 92 4 && f 92 4 ≤ 64 && f 104 2 ≤ 500 && f 106 1 ≤ 1 && f 107 1 = 0 &&
  f 108 4 < 8 && (bytesAt img 112 16).all (fun b => b.toNat ≤ 8) && 10000 ≤ f 192 8 && f 192 8 ≤ 10 ^ 10 &&
  allZero (bytesAt img 208 48)

/-- Check 2 of R66: the image digest, over the image with its own field read as zeros. -/
def digestOk (img : List Byte) : Bool :=
  shake256 64 (img.take 128 ++ List.replicate 64 0 ++ img.drop 192) = bytesAt img 128 64

/-! ### The section directory (R63) -/

/-- A section: its place in the directory, type, bytes and param. -/
structure Section where
  idx : Nat
  typ : Nat
  off : Nat
  size : Nat
  param : Nat
  rsv : Nat
deriving DecidableEq, Repr

def sectionsOf (img : List Byte) : List Section :=
  (List.range (leAt img 92 4)).map fun i =>
    let o := 256 + 32 * i
    ⟨i, leAt img o 2, leAt img (o + 8) 8, leAt img (o + 16) 8, leAt img (o + 24) 8, leAt img (o + 2) 2 + leAt img (o + 4) 4⟩

/-- The section of a type, with its bytes. -/
def findSection (ss : List Section) (typ : Nat) : Option Section := ss.find? fun x => x.typ = typ
def Section.bytes (x : Section) (img : List Byte) : List Byte := (img.drop x.off).take x.size

/-- One directory entry: a listed type, used once; reserved fields 0; a 64-byte aligned range after the directory, within the
image, that no earlier section overlaps. -/
def sectionOk (ss : List Section) (size : Nat) (x : Section) : Bool :=
  1 ≤ x.typ && x.typ ≤ 9 && x.rsv = 0 && x.off % 64 = 0 && decide (256 + 32 * ss.length ≤ x.off) &&
  decide (x.off + x.size ≤ size) &&
  (ss.take x.idx).all fun y => y.typ ≠ x.typ && (decide (y.off + y.size ≤ x.off) || decide (x.off + x.size ≤ y.off))

def directoryRej (ss : List Section) (size : Nat) (fabric : Bool) : Option Nat :=
  need (decide (256 + 32 * ss.length ≤ size)) (rejDetail 4 0xFF 0xFFFF 0) <|>
  firstRej (fun i x => need (sectionOk ss size x) (rejDetail 4 0xFF i 0)) ss <|>
  need ([1, 2, 3, 4, 7].all (fun t => (findSection ss t).isSome) && (!fabric || (findSection ss 6).isSome))
    (rejDetail 4 0xFF 0xFFFF 0)

/-! ### Mapped ranges under a plan's pool_units (R29 to R35) -/

/-- End of the mapped range of R29 that holds an address. -/
def mapEnd (pools : List Nat) (a : Nat) : Option Nat :=
  if a < 0x20000000000 then
    let t := a / 2 ^ 37
    let so := a % 2 ^ 37
    let p := pools.getD t 0
    if so < 0x1200000000 then
      if so % colBytes < privBytes p then some (a - so % colBytes + privBytes p) else none
    else if 0x1800000000 ≤ so ∧ so < 0x1800000000 + p * 2 ^ 32 then some (a - so + 0x1800000000 + p * 2 ^ 32)
    else none
  else if a < 0x21000000000 then
    if a % 0x100000000 < 0x10000000 then some (a - a % 0x100000000 + 0x10000000) else none
  else if 0x100000000000 ≤ a ∧ a < 0x120000000000 then some 0x120000000000
  else if 0x400000000000 ≤ a ∧ a < 0x7F0000000000 then some 0x7F0080000000
  else if 0x7F0000000000 ≤ a ∧ a < 0x7F0080000000 then some 0x7F0080000000
  else none

/-- Every address of a range is mapped and below a limit. -/
def mappedTo (pools : List Nat) (limit : Nat) : Nat → Nat → Nat → Bool
  | 0, _, _ => false
  | n + 1, a, e =>
    match mapEnd pools a with
    | none => false
    | some x => decide (a < limit) && (decide (e ≤ x) && decide (e ≤ limit) || decide (x < e) && mappedTo pools limit n x e)

/-- Fuel for the ranges of the address map: columns, pooled windows, apertures and the rest. -/
def mapFuel : Nat := 5000
def mapped (pools : List Nat) (a n : Nat) : Bool := mappedTo pools (2 ^ 64) mapFuel a (a + n)
def mappedFast (pools : List Nat) (a n : Nat) : Bool := mappedTo pools 0x20000000000 mapFuel a (a + n)

/-! ### Placement declarations (R64) -/

def placementOf (b : List Byte) (i : Nat) : Placement :=
  let o := 32 * i
  ⟨leAt b o 4, leAt b (o + 4) 1, leAt b (o + 5) 1, leAt b (o + 8) 8, leAt b (o + 16) 8, leAt b (o + 24) 8⟩

def placementsOf (b : List Byte) : List Placement := (List.range (b.length / 32)).map (placementOf b)

/-- Declaration i obeys R64, its range under the plan's pool_units aside. DEDUCED: log entry 76. -/
def placementOk (b : List Byte) (ps : List Placement) (i : Nat) (p : Placement) : Bool :=
  decide (p.id ≤ 0xFFFFFFFD) && decide (p.kind ≤ 4) && decide (p.regen ≤ 1) && leAt b (32 * i + 6) 2 = 0 &&
  p.base % 128 = 0 && p.size % 128 = 0 && decide (128 ≤ p.size) &&
  (decide (p.regenAddr < 0x20000000000) || decide (0x100000000000 ≤ p.regenAddr) && decide (p.regenAddr < 0x120000000000)) &&
  (ps.take i).all fun q => q.id ≠ p.id && (decide (q.base + q.size ≤ p.base) || decide (p.base + p.size ≤ q.base))

def placementRej (x : Section) (b : List Byte) : Option Nat :=
  let ps := placementsOf b
  need (b.length % 32 = 0) (rejDetail 4 0xFF x.idx 0) <|>
  firstRej (fun i p => need (placementOk b ps i p) (rejDetail 4 1 x.idx p.id)) ps

def mappedRej (x : Section) (pools : List Nat) (ps : List Placement) : Option Nat :=
  firstRej (fun _ p => need (mapped pools p.base p.size) (rejDetail 4 1 x.idx p.id)) ps

/-! ### Code (R115) and parameter blocks -/

def codeRej (x : Section) (b : List Byte) : Option Nat :=
  if x.param = 0 then
    need (b.length % 32 = 0 && decide (32 ≤ b.length) && decide (b.length ≤ 32 * 4096)) (rejDetail 4 0xFF x.idx 0)
  else
    need (x.param = 1 && decide (8 * 4096 ≤ b.length)) (rejDetail 4 0xFF x.idx 0) <|>
    firstRej (fun i _ =>
      let w := leAt b (8 * i) 8
      need (w / 2 ^ 44 = 0 && bits w 31 0 % 32 = 0 && decide (bits w 31 0 + 32 * (bits w 43 32 + 1) ≤ b.length))
        (rejDetail 4 2 x.idx i)) (List.replicate 4096 ())

def paramRej (x : Section) : Option Nat := need (x.size = 4096 * 256) (rejDetail 4 0xFF x.idx 0)

/-! ### The step table (R65, R282) -/

def stepEntOf (b : List Byte) (i : Nat) : StepEnt :=
  let o := 64 * i
  let f (k n : Nat) : Nat := leAt b (o + k) n
  ⟨f 0 8, f 8 4, f 12 4, f 16 4, f 20 4, f 24 4, f 28 4, f 32 1, f 33 1⟩

/-- The region_id list that follows the step table at the section's param. DEDUCED: log entry 76. -/
def idList (b : List Byte) (off : Nat) : List Nat := (List.range ((b.length - off) / 4)).map fun i => leAt b (off + 4 * i) 4

/-- The region_ids of a range. -/
def rangeIds (ids : List Nat) (first cnt : Nat) : List Nat := (ids.drop first).take cnt

/-- A step's entry obeys R65, and keeps pool regions out of its sets (R282). -/
def stepOk (b : List Byte) (ids : List Nat) (ps : List Placement) (fabric : Bool) (i : Nat) (e : StepEnt) : Bool :=
  let inn := rangeIds ids e.inFirst e.inCount
  let out := rangeIds ids e.outFirst e.outCount
  let red := rangeIds ids e.redFirst e.redCount
  let inList (f c : Nat) : Bool := decide (f + c ≤ ids.length)
  inList e.inFirst e.inCount && inList e.outFirst e.outCount && inList e.redFirst e.redCount &&
  (inn ++ out ++ red).all (fun r => ps.any fun p => p.id = r) && red.all (fun r => out.contains r) &&
  (inn ++ out).all (fun r => ps.all fun p => p.id ≠ r || p.kind ≠ 3) &&
  decide (e.scope ≤ b2n fabric) && decide (e.capEpoch ≤ 1) && allZero (bytesAt b (64 * i + 34) 30)

def stepRej (x : Section) (b : List Byte) (n : Nat) (ps : List Placement) (fabric : Bool) : Option Nat :=
  let ids := idList b x.param
  need (decide (64 * n ≤ x.param) && decide (x.param ≤ b.length)) (rejDetail 4 0xFF x.idx 0) <|>
  firstRej (fun i e => need (stepOk b ids ps fabric i e) (rejDetail 4 0 x.idx i)) ((List.range n).map (stepEntOf b))

/-- Check 5 of R66: in every step the output set is disjoint from the input set. -/
def disjointRej (x : Section) (ids : List Nat) (steps : List StepEnt) : Option Nat :=
  firstRej (fun i e =>
    let out := rangeIds ids e.outFirst e.outCount
    need ((rangeIds ids e.inFirst e.inCount).all fun r => !out.contains r) (rejDetail 5 0 x.idx i)) steps

/-! ### The collective schedule (R369) -/

/-- An operation of a list obeys the layout of R369. -/
def collOpOk (b : List Byte) (dtype o : Nat) : Bool :=
  let len := leAt b (o + 24) 8
  leAt b (o + 1) 1 = 0 && leAt b (o + 3) 1 = 0 && decide (leAt b (o + 2) 1 ≤ 63) && len % 128 = 0 && decide (128 ≤ len) &&
  decide (len ≤ 2 ^ 30) && (dtype ≠ 0xA || len % 384 = 0)

/-- The slot of a tower in an entry. -/
def collSlotOk (b : List Byte) (o : Nat) : Bool :=
  let w := leAt b o 8
  let n := bits w 47 32
  let d := bits w 55 48
  bits w 31 0 % 32 = 0 && bits w 63 56 = 0 && [0, 8, 9, 0xA, 0xFF].contains d &&
  (n = 0 || decide (bits w 31 0 + 32 * n ≤ b.length)) &&
  (List.range n).all fun j => collOpOk b d (bits w 31 0 + 32 * j)

def collRej (x : Section) (b : List Byte) : Option Nat :=
  need (decide (1 ≤ x.param) && decide (x.param ≤ 4096) && decide (128 * x.param ≤ b.length)) (rejDetail 4 0xFF x.idx 0) <|>
  firstRej (fun e _ => need ((List.range 16).all fun t => collSlotOk b (128 * e + 8 * t)) (rejDetail 4 2 x.idx e))
    (List.replicate x.param ())

/-! ### The route set (R362) -/

def weightsOk (b : List Byte) (l : Nat) : Bool :=
  let v (i : Nat) : Nat := leAt b (256 + 4 * l + i) 1
  (List.range 3).all (fun i => decide (1 ≤ v i) && decide (v i ≤ 62)) && decide (v 0 + v 1 + v 2 ≤ 64) && v 3 = 0

def routeRej (x : Section) (b : List Byte) : Option Nat :=
  need (b.length = 512 && x.param = 0 && allZero (bytesAt b 68 4) && allZero (bytesAt b 152 104) &&
    decide (leAt b 80 72 < 2 ^ 513)) (rejDetail 4 0xFF x.idx 0) <|>
  firstRej (fun l _ => need (weightsOk b l) (rejDetail 4 2 x.idx l)) (List.replicate 64 ())

/-! ### The power profile (R393) -/

/-- The step an entry names, if it is a cap epoch. -/
def profileEntryOk (b : List Byte) (steps : List StepEnt) (j : Nat) : Bool :=
  let o := 64 + 32 * j
  let si := leAt b o 4
  let lim := leAt b (o + 4) 1
  (match steps[si]? with
    | some e => e.capEpoch = 1
    | none => false) &&
  (j = 0 || decide (leAt b (o - 32) 4 < si)) && decide (1 ≤ lim) && decide (lim ≤ 64) && allZero (bytesAt b (o + 5) 3) &&
  (bytesAt b (o + 8) 16).all (fun v => v.toNat ≤ 64) && allZero (bytesAt b (o + 24) 8)

def profileRej (x stepSec : Section) (b : List Byte) (steps : List StepEnt) : Option Nat :=
  let n := leAt b 4 4
  let l := leAt b 8 1
  need (x.param = 0 && decide (64 ≤ b.length) && leAt b 0 4 = 1 && decide (n ≤ steps.length) && decide (1 ≤ l) &&
    decide (l ≤ 64) && allZero (bytesAt b 9 55) && decide (64 + 32 * n ≤ b.length)) (rejDetail 4 0xFF x.idx 0) <|>
  firstRej (fun j _ => need (profileEntryOk b steps j) (rejDetail 4 2 x.idx j)) (List.replicate n ()) <|>
  need (steps.any fun e => e.capEpoch = 1) (rejDetail 4 0xFF stepSec.idx 0)

/-- The entry of a plan's power profile for a step: plan module limit and tower limits (R393). -/
def profileAt (p : Plan) (step : Nat) : Option (Nat × List Nat) :=
  ((List.range (leAt p.profileSec 4 4)).find? fun j => leAt p.profileSec (64 + 32 * j) 4 = step).map fun j =>
    let o := 64 + 32 * j
    (leAt p.profileSec (o + 4) 1, (bytesAt p.profileSec (o + 8) 16).map fun v => if v = 0 then 64 else v.toNat)

/-! ### The KV page pool (R281, R282) -/

/-- The structures of a pool: base and size. -/
def poolParts (p : Pool) : List (Nat × Nat) :=
  [(p.desc, 32 * p.pages), (p.seq, 8 * p.seqs), (p.table, 2 * p.seqs * p.slotBytes), (p.ring, 4 * 2 ^ p.ringLog),
   (p.rel, 4 * 2 ^ p.relLog), (p.ctrl, 64)]

/-- A structure of a pool of a tower is well placed: aligned, in the tower's fast tier, within a region of kind 3. -/
def poolPartOk (ps : List Placement) (t : Nat) (q : Nat × Nat) : Bool :=
  q.1 % 128 = 0 && decide (t * 2 ^ 37 ≤ q.1) && decide (q.1 + q.2 ≤ (t + 1) * 2 ^ 37) &&
  ps.any fun p => p.kind = 3 && decide (p.base ≤ q.1) && decide (q.1 + q.2 ≤ p.base + p.size)

def within (lo v hi : Nat) : Bool := decide (lo ≤ v) && decide (v ≤ hi)

def poolOk (ps : List Placement) (pools : List Pool) (i : Nat) (p : Pool) : Bool :=
  within 0 p.tower 15 && within 0 p.idx 15 && (pools.take i).all (fun q => q.idx ≠ p.idx) && within 1 p.maxPages 4096 &&
  (List.range 8).any (fun k => p.tokBytes = 128 * 2 ^ k) && within 6 p.ringLog 20 && within 6 p.relLog 20 &&
  decide (p.pages ≤ 2 ^ p.relLog) && within 1 p.pages 524288 && within 1 p.seqs (2 ^ 20) &&
  (poolParts p).all (poolPartOk ps p.tower)

def poolRej (x : Section) (b : List Byte) (ps : List Placement) : Option Nat :=
  let pools := (List.range x.param).map (poolOf b)
  need (within 1 x.param 16 && b.length = 64 * x.param) (rejDetail 4 0xFF x.idx 0) <|>
  firstRej (fun i p => need (poolOk ps pools i p) (rejDetail 4 2 x.idx i)) pools

/-! ### Pin declarations (R221, R222) -/

/-- Base, size and flags of the pin entries. -/
def pinsOf (b : List Byte) : List (Nat × Nat × Nat) :=
  (List.range (b.length / 32)).map fun i => (leAt b (32 * i) 8, leAt b (32 * i + 8) 8, leAt b (32 * i + 16) 4)

/-- Place of a fast-tier address under given pool_units (R32, R204). -/
def planKey (pools : List Nat) (a : Nat) : Nat :=
  let t := a / 2 ^ 37
  let so := a % 2 ^ 37
  if so < 0x1200000000 then a
  else
    let q := pooledPlace (so - 0x1800000000) (pools.getD t 0)
    placeKey t q.1 q.2

/-- Line keys of a pin entry. -/
def pinLines (pools : List Nat) (e : Nat × Nat × Nat) : List Nat :=
  (List.range (e.2.1 / 128)).map fun i => planKey pools (e.1 + 128 * i) / 128

/-- The quota cell of a line: tower, logical column and set (R203). -/
def pinCell (lk : Nat) : Nat :=
  let k := lk * 128
  keyTower k * 2 ^ 20 + keyCol k * 2 ^ 10 + llcSet (keyOff k / 128)

/-- Count the lines of an entry that no earlier entry named; none when a count goes above 12. -/
def pinCount (seen : List Nat × Tbl Nat) : List Nat → Option (List Nat × Tbl Nat)
  | [] => some seen
  | k :: r =>
    if seen.1.contains k then pinCount seen r
    else
      let c := tget 0 seen.2 (pinCell k) + 1
      if 12 < c then none else pinCount (k :: seen.1, tput seen.2 (pinCell k) c) r

def pinEntryOk (b : List Byte) (pools : List Nat) (j : Nat) (e : Nat × Nat × Nat) : Bool :=
  e.1 % 128 = 0 && e.2.1 % 128 = 0 && decide (128 ≤ e.2.1) && decide (e.2.2 ≤ 2) && allZero (bytesAt b (32 * j + 20) 12) &&
  mappedFast pools e.1 e.2.1

/-- Entries in order: the first that breaks R221 or R222. -/
def pinScan (b : List Byte) (pools : List Nat) (sec : Nat) : Nat → List (Nat × Nat × Nat) → List Nat × Tbl Nat → Option Nat
  | _, [], _ => none
  | j, e :: r, seen =>
    if !pinEntryOk b pools j e then some (rejDetail 6 2 sec j)
    else
      match pinCount seen (pinLines pools e) with
      | none => some (rejDetail 6 2 sec j)
      | some seen => pinScan b pools sec (j + 1) r seen

def pinRej (x : Section) (b : List Byte) (pools : List Nat) : Option Nat :=
  need (x.param = 0 && b.length % 32 = 0) (rejDetail 6 0xFF x.idx 0) <|> pinScan b pools x.idx 0 (pinsOf b) ([], [])

/-! ### All checks in order (R66) -/

/-- The bytes of a section of a type; none of the image when it is absent. -/
def secBytes (img : List Byte) (ss : List Section) (typ : Nat) : List Byte :=
  match findSection ss typ with
  | some x => x.bytes img
  | none => []

/-- The plan an image describes. DEDUCED: log entry 76. -/
def planOf (img : List Byte) : Plan :=
  let ss := sectionsOf img
  let b (t : Nat) : List Byte := secBytes img ss t
  let par (t : Nat) : Nat := ((findSection ss t).map (·.param)).getD 0
  let fl := leAt img 108 4
  { size := leAt img 80 8, shapeDigest := bytesAt img 16 64, stepCount := leAt img 88 4,
    seed := BitVec.ofNat 64 (leAt img 96 8), reserve := leAt img 104 2, profile := leAt img 106 1, sloe := bit fl 0,
    fabric := bit fl 1, capFollow := bit fl 2, pools := (bytesAt img 112 16).map (·.toNat), watchdog := leAt img 192 8,
    copyRate := leAt img 200 8, places := placementsOf (b 3), steps := (List.range (leAt img 88 4)).map (stepEntOf (b 4)),
    ids := idList (b 4) (par 4), code := b 1, codeParam := par 1, params := b 2, coll := b 5, routes := b 6,
    profileSec := b 7, pins := pinsOf (b 8), kv := b 9, digest := bytesAt img 128 64, stale := false }

/-- A check on the section of a type, when the image has one. -/
def onSection (img : List Byte) (ss : List Section) (typ : Nat) (f : Section → List Byte → Option Nat) : Option Nat :=
  (findSection ss typ).bind fun x => f x (x.bytes img)

/-- Check 4 of R66. DEDUCED: log entry 75. -/
def sectionsRej (img : List Byte) (p : Plan) : Option Nat :=
  let ss := sectionsOf img
  let stepSec := (findSection ss 4).getD ⟨0, 4, 0, 0, 0, 0⟩
  directoryRej ss img.length p.fabric <|>
  onSection img ss 1 codeRej <|>
  onSection img ss 2 (fun x _ => paramRej x) <|>
  onSection img ss 3 placementRej <|>
  onSection img ss 4 (fun x b => stepRej x b p.stepCount p.places p.fabric) <|>
  onSection img ss 5 collRej <|>
  onSection img ss 6 routeRej <|>
  onSection img ss 7 (fun x b => profileRej x stepSec b p.steps) <|>
  onSection img ss 9 (fun x b => poolRej x b p.places) <|>
  onSection img ss 3 (fun x _ => mappedRej x p.pools p.places)

/-- What the checks of R66 make of an image: the plan, or the status and detail of the first check that fails. DEDUCED: log entry 75. -/
def checkPlan (s : State) (img : List Byte) (size : Nat) : Except (Nat × Nat) Plan :=
  if !headerOk img size then .error (stBadImage, 0)
  else if !digestOk img then .error (stDigest, 0)
  else if bytesAt img 16 64 ≠ shapeDigest s then .error (stShape, 0)
  else
    let p := planOf img
    let ss := sectionsOf img
    let bad := sectionsRej img p <|> onSection img ss 4 (fun x _ => disjointRej x p.ids p.steps) <|>
      onSection img ss 8 (fun x b => pinRej x b p.pools)
    match bad with
    | some d => .error (stRejected, d)
    | none => .ok p

end Sys2Proof.Machine
end

