-- ==== Sys2Proof/Machine/HostCmd.lean ====
section
/-! DEFINITION. Host commands (R66 to R68, R86 to R93, R316, R362, R392, R420): the doorbells, the entries of the command ring,
each command, and the records. -/

namespace Sys2Proof.Machine

/-! ### Doorbells and entries (R87, R88) -/

/-- CMD_TAIL (R87): a doorbell write. -/
def execCmdTail (tail : W32) (s : State) : Host.Outcome State Fault Refusal := finish (doorbell s 0 tail.toNat)

/-- REC_HEAD (R87): a doorbell write. -/
def execRecHead (head : W32) (s : State) : Host.Outcome State Fault Refusal := finish (doorbell s 1 head.toNat)

/-- Byte ranges of a command's operands: offset and length (R88); none for an unlisted opcode. -/
def operandBytes (op : Nat) : Option (List (Nat × Nat)) :=
  match op with
  | 0 => some []
  | 1 => some [(8, 1), (16, 24)]
  | 2 => some [(8, 1), (12, 20)]
  | 3 => some []
  | 4 => some [(8, 1)]
  | 5 => some [(8, 1), (16, 24)]
  | 6 => some []
  | 7 => some [(16, 16)]
  | 8 => some [(8, 2), (16, 16)]
  | _ => none

/-- An entry has a listed opcode and no nonzero reserved byte or bit (R88). -/
def entryOk (b : List Byte) : Bool :=
  match operandBytes (leAt b 0 1) with
  | none => false
  | some l =>
    ((indexed b).all fun e =>
      e.1 = 0 || (4 ≤ e.1 && e.1 < 8) || e.2 = 0 || l.any fun q => q.1 ≤ e.1 && decide (e.1 < q.1 + q.2)) &&
    (leAt b 0 1 ≠ 5 || leAt b 8 1 ≤ 1)

/-- The next entry has been read (R88): kept for its start, or completed with BAD_COMMAND. -/
def takeEntry (s : State) (x : Nat) (d : HostData) (failed : Bool) : State :=
  if failed || !d.poison.isEmpty then
    produce s x (if failed || d.poison.contains 0 then 0 else leAt d.bytes 4 4) stBadCommand 0 1
  else if !entryOk d.bytes then produce s x (leAt d.bytes 4 4) stBadCommand 0 0
  else { s with cmd := { s.cmd with entries := s.cmd.entries ++ [⟨x, d.bytes, s.cmd.reads⟩], reads := s.cmd.reads + 1 } }

/-- Entries are read: RUN, the ring enabled and not empty, and requests to the host not held. -/
def entryDue (s : State) : Bool := inRun s && ringOn s && busMaster s && cmdHead s ≠ s.cmd.cmdTail

/-- COMMAND_ENTRY_READ (R87, R88). A read that did not fail carries 64 bytes. DEDUCED: log entry 77. -/
def execCommandEntryRead (entry : HostData) (failed : Bool) (s : State) : Host.Outcome State Fault Refusal :=
  shaped (failed || entry.bytes.length = 64) "COMMAND_ENTRY_READ" (
    if entryDue s then
      let x := cmdHead s
      let a := getField (regGet s (stnBase + 0x1000)) 63 6 * 64 + 64 * (x % ringSize s)
      let s := fset (emit s (.hostRead a 64)) (stnBase + 0x1008) 63 32 ((x + 1) % 2 ^ 32)
      takeEntry s x entry failed
    else s)

/-! ### Starting commands (R89) -/

/-- The command an entry starts. -/
def activeOf (e : Entry64) : Active := ⟨e.index, leAt e.bytes 4 4, leAt e.bytes 0 1, leAt e.bytes 8 1, e.bytes, e.num⟩

/-- Start the first entry when it holds the command, and act on it. -/
def withEntry (s : State) (op : Nat) (f : State → Active → State) : State :=
  match s.cmd.entries with
  | e :: rest =>
    if leAt e.bytes 0 1 = op then
      let a := activeOf e
      f { s with cmd := { s.cmd with entries := rest, active := s.cmd.active ++ [a] } } a
    else s
  | [] => s

/-- Act on the oldest command in progress that waited and need wait no longer; else start the first entry. DEDUCED: log entry 77. -/
def withWaiting (s : State) (op : Nat) (ready : Active → Bool) (f : State → Active → State) : State :=
  match s.cmd.active.find? fun a => a.op = op && !a.runs s && ready a with
  | some a => f s a
  | none => withEntry s op f

/-- A LOAD_PLAN into a handle is in progress, that of `index` aside (R68). -/
def loadingH (s : State) (h : Nat) : Bool := s.cmd.active.any fun a => a.op = 1 && a.handle = h
def loadingOther (s : State) (a : Active) : Bool :=
  s.cmd.active.any fun b => b.op = 1 && b.handle = a.handle && b.num ≠ a.num
def planIn (s : State) (h : Nat) : Option Plan := tget? s.plans h
def handleOk (h : Nat) : Bool := 1 ≤ h && h ≤ 8

/-- NOP (R88). -/
def execNop (s : State) : Host.Outcome State Fault Refusal := finish (withEntry s 0 fun s a => endActive s a stOk 0 0)

/-- FENCE (R89): it ends when every earlier command has ended. -/
def execFence (s : State) : Host.Outcome State Fault Refusal :=
  finish (withEntry s 6 fun s _ => endFences s.cmd.active.length s)

/-! ### LOAD_PLAN (R66, R68) -/

/-- Operands of LOAD_PLAN: host address, size and slow-tier destination. -/
def loadFrom (a : Active) : Nat := leAt a.bytes 16 8
def loadSize (a : Active) : Nat := leAt a.bytes 24 8
def loadDest (a : Active) : Nat := leAt a.bytes 32 8

def loadOperandsOk (a : Active) : Bool :=
  loadFrom a % 64 = 0 && 256 ≤ loadSize a && loadSize a ≤ 2 ^ 32 && loadDest a % 4096 = 0 &&
  0x100000000000 ≤ loadDest a && loadDest a + loadSize a ≤ 0x120000000000

/-- LOAD_PLAN (R66, R68): the checks of the handle and of the operands; the copy of the image begins. -/
def execLoadPlan (s : State) : Host.Outcome State Fault Refusal :=
  finish (withEntry s 1 fun s a =>
    if !handleOk a.handle || (planIn s a.handle).isSome || loadingOther s a then endActive s a stBadHandle 0 0
    else if !loadOperandsOk a then endActive s a stBadCommand 0 0
    else readHost s (loadFrom a) (loadSize a))

/-- A LOAD_PLAN has failed: commands that waited for its handle find no plan (R68). DEDUCED: log entry 77. -/
def loadFailed (s : State) (a : Active) (status detail : Nat) : State :=
  let s := endActive s a status 0 detail
  let ws := s.cmd.active.filter fun b => (b.op = 2 || b.op = 4) && b.handle = a.handle && !b.runs s
  ws.foldl (fun s b => endActive (if b.op = 2 then setAlert s 2 else s) b stBadHandle 0 0) s

/-- The image has been copied (R66): a poisoned group ends the command; else the checks decide. -/
def imageCopied (s : State) (a : Active) (d : HostData) : State :=
  let s := memWrite s (loadDest a) (hostBytes d)
  let bad := d.poison.filter fun g => 32 * g < loadSize a
  match bad with
  | g :: r => loadFailed s a stDigest (1 + 32 * r.foldl Nat.min g * 2 ^ 32)
  | [] =>
    match checkPlan s d.bytes (loadSize a) with
    | .error e => loadFailed s a e.1 e.2
    | .ok p => endActive { s with plans := tput s.plans a.handle p } a stOk 0 0

/-- The LOAD_PLAN of a ring index whose image is being copied. -/
def loadAt (s : State) (index : Nat) : Option Active := s.cmd.active.find? fun a => a.op = 1 && a.index = index

/-- PLAN_IMAGE_COPIED (R66): the image's bytes have arrived. -/
def execPlanImageCopied (index : W32) (image : HostData) (s : State) : Host.Outcome State Fault Refusal :=
  match loadAt s index.toNat with
  | some a =>
    shaped (image.bytes.length = loadSize a) "PLAN_IMAGE_COPIED" (if busMaster s then imageCopied s a image else s)
  | none => finish s

/-! ### LAUNCH_PLAN, ABORT_PLAN and UNLOAD_PLAN (R67, R68, R72, R89) -/

/-- The reason for which the fabric checks refuse a plan (R362); none when all hold. -/
def fabricReason (s : State) (p : Plan) : Option Nat :=
  let st := regGet s (stnBase + 0x2010)
  let digest := (List.range 8).flatMap fun i => leBytes 8 (regGet s (stnBase + 0x2040 + 8 * i)).toNat
  if getField st 0 0 = 0 then some 1
  else if bytesAt p.routes 0 64 ≠ digest || (routeEntries s).any (fun g => fget s g 57 56 ≠ 0) then some 2
  else if getField st 1 1 = 0 then some 3
  else if leAt p.routes 64 2 ≠ fget s (stnBase + 0x2000) 31 16 || leAt p.routes 66 2 ≠ fabNb s then some 4
  else none

/-- The job table as LAUNCH_PLAN reads it (R316): the state after the read, and its bytes; none while it is not enabled. DEDUCED: log entry 77. -/
def readJobs (s : State) : State × List Byte :=
  if fbit s (qncBase + 0x108) 31 then
    let r := memRead s (getField (regGet s (qncBase + 0x100)) 47 6 * 64) (64 * fget s (qncBase + 0x108) 10 0)
    (r.1, pdata r.2)
  else (s, [])

/-- The first entry of the job table that breaks R316. -/
def badJob (s : State) (p : Plan) (b : List Byte) : Option Nat :=
  (indexed (jobDefs b (b.length / 64))).findSome? fun e => if jobDefOk s p b e.1 e.2 then none else some e.1

/-- A LAUNCH_PLAN ends without a plan (R495). DEDUCED: log entry 77. -/
def refuseLaunch (s : State) (a : Active) (status detail : Nat) : State := setAlert (endActive s a status 0 detail) 2

/-- Pin one line at its slice: preload fetches it, zero installs it as zero and dirty. DEDUCED: log entry 83. -/
def pinLine (s : State) (a flags : Nat) : State :=
  match place s a with
  | .fast k =>
    let lk := k / 128
    let s := if flags = 1 then fillLine (ensureLine s lk) lk
      else if flags = 2 then lineWrite s a 0 (List.replicate 128 (0, false))
      else s
    if lineHeld s lk then linePut s lk { lineAt s lk with pinned := true } else s
  | _ => s

/-- Apply every pin entry of a plan. DEDUCED: log entry 83. -/
def applyPins (s : State) (p : Plan) : State :=
  let keys := p.pins.flatMap (pinLines p.pools)
  let s := { s with llc := { s.llc with pins := keys.foldl sadd s.llc.pins } }
  p.pins.foldl (fun s e => (List.range (e.2.1 / 128)).foldl (fun s i => pinLine s (e.1 + 128 * i) e.2.2) s) s

/-- A LAUNCH_PLAN is accepted (R34, R68, R223): the pools take the plan's split, the slices apply its pins, and the plan waits for its start
time. DEDUCED: log entry 83. -/
def acceptLaunch (s : State) (a : Active) (p : Plan) (jobs : List JobDef) : State :=
  let s := (List.range 16).foldl (fun s t => setPoolUnits s t (p.pools.getD t 0)) s
  let s := applyPins (lockWindows s 1) p
  let r : Run := { handle := a.handle, tag := a.tag, num := a.num, iters := leAt a.bytes 16 4,
                   startAt := leAt a.bytes 24 8, started := false, stepIdx := leAt a.bytes 12 4, iter := 0,
                   stepNo := leAt a.bytes 20 4, stepStart := 0, abort := false, rel := [], sigs := [], held := false,
                   toPark := [], toResume := [], ending := none }
  { s with run := some r, qnc := { s.qnc with defs := jobs, jobs := [], tries := [], late := false } }

/-- The checks of LAUNCH_PLAN after its handle check, in the order of R68. -/
def launchPlan (s : State) (a : Active) (p : Plan) : State :=
  if s.run.isSome || rcvBusy s then refuseLaunch s a stBusy 0
  else if p.stale then refuseLaunch s a stShape 0
  else if p.stepCount ≤ leAt a.bytes 12 4 then refuseLaunch s a stBadCommand 0
  else
    match (if p.fabric then fabricReason s p else none) with
    | some n => refuseLaunch s a stRejected (8 + n * 2 ^ 32)
    | none =>
      let r := readJobs s
      match badJob r.1 p r.2 with
      | some e => refuseLaunch r.1 a stRejected (7 + e * 2 ^ 32)
      | none => acceptLaunch r.1 a p (jobDefs r.2 (r.2.length / 64))

/-- LAUNCH_PLAN (R68, R89): a handle whose load is in progress is waited for. -/
def execLaunchPlan (s : State) : Host.Outcome State Fault Refusal :=
  finish (withWaiting s 2 (fun a => !loadingH s a.handle) fun s a =>
    match planIn s a.handle with
    | some p => if handleOk a.handle then launchPlan s a p else refuseLaunch s a stBadHandle 0
    | none => if handleOk a.handle && loadingH s a.handle then s else refuseLaunch s a stBadHandle 0)

/-- ABORT_PLAN (R89): at the next commit, or at once when no plan runs. DEDUCED: log entry 77. -/
def execAbortPlan (s : State) : Host.Outcome State Fault Refusal :=
  finish (withEntry s 3 fun s a =>
    match s.run with
    | none => endActive s a stOk 0 0
    | some r => { s with run := some { r with abort := true } })

/-- UNLOAD_PLAN (R68, R89). -/
def execUnloadPlan (s : State) : Host.Outcome State Fault Refusal :=
  finish (withWaiting s 4 (fun a => !loadingH s a.handle) fun s a =>
    if (planIn s a.handle).isNone || !handleOk a.handle then
      if handleOk a.handle && loadingH s a.handle then s else endActive s a stBadHandle 0 0
    else if ((s.run.map fun r => decide (r.handle = a.handle))).getD false then endActive s a stBusy 0 0
    else endActive { s with plans := tdel s.plans a.handle } a stOk 0 0)

/-! ### COPY (R89, R90, R420) -/

def copySrc (a : Active) : Nat := leAt a.bytes 16 8
def copyDst (a : Active) : Nat := leAt a.bytes 24 8
def copyLen (a : Active) : Nat := leAt a.bytes 32 8
def copyBeside (a : Active) : Bool := leAt a.bytes 8 1 = 1

/-- An address of the host window (R29). -/
def inHostWin (a : Nat) : Bool := 0x400000000000 ≤ a && a < 0x7F0000000000

/-- A COPY under way: the bytes copied, the poisoned groups counted, and the last source group counted. -/
structure CopyRun where
  s : State
  copied : Nat
  groups : Nat
  last : Option Nat
  bad : Bool
deriving DecidableEq, Repr

/-- The source groups that are poisoned among bytes that start at address a. -/
def poisonGroups (a : Nat) (l : List PByte) : List Nat :=
  ((indexed l).foldl (fun (acc : List Nat) (e : Nat × PByte) => if e.2.2 then sadd acc ((a + e.1) / 32) else acc) [])

/-- Read 128 bytes of a COPY's source: memory, or the host's data. -/
def copyRead (s : State) (a : Nat) (host : List PByte) : State × List PByte :=
  if inHostWin a then (emit s (.hostRead (a - 0x400000000000 + getField (regGet s (pciBase + 0x120)) 63 12 * 4096) 128), host)
  else memRead s a 128

/-- Copy one unit of 128 bytes: a range outside what engines may reach ends the COPY (R31, R45). DEDUCED: log entry 78. -/
def copyUnit (src dst : Nat) (host : List PByte) (c : CopyRun) (i : Nat) : CopyRun :=
  let a := src + 128 * i
  let b := dst + 128 * i
  if c.bad || !rangeOk c.s Place.engineOk a 128 || !rangeOk c.s Place.engineOk b 128 then { c with bad := true }
  else
    let r := copyRead c.s a ((host.drop (128 * i)).take 128)
    let gs := poisonGroups a r.2
    let new := gs.filter fun g => c.last ≠ some g
    ⟨writeOut r.1 b (spread b r.2), c.copied + 128, c.groups + new.length, gs.getLast?, false⟩

/-- Do the whole COPY and complete it (R90). DEDUCED: log entry 78. -/
def copyRun (s : State) (a : Active) (host : HostData) : State :=
  let c := (List.range (copyLen a / 128)).foldl (copyUnit (copySrc a) (copyDst a) (hostBytes host)) ⟨s, 0, 0, none, false⟩
  endActive c.s a (if c.bad then stWindow else stOk) 0 (c.copied % 2 ^ 48 + Nat.min 0xFFFF c.groups * 2 ^ 48)

/-- A COPY acts (R89): beside a plan at its rate, or when no plan runs; a COPY of the host waits while requests are held (R484). -/
def copyStart (s : State) (a : Active) (host : HostData) : State :=
  if copyLen a % 128 ≠ 0 then endActive s a stBadCommand 0 0
  else if s.run.isSome && !copyBeside a then s
  else if ((runPlan s).map fun p => decide (p.copyRate = 0)).getD false then endActive s a stBusy 0 0
  else if (inHostWin (copySrc a) && !busMaster s) || withheldFrom s 4096 (copySrc a) (copyLen a) then s
  else copyRun s a host

/-- The COPY that the row acts on: one that waits and may go on, or the first entry. -/
def copyReady (s : State) (a : Active) : Bool :=
  (s.run.isNone || copyBeside a) && (busMaster s || !inHostWin (copySrc a))
def copyNext (s : State) : Option Active :=
  match s.cmd.active.find? fun a => a.op = 5 && copyReady s a with
  | some a => some a
  | none => (s.cmd.entries.head?.filter fun e => leAt e.bytes 0 1 = 5).map activeOf

/-- The host's data cover the whole source when it lies in the host window. DEDUCED: log entry 78. -/
def copyShape (s : State) (src : HostData) : Bool :=
  match copyNext s with
  | some a => !inHostWin (copySrc a) || src.bytes.length = copyLen a
  | none => true

/-- COPY (R88 to R90, R420). -/
def execCopy (src : HostData) (s : State) : Host.Outcome State Fault Refusal :=
  shaped (copyShape s src) "COPY" (withWaiting s 5 (copyReady s) fun s a => copyStart s a src)

/-! ### SET_PROFILE and QUERY (R88, R392) -/

/-- Byte offsets at which an operator profile of a given length breaks R392. DESIGN CHOICE: log entry 79. -/
def profileFaults (b : List Byte) (len : Nat) (poison : List Nat) : List Nat :=
  let n := b.length
  let f (o lo hi : Nat) : List Nat := if n < o + 4 ∨ (lo ≤ leAt b o 4 ∧ leAt b o 4 ≤ hi) then [] else [o]
  let flag (o m : Nat) : List Nat := if leAt b o 1 / m = 0 then [] else [o]
  (if len = 64 then [] else [Nat.min len 64]) ++ f 0 1 1 ++ f 4 10 11500 ++ f 8 10 11500 ++ f 12 0 9000 ++
  f 16 1500 11500 ++ flag 20 2 ++ flag 21 1 ++ flag 22 1 ++ flag 23 1 ++
  (List.range 32).flatMap (fun i => flag (32 + i) 1) ++ (poison.filter fun g => 32 * g < n).map (32 * ·)

def profileOf (b : List Byte) : Profile :=
  ⟨leAt b 4 4, leAt b 8 4, leAt b 12 4, leAt b 16 4, leAt b 20 4, leAt b 24 8⟩

/-- An operator profile has been read (R392): it waits for the next cap epoch, with its host cap limit. DEDUCED: log entry 65. -/
def takeProfile (s : State) (a : Active) (d : HostData) : State :=
  match profileFaults d.bytes (leAt a.bytes 24 8) d.poison with
  | x :: r => endActive s a stRejected 0 (9 + r.foldl Nat.min x * 2 ^ 32)
  | [] =>
    let p := profileOf d.bytes
    endActive (setWant { s with pwr := { s.pwr with profNext := some p } } 2 (limW p.cap)) a stOk 0 0

/-- The length of the record that SET_PROFILE reads. DESIGN CHOICE: log entry 79. -/
def profileRead (a : Active) : Nat := Nat.min 64 (leAt a.bytes 24 8)

/-- The first entry is a SET_PROFILE that names n bytes. -/
def profileShape (s : State) (n : Nat) : Bool :=
  match s.cmd.entries with
  | e :: _ => leAt e.bytes 0 1 ≠ 7 || n = profileRead (activeOf e)
  | [] => true

/-- SET_PROFILE (R392): the record's bytes have arrived. DESIGN CHOICE: log entry 79. -/
def execSetProfile (record : HostData) (s : State) : Host.Outcome State Fault Refusal :=
  shaped (profileShape s record.bytes.length) "SET_PROFILE" (
    if busMaster s then
      withEntry s 7 fun s a => takeProfile (readHost s (leAt a.bytes 16 8) (profileRead a)) a record
    else s)

/-- The data of QUERY (R88): the shape table; the forms of plan status and counters are open, and so are their bytes and their
number. DEDUCED: log entry 78. -/
def queryData (s : State) (item len : Nat) : List Byte :=
  if item = 0 then (shapeTable s).take len
  else (List.range (Nat.min len (Config.freeChoice s.free 0x100000000))).map fun i => Config.freeByte s.free i

/-- QUERY (R88, R90). DEDUCED: log entry 78. -/
def execQuery (s : State) : Host.Outcome State Fault Refusal :=
  finish (withEntry s 8 fun s a =>
    let item := leAt a.bytes 8 2
    if 2 < item then endActive s a stBadCommand 0 0
    else
      let d := queryData s item (leAt a.bytes 24 8)
      let s := if item = 0 then s else fresh s
      let s := writeHost s (leAt a.bytes 16 8) d
      endActive s a stOk 0 d.length)

/-! ### Records (R60, R90 to R92) -/

/-- COMPLETION_RECORD (R92). -/
def execCompletionRecord (s : State) : Host.Outcome State Fault Refusal := finish (writeCompletion s)

/-- NOTICE_RECORD (R60). -/
def execNoticeRecord (s : State) : Host.Outcome State Fault Refusal := finish (writeNotice s)

/-! ### Completion timeouts (R486) -/

/-- Data of n bytes that arrive wholly poisoned. -/
def lostData (n : Nat) : HostData := ⟨List.replicate n 0, List.range (ceilDiv n 32)⟩

/-- A host read of the module ends in a Completion Timeout: the number names the logical core whose oldest load it serves, or, from
4,096 on, the ring index of a LOAD_PLAN or COPY, or, from 4,096 + 2^32 on, the recovery or update load. DEDUCED: log entry 63. -/
def timedOut (s : State) (read : Nat) : State :=
  if read < 4096 then
    coreEvent s read fun s pk =>
      match (coreOf s pk).loads with
      | e :: _ => returnLoad s pk read (lostData e.size)
      | [] => s
  else if read < 4096 + 2 ^ 32 then
    match s.cmd.active.find? fun a => a.index = read - 4096 with
    | some a =>
      if a.op = 1 then imageCopied s a (lostData (loadSize a))
      else if a.op = 5 then copyStart s a (lostData (copyLen a))
      else s
    | none => s
  else firmwareUpdate (recoveryLoad s ⟨[], []⟩ ⟨[], []⟩) ⟨[], []⟩ ⟨[], []⟩

/-- A read of the module is outstanding under that number: a read of the host that is not held. DEDUCED: log entry 63. -/
def readOpen (s : State) (read : Nat) : Bool :=
  if read < 4096 then
    match (coreL s read).loads with
    | e :: _ => live (coreL s read) && e.bus.isSome
    | [] => false
  else if read < 4096 + 2 ^ 32 then
    s.cmd.active.any fun a => a.index = read - 4096 && (a.op = 1 || (a.op = 5 && inHostWin (copySrc a) && copyReady s a))
  else rcvBusy s

/-- COMPLETION_TIMEOUT (R486): counted and logged, and the groups arrive poisoned. DEDUCED: log entry 63. -/
def execCompletionTimeout (read : Nat) (s : State) : Host.Outcome State Fault Refusal :=
  finish (if busMaster s && readOpen s read then timedOut (aerError (count s pciBase 2 1) 14 false) read else s)

end Sys2Proof.Machine
end

