-- ==== Sys2Proof/Machine/KciMatrix.lean ====
section
/-! DEFINITION. The meanings of the M-slot instructions (R110): each instruction enters its core's bundle, which issues when
it is whole (Machine/Issue.lean). -/

namespace Sys2Proof.Machine

/-- MPCFG (R110): set the partition mode (R146, R150). -/
def execMpcfg (i : Ins) (s : State) : Host.Outcome State Fault Refusal := kci .mpcfg "MPCFG" i s
/-- MMASK (R110): set the masks of a partition (R149). -/
def execMmask (i : Ins) (s : State) : Host.Outcome State Fault Refusal := kci .mmask "MMASK" i s
/-- MWLD (R110): load a shadow buffer (R140). -/
def execMwld (i : Ins) (s : State) : Host.Outcome State Fault Refusal := kci .mwld "MWLD" i s
/-- MSWAP (R110): make the filled buffer active (R142). -/
def execMswap (i : Ins) (s : State) : Host.Outcome State Fault Refusal := kci .mswap "MSWAP" i s
/-- MMAC (R110): feed activation vectors (R111, R177 to R179). -/
def execMmac (i : Ins) (s : State) : Host.Outcome State Fault Refusal := kci .mmac "MMAC" i s
/-- MCLR (R110): clear a bank (R176). -/
def execMclr (i : Ins) (s : State) : Host.Outcome State Fault Refusal := kci .mclr "MCLR" i s
/-- MST (R110): store a bank (R180 to R184). -/
def execMst (i : Ins) (s : State) : Host.Outcome State Fault Refusal := kci .mst "MST" i s
/-- MRDV (R110): read a bank row into a v register (R180). -/
def execMrdv (i : Ins) (s : State) : Host.Outcome State Fault Refusal := kci .mrdv "MRDV" i s
/-- MLDA (R110): add or write LACC rows into a bank. -/
def execMlda (i : Ins) (s : State) : Host.Outcome State Fault Refusal := kci .mlda "MLDA" i s

/-- MGANG by service code (R164): ARR_GANG_CTL of array 0 is applied to both arrays. DEDUCED: log entry 39. -/
def gangOn (s : State) (pk : Nat) : State :=
  let f (a : Arr) : Arr := { a with gang := fget s (arrBlk pk 0 + 0x20) 1 0, window := fget s (arrBlk pk 0 + 0x20) 2 2 }
  modCore s pk fun c => { c with arr0 := f c.arr0, arr1 := f c.arr1 }

/-- A pair of bank writes that differs in lockstep mode (R164): the first is recorded, every one counts. -/
def gangMiss (pk : Nat) (s : State) (h : GangHit) : State :=
  let b := arrBlk pk 0
  let w := h.column.toNat + h.row.toNat * 2 ^ 8 + h.vector.toNat * 2 ^ 32 + 2 ^ 63
  count (if fbit s (b + 0x28) 63 then s else regPut s (b + 0x28) (BitVec.ofNat 64 w)) b 6 1

/-- The physical columns that an array computes on in ganged mode: the repair map is bypassed (R164). -/
def gangCols (window : Nat) : List Nat := (List.range 64).map (2 * window + ·)

/-- The mismatches that lockstep mode finds: in broadcast mode nothing is compared. -/
def gangRun (s : State) (pk : Nat) (found : List GangHit) : State :=
  let a := (coreOf s pk).arr0
  if a.gang = 2 then (found.filter fun h => (gangCols a.window).contains h.column.toNat).foldl (gangMiss pk) s else s

/-- MGANG (R164): service code on a core that no plan holds enters ganged mode; plan code is class 0x1A. DEDUCED: log entry 39. -/
def execMgang (tower : BitVec 4) (core : BitVec 9) (service : Bool) (found : List GangHit) (i : Ins) (s : State) :
    Host.Outcome State Fault Refusal :=
  let pk := tower.toNat * 272 + core.toNat
  if service then
    shaped (core.toNat < 272) "MGANG" (if (coreOf s pk).st = .off then gangRun (gangOn s pk) pk found else s)
  else kci .mgang "MGANG" i s

end Sys2Proof.Machine
end

