-- ==== Sys2Proof/Machine/KciMove.lean ====
section
/-! DEFINITION. The meanings of the X-slot instructions (R114): each instruction enters its core's bundle, which issues when
it is whole (Machine/Issue.lean). -/

namespace Sys2Proof.Machine

/-- VLD (R114): load of 256 bytes. -/
def execVld (i : Ins) (s : State) : Host.Outcome State Fault Refusal := kci .vld "VLD" i s
/-- VST (R114): store of 256 bytes. -/
def execVst (i : Ins) (s : State) : Host.Outcome State Fault Refusal := kci .vst "VST" i s
/-- MOVSV (R114): s[a] into every lane. -/
def execMovsv (i : Ins) (s : State) : Host.Outcome State Fault Refusal := kci .movsv "MOVSV" i s
/-- MOVVS (R114): a lane into s[d]. -/
def execMovvs (i : Ins) (s : State) : Host.Outcome State Fault Refusal := kci .movvs "MOVVS" i s
/-- DMA (R114): asynchronous copy. -/
def execDma (i : Ins) (s : State) : Host.Outcome State Fault Refusal := kci .dma "DMA" i s
/-- DMAR (R114): asynchronous reduce-add. -/
def execDmar (i : Ins) (s : State) : Host.Outcome State Fault Refusal := kci .dmar "DMAR" i s
/-- PREF (R114): prefetch hint (R125). -/
def execPref (i : Ins) (s : State) : Host.Outcome State Fault Refusal := kci .pref "PREF" i s
/-- SIG (R114): increment of a token of another core (R78). -/
def execSig (i : Ins) (s : State) : Host.Outcome State Fault Refusal := kci .sig "SIG" i s
/-- ARRIVE (R114): arrival at a barrier (R122, R507). -/
def execArrive (i : Ins) (s : State) : Host.Outcome State Fault Refusal := kci .arrive "ARRIVE" i s
/-- WAIT (R114): wait for a token counter (R120). -/
def execWait (i : Ins) (s : State) : Host.Outcome State Fault Refusal := kci .wait "WAIT" i s
/-- COMMIT (R114): end of the share (R73, R122). -/
def execCommit (i : Ins) (s : State) : Host.Outcome State Fault Refusal := kci .commit "COMMIT" i s
/-- ATTCMD (R114): attention engine command (R266). -/
def execAttcmd (i : Ins) (s : State) : Host.Outcome State Fault Refusal := kci .attcmd "ATTCMD" i s
/-- PFXWALK (R114): prefix walk (R297). -/
def execPfxwalk (i : Ins) (s : State) : Host.Outcome State Fault Refusal := kci .pfxwalk "PFXWALK" i s
/-- ROWOP (R114): Rowan command (R251). -/
def execRowop (i : Ins) (s : State) : Host.Outcome State Fault Refusal := kci .rowop "ROWOP" i s
/-- ROWMODE (R114): channel to Rowan mode (R248). -/
def execRowmodeEnter (i : Ins) (s : State) : Host.Outcome State Fault Refusal := kci .rowmodeEnter "ROWMODE_ENTER" i s
/-- ROWMODE (R114): channel to memory mode (R249). -/
def execRowmodeExit (i : Ins) (s : State) : Host.Outcome State Fault Refusal := kci .rowmodeExit "ROWMODE_EXIT" i s
/-- COLL (R114): collective schedule entry (R368). -/
def execColl (i : Ins) (s : State) : Host.Outcome State Fault Refusal := kci .coll "COLL" i s
/-- RWAKE (R114): wake of a region (R129). -/
def execRwake (i : Ins) (s : State) : Host.Outcome State Fault Refusal := kci .rwake "RWAKE" i s
/-- RSLEEP (R114): park of a region at the next commit (R130). -/
def execRsleep (i : Ins) (s : State) : Host.Outcome State Fault Refusal := kci .rsleep "RSLEEP" i s

end Sys2Proof.Machine
end

