-- ==== Sys2Proof/Machine/KciScalar.lean ====
section
/-! DEFINITION. The meanings of the C-slot instructions (R108): each instruction enters its core's bundle, which issues when
it is whole (Machine/Issue.lean). -/

namespace Sys2Proof.Machine

/-- ADD (R108): s[d] ← s[a] + s[b] mod 2^64. -/
def execAdd (i : Ins) (s : State) : Host.Outcome State Fault Refusal := kci .add "ADD" i s
/-- ADDI (R108): s[d] ← s[a] + sext(imm). -/
def execAddi (i : Ins) (s : State) : Host.Outcome State Fault Refusal := kci .addi "ADDI" i s
/-- SUB (R108): s[d] ← s[a] − s[b] mod 2^64. -/
def execSub (i : Ins) (s : State) : Host.Outcome State Fault Refusal := kci .sub "SUB" i s
/-- MUL (R108): low 64 bits of the product. -/
def execMul (i : Ins) (s : State) : Host.Outcome State Fault Refusal := kci .mul "MUL" i s
/-- MULHU (R108): high 64 bits of the unsigned product. -/
def execMulhu (i : Ins) (s : State) : Host.Outcome State Fault Refusal := kci .mulhu "MULHU" i s
/-- DIVU (R108): unsigned quotient, all ones for a zero divisor. -/
def execDivu (i : Ins) (s : State) : Host.Outcome State Fault Refusal := kci .divu "DIVU" i s
/-- REMU (R108): unsigned remainder, s[a] for a zero divisor. -/
def execRemu (i : Ins) (s : State) : Host.Outcome State Fault Refusal := kci .remu "REMU" i s
/-- AND (R108): bitwise and. -/
def execAnd (i : Ins) (s : State) : Host.Outcome State Fault Refusal := kci .and "AND" i s
/-- OR (R108): bitwise or. -/
def execOr (i : Ins) (s : State) : Host.Outcome State Fault Refusal := kci .or "OR" i s
/-- XOR (R108): bitwise exclusive or. -/
def execXor (i : Ins) (s : State) : Host.Outcome State Fault Refusal := kci .xor "XOR" i s
/-- SHL (R108): shift left by s[b][5:0]. -/
def execShl (i : Ins) (s : State) : Host.Outcome State Fault Refusal := kci .shl "SHL" i s
/-- SHR (R108): logical shift right by s[b][5:0]. -/
def execShr (i : Ins) (s : State) : Host.Outcome State Fault Refusal := kci .shr "SHR" i s
/-- SAR (R108): arithmetic shift right by s[b][5:0]. -/
def execSar (i : Ins) (s : State) : Host.Outcome State Fault Refusal := kci .sar "SAR" i s
/-- SHI (R108): shift by imm[5:0]. -/
def execShi (i : Ins) (s : State) : Host.Outcome State Fault Refusal := kci .shi "SHI" i s
/-- LI (R108): s[d] ← sext(imm). -/
def execLi (i : Ins) (s : State) : Host.Outcome State Fault Refusal := kci .li "LI" i s
/-- LIH (R108): s[d][63:32] ← imm. -/
def execLih (i : Ins) (s : State) : Host.Outcome State Fault Refusal := kci .lih "LIH" i s
/-- CMP (R108): p[d] ← all ones or 0 by a comparison. -/
def execCmp (i : Ins) (s : State) : Host.Outcome State Fault Refusal := kci .cmp "CMP" i s
/-- PLOG (R108): predicate logic. -/
def execPlog (i : Ins) (s : State) : Host.Outcome State Fault Refusal := kci .plog "PLOG" i s
/-- PMOV (R108): p[d] ← s[a]. -/
def execPmov (i : Ins) (s : State) : Host.Outcome State Fault Refusal := kci .pmov "PMOV" i s
/-- PTOS (R108): s[d] ← p[a]. -/
def execPtos (i : Ins) (s : State) : Host.Outcome State Fault Refusal := kci .ptos "PTOS" i s
/-- MFS (R108): read of a special register (R118). -/
def execMfs (i : Ins) (s : State) : Host.Outcome State Fault Refusal := kci .mfs "MFS" i s
/-- LDP (R108): read of the parameter block (R117). -/
def execLdp (i : Ins) (s : State) : Host.Outcome State Fault Refusal := kci .ldp "LDP" i s
/-- LD8 (R108): load of 1 byte. -/
def execLd8 (i : Ins) (s : State) : Host.Outcome State Fault Refusal := kci .ld8 "LD8" i s
/-- LD16 (R108): load of 2 bytes. -/
def execLd16 (i : Ins) (s : State) : Host.Outcome State Fault Refusal := kci .ld16 "LD16" i s
/-- LD32 (R108): load of 4 bytes. -/
def execLd32 (i : Ins) (s : State) : Host.Outcome State Fault Refusal := kci .ld32 "LD32" i s
/-- LD64 (R108): load of 8 bytes. -/
def execLd64 (i : Ins) (s : State) : Host.Outcome State Fault Refusal := kci .ld64 "LD64" i s
/-- ST8 (R108): store of 1 byte. -/
def execSt8 (i : Ins) (s : State) : Host.Outcome State Fault Refusal := kci .st8 "ST8" i s
/-- ST16 (R108): store of 2 bytes. -/
def execSt16 (i : Ins) (s : State) : Host.Outcome State Fault Refusal := kci .st16 "ST16" i s
/-- ST32 (R108): store of 4 bytes. -/
def execSt32 (i : Ins) (s : State) : Host.Outcome State Fault Refusal := kci .st32 "ST32" i s
/-- ST64 (R108): store of 8 bytes. -/
def execSt64 (i : Ins) (s : State) : Host.Outcome State Fault Refusal := kci .st64 "ST64" i s
/-- BR (R108): branch with one delay bundle (R100). -/
def execBr (i : Ins) (s : State) : Host.Outcome State Fault Refusal := kci .br "BR" i s
/-- BNZD (R108): decrement and branch while not zero (R100). -/
def execBnzd (i : Ins) (s : State) : Host.Outcome State Fault Refusal := kci .bnzd "BNZD" i s
/-- JR (R108): branch to s[a] (R100). -/
def execJr (i : Ins) (s : State) : Host.Outcome State Fault Refusal := kci .jr "JR" i s

end Sys2Proof.Machine
end

