-- ==== Sys2Proof/Machine/KciVector.lean ====
section
/-! DEFINITION. The meanings of the V-slot instructions (R113): each instruction enters its core's bundle, which issues when
it is whole (Machine/Issue.lean). -/

namespace Sys2Proof.Machine

/-- VADD (R113): FP32 sum per lane. -/
def execVadd (i : Ins) (s : State) : Host.Outcome State Fault Refusal := kci .vadd "VADD" i s
/-- VSUB (R113): FP32 difference per lane. -/
def execVsub (i : Ins) (s : State) : Host.Outcome State Fault Refusal := kci .vsub "VSUB" i s
/-- VMUL (R113): FP32 product per lane. -/
def execVmul (i : Ins) (s : State) : Host.Outcome State Fault Refusal := kci .vmul "VMUL" i s
/-- VFMA (R113): fused multiply-add per lane. -/
def execVfma (i : Ins) (s : State) : Host.Outcome State Fault Refusal := kci .vfma "VFMA" i s
/-- VMAX (R113): FP32 maximum per lane. -/
def execVmax (i : Ins) (s : State) : Host.Outcome State Fault Refusal := kci .vmax "VMAX" i s
/-- VMIN (R113): FP32 minimum per lane. -/
def execVmin (i : Ins) (s : State) : Host.Outcome State Fault Refusal := kci .vmin "VMIN" i s
/-- VSFU (R113): exp, log, reciprocal or rsqrt (R505). -/
def execVsfu (i : Ins) (s : State) : Host.Outcome State Fault Refusal := kci .vsfu "VSFU" i s
/-- VCMP (R113): comparison into a predicate. -/
def execVcmp (i : Ins) (s : State) : Host.Outcome State Fault Refusal := kci .vcmp "VCMP" i s
/-- VMOV (R113): copy. -/
def execVmov (i : Ins) (s : State) : Host.Outcome State Fault Refusal := kci .vmov "VMOV" i s
/-- VIADD (R113): INT32 add, subtract or multiply low. -/
def execViadd (i : Ins) (s : State) : Host.Outcome State Fault Refusal := kci .viadd "VIADD" i s
/-- VLOGIC (R113): bitwise logic. -/
def execVlogic (i : Ins) (s : State) : Host.Outcome State Fault Refusal := kci .vlogic "VLOGIC" i s
/-- VSHIFT (R113): shift per lane. -/
def execVshift (i : Ins) (s : State) : Host.Outcome State Fault Refusal := kci .vshift "VSHIFT" i s
/-- VCVT (R113): narrow conversion with capture (R186, R187). -/
def execVcvt (i : Ins) (s : State) : Host.Outcome State Fault Refusal := kci .vcvt "VCVT" i s
/-- VCVTW (R113): widening conversion (R186). -/
def execVcvtw (i : Ins) (s : State) : Host.Outcome State Fault Refusal := kci .vcvtw "VCVTW" i s
/-- VRSUM (R113): sum of the lanes by the fixed tree. -/
def execVrsum (i : Ins) (s : State) : Host.Outcome State Fault Refusal := kci .vrsum "VRSUM" i s
/-- VRMAX (R113): maximum of the lanes. -/
def execVrmax (i : Ins) (s : State) : Host.Outcome State Fault Refusal := kci .vrmax "VRMAX" i s
/-- VBCL (R113): broadcast of a lane. -/
def execVbcl (i : Ins) (s : State) : Host.Outcome State Fault Refusal := kci .vbcl "VBCL" i s
/-- VPERM (R113): permutation of lanes. -/
def execVperm (i : Ins) (s : State) : Host.Outcome State Fault Refusal := kci .vperm "VPERM" i s

end Sys2Proof.Machine
end

