-- ==== Sys2Proof/Machine/Pci.lean ====
section
/-! DEFINITION. The PCI Express function (R477 to R486): link training, configuration writes, the BAR2 window, precision time,
and the attestation mailbox (R472 to R474). -/

namespace Sys2Proof.Machine

/-! ### Attestation (R472 to R474) -/

/-- The measurements: index, kind and digest, in ascending index. -/
def measurements (s : State) : List (Nat × Nat × List Byte) :=
  let fw := s.boot.meas.map fun e => (e.1, (if e.1 = 7 then 2 else 1), e.2)
  let rules := (s.qnc.rules.filter fun e => 16 ≤ e.1).map fun e => (e.1, 3, shake256 64 e.2.text)
  let plans := s.plans.map fun e => (63 + e.1, 4, e.2.digest)
  fw ++ rules ++ plans

/-- The boot field of the report: 2 from recovery, 1 when a group trained fast, else 0. -/
def bootField (s : State) : Nat := if s.boot.fromRecovery then 2 else if s.boot.fast.isEmpty then 0 else 1

/-- Everything of the report before its signature. -/
def reportBody (s : State) (nonce : List Byte) (endorse : Bool) : List Byte :=
  let ms := measurements s
  let len := 264 + 80 * ms.length + (if endorse then 29792 else 0) + 49856
  [0x4B, 0x53, 0x31, 0x36, 0x41, 0x54, 0x53, 0x54] ++ leBytes 4 1 ++ leBytes 4 len ++ nonce ++ leBytes 8 Config.serial.toNat ++
    leBytes 1 0xB0 ++ leBytes 1 s.boot.fw.major ++ leBytes 1 s.boot.fw.minor ++ leBytes 1 s.boot.fw.svn ++ leBytes 1 (bootField s) ++
    leBytes 1 (fget s (bootBase + 8) 3 0) ++ leBytes 2 ms.length ++ leBytes 8 s.now ++ shapeDigest s ++
    bytesAt Config.identityPk 0 64 ++ leBytes 1 s.boot.minSvn ++ List.replicate 63 0 ++
    (ms.map fun m => leBytes 2 m.1 ++ leBytes 2 m.2.1 ++ List.replicate 12 0 ++ bytesAt m.2.2 0 64).flatten ++
    (if endorse then bytesAt Config.endorsement 0 29792 else [])

/-- The attestation report (R474). DEDUCED: log entry 70. -/
def report (s : State) (nonce : List Byte) (endorse : Bool) : List Byte :=
  let b := reportBody s nonce endorse
  let ctx : List Byte := [0x4B, 0x53, 0x31, 0x36, 0x41, 0x54, 0x54, 0x45, 0x53, 0x54]
  b ++ bytesAt (Config.slhSign ctx b) 0 49856

/-- The payload that answers a request's payload (R473): the report for 40 bytes with code 1, and else 0xFFFF_FFFF. -/
def doePayload (s : State) (payload : List Byte) : List Byte :=
  let ok : Bool := payload.length = 40 && leAt payload 0 4 = 1 && leAt payload 4 4 ≤ 1
  if ok then report s (bytesAt payload 8 32) (leAt payload 4 4 = 1) else leBytes 4 0xFFFFFFFF

/-- The answer of DOE Discovery to an index: vendor, protocol and the next index. PRESUMED: log entry 97. -/
def doeDiscovery (i : Nat) : Nat := if i = 0 then 0x01000001 else if i = 1 then 0x00011DF7 else 0xFFFF

/-- The dwords of bytes. -/
def dwordsOf (b : List Byte) : List Nat := (List.range (b.length / 4)).map fun i => leAt b (4 * i) 4

/-- The response object to a request object (R473): of DOE Discovery and of attestation; none for another protocol. PRESUMED: log entry 97. -/
def doeAnswer (s : State) (q : List Nat) : List Nat :=
  let p := q.drop 2
  match q.headD 0 % 2 ^ 24 with
  | 0x000001 => if p.length = 1 then [0x000001, 3, doeDiscovery (p.headD 0 % 256)] else []
  | 0x011DF7 =>
    let r := dwordsOf (doePayload s (p.flatMap (leBytes 4)))
    [0x011DF7, 2 + r.length] ++ r
  | _ => []

/-- Go of the mailbox: the object that has been written is taken, and one whose length differs from its header's is an error. While a response
is pending the mailbox is busy. PRESUMED: log entry 97. -/
def doeGo (s : State) : State :=
  if !s.pci.doeOut.isEmpty then s
  else
    let q := s.pci.doeIn
    if q.length < 2 ∨ (q.getD 1 0) % 2 ^ 18 ≠ q.length then { s with pci := { s.pci with doeIn := [], doeError := true } }
    else { s with pci := { s.pci with doeIn := [], doeOut := doeAnswer s q } }

/-! ### Link and configuration -/

/-- PCIE_LINK_TRAINING (R479): the link comes up at a rate (1 to 6) and width; below 64 GT/s ×16 PCI_ notice 0x01 is raised. FLIT mode is always in
use at 64 GT/s. -/
def execPcieLinkTraining (rate : BitVec 3) (width : BitVec 5) (flit : Bool) (s : State) : Host.Outcome State Fault Refusal :=
  let r := rate.toNat
  let w := width.toNat
  shaped (1 ≤ r && r ≤ 6 && [1, 2, 4, 8, 16].contains w && (flit || r < 6)) "PCIE_LINK_TRAINING" (
    if s.boot.pwrgd then
      let s := { s with boot := { s.boot with perst := false } }
      let s := fset (fset (fset (fset s pciBase 10 8 r) pciBase 4 0 w) pciBase 12 12 (b2n flit)) pciBase 11 11 1
      if r = 6 ∧ w = 16 then s else notice s 0x1101 0 0xFFFF 0xFF (w + r * 2 ^ 8)
    else s)

/-- Requests that were held are issued in order (R484). -/
def releaseHeld (s : State) : State :=
  if busMaster s then { s with out := s.out ++ s.pci.held, pci := { s.pci with held := [] } } else s

/-- A configuration request is answered (R459): with Configuration Request Retry Status until stage 0x02 has ended, and then with `f`. None
arrives while PERST_L is asserted. PRESUMED: log entry 97. -/
def onConfig (s : State) (f : State → State) : State :=
  if s.boot.endpoint then f s
  else if s.boot.pwrgd && !s.boot.perst then emit s (.completion 2 [] false)
  else s

/-- The Completion of a configuration write. -/
def cfgDone (s : State) : State := emit s (.completion 0 [] false)

/-- Set Bus Master Enable and the power state (R484). -/
def setBusMaster (s : State) (bme d3hot : Bool) : State :=
  releaseHeld (fset (fset s pciBase 14 14 (b2n bme)) pciBase 15 15 (b2n d3hot))

/-- Resize BAR2 to 2^n bytes (R481). -/
def resizeBar2 (s : State) (n : Nat) : State := fset { s with pci := { s.pci with bar2Log := n } } (pciBase + 0x100) 11 0 0

/-- What a read of configuration space returns at an offset (R477 to R481): the stored word, with the fields that stand elsewhere. PRESUMED: log entry 97. -/
def cfgRead (s : State) (o : Nat) : Nat :=
  let w := cfgWord s o
  match o with
  | 0x04 => w + 2 * b2n (fbit s pciBase 13) + 4 * b2n (fbit s pciBase 14)
  | 0x44 => w + (if fbit s pciBase 15 then 3 else 0)
  | 0x60 => w + fget s pciBase 10 8 * 2 ^ 16 + fget s pciBase 4 0 * 2 ^ 20
  | 0x80 => w + b2n (fbit s pciBase 12) * 2 ^ 26
  | 0x104 => (s.pci.aer.filter (· < 32)).foldl (fun a b => a + 2 ^ b) 0
  | 0x110 => (s.pci.aer.filter (32 ≤ ·)).foldl (fun a b => a + 2 ^ (b - 32)) 0
  | 0x144 => Config.serial.toNat % 2 ^ 32
  | 0x148 => Config.serial.toNat / 2 ^ 32
  | 0x2AC => b2n (!s.pci.doeOut.isEmpty) * (1 + 2 ^ 31) + 4 * b2n s.pci.doeError
  | 0x2B4 => s.pci.doeOut.headD 0
  | 0x268 => 2 + 2 ^ 5 + (s.pci.bar2Log - 20) * 2 ^ 8
  | _ => w

/-- A write of configuration space (R477 to R484). PRESUMED: log entry 97. -/
def cfgWrite (s : State) (o : Nat) (v : W32) : State :=
  let n := v.toNat
  match o with
  | 0x04 => setBusMaster (fset (cfgStore s o v) pciBase 13 13 (b2n (n.testBit 1))) (n.testBit 2) (fbit s pciBase 15)
  | 0x18 => s
  | 0x1C => cfgStore s o (v / BitVec.ofNat 32 (2 ^ (s.pci.bar2Log - 32)) * BitVec.ofNat 32 (2 ^ (s.pci.bar2Log - 32)))
  | 0x44 => if n % 4 = 0 ∨ n % 4 = 3 then setBusMaster s (fbit s pciBase 14) (n % 4 = 3) else s
  | 0x104 => { s with pci := { s.pci with aer := s.pci.aer.filter fun b => 32 ≤ b || !n.testBit b } }
  | 0x110 => { s with pci := { s.pci with aer := s.pci.aer.filter fun b => b < 32 || !n.testBit (b - 32) } }
  | 0x2A8 =>
    if n.testBit 0 then { s with pci := { s.pci with doeIn := [], doeOut := [], doeError := false } }
    else if n.testBit 31 then doeGo s
    else s
  | 0x2B0 => if s.pci.doeOut.isEmpty then { s with pci := { s.pci with doeIn := s.pci.doeIn ++ [n] } } else s
  | 0x2B4 => { s with pci := { s.pci with doeOut := s.pci.doeOut.drop 1 } }
  | 0x268 =>
    let k := bits n 13 8 + 20
    if 32 ≤ k ∧ k ≤ 42 then resizeBar2 s k else s
  | _ => cfgStore s o v

/-- One configuration request with its Completion. DESIGN CHOICE: log entry 86. -/
def cfgRequest (s : State) (q : CfgReq) : State :=
  let o := 4 * q.reg.toNat
  match q.write with
  | some v => cfgDone (cfgWrite s o v)
  | none => emit s (.completion 0 (leBytes 4 (cfgRead s o)) false)

/-- BUS_MASTER_ENABLE (R484): a configuration write sets Bus Master Enable and the power state, and the host's further configuration requests
follow it. -/
def execBusMasterEnable (bme d3hot : Bool) (reqs : List CfgReq) (s : State) : Host.Outcome State Fault Refusal :=
  finish (onConfig s fun s => reqs.foldl cfgRequest (cfgDone (setBusMaster s bme d3hot)))

/-- MEMORY_SPACE_ENABLE (R484). -/
def execMemorySpaceEnable (on : Bool) (s : State) : Host.Outcome State Fault Refusal :=
  finish (onConfig s fun s => cfgDone (fset s pciBase 13 13 (b2n on)))

/-- BAR2_RESIZE (R481): 2^log2 bytes, log2 from 32 to 42. -/
def execBar2Resize (log2 : BitVec 6) (s : State) : Host.Outcome State Fault Refusal :=
  shaped (32 ≤ log2.toNat && log2.toNat ≤ 42) "BAR2_RESIZE" (onConfig s fun s => cfgDone (resizeBar2 s log2.toNat))

/-! ### BAR2 (R420, R481) -/

/-- Module-local address that a BAR2 offset reaches; base bits below the size of BAR2 are ignored. -/
def bar2Addr (s : State) (o : Nat) : Nat :=
  let k := s.pci.bar2Log - 30
  let x := fget s (pciBase + 0x100) 11 0 / 2 ^ k * 2 ^ k * 2 ^ 30 + o
  if x < 2 ^ 41 then x else slowBase + (x - 2 ^ 41)

/-- Write the bytes that byte enables select, run by run; `run` holds the bytes of the present run in reverse, which ends before address a. DEDUCED: log entry 74. -/
def beWrite (f : State → Nat → List PByte → State) : List (Bool × PByte) → State → Nat → List PByte → State
  | [], s, a, run => if run.isEmpty then s else f s (a - run.length) run.reverse
  | (true, b) :: r, s, a, run => beWrite f r s (a + 1) (b :: run)
  | (false, _) :: r, s, a, run => beWrite f r (if run.isEmpty then s else f s (a - run.length) run.reverse) (a + 1) []

/-- A read of bytes for the host, answered in a Completion. -/
def hostReads (s : State) (a len : Nat) : State :=
  let r := memRead s a len
  emit r.1 (.completion 0 (pdata r.2) (anyPoison r.2))

/-- A host read of n bytes: one that meets withheld bytes waits at the slice (R210). -/
def hostReadOr (s : State) (a len : Nat) : State :=
  if withheldFrom s 4096 a len then { s with pci := { s.pci with waiting := s.pci.waiting ++ [(a, len)] } } else hostReads s a len

/-- Host reads that waited for withheld bytes are taken up in order (R210). DEDUCED: log entry 74. -/
def serveHostReads (s : State) : State :=
  s.pci.waiting.foldl (fun s e => hostReadOr s e.1 e.2) { s with pci := { s.pci with waiting := [] } }

/-- A BAR2 request of len bytes at offset o. DEDUCED: log entry 74. -/
def bar2 (s : State) (write : Bool) (o len : Nat) (be : List Bool) (data : HostData) : State :=
  let a := bar2Addr s o
  if !hostReach s || !inRun s || !rangeOk s Place.remoteOk a len then unsupported s (!write)
  else if write then
    let ep := !data.poison.isEmpty
    let s := if ep then aerError (count s pciBase 0 1) 12 false else s
    beWrite memWrite (be.zip (data.bytes.map fun b => (b, ep))) s a []
  else hostReadOr s a len

/-- BAR2_ACCESS (R481): a read of len bytes, or a write of the enabled bytes, at an offset of BAR2. A write whose TLP had EP set carries poison on
every byte (R420). -/
def execBar2Access (write : Bool) (off : BitVec 42) (len : BitVec 13) (be : List Bool) (data : HostData) (s : State) :
    Host.Outcome State Fault Refusal :=
  let n := len.toNat
  shaped (1 ≤ n && n ≤ 4096 && off.toNat + n ≤ 2 ^ s.pci.bar2Log && (!write || (be.length = n && data.bytes.length = n)))
    "BAR2_ACCESS" (bar2 s write off.toNat n be data)

/-! ### Precision time (R485) -/

/-- The root steers its time to the host's: the first dialog after enable may step it forward, the others are slewed (R363, R364). -/
def steerHost (s : State) (host : W64) : State :=
  let off := timeDiff host (BitVec.ofNat 64 s.now)
  let jump : Bool := !s.fab.firstLock && 0 < off
  let s := { s with now := if jump then host.toNat else s.now }
  { s with fab := { s.fab with firstLock := true, slew := if jump then 0 else off, offset := off } }

/-- PTM_DIALOG (R485): one successful dialog of the fabric time root, while PTM Enable is 1. -/
def execPtmDialog (hostTime : W64) (delay : W32) (s : State) : Host.Outcome State Fault Refusal :=
  finish (if isRoot s && fbit s pciBase 11 && (cfgWord s 0x288).testBit 0 && (s.pci.lastPtm = 0 || s.pci.lastPtm + 10000000 ≤ s.now) then
    let s := steerHost (count s pciBase 4 1) hostTime
    let o := pciBase + 0x110
    let s := fset (fset (fset s o 63 32 delay.toNat) o 1 1 1) o 0 0 1
    { s with pci := { s.pci with lastPtm := s.now, ptmLost := false } }
  else s)

/-- PTM_LOST (R485): no dialog has succeeded for 30 ms; the time runs at its last rate. -/
def execPtmLost (s : State) : Host.Outcome State Fault Refusal :=
  finish (if fbit s (pciBase + 0x110) 1 && !s.pci.ptmLost && s.pci.lastPtm + 30000000 ≤ s.now then
    let s := { s with pci := { s.pci with ptmLost := true }, fab := { s.fab with slew := 0 } }
    notice (fset s (pciBase + 0x110) 0 0 0) 0x1102 0 0xFFFF 0xFF s.pci.lastPtm
  else s)

/-! ### The mailbox row -/

/-- DOE_REQUEST (R473): a request object, carried whole, and its response. -/
def execDoeRequest (payload : List Byte) (s : State) : Host.Outcome State Fault Refusal :=
  finish (if s.boot.endpoint then emit s (.doe (doePayload s payload)) else s)

end Sys2Proof.Machine
end

