-- ==== Sys2Proof/Machine/Pip.lean ====
section
/-! DEFINITION. The I3C target on PIP2 and PIP3 (R496 to R498): address assignment, common command codes, management
transactions and in-band interrupts. -/

namespace Sys2Proof.Machine

/-- The target is ready, in RUN (R492). -/
def i3cUp (s : State) : Bool := inRun s && s.boot.i3cReady

/-- A dynamic address is assigned, and it. -/
def i3cAssigned (s : State) : Bool := fbit s pipBase 23
def i3cAddr (s : State) : Nat := fget s pipBase 22 16

/-- The static address of R496. -/
def i3cStatic : Nat := 0x4E

/-- The Provisional ID, most significant byte first. PRESUMED: log entry 72. -/
def i3cPid : List Byte := (leBytes 6 (i3cId % 2 ^ 48)).reverse

/-- Assign a dynamic address. -/
def i3cAssign (s : State) (a : Nat) : State := fset (fset s pipBase 22 16 a) pipBase 23 23 1

/-- ENTDAA: without a dynamic address the target takes part with its Provisional ID, BCR and DCR, and takes the address. PRESUMED: log entry 72. -/
def execEntdaa (addr : BitVec 7) (s : State) : Host.Outcome State Fault Refusal :=
  finish (if i3cUp s && !i3cAssigned s then emit (i3cAssign s addr.toNat) (.i3c (i3cPid ++ [0x02, 0x00])) else s)

/-- SETDASA: from the static address 0x4E, while no dynamic address is assigned. -/
def execSetdasa (static addr : BitVec 7) (s : State) : Host.Outcome State Fault Refusal :=
  finish (if i3cUp s && !i3cAssigned s && static.toNat = i3cStatic then emit (i3cAssign s addr.toNat) (.i3c []) else emit s .i3cNack)

/-- RSTDAA: the dynamic address is given up. -/
def execRstdaa (s : State) : Host.Outcome State Fault Refusal :=
  finish (if i3cUp s then fset s pipBase 23 16 0 else s)

/-- ENEC: in-band interrupts are enabled. -/
def execEnec (s : State) : Host.Outcome State Fault Refusal := finish (if i3cUp s then fset s pipBase 24 24 1 else s)
/-- DISEC: in-band interrupts are disabled. -/
def execDisec (s : State) : Host.Outcome State Fault Refusal := finish (if i3cUp s then fset s pipBase 24 24 0 else s)

/-- A direct command code is answered by a target with a dynamic address. -/
def i3cAnswer (s : State) (f : State → State) : State := if i3cUp s && i3cAssigned s then f s else emit s .i3cNack

/-- GETPID. -/
def execGetpid (s : State) : Host.Outcome State Fault Refusal := finish (i3cAnswer s fun s => emit s (.i3c i3cPid))
/-- GETBCR. -/
def execGetbcr (s : State) : Host.Outcome State Fault Refusal := finish (i3cAnswer s fun s => emit s (.i3c [0x02]))
/-- GETDCR. -/
def execGetdcr (s : State) : Host.Outcome State Fault Refusal := finish (i3cAnswer s fun s => emit s (.i3c [0x00]))
/-- GETSTATUS: two bytes whose value the spec does not state. DEDUCED: log entry 73. -/
def execGetstatus (s : State) : Host.Outcome State Fault Refusal :=
  finish (i3cAnswer s fun s => emit (fresh s) (.i3c (leBytes 2 (Config.targetStatus s.free).toNat)))
/-- GETMWL: 16 bytes, or what SETMWL set. DEDUCED: log entry 73. -/
def execGetmwl (s : State) : Host.Outcome State Fault Refusal :=
  finish (i3cAnswer s fun s => emit s (.i3c (leBytes 2 s.pip.mwl).reverse))
/-- GETMRL: 16 bytes, or what SETMRL set. DEDUCED: log entry 73. -/
def execGetmrl (s : State) : Host.Outcome State Fault Refusal :=
  finish (i3cAnswer s fun s => emit s (.i3c (leBytes 2 s.pip.mrl).reverse))
/-- SETMWL. -/
def execSetmwl (len : BitVec 16) (s : State) : Host.Outcome State Fault Refusal :=
  finish (i3cAnswer s fun s => emit { s with pip := { s.pip with mwl := len.toNat } } (.i3c []))
/-- SETMRL. -/
def execSetmrl (len : BitVec 16) (s : State) : Host.Outcome State Fault Refusal :=
  finish (i3cAnswer s fun s => emit { s with pip := { s.pip with mrl := len.toNat } } (.i3c []))

/-! ### Management transactions (R497) -/

/-- A private transfer is addressed to the target: by its dynamic address, or before one is assigned by the static address. -/
def i3cHere (s : State) (a : Nat) : Bool := i3cUp s && (if i3cAssigned s then a = i3cAddr s else a = i3cStatic)

/-- An access of n bytes at a BAR0 offset is aligned and lies in a block that answers (R31, R43, R434). DEDUCED: log entry 13. -/
def ctlOk (s : State) (off n : Nat) : Bool :=
  aligned n off && (match blkOf off with
    | some b => !(b.base < 0x40000000 && inReset s b.tower)
    | none => false)

/-- A management transaction ends with a status and data (R497, R502). -/
def i3cEnd (s : State) (status : Nat) (data : List Byte) : State :=
  count { s with pip := { s.pip with reply := some (leBytes 1 status ++ data) } } pipBase 1 1

/-- A management read of n bytes. DEDUCED: log entry 73. -/
def i3cRead (s : State) (a off n : Nat) : State :=
  if !i3cHere s a then emit s .i3cNack
  else if !ctlOk s off n then i3cEnd s 1 []
  else
    let r := ctlRead s (whoNum .i3c) off (n = 8)
    i3cEnd r.1 0 (leBytes n r.2)

/-- I3C_READ_4. -/
def execI3cRead4 (addr : BitVec 7) (off : W32) (s : State) : Host.Outcome State Fault Refusal :=
  finish (i3cRead s addr.toNat off.toNat 4)
/-- I3C_READ_8. -/
def execI3cRead8 (addr : BitVec 7) (off : W32) (s : State) : Host.Outcome State Fault Refusal :=
  finish (i3cRead s addr.toNat off.toNat 8)

/-- A management write: its rights cover PIP_ALERT_STATUS and PIP_ALERT_MASK alone; every other write is refused without effect. DEDUCED: log entry 73. -/
def i3cWrite (s : State) (a off data : Nat) : State :=
  if !i3cHere s a then emit s .i3cNack
  else if off = pipBase + 0x10 ∨ off = pipBase + 0x18 then
    let s := dropHold s (latchKey (whoNum .i3c) pipBase) off
    i3cEnd (regPut s off (BitVec.ofNat 64 (fldsWrite (fldsPip (off - pipBase)) (regGet s off).toNat data))) 0 []
  else i3cEnd s 1 []

/-- I3C_WRITE_4. -/
def execI3cWrite4 (addr : BitVec 7) (off : W32) (data : W32) (s : State) : Host.Outcome State Fault Refusal :=
  finish (i3cWrite s addr.toNat off.toNat data.toNat)
/-- I3C_WRITE_8. -/
def execI3cWrite8 (addr : BitVec 7) (off : W32) (data : W64) (s : State) : Host.Outcome State Fault Refusal :=
  finish (i3cWrite s addr.toNat off.toNat data.toNat)

/-- PRIVATE_READ (R497): the status and data of the last request; NACKed when none has ended. -/
def execPrivateRead (addr : BitVec 7) (s : State) : Host.Outcome State Fault Refusal :=
  finish (match s.pip.reply with
    | some r => if i3cHere s addr.toNat then emit { s with pip := { s.pip with reply := none } } (.i3c r) else emit s .i3cNack
    | none => emit s .i3cNack)

/-- IN_BAND_INTERRUPT (R498): for a masked alert bit not announced yet, and every 10 ms while the masked value stays nonzero. -/
def execInBandInterrupt (s : State) : Host.Outcome State Fault Refusal :=
  let m := fget s (pipBase + 0x10) 8 0 &&& fget s (pipBase + 0x18) 8 0
  finish (if i3cUp s && i3cAssigned s && fbit s pipBase 24 && m ≠ 0 && (m &&& s.pip.ibiFor ≠ m || s.pip.ibiAt + 10000000 ≤ s.now) then
    emit { s with pip := { s.pip with ibiAt := s.now, ibiFor := m } } .ibi
  else s)

end Sys2Proof.Machine
end

