-- ==== Sys2Proof/Machine/PlanRun.lean ====
section
/-! DEFINITION. A plan runs: its start (R116, R384), commits (R73, R74, R80), the watchdog (R82), replays and spares (R77 to R81),
step-wide replays (R79) and cores parked and woken (R130). -/

namespace Sys2Proof.Machine

/-! ### Attempts of a share (R77, R116, R122) -/

/-- The registers of a step entry state stand in the core, and nothing else is kept (R76, R77, R150): vector registers read the free
values of a stamp. DEDUCED: log entry 31. -/
def Core.begin (c : Core) (stamp : Nat) (tok : Tbl Nat) (cols0 cols1 : List Nat) : Core :=
  { c with st := .run, s := c.entry.s, p := c.entry.p, sTag := c.entry.tag, pc := c.entry.pc, tok := tok, v := [], vstamp := stamp,
           vTag := [], cyc := 0, delay := none, stream := [], stalled := false, fly := [], loads := [], pend := [], wb := [],
           eng := [], effNext := 0, halting := [], waits := [], arr0 := c.arr0.restart cols0, arr1 := c.arr1.restart cols1, stage := [], stageUnfit := 0,
           poisonAt := none }

/-- Start an attempt of a core's share: the tokens are its received counts (R506), and one above 0xFFFF is class 0x15. DEDUCED: log entry 31. -/
def startShare (s : State) (lc attempt : Nat) : State :=
  let s := fresh s
  let rcv := (routerOf s lc).rcv
  let pk := physCore s lc
  let s := modCoreL s lc fun c => { c.begin s.free rcv (columnMap s pk 0) (columnMap s pk 1) with attempt := attempt }
  if rcv.any fun e => 0xFFFF < e.2 then windowFault s lc (coreL s lc).pc 3 0x15 0xFFFF none else s

/-- The first share of a plan starts at bundle 0 with zero registers (R116). -/
def firstShare (s : State) (lc : Nat) : State :=
  let s := modCoreL s lc fun c => { c with entry := ⟨0, [], [], []⟩ }
  startShare s lc 0

/-- The share of a core takes part in the plan: its region has not been powered off (R71). -/
def hasShare (s : State) (lc : Nat) : Bool := regionState s (lc / 16) ≠ 3 && tget 0 s.stone.regionLimit (lc / 16) ≠ 3

/-! ### PLAN_START (R72, R116, R223, R362, R384, R393) -/

/-- Load the weights of a route set into the ports. -/
def loadWeights (s : State) (p : Plan) : State :=
  if p.routes.isEmpty then s
  else (List.range 64).foldl (fun s l => modPort s l fun q => { q with weights := leAt p.routes (256 + 4 * l) 3 }) s

/-- The plan limits at the start: launch_limit for the module and 64 for every tower, applied with every planned change. -/
def launchLimits (s : State) (p : Plan) : State :=
  let s := setWant s 0 (leAt p.profileSec 8 1)
  applyPlanned ((List.range 16).foldl (fun s t => setWant s (16 + t) 64) s)

/-- The first step starts. -/
def startRun (s : State) (r : Run) (p : Plan) : State :=
  let s := loadWeights (launchLimits s p) p
  let s := { s with routers := [], run := some { r with started := true, stepStart := s.now } }
  commitTags (((List.range 4096).filter (hasShare s)).foldl firstShare s)

/-- PLAN_START: the start time has come (R88). DEDUCED: log entry 3. -/
def execPlanStart (s : State) : Host.Outcome State Fault Refusal :=
  finish (match s.run, runPlan s with
    | some r, some p => if !r.started && r.ending.isNone && r.startAt ≤ s.now then startRun s r p else s
    | _, _ => s)

/-! ### Commit (R73, R74) -/

/-- Every share has arrived at the commit; parked cores count as arrived (R123). -/
def sharesDone (s : State) : Bool :=
  (List.range 4096).all fun lc => let st := (coreL s lc).st; st = .arrived || st = .parked || st = .off

/-- Nothing that the step issued is still under way at an engine, a channel or another module (R73, R128). -/
def enginesIdle (s : State) : Bool :=
  s.att.all (fun e => e.2.queue.isEmpty) && s.fab.coll.all (fun e => e.2.queue.isEmpty) && s.fab.reqs.isEmpty &&
  s.chans.all fun e => e.2.queue.isEmpty

/-- The channels go on and the slices add what their reduction queues hold, before the commit is judged. DEDUCED: log entry 80. -/
def settleStep (s : State) : State :=
  let s := (s.chans.map (·.1)).foldl chanGo s
  let s := (s.att.map (·.1)).foldl walkSettle s
  (s.llc.redQ.map fun c => lineSlice s c.key).foldl drainSlice s

/-- The commit must not happen (R79, R210, R229): a poisoned reduction target or a withheld group. DEDUCED: log entry 80. -/
def commitBarred (s : State) : Bool := !s.llc.redPoison.isEmpty || s.llc.lines.any fun e => e.2.withheld ≠ 0

/-- Jobs due at a commit that have not returned (R318). DEDUCED: log entry 54. -/
def lateJobs (s : State) (no : Nat) : List Job := s.qnc.jobs.filter fun j => j.dueNo = no && !jobFinished j

/-- The module's own maxima and touched entries of share 2 join the barrier's (R189). -/
def ownMaxima (s : State) (k : Nat) : State :=
  (logicalCores s).foldl (fun s lp =>
    (capsOf s lp).foldl (fun s e => if shareOf s lp.2 e.1 = 2 then barJoin s k e.1 e.2.amax else s) s) s

/-- The module arrives at the commit of its step's scope. The Bool says that the barrier is complete. -/
def commitBarrier (s : State) (no : Nat) (fabric : Bool) : State × Bool :=
  if !fabric then (s, true)
  else
    let s := if (tget [] s.fab.barMembers (barKey no 0)).contains (ownMember s) then s else barArrive (ownMaxima s (barKey no 0)) no 0
    (s, barComplete s no 0)

/-- Due jobs take effect (R320). -/
def commitJobs (s : State) (no : Nat) : State :=
  let due := s.qnc.jobs.filter fun j => j.dueNo = no
  let s := due.foldl applyJob s
  { s with qnc := { s.qnc with jobs := s.qnc.jobs.filter fun j => j.dueNo ≠ no } }

/-- The cap epoch of a step with its entry of the power profile (R384, R393). -/
def commitCaps (s : State) (p : Plan) (idx : Nat) : State :=
  let s := match profileAt p idx with
    | some e => (indexed e.2).foldl (fun s t => setWant s (16 + t.1) t.2) (setWant s 0 e.1)
    | none => s
  capEpoch s

/-- The deadline of the step in progress (R80). -/
def deadline (r : Run) (p : Plan) (e : StepEnt) : Nat := r.stepStart + e.dur + e.dur * p.reserve / 1000

/-- A commit after the deadline, or one that a job delayed, or that of a step that a column migration held, is an overrun (R80, R262,
R318). -/
def overrun (s : State) (d : Nat) (held : Bool) : State :=
  let s' := if d < s.now ∨ s.qnc.late ∨ held then notice (countStn s 17 1) 0x1011 0 0xFFFF 0xFF (s.now - d) else s
  { s' with qnc := { s'.qnc with late := false } }

/-- The position after a step: index and iteration (R72). -/
def nextStep (p : Plan) (r : Run) : Nat × Nat := if r.stepIdx + 1 < p.stepCount then (r.stepIdx + 1, r.iter) else (0, r.iter + 1)

/-- The step was the last of the last iteration. -/
def lastStep (p : Plan) (r : Run) : Bool := r.stepIdx + 1 = p.stepCount && r.iters = r.iter + 1

/-- What takes effect at the commit, but for the step's advance (R74). DEDUCED: log entry 80. -/
def commitEffects (s : State) (r : Run) (p : Plan) (e : StepEnt) : State :=
  let s := overrun s (deadline r p e) r.held
  let s := commitScales s p.fabric (if p.fabric && e.scope = 1 then some (barKey r.stepNo 0) else none)
  let s := commitJobs (attCommit s p) r.stepNo
  let s := settleReductions s
  let s := if e.capEpoch = 1 then commitCaps s p r.stepIdx else s
  let s := regPut (regPut s (stnBase + 0x1020) (BitVec.ofNat 64 r.stepNo)) (stnBase + 0x1028) (BitVec.ofNat 64 s.now)
  let gone {α : Type} (t : Tbl α) : Tbl α := tclear t (barKey r.stepNo 0) (barKey r.stepNo 0 + 65536)
  let f := s.fab
  { s with routers := [], fab := { f with barMembers := gone f.barMembers, barBunches := gone f.barBunches,
                                          barAmax := gone f.barAmax, barTouched := gone f.barTouched } }

/-- Links that failed in the step switch to their alternates (R359). -/
def commitLinks (s : State) : State :=
  let ls := s.fab.toSwitch
  ls.foldl switchLink { s with fab := { s.fab with toSwitch := [] } }

/-- The cores take up the next step (R122, R130): their registers are its entry state. A region that RSLEEP named is parked; a woken one
goes on. DEDUCED: log entry 80. -/
def releaseOne (park wake : List Nat) (s : State) (lc : Nat) : State :=
  let c := coreL s lc
  if c.st = .arrived then
    let s := modCoreL s lc fun c => { c with entry := ⟨c.pc, c.s, c.p, c.sTag⟩ }
    if park.contains (lc / 16) then modCoreL s lc fun c => { c with st := .parked } else startShare s lc 0
  else if c.st = .parked ∧ wake.contains (lc / 16) then startShare s lc 0
  else s

/-- A core whose next bundle lies outside the loaded code (R116). DEDUCED: log entry 29. -/
def checkFetch (s : State) (lc : Nat) : State :=
  let c := coreL s lc
  if c.st = .run ∧ bundleCount s lc ≤ c.pc then windowFault s lc c.pc 0 0x19 0xFFFF none else s

/-- The next step starts. -/
def nextShare (s : State) (r : Run) : State :=
  let s := r.toPark.foldl (fun s g => setRegionState s g 2) s
  let s := (List.range 4096).foldl (releaseOne r.toPark r.toResume) s
  (List.range 4096).foldl checkFetch s

/-- The commit (R74): everything takes effect together, then the plan ends or the next step starts. -/
def commitNow (s : State) (r : Run) (p : Plan) (e : StepEnt) : State :=
  let s := commitLinks (commitEffects s r p e)
  if lastStep p r then commitQuarantine (planEnd s stOk r.stepNo 0)
  else if r.abort then commitQuarantine (planEnd s stAborted r.stepNo 0)
  else
    let n := nextStep p r
    let s := startJobs s r.stepIdx r.stepNo
    let s := { s with run := s.run.map fun x =>
      { x with stepIdx := n.1, iter := n.2, stepNo := (r.stepNo + 1) % 2 ^ 32, stepStart := s.now,
               rel := [], toPark := [], toResume := [], held := false } }
    let s := commitQuarantine (commitMigrations (commitTags s))
    if (s.run.map fun x => x.ending.isNone).getD false then nextShare s r else s

/-- The step in progress of a plan that runs. -/
def curEntry (s : State) : Option (Run × Plan × StepEnt) :=
  match s.run, runPlan s with
  | some r, some p => if r.started && r.ending.isNone then (p.steps[r.stepIdx]?).map fun e => (r, p, e) else none
  | _, _ => none

/-- A due job delays the commit (R318): counted once. -/
def markLate (s : State) : State :=
  if s.qnc.late then s else count { s with qnc := { s.qnc with late := true } } qncBase 3 1

/-- A logical core whose table holds an uncorrectable error in an entry that the commit reads (R185). -/
def scaleBarred (s : State) : Option Nat :=
  if s.ctl.syn.isEmpty then none
  else ((logicalCores s).find? fun lp => (List.range 256).any (scaleBad s lp.2)).map (·.1)

/-- Entries with single-bit errors are corrected as the commit reads them (R185, R508). -/
def scaleSweep (s : State) : State :=
  if s.ctl.syn.isEmpty then s
  else (logicalCores s).foldl (fun s lp => (List.range 256).foldl (fun s t => scaleFix s lp.2 t) s) s

/-- Commit the step in progress when every share has arrived and nothing holds it up. DEDUCED: log entry 80. -/
def stepCommit (s : State) : State :=
  match curEntry s with
  | none => s
  | some x =>
    let s := settleStep s
    if !sharesDone s || !enginesIdle s || commitBarred s then s
    else if !(lateJobs s x.1.stepNo).isEmpty then markLate s
    else
      let b := commitBarrier s x.1.stepNo (x.2.1.fabric && x.2.2.scope = 1)
      if b.2 then
        match scaleBarred b.1 with
        | some lc => scaleLost b.1 lc
        | none => commitNow (scaleSweep b.1) x.1 x.2.1 x.2.2
      else b.1

/-- STEP_COMMIT (R74): the barrier of the step's scope releases. -/
def execStepCommit (s : State) : Host.Outcome State Fault Refusal := finish (stepCommit s)

/-- STEP_WATCHDOG (R82): the step has not committed by its deadline plus watchdog_ns. -/
def execStepWatchdog (s : State) : Host.Outcome State Fault Refusal :=
  finish (match curEntry s with
    | some x => if deadline x.1 x.2.1 x.2.2 + x.2.1.watchdog < s.now then stopPlan s stTimeout 0 else s
    | none => s)

/-! ### Replay (R77 to R83) -/

/-- Bruise delays a replay's first bundle (R444, R448). -/
def countDelay (s : State) (t : Nat) : State :=
  let b := brzBase t
  if brzOn s t && fbit s b 5 && fget s (b + 0x10) 63 44 ≠ 0 then count s b 0 1 else s

/-- Start a replay of a core's share once the poison it met has been resolved (R83). DEDUCED: log entry 81. -/
def replayAs (s : State) (lc attempt : Nat) : State :=
  let s := haltAll s lc
  let r := match (coreL s lc).poisonAt with
    | some a => resolvePoison s lc a
    | none => (s, true)
  if r.2 then startShare (countDelay (countStn r.1 16 1) (lc / 256)) lc attempt else r.1

/-- A line of a list, by a choice the hardware makes. DEDUCED: log entry 40. -/
def chooseLine (s : State) (l : List Nat) : Option Nat := l[Config.freeChoice s.free l.length % Nat.max 1 l.length]?

/-- A parity error in clean bytes of the L1: the line, its dirty bytes written back, is invalidated and fetched again (R210). DEDUCED: log entry 40. -/
def parityClean (s : State) (pk : Nat) : State :=
  let clean := ((coreOf s pk).l1.filter fun e => e.2.valid &&& ~~~e.2.dirty ≠ 0).map (·.1)
  match chooseLine s clean with
  | some lk => l1Evict (count (fresh s) (coreBase (pk / 272) (pk % 272)) 5 1) pk lk
  | none => s

/-- A parity error in dirty bytes that a slice meets (R210): their groups are withheld, and the core takes class 0x02. DEDUCED: log entry 40. -/
def parityDirty (s : State) (pk lc : Nat) : State :=
  let dirty := ((coreOf s pk).l1.filter fun e => e.2.dirty ≠ 0).map (·.1)
  match chooseLine s dirty with
  | some lk =>
    let d := (tget L1Line.init (coreOf s pk).l1 lk).dirty.toNat
    let m := (List.range 4).foldl (fun m g => if bits d (32 * g + 31) (32 * g) = 0 then m else m + 2 ^ g) 0
    let s := ensureLine (fresh s) lk
    let s := linePut s lk { lineAt s lk with withheld := (lineAt s lk).withheld ||| BitVec.ofNat 4 m, holder := lc }
    consumeFault s lc (coreOf s pk).pc 0 2 none none
  | none => s

/-- A parity error inside an attention engine while it performs a command of the core (R270): class 0x02 at the ATTCMD's bundle. -/
def engineParity (s : State) (lc k : Nat) : State :=
  let e := attIdx lc
  match (((attAt s e).queue.take 4).filter fun q => q.started && q.core = lc)[k]? with
  | some q => attAdvance (attErr s e q .parity) e
  | none => s

/-- An error of the core's circuits while it runs a share (R126, R210, R270). A byte that passes its check is no error (R412). DEDUCED: log entry 81. -/
def coreError (s : State) (lc : Nat) (x : CoreErr) : State :=
  let pk := physCore s lc
  let c := coreOf s pk
  let kind := x.kind.toNat
  if kind < 4 ∧ parityOk x.bits ∨ kind = 6 ∧ parityOk x.bits then s
  else if kind = 6 then engineParity s lc x.idx.toNat
  else if !live c then s
  else
    match kind with
    | 0 => consumeFault s lc c.pc 0 2 none none
    | 1 => consumeFault s lc c.pc 0 3 none none
    | 2 => parityClean s pk
    | 3 => parityDirty s pk lc
    | k => uncontained (count s (arrBlk pk (k - 4)) 5 1) pk lc (k - 4) none

/-- REPLAY (R77, R210): a core error ends its attempt; without one, a faulted core replays, at most twice in a step (R81). DEDUCED: log entry 81. -/
def execReplay (core : BitVec 12) (error : Option CoreErr) (s : State) : Host.Outcome State Fault Refusal :=
  let lc := core.toNat
  shaped (match error with
      | some x => x.kind.toNat ≤ 6
      | none => true) "REPLAY" (
    match error with
    | some x => coreError s lc x
    | none =>
      let c := coreL s lc
      if c.st = .faulted ∧ c.attempt < 2 then replayAs s lc (c.attempt + 1) else s)

/-- SPARE_SUBSTITUTION (R81): the second replay has faulted; the core is fenced, and the spare starts the replay as its first attempt. DEDUCED: log entry 81. -/
def execSpareSubstitution (core : BitVec 12) (s : State) : Host.Outcome State Fault Refusal :=
  let lc := core.toNat
  let pk := physCore s lc
  finish (if (coreOf s pk).st = .faulted ∧ 2 ≤ (coreOf s pk).attempt then
    let s := fenceAndSpare s pk
    if (coreL s lc).st = .faulted then replayAs (attRestart s lc) lc 0 else s
  else s)

/-! ### Step-wide replay (R79, R439) -/

/-- One logical core's share starts again as its first attempt. -/
def restartShare (s : State) (lc : Nat) : State :=
  let st := (coreL s lc).st
  if st = .off ∨ st = .parked then s
  else
    let s := abandonShare s lc
    let s := modRouter s lc fun r =>
      { r with effLocal := [], cur := [], rcv := [], arrK := [], standing := [] }
    startShare (attRestart s lc) lc 0

/-- Refill a step's reduction targets with zeros (R79). -/
def zeroTargets (s : State) (p : Plan) (e : StepEnt) : State :=
  (stepSet p e.redFirst e.redCount).foldl (fun s q =>
    (linesOf q.1 q.2).foldl (fun s x => lineWrite s x.1 0 (List.replicate 128 (0, false))) s) s

/-- The step replays step-wide. DEDUCED: log entry 32. -/
def stepWide (s : State) (p : Plan) (e : StepEnt) (cause tower idx : Nat) : State :=
  let s := notice (countStn s 16 1) 0x101A 0 0xFFFF 0xFF (cause + tower * 2 ^ 8 + idx * 2 ^ 16)
  let s := zeroTargets { s with llc := { s.llc with redQ := [], redPoison := [] } } p e
  let s := { s with llc := { s.llc with lines := s.llc.lines.map fun l => (l.1, { l.2 with reduced := false, withheld := 0 })
                                        redPoison := [] }
                    run := s.run.map fun r => { r with rel := [], sigs := [] } }
  (List.range 4096).foldl restartShare s

/-- The report that causes the replay is there: a slice that holds its arrival back (R210, R229). -/
def wideDue (s : State) (cause sl : Nat) : Bool :=
  if cause = 1 then s.llc.redPoison.contains sl
  else cause = 2 && s.llc.lines.any fun e => e.2.withheld ≠ 0 && lineSlice s e.1 = sl

/-- A disagreement in a commit's identity words (R439): the core is quarantined and its position moves to a spare. The in-band state is
what the unit reported, which the row does not carry. -/
def wideIdentity (s : State) (pk : Nat) : State :=
  let st := coreState s pk
  let s := setQuar (setCoreState s pk csQuar) 0 pk (some 0)
  let s := quarNotice s 0 (pk / 272) (pk % 272) st ((Config.freeWord s.free).toNat % 256)
  takeOver (fresh s) pk

/-- STEP_WIDE_REPLAY (R79): cause 1 a poisoned reduction target, 2 a withheld group, 3 an identity disagreement of a core that has a share. DEDUCED: log entry 81. -/
def execStepWideReplay (cause tower : BitVec 4) (idx : BitVec 9) (s : State) : Host.Outcome State Fault Refusal :=
  let u := tower.toNat * 272 + idx.toNat
  shaped (1 ≤ cause.toNat && cause.toNat ≤ 3 && idx.toNat < 272) "STEP_WIDE_REPLAY" (
    match curEntry s with
    | none => s
    | some x =>
      if !sharesDone s then s
      else if cause.toNat = 3 then
        if ((logicalCore s u).map fun lc => decide ((coreL s lc).st = .arrived)).getD false then
          let s := wideIdentity s u
          if (curEntry s).isSome then stepWide s x.2.1 x.2.2 3 tower.toNat idx.toNat else s
        else s
      else if wideDue s cause.toNat u then stepWide s x.2.1 x.2.2 cause.toNat tower.toNat idx.toNat
      else s)

end Sys2Proof.Machine
end

