-- ==== Sys2Proof/Machine/RegWrite.lean ====
section
/-! DEFINITION. Writes to control space (R7 to R9, R31, R43 to R48, R458, R504): who may write, what each field takes, the
locks of each register, and what a write starts. -/

namespace Sys2Proof.Machine

/-- A write that reaches a granule: which halves it writes, and their bits (the other half is 0). -/
structure GWrite where
  who : Who
  lo : Bool
  hi : Bool
  val : Nat
deriving DecidableEq, Repr

/-- The 64 bits a write leaves for the RW fields: a half not written keeps its present value (R48). -/
def GWrite.over (w : GWrite) (old : Nat) : Nat :=
  (if w.lo then w.val % 2 ^ 32 else old % 2 ^ 32) + (if w.hi then w.val / 2 ^ 32 else old / 2 ^ 32) % 2 ^ 32 * 2 ^ 32

/-- The bits written as 1, in the halves written: the live low half that a lone high half commits with writes none. DEDUCED: log entry 11. -/
def GWrite.ones (w : GWrite) : Nat := (if w.lo then w.val % 2 ^ 32 else 0) + (if w.hi then w.val / 2 ^ 32 % 2 ^ 32 else 0) * 2 ^ 32

/-- The field's bits lie in a half that is written. -/
def GWrite.reaches (w : GWrite) (f : Fld) : Bool := (w.lo && f.lo < 32) || (w.hi && 32 ≤ f.hi)

/-! ### Locks and ranges -/

/-- The host, or firmware of the tower. -/
def isPith : Who → Bool
  | .pith _ => true
  | _ => false

/-- A write to the whole register has no effect: its lock is set, or its requester is not the one it names. -/
def regLocked (s : State) (b : Blk) (r : Nat) (who : Who) : Bool :=
  match b.kind with
  | .idg => fabEnabled s && (r = 0x20 || 0x4000 ≤ r)
  | .brz => !brzOn s b.tower
  | .core => s.run.isSome && 0x1000 ≤ r
  | .arr => ((r = 0x10 || r = 0x18) && !isPith who) || (r = 0x20 && !(isPith who || who = .stone))
  | .cl => 0x10 ≤ r && r < 0x30 && who ≠ .stone
  | .stn => (r = 0x1000 && ringOn s) || (r = 0x1010 && recOn s) || (r = 0x2000 && s.run.isSome) || (r = 0x2008 && fabEnabled s)
  | .qnc => (s.run.isSome && (r = 0x100 || r = 0x108 || 0x10000 ≤ r)) || (0x1000 ≤ r && r < 0x1100)
  | _ => false

/-- The sizes of R347. -/
def fabricSizes : List Nat := [1, 2, 3, 5, 9, 17, 33, 65, 129, 257, 513]

/-- Entries of a core's scale table with share other than 0, leaving out the one at offset r (R185). -/
def sharedBut (s : State) (b : Blk) (r : Nat) : Nat :=
  ((List.range 256).filter fun t => 0x1000 + 16 * t ≠ r && fget s (b.base + 0x1000 + 16 * t) 35 34 ≠ 0).length

/-- A scale entry's field takes the value (R185, R504). DEDUCED: log entry 12. -/
def scaleOk (s : State) (b : Blk) (r : Nat) (f : Fld) (x : Nat) : Bool :=
  if f.lo = 34 then x ≠ 3 && (x = 0 || sharedBut s b r < 64)
  else if f.lo = 36 then x ≤ 0xB
  else if f.lo = 0 then -64 ≤ signed 8 x && signed 8 x ≤ 64
  else true

/-- A field of STN_FABRIC_CFG takes the value: while enable is 1 only enable does (R351); members is 16 beside two or more bunches, and
else 2 to 16 (R347). `n` is the word as the write would leave it. DEDUCED: log entry 12. -/
def fabricOk (s : State) (n : Nat) (f : Fld) (x : Nat) : Bool :=
  if f.lo = 63 then true
  else !fabEnabled s && (
    if f.lo = 6 then fabricSizes.contains x
    else if f.lo = 0 then
      let nb := if fabricSizes.contains (bits n 15 6) then bits n 15 6 else fget s (stnBase + 0x2000) 15 6
      if 2 ≤ nb then x = 16 else 2 ≤ x && x ≤ 16
    else true)

/-- The positions of a map with one granule replaced by n, the upper one when `hi` (R429). -/
def mapWith (s : State) (b : Blk) (o n : Nat) (hi : Bool) : List Nat :=
  let half (h : Bool) : Nat := if h = hi then n else (regGet s (b.base + o + 8 * b2n h)).toNat
  (List.range 16).map fun k => bits (half (8 ≤ k)) (8 * (k % 8) + 4) (8 * (k % 8))

/-- A write leaves CL_CORE_MAP or CL_COL_MAP one-to-one onto physical indices 0 to 16 (R17, R429). DEDUCED: log entry 14. -/
def mapOk (s : State) (b : Blk) (r n : Nat) : Bool :=
  let m := mapWith s b (if r < 0x20 then 0x10 else 0x20) n (r % 16 = 8)
  m.all (· ≤ 16) && decide m.Nodup

/-- A field of STN_CMD_RING_CFG or STN_REC_CFG takes the value (R86). DEDUCED: log entry 12. -/
def ringOk (on : Bool) (f : Fld) (x : Nat) : Bool := f.lo ≠ 0 || (!on && 6 ≤ x && x ≤ 16)

/-- An RW field takes a value: not reserved, inside the stated range, and not locked (R504). `n` is the word as the write would leave
it. DEDUCED: log entry 12. DEDUCED: log entry 14. -/
def fieldTakes (s : State) (b : Blk) (r n : Nat) (f : Fld) (x : Nat) : Bool :=
  match b.kind with
  | .pth => false
  | .brz => r ≠ 0 && (r ≠ 0x40 || (if f.lo = 48 then x < 5 else if f.lo = 56 ∨ f.lo = 60 then x ≤ 12 else true))
  | .core => !(0x1000 ≤ r && r < 0x2000 && r % 16 = 0) || scaleOk s b r f x
  | .arr => (r ≠ 0x10 && r ≠ 0x18) && (r ≠ 0x20 || f.lo ≠ 0 || x ≠ 3)
  | .cl => mapOk s b r n
  | .stn =>
    if r = 0x1008 then ringOk (ringOn s) f x
    else if r = 0x1018 then ringOk (recOn s) f x
    else if r = 0x2000 then fabricOk s n f x
    else if r = 0x2008 then x < 30
    else true
  | .boot => f.lo ≠ 32 || (0x9000 ≤ x && x ≤ 48 * 2 ^ 20)
  | .qnc => (r ≠ 0x108 || f.hi ≠ 10 || x ≤ 1024) && (!(0x10000 ≤ r && r < 0x20000 && r % 16 = 0) || scaleOk s b r f x)
  | _ => true

/-- The stored value after a write, field by field (R7 to R9, R504). DEDUCED: log entry 14. -/
def storeValue (s : State) (b : Blk) (r old : Nat) (w : GWrite) : Nat :=
  (flds b.kind b.idx r).foldl (fun acc f =>
    let x := bits (w.over old) f.hi f.lo
    match f.acc with
    | .rw => if w.reaches f && fieldTakes s b r (w.over old) f x then putBits acc f.hi f.lo x else acc
    | .w1c => putBits acc f.hi f.lo (bits old f.hi f.lo &&& (2 ^ (f.hi + 1 - f.lo) - 1 - bits w.ones f.hi f.lo))
    | _ => acc) old

/-! ### What a write starts -/

/-- A ring or area whose enable goes from 0 to 1 starts at index 0, with its doorbell (R87). -/
def ringStarts (s : State) (r : Nat) : State :=
  let s := fset s (stnBase + r) 63 32 0
  if r = 0x1008 then { s with cmd := { s.cmd with cmdTail := 0 } } else { s with cmd := { s.cmd with recHead := 0 } }

/-- Bad columns written by Pith (R160, R162): the array's repair state follows, and a core that has become unusable leaves its position. DEDUCED: log entry 17. DEDUCED: log entry 37. -/
def badColsWritten (s : State) (pk n v : Nat) : State :=
  repairActs (writeBadCols s pk n v) pk n (repairState s pk n)

/-- Either granule of ARR_BAD_COLS takes a value. DEDUCED: log entry 17. -/
def badColsHalf (s : State) (b : Blk) (r : Nat) (w : GWrite) : State :=
  let lo := (regGet s (b.base + 0x10)).toNat
  let hi := (regGet s (b.base + 0x18)).toNat
  let v := if r = 0x10 then w.over lo + hi * 2 ^ 64 else lo + w.over hi * 2 ^ 64
  badColsWritten s (b.tower * 272 + b.idx / 2) (b.idx % 2) v

/-- The log of a block is emptied (R424). DEDUCED: log entry 16. -/
def clearLog (s : State) (b : Blk) : State :=
  let s := (List.range 16).foldl (fun s j => regPut s (b.base + 0x400 + 8 * j) 0) s
  fset (fset s (b.base + 0x480) 4 0 0) (b.base + 0x480) 5 5 0

/-- Warm resets of the towers whose bits are written 1 (R433). DEDUCED: log entry 15. -/
def resetTowers (s : State) (m : Nat) : State :=
  (List.range 16).foldl (fun s t => if m.testBit t then warmReset s t 0 else s) s

/-- The pool_units field takes a value (R33, R34): 9 to 15, and any value while locked, have no effect. -/
def writePoolUnits (s : State) (t v : Nat) : State :=
  if fbit s (pthBase t + 0x100) 31 || 8 < v then s else setPoolUnits s t v

/-- An entry of the route tables (R352). -/
def isRoute (r : Nat) : Bool := (0x4000 ≤ r && r < 0x4080) || (0x8000 ≤ r && r < 0x8000 + 8 * 1026)

/-- What a write starts, after its fields have been stored in `s`; `old` is the value before. -/
def writeStarts (s : State) (b : Blk) (r old : Nat) (w : GWrite) : State :=
  let g := b.base + r
  let rise (k : Nat) : Bool := !old.testBit k && fbit s g k
  match b.kind with
  | .pth => if r = 0x100 && w.lo then writePoolUnits s b.tower (bits w.val 3 0) else s
  | .idg => if isRoute r then fset s g 57 56 0 else s
  | .brz =>
    if r = 0 then brzCtl s b.tower (w.over old)
    else if r = 0x48 && w.ones.testBit 0 then injGo s b.tower
    else s
  | .arr => if r = 0x10 || r = 0x18 then badColsHalf s b r w else s
  | .core => if 0x1000 ≤ r then { s with ctl := { s.ctl with syn := tclear s.ctl.syn g (g + 8) } } else s
  | .cl =>
    if 0x10 ≤ r && r < 0x30 && (regGet s g).toNat ≠ old then fset s (b.base + 0x30) 31 0 ((fget s (b.base + 0x30) 31 0 + 1) % 2 ^ 32)
    else s
  | .stn =>
    if (r = 0x1008 || r = 0x1018) && rise 31 then ringStarts s r
    else if r = 0x2000 then
      if rise 63 then enableFabric s
      else if old.testBit 63 && !fbit s g 63 then disableFabric s
      else s
    else if r = 0x3000 then resetTowers s (bits w.ones 15 0)
    else s
  | .boot => if r = 0x108 && w.ones.testBit 0 then rcvGo s else s
  | .qnc => if 0x1000 ≤ r && r < 0x1400 && r % 16 = 0 && w.ones.testBit 48 then ruleLoad s ((r - 0x1000) / 16) else s
  | _ => s

/-- A write reaches a granule of a block that is in service. -/
def granuleWrite (s : State) (b : Blk) (g : Nat) (w : GWrite) : State :=
  let r := g - b.base
  if regLocked s b r w.who then s
  else if 0x700 ≤ r && r < 0x780 then clearOvf s b ((r - 0x700) / 8) (BitVec.ofNat 64 w.ones)
  else if hasCeLog b.kind && r = 0x480 then (if w.ones.testBit 8 then clearLog s b else s)
  else
    let old := (regGet s g).toNat
    writeStarts (regPut s g (BitVec.ofNat 64 (storeValue s b r old w))) b r old w

/-! ### Accesses -/

/-- A requester may read a block (R45, R497). -/
def readRight (b : Blk) : Who → Bool
  | .host => true
  | .stone => true
  | .pith t => b.base < 0x40000000 && b.tower = t.toNat
  | .i3c => true
  | .hart _ => b.kind = .qnc || b.kind = .qch

/-- A requester may write a block (R45, R497). DEDUCED: log entry 13. -/
def writeRight (b : Blk) : Who → Bool
  | .i3c => b.kind = .pip
  | w => readRight b w

/-- A write of 8 or 4 bytes inside a block: a low half of a 64-bit register is held, and a high half commits with it (R44, R48). DEDUCED: log entry 11. -/
def heldWrite (s : State) (b : Blk) (who : Who) (off : Nat) (wide : Bool) (data : Nat) : State :=
  let g := off / 8 * 8
  let key := latchKey (whoNum who) b.base
  let s := dropHold s key g
  let free (s : State) : State := { s with ctl := { s.ctl with whold := tdel s.ctl.whold key } }
  if wide then granuleWrite (free s) b g ⟨who, true, true, data % 2 ^ 64⟩
  else if off % 8 = 0 then
    if isWide g then { s with ctl := { s.ctl with whold := tput s.ctl.whold key (g, BitVec.ofNat 32 data) } }
    else granuleWrite s b g ⟨who, true, false, data % 2 ^ 32⟩
  else
    match (tget? s.ctl.whold key).filter fun _ => isWide g with
    | some h => granuleWrite (free s) b g ⟨who, true, true, h.2.toNat + data % 2 ^ 32 * 2 ^ 32⟩
    | none => granuleWrite s b g ⟨who, false, true, data % 2 ^ 32 * 2 ^ 32⟩

/-- A write to control space (R31, R43 to R48, R458): the host's bad or unserved requests are Unsupported Requests, the others have no effect. DEDUCED: log entry 11. -/
def ctlWrite (s : State) (who : Who) (off : Nat) (wide : Bool) (data : Nat) : State :=
  let bad (s : State) : State := if who = .host then unsupported s false else s
  if who = .host && !hostReach s then unsupported s false
  else if !ctlOk s off (if wide then 8 else 4) then bad s
  else
    match blkOf off with
    | none => bad s
    | some b => if writeRight b who && s.boot.pwrgd && (who ≠ .host || inService s b.kind) then heldWrite s b who off wide data else s

/-- A read of control space (R31, R43 to R48, R458). The host's answer leaves in a Completion: 0 for a block not yet in service, and
Unsupported Request for what breaks R43 or is not served. DESIGN CHOICE: log entry 86. -/
def ctlReads (s : State) (who : Who) (off n : Nat) : State :=
  let host : Bool := who = .host
  let give (s : State) (v : Nat) : State := if host then emit s (.completion 0 (leBytes n v) false) else s
  let bad (s : State) : State := if host then unsupported s true else s
  if host && !hostReach s then unsupported s true
  else if !((n = 4 || n = 8) && ctlOk s off n) then bad s
  else
    match blkOf off with
    | none => bad s
    | some b =>
      if !(readRight b who && s.boot.pwrgd) then s
      else if host && !inService s b.kind then give s 0
      else
        let r := ctlRead s (whoNum who) off (n = 8)
        give r.1 r.2

/-- A write of n bytes: 4 and 8 are accesses of R43, any other number is a window violation (R31, R43, R480). DESIGN CHOICE: log entry 86. -/
def ctlWriteN (s : State) (who : Who) (off n data : Nat) : State :=
  if n = 8 then ctlWrite s who off true data
  else if n = 4 then ctlWrite s who off false data
  else if n = 0 then s
  else if who = .host then unsupported s false
  else s

/-- One read of a requester: of control space, or by the host of BAR4. DESIGN CHOICE: log entry 86. -/
def regRead (s : State) (who : Who) (r : RegRd) : State :=
  if r.bar4 then (if who = .host then bar4Read s r.off.toNat r.size else s) else ctlReads s who r.off.toNat r.size

/-! ### The rows -/

/-- REGISTER_WRITE (R7): a write to any register, after the reads its requester makes. DEDUCED: log entry 13. DESIGN CHOICE: log entry 86. -/
def execRegisterWrite (w : RegWr) (s : State) : Host.Outcome State Fault Refusal :=
  let s := w.reads.foldl (fun s r => regRead s w.who r) s
  finish (
    if w.bar4 then (if w.who = .host ∧ w.size ≠ 0 then bar4Write s w.off.toNat w.size (w.data.toNat % 2 ^ 32) else s)
    else ctlWriteN s w.who w.off.toNat w.size w.data.toNat)

/-- FABRIC_ENABLE (R351): a write of STN_FABRIC_CFG with enable 1. -/
def execFabricEnable (who : Who) (data : W64) (s : State) : Host.Outcome State Fault Refusal :=
  finish (ctlWrite s who (stnBase + 0x2000) true (setField data 63 63 1).toNat)

/-- FABRIC_DISABLE (R351): a write of STN_FABRIC_CFG with enable 0. -/
def execFabricDisable (who : Who) (data : W64) (s : State) : Host.Outcome State Fault Refusal :=
  finish (ctlWrite s who (stnBase + 0x2000) true (setField data 63 63 0).toNat)

/-- STN_TOWER_RESET (R433): a write of its tower bits. DEDUCED: log entry 15. -/
def execStnTowerReset (who : Who) (towers : BitVec 16) (s : State) : Host.Outcome State Fault Refusal :=
  finish (ctlWrite s who (stnBase + 0x3000) false towers.toNat)

/-- CNT_OVF (R52): an 8-byte write to a counter overflow register. DEDUCED: log entry 16. -/
def execCntOvf (who : Who) (off : BitVec 31) (data : W64) (s : State) : Host.Outcome State Fault Refusal :=
  let o := off.toNat
  shaped (match blkOf o with
    | some b => 0x700 ≤ o - b.base && o - b.base < 0x780 && o % 8 = 0
    | none => false) "CNT_OVF" (ctlWrite s who o true data.toNat)

/-- PTH_WINDOW_CFG of a tower (R33, R34). -/
def execPthWindowCfg (who : Who) (tower : BitVec 4) (data : W32) (s : State) : Host.Outcome State Fault Refusal :=
  finish (ctlWrite s who (pthBase tower.toNat + 0x100) false data.toNat)

/-- PCI_HOST_WIN_BASE (R35, R36). -/
def execPciHostWinBase (who : Who) (data : W64) (s : State) : Host.Outcome State Fault Refusal :=
  finish (ctlWrite s who (pciBase + 0x120) true data.toNat)

/-- PCI_BAR2_WIN (R481). -/
def execPciBar2Win (who : Who) (data : W64) (s : State) : Host.Outcome State Fault Refusal :=
  finish (ctlWrite s who (pciBase + 0x100) true data.toNat)

/-- STN_CMD_RING_CFG (R86, R87). -/
def execStnCmdRingCfg (who : Who) (data : W32) (s : State) : Host.Outcome State Fault Refusal :=
  finish (ctlWrite s who (stnBase + 0x1008) false data.toNat)

/-- STN_REC_CFG (R86, R87). -/
def execStnRecCfg (who : Who) (data : W32) (s : State) : Host.Outcome State Fault Refusal :=
  finish (ctlWrite s who (stnBase + 0x1018) false data.toNat)

/-- CE_LOG_CTL of a block that keeps an error log (R424). DEDUCED: log entry 16. -/
def execCeLogCtl (who : Who) (off : BitVec 31) (data : W32) (s : State) : Host.Outcome State Fault Refusal :=
  let o := off.toNat
  shaped (match blkOf o with
    | some b => hasCeLog b.kind && o = b.base + 0x480
    | none => false) "CE_LOG_CTL" (ctlWrite s who o false data.toNat)

/-- ARR_BAD_COLS (R160, R162): both halves, written by the tower's Pith. DEDUCED: log entry 17. -/
def execArrBadCols (who : Who) (tower : BitVec 4) (core : BitVec 9) (arr : BitVec 1) (data : BitVec 128) (s : State) :
    Host.Outcome State Fault Refusal :=
  let b := arrBase tower.toNat core.toNat arr.toNat
  shaped (core.toNat < 272) "ARR_BAD_COLS" (
    ctlWrite (ctlWrite s who (b + 0x10) true (data.toNat % 2 ^ 64)) who (b + 0x18) true (data.toNat / 2 ^ 64))

end Sys2Proof.Machine
end

