-- ==== Sys2Proof/Machine/Thermal.lean ====
section
/-! DEFINITION. Heat (R402 to R408): the layer model and the trust in sensors, refresh rates (R243), thermal emergency limits (R395), the
thermal trip (R405), and the coolant. Temperatures of readings are in 1/16 °C; model values are FP32 in °C. -/

namespace Sys2Proof.Machine

/-! ### Sensors (R402) -/

/-- Sensors of a tower: 0 to 63 of the core die, 64 + 16(k − 1) + c of memory die M(k). The layer and the cluster of one. -/
def sensorLayer (i : Nat) : Nat := if i < 64 then 0 else (i - 64) / 16 + 1
def sensorCluster (i : Nat) : Nat := if i < 64 then i / 4 else (i - 64) % 16

/-- THM_SENSOR of a sensor. -/
def sensorReg (t i : Nat) : Nat := thmBase t + 0x1000 + 8 * i

/-- A reading is valid between −40 °C and 150 °C (R402). -/
def goodReading : Option Int → Option Int
  | some r => if -640 ≤ r ∧ r ≤ 2400 then some r else none
  | none => none

def suspect (s : State) (t i : Nat) : Bool := fbit s (sensorReg t i) 48

/-! ### FP32 temperatures -/

/-- n/d as FP32, rounded to nearest even. -/
def f32Frac (n : Int) (d : Nat) : Nat := (fp32.convert .rne (decide (n < 0)) ⟨n.natAbs, d, 0⟩).1

/-- A value times 16 as an integer, rounded down, and rounded up; 0 for a NaN or an infinity. DESIGN CHOICE: log entry 64. -/
def sixteenths (a : Nat) : Int × Int :=
  match fp32.decode a with
  | .fin neg m x =>
    let e := x + 4
    let n := if 0 ≤ e then m * 2 ^ e.toNat else m
    let d := if 0 ≤ e then 1 else 2 ^ (-e).toNat
    let v : Int := if neg then -(n : Int) else n
    (v.fdiv d, -((-v).fdiv d))
  | _ => (0, 0)

/-- A reading as FP32. -/
def f32Reading (r : Int) : Nat := f32Frac r 16

/-! ### The layer model (R403, R404) -/

/-- Model value of a sensor. DESIGN CHOICE: log entry 64. -/
def tmOf (s : State) (t i : Nat) : Option W32 := tget? s.pwr.tm (t * 192 + i)

/-- The anchor of a sensor (R404): its reading, or its model value while it is suspect. DESIGN CHOICE: log entry 64. -/
def anchor (s : State) (t : Nat) (rd : List (Option Int)) (i : Nat) : Nat :=
  match suspect s t i, rd.getD i none with
  | false, some r => f32Reading r
  | _, _ => ((tmOf s t i).getD 0).toNat

/-- The anchor of layer k at cluster c: the mean of the four sensors on the core die, the coolant outlet above M8. -/
def layerAnchor (s : State) (t : Nat) (rd : List (Option Int)) (k c : Nat) : Nat :=
  if k = 0 then
    let a (j : Nat) : Nat := anchor s t rd (4 * c + j)
    fp32.mul (fp32.add (fp32.add (fp32.add (a 0) (a 1)) (a 2)) (a 3)) (f32Frac 1 4)
  else if k ≤ 8 then anchor s t rd (64 + 16 * (k - 1) + c)
  else f32Frac (fgetS s (pwmBase + 0x60) 31 16) 10

/-- The new model value of layer k at cluster c from the old one (R403). A sensor that has none takes E. DESIGN CHOICE: log entry 64. -/
def modelStep (s : State) (t : Nat) (rd : List (Option Int)) (k c : Nat) (old : Option W32) : Nat :=
  let co (kind : Nat) : Nat := (Config.thermCoeff kind t k).toNat
  let q := (tget 0 s.pwr.qmap (t * 16 + c)).toNat
  let e := if k = 0 then fp32.add (layerAnchor s t rd 1 c) (fp32.mul (co 0) q)
    else fp32.add (fp32.add (fp32.mul (co 1) (layerAnchor s t rd (k - 1) c)) (fp32.mul (co 2) (layerAnchor s t rd (k + 1) c)))
      (fp32.mul (co 0) q)
  match old with
  | none => e
  | some x => fp32.add x.toNat (fp32.mul (fp32.sub e x.toNat) (co 3))

/-- A reading and a model value differ by more than 8 K. -/
def farOff (r : Int) (tm : Nat) : Bool :=
  let q := sixteenths tm
  128 < r - q.1 || 128 < q.2 - r

/-- Sensors of a layer of tower t that are suspect. -/
def suspectCount (s : State) (t k : Nat) : Nat :=
  ((List.range 192).filter fun i => sensorLayer i = k && suspect s t i).length

/-- A sensor becomes suspect (R404). -/
def makeSuspect (s : State) (t i : Nat) (r : Option Int) : State :=
  if suspect s t i then s
  else
    let tm := ((tmOf s t i).getD 0).toNat
    let s := count (fset s (sensorReg t i) 48 48 1) (thmBase t) 0 1
    let det := unsigned 16 (r.getD (fgetS s (sensorReg t i) 15 0)) + unsigned 16 (sixteenths tm).1 * 2 ^ 16 + b2n r.isNone * 2 ^ 32
    let s := notice s 0x0301 1 i t det
    let k := sensorLayer i
    let n := suspectCount s t k
    let key := t * 16 + k
    if (if k = 0 then 16 < n else 4 < n) ∧ ¬ s.pwr.suspectDies.contains key then
      notice { s with pwr := { s.pwr with suspectDies := sadd s.pwr.suspectDies key } } 0x0304 1 i t (n + k * 2 ^ 8)
    else s

/-- The governing value of a sensor in 1/16 °C, rounded down and up (R404); none when it has no value. -/
def governing (s : State) (t i : Nat) (r : Option Int) : Option (Int × Int) :=
  if suspect s t i then
    let q := sixteenths (fp32.add ((tmOf s t i).getD 0).toNat (f32Frac 5 1))
    some (match r with
      | some x => (max q.1 x, max q.2 x)
      | none => q)
  else r.map fun x => (x, x)

/-- One sensor at a sample: model, trust, and its register. -/
def sensorStep (rd : List (Option Int)) (t : Nat) (new : List Nat) (s : State) (i : Nat) : State :=
  let r := rd.getD i none
  let key := t * 192 + i
  let tm := new.getD i 0
  let s := { s with pwr := { s.pwr with tm := tput s.pwr.tm key (BitVec.ofNat 32 tm) } }
  let far : Bool := match r with
    | some x => farOff x tm
    | none => false
  let since := (tget? s.pwr.diffSince key).getD s.now
  let s := { s with pwr := { s.pwr with diffSince := if far then tput s.pwr.diffSince key since else tdel s.pwr.diffSince key } }
  let s := if far ∧ since + 10000000 ≤ s.now then makeSuspect s t i r else s
  let o := sensorReg t i
  let s := fset (fset s o 49 49 (b2n r.isNone)) o 31 16 (unsigned 16 (sixteenths tm).1)
  let s := match r with
    | some x => fset s o 15 0 (unsigned 16 x)
    | none => s
  match governing s t i r with
  | some g => fset s o 47 32 (unsigned 16 g.1)
  | none => s

/-- Governing values of the sensors above a region on the memory dies, and of its core-die sensors, with their sensor. -/
def above (s : State) (t c : Nat) (rd : List (Option Int)) (core : Bool) : List (Nat × Int × Int) :=
  let is := if core then (List.range 4).map (4 * c + ·) else (List.range 8).map fun k => 64 + 16 * k + c
  is.filterMap fun i => (governing s t i (rd.getD i none)).map fun g => (i, g.1, g.2)

/-- The largest value of a list, by the rounded-down part. -/
def hottest (l : List (Nat × Int × Int)) : Nat × Int × Int :=
  l.foldl (fun m x => if m.2.1 < x.2.1 ∨ (m.2.1 = x.2.1 ∧ m.2.2 < x.2.2) then x else m) (0, -640, -640)

/-! ### Refresh (R243) -/

/-- The refresh rate of a channel follows its governing temperature g. DESIGN CHOICE: log entry 64. -/
def refreshStep (g : Int × Int) (s : State) (ch : Nat) : State :=
  let deg := unsigned 8 (max 0 (g.1 / 16))
  let s := fset s (chBase ch) 47 40 deg
  let s := modChan s ch fun c => { c with coolSince := if g.2 ≤ 1440 then some (c.coolSince.getD s.now) else none }
  if 1488 ≤ g.1 ∧ !fbit s (chBase ch) 5 then notice (fset s (chBase ch) 5 5 1) 0x0501 1 (ch % 272) (ch / 272) deg else s

/-! ### Emergency limits and the trip (R395, R405) -/

/-- Show a region's thermal emergency limit. -/
def putTherm (s : State) (r : Nat) (p : Prot) : State :=
  fset { s with pwr := { s.pwr with therm := tset Prot.init s.pwr.therm r p } } (regionReg r) 14 8 p.limit

/-- A region above a level (R395): its limit becomes L − 8, no lower than 8. -/
def enterTherm (s : State) (r : Nat) (core : Bool) (h : Nat × Int × Int) : State :=
  let lim := Nat.max 8 (effLimit s r - 8)
  let s := putTherm s r ⟨lim, s.now, none, false, true⟩
  let s := { s with pwr := { s.pwr with thermCore := if core then sadd s.pwr.thermCore r else sdel s.pwr.thermCore r } }
  let s := notice (count s (thmBase (r / 16)) 1 1) 0x0302 1 h.1 (r / 16)
    (unsigned 16 h.2.1 + r % 16 * 2 ^ 16 + lim * 2 ^ 20)
  capChanged s

/-- The thermal conditions of a region at a sample. -/
def regionHeat (rd : List (Option Int)) (t : Nat) (s : State) (c : Nat) : State :=
  let r := t * 16 + c
  let m := hottest (above s t c rd false)
  let k := hottest (above s t c rd true)
  let s := ((List.range 17).map fun p => t * 272 + 17 * c + p).foldl (refreshStep m.2) s
  let hot : Bool := 1680 < m.2.2 || 1760 < k.2.2
  let cool : Bool := m.2.2 ≤ 1648 && k.2.2 ≤ 1728
  let trip : Bool := 1792 ≤ m.2.1 || 1920 ≤ k.2.1
  let worst : Nat × Int × Int := if (1792 : Int) ≤ m.2.1 then m else k
  let since := ((tget? s.pwr.tripSince r).map (·.1)).getD s.now
  let trips := if trip then tput s.pwr.tripSince r (since, unsigned 16 worst.2.1 + worst.1 * 65536) else tdel s.pwr.tripSince r
  let s := { s with pwr := { s.pwr with tripSince := trips } }
  let p := tget Prot.init s.pwr.therm r
  if hot then
    if p.limit = 64 then enterTherm s r (decide (m.2.2 ≤ 1680)) (if 1680 < m.2.2 then m else k)
    else putTherm s r { p with hot := true, okSince := none, rise := false }
  else if p.limit < 64 then putTherm s r { p with hot := false, okSince := if cool then some (p.okSince.getD s.now) else none }
  else s

/-- SENSOR_SAMPLE (R402 to R404): the 192 sensors of a tower in order, a missed sample as none. DESIGN CHOICE: log entry 64. -/
def execSensorSample (tower : BitVec 4) (readings : List (Option Int)) (s : State) : Host.Outcome State Fault Refusal :=
  let t := tower.toNat
  let rd := readings.map goodReading
  let bad := ((indexed rd).filter fun e => e.2.isNone).map (·.1)
  let s1 := bad.foldl (fun s i => makeSuspect s t i none) s
  let new := (List.range 192).map fun i => modelStep s1 t rd (sensorLayer i) (sensorCluster i) (tmOf s1 t i)
  let s2 := (List.range 192).foldl (sensorStep rd t new) s1
  shaped (readings.length = 192) "SENSOR_SAMPLE" ((List.range 16).foldl (regionHeat rd t) s2)

/-- THERMAL_EMERGENCY_STEP (R395): a further 8 after 1 ms above the level, down to 8. -/
def execThermalEmergencyStep (region : BitVec 8) (s : State) : Host.Outcome State Fault Refusal :=
  let r := region.toNat
  let p := tget Prot.init s.pwr.therm r
  finish (if p.limit < 64 ∧ p.hot ∧ p.last + 1000000 ≤ s.now then
      capChanged (putTherm s r { p with limit := Nat.max 8 (p.limit - 8), last := s.now })
    else s)

/-- THERMAL_TRIP (R405): a governing value has stood at the trip level for 1 ms; the region is powered off. -/
def execThermalTrip (region : BitVec 8) (s : State) : Host.Outcome State Fault Refusal :=
  let r := region.toNat
  finish (match tget? s.pwr.tripSince r with
    | some e =>
      if e.1 + 1000000 ≤ s.now ∧ regionState s r ≠ 3 then
        let s := notice (count s (thmBase (r / 16)) 2 1) 0x0303 1 (e.2 / 65536) (r / 16) (e.2 % 65536 + r % 16 * 2 ^ 16)
        regionsOff s [r]
      else s
    | none => s)

/-! ### Coolant (R407, R408) -/

/-- The derate of R408, in 64ths: inlet in 0.1 °C, flow in 0.1 L/min. -/
def coolantDerate (inlet : Int) (flow : Nat) : Nat :=
  let a := if inlet ≤ 320 then 64 else 64 - 4 * Nat.min 8 (ceilDiv (inlet - 320).toNat 10)
  let b := if flow < 180 then 64 * flow / 180 else 64
  Nat.min a b

/-- The detail of the coolant notices (R410). -/
def coolantDetail (inlet : Int) (flow d : Nat) : Nat := unsigned 16 inlet + flow * 2 ^ 16 + d * 2 ^ 32

/-- The protective limit of R408: 16/64 above 40 °C inlet or below 9 L/min. DEDUCED: log entry 66. -/
def coolantLimit (s : State) (inlet : Int) (flow d : Nat) : State :=
  let c := s.pwr.coolant
  if 400 < inlet ∨ flow < 90 then
    if c.limit = 64 then
      let s := showEmergency { s with pwr := { s.pwr with coolant := ⟨16, s.now, none, false, true⟩ } }
      capChanged (notice (count s pwmBase 1 1) 0x1504 0 0xFFFF 0xFF (coolantDetail inlet flow d))
    else { s with pwr := { s.pwr with coolant := { c with hot := true, rise := false } } }
  else if c.limit < 64 then { s with pwr := { s.pwr with coolant := { c with hot := false, rise := true } } }
  else s

/-- COOLANT_READ (R407, R408). -/
def execCoolantRead (inlet outlet : Int) (flow : BitVec 16) (s : State) : Host.Outcome State Fault Refusal :=
  let f := flow.toNat
  let d := coolantDerate inlet f
  let s := regPut s (pwmBase + 0x60) (BitVec.ofNat 64 (unsigned 16 inlet + unsigned 16 outlet * 2 ^ 16 + f * 2 ^ 32))
  let s := showPlanned (setWant s 3 d)
  let s := if d < 64 ∧ !s.pwr.coolantEpisode then notice s 0x1503 0 0xFFFF 0xFF (coolantDetail inlet f d) else s
  let s := { s with pwr := { s.pwr with
      coolantEpisode := d < 64, hotInletSince := if 450 < inlet then some (s.pwr.hotInletSince.getD s.now) else none } }
  finish (coolantLimit s inlet f d)

/-- COOLANT_SHUTDOWN (R408): the inlet has stood above 45 °C for 1 s. -/
def execCoolantShutdown (s : State) : Host.Outcome State Fault Refusal :=
  finish (match s.pwr.hotInletSince with
    | some t => if t + 1000000000 ≤ s.now then regionsOff s allRegions else s
    | none => s)

end Sys2Proof.Machine
end

