-- ==== Sys2Proof/Machine/Dispatch.lean ====
section
/-! DEFINITION. What a command does to everything but the queue: one arm per row of the opcode table. -/

namespace Sys2Proof.Machine

/-- The effect of one command. -/
def exec (i : Instr) (s : State) : Host.Outcome State Fault Refusal :=
  match i with
  | .pwrgdRise straps => Sys2Proof.Machine.execPwrgdRise straps s
  | .bringUpStage code run => Sys2Proof.Machine.execBringUpStage code run s
  | .endpointReady => Sys2Proof.Machine.execEndpointReady s
  | .runEntry => Sys2Proof.Machine.execRunEntry s
  | .progressFrame => Sys2Proof.Machine.execProgressFrame s
  | .faultPattern => Sys2Proof.Machine.execFaultPattern s
  | .trainingCacheSave => Sys2Proof.Machine.execTrainingCacheSave s
  | .recoveryLoad first second => Sys2Proof.Machine.execRecoveryLoad first second s
  | .firmwareUpdate first second => Sys2Proof.Machine.execFirmwareUpdate first second s
  | .perstLAssert => Sys2Proof.Machine.execPerstLAssert s
  | .hotReset => Sys2Proof.Machine.execHotReset s
  | .pwrgdFall => Sys2Proof.Machine.execPwrgdFall s
  | .pcieLinkTraining rate width flit => Sys2Proof.Machine.execPcieLinkTraining rate width flit s
  | .busMasterEnable bme d3hot reqs => Sys2Proof.Machine.execBusMasterEnable bme d3hot reqs s
  | .bar2Resize log2 => Sys2Proof.Machine.execBar2Resize log2 s
  | .bar2Access write off len be data => Sys2Proof.Machine.execBar2Access write off len be data s
  | .ptmDialog hostTime delay => Sys2Proof.Machine.execPtmDialog hostTime delay s
  | .ptmLost => Sys2Proof.Machine.execPtmLost s
  | .doeRequest payload => Sys2Proof.Machine.execDoeRequest payload s
  | .entdaa addr => Sys2Proof.Machine.execEntdaa addr s
  | .setdasa static addr => Sys2Proof.Machine.execSetdasa static addr s
  | .rstdaa => Sys2Proof.Machine.execRstdaa s
  | .enec => Sys2Proof.Machine.execEnec s
  | .disec => Sys2Proof.Machine.execDisec s
  | .getpid => Sys2Proof.Machine.execGetpid s
  | .getbcr => Sys2Proof.Machine.execGetbcr s
  | .getdcr => Sys2Proof.Machine.execGetdcr s
  | .getstatus => Sys2Proof.Machine.execGetstatus s
  | .getmwl => Sys2Proof.Machine.execGetmwl s
  | .getmrl => Sys2Proof.Machine.execGetmrl s
  | .setmwl len => Sys2Proof.Machine.execSetmwl len s
  | .setmrl len => Sys2Proof.Machine.execSetmrl len s
  | .i3cRead4 addr off => Sys2Proof.Machine.execI3cRead4 addr off s
  | .i3cRead8 addr off => Sys2Proof.Machine.execI3cRead8 addr off s
  | .i3cWrite4 addr off data => Sys2Proof.Machine.execI3cWrite4 addr off data s
  | .i3cWrite8 addr off data => Sys2Proof.Machine.execI3cWrite8 addr off data s
  | .privateRead addr => Sys2Proof.Machine.execPrivateRead addr s
  | .inBandInterrupt => Sys2Proof.Machine.execInBandInterrupt s
  | .cmdTail tail => Sys2Proof.Machine.execCmdTail tail s
  | .recHead head => Sys2Proof.Machine.execRecHead head s
  | .commandEntryRead entry failed => Sys2Proof.Machine.execCommandEntryRead entry failed s
  | .nop => Sys2Proof.Machine.execNop s
  | .loadPlan => Sys2Proof.Machine.execLoadPlan s
  | .planImageCopied index image => Sys2Proof.Machine.execPlanImageCopied index image s
  | .launchPlan => Sys2Proof.Machine.execLaunchPlan s
  | .planStart => Sys2Proof.Machine.execPlanStart s
  | .abortPlan => Sys2Proof.Machine.execAbortPlan s
  | .unloadPlan => Sys2Proof.Machine.execUnloadPlan s
  | .copy src => Sys2Proof.Machine.execCopy src s
  | .fence => Sys2Proof.Machine.execFence s
  | .setProfile record => Sys2Proof.Machine.execSetProfile record s
  | .query => Sys2Proof.Machine.execQuery s
  | .completionRecord => Sys2Proof.Machine.execCompletionRecord s
  | .noticeRecord => Sys2Proof.Machine.execNoticeRecord s
  | .stepCommit => Sys2Proof.Machine.execStepCommit s
  | .stepWatchdog => Sys2Proof.Machine.execStepWatchdog s
  | .replay core error => Sys2Proof.Machine.execReplay core error s
  | .spareSubstitution core => Sys2Proof.Machine.execSpareSubstitution core s
  | .stepWideReplay cause tower idx => Sys2Proof.Machine.execStepWideReplay cause tower idx s
  | .coreDiagnosis tower core pass bad0 bad1 => Sys2Proof.Machine.execCoreDiagnosis tower core pass bad0 bad1 s
  | .add ins => Sys2Proof.Machine.execAdd ins s
  | .addi ins => Sys2Proof.Machine.execAddi ins s
  | .sub ins => Sys2Proof.Machine.execSub ins s
  | .mul ins => Sys2Proof.Machine.execMul ins s
  | .mulhu ins => Sys2Proof.Machine.execMulhu ins s
  | .divu ins => Sys2Proof.Machine.execDivu ins s
  | .remu ins => Sys2Proof.Machine.execRemu ins s
  | .and ins => Sys2Proof.Machine.execAnd ins s
  | .or ins => Sys2Proof.Machine.execOr ins s
  | .xor ins => Sys2Proof.Machine.execXor ins s
  | .shl ins => Sys2Proof.Machine.execShl ins s
  | .shr ins => Sys2Proof.Machine.execShr ins s
  | .sar ins => Sys2Proof.Machine.execSar ins s
  | .shi ins => Sys2Proof.Machine.execShi ins s
  | .li ins => Sys2Proof.Machine.execLi ins s
  | .lih ins => Sys2Proof.Machine.execLih ins s
  | .cmp ins => Sys2Proof.Machine.execCmp ins s
  | .plog ins => Sys2Proof.Machine.execPlog ins s
  | .pmov ins => Sys2Proof.Machine.execPmov ins s
  | .ptos ins => Sys2Proof.Machine.execPtos ins s
  | .mfs ins => Sys2Proof.Machine.execMfs ins s
  | .ldp ins => Sys2Proof.Machine.execLdp ins s
  | .ld8 ins => Sys2Proof.Machine.execLd8 ins s
  | .ld16 ins => Sys2Proof.Machine.execLd16 ins s
  | .ld32 ins => Sys2Proof.Machine.execLd32 ins s
  | .ld64 ins => Sys2Proof.Machine.execLd64 ins s
  | .st8 ins => Sys2Proof.Machine.execSt8 ins s
  | .st16 ins => Sys2Proof.Machine.execSt16 ins s
  | .st32 ins => Sys2Proof.Machine.execSt32 ins s
  | .st64 ins => Sys2Proof.Machine.execSt64 ins s
  | .br ins => Sys2Proof.Machine.execBr ins s
  | .bnzd ins => Sys2Proof.Machine.execBnzd ins s
  | .jr ins => Sys2Proof.Machine.execJr ins s
  | .loadReturn core host => Sys2Proof.Machine.execLoadReturn core host s
  | .storePerformed core => Sys2Proof.Machine.execStorePerformed core s
  | .vadd ins => Sys2Proof.Machine.execVadd ins s
  | .vsub ins => Sys2Proof.Machine.execVsub ins s
  | .vmul ins => Sys2Proof.Machine.execVmul ins s
  | .vfma ins => Sys2Proof.Machine.execVfma ins s
  | .vmax ins => Sys2Proof.Machine.execVmax ins s
  | .vmin ins => Sys2Proof.Machine.execVmin ins s
  | .vsfu ins => Sys2Proof.Machine.execVsfu ins s
  | .vcmp ins => Sys2Proof.Machine.execVcmp ins s
  | .vmov ins => Sys2Proof.Machine.execVmov ins s
  | .viadd ins => Sys2Proof.Machine.execViadd ins s
  | .vlogic ins => Sys2Proof.Machine.execVlogic ins s
  | .vshift ins => Sys2Proof.Machine.execVshift ins s
  | .vcvt ins => Sys2Proof.Machine.execVcvt ins s
  | .vcvtw ins => Sys2Proof.Machine.execVcvtw ins s
  | .vrsum ins => Sys2Proof.Machine.execVrsum ins s
  | .vrmax ins => Sys2Proof.Machine.execVrmax ins s
  | .vbcl ins => Sys2Proof.Machine.execVbcl ins s
  | .vperm ins => Sys2Proof.Machine.execVperm ins s
  | .mpcfg ins => Sys2Proof.Machine.execMpcfg ins s
  | .mmask ins => Sys2Proof.Machine.execMmask ins s
  | .mwld ins => Sys2Proof.Machine.execMwld ins s
  | .mwldStart core arr host => Sys2Proof.Machine.execMwldStart core arr host s
  | .mswap ins => Sys2Proof.Machine.execMswap ins s
  | .mmac ins => Sys2Proof.Machine.execMmac ins s
  | .mclr ins => Sys2Proof.Machine.execMclr ins s
  | .mst ins => Sys2Proof.Machine.execMst ins s
  | .mrdv ins => Sys2Proof.Machine.execMrdv ins s
  | .mlda ins => Sys2Proof.Machine.execMlda ins s
  | .mgang tower core service found ins => Sys2Proof.Machine.execMgang tower core service found ins s
  | .arrayDispatch core arr host => Sys2Proof.Machine.execArrayDispatch core arr host s
  | .arrayCommandCompletion core arr k => Sys2Proof.Machine.execArrayCommandCompletion core arr k s
  | .partitionRebuild core arr err host => Sys2Proof.Machine.execPartitionRebuild core arr err host s
  | .vld ins => Sys2Proof.Machine.execVld ins s
  | .vst ins => Sys2Proof.Machine.execVst ins s
  | .movsv ins => Sys2Proof.Machine.execMovsv ins s
  | .movvs ins => Sys2Proof.Machine.execMovvs ins s
  | .dma ins => Sys2Proof.Machine.execDma ins s
  | .dmar ins => Sys2Proof.Machine.execDmar ins s
  | .pref ins => Sys2Proof.Machine.execPref ins s
  | .sig ins => Sys2Proof.Machine.execSig ins s
  | .sigDelivery target => Sys2Proof.Machine.execSigDelivery target s
  | .arrive ins => Sys2Proof.Machine.execArrive ins s
  | .barrierRelease scope group => Sys2Proof.Machine.execBarrierRelease scope group s
  | .wait ins => Sys2Proof.Machine.execWait ins s
  | .commit ins => Sys2Proof.Machine.execCommit ins s
  | .attcmd ins => Sys2Proof.Machine.execAttcmd ins s
  | .pfxwalk ins => Sys2Proof.Machine.execPfxwalk ins s
  | .rowop ins => Sys2Proof.Machine.execRowop ins s
  | .rowmodeEnter ins => Sys2Proof.Machine.execRowmodeEnter ins s
  | .rowmodeExit ins => Sys2Proof.Machine.execRowmodeExit ins s
  | .coll ins => Sys2Proof.Machine.execColl ins s
  | .rwake ins => Sys2Proof.Machine.execRwake ins s
  | .rsleep ins => Sys2Proof.Machine.execRsleep ins s
  | .engineCommandCompletion core k host => Sys2Proof.Machine.execEngineCommandCompletion core k host s
  | .softmax tower cluster => Sys2Proof.Machine.execSoftmax tower cluster s
  | .recomp tower cluster => Sys2Proof.Machine.execRecomp tower cluster s
  | .accum tower cluster => Sys2Proof.Machine.execAccum tower cluster s
  | .merge tower cluster => Sys2Proof.Machine.execMerge tower cluster s
  | .gather tower cluster => Sys2Proof.Machine.execGather tower cluster s
  | .append tower cluster => Sys2Proof.Machine.execAppend tower cluster s
  | .attach tower cluster => Sys2Proof.Machine.execAttach tower cluster s
  | .fork tower cluster => Sys2Proof.Machine.execFork tower cluster s
  | .drop tower cluster => Sys2Proof.Machine.execDrop tower cluster s
  | .ringfill tower cluster => Sys2Proof.Machine.execRingfill tower cluster s
  | .rowanAnd tower chan => Sys2Proof.Machine.execRowanAnd tower chan s
  | .rowanOr tower chan => Sys2Proof.Machine.execRowanOr tower chan s
  | .rowanXor tower chan => Sys2Proof.Machine.execRowanXor tower chan s
  | .rowanNot tower chan => Sys2Proof.Machine.execRowanNot tower chan s
  | .rowanMaj tower chan => Sys2Proof.Machine.execRowanMaj tower chan s
  | .rowanClone tower chan => Sys2Proof.Machine.execRowanClone tower chan s
  | .fill0 tower chan => Sys2Proof.Machine.execFill0 tower chan s
  | .fill1 tower chan => Sys2Proof.Machine.execFill1 tower chan s
  | .regeneration tower chan die bank want => Sys2Proof.Machine.execRegeneration tower chan die bank want s
  | .rowanOrdinaryAccess write addr data => Sys2Proof.Machine.execRowanOrdinaryAccess write addr data s
  | .lineClone tower chan src dst first n => Sys2Proof.Machine.execLineClone tower chan src dst first n s
  | .maintenanceWindow tower chan bondFails fits => Sys2Proof.Machine.execMaintenanceWindow tower chan bondFails fits s
  | .normalRefresh tower chan => Sys2Proof.Machine.execNormalRefresh tower chan s
  | .columnMigration tower chan => Sys2Proof.Machine.execColumnMigration tower chan s
  | .l1Miss core addr => Sys2Proof.Machine.execL1Miss core addr s
  | .ownershipGrant core => Sys2Proof.Machine.execOwnershipGrant core s
  | .sliceFill addr => Sys2Proof.Machine.execSliceFill addr s
  | .reduceAdd tower slice => Sys2Proof.Machine.execReduceAdd tower slice s
  | .forcedEviction addr => Sys2Proof.Machine.execForcedEviction addr s
  | .cmemRead addr => Sys2Proof.Machine.execCmemRead addr s
  | .slowTierAccess write addr len data corr => Sys2Proof.Machine.execSlowTierAccess write addr len data corr s
  | .slowTierScrub chan corr => Sys2Proof.Machine.execSlowTierScrub chan corr s
  | .ruleLoad slot => Sys2Proof.Machine.execRuleLoad slot s
  | .jobStart job => Sys2Proof.Machine.execJobStart job s
  | .invocation job group chunk hart steps err run => Sys2Proof.Machine.execInvocation job group chunk hart steps err run s
  | .ident link m received => Sys2Proof.Machine.execIdent link m received s
  | .time link reply t1 t2 t3 t4 => Sys2Proof.Machine.execTime link reply t1 t2 t3 t4 s
  | .timeExchange => Sys2Proof.Machine.execTimeExchange s
  | .timeUnlock => Sys2Proof.Machine.execTimeUnlock s
  | .barrier m => Sys2Proof.Machine.execBarrier m s
  | .cap m => Sys2Proof.Machine.execCap m s
  | .failover m => Sys2Proof.Machine.execFailover m s
  | .read m => Sys2Proof.Machine.execRead m s
  | .write m => Sys2Proof.Machine.execWrite m s
  | .reduce m => Sys2Proof.Machine.execReduce m s
  | .readResp m => Sys2Proof.Machine.execReadResp m s
  | .ack m => Sys2Proof.Machine.execAck m s
  | .put m => Sys2Proof.Machine.execPut m s
  | .tag m => Sys2Proof.Machine.execTag m s
  | .tunnel vc m => Sys2Proof.Machine.execTunnel vc m s
  | .linkFailure link cause => Sys2Proof.Machine.execLinkFailure link cause s
  | .laneSpare link lane => Sys2Proof.Machine.execLaneSpare link lane s
  | .linkRetrain link lanes => Sys2Proof.Machine.execLinkRetrain link lanes s
  | .fabricEnable who data => Sys2Proof.Machine.execFabricEnable who data s
  | .fabricDisable who data => Sys2Proof.Machine.execFabricDisable who data s
  | .collPut tower => Sys2Proof.Machine.execCollPut tower s
  | .collWait tower => Sys2Proof.Machine.execCollWait tower s
  | .collAdd tower => Sys2Proof.Machine.execCollAdd tower s
  | .collCopy tower => Sys2Proof.Machine.execCollCopy tower s
  | .flit link lanes => Sys2Proof.Machine.execFlit link lanes s
  | .telemetryTick input volts phases => Sys2Proof.Machine.execTelemetryTick input volts phases s
  | .inputGuardStep => Sys2Proof.Machine.execInputGuardStep s
  | .emergencyRelease source => Sys2Proof.Machine.execEmergencyRelease source s
  | .thermalEmergencyStep region => Sys2Proof.Machine.execThermalEmergencyStep region s
  | .thermalTrip region => Sys2Proof.Machine.execThermalTrip region s
  | .capNoticeRepeat => Sys2Proof.Machine.execCapNoticeRepeat s
  | .followEntryExpiry origin => Sys2Proof.Machine.execFollowEntryExpiry origin s
  | .plannedReductionForced source => Sys2Proof.Machine.execPlannedReductionForced source s
  | .phaseLoss tower domain phase => Sys2Proof.Machine.execPhaseLoss tower domain phase s
  | .converterLoss ins => Sys2Proof.Machine.execConverterLoss ins s
  | .undervoltageStop => Sys2Proof.Machine.execUndervoltageStop s
  | .overvoltageStop => Sys2Proof.Machine.execOvervoltageStop s
  | .sensorSample tower readings => Sys2Proof.Machine.execSensorSample tower readings s
  | .coolantRead inlet outlet flow => Sys2Proof.Machine.execCoolantRead inlet outlet flow s
  | .coolantShutdown => Sys2Proof.Machine.execCoolantShutdown s
  | .regionWakeComplete region => Sys2Proof.Machine.execRegionWakeComplete region s
  | .hopRetry tower router hop src dst flit => Sys2Proof.Machine.execHopRetry tower router hop src dst flit s
  | .routerDead tower router atBringUp => Sys2Proof.Machine.execRouterDead tower router atBringUp s
  | .stnTowerReset who towers => Sys2Proof.Machine.execStnTowerReset who towers s
  | .heartbeatTimeout tower => Sys2Proof.Machine.execHeartbeatTimeout tower s
  | .pllLossOfLock tower => Sys2Proof.Machine.execPllLossOfLock tower s
  | .pithUncorrectableError tower => Sys2Proof.Machine.execPithUncorrectableError tower s
  | .stateProbe u answer => Sys2Proof.Machine.execStateProbe u answer s
  | .injectSingleBit tower => Sys2Proof.Machine.execInjectSingleBit tower s
  | .injectDoubleBit tower => Sys2Proof.Machine.execInjectDoubleBit tower s
  | .injectPoisonAtRest tower => Sys2Proof.Machine.execInjectPoisonAtRest tower s
  | .injectPoisonInFlight tower => Sys2Proof.Machine.execInjectPoisonInFlight tower s
  | .injectParityError tower => Sys2Proof.Machine.execInjectParityError tower s
  | .beyondSet who tower => Sys2Proof.Machine.execBeyondSet who tower s
  | .beyondClear who tower => Sys2Proof.Machine.execBeyondClear who tower s
  | .cntOvf who off data => Sys2Proof.Machine.execCntOvf who off data s
  | .pthWindowCfg who tower data => Sys2Proof.Machine.execPthWindowCfg who tower data s
  | .pciHostWinBase who data => Sys2Proof.Machine.execPciHostWinBase who data s
  | .pciBar2Win who data => Sys2Proof.Machine.execPciBar2Win who data s
  | .stnCmdRingCfg who data => Sys2Proof.Machine.execStnCmdRingCfg who data s
  | .stnRecCfg who data => Sys2Proof.Machine.execStnRecCfg who data s
  | .ceLogCtl who off data => Sys2Proof.Machine.execCeLogCtl who off data s
  | .arrBadCols who tower core arr data => Sys2Proof.Machine.execArrBadCols who tower core arr data s
  | .registerWrite w => Sys2Proof.Machine.execRegisterWrite w s
  | .completionTimeout read => Sys2Proof.Machine.execCompletionTimeout read s
  | .memorySpaceEnable on => Sys2Proof.Machine.execMemorySpaceEnable on s
  | .runPhasePins => Sys2Proof.Machine.execRunPhasePins s
  | .i3cTargetReady => Sys2Proof.Machine.execI3cTargetReady s
  | .input50vApplied => Sys2Proof.Machine.execInput50vApplied s

end Sys2Proof.Machine
end

