-- ==== Sys2Proof/Machine/Idle.lean ====
section
/-! DEFINITION. What passes when no command waits: one nanosecond of fabric time (R54), steered towards the time parent (R364). -/

namespace Sys2Proof.Machine

/-- Nanoseconds that fabric time advances in one tick: 1, and at most once in 5,000 ns (200 ppm) 2 or 0 while a correction
is being slewed (R364). DESIGN CHOICE: log entry 1. -/
def tickLength (s : State) : Nat :=
  if s.fab.slew = 0 ∨ s.now < s.fab.slewAt then 1 else if 0 < s.fab.slew then 2 else 0

/-- Take the nanosecond of a correction that a tick applies; a rate that is held goes on (R365). DESIGN CHOICE: log entry 1. -/
def slewed (s : State) : State :=
  if s.fab.slew = 0 ∨ s.now < s.fab.slewAt then s
  else
    let f := s.fab
    { s with fab := { f with slew := if f.holdRate then f.slew else if 0 < f.slew then f.slew - 1 else f.slew + 1, slewAt := s.now + 5000 } }

/-- An idle step: fabric time advances and wraps modulo 2^64 (R54); warm resets that have lasted their time end (R434); Bruise counts
its milliseconds (R448); reads that waited for withheld bytes are answered (R210); ports in IDENT repeat theirs (R349); credits that
Bruise withheld leave (R444); the pins follow the registers. DESIGN CHOICE: log entry 1. -/
def idle (s : State) : State :=
  let n := tickLength s
  let s := slewed s
  let ms : Bool := (s.now + n) / 1000000 ≠ s.now / 1000000
  let s := warmTick { s with now := (s.now + n) % 2 ^ 64 }
  settle (creditTick (identTick (serveHostReads (serveWaiting (if ms then beyondMs s else s)))))

end Sys2Proof.Machine
end

