-- ==== Sys2Proof/WellFormed.lean ====
section
/-! DEFINITION. Well-formed commands: the shapes of operand that the spec's senders can produce. A command outside them is refused
by the fault malformedOperand. -/

namespace Sys2Proof

open Machine

/-- An index within a tower: 272 cores, channels, slices and routers (R16, R19). -/
def unitOk (x : BitVec 9) : Bool := x.toNat < 272

/-- Units of each kind that Stone probes within a tower (R438): cores, columns, slices, arrays, ports, harts and regions. -/
def unitsOf (kind : Nat) : Nat := [272, 272, 272, 544, 4, 16, 16].getD kind 0

/-- Both rows of a clone lie in the same bank and subarray of the channel's 147,456 rows (R236, R261). -/
def sameSubarray (src dst : BitVec 18) : Bool :=
  decide (src.toNat < 147456 ∧ dst.toNat < 147456) && src.toNat % 128 = dst.toNat % 128 && src.toNat / 16384 = dst.toNat / 16384

/-- The kinds of error that a core's circuits report (R77, R83, R210, R270). -/
def errorKnown : Option CoreErr → Bool
  | some x => x.kind.toNat ≤ 6
  | none => true

/-- The word of a row of opcode o spells it, or no listed opcode of its slot (R104). -/
def spelled (o : KOp) (i : Ins) : Bool := i.word ≠ 0 && (i.spells o || i.op.isNone)

/-- Number of bytes that arrived. -/
def arrivedLength (d : HostData) : Nat := d.bytes.length

/-- The offset of a counter overflow register (R52). -/
def isOverflowReg (o : Nat) : Bool :=
  match blkOf o with
  | some b => decide (0x700 ≤ o - b.base ∧ o - b.base < 0x780) && o % 8 = 0
  | none => false

/-- The offset of an error-log control register (R424). -/
def isLogControl (o : Nat) : Bool :=
  match blkOf o with
  | some b => hasCeLog b.kind && o = b.base + 0x480
  | none => false

/-- The command's operands have a shape that its sender can produce. -/
def wellFormed : Instr → Bool
  | .pcieLinkTraining rate width isFlit =>
    decide (1 ≤ rate.toNat ∧ rate.toNat ≤ 6) && [1, 2, 4, 8, 16].contains width.toNat && (isFlit || decide (rate.toNat < 6))
  | .bar2Resize log2 => decide (32 ≤ log2.toNat ∧ log2.toNat ≤ 42)
  | .bar2Access write _ len be data =>
    decide (1 ≤ len.toNat ∧ len.toNat ≤ 4096) && (!write || (be.length = len.toNat && data.bytes.length = len.toNat))
  | .commandEntryRead entry failed => failed || entry.bytes.length = 64
  | .replay _ error => errorKnown error
  | .stepWideReplay cause _ idx => decide (1 ≤ cause.toNat ∧ cause.toNat ≤ 3) && unitOk idx
  | .coreDiagnosis _ core _ _ _ => unitOk core
  | .add i => spelled .add i
  | .addi i => spelled .addi i
  | .sub i => spelled .sub i
  | .mul i => spelled .mul i
  | .mulhu i => spelled .mulhu i
  | .divu i => spelled .divu i
  | .remu i => spelled .remu i
  | .and i => spelled .and i
  | .or i => spelled .or i
  | .xor i => spelled .xor i
  | .shl i => spelled .shl i
  | .shr i => spelled .shr i
  | .sar i => spelled .sar i
  | .shi i => spelled .shi i
  | .li i => spelled .li i
  | .lih i => spelled .lih i
  | .cmp i => spelled .cmp i
  | .plog i => spelled .plog i
  | .pmov i => spelled .pmov i
  | .ptos i => spelled .ptos i
  | .mfs i => spelled .mfs i
  | .ldp i => spelled .ldp i
  | .ld8 i => spelled .ld8 i
  | .ld16 i => spelled .ld16 i
  | .ld32 i => spelled .ld32 i
  | .ld64 i => spelled .ld64 i
  | .st8 i => spelled .st8 i
  | .st16 i => spelled .st16 i
  | .st32 i => spelled .st32 i
  | .st64 i => spelled .st64 i
  | .br i => spelled .br i
  | .bnzd i => spelled .bnzd i
  | .jr i => spelled .jr i
  | .vadd i => spelled .vadd i
  | .vsub i => spelled .vsub i
  | .vmul i => spelled .vmul i
  | .vfma i => spelled .vfma i
  | .vmax i => spelled .vmax i
  | .vmin i => spelled .vmin i
  | .vsfu i => spelled .vsfu i
  | .vcmp i => spelled .vcmp i
  | .vmov i => spelled .vmov i
  | .viadd i => spelled .viadd i
  | .vlogic i => spelled .vlogic i
  | .vshift i => spelled .vshift i
  | .vcvt i => spelled .vcvt i
  | .vcvtw i => spelled .vcvtw i
  | .vrsum i => spelled .vrsum i
  | .vrmax i => spelled .vrmax i
  | .vbcl i => spelled .vbcl i
  | .vperm i => spelled .vperm i
  | .mpcfg i => spelled .mpcfg i
  | .mmask i => spelled .mmask i
  | .mwld i => spelled .mwld i
  | .mswap i => spelled .mswap i
  | .mmac i => spelled .mmac i
  | .mclr i => spelled .mclr i
  | .mst i => spelled .mst i
  | .mrdv i => spelled .mrdv i
  | .mlda i => spelled .mlda i
  | .mgang _ core service _ i => if service then unitOk core else spelled .mgang i
  | .vld i => spelled .vld i
  | .vst i => spelled .vst i
  | .movsv i => spelled .movsv i
  | .movvs i => spelled .movvs i
  | .dma i => spelled .dma i
  | .dmar i => spelled .dmar i
  | .pref i => spelled .pref i
  | .sig i => spelled .sig i
  | .arrive i => spelled .arrive i
  | .wait i => spelled .wait i
  | .commit i => spelled .commit i
  | .attcmd i => spelled .attcmd i
  | .pfxwalk i => spelled .pfxwalk i
  | .rowop i => spelled .rowop i
  | .rowmodeEnter i => spelled .rowmodeEnter i
  | .rowmodeExit i => spelled .rowmodeExit i
  | .coll i => spelled .coll i
  | .rwake i => spelled .rwake i
  | .rsleep i => spelled .rsleep i
  | .rowanAnd _ chan => unitOk chan
  | .rowanOr _ chan => unitOk chan
  | .rowanXor _ chan => unitOk chan
  | .rowanNot _ chan => unitOk chan
  | .rowanMaj _ chan => unitOk chan
  | .rowanClone _ chan => unitOk chan
  | .fill0 _ chan => unitOk chan
  | .fill1 _ chan => unitOk chan
  | .regeneration _ chan _ _ _ => unitOk chan
  | .rowanOrdinaryAccess write addr data => !write || decide (addr.toNat % 128 + arrivedLength data ≤ 128)
  | .lineClone _ chan src dst first n =>
    unitOk chan && sameSubarray src dst && decide (1 ≤ n.toNat ∧ first.toNat + n.toNat ≤ 16)
  | .maintenanceWindow _ chan _ _ => unitOk chan
  | .normalRefresh _ chan => unitOk chan
  | .columnMigration _ chan => unitOk chan
  | .reduceAdd _ slice => unitOk slice
  | .slowTierAccess write addr len data _ =>
    decide (1 ≤ len.toNat ∧ addr.toNat % 128 + len.toNat ≤ 128) && (!write || arrivedLength data = len.toNat)
  | .linkFailure _ cause => decide (1 ≤ cause.toNat ∧ cause.toNat ≤ 4)
  | .flit _ lanes => decide (lanes.length = 9)
  | .telemetryTick input volts phases => decide (input.length = 10 ∧ volts.length = 64 ∧ phases.length = 1312)
  | .phaseLoss _ domain phase => decide (domain.toNat = 0 ∨ (domain.toNat < 4 ∧ phase.toNat < 6))
  | .sensorSample _ readings => decide (readings.length = 192)
  | .hopRetry _ router hop src dst _ => unitOk router && unitOk src && unitOk dst && decide (hop.toNat < 6)
  | .routerDead _ router _ => unitOk router
  | .stateProbe u _ => decide (u.idx < unitsOf u.kind.toNat)
  | .cntOvf _ off _ => isOverflowReg off.toNat
  | .ceLogCtl _ off _ => isLogControl off.toNat
  | .arrBadCols _ _ core _ _ => unitOk core
  | .pwrgdRise _ | .bringUpStage _ _ | .endpointReady | .runEntry | .progressFrame | .faultPattern
  | .trainingCacheSave | .recoveryLoad _ _ | .firmwareUpdate _ _ | .perstLAssert | .hotReset | .pwrgdFall
  | .busMasterEnable _ _ _ | .ptmDialog _ _ | .ptmLost | .doeRequest _ | .entdaa _ | .setdasa _ _ | .rstdaa | .enec
  | .disec | .getpid | .getbcr | .getdcr | .getstatus | .getmwl | .getmrl | .setmwl _ | .setmrl _ | .i3cRead4 _ _
  | .i3cRead8 _ _ | .i3cWrite4 _ _ _ | .i3cWrite8 _ _ _ | .privateRead _ | .inBandInterrupt | .cmdTail _ | .recHead _
  | .nop | .loadPlan | .planImageCopied _ _ | .launchPlan | .planStart | .abortPlan | .unloadPlan | .copy _ | .fence
  | .setProfile _ | .query | .completionRecord | .noticeRecord | .stepCommit | .stepWatchdog | .spareSubstitution _
  | .loadReturn _ _ | .storePerformed _ | .mwldStart _ _ _ | .arrayDispatch _ _ _ | .arrayCommandCompletion _ _ _
  | .partitionRebuild _ _ _ _ | .sigDelivery _ | .barrierRelease _ _ | .engineCommandCompletion _ _ _ | .softmax _ _
  | .recomp _ _ | .accum _ _ | .merge _ _ | .gather _ _ | .append _ _ | .attach _ _ | .fork _ _ | .drop _ _
  | .ringfill _ _ | .l1Miss _ _ | .ownershipGrant _ | .sliceFill _ | .forcedEviction _ | .cmemRead _
  | .slowTierScrub _ _ | .ruleLoad _ | .jobStart _ | .invocation _ _ _ _ _ _ _ | .ident _ _ _ | .time _ _ _ _ _ _
  | .timeExchange | .timeUnlock | .barrier _ | .cap _ | .failover _ | .read _ | .write _ | .reduce _ | .readResp _
  | .ack _ | .put _ | .tag _ | .tunnel _ _ | .laneSpare _ _ | .linkRetrain _ _ | .fabricEnable _ _
  | .fabricDisable _ _ | .collPut _ | .collWait _ | .collAdd _ | .collCopy _ | .inputGuardStep | .emergencyRelease _
  | .thermalEmergencyStep _ | .thermalTrip _ | .capNoticeRepeat | .followEntryExpiry _ | .plannedReductionForced _
  | .converterLoss _ | .undervoltageStop | .overvoltageStop | .coolantRead _ _ _ | .coolantShutdown
  | .regionWakeComplete _ | .stnTowerReset _ _ | .heartbeatTimeout _ | .pllLossOfLock _ | .pithUncorrectableError _
  | .injectSingleBit _ | .injectDoubleBit _ | .injectPoisonAtRest _ | .injectPoisonInFlight _ | .injectParityError _
  | .beyondSet _ _ | .beyondClear _ _ | .pthWindowCfg _ _ _ | .pciHostWinBase _ _ | .pciBar2Win _ _
  | .stnCmdRingCfg _ _ | .stnRecCfg _ _ | .registerWrite _ | .completionTimeout _ | .memorySpaceEnable _
  | .runPhasePins | .i3cTargetReady | .input50vApplied => true

end Sys2Proof
end

