-- ==== Sys2Proof/Safety.lean ====
section
/-! DEFINITION. What counts as a safe step, in the terms the statements use: operands that fit the state, the levels of the
pins, and a core on which one instruction issues alone. -/

namespace Sys2Proof.Machine

/-! ### A core that one instruction finds ready -/

/-- The KCI instruction of an operation as a command; MGANG as plan code. -/
def kciInstr (o : KOp) (i : Ins) (tower : BitVec 4) (core : BitVec 9) (found : List GangHit) : Instr :=
  match o with
  | .add => .add i | .addi => .addi i | .sub => .sub i | .mul => .mul i | .mulhu => .mulhu i | .divu => .divu i
  | .remu => .remu i | .and => .and i | .or => .or i | .xor => .xor i | .shl => .shl i | .shr => .shr i | .sar => .sar i
  | .shi => .shi i | .li => .li i | .lih => .lih i | .cmp => .cmp i | .plog => .plog i | .pmov => .pmov i | .ptos => .ptos i
  | .mfs => .mfs i | .ldp => .ldp i | .ld8 => .ld8 i | .ld16 => .ld16 i | .ld32 => .ld32 i | .ld64 => .ld64 i
  | .st8 => .st8 i | .st16 => .st16 i | .st32 => .st32 i | .st64 => .st64 i | .br => .br i | .bnzd => .bnzd i | .jr => .jr i
  | .vadd => .vadd i | .vsub => .vsub i | .vmul => .vmul i | .vfma => .vfma i | .vmax => .vmax i | .vmin => .vmin i
  | .vsfu => .vsfu i | .vcmp => .vcmp i | .vmov => .vmov i | .viadd => .viadd i | .vlogic => .vlogic i | .vshift => .vshift i
  | .vcvt => .vcvt i | .vcvtw => .vcvtw i | .vrsum => .vrsum i | .vrmax => .vrmax i | .vbcl => .vbcl i | .vperm => .vperm i
  | .mpcfg => .mpcfg i | .mmask => .mmask i | .mwld => .mwld i | .mswap => .mswap i | .mmac => .mmac i | .mclr => .mclr i
  | .mst => .mst i | .mrdv => .mrdv i | .mlda => .mlda i | .mgang => .mgang tower core false found i | .vld => .vld i
  | .vst => .vst i | .movsv => .movsv i | .movvs => .movvs i | .dma => .dma i | .dmar => .dmar i | .pref => .pref i
  | .sig => .sig i | .arrive => .arrive i | .wait => .wait i | .commit => .commit i | .attcmd => .attcmd i
  | .pfxwalk => .pfxwalk i | .rowop => .rowop i | .rowmodeEnter => .rowmodeEnter i | .rowmodeExit => .rowmodeExit i
  | .coll => .coll i | .rwake => .rwake i | .rsleep => .rsleep i

/-- The core an instruction is sent to. -/
def State.coreFor (s : State) (i : Ins) : Core := coreOf s (physCore s i.core.toNat)

/-- The core with its next bundle behind it (R100): one CCLK later, at the next pc. -/
def Core.past (c : Core) : Core := { c with pc := c.nextPc, delay := none, cyc := c.cyc + 1 }

/-- The core runs, has nothing in flight and nothing waiting, and is sent a bundle that holds the instruction alone, without
NOPs or stall before it. -/
def Ready (o : KOp) (i : Ins) (s : State) : Prop :=
  let c := s.coreFor i
  (c.st = .run ∧ c.stream = [] ∧ c.fly = [] ∧ c.loads = [] ∧ c.eng = [] ∧ c.stalled = false) ∧
  (i.last = true ∧ i.gap = 0 ∧ i.stall = 0) ∧
  decodeOk o i = true ∧ (isBranch o = true → c.delay = none) ∧
  (o = .commit ∨ c.nextPc < bundleCount s i.core.toNat)

/-- An executing instruction alone in its bundle that meets no violation (R126), no parity error, no poison (R95) and no
uncorrectable byte of a scale-table entry that it reads (R185), and that has nothing to wait for (R97). -/
def Alone (o : KOp) (i : Ins) (s : State) : Prop :=
  let c := s.coreFor i
  Ready o i s ∧ executes c o i = true ∧
  (isStore o = true → c.wb.length < 16) ∧ (o = .wait → i.imm16 ≤ tget 0 c.tok i.tok) ∧
  issueTraps s i.core.toNat c o i = [] ∧ physCore s i.core.toNat ∉ s.stone.parityAt ∧ poisonUse c o i = none ∧
  scaleStops s (physCore s i.core.toNat) [⟨o, i⟩] = false

/-- The state once an instruction has read its scale-table entry: the bytes corrected on the way are rewritten (R185, R508). -/
def State.scalesRead (s : State) (o : KOp) (i : Ins) : State :=
  match scaleUse o i with
  | some t => scaleFix s (physCore s i.core.toNat) t
  | none => s

/-- The state after an instruction whose result is architectural in the next cycle (latency 1, R98). -/
def State.wrote (s : State) (i : Ins) (w : RegW) : State :=
  setCore s (physCore s i.core.toNat) ((s.coreFor i).past.land w)

/-- The state after an instruction whose result is architectural L cycles after its issue (R98). -/
def State.flying (s : State) (i : Ins) (L : Nat) (w : RegW) (lock : Bool) : State :=
  let c := s.coreFor i
  setCore s (physCore s i.core.toNat) { c.past with fly := [⟨c.cyc + L, w, lock⟩] }

/-- The state after an instruction that leaves its core as `f` makes the core that has passed the bundle. -/
def State.passed (s : State) (i : Ins) (f : Core → Core) : State :=
  setCore s (physCore s i.core.toNat) (f (s.coreFor i).past)

/-- The address, device field and bytes of a load or store as its operands give them (R109). -/
def State.nearLoad (s : State) (o : KOp) (i : Ins) : Option (List PByte) :=
  nearBytes s (physCore s i.core.toNat) (s.coreFor i) (accAddr (s.coreFor i) o i) (accSize o)

/-- Where a store goes at once: the pieces of lines that the core's L1 owns; none when it enters the write buffer (R207). -/
def State.storePlaces (s : State) (o : KOp) (i : Ins) : Option (List (Nat × Nat × Nat)) :=
  storesNow s (physCore s i.core.toNat) (s.coreFor i) (accAddr (s.coreFor i) o i) (storeData (s.coreFor i) o i)

/-- A store's entry in the write buffer. -/
def State.storeEntry (s : State) (o : KOp) (i : Ins) : StoreEnt :=
  let c := s.coreFor i
  ⟨c.nextId, accAddr c o i, pdata (storeData c o i), (storeData c o i).map (·.2), c.pc, slotOf o, busOf s (accAddr c o i)⟩

/-- No part of Bruise forces misses in the core's tower (R444). -/
def State.noForcedMiss (s : State) (i : Ins) : Prop := missRate s (physCore s i.core.toNat / 272) = 0

/-- The entry of a command in a queue as it issues, with the operand values it read (R110, R114). -/
def queuedCmd (c : Core) (o : KOp) (i : Ins) : QCmd :=
  { id := c.nextId, op := o, ins := i, va := c.sGet i.a.toNat, vb := c.sGet i.b.toNat, vc := c.sGet i.c.toNat, rmask := 0,
    cmask := 0, pc := c.pc, aux := 0, cfg := 0, st := 0, buf := 0, kind := 0, land := [], rows := [], bank := 0, eff := c.effNext, win := none }

/-- The entry of an array command: it also holds the masks in force in program order, the MWLD an MSWAP waits for, the
last MPCFG and the bank scope (R110, R149). -/
def arrayCmd (c : Core) (o : KOp) (i : Ins) : QCmd :=
  let a := c.arrN i.arr
  { queuedCmd c o i with rmask := (a.mask i.part).1, cmask := (a.mask i.part).2, cfg := a.lastCfg, bank := scopeKey i.part i.bank,
                         aux := if o = .mswap then tget 0 a.lastMwld i.part else 0 }

/-- The state after an array command that leaves its array as `f` makes it with the command's entry. -/
def State.arrayQueued (s : State) (o : KOp) (i : Ins) (f : Arr → QCmd → Arr) : State :=
  s.passed i fun c => { c.putArr i.arr (f (c.arrN i.arr) (arrayCmd (s.coreFor i) o i)) with
    nextId := c.nextId + 1, effNext := if o = .mst ∧ i.mode = 1 then c.effNext + 1 else c.effNext }

/-- The logical core lc runs or completes its COMMIT. -/
def Live (s : State) (lc : Nat) : Prop := live (coreOf s (physCore s lc)) = true

/-- The outcome of an event of core lc that makes the state u: the core goes on from there and the pins settle. -/
def State.resumed (u : State) (lc : Nat) : Host.Outcome State Fault Refusal := .next (settle (resume u lc))

/-- The attention engine of a cluster, once it has started what it can. -/
def State.attNow (s : State) (tower cluster : BitVec 4) : State := attAdvance s (tower.toNat * 16 + cluster.toNat)

/-- The oldest command of an operation among the four in progress at an attention engine (R266). -/
def State.attFront (s : State) (tower cluster : BitVec 4) (op : Nat) : Option AttCmd :=
  ((attAt (s.attNow tower cluster) (tower.toNat * 16 + cluster.toNat)).queue.take 4).find? fun q => q.started && !q.walk && q.op = op

/-- The outcome of an attention command that leaves the state v and answers n: the result field holds n, the command has left its
engine's queue and is counted, and the engine starts what it can (R267, R269). -/
def State.attended (v : State) (tower cluster : BitVec 4) (q : AttCmd) (n : Nat) : Host.Outcome State Fault Refusal :=
  let e := tower.toNat * 16 + cluster.toNat
  let v := attDrop (memWrite v (q.desc % 2 ^ 48 + 56) (clean (leBytes 8 n))) e q
  .next (settle (attAdvance (count v (attBase tower.toNat cluster.toNat) 0 1) e))

/-- A message that this module takes for itself: the fabric is in service, the link delivers, and the destination is this module. -/
def Arrives (s : State) (m : Msg) : Prop :=
  fabEnabled s = true ∧ linkLive s m.link.toNat = true ∧ m.hdr.dest.toNat = deviceId s

/-- The operands fit the state: a BAR2 access lies inside the window, and data that arrive have the length the module asked for. -/
def State.fits (s : State) : Instr → Bool
  | .bar2Access _ off len _ _ => off.toNat + len.toNat ≤ 2 ^ s.pci.bar2Log
  | .planImageCopied index image =>
    match loadAt s index.toNat with
    | some a => image.bytes.length = loadSize a
    | none => true
  | .copy src => copyShape s src
  | .setProfile record => profileShape s record.bytes.length
  | _ => true

/-- ALERT_L and RDY follow the registers while the pins are in their RUN functions (R93, R492, R495). -/
def State.PinsInv (s : State) : Prop :=
  s.boot.pinsRun = true →
    s.pip.alert = decide (fget s (pipBase + 0x10) 8 0 &&& fget s (pipBase + 0x18) 8 0 ≠ 0) ∧
    s.pip.rdy = decide (fget s (stnBase + 0x1018) 63 32 ≠ s.cmd.recHead)

/-- The registers that driving ALERT_L can move (R495): PIP_ALERTS and its flag, and, when the notice that it has overflowed is dropped, the
count of drops, its flag and PIP_ALERT_STATUS (R61). -/
def alertRegs : List Nat := [pipBase + 0x200, pipBase + 0x700, stnBase + 0x1068, stnBase + 0x700, pipBase + 0x10]

/-- The state but for what a notice, a counter or a pin changes: the control registers' values, the queue of notices with its
numbers, the levels of the pins, and what the module has sent. -/
def State.still (s : State) : State :=
  { s with
    out := [], ctl := { s.ctl with regs := [] },
    cmd := { s.cmd with notices := [], stamp := 0, seq := 0, lostBefore := false },
    pip := { s.pip with alert := false, rdy := false } }

/-- The state once the entry e, the first of `e :: rest`, has been started (R89). -/
def State.started (s : State) (e : Entry64) (rest : List Entry64) : State :=
  { s with cmd := { s.cmd with entries := rest, active := s.cmd.active ++ [activeOf e] } }

/-- The first entry is e, of the opcode op, and no command of that opcode is in progress. -/
def State.nextEntry (s : State) (op : Nat) (e : Entry64) (rest : List Entry64) : Prop :=
  s.cmd.entries = e :: rest ∧ leAt e.bytes 0 1 = op ∧ ∀ a ∈ s.cmd.active, a.op ≠ op

/-- A write of n bytes at a BAR0 offset is served by the block b: the requester reaches it and may write it (R31, R43, R45, R458). -/
def State.Serves (s : State) (who : Who) (off n : Nat) (b : Blk) : Prop :=
  (who = .host → hostReach s = true ∧ inService s b.kind = true) ∧ ctlOk s off n = true ∧ blkOf off = some b ∧
  writeRight b who = true ∧ s.boot.pwrgd = true

/-- The state once an access of granule g of a block has discarded a low half held for another of its registers (R48). -/
def State.touched (s : State) (who : Who) (b : Blk) (g : Nat) : State := dropHold s (latchKey (whoNum who) b.base) g

/-- The state once no low half is held for the requester and block (R48). -/
def State.unheld (s : State) (who : Who) (b : Blk) (g : Nat) : State :=
  let u := s.touched who b g
  { u with ctl := { u.ctl with whold := tdel u.ctl.whold (latchKey (whoNum who) b.base) } }

/-- The state once the fields of a granule that take a write hold it (R7 to R9, R504). -/
def State.stored (s : State) (b : Blk) (g : Nat) (w : GWrite) : State :=
  regPut s g (BitVec.ofNat 64 (storeValue s b (g - b.base) (regGet s g).toNat w))

/-- Offset r of a block is a plain register: no lock holds the write back, and it is no overflow or log control register. -/
def State.plain (s : State) (b : Blk) (r : Nat) (who : Who) : Prop :=
  regLocked s b r who = false ∧ ¬ (0x700 ≤ r ∧ r < 0x780) ∧ ¬ (hasCeLog b.kind = true ∧ r = 0x480)

end Sys2Proof.Machine
end

