-- ==== Sys2Proof/Certificates/Slice0/Obligations.lean ====
section
/-! DEFINITION. The statements for the provers: each a proposition about the model, in the spec's terms. -/

open Sys2Proof Sys2Proof.Machine

/-- For ADD, ADDI, SUB, MUL, MULHU, DIVU, REMU, AND, OR, XOR, SHL, SHR, SAR, SHI, LI and LIH: an instruction that issues alone on a running core ends in a next state in which the core has passed the bundle and s[d] takes the value of R108, in the next cycle (latency 1) or L cycles after issue as a result in flight, and nothing else changes but the pins. Beside its rules it rests on choices and readings of the model itself: log entries 25, 26, 28. -/
def Obligations.ScalarIntegerResults : Prop :=
  (∀ (i : Ins) (s : State), Alone .add i s →
      exec (.add i) s = .next (settle (s.wrote i (.sreg i.d.toNat ((s.coreFor i).sGet i.a.toNat + (s.coreFor i).sGet i.b.toNat) none)))) ∧
  (∀ (i : Ins) (s : State), Alone .addi i s →
      exec (.addi i) s = .next (settle (s.wrote i (.sreg i.d.toNat ((s.coreFor i).sGet i.a.toNat + BitVec.ofInt 64 (signed 32 i.imm.toNat)) none)))) ∧
  (∀ (i : Ins) (s : State), Alone .sub i s →
      exec (.sub i) s = .next (settle (s.wrote i (.sreg i.d.toNat ((s.coreFor i).sGet i.a.toNat - (s.coreFor i).sGet i.b.toNat) none)))) ∧
  (∀ (i : Ins) (s : State), Alone .mul i s →
      exec (.mul i) s = .next (settle (s.flying i 3 (.sreg i.d.toNat ((s.coreFor i).sGet i.a.toNat * (s.coreFor i).sGet i.b.toNat) none) false))) ∧
  (∀ (i : Ins) (s : State), Alone .mulhu i s →
      exec (.mulhu i) s = .next (settle (s.flying i 3 (.sreg i.d.toNat (BitVec.ofNat 64 (((s.coreFor i).sGet i.a.toNat).toNat * ((s.coreFor i).sGet i.b.toNat).toNat / 2 ^ 64)) none) false))) ∧
  (∀ (i : Ins) (s : State), Alone .divu i s →
      exec (.divu i) s = .next (settle (s.flying i 18 (.sreg i.d.toNat (if (s.coreFor i).sGet i.b.toNat = 0 then BitVec.allOnes 64 else (s.coreFor i).sGet i.a.toNat / (s.coreFor i).sGet i.b.toNat) none) false))) ∧
  (∀ (i : Ins) (s : State), Alone .remu i s →
      exec (.remu i) s = .next (settle (s.flying i 18 (.sreg i.d.toNat (if (s.coreFor i).sGet i.b.toNat = 0 then (s.coreFor i).sGet i.a.toNat else (s.coreFor i).sGet i.a.toNat % (s.coreFor i).sGet i.b.toNat) none) false))) ∧
  (∀ (i : Ins) (s : State), Alone .and i s →
      exec (.and i) s = .next (settle (s.wrote i (.sreg i.d.toNat ((s.coreFor i).sGet i.a.toNat &&& (s.coreFor i).sGet i.b.toNat) none)))) ∧
  (∀ (i : Ins) (s : State), Alone .or i s →
      exec (.or i) s = .next (settle (s.wrote i (.sreg i.d.toNat ((s.coreFor i).sGet i.a.toNat ||| (s.coreFor i).sGet i.b.toNat) none)))) ∧
  (∀ (i : Ins) (s : State), Alone .xor i s →
      exec (.xor i) s = .next (settle (s.wrote i (.sreg i.d.toNat ((s.coreFor i).sGet i.a.toNat ^^^ (s.coreFor i).sGet i.b.toNat) none)))) ∧
  (∀ (i : Ins) (s : State), Alone .shl i s →
      exec (.shl i) s = .next (settle (s.wrote i (.sreg i.d.toNat ((s.coreFor i).sGet i.a.toNat <<< (((s.coreFor i).sGet i.b.toNat).toNat % 64)) none)))) ∧
  (∀ (i : Ins) (s : State), Alone .shr i s →
      exec (.shr i) s = .next (settle (s.wrote i (.sreg i.d.toNat ((s.coreFor i).sGet i.a.toNat >>> (((s.coreFor i).sGet i.b.toNat).toNat % 64)) none)))) ∧
  (∀ (i : Ins) (s : State), Alone .sar i s →
      exec (.sar i) s = .next (settle (s.wrote i (.sreg i.d.toNat (((s.coreFor i).sGet i.a.toNat).sshiftRight (((s.coreFor i).sGet i.b.toNat).toNat % 64)) none)))) ∧
  (∀ (i : Ins) (s : State), Alone .shi i s →
      exec (.shi i) s = .next (settle (s.wrote i (.sreg i.d.toNat (if i.im 9 8 = 0 then (s.coreFor i).sGet i.a.toNat <<< i.im 5 0 else if i.im 9 8 = 1 then (s.coreFor i).sGet i.a.toNat >>> i.im 5 0 else ((s.coreFor i).sGet i.a.toNat).sshiftRight (i.im 5 0)) none)))) ∧
  (∀ (i : Ins) (s : State), Alone .li i s →
      exec (.li i) s = .next (settle (s.wrote i (.sreg i.d.toNat (BitVec.ofInt 64 (signed 32 i.imm.toNat)) none)))) ∧
  (∀ (i : Ins) (s : State), Alone .lih i s →
      exec (.lih i) s = .next (settle (s.wrote i (.sreg i.d.toNat (i.imm ++ ((s.coreFor i).sGet i.d.toNat).setWidth 32) none))))

/-- For CMP, PLOG, PMOV, PTOS, MFS and LDP: an instruction that issues alone ends in a next state in which p[d] or s[d] takes the value R108 gives (MFS: the special register of R118, read by number for registers 0 to 8, the four token counters for 9 to 12 and mfsCap for 13; LDP: 8 bytes of the core's parameter block), at its latency, and nothing else changes but the pins. Beside its rules it rests on choices and readings of the model itself: log entries 25, 26, 28, 34. -/
def Obligations.ScalarMovesResults : Prop :=
  (∀ (i : Ins) (s : State), Alone .cmp i s →
      exec (.cmp i) s = .next (settle (s.wrote i (.preg (i.d.toNat % 8) (BitVec.allOnes 64) (if (match i.im 2 0 with
        | 0 => decide ((s.coreFor i).sGet i.a.toNat = (s.coreFor i).sGet i.b.toNat)
        | 1 => decide ((s.coreFor i).sGet i.a.toNat ≠ (s.coreFor i).sGet i.b.toNat)
        | 2 => decide (((s.coreFor i).sGet i.a.toNat).toInt < ((s.coreFor i).sGet i.b.toNat).toInt)
        | 3 => decide (((s.coreFor i).sGet i.a.toNat).toNat < ((s.coreFor i).sGet i.b.toNat).toNat)
        | 4 => decide (((s.coreFor i).sGet i.b.toNat).toInt ≤ ((s.coreFor i).sGet i.a.toNat).toInt)
        | _ => decide (((s.coreFor i).sGet i.b.toNat).toNat ≤ ((s.coreFor i).sGet i.a.toNat).toNat)) then BitVec.allOnes 64 else 0))))) ∧
  (∀ (i : Ins) (s : State), Alone .plog i s →
      exec (.plog i) s = .next (settle (s.wrote i (.preg (i.d.toNat % 8) (BitVec.allOnes 64) (match i.im 1 0 with
        | 0 => (s.coreFor i).pGet i.a.toNat &&& (s.coreFor i).pGet i.b.toNat
        | 1 => (s.coreFor i).pGet i.a.toNat ||| (s.coreFor i).pGet i.b.toNat
        | 2 => (s.coreFor i).pGet i.a.toNat ^^^ (s.coreFor i).pGet i.b.toNat
        | _ => (s.coreFor i).pGet i.a.toNat &&& ~~~((s.coreFor i).pGet i.b.toNat)))))) ∧
  (∀ (i : Ins) (s : State), Alone .pmov i s →
      exec (.pmov i) s = .next (settle (s.wrote i (.preg (i.d.toNat % 8) (BitVec.allOnes 64) ((s.coreFor i).sGet i.a.toNat))))) ∧
  (∀ (i : Ins) (s : State), Alone .ptos i s →
      exec (.ptos i) s = .next (settle (s.wrote i (.sreg i.d.toNat ((s.coreFor i).pGet i.a.toNat) none)))) ∧
  (∀ (i : Ins) (s : State), Alone .mfs i s → i.im 7 0 = 0 →
      exec (.mfs i) s = .next (settle (s.wrote i (.sreg i.d.toNat (BitVec.ofNat 64 (i.core.toNat)) none)))) ∧
  (∀ (i : Ins) (s : State), Alone .mfs i s → i.im 7 0 = 1 →
      exec (.mfs i) s = .next (settle (s.wrote i (.sreg i.d.toNat (BitVec.ofNat 64 ((s.run.map (·.stepNo)).getD 0)) none)))) ∧
  (∀ (i : Ins) (s : State), Alone .mfs i s → i.im 7 0 = 2 →
      exec (.mfs i) s = .next (settle (s.wrote i (.sreg i.d.toNat (BitVec.ofNat 64 ((s.run.map (·.stepIdx)).getD 0)) none)))) ∧
  (∀ (i : Ins) (s : State), Alone .mfs i s → i.im 7 0 = 3 →
      exec (.mfs i) s = .next (settle (s.wrote i (.sreg i.d.toNat (BitVec.ofNat 64 ((s.run.map (·.iter)).getD 0 % 2 ^ 32)) none)))) ∧
  (∀ (i : Ins) (s : State), Alone .mfs i s → i.im 7 0 = 4 →
      exec (.mfs i) s = .next (settle (s.wrote i (.sreg i.d.toNat (BitVec.ofNat 64 (((runPlan s).map (·.seed.toNat)).getD 0)) none)))) ∧
  (∀ (i : Ins) (s : State), Alone .mfs i s → i.im 7 0 = 5 →
      exec (.mfs i) s = .next (settle (s.flying i 4 (.sreg i.d.toNat (BitVec.ofNat 64 (s.now)) none) false))) ∧
  (∀ (i : Ins) (s : State), Alone .mfs i s → i.im 7 0 = 6 →
      exec (.mfs i) s = .next (settle (s.flying i 4 (.sreg i.d.toNat (BitVec.ofNat 64 ((s.coreFor i).cyc)) none) false))) ∧
  (∀ (i : Ins) (s : State), Alone .mfs i s → i.im 7 0 = 7 →
      exec (.mfs i) s = .next (settle (s.wrote i (.sreg i.d.toNat (BitVec.ofNat 64 (deviceId s)) none)))) ∧
  (∀ (i : Ins) (s : State), Alone .mfs i s → i.im 7 0 = 8 →
      exec (.mfs i) s = .next (settle (s.wrote i (.sreg i.d.toNat (BitVec.ofNat 64 (queueFree (s.coreFor i))) none)))) ∧
  (∀ (i : Ins) (s : State) (j : Nat), Alone .mfs i s → j < 4 → i.im 7 0 = 9 + j →
      exec (.mfs i) s = .next (settle (s.wrote i (.sreg i.d.toNat (BitVec.ofNat 64 (tokens4 (s.coreFor i) j)) none)))) ∧
  (∀ (i : Ins) (s : State), Alone .mfs i s → i.im 7 0 = 13 →
      exec (.mfs i) s = .next (settle (s.wrote i (.sreg i.d.toNat (BitVec.ofNat 64 (mfsCap s (i.core.toNat / 16))) none)))) ∧
  (∀ (i : Ins) (s : State), Alone .ldp i s →
      exec (.ldp i) s = .next (settle (s.flying i 2 (.sreg i.d.toNat (BitVec.ofNat 64 (((runPlan s).map fun p => leNat (bytesAt p.params (256 * i.core.toNat + i.im 7 0) 8)).getD 0)) none) false)))

/-- For VADD, VSUB, VMUL, VFMA, VMAX, VMIN, VSFU, VRSUM and VRMAX: an instruction that issues alone ends in a next state in which the lanes of v[d] that the guard selects (all 64 for VRSUM and VRMAX, whose other lanes are zero) take the FP32 result of R113 and R505 at the latency of R113, with Sloe mode as R198 says, and nothing else changes but the pins. Beside its rules it rests on choices and readings of the model itself: log entries 25, 26, 28. -/
def Obligations.VectorFloatResults : Prop :=
  (∀ (i : Ins) (s : State), Alone .vadd i s →
      exec (.vadd i) s = .next (settle (s.flying i 4 (.vreg i.d.toNat (guardOf (s.coreFor i) i) (ofLanes fun k => fop2 (sloe s) fp32.add (lane ((s.coreFor i).vGet i.a.toNat) k) (lane ((s.coreFor i).vGet i.b.toNat) k)) ([])) false))) ∧
  (∀ (i : Ins) (s : State), Alone .vsub i s →
      exec (.vsub i) s = .next (settle (s.flying i 4 (.vreg i.d.toNat (guardOf (s.coreFor i) i) (ofLanes fun k => fop2 (sloe s) fp32.sub (lane ((s.coreFor i).vGet i.a.toNat) k) (lane ((s.coreFor i).vGet i.b.toNat) k)) ([])) false))) ∧
  (∀ (i : Ins) (s : State), Alone .vmul i s →
      exec (.vmul i) s = .next (settle (s.flying i 4 (.vreg i.d.toNat (guardOf (s.coreFor i) i) (ofLanes fun k => fop2 (sloe s) fp32.mul (lane ((s.coreFor i).vGet i.a.toNat) k) (lane ((s.coreFor i).vGet i.b.toNat) k)) ([])) false))) ∧
  (∀ (i : Ins) (s : State), Alone .vfma i s →
      exec (.vfma i) s = .next (settle (s.flying i 4 (.vreg i.d.toNat (guardOf (s.coreFor i) i) (ofLanes fun k => fop3 (sloe s) (lane ((s.coreFor i).vGet i.a.toNat) k) (lane ((s.coreFor i).vGet i.b.toNat) k) (lane ((s.coreFor i).vGet i.c.toNat) k)) ([])) false))) ∧
  (∀ (i : Ins) (s : State), Alone .vmax i s →
      exec (.vmax i) s = .next (settle (s.flying i 2 (.vreg i.d.toNat (guardOf (s.coreFor i) i) (ofLanes fun k => fop2 (sloe s) fp32.max (lane ((s.coreFor i).vGet i.a.toNat) k) (lane ((s.coreFor i).vGet i.b.toNat) k)) ([])) false))) ∧
  (∀ (i : Ins) (s : State), Alone .vmin i s →
      exec (.vmin i) s = .next (settle (s.flying i 2 (.vreg i.d.toNat (guardOf (s.coreFor i) i) (ofLanes fun k => fop2 (sloe s) fp32.min (lane ((s.coreFor i).vGet i.a.toNat) k) (lane ((s.coreFor i).vGet i.b.toNat) k)) ([])) false))) ∧
  (∀ (i : Ins) (s : State), Alone .vsfu i s →
      exec (.vsfu i) s = .next (settle (s.flying i 12 (.vreg i.d.toNat (guardOf (s.coreFor i) i) (ofLanes fun k => vsfu (i.im 25 20) (lane ((s.coreFor i).vGet i.a.toNat) k)) ([])) false))) ∧
  (∀ (i : Ins) (s : State), Alone .vrsum i s →
      exec (.vrsum i) s = .next (settle (s.flying i 10 (.vreg i.d.toNat (BitVec.allOnes 64) (ofLanes fun k => if k = 0 then vrsum (sloe s) ((s.coreFor i).vGet i.a.toNat) else 0) ([])) false))) ∧
  (∀ (i : Ins) (s : State), Alone .vrmax i s →
      exec (.vrmax i) s = .next (settle (s.flying i 6 (.vreg i.d.toNat (BitVec.allOnes 64) (ofLanes fun k => if k = 0 then vrmax (sloe s) ((s.coreFor i).vGet i.a.toNat) else 0) ([])) false)))

/-- For VCMP, VMOV, VIADD, VLOGIC, VSHIFT, VCVTW, VBCL, VPERM, MOVSV and MOVVS: an instruction that issues alone ends in a next state in which p[d], the selected lanes of v[d], or s[d] take the result of R113 or R114 at its latency, copies (VMOV, MOVSV, MOVVS) carry the poison tags of their source (R95), and nothing else changes but the pins. Beside its rules it rests on choices and readings of the model itself: log entries 25, 26, 28, 30. -/
def Obligations.VectorIntegerResults : Prop :=
  (∀ (i : Ins) (s : State), Alone .vcmp i s →
      exec (.vcmp i) s = .next (settle (s.flying i 2 (.preg (i.d.toNat % 8) (guardOf (s.coreFor i) i) (predOf fun k => vcmpCond (i.im 19 16) (BitVec.ofNat 32 (dazIf (sloe s) (lane ((s.coreFor i).vGet i.a.toNat) k).toNat)) (BitVec.ofNat 32 (dazIf (sloe s) (lane ((s.coreFor i).vGet i.b.toNat) k).toNat)))) false))) ∧
  (∀ (i : Ins) (s : State), Alone .vmov i s →
      exec (.vmov i) s = .next (settle (s.wrote i (.vreg i.d.toNat (guardOf (s.coreFor i) i) (ofLanes fun k => lane ((s.coreFor i).vGet i.a.toNat) k) (copyTags (s.coreFor i) i.a.toNat))))) ∧
  (∀ (i : Ins) (s : State), Alone .viadd i s →
      exec (.viadd i) s = .next (settle (s.wrote i (.vreg i.d.toNat (guardOf (s.coreFor i) i) (ofLanes fun k => match i.im 25 20 with
        | 0 => lane ((s.coreFor i).vGet i.a.toNat) k + lane ((s.coreFor i).vGet i.b.toNat) k
        | 1 => lane ((s.coreFor i).vGet i.a.toNat) k - lane ((s.coreFor i).vGet i.b.toNat) k
        | _ => lane ((s.coreFor i).vGet i.a.toNat) k * lane ((s.coreFor i).vGet i.b.toNat) k) ([]))))) ∧
  (∀ (i : Ins) (s : State), Alone .vlogic i s →
      exec (.vlogic i) s = .next (settle (s.wrote i (.vreg i.d.toNat (guardOf (s.coreFor i) i) (ofLanes fun k => match i.im 25 20 with
        | 0 => lane ((s.coreFor i).vGet i.a.toNat) k &&& lane ((s.coreFor i).vGet i.b.toNat) k
        | 1 => lane ((s.coreFor i).vGet i.a.toNat) k ||| lane ((s.coreFor i).vGet i.b.toNat) k
        | 2 => lane ((s.coreFor i).vGet i.a.toNat) k ^^^ lane ((s.coreFor i).vGet i.b.toNat) k
        | _ => ~~~(lane ((s.coreFor i).vGet i.a.toNat) k)) ([]))))) ∧
  (∀ (i : Ins) (s : State), Alone .vshift i s →
      exec (.vshift i) s = .next (settle (s.wrote i (.vreg i.d.toNat (guardOf (s.coreFor i) i) (ofLanes fun k => match i.im 25 20 with
        | 0 => lane ((s.coreFor i).vGet i.a.toNat) k <<< ((lane ((s.coreFor i).vGet i.b.toNat) k).toNat % 32)
        | 1 => lane ((s.coreFor i).vGet i.a.toNat) k >>> ((lane ((s.coreFor i).vGet i.b.toNat) k).toNat % 32)
        | _ => (lane ((s.coreFor i).vGet i.a.toNat) k).sshiftRight ((lane ((s.coreFor i).vGet i.b.toNat) k).toNat % 32)) ([]))))) ∧
  (∀ (i : Ins) (s : State), Alone .vcvtw i s →
      let u := s.scalesRead .vcvtw i
      exec (.vcvtw i) s = .next (settle (u.flying i 4 (.vreg i.d.toNat (guardOf (s.coreFor i) i) (ofLanes fun k => vcvtw (sloe u) (i.im 31 28)
        (scaleExp u (coreScale (physCore s i.core.toNat) (i.im 15 8))) ((s.coreFor i).vGet i.a.toNat) k) []) false))) ∧
  (∀ (i : Ins) (s : State), Alone .vbcl i s →
      exec (.vbcl i) s = .next (settle (s.flying i 2 (.vreg i.d.toNat (guardOf (s.coreFor i) i) (ofLanes fun _ => lane ((s.coreFor i).vGet i.a.toNat) (i.im 5 0)) ([])) false))) ∧
  (∀ (i : Ins) (s : State), Alone .vperm i s →
      exec (.vperm i) s = .next (settle (s.flying i 3 (.vreg i.d.toNat (guardOf (s.coreFor i) i) (ofLanes fun k => lane ((s.coreFor i).vGet i.a.toNat) ((lane ((s.coreFor i).vGet i.b.toNat) k).toNat % 64)) ([])) false))) ∧
  (∀ (i : Ins) (s : State), Alone .movsv i s →
      exec (.movsv i) s = .next (settle (s.wrote i (.vreg i.d.toNat (BitVec.allOnes 64) (ofLanes fun _ => ((s.coreFor i).sGet i.a.toNat).setWidth 32) (match tget? (s.coreFor i).sTag i.a.toNat with
        | some t => (List.range 8).map fun g => (g, t)
        | none => []))))) ∧
  (∀ (i : Ins) (s : State), Alone .movvs i s →
      exec (.movvs i) s = .next (settle (s.flying i 2 (.sreg i.d.toNat ((lane ((s.coreFor i).vGet i.a.toNat) (i.im 5 0)).setWidth 64) (tget? (s.coreFor i).vTag (8 * i.a.toNat + i.im 5 0 / 8))) false)))

/-- A VCVT that issues alone ends in a next state in which v[d] takes, 6 CCLK after issue, the 256 bytes of the conversion of v[a] under the entry's exponent, the guard and the rounding of each lane (R113, R183, R186), the capture of the enabled lanes (R187) joins what the core has staged for that scale-table entry, the bytes of the entry that were corrected on the way are rewritten (R185), and nothing else changes but the pins. Beside its rules it rests on choices and readings of the model itself: log entries 25, 26, 28, 91, 94. -/
def Obligations.VectorConversion : Prop :=
  ∀ (i : Ins) (s : State), Alone .vcvt i s →
    let pk := physCore s i.core.toNat
    let c := s.coreFor i
    let t := i.im 15 8
    let u := s.scalesRead .vcvt i
    let who := if srGlobal u pk t then 0x1000 else i.core.toNat
    let r := vcvt (sloe u) (i.im 31 28) (scaleExp u (coreScale pk t)) (guardOf c i)
      (fun k => rndOf u (i.im 27 26) who (c.sGet i.b.toNat + BitVec.ofNat 64 k)) (c.vGet i.a.toNat)
    exec (.vcvt i) s = .next (settle (setCore u pk
      { c.past with fly := [⟨c.cyc + 6, .vreg i.d.toNat (BitVec.allOnes 64) r.1 [], false⟩],
                    stage := tput c.stage t ((tget Cap.init c.stage t).join r.2) }))

/-- A BR, BNZD or JR that issues alone ends in a next state in which the core stands at the bundle after the branch with the branch target, 12 bits, held for the bundle after that one (none for a BNZD whose register has become 0), BNZD has decremented s[a], and nothing else changes but the pins; and a core that holds a branch target passes its delay bundle to that target. Beside its rules it rests on choices and readings of the model itself: log entries 25, 27, 29. -/
def Obligations.Branches : Prop :=
  (∀ (i : Ins) (s : State), Alone .br i s →
      exec (.br i) s = .next (settle (s.passed i fun c =>
        { c with delay := some (some (unsigned 12 (((s.coreFor i).pc : Int) + signed 32 i.imm.toNat))) }))) ∧
  (∀ (i : Ins) (s : State), Alone .bnzd i s →
      exec (.bnzd i) s = .next (settle (s.passed i fun c =>
        { c.land (.sreg i.a.toNat ((s.coreFor i).sGet i.a.toNat - 1) none) with
            delay := some (if (s.coreFor i).sGet i.a.toNat - 1 ≠ 0 then
              some (unsigned 12 (((s.coreFor i).pc : Int) + signed 32 i.imm.toNat)) else none) }))) ∧
  (∀ (i : Ins) (s : State), Alone .jr i s →
      exec (.jr i) s = .next (settle (s.passed i fun c =>
        { c with delay := some (some (((s.coreFor i).sGet i.a.toNat).toNat % 4096)) }))) ∧
  (∀ (c : Core), c.past.pc = match c.delay with
    | some (some t) => t
    | _ => (c.pc + 1) % 4096)

/-- A load that issues alone and whose bytes the core's own write buffer and L1 hold returns them, zero-extended and with their poison tags, 4 CCLK after issue (6 for VLD), interlocked; a load that misses is entered among the loads that wait for their data, with the host address that the window gives it at issue (R36). A hit moves the replacement state of the lines it uses. Nothing else changes but the core's pc and cycle and the pins. Beside its rules it rests on choices and readings of the model itself: log entries 22, 23, 25, 26. -/
def Obligations.LoadIssue : Prop :=
  (∀ (i : Ins) (s : State) (l : List PByte), Alone .ld8 i s → s.nearLoad .ld8 i = some l → s.noForcedMiss i →
      exec (.ld8 i) s = .next (settle (s.passed i fun c =>
        { c with l1plru := (coreOf (touchLines s (physCore s i.core.toNat) (accAddr (s.coreFor i) .ld8 i) (accSize .ld8)) (physCore s i.core.toNat)).l1plru,
                 fly := [⟨(s.coreFor i).cyc + 4, loadWrite false i.d.toNat (accAddr (s.coreFor i) .ld8 i) l, true⟩] }))) ∧
  (∀ (i : Ins) (s : State), Alone .ld8 i s → s.nearLoad .ld8 i = none →
      exec (.ld8 i) s = .next (settle (s.passed i fun c => { c with nextId := c.nextId + 1, loads :=
        [⟨c.nextId, false, i.d.toNat, accAddr (s.coreFor i) .ld8 i, accSize .ld8, (s.coreFor i).pc, BitVec.allOnes 64, busOf s (accAddr (s.coreFor i) .ld8 i)⟩] }))) ∧
  (∀ (i : Ins) (s : State) (l : List PByte), Alone .ld16 i s → s.nearLoad .ld16 i = some l → s.noForcedMiss i →
      exec (.ld16 i) s = .next (settle (s.passed i fun c =>
        { c with l1plru := (coreOf (touchLines s (physCore s i.core.toNat) (accAddr (s.coreFor i) .ld16 i) (accSize .ld16)) (physCore s i.core.toNat)).l1plru,
                 fly := [⟨(s.coreFor i).cyc + 4, loadWrite false i.d.toNat (accAddr (s.coreFor i) .ld16 i) l, true⟩] }))) ∧
  (∀ (i : Ins) (s : State), Alone .ld16 i s → s.nearLoad .ld16 i = none →
      exec (.ld16 i) s = .next (settle (s.passed i fun c => { c with nextId := c.nextId + 1, loads :=
        [⟨c.nextId, false, i.d.toNat, accAddr (s.coreFor i) .ld16 i, accSize .ld16, (s.coreFor i).pc, BitVec.allOnes 64, busOf s (accAddr (s.coreFor i) .ld16 i)⟩] }))) ∧
  (∀ (i : Ins) (s : State) (l : List PByte), Alone .ld32 i s → s.nearLoad .ld32 i = some l → s.noForcedMiss i →
      exec (.ld32 i) s = .next (settle (s.passed i fun c =>
        { c with l1plru := (coreOf (touchLines s (physCore s i.core.toNat) (accAddr (s.coreFor i) .ld32 i) (accSize .ld32)) (physCore s i.core.toNat)).l1plru,
                 fly := [⟨(s.coreFor i).cyc + 4, loadWrite false i.d.toNat (accAddr (s.coreFor i) .ld32 i) l, true⟩] }))) ∧
  (∀ (i : Ins) (s : State), Alone .ld32 i s → s.nearLoad .ld32 i = none →
      exec (.ld32 i) s = .next (settle (s.passed i fun c => { c with nextId := c.nextId + 1, loads :=
        [⟨c.nextId, false, i.d.toNat, accAddr (s.coreFor i) .ld32 i, accSize .ld32, (s.coreFor i).pc, BitVec.allOnes 64, busOf s (accAddr (s.coreFor i) .ld32 i)⟩] }))) ∧
  (∀ (i : Ins) (s : State) (l : List PByte), Alone .ld64 i s → s.nearLoad .ld64 i = some l → s.noForcedMiss i →
      exec (.ld64 i) s = .next (settle (s.passed i fun c =>
        { c with l1plru := (coreOf (touchLines s (physCore s i.core.toNat) (accAddr (s.coreFor i) .ld64 i) (accSize .ld64)) (physCore s i.core.toNat)).l1plru,
                 fly := [⟨(s.coreFor i).cyc + 4, loadWrite false i.d.toNat (accAddr (s.coreFor i) .ld64 i) l, true⟩] }))) ∧
  (∀ (i : Ins) (s : State), Alone .ld64 i s → s.nearLoad .ld64 i = none →
      exec (.ld64 i) s = .next (settle (s.passed i fun c => { c with nextId := c.nextId + 1, loads :=
        [⟨c.nextId, false, i.d.toNat, accAddr (s.coreFor i) .ld64 i, accSize .ld64, (s.coreFor i).pc, BitVec.allOnes 64, busOf s (accAddr (s.coreFor i) .ld64 i)⟩] }))) ∧
  (∀ (i : Ins) (s : State) (l : List PByte), Alone .vld i s → s.nearLoad .vld i = some l → s.noForcedMiss i →
      exec (.vld i) s = .next (settle (s.passed i fun c =>
        { c with l1plru := (coreOf (touchLines s (physCore s i.core.toNat) (accAddr (s.coreFor i) .vld i) (accSize .vld)) (physCore s i.core.toNat)).l1plru,
                 fly := [⟨(s.coreFor i).cyc + 6, loadWrite true i.d.toNat (accAddr (s.coreFor i) .vld i) l, true⟩] }))) ∧
  (∀ (i : Ins) (s : State), Alone .vld i s → s.nearLoad .vld i = none →
      exec (.vld i) s = .next (settle (s.passed i fun c => { c with nextId := c.nextId + 1, loads :=
        [⟨c.nextId, true, i.d.toNat, accAddr (s.coreFor i) .vld i, accSize .vld, (s.coreFor i).pc, BitVec.allOnes 64, busOf s (accAddr (s.coreFor i) .vld i)⟩] })))

/-- A store that issues alone is posted: its address, bytes and poison enter the write buffer in program order, or, where every line it covers is owned by the core's L1 and no older store overlaps it, its bytes enter those lines at once and make them dirty. Nothing else changes but the core's pc and cycle and the pins. Beside its rules it rests on choices and readings of the model itself: log entries 22, 23, 25, 26. -/
def Obligations.StoreIssue : Prop :=
  (∀ (i : Ins) (s : State), Alone .st8 i s → s.storePlaces .st8 i = none →
      exec (.st8 i) s = .next (settle (s.passed i fun c => { c with nextId := c.nextId + 1, wb := c.wb ++
        [s.storeEntry .st8 i] }))) ∧
  (∀ (i : Ins) (s : State) (ps : List (Nat × Nat × Nat)), Alone .st8 i s → s.storePlaces .st8 i = some ps →
      exec (.st8 i) s = .next (settle (s.passed i fun c =>
        { c with l1 := (coreOf (l1Stores s (physCore s i.core.toNat) ps (storeData (s.coreFor i) .st8 i)) (physCore s i.core.toNat)).l1,
                 l1plru := (coreOf (l1Stores s (physCore s i.core.toNat) ps (storeData (s.coreFor i) .st8 i)) (physCore s i.core.toNat)).l1plru }))) ∧
  (∀ (i : Ins) (s : State), Alone .st16 i s → s.storePlaces .st16 i = none →
      exec (.st16 i) s = .next (settle (s.passed i fun c => { c with nextId := c.nextId + 1, wb := c.wb ++
        [s.storeEntry .st16 i] }))) ∧
  (∀ (i : Ins) (s : State) (ps : List (Nat × Nat × Nat)), Alone .st16 i s → s.storePlaces .st16 i = some ps →
      exec (.st16 i) s = .next (settle (s.passed i fun c =>
        { c with l1 := (coreOf (l1Stores s (physCore s i.core.toNat) ps (storeData (s.coreFor i) .st16 i)) (physCore s i.core.toNat)).l1,
                 l1plru := (coreOf (l1Stores s (physCore s i.core.toNat) ps (storeData (s.coreFor i) .st16 i)) (physCore s i.core.toNat)).l1plru }))) ∧
  (∀ (i : Ins) (s : State), Alone .st32 i s → s.storePlaces .st32 i = none →
      exec (.st32 i) s = .next (settle (s.passed i fun c => { c with nextId := c.nextId + 1, wb := c.wb ++
        [s.storeEntry .st32 i] }))) ∧
  (∀ (i : Ins) (s : State) (ps : List (Nat × Nat × Nat)), Alone .st32 i s → s.storePlaces .st32 i = some ps →
      exec (.st32 i) s = .next (settle (s.passed i fun c =>
        { c with l1 := (coreOf (l1Stores s (physCore s i.core.toNat) ps (storeData (s.coreFor i) .st32 i)) (physCore s i.core.toNat)).l1,
                 l1plru := (coreOf (l1Stores s (physCore s i.core.toNat) ps (storeData (s.coreFor i) .st32 i)) (physCore s i.core.toNat)).l1plru }))) ∧
  (∀ (i : Ins) (s : State), Alone .st64 i s → s.storePlaces .st64 i = none →
      exec (.st64 i) s = .next (settle (s.passed i fun c => { c with nextId := c.nextId + 1, wb := c.wb ++
        [s.storeEntry .st64 i] }))) ∧
  (∀ (i : Ins) (s : State) (ps : List (Nat × Nat × Nat)), Alone .st64 i s → s.storePlaces .st64 i = some ps →
      exec (.st64 i) s = .next (settle (s.passed i fun c =>
        { c with l1 := (coreOf (l1Stores s (physCore s i.core.toNat) ps (storeData (s.coreFor i) .st64 i)) (physCore s i.core.toNat)).l1,
                 l1plru := (coreOf (l1Stores s (physCore s i.core.toNat) ps (storeData (s.coreFor i) .st64 i)) (physCore s i.core.toNat)).l1plru }))) ∧
  (∀ (i : Ins) (s : State), Alone .vst i s → s.storePlaces .vst i = none →
      exec (.vst i) s = .next (settle (s.passed i fun c => { c with nextId := c.nextId + 1, wb := c.wb ++
        [s.storeEntry .vst i] }))) ∧
  (∀ (i : Ins) (s : State) (ps : List (Nat × Nat × Nat)), Alone .vst i s → s.storePlaces .vst i = some ps →
      exec (.vst i) s = .next (settle (s.passed i fun c =>
        { c with l1 := (coreOf (l1Stores s (physCore s i.core.toNat) ps (storeData (s.coreFor i) .vst i)) (physCore s i.core.toNat)).l1,
                 l1plru := (coreOf (l1Stores s (physCore s i.core.toNat) ps (storeData (s.coreFor i) .vst i)) (physCore s i.core.toNat)).l1plru })))

/-- For MMASK, MWLD, MSWAP, MMAC, MCLR, MST, MLDA, MPCFG and MRDV: a command that issues alone enters the compute queue (MWLD the weight queue) of its array with the register values it read, the effect number that stands (an MST under mode 1 takes the next, R78) and the mode and masks that program order gives it (R149); MPCFG and MMASK move those at once for later commands, MWLD is remembered for the next MSWAP of its partition, MRDV marks v[c] pending (R99); nothing else changes but the core's pc and cycle and the pins. Beside its rules it rests on choices and readings of the model itself: log entries 25, 26, 28, 90, 91. -/
def Obligations.ArrayIssue : Prop :=
  (∀ (i : Ins) (s : State), Alone .mpcfg i s →
      exec (.mpcfg i) s = .next (settle (s.arrayQueued .mpcfg i fun a q => { a with progMode := i.im 1 0, masks := [], lastMwld := [], lastCfg := q.id + 1, cq := a.cq ++ [q] }))) ∧
  (∀ (i : Ins) (s : State), Alone .mmask i s →
      exec (.mmask i) s = .next (settle (s.arrayQueued .mmask i fun a q => { a with masks := tput a.masks i.part (q.va, q.vb), cq := a.cq ++ [q] }))) ∧
  (∀ (i : Ins) (s : State), Alone .mwld i s →
      exec (.mwld i) s = .next (settle (s.arrayQueued .mwld i fun a q => { a with lastMwld := tput a.lastMwld i.part (q.id + 1), wq := a.wq ++ [q] }))) ∧
  (∀ (i : Ins) (s : State), Alone .mswap i s →
      exec (.mswap i) s = .next (settle (s.arrayQueued .mswap i fun a q => { a with lastMwld := tdel a.lastMwld i.part, cq := a.cq ++ [q] }))) ∧
  (∀ (i : Ins) (s : State), Alone .mmac i s →
      exec (.mmac i) s = .next (settle (s.arrayQueued .mmac i fun a q => { a with cq := a.cq ++ [q] }))) ∧
  (∀ (i : Ins) (s : State), Alone .mclr i s →
      exec (.mclr i) s = .next (settle (s.arrayQueued .mclr i fun a q => { a with cq := a.cq ++ [q] }))) ∧
  (∀ (i : Ins) (s : State), Alone .mst i s →
      exec (.mst i) s = .next (settle (s.arrayQueued .mst i fun a q => { a with cq := a.cq ++ [q] }))) ∧
  (∀ (i : Ins) (s : State), Alone .mlda i s →
      exec (.mlda i) s = .next (settle (s.arrayQueued .mlda i fun a q => { a with cq := a.cq ++ [q] }))) ∧
  (∀ (i : Ins) (s : State), Alone .mrdv i s →
      exec (.mrdv i) s = .next (settle (s.passed i fun c => { c.putArr i.arr { c.arrN i.arr with
        cq := (c.arrN i.arr).cq ++ [arrayCmd (s.coreFor i) .mrdv i] } with nextId := c.nextId + 1, pend := sadd c.pend i.c.toNat })))

/-- MGANG sent as service code to a core that no plan holds puts both arrays of the core into the mode and the column window that ARR_GANG_CTL of array 0 gives; outside lockstep mode it changes nothing else, and in lockstep mode each differing pair of bank writes on a column of the window counts in ARR_GANG_MISMATCHES and the first stands in ARR_GANG_MISMATCH; MGANG issued by plan code meets class 0x1A (R164), whatever the state of the array. Beside its rules it rests on choices and readings of the model itself: log entries 39. -/
def Obligations.GangedMode : Prop :=
  (∀ (tower : BitVec 4) (core : BitVec 9) (found : List GangHit) (i : Ins) (s : State), core.toNat < 272 →
      (coreOf s (tower.toNat * 272 + core.toNat)).st = .off →
      let pk := tower.toNat * 272 + core.toNat
      let m := fget s (arrBlk pk 0 + 0x20) 1 0
      let w := fget s (arrBlk pk 0 + 0x20) 2 2
      let c := coreOf s pk
      let t := setCore s pk { c with arr0 := { c.arr0 with gang := m, window := w }, arr1 := { c.arr1 with gang := m, window := w } }
      (m ≠ 2 → exec (.mgang tower core true found i) s = .next (settle t)) ∧
      (m = 2 → exec (.mgang tower core true found i) s = .next (settle
        ((found.filter fun h => 2 * w ≤ h.column.toNat ∧ h.column.toNat < 2 * w + 64).foldl (fun u h =>
          let b := arrBlk pk 0
          count (if fbit u (b + 0x28) 63 then u else regPut u (b + 0x28)
            (BitVec.ofNat 64 (h.column.toNat + h.row.toNat * 2 ^ 8 + h.vector.toNat * 2 ^ 32 + 2 ^ 63))) b 6 1) t)))) ∧
  (∀ (i : Ins) (s : State) (c : Core) (lc : Nat), ⟨0x1A, 0xFFFF, none⟩ ∈ issueTraps s lc c .mgang i)

/-- For DMA, DMAR, ATTCMD, PFXWALK, ROWOP, ROWMODE (both forms), COLL and RWAKE: a command that issues alone on a core with an empty engine queue and write buffer occupies one entry of the queue with the register values and the effect number it read (a DMAR and a COLL take the next effect numbers, R78) and starts at once: a DMA or DMAR is marked started, a ROWOP and a ROWMODE go to their channel (startRowop, startRowmode), an ATTCMD and a PFXWALK to the cluster's attention engine (startAtt), a COLL to the tower's collective engine (startColl), and an RWAKE begins to wake its region (startWake). Beside its rules it rests on choices and readings of the model itself: log entries 25, 26. -/
def Obligations.EngineIssue : Prop :=
  (∀ (i : Ins) (s : State), Alone .dma i s → (s.coreFor i).wb = [] →
      exec (.dma i) s = .next (settle (s.passed i fun c => { c with nextId := c.nextId + 1, eng := [{ queuedCmd (s.coreFor i) .dma i with st := 1 }] }))) ∧
  (∀ (i : Ins) (s : State), Alone .dmar i s → (s.coreFor i).wb = [] →
      exec (.dmar i) s = .next (settle (s.passed i fun c => { c with nextId := c.nextId + 1, effNext := c.effNext + 1, eng := [{ queuedCmd (s.coreFor i) .dmar i with st := 1 }] }))) ∧
  (∀ (i : Ins) (s : State), Alone .attcmd i s → (s.coreFor i).wb = [] →
      let q := queuedCmd (s.coreFor i) .attcmd i
      exec (.attcmd i) s = .next (settle (tryCommit (startAtt (s.passed i fun c => { c with nextId := c.nextId + 1, eng := [q] }) i.core.toNat q false) (physCore s i.core.toNat)))) ∧
  (∀ (i : Ins) (s : State), Alone .pfxwalk i s → (s.coreFor i).wb = [] →
      let q := queuedCmd (s.coreFor i) .pfxwalk i
      exec (.pfxwalk i) s = .next (settle (tryCommit (startAtt (s.passed i fun c => { c with nextId := c.nextId + 1, eng := [q] }) i.core.toNat q true) (physCore s i.core.toNat)))) ∧
  (∀ (i : Ins) (s : State), Alone .rowop i s → (s.coreFor i).wb = [] →
      let q := queuedCmd (s.coreFor i) .rowop i
      exec (.rowop i) s = .next (settle (tryCommit (startRowop (s.passed i fun c => { c with nextId := c.nextId + 1, eng := [q] }) i.core.toNat q) (physCore s i.core.toNat)))) ∧
  (∀ (i : Ins) (s : State), Alone .rowmodeEnter i s → (s.coreFor i).wb = [] →
      let q := queuedCmd (s.coreFor i) .rowmodeEnter i
      exec (.rowmodeEnter i) s = .next (settle (tryCommit (startRowmode (s.passed i fun c => { c with nextId := c.nextId + 1, eng := [q] }) i.core.toNat q 1) (physCore s i.core.toNat)))) ∧
  (∀ (i : Ins) (s : State), Alone .rowmodeExit i s → (s.coreFor i).wb = [] →
      let q := queuedCmd (s.coreFor i) .rowmodeExit i
      exec (.rowmodeExit i) s = .next (settle (tryCommit (startRowmode (s.passed i fun c => { c with nextId := c.nextId + 1, eng := [q] }) i.core.toNat q 2) (physCore s i.core.toNat)))) ∧
  (∀ (i : Ins) (s : State), Alone .coll i s → (s.coreFor i).wb = [] →
      let q := queuedCmd (s.coreFor i) .coll i
      exec (.coll i) s = .next (settle (tryCommit (startColl (s.passed i fun c => { c with nextId := c.nextId + 1, effNext := c.effNext + 1, eng := [q] }) i.core.toNat q) (physCore s i.core.toNat)))) ∧
  (∀ (i : Ins) (s : State), Alone .rwake i s → (s.coreFor i).wb = [] →
      let q := queuedCmd (s.coreFor i) .rwake i
      exec (.rwake i) s = .next (settle (tryCommit (startWake (s.passed i fun c => { c with nextId := c.nextId + 1, eng := [q] }) i.core.toNat q) (physCore s i.core.toNat))))

/-- A SIG that issues alone is counted among the effects computed at its place in the share; unless an earlier attempt issued that effect, it is counted as issued and put in flight to the core it names; an ARRIVE joins the next instance of its scope and waits for its release; a WAIT whose counter holds at least imm[15:0] decreases it by that number; an RSLEEP marks its region of the tower to be parked at the next commit; a PREF whose address register is tagged is dropped, as is one that is misaligned or leaves the fast tier, and every other carries its lines towards the L1 or the home slice, one by one in order, and changes no register of a core, no plan and no mapping: of each core only its L1. Nothing else changes but the core's pc and cycle and the pins. Beside its rules it rests on choices and readings of the model itself: log entries 24, 25, 32. -/
def Obligations.SyncIssue : Prop :=
  (∀ (i : Ins) (s : State) (r : Run), Alone .sig i s → s.run = some r →
      let c := s.coreFor i
      let lc := i.core.toNat
      let k := c.effNext
      let n := tget 0 (routerOf s lc).cur k + 1
      let u := s.passed i fun d => { d with nextId := c.nextId + 1, effNext := c.effNext + 1 }
      (tget 0 (routerOf s lc).effLocal k < n → exec (.sig i) s = .next (settle { u with
        routers := tmod Router.init s.routers lc (fun x => { x with cur := tput x.cur k n, effLocal := tput x.effLocal k n })
        run := some { r with sigs := r.sigs ++ [⟨lc, (c.sGet i.a.toNat).toNat, i.im 19 16, c.nextId⟩] } })) ∧
      (n ≤ tget 0 (routerOf s lc).effLocal k → exec (.sig i) s = .next (settle { u with
        routers := tmod Router.init s.routers lc (fun x => { x with cur := tput x.cur k n }) }))) ∧
  (∀ (i : Ins) (s : State), Alone .arrive i s →
      let c := s.coreFor i
      let lc := i.core.toNat
      let sc := i.im 25 24
      let k := tget 0 (routerOf s lc).arrK sc
      exec (.arrive i) s = .next (settle { s.passed i (fun d => { d with nextId := c.nextId + 1, waits := d.waits ++ [⟨sc, k, i.im 19 16, c.nextId⟩] }) with
        routers := tmod Router.init s.routers lc (fun x => { x with arrK := tput x.arrK sc (k + 1), standing :=
          (if (sc, k) ∈ x.standing then x.standing else x.standing ++ [(sc, k)]) }) })) ∧
  (∀ (i : Ins) (s : State), Alone .wait i s →
      exec (.wait i) s = .next (settle (s.passed i fun c =>
        { c with tok := tset 0 c.tok (i.im 19 16) (tget 0 c.tok (i.im 19 16) - i.im 15 0) }))) ∧
  (∀ (i : Ins) (s : State) (r : Run), Alone .rsleep i s → s.run = some r →
      exec (.rsleep i) s = .next (settle { s.passed i id with
        run := some { r with toPark := sadd r.toPark (i.core.toNat / 256 * 16 + i.im 3 0) } })) ∧
  (∀ (i : Ins) (s : State), Alone .pref i s → (tget? (s.coreFor i).sTag i.a.toNat).isSome = true ∨
      aligned 128 ((s.coreFor i).sGet i.a.toNat).toNat = false ∨
      rangeOk s Place.isFast (((s.coreFor i).sGet i.a.toNat).toNat % 2 ^ 48) (128 * i.im 15 0) = false →
      exec (.pref i) s = .next (settle (s.passed i id))) ∧
  (∀ (i : Ins) (s : State), Alone .pref i s →
      let c := s.coreFor i
      let pk := physCore s i.core.toNat
      let c1 : Core := { c with stream := [⟨.pref, i⟩] }
      let u := issuePref (setCore s pk c1) pk c1 i
      exec (.pref i) s = .next (settle (setCore u pk { coreOf u pk with pc := c.nextPc, delay := none, cyc := c.cyc + 1, stream := [] })) ∧
      u.run = s.run ∧ u.plans = s.plans ∧ (∀ lc < 4096, physCore u lc = physCore s lc) ∧
      ∀ k, ∃ l p, coreOf u k = { coreOf (setCore s pk c1) k with l1 := l, l1plru := p })

/-- A COMMIT that issues alone ends in a next state in which the core has passed the bundle and issues no more. With nothing outstanding in its arrays, its write buffer, its loads and its barrier waits, the dirty lines of its L1 are written back, every result in flight is architectural, and the core has arrived at the commit; otherwise it waits, and nothing else changes but the pins. Beside its rules it rests on choices and readings of the model itself: log entries 25, 80. -/
def Obligations.CommitInstruction : Prop :=
  ∀ (i : Ins) (s : State), Alone .commit i s →
    let pk := physCore s i.core.toNat
    let c := s.coreFor i
    let u := s.passed i fun d => { d with st := .commit }
    let idle := c.wb = [] ∧ c.waits = [] ∧ c.arr0.cq = [] ∧ c.arr0.wq = [] ∧ c.arr0.run = [] ∧ c.arr1.cq = [] ∧ c.arr1.wq = [] ∧ c.arr1.run = []
    (idle → exec (.commit i) s = .next (settle (modCore (l1WriteBack u pk) pk fun d => { d.drain with st := .arrived, stalled := false }))) ∧
    (¬ idle → exec (.commit i) s = .next (settle u))

/-- For LOAD_RETURN, STORE_PERFORMED, OWNERSHIP_GRANT and L1_MISS at a core that runs: the oldest load's data (the host's at the address it was translated to at issue, or what memory and the core's own older stores give) enter its register and the load ends; the oldest buffered store, behind every older load of the same bytes, is sent to the host or written to memory and leaves the buffer; the lines of the oldest store are granted and its bytes enter the L1; the line of an L1 miss entry is fetched into the L1; and the core then goes on (resume). Beside its rules it rests on choices and readings of the model itself: log entries 21, 22, 25. -/
def Obligations.CoreEvents : Prop :=
  (∀ (core : BitVec 12) (host : HostData) (s : State) (e : LoadEnt) (rest : List LoadEnt) (bus : Nat),
      let pk := physCore s core.toNat
      Live s core.toNat → (coreOf s pk).loads = e :: rest → e.bus = some bus → busMaster s = true →
      withheldFrom s core.toNat (fetchRange s pk e).1 (fetchRange s pk e).2 = false →
      let data := (indexed ((List.range e.size).map fun j => (hostBytes host).getD j (0, false))).map fun x =>
        (wbByte (coreOf s pk) e.id (e.addr + x.1)).getD (if x.2.2 then (0, true) else x.2)
      exec (.loadReturn core host) s = (modCore (emit s (.hostRead bus e.size)) pk fun c =>
        { c with loads := rest }.land (loadWrite e.vec e.d e.addr data)).resumed core.toNat) ∧
  (∀ (core : BitVec 12) (host : HostData) (s : State) (e : LoadEnt) (rest : List LoadEnt),
      let pk := physCore s core.toNat
      Live s core.toNat → (coreOf s pk).loads = e :: rest → e.bus = none →
      withheldFrom s core.toNat (fetchRange s pk e).1 (fetchRange s pk e).2 = false →
      let r := loadBytes s pk core.toNat e host
      exec (.loadReturn core host) s = (modCore r.1 pk fun c =>
        { c with loads := rest }.land (loadWrite e.vec e.d e.addr r.2)).resumed core.toNat) ∧
  (∀ (core : BitVec 12) (s : State) (e : StoreEnt) (rest : List StoreEnt) (bus : Nat),
      let pk := physCore s core.toNat
      Live s core.toNat → (coreOf s pk).wb = e :: rest → loadOver (coreOf s pk) e.id e.addr e.bytes.length = false →
      wantsOwnership s pk e = none → e.bus = some bus →
      exec (.storePerformed core) s = (modCore (toHost s (.hostWrite bus e.bytes (e.poison.any id))) pk fun c =>
        { c with wb := rest }).resumed core.toNat) ∧
  (∀ (core : BitVec 12) (s : State) (e : StoreEnt) (rest : List StoreEnt),
      let pk := physCore s core.toNat
      Live s core.toNat → (coreOf s pk).wb = e :: rest → loadOver (coreOf s pk) e.id e.addr e.bytes.length = false →
      wantsOwnership s pk e = none → e.bus = none →
      exec (.storePerformed core) s = (modCore (memWrite s e.addr (List.zip e.bytes e.poison)) pk fun c =>
        { c with wb := rest }).resumed core.toNat) ∧
  (∀ (core : BitVec 12) (s : State) (e : StoreEnt) (rest : List StoreEnt) (ps : List (Nat × Nat × Nat)),
      let pk := physCore s core.toNat
      Live s core.toNat → (coreOf s pk).wb = e :: rest → loadOver (coreOf s pk) e.id e.addr e.bytes.length = false →
      wantsOwnership s pk e = some ps →
      let u := ps.foldl (fun s p => if (tget L1Line.init (coreOf s pk).l1 p.1).own then s else grantOwn s pk p.1) s
      exec (.ownershipGrant core) s = (modCore (l1Stores u pk ps (clean e.bytes)) pk fun c => { c with wb := rest }).resumed core.toNat) ∧
  (∀ (core : BitVec 12) (addr : BitVec 48) (s : State) (lk : Nat),
      let pk := physCore s core.toNat
      Live s core.toNat → ownLine s pk addr.toNat = some lk → lk ∈ missLines s pk →
      withheldFrom s core.toNat (addr.toNat / 128 * 128) 128 = false →
      exec (.l1Miss core addr) s = (l1Fill s pk lk).resumed core.toNat)

/-- At a core that runs: MWLD_START fetches the rows of the weight command at the head into the staging buffer, and writes a staged command into the buffer of its partition that is not active once that is free, counting its poisoned rows; ARRAY_DISPATCH fetches into the activation FIFO and then, when the head may dispatch, of a MCLR clears its bank, of a MSWAP makes the loaded buffer the active one and frees the old, of a MMAC or MLDA marks the kind of its bank scope, takes its vectors out of the FIFO, counts its slots and keeps what it will land, of a MST or MRDV takes the rows it reads and the readout port, of a MMASK only starts it, of a MPCFG starts the partitions again in the new mode on the columns that the repair map gives; ARRAY_COMMAND_COMPLETION makes a weight buffer loaded, adds what a MMAC or MLDA lands, writes the rows of a MST and stages its capture, writes v[c] of a MRDV, retires the command and counts its token; PARTITION_REBUILD counts the error, does nothing more on a pulp vector, and for a first contained error with the log not full rebuilds the partition from its log. Beside its rules it rests on choices and readings of the model itself: log entries 35, 36, 37, 38, 93, 95. -/
def Obligations.ArrayEvents : Prop :=
  (∀ (core : BitVec 12) (arr : BitVec 1) (host : HostFeed) (s : State) (q : QCmd) (rest : List QCmd),
      let pk := physCore s core.toNat
      let n := arr.toNat
      let a := (coreOf s pk).arrN n
      let g := partGeom a.mode q.ins.part
      let rows := mwldRows a.width q g
      let spans := feedSpans q.ins.fmtW rows.2.1
      Live s core.toNat → a.wq = q :: rest → mwldReady (coreOf s pk) a q = true →
      (∀ x, a.staging = some x → x.id ≠ q.id) → rowsTrap s q 4 4 rows.1 spans = none → rowsWait s core.toNat q rows.1 spans = false →
      let r := mwldLoad s pk a.width host q g
      exec (.mwldStart core arr host) s = (writeMwld (modArr r.1 pk n fun a =>
        { a with staging := some ⟨q.id, r.2.1, r.2.2⟩ }) pk n).resumed core.toNat) ∧
  (∀ (core : BitVec 12) (arr : BitVec 1) (host : HostFeed) (s : State) (q : QCmd) (rest : List QCmd) (x : WStage),
      let pk := physCore s core.toNat
      let n := arr.toNat
      let a := (coreOf s pk).arrN n
      Live s core.toNat → a.wq = q :: rest → q.st = 0 → a.staging = some x → x.id = q.id →
      (tget WBuf.init a.bufs (a.spareBuf q.ins.part)).st = 0 →
      let q1 := { q with st := 1, buf := a.spareBuf q.ins.part }
      exec (.mwldStart core arr host) s = (modArr (count s (arrBlk pk n) 4 x.bad) pk n fun a =>
        ({ a with wq := q1 :: rest, staging := none, bufs := tput a.bufs q1.buf x.buf }).logCmd q1).resumed core.toNat) ∧
  (∀ (core : BitVec 12) (arr : BitVec 1) (host : HostFeed) (s : State) (q : QCmd) (rest : List QCmd),
      let pk := physCore s core.toNat
      let n := arr.toNat
      let t := fifoFill s pk core.toNat n host
      let a := (coreOf t pk).arrN n
      let left := modArr t pk n fun a => { a with cq := rest }
      let run (a : Arr) (q : QCmd) : Arr := { a with run := a.run ++ [{ q with st := 1 }] }
      Live s core.toNat → (coreOf t pk).st = (coreOf s pk).st → a.cq = q :: rest → dispatchOk (cclk t) (coreOf t pk) a q = true →
      feedsWait t core.toNat a q (a.toFetch q) = false →
      let b := (coreOf left pk).arrN n
      (q.op = .mclr → exec (.arrayDispatch core arr host) s = (modArr left pk n fun a =>
        run ((a.clearBank (partGeom a.mode q.ins.part) q.ins.part q.ins.bank).logCmd q) q).resumed core.toNat) ∧
      (q.op = .mswap → q.aux ≠ 0 → exec (.arrayDispatch core arr host) s = (modArr left pk n fun a =>
        let old := a.activeBuf q.ins.part
        let new := a.spareBuf q.ins.part
        run (({ a with bufs := tput (tdel a.bufs old) new { tget WBuf.init a.bufs new with st := 3 },
                       active := tset 0 a.active q.ins.part (1 - tget 0 a.active q.ins.part) }).logCmd q) q).resumed core.toNat) ∧
      (q.op = .mmac ∨ q.op = .mlda → kindTrap b q = false → feedsTrap left b q (b.toFetch q) = none →
        let r := feedLands left pk host b q
        exec (.arrayDispatch core arr host) s = (modArr (enterSlots (count r.1 (arrBlk pk n) 4 r.2.2) pk n q) pk n fun a =>
          run ((a.takes q).logCmd q) { q with land := r.2.1 }).resumed core.toNat) ∧
      (q.op = .mst → kindTrap b q = false → mstTrap left b q = none →
        exec (.arrayDispatch core arr host) s = (modArr left pk n fun a =>
          run { a with port := cclk left + 64 } { q with rows := readRows b q, kind := tget 0 b.kind q.bank,
                                                         win := busOf left 0x400000000000 }).resumed core.toNat) ∧
      (q.op = .mrdv → exec (.arrayDispatch core arr host) s = (modArr left pk n fun a =>
          run { a with port := cclk left + 2 } { q with rows := readRows b q, kind := tget 0 b.kind q.bank }).resumed core.toNat) ∧
      (q.op = .mmask → exec (.arrayDispatch core arr host) s = (modArr left pk n fun a => run a q).resumed core.toNat) ∧
      (q.op = .mpcfg → exec (.arrayDispatch core arr host) s = (modArr (endGang left pk) pk n fun a =>
        run (a.reconfig (columnMap left pk n) (q.ins.im 1 0)) q).resumed core.toNat)) ∧
  (∀ (core : BitVec 12) (arr : BitVec 1) (k : Nat) (s : State) (q : QCmd),
      let pk := physCore s core.toNat
      let n := arr.toNat
      Live s core.toNat → completable ((coreOf s pk).arrN n) k = some q →
      (q.op = .mwld → exec (.arrayCommandCompletion core arr k) s = (tokDone (modArr (modArr s pk n fun a =>
        { a with bufs := tput a.bufs q.buf { tget WBuf.init a.bufs q.buf with st := 2 } }) pk n fun a => a.retire q.id)
          core.toNat q.ins).resumed core.toNat) ∧
      (q.op = .mmac ∨ q.op = .mlda → exec (.arrayCommandCompletion core arr k) s = (tokDone (modArr (modArr s pk n fun a =>
        a.landAll q.land) pk n fun a => a.retire q.id) core.toNat q.ins).resumed core.toNat) ∧
      (q.op = .mst → (scaleChain s pk q.ins.tensor).any (scaleBad s pk) = false →
        let t := (scaleChain s pk q.ins.tensor).foldl (fun s e => scaleFix s pk e) s
        let r := mstRows pk core.toNat (sloe t) q (partGeom ((coreOf t pk).arrN n).mode q.ins.part).2.2.2 q.rows t (Cap.init, 0)
        r.2.2 = true → exec (.arrayCommandCompletion core arr k) s = (tokDone (modArr (modCore r.1 pk fun c =>
          let c := if mstCaptures q.ins.fmtA q.ins.mode then stageCap c q.ins.tensor r.2.1.1 else c
          { c with stageUnfit := c.stageUnfit + r.2.1.2 }) pk n fun a => a.retire q.id) core.toNat q.ins).resumed core.toNat) ∧
      (∀ r rs, q.op = .mrdv → q.rows = r :: rs → r.poison = false → exec (.arrayCommandCompletion core arr k) s =
        (tokDone (modArr (modCore s pk fun c => { c with pend := sdel c.pend q.ins.c.toNat }.land (mrdvWrite s core.toNat q r)) pk n
          fun a => a.retire q.id) core.toNat q.ins).resumed core.toNat)) ∧
  (∀ (core : BitVec 12) (arr : BitVec 1) (host : HostFeed) (s : State),
      let pk := physCore s core.toNat
      let n := arr.toNat
      let t := count s (arrBlk pk n) 5 1
      Live s core.toNat →
      (∀ again rebuilding mst, exec (.partitionRebuild core arr ⟨.pulp, again, rebuilding, mst⟩ host) s = t.resumed core.toNat) ∧
      (∀ (part : BitVec 2) (column : Option (BitVec 7)), ((coreOf s pk).arrN n).siteIn part.toNat column = true →
        ((coreOf t pk).arrN n).logFull = false →
        exec (.partitionRebuild core arr ⟨.part part column, false, false, none⟩ host) s = (rebuildPart t pk n part.toNat host).resumed core.toNat))

/-- SIG_DELIVERY takes the oldest SIG to the target whose earlier stores are visible, counts it at the target's router and raises the token; BARRIER_RELEASE of a scope whose participants have all arrived releases the instance at every core, with scope 3 once the fabric barrier is complete too; ENGINE_COMMAND_COMPLETION ends a started command whose work is done: it leaves the queue and its token rises, a DMA or DMAR after its data have moved and its requests are answered, a ROWMODE after its channel has changed mode, a PFXWALK with the walk's result. Beside its rules it rests on choices and readings of the model itself: log entries 32, 33, 89. -/
def Obligations.SyncEvents : Prop :=
  (∀ (target : BitVec 12) (s : State) (r : Run) (g : Sig) (rest : List Sig),
      s.run = some r → takeFirst (fun g => g.tgt = target.toNat && sigReady s g) r.sigs = some (g, rest) →
      exec (.sigDelivery target) s = (tokInc (modRouter { s with run := some { r with sigs := rest } } target.toNat fun x =>
        { x with rcv := tput x.rcv g.tok (tget 0 x.rcv g.tok + 1) }) target.toNat g.tok).resumed target.toNat) ∧
  (∀ (scope : BitVec 2) (group : BitVec 8) (s : State) (lc : Nat),
      let g := if scope.toNat ≤ 1 then group.toNat else 0
      let k := released s scope.toNat g
      lateArrival s scope.toNat g = none → (∀ x ∈ groupCores scope.toNat g, hasArrived s scope.toNat k x = true) →
      lc ∈ groupCores scope.toNat g → (routerOf s lc).standing.contains (scope.toNat, k) = true →
      (scope.toNat ≠ 3 → exec (.barrierRelease scope group) s = .next (settle (releaseInstance s scope.toNat g k))) ∧
      (scope.toNat = 3 → fabricReleased (barArrive s (curStep s) (k + 1)) k = true →
        exec (.barrierRelease scope group) s = .next (settle (releaseInstance (barArrive s (curStep s) (k + 1)) 3 g k)))) ∧
  (∀ (core : BitVec 12) (k : Nat) (host : HostData) (s : State) (q : QCmd),
      let lc := core.toNat
      let ended (u : State) : Host.Outcome State Fault Refusal :=
        (tokDone (modCoreL u lc fun c => { c with eng := c.eng.filter fun x => x.id ≠ q.id }) lc q.ins).resumed lc
      Live s lc → ((coreL s lc).eng.filter fun x => x.st ≠ 0)[k]? = some q →
      (q.op = .rowop → towerHolds s (lc / 256) lc q.id = false → exec (.engineCommandCompletion core k host) s = ended s) ∧
      (q.op = .attcmd → attHolds s lc q.id = false → exec (.engineCommandCompletion core k host) s = ended s) ∧
      (q.op = .coll → collHolds s lc q.id = false → exec (.engineCommandCompletion core k host) s = ended s) ∧
      (q.op = .rwake → wakeHolds s lc q.id = false → exec (.engineCommandCompletion core k host) s = ended s) ∧
      (q.op = .dma ∨ q.op = .dmar → (moveStep s lc q host).2 = true → engHolds (moveStep s lc q host).1 lc q.id = true →
        exec (.engineCommandCompletion core k host) s = ended (moveStep s lc q host).1) ∧
      (∀ (c : ChanCmd) (rest : List ChanCmd), q.op = .rowmodeEnter ∨ q.op = .rowmodeExit →
        let ch := chanOf s (lc / 256) (q.va.toNat % 256)
        let u := modeFront (chanGo s ch) ch c
        (chanAt (chanGo s ch) ch).queue = c :: rest → c.core = lc → c.id = q.id → engHolds u lc q.id = true →
        exec (.engineCommandCompletion core k host) s = ended u) ∧
      (∀ (x : AttCmd) (v : State) (n : Nat), q.op = .pfxwalk →
        let u := walkSettle s (attIdx lc)
        ((attAt u (attIdx lc)).queue.take 4).find? (fun x => x.started && x.walk && x.core = lc && x.id = q.id) = some x →
        attWalk u (attIdx lc) x = (v, .ok n) → engHolds (attDone v (attIdx lc) x n) lc q.id = true →
        exec (.engineCommandCompletion core k host) s = ended (attDone v (attIdx lc) x n)))

/-- For SOFTMAX, RECOMP, ACCUM, MERGE, GATHER, APPEND, ATTACH, FORK, DROP and RINGFILL: when the oldest such command in progress at the cluster's engine meets no error, its operation's effects stand, the result field at the end of its descriptor holds the result, the command has left the queue and is counted, and the engine starts what it can. Beside its rules it rests on choices and readings of the model itself: log entries 43. -/
def Obligations.AttentionCommands : Prop :=
  (∀ (tower cluster : BitVec 4) (s v : State) (q : AttCmd) (n : Nat), s.attFront tower cluster 1 = some q →
      attSoftmax (s.attNow tower cluster) (tower.toNat * 16 + cluster.toNat) q = (v, .ok n) →
      exec (.softmax tower cluster) s = v.attended tower cluster q n) ∧
  (∀ (tower cluster : BitVec 4) (s v : State) (q : AttCmd) (n : Nat), s.attFront tower cluster 2 = some q →
      attRecomp (s.attNow tower cluster) (tower.toNat * 16 + cluster.toNat) q = (v, .ok n) →
      exec (.recomp tower cluster) s = v.attended tower cluster q n) ∧
  (∀ (tower cluster : BitVec 4) (s v : State) (q : AttCmd) (n : Nat), s.attFront tower cluster 3 = some q →
      attAccum (s.attNow tower cluster) (tower.toNat * 16 + cluster.toNat) q = (v, .ok n) →
      exec (.accum tower cluster) s = v.attended tower cluster q n) ∧
  (∀ (tower cluster : BitVec 4) (s v : State) (q : AttCmd) (n : Nat), s.attFront tower cluster 4 = some q →
      attMerge (s.attNow tower cluster) (tower.toNat * 16 + cluster.toNat) q = (v, .ok n) →
      exec (.merge tower cluster) s = v.attended tower cluster q n) ∧
  (∀ (tower cluster : BitVec 4) (s v : State) (q : AttCmd) (n : Nat), s.attFront tower cluster 5 = some q →
      attGather (s.attNow tower cluster) (tower.toNat * 16 + cluster.toNat) q = (v, .ok n) →
      exec (.gather tower cluster) s = v.attended tower cluster q n) ∧
  (∀ (tower cluster : BitVec 4) (s v : State) (q : AttCmd) (n : Nat), s.attFront tower cluster 6 = some q →
      attAppend (s.attNow tower cluster) (tower.toNat * 16 + cluster.toNat) q = (v, .ok n) →
      exec (.append tower cluster) s = v.attended tower cluster q n) ∧
  (∀ (tower cluster : BitVec 4) (s v : State) (q : AttCmd) (n : Nat), s.attFront tower cluster 7 = some q →
      attAttach (s.attNow tower cluster) (tower.toNat * 16 + cluster.toNat) q = (v, .ok n) →
      exec (.attach tower cluster) s = v.attended tower cluster q n) ∧
  (∀ (tower cluster : BitVec 4) (s v : State) (q : AttCmd) (n : Nat), s.attFront tower cluster 8 = some q →
      attFork (s.attNow tower cluster) (tower.toNat * 16 + cluster.toNat) q = (v, .ok n) →
      exec (.fork tower cluster) s = v.attended tower cluster q n) ∧
  (∀ (tower cluster : BitVec 4) (s v : State) (q : AttCmd) (n : Nat), s.attFront tower cluster 9 = some q →
      attDropSeq (s.attNow tower cluster) (tower.toNat * 16 + cluster.toNat) q = (v, .ok n) →
      exec (.drop tower cluster) s = v.attended tower cluster q n) ∧
  (∀ (tower cluster : BitVec 4) (s v : State) (q : AttCmd) (n : Nat), s.attFront tower cluster 10 = some q →
      attRingfill (s.attNow tower cluster) (tower.toNat * 16 + cluster.toNat) q = (v, .ok n) →
      exec (.ringfill tower cluster) s = v.attended tower cluster q n)

/-- With no failed check and no poison in what is read: SOFTMAX with the init flag writes each row's probabilities to a3 and its maximum, sum and alpha to a2; ACCUM writes PV under init and otherwise the rescaled O plus PV; FORK gives an empty sequence the first n entries of another and stages a reference for each; DROP empties a sequence and stages the release of each entry; RINGFILL stages its pages for the ring. The answer of a table command is the epoch of its snapshot. Beside its rules it rests on choices and readings of the model itself: log entries 43, 44, 94. -/
def Obligations.AttentionResults : Prop :=
  (∀ (tower cluster : BitVec 4) (s : State) (q : AttCmd),
      let u := s.attNow tower cluster
      let e := tower.toNat * 16 + cluster.toNat
      let mask := attMasked (bit q.flags 1) q.s q.x q.y
      let sc := memRead u q.a0 (4 * q.n * q.w)
      let rows := (List.range q.n).map fun r => softmaxRow q.fmt q.z (mask r) f32NegInf 0 (rowOf (f32List (pdata sc.2)) q.w r)
      s.attFront tower cluster 1 = some q → bit q.flags 0 = true →
      pickErr (softFields q ++ arrOk u e q.a0 (4 * q.n * q.w) 4 ++ arrOk u e q.a2 (16 * q.n) 4 ++
        arrOk u e q.a3 (q.n * q.w * fmtBytes q.fmt) (if q.fmt = 0 then 4 else 1)) = none →
      usedPoison q.a0 sc.2 (fun i => !mask (i / 4 / q.w) (i / 4 % q.w)) = none →
      exec (.softmax tower cluster) s =
        (memWrite (memWrite sc.1 q.a3 (clean ((rows.map fun r => (r.1.map (leBytes (fmtBytes q.fmt))).flatten).flatten))) q.a2
          (clean ((rows.map fun r => f32Bytes [r.2.1, r.2.2.1, r.2.2.2, 0]).flatten))).attended tower cluster q 0) ∧
  (∀ (tower cluster : BitVec 4) (s v : State) (q : AttCmd) (bs : List (List Byte)),
      let u := s.attNow tower cluster
      let e := tower.toNat * 16 + cluster.toNat
      let m := 4 * q.n * q.w
      let init := bit q.flags 0
      let all : Nat → Bool := fun _ => true
      s.attFront tower cluster 3 = some q →
      pickErr ([fieldOk q (q.onlyFields [(0, 2), (4, 36)] && q.flags ≤ 1), fieldOk q (1 ≤ q.n && q.n ≤ 64),
        fieldOk q (64 ≤ q.w && q.w ≤ 256 && q.w % 64 = 0)] ++ arrOk u e q.a0 m 4 ++ arrOk u e q.a2 m 4 ++
        (if init then [] else arrOk u e q.a1 m 4 ++ arrOk u e q.a3 (16 * q.n) 4)) = none →
      eReads (if init then [(q.a0, m, all)] else [(q.a0, m, all), (q.a1, m, all), (q.a3, 16 * q.n, usesAlpha)]) u = (v, .ok bs) →
      let pv := f32List (bs.getD 0 [])
      let out := if init then pv else (indexed (pv.zip (f32List (bs.getD 1 [])))).map fun x =>
        fp32.add (fp32.mul (leAt (bs.getD 2 []) (16 * (x.1 / q.w) + 8) 4) x.2.2) x.2.1
      exec (.accum tower cluster) s = (memWrite v q.a2 (clean (f32Bytes out))).attended tower cluster q 0) ∧
  (∀ (tower cluster : BitVec 4) (s v w t : State) (q : AttCmd) (p : Pool) (sn sx : Snap),
      let u := s.attNow tower cluster
      let e := tower.toNat * 16 + cluster.toNat
      s.attFront tower cluster 8 = some q →
      ((runPlan u).map planPools).bind (fun l => l.find? fun p => p.idx = q.pool) = some p →
      pickErr ((p.tower = e / 16, 0x10, q.at_) :: [fieldOk q (q.onlyFields [(0, 1), (3, 3), (40, 4), (52, 4)]),
        fieldOk q (q.s < p.seqs && q.x < p.seqs), fieldOk q (!edited u e q p q.s)]) = none →
      snapshot u p q.s = (v, .ok sn) → snapshot v p q.x = (w, .ok sx) → sn.ents = [] → q.n ≤ sx.ents.length →
      let es := sx.ents.take q.n
      editSeq w e q p q.s sn (es.foldl (fun n x => n + x.2) 0) es (es.map fun x => .inc x.1) = (t, none) →
      exec (.fork tower cluster) s = t.attended tower cluster q sx.epoch) ∧
  (∀ (tower cluster : BitVec 4) (s v t : State) (q : AttCmd) (p : Pool) (sn : Snap),
      let u := s.attNow tower cluster
      let e := tower.toNat * 16 + cluster.toNat
      s.attFront tower cluster 9 = some q →
      ((runPlan u).map planPools).bind (fun l => l.find? fun p => p.idx = q.pool) = some p →
      pickErr ((p.tower = e / 16, 0x10, q.at_) :: [fieldOk q (q.onlyFields [(0, 1), (3, 1), (52, 4)]),
        fieldOk q (q.s < p.seqs), fieldOk q (!edited u e q p q.s)]) = none →
      snapshot u p q.s = (v, .ok sn) →
      editSeq v e q p q.s sn 0 [] (sn.ents.map fun x => .dec x.1) = (t, none) →
      exec (.drop tower cluster) s = t.attended tower cluster q sn.epoch) ∧
  (∀ (tower cluster : BitVec 4) (s v w t x : State) (q : AttCmd) (p : Pool) (ps : List Nat) (gs : List Page) (cb : List Byte),
      let u := s.attNow tower cluster
      let e := tower.toNat * 16 + cluster.toNat
      s.attFront tower cluster 10 = some q →
      ((runPlan u).map planPools).bind (fun l => l.find? fun p => p.idx = q.pool) = some p →
      pickErr ((p.tower = e / 16, 0x10, q.at_) :: ([fieldOk q (q.onlyFields [(0, 1), (3, 3), (8, 8)]),
        fieldOk q (1 ≤ q.n && q.n ≤ 64)] ++ arrOk u e q.a0 (4 * q.n) 4)) = none →
      pageList u q = (v, .ok ps) → distinct ps = true → (∀ i ∈ ps, i < p.pages) →
      readPages p ps v = (w, .ok gs) → eRead w p.ctrl 8 = (t, .ok cb) → gs.all Page.spare = true →
      unsigned 32 ((leAt cb 4 4 : Int) - leAt cb 0 4) + q.n ≤ 2 ^ p.ringLog →
      stageAll t e q (ps.map fun i => ⟨q.core, p.idx, .push i⟩) = (x, none) →
      exec (.ringfill tower cluster) s = x.attended tower cluster q 0)

/-- For ROWAN_AND, ROWAN_OR, ROWAN_XOR, ROWAN_NOT, ROWAN_MAJ, ROWAN_CLONE, FILL0 and FILL1: on a channel in ROWAN or EXITING whose queue has the operation in front, the source rows are opened in order, the destination row holds the bitwise result (stale after AND, OR and MAJ, with a valid check row after the others), the operation is counted and the next entry of the ROWOP follows. Beside its rules it rests on choices and readings of the model itself: log entries 25. -/
def Obligations.RowanOperations : Prop :=
  (∀ (tower : BitVec 4) (chan : BitVec 9) (s : State) (c : ChanCmd) (rest : List ChanCmd) (e : RowEnt) (es : List RowEnt),
      let ch := tower.toNat * 272 + chan.toNat
      let u := chanGo s ch
      chan.toNat < 272 → 2 ≤ chanMode u ch → (chanAt u ch).queue = c :: rest → c.kind = 0 → c.ents = e :: es → e.op = 1 →
      let done := let a := openRow u ch e.a
        let b := openRow a.1 ch e.b
        putStale b.1 ch e.dst (List.zipWith (fun x y => (x.1 &&& y.1, x.2 || y.2)) a.2 b.2)
      exec (.rowanAnd tower chan) s = .next (settle (rowNext (count done (chBase ch) 6 1) ch))) ∧
  (∀ (tower : BitVec 4) (chan : BitVec 9) (s : State) (c : ChanCmd) (rest : List ChanCmd) (e : RowEnt) (es : List RowEnt),
      let ch := tower.toNat * 272 + chan.toNat
      let u := chanGo s ch
      chan.toNat < 272 → 2 ≤ chanMode u ch → (chanAt u ch).queue = c :: rest → c.kind = 0 → c.ents = e :: es → e.op = 2 →
      let done := let a := openRow u ch e.a
        let b := openRow a.1 ch e.b
        putStale b.1 ch e.dst (List.zipWith (fun x y => (x.1 ||| y.1, x.2 || y.2)) a.2 b.2)
      exec (.rowanOr tower chan) s = .next (settle (rowNext (count done (chBase ch) 6 1) ch))) ∧
  (∀ (tower : BitVec 4) (chan : BitVec 9) (s : State) (c : ChanCmd) (rest : List ChanCmd) (e : RowEnt) (es : List RowEnt),
      let ch := tower.toNat * 272 + chan.toNat
      let u := chanGo s ch
      chan.toNat < 272 → 2 ≤ chanMode u ch → (chanAt u ch).queue = c :: rest → c.kind = 0 → c.ents = e :: es → e.op = 3 →
      let done := let a := openRow u ch e.a
        let b := openRow a.1 ch e.b
        putValid b.1 ch e.dst (List.zipWith (fun x y => (x.1 ^^^ y.1, x.2 || y.2)) a.2 b.2)
      exec (.rowanXor tower chan) s = .next (settle (rowNext (count done (chBase ch) 6 1) ch))) ∧
  (∀ (tower : BitVec 4) (chan : BitVec 9) (s : State) (c : ChanCmd) (rest : List ChanCmd) (e : RowEnt) (es : List RowEnt),
      let ch := tower.toNat * 272 + chan.toNat
      let u := chanGo s ch
      chan.toNat < 272 → 2 ≤ chanMode u ch → (chanAt u ch).queue = c :: rest → c.kind = 0 → c.ents = e :: es → e.op = 4 →
      let done := let a := openRow u ch e.a
        putValid a.1 ch e.dst (a.2.map fun p => (~~~p.1, p.2))
      exec (.rowanNot tower chan) s = .next (settle (rowNext (count done (chBase ch) 6 1) ch))) ∧
  (∀ (tower : BitVec 4) (chan : BitVec 9) (s : State) (c : ChanCmd) (rest : List ChanCmd) (e : RowEnt) (es : List RowEnt),
      let ch := tower.toNat * 272 + chan.toNat
      let u := chanGo s ch
      chan.toNat < 272 → 2 ≤ chanMode u ch → (chanAt u ch).queue = c :: rest → c.kind = 0 → c.ents = e :: es → e.op = 5 →
      let done := let a := openRow u ch e.a
        let b := openRow a.1 ch e.b
        let c := openRow b.1 ch e.c
        putStale c.1 ch e.dst (List.zipWith (fun xy z => ((xy.1.1 &&& xy.2.1) ||| (xy.1.1 &&& z.1) ||| (xy.2.1 &&& z.1),
          xy.1.2 || xy.2.2 || z.2)) (a.2.zip b.2) c.2)
      exec (.rowanMaj tower chan) s = .next (settle (rowNext (count done (chBase ch) 6 1) ch))) ∧
  (∀ (tower : BitVec 4) (chan : BitVec 9) (s : State) (c : ChanCmd) (rest : List ChanCmd) (e : RowEnt) (es : List RowEnt),
      let ch := tower.toNat * 272 + chan.toNat
      let u := chanGo s ch
      chan.toNat < 272 → 2 ≤ chanMode u ch → (chanAt u ch).queue = c :: rest → c.kind = 0 → c.ents = e :: es → e.op = 6 →
      let done := let a := openRow u ch e.a
        putValid a.1 ch e.dst a.2
      exec (.rowanClone tower chan) s = .next (settle (rowNext (count done (chBase ch) 6 1) ch))) ∧
  (∀ (tower : BitVec 4) (chan : BitVec 9) (s : State) (c : ChanCmd) (rest : List ChanCmd) (e : RowEnt) (es : List RowEnt),
      let ch := tower.toNat * 272 + chan.toNat
      let u := chanGo s ch
      chan.toNat < 272 → 2 ≤ chanMode u ch → (chanAt u ch).queue = c :: rest → c.kind = 0 → c.ents = e :: es → e.op = 7 →
      let done := putValid u ch e.dst (List.replicate 2048 (0x00, false))
      exec (.fill0 tower chan) s = .next (settle (rowNext (count done (chBase ch) 6 1) ch))) ∧
  (∀ (tower : BitVec 4) (chan : BitVec 9) (s : State) (c : ChanCmd) (rest : List ChanCmd) (e : RowEnt) (es : List RowEnt),
      let ch := tower.toNat * 272 + chan.toNat
      let u := chanGo s ch
      chan.toNat < 272 → 2 ≤ chanMode u ch → (chanAt u ch).queue = c :: rest → c.kind = 0 → c.ents = e :: es → e.op = 8 →
      let done := putValid u ch e.dst (List.replicate 2048 (0xFF, false))
      exec (.fill1 tower chan) s = .next (settle (rowNext (count done (chBase ch) 6 1) ch)))

/-- REGENERATION regenerates the stale row that waits, or else the lowest stale row of the bank; ROWAN_ORDINARY_ACCESS of a column out of memory mode reads its line, or writes the bytes given; LINE_CLONE in memory mode copies the lines; MAINTENANCE_WINDOW outside self-refresh runs the refresh, scrub, bond and regeneration slots in order, counts the window and loses at once a column that then asks for a migration in a cluster without a free spare column; NORMAL_REFRESH, due 10 ms after the channel cooled, clears the quadruple rate with notice 0x0502; COLUMN_MIGRATION with no plan running migrates a column that asked for it. Beside its rules it rests on choices and readings of the model itself: log entries 45. -/
def Obligations.ChannelRows : Prop :=
  (∀ (tower : BitVec 4) (chan : BitVec 9) (die : BitVec 3) (bank : BitVec 4) (s : State) (w : BitVec 18) (ra : Nat),
      let ch := tower.toNat * 272 + chan.toNat
      let l := staleIn s ch die.toNat bank.toNat
      chan.toNat < 272 →
      (w.toNat ∈ l → exec (.regeneration tower chan die bank (some w)) s = .next (settle (regenRow s ch w.toNat))) ∧
      (l.head? = some ra → exec (.regeneration tower chan die bank none) s = .next (settle (regenRow s ch ra)))) ∧
  (∀ (addr : BitVec 48) (data : HostData) (s : State) (k : Nat),
      place s addr.toNat = .fast k → bypassed s (k / 128) = true →
      let line := addr.toNat / 128 * 128
      exec (.rowanOrdinaryAccess false addr data) s = .next (settle (lineRead s line 0 128).1) ∧
      (addr.toNat % 128 + (hostBytes data).length ≤ 128 →
        exec (.rowanOrdinaryAccess true addr data) s = .next (settle (lineWrite s line (addr.toNat % 128) (hostBytes data))))) ∧
  (∀ (tower : BitVec 4) (chan : BitVec 9) (src dst : BitVec 18) (first : BitVec 4) (n : BitVec 5) (s : State) (col : Nat),
      let ch := tower.toNat * 272 + chan.toNat
      chan.toNat < 272 → src.toNat < 147456 → dst.toNat < 147456 → src.toNat % 128 = dst.toNat % 128 →
      src.toNat / 16384 = dst.toNat / 16384 → 1 ≤ n.toNat → first.toNat + n.toNat ≤ 16 →
      chanMode s ch = 0 → logicalCol s ch = some col →
      exec (.lineClone tower chan src dst first n) s = .next (settle (cloneLines s ch src.toNat dst.toNat first.toNat n.toNat))) ∧
  (∀ (tower : BitVec 4) (chan : BitVec 9) (bondFails fits : Bool) (s : State),
      let ch := tower.toNat * 272 + chan.toNat
      chan.toNat < 272 → fbit s (chBase ch) 11 = false →
      exec (.maintenanceWindow tower chan bondFails fits) s = .next (settle (lossDue (modChan (regenSlot
        (bondSlot (scrubSlot (refreshSlot s ch) ch fits) ch bondFails) ch) ch fun x => { x with window := x.window + 1 }) ch))) ∧
  (∀ (tower : BitVec 4) (chan : BitVec 9) (s : State) (t : Nat),
      let ch := tower.toNat * 272 + chan.toNat
      chan.toNat < 272 → fbit s (chBase ch) 5 = true → (chanAt s ch).coolSince = some t → t + 10000000 ≤ s.now →
      exec (.normalRefresh tower chan) s = .next (settle (notice (fset s (chBase ch) 5 5 0) 0x0502 1 chan.toNat tower.toNat
        (fget s (chBase ch) 47 40)))) ∧
  (∀ (tower : BitVec 4) (chan : BitVec 9) (s : State),
      let ch := tower.toNat * 272 + chan.toNat
      chan.toNat < 272 → (chanAt s ch).wantMigrate = true → s.run = none →
      exec (.columnMigration tower chan) s = .next (settle (migrate s ch)))

/-- SLICE_FILL of a line whose channel is in memory mode brings the line into its home slice and frees its miss entry; REDUCE_ADD adds the oldest contribution its slice holds and takes it from the queue; FORCED_EVICTION allocates a line in a set whose sixteen ways are all pinned or pending; CMEM_READ reads the line: from its open merge slot, counted as merged, or from the bank, opening a slot while fewer than four stand there; SLOW_TIER_ACCESS counts the corrected link symbols and reads a line or writes the bytes given; SLOW_TIER_SCRUB reads and repairs the next line of its channel, counts it and the corrections of the link and moves on. Beside its rules it rests on choices and readings of the model itself: log entries 21, 24, 42. -/
def Obligations.MemoryRows : Prop :=
  (∀ (addr : BitVec 48) (s : State) (k : Nat), place s addr.toNat = .fast k → bypassed s (k / 128) = false →
      exec (.sliceFill addr) s = .next (settle (closeMiss (fillLine (ensureLine s (k / 128)) (k / 128)) (k / 128)))) ∧
  (∀ (tower : BitVec 4) (slice : BitVec 9) (s : State) (c : Contrib) (rest : List Contrib),
      let sl := tower.toNat * 272 + slice.toNat
      slice.toNat < 272 → takeFirst (fun (c : Contrib) => lineSlice s c.key = sl) s.llc.redQ = some (c, rest) →
      exec (.reduceAdd tower slice) s = .next (settle (addContrib { s with llc := { s.llc with redQ := rest } } c))) ∧
  (∀ (addr : BitVec 48) (s : State) (k : Nat),
      let lk := k / 128
      place s addr.toNat = .fast k → bypassed s lk = false → lineHeld s lk = false →
      16 ≤ (setLines s lk).length → (∀ x ∈ setLines s lk, (lineAt s x).pinned = true ∨ linePending s x = true) →
      exec (.forcedEviction addr) s = .next (settle (ensureLine s lk))) ∧
  (∀ (addr : BitVec 48) (s : State) (a : Nat),
      let la := a / 128 * 128
      let slots := slotsOpen s.llc.merge (cclk s)
      let read (m : Tbl Nat) (n : Nat) :=
        checkedReads .cl (cmemBlk la) 0 128 (count { s with llc := { s.llc with merge := m } } (cmemBlk la) n 1) la (cmemOff la)
      place s addr.toNat = .cmem a →
      ((tget? slots (la / 128)).isSome = true → exec (.cmemRead addr) s = .next (settle (read slots 1).1)) ∧
      (tget? slots (la / 128) = none → (slots.filter fun e => cmemBank (e.1 * 128) = cmemBank la).length < 4 →
        exec (.cmemRead addr) s = .next (settle (read (tput slots (la / 128) (cclk s)) 0).1)) ∧
      (tget? slots (la / 128) = none → 4 ≤ (slots.filter fun e => cmemBank (e.1 * 128) = cmemBank la).length →
        exec (.cmemRead addr) s = .next (settle (read slots 0).1))) ∧
  (∀ (addr : BitVec 48) (len : BitVec 8) (data : HostData) (corr : Nat) (s : State) (off : Nat),
      let u := count s (slowBlk (slowBase + off / 128 * 128)) 3 corr
      place s addr.toNat = .slow off → 1 ≤ len.toNat → addr.toNat % 128 + len.toNat ≤ 128 →
      exec (.slowTierAccess false addr len data corr) s = .next (settle (slowLine u (slowBase + off / 128 * 128) 0).1) ∧
      ((hostBytes data).length = len.toNat → exec (.slowTierAccess true addr len data corr) s =
        .next (settle (slowWrite u (slowBase + off) (spread (slowBase + off) (hostBytes data)))))) ∧
  (∀ (chan : BitVec 5) (corr : Nat) (s : State),
      let line := tget 0 s.qnc.scrub chan.toNat
      let u := count (count (slowLine s (slowAddr chan.toNat line) 1).1 (qchBase chan.toNat) 4 1) (qchBase chan.toNat) 3 corr
      let next := tset 0 u.qnc.scrub chan.toNat ((line + 1) % 2 ^ 29)
      exec (.slowTierScrub chan corr) s = .next (settle { u with qnc := { u.qnc with scrub := next } }))

/-- RULE_LOAD to a slot from 16 up with no plan running takes the image at its address into rule memory when header, digest and room are right, shows status 1 with the slot loaded, and says so in notice 0x2005; JOB_START begins a job once every job its commit started before it has begun; INVOCATION of an invocation that is to run next on its hart, with an unpoisoned descriptor and no rule fault, counts it and ends its record of failures: a prologue that returns 0 puts its area into the descriptor, a chunk of a body that returns 0 releases its staged writes whole, adds its captures and ends the group after its last chunk; the Adam rule of slot 0 is computed, a rule of slots 16 to 63 is the run of its text, and one of slots 1 to 15 brings its result with the command (log entry 53). Beside its rules it rests on choices and readings of the model itself: log entries 53, 54, 55, 98. -/
def Obligations.QuinceRows : Prop :=
  (∀ (slot : BitVec 6) (s : State) (p : Nat),
      let k := slot.toNat
      let a := fget s (ruleReg k) 47 7 * 128
      let h := memRead s a 128
      let n := leAt (pdata h.2) 8 4
      let t := memRead h.1 (a + 128) n
      let rest := tdel s.qnc.rules k
      16 ≤ k → s.run = none → rangeOk s Place.isSlow a 128 = true → anyPoison h.2 = false → ruleHeaderOk (pdata h.2) = true →
      rangeOk s Place.isSlow (a + 128) n = true → anyPoison t.2 = false → shake256 64 (pdata t.2) = bytesAt (pdata h.2) 64 64 →
      rulePlace (rest.map (·.2)) (ceilDiv n 4096 * 4096) = some p →
      let u := { t.1 with qnc := { t.1.qnc with rules := tput rest k (ruleOf (pdata h.2) (pdata t.2) p) } }
      exec (.ruleLoad slot) s = .next (settle (notice (fset (fset u (ruleReg k) 62 60 1) (ruleReg k) 63 63 1) 0x2005 0 0xFFFF 0xFF
        (k + 1 * 2 ^ 8)))) ∧
  (∀ (job : Nat) (s : State) (j : Job), s.qnc.jobs.find? (fun j => j.idx = job) = some j →
      (∀ k ∈ s.qnc.jobs, k.startNo = j.startNo → k.idx < j.idx → k.begun = true) →
      exec (.jobStart job) s = .next (settle { s with qnc := { s.qnc with jobs := s.qnc.jobs.map fun k =>
        if k.idx = job then { k with begun := true } else k } })) ∧
  (∀ (job group chunk : Nat) (hart : BitVec 4) (steps : Nat) (run x : RuleRun) (s v : State) (j : Job) (g : GroupRun),
      let d := memRead s (j.d.groups + 128 * group) 128
      let i : InvId := ⟨job, group, if (ruleOfSlot s j.d.rule).prologue && !g.prologueDone then none else some chunk⟩
      let rule := ruleOfSlot d.1 j.d.rule
      let c := i.chunk.elim (0, 0) fun k => chunkSpan rule (leAt (pdata d.2) 0 8) k
      let u := setTries (count (count v qncBase 5 x.retries) qncBase 1 1) i none
      s.qnc.jobs.find? (fun j => j.idx = job) = some j → j.groups[group]? = some g → invocable s j g i hart.toNat = true →
      anyPoison d.2 = false →
      (j.d.rule = 0 ∧ i.chunk = none ∧ v = d.1 ∧ x = ⟨0, [], adamPrologue (pdata d.2), 0, 0, 0, 0, false, 0, none⟩ ∨
        (∃ k, j.d.rule = 0 ∧ i.chunk = some k ∧
          adamBody d.1 (pdata d.2) g.exp (4096 * k) (Nat.min 4096 (leAt (pdata d.2) 0 8 - 4096 * k)) = (v, .ret x)) ∨
        1 ≤ j.d.rule ∧ j.d.rule < 16 ∧ v = d.1 ∧ x = settledRun run ∨
        16 ≤ j.d.rule ∧ runRule d.1 hart.toNat rule i.chunk.isNone c.1 c.2 j.startNo steps (pdata d.2) = (v, .ret x)) →
      runFault v i.chunk.isNone x = none →
      (i.chunk = none → x.ret = 0 → x.area ≠ [] →
        exec (.invocation job group chunk hart steps .none run) s = .next (settle (memWrite
          (modGroup u j.idx group fun g => { g.capture x with prologueDone := true })
          (j.d.groups + 128 * group + 64) (clean (bytesAt x.area 0 64))))) ∧
      (∀ k, i.chunk = some k → x.ret = 0 →
        let w := modGroup (x.writes.foldl (fun s w => memWrite s w.1.toNat (clean w.2)) u) j.idx group fun g =>
          { (g.capture x).doneChunk k with skipped := g.skipped }
        let n := chunkCount (ruleOfSlot u j.d.rule) (leAt (jobDesc u j.d group) 0 8)
        let next := ((w.qnc.jobs.find? fun k => k.idx = j.idx).bind fun k => (k.groups[group]?).map (·.next)).getD 0
        exec (.invocation job group chunk hart steps .none run) s =
          .next (settle (if n ≤ next then endGroup w j.idx group else w))))

/-- READ, after the READs that wait have been taken up in order, of readable lines answers them with status 0, and waits at the slice while a byte of them is withheld; WRITE and PUT to writable lines write them, poison included, and acknowledge; REDUCE of INT32 or INT64, or of one LACC-96 group, to a place that accepts it contributes the lines and acknowledges; READ_RESP with status 0 takes the open request it names and goes on to the command's destination; ACK with status 0 takes the open request; TAG of the running step or an earlier one counts at once, a later one is held. Beside its rules it rests on choices and readings of the model itself: log entries 60. -/
def Obligations.FabricRequests : Prop :=
  (∀ (m : Msg) (s : State), let u := serveWaiting s
      let n := hdrLen m.hdr
      let r := memRead u m.hdr.addr.toNat n
      Arrives s m → rangeOk u Place.remoteOk m.hdr.addr.toNat n = true →
      (withheldFrom u 4096 m.hdr.addr.toNat n = false →
        exec (.read m) s = .next (settle (answer r.1 m.hdr mtReadResp 0 r.2))) ∧
      (withheldFrom u 4096 m.hdr.addr.toNat n = true →
        exec (.read m) s = .next (settle { u with fab := { u.fab with waitReads := u.fab.waitReads ++ [(m.link.toNat, m.hdr)] } }))) ∧
  (∀ (m : Msg) (s : State), let d := msgBytes m.hdr (bytesAt m.data 0 (hdrLen m.hdr))
      Arrives s m → rangeOk s Place.remoteOk m.hdr.addr.toNat (hdrLen m.hdr) = true →
      exec (.write m) s = .next (settle (answer (memWrite s m.hdr.addr.toNat d) m.hdr mtAck 0 [])) ∧
      exec (.put m) s = .next (settle (answer (memWrite s m.hdr.addr.toNat d) m.hdr mtAck 0 []))) ∧
  (∀ (m : Msg) (s : State), let d := msgBytes m.hdr (bytesAt m.data 0 (hdrLen m.hdr))
      let fmt := m.hdr.fmt.toNat
      Arrives s m → fmt = 8 ∨ fmt = 9 ∨ fmt = 0xA ∧ hdrLen m.hdr = 384 →
      reduceTargetOk s m.hdr.addr.toNat (hdrLen m.hdr) (fmt = 0xA) = true →
      exec (.reduce m) s = .next (settle (answer (contribute s fmt m.hdr.addr.toNat d) m.hdr mtAck 0 []))) ∧
  (∀ (m : Msg) (s u : State) (q : Req) (c : QCmd), Arrives s m → openReq s m true = some (q, u) → m.hdr.status ≠ 1 →
      (coreL u q.core).eng.find? (fun x => x.id = q.cmd) = some c →
      let v : Mover := ⟨q.core, c, ⟨[], []⟩⟩
      exec (.readResp m) s = .next (settle (v.deliver u (q.dest - v.dst) (msgBytes m.hdr (bytesAt m.data 0 (q.lines * 128)))).1)) ∧
  (∀ (m : Msg) (s u : State) (q : Req), Arrives s m → openReq s m false = some (q, u) → m.hdr.status ≠ 1 →
      exec (.ack m) s = .next (settle u)) ∧
  (∀ (m : Msg) (s : State) (r : Run), let t := m.hdr.dstTower.toNat
      let tag := m.hdr.addr.toNat % 64
      Arrives s m → s.run = some r →
      (serialCmp (BitVec.ofNat 32 (curStep s)) (BitVec.ofNat 32 m.hdr.step.toNat) ≠ -1 → exec (.tag m) s = .next (settle (modColl s t
        fun e => { e with tags := tput e.tags tag ((tget 0 e.tags tag + 1) % 2 ^ 32) }))) ∧
      (serialCmp (BitVec.ofNat 32 (curStep s)) (BitVec.ofNat 32 m.hdr.step.toNat) = -1 → exec (.tag m) s = .next (settle (modColl s t
        fun e => { e with heldTags := e.heldTags ++ [(tag, m.hdr.step.toNat)] }))))

/-- A BARRIER, CAP, FAILOVER, READ, WRITE, REDUCE, READ_RESP, ACK, PUT or TAG message whose destination is another module, on a delivering link of a fabric in service, goes out on the link in force of the ingress tower's route with its hop class raised by one, up to class 4, and above that is dropped, counted and reported in notice 0x0405; a TUNNEL message does the same on its own virtual channel. Beside its rules it rests on choices and readings of the model itself: log entries 57, 58, 61. -/
def Obligations.FabricTransit : Prop :=
  ∀ (m : Msg) (vc : BitVec 2) (s : State) (l : Nat), fabEnabled s = true → linkLive s m.link.toNat = true →
    m.hdr.dest.toNat ≠ deviceId s → routeLink s (m.link.toNat / 4) m.hdr.dest.toNat = some l →
    let sent (vc ty : Nat) : State := sendVc s l vc ty (m.hop.toNat + 1) m.hdr m.data
    let dropped : State := notice (count s (linkBase l) 8 1) 0x0405 1 l (l / 4) m.hdr.dest.toNat
    (m.hop.toNat < 4 →
      exec (.barrier m) s = .next (settle (sent 0 0x03)) ∧ exec (.cap m) s = .next (settle (sent 0 0x04)) ∧
      exec (.failover m) s = .next (settle (sent 0 0x05)) ∧ exec (.read m) s = .next (settle (sent 1 0x10)) ∧
      exec (.write m) s = .next (settle (sent 1 0x11)) ∧ exec (.reduce m) s = .next (settle (sent 1 0x12)) ∧
      exec (.readResp m) s = .next (settle (sent 2 0x20)) ∧ exec (.ack m) s = .next (settle (sent 2 0x21)) ∧
      exec (.put m) s = .next (settle (sent 3 0x30)) ∧ exec (.tag m) s = .next (settle (sent 3 0x31)) ∧
      exec (.tunnel vc m) s = .next (settle (sent vc.toNat 0x40))) ∧
    (4 ≤ m.hop.toNat → ∀ c ∈ [Instr.barrier m, .cap m, .failover m, .read m, .write m, .reduce m, .readResp m, .ack m, .put m, .tag m,
      .tunnel vc m], exec c s = .next (settle dropped))

/-- IDENT on a link in IDENT that echoes this end's IDENT records the peer, shows half the round trip as the delay, answers, brings the port UP and has its wiring checked while the fabric is in service; TIME_EXCHANGE asks the time parent; a TIME request is answered with its timestamps, and a reply of the time parent gives the offset; TIME_UNLOCK after 10 ms without a reply holds the rate and clears time_locked with notice 0x1016; BARRIER phase 0 takes the maxima and records the member, at a module whose bunch takes part, and does nothing at another; CAP phase 0 counts, passes the notice on to the runners and is followed; a copy within 10 µs over a parallel runner is ignored; FAILOVER opens the tunnel of the link it names; TUNNEL takes the body that is next in sequence, keeps one ahead of its turn and drops one that has been received; at a via device both go on to the module that the header names (log entry 57). Beside its rules it rests on choices and readings of the model itself: log entries 57, 58, 59, 62. -/
def Obligations.FabricControl : Prop :=
  (∀ (link : BitVec 6) (m : IdentMsg) (received : W64) (s : State),
      let l := link.toNat
      let o := linkBase l
      let a := regPut s (o + 0x18) m.serial
      let b := regPut a (o + 0x10) (setField (setField (setField (regGet a (o + 0x10)) 63 48 m.device.toNat) 45 40 m.link.toNat) 39 32
        m.stepping.toNat)
      let c := modPort b l fun p => { p with peerSent := m.sent.toNat, peerAt := received.toNat, heard := true }
      let d := fset c o 39 32 (Nat.min 255 (ceilDiv (received - m.echo - m.held).toNat 2))
      let e := portUp (sendIdent d l) l (regGet s (o + 0x18) = m.serial)
      portState s l = 3 → m.echo ≠ 0 → exec (.ident link m received) s =
        .next (settle (fabShow (if fabEnabled e ∧ fbit e (linkBase l) 5 then checkWiring e l else e)))) ∧
  (∀ (s : State) (l : Nat), parentLink s = some l → exec .timeExchange s = .next (settle (sendOn s l mtTime 0
      (hdrTo (fget s (linkBase l + 0x10) 63 48) (deviceId s)) (timeData [s.now])))) ∧
  (∀ (link : BitVec 6) (t1 t2 t3 t4 : W64) (s : State), let l := link.toNat
      fabEnabled s = true → linkLive s l = true →
      exec (.time link false t1 t2 t3 t4) s = .next (settle (sendOn s l mtTime 0 (hdrTo (fget s (linkBase l + 0x10) 63 48) (deviceId s))
        (timeData [t1.toNat, t2.toNat, s.now]))) ∧
      (parentLink s = some l → exec (.time link true t1 t2 t3 t4) s =
        .next (settle (takeOffset s (((t2 - t1).toInt + (t3 - t4).toInt) / 2))))) ∧
  (∀ (s : State) (l : Nat), parentLink s = some l → s.fab.lastTime + 10000000 ≤ s.now → fbit s (stnBase + 0x2010) 1 = true →
      let u := { s with fab := { s.fab with holdRate := true } }
      exec .timeUnlock s = .next (settle (notice (fset u (stnBase + 0x2010) 1 1 0) 0x1016 0 0xFFFF 0xFF (unsigned 64 s.fab.offset)))) ∧
  (∀ (m : Msg) (s : State), let inst := m.hdr.addr.toNat % 65536
      let step := m.hdr.step.toNat
      Arrives s m → m.hdr.addr.toNat / 2 ^ 32 = 0 →
      (takesPart s = true → exec (.barrier m) s =
        .next (settle (barMember (barTake s (barKey step inst) m.data) step inst (m.hdr.src.toNat % 16)))) ∧
      (takesPart s = false → exec (.barrier m) s = .next (settle s))) ∧
  (∀ (m : Msg) (s : State), Arrives s m → capRepeat s m = true → exec (.cap m) s = .next (settle s)) ∧
  (∀ (m : Msg) (s : State), Arrives s m → capRepeat s m = false → m.hdr.addr.toNat / 2 ^ 32 = 0 →
      let v := count s pwmBase 3 1
      let d := bytesAt m.data 0 128
      let u := { v with fab := { v.fab with capSeen := tput v.fab.capSeen (leAt d 0 2) (v.now, bytesAt d 0 16) } }
      let h := { m.hdr with src := BitVec.ofNat 16 (deviceId u), addr := BitVec.ofNat 48 (2 ^ 32) }
      exec (.cap m) s = .next (settle (followPut (toRunners u mtCap h d) (leAt d 0 2) (leAt d 2 1) (leAt d 3 1) (leAt d 6 1 % 2 = 1)))) ∧
  (∀ (m : Msg) (s : State) (l : Nat), Arrives s m → m.hdr.id = 0xFFFF ∨ m.hdr.id.toNat = deviceId s →
      linkOfPeer s m.hdr.src.toNat (m.hdr.addr.toNat / 65536 % 64) = some l → portState s l ≠ 4 →
      exec (.failover m) s = .next (settle (openTunnel s l (m.hdr.addr.toNat % 65536)))) ∧
  (∀ (m : Msg) (vc : BitVec 2) (s : State), let l := m.hdr.addr.toNat / 65536 % 64
      let seq := m.hdr.addr.toNat % 65536
      let ahead := (seq + 65536 - (portAt s l).rxSeq) % 65536
      Arrives s m → m.hdr.id = 0xFFFF ∨ m.hdr.id.toNat = deviceId s →
      (seq = (portAt s l).rxSeq → (portAt s l).early = [] → exec (.tunnel vc m) s = .next (settle (count (modPort
        (modPort s l fun p => { p with early := [seq] }) l fun p => { p with rxSeq := (p.rxSeq + 1) % 65536, early := [] })
        (linkBase l) 1 1))) ∧
      (seq ≠ (portAt s l).rxSeq → ahead < 32768 → (portAt s l).early = [] → exec (.tunnel vc m) s = .next (settle
        (modPort s l fun p => { p with early := [seq] }))) ∧
      (32768 ≤ ahead → exec (.tunnel vc m) s = .next (settle s))) ∧
  (∀ (m : Msg) (vc : BitVec 2) (s : State) (l : Nat), Arrives s m → m.hdr.id ≠ 0xFFFF → m.hdr.id.toNat ≠ deviceId s →
      routeLink s (m.link.toNat / 4) m.hdr.id.toNat = some l → m.hop.toNat < 4 →
      let h := { m.hdr with dest := m.hdr.id, id := 0xFFFF }
      exec (.failover m) s = .next (settle (sendVc s l 0 0x05 (m.hop.toNat + 1) h m.data)) ∧
      exec (.tunnel vc m) s = .next (settle (sendVc s l vc.toNat 0x40 (m.hop.toNat + 1) h m.data)))

/-- LINK_FAILURE of an UP link marks it FAILED, counts it, raises notice 0x0402 with the cause, sends the FAILOVER and switches the routes at once while no plan runs; silence is a cause only after 200 ns. LANE_SPARE of an UP link whose spare lane is free puts lane 8 in the place of the lane, counts it, raises notice 0x0401 and has the request ready for the next data flit. LINK_RETRAIN begins training a second or more after the failure, and ends it: with fewer than eight lanes the link is DOWN, with lanes 0 to 7 it enters IDENT, and with one of them missing lane 8 takes its place first. FLIT, decoded from its nine lanes, that is good and carries the next data flit frees the acknowledged flits, takes the credits, is taken, sends what waits and acknowledges; one that fails its CRC is counted and naked, and takes the link down when it is the one resent. Beside its rules it rests on choices and readings of the model itself: log entries 61, 96. -/
def Obligations.FabricLinks : Prop :=
  (∀ (link : BitVec 6) (cause : BitVec 3) (s : State), let l := link.toNat
      let a := modPort (setPortState s l 5) l fun p => { p with failedAt := s.now, failed := true, switched := false }
      let b := sendFailover (tunnelsCut (notice (count a (linkBase l) 6 1) 0x0402 1 l (l / 4) cause.toNat)) l
      1 ≤ cause.toNat → cause.toNat ≤ 4 → portState s l = 4 → (cause = 3 → (portAt s l).validAt + 200 ≤ s.now) →
      (b.run = none → exec (.linkFailure link cause) s = .next (settle (fabShow (switchLink b l)))) ∧
      (∀ r, b.run = some r → exec (.linkFailure link cause) s =
        .next (settle (fabShow { b with fab := { b.fab with toSwitch := sadd b.fab.toSwitch l } })))) ∧
  (∀ (link : BitVec 6) (lane : BitVec 3) (s : State), let l := link.toNat
      let o := linkBase l
      let a := modPort s l fun p => { p with fecMs := tset 0 p.fecMs lane.toNat 0 }
      let b := fset (fset (fset a o 24 24 1) o 23 20 lane.toNat) o (8 + lane.toNat) (8 + lane.toNat) 0
      let c := notice (count b o 5 1) 0x0401 1 l (l / 4) lane.toNat
      portState s l = 4 → fbit s o 24 = false → exec (.laneSpare link lane) s =
        .next (settle (modPort c l fun p => { p with toAsk := some lane.toNat }))) ∧
  (∀ (link : BitVec 6) (s : State), let l := link.toNat
      portState s l = 5 ∨ portState s l = 1 → (portAt s l).failedAt + 1000000000 ≤ s.now →
      exec (.linkRetrain link none) s = .next (settle (modPort (setPortState s l 2) l fun p => { p with failedAt := s.now }))) ∧
  (∀ (link : BitVec 6) (lanes : BitVec 9) (s : State), let l := link.toNat
      let o := linkBase l
      let miss := (List.range 8).find? fun i => !lanes.toNat.testBit i
      let n := ((List.range 9).filter fun i => lanes.toNat.testBit i).length
      let b := fset (fset (fset s o 16 8 lanes.toNat) o 24 24 0) o 23 20 0
      portState s l = 2 →
      (n < 8 → exec (.linkRetrain link (some lanes)) s = .next (settle (setPortState b l 1))) ∧
      (8 ≤ n → miss = none → exec (.linkRetrain link (some lanes)) s = .next (settle (enterIdent b l))) ∧
      (∀ i, 8 ≤ n → miss = some i →
        let c := notice (count (fset (fset (fset b o 24 24 1) o 23 20 i) o (8 + i) (8 + i) 0) o 5 1) 0x0401 1 l (l / 4) i
        exec (.linkRetrain link (some lanes)) s = .next (settle (modPort (enterIdent c l) l fun p => { p with spareAt := some (i, 0) })))) ∧
  (∀ (link : BitVec 6) (lanes : List (List (BitVec 2))) (s : State), let l := link.toNat
      let r := fromLanes (sparedIn (portAt s l) (portAt s l).rxSeq) lanes
      let f := (flitOf r.1).1
      let a := fecCount s l (r.2.map fun n => n.getD 0)
      let b := takeCredits (modPort a l fun p => { p with validAt := a.now, retry := afterSeq p.retry f.ack }) l f.creds
      let c := count (oweCredit (modPort b l fun p => { p with rxSeq := (p.rxSeq + 1) % 65536, resent := false }) l f.vc f.hop)
        (linkBase l) 1 1
      let d := count a (linkBase l) 3 1
      lanes.length = 9 → portState s l = 4 ∨ portState s l = 3 → portState a l ≠ 5 →
      (flitCrc (f.control ++ f.body) = (flitOf r.1).2 → r.1.take 16 = f.control → f.kind = 1 → f.nak = false → f.spareReq = false →
        f.seq = (portAt b l).rxSeq →
        exec (.flit link lanes) s = .next (settle (emitFlit (pump c l) l (bareFlit false)))) ∧
      (flitCrc (f.control ++ f.body) ≠ (flitOf r.1).2 → (portAt d l).resent = false →
        exec (.flit link lanes) s = .next (settle (sendNak (modPort d l fun p => { p with resent := true }) l))) ∧
      (flitCrc (f.control ++ f.body) ≠ (flitOf r.1).2 → (portAt d l).resent = true → f.kind = 1 → f.seq = (portAt d l).rxSeq →
        exec (.flit link lanes) s = .next (settle (failLink d l 1))))

/-- When the operation in front at a tower's engine is well formed and its operands can be reached: COLL_PUT to this module writes the bytes and counts the tag of the tower that holds them, to another sends them and then the TAG; COLL_WAIT on a tag that has reached its count takes the count from it; COLL_ADD adds a into b in the list's dtype, every element with a poisoned byte of either poisoned whole; COLL_COPY copies a to b; each then moves on to the next operation, and after the last the COLL leaves the engine. Beside its rules it rests on choices and readings of the model itself: log entries 60. -/
def Obligations.Collectives : Prop :=
  ∀ (tower : BitVec 4) (s : State) (r : CollRun) (off n dtype : Nat) (o : CollOp),
    let t := tower.toNat
    let a := o.a % 2 ^ 48
    let b := o.b % 2 ^ 48
    let local_ (x : Nat) : Prop := isSelf s (x / 2 ^ 48) = true ∧ badAddr s Place.collOk (x % 2 ^ 48) o.len = none ∧
      withheldFrom s 4096 (x % 2 ^ 48) o.len = false
    collFront s t = some (r, (off, n, dtype), o) → collBad o dtype = false →
    (o.kind = 1 → local_ o.b → isSelf s (o.a / 2 ^ 48) = true → badAddr s Place.collOk a o.len = none →
      let d := memRead s b o.len
      exec (.collPut tower) s = .next (settle (collNext (tagInc (memWrite d.1 a d.2) (addrTower a) o.tag) t n))) ∧
    (∀ u, o.kind = 1 → local_ o.b → isSelf s (o.a / 2 ^ 48) = false →
      let d := memRead s b o.len
      putLines t r o.a (o.len / 512 + 1) d.1 0 d.2 = some u →
      let h : Header := { hdrTo (o.a / 2 ^ 48) (deviceId u) with
        srcTower := BitVec.ofNat 4 t, dstTower := BitVec.ofNat 4 (addrTower a), addr := BitVec.ofNat 48 o.tag,
        step := BitVec.ofNat 32 (curStep u) }
      exec (.collPut tower) s = .next (settle (collNext ((inject u t mtTag h []).getD u) t n))) ∧
    (o.kind = 2 → o.count ≤ tget 0 (collEng s t).tags o.tag →
      exec (.collWait tower) s = .next (settle (collNext (modColl s t fun e =>
        { e with tags := tput e.tags o.tag (tget 0 (collEng s t).tags o.tag - o.count) }) t n))) ∧
    (o.kind = 3 → local_ o.a → local_ o.b →
      let x := memRead s a o.len
      let y := memRead x.1 b o.len
      let v := collSum dtype (pdata y.2) (pdata x.2)
      exec (.collAdd tower) s = .next (settle (collNext (memWrite y.1 b (v.zip (collPoison (collWidth dtype) x.2 y.2))) t n))) ∧
    (o.kind = 4 → local_ o.a → local_ o.b →
      let x := memRead s a o.len
      exec (.collCopy tower) s = .next (settle (collNext (memWrite x.1 b x.2) t n)))

/-- Each of INPUT_GUARD_STEP, EMERGENCY_RELEASE, CAP_NOTICE_REPEAT, FOLLOW_ENTRY_EXPIRY, PLANNED_REDUCTION_FORCED, PHASE_LOSS, CONVERTER_LOSS, UNDERVOLTAGE_STOP, OVERVOLTAGE_STOP and REGION_WAKE_COMPLETE, once the time or the loss that it stands for has come, takes its effect: a further 4/64 of the guard; the right to rise; the notice again; the origin leaves the follow table; the waiting value is applied with notice 0x1507; the phase is recorded, counted, reported and limits its regions; the converter leaves service with notice 0x1506, and with two or fewer left every region is off; the regions are off with notice 0x1505; the region is AWAKE and its RWAKEs complete. Beside its rules it rests on choices and readings of the model itself: log entries 2, 65, 66. -/
def Obligations.PowerRows : Prop :=
  (∀ s : State, let g := s.pwr.guard
      g.limit < 64 → g.hot = true → g.last + 1000000 ≤ s.now → exec .inputGuardStep s = .next (settle (capChanged (showEmergency
        { s with pwr := { s.pwr with guard := { g with limit := g.limit - 4, last := s.now } } })))) ∧
  (∀ (s : State) (t : Nat), let g := s.pwr.guard
      g.limit < 64 → g.okSince = some t → t + 10000000 ≤ s.now →
      exec (.emergencyRelease none) s = .next (settle { s with pwr := { s.pwr with guard := { g with rise := true } } })) ∧
  (∀ (r : BitVec 8) (s : State) (t : Nat), let p := tget Prot.init s.pwr.therm r.toNat
      p.limit < 64 → p.okSince = some t → t + 10000000 ≤ s.now → exec (.emergencyRelease (some r)) s =
        .next (settle { s with pwr := { s.pwr with therm := tset Prot.init s.pwr.therm r.toNat { p with rise := true } } })) ∧
  (∀ s : State, (lowestEmergency s).1 < 64 → s.pwr.lastCapAt + 10000000 ≤ s.now →
      exec .capNoticeRepeat s = .next (settle (sendCap s))) ∧
  (∀ (origin : BitVec 16) (s : State) (f : Follow), s.pwr.follow.find? (fun f => f.origin = origin.toNat) = some f →
      f.time + 50000000 ≤ s.now → exec (.followEntryExpiry origin) s = .next (settle (followPut s origin.toNat 64 0 true))) ∧
  (∀ (source : BitVec 6) (s : State) (t : Nat), let i := source.toNat
      let v := tget 64 s.pwr.want i
      tget? s.pwr.lowSince i = some t → t + 100000000 ≤ s.now → exec (.plannedReductionForced source) s = .next (settle (notice
        (showPlanned { s with pwr := { s.pwr with applied := tset 64 s.pwr.applied i v, lowSince := tdel s.pwr.lowSince i } })
          0x1507 0 0xFFFF 0xFF v))) ∧
  (∀ (tower : BitVec 4) (phase : BitVec 6) (s : State), let t := tower.toNat
      let r := t * 16 + phase.toNat / 4
      let a := { s with pwr := { s.pwr with phaseLost := sadd s.pwr.phaseLost (t * 64 + phase.toNat) } }
      let b := count (fset a (regionReg r) (26 + phase.toNat % 4) (26 + phase.toNat % 4) 0) (pwtBase t) 2 1
      s.pwr.phaseLost.contains (t * 64 + phase.toNat) = false → exec (.phaseLoss tower 0 phase) s = .next (settle (applyPhases
        (notice b 0x0201 1 (phase.toNat / 4) t (0 + phase.toNat * 2 ^ 4 + phaseLevel b r * 2 ^ 16)) [r]))) ∧
  (∀ (tower domain : BitVec 4) (phase : BitVec 6) (s : State), let t := tower.toNat
      let key := (t * 4 + domain.toNat) * 16 + phase.toNat
      let b := count { s with pwr := { s.pwr with domLost := sadd s.pwr.domLost key } } (pwtBase t) 2 1
      let rs := (List.range 16).map (t * 16 + ·)
      1 ≤ domain.toNat → domain.toNat ≤ 3 → phase.toNat < 6 → s.pwr.domLost.contains key = false →
      exec (.phaseLoss tower domain phase) s = .next (settle (applyPhases
        (notice b 0x0201 1 0 t (domain.toNat + phase.toNat * 2 ^ 4 + phaseLevel b (t * 16 + 0) * 2 ^ 16)) rs))) ∧
  (∀ (i : BitVec 3) (s : State), let b := 16 + i.toNat
      let a := fset s pwmBase b b 0
      let n := notice a 0x1506 0 0xFFFF 0xFF (ibcOk a)
      fbit s pwmBase b = true →
      (2 < ibcCount n → exec (.converterLoss i) s = .next (settle n)) ∧
      (ibcCount n ≤ 2 → exec (.converterLoss i) s = .next (settle (regionsOff n allRegions)))) ∧
  (∀ (s : State) (t : Nat), s.pwr.underSince = some t → t + 1000000 ≤ s.now →
      exec .undervoltageStop s = .next (settle (inputNotice (regionsOff s allRegions) 3))) ∧
  (∀ s : State, 6000 < fget s (pwmBase + 0x10) 15 0 →
      exec .overvoltageStop s = .next (settle (inputNotice (regionsOff (fset s pwmBase 23 16 0) allRegions) 3))) ∧
  (∀ (region : BitVec 8) (s : State), regionState s region.toNat = 1 →
      (∃ x ∈ s.pwr.staging, x.region = region.toNat ∧ x.until_ ≤ s.now) →
      exec (.regionWakeComplete region) s = .next (settle (wakeDone s region.toNat)))

/-- TELEMETRY_TICK with ten input samples, the voltage of every domain and the current of every phase counts what Bruise delayed and the pulp slots, shows the mean input voltage and current, the mean powers and the energy, the domain reports, the region currents and the power map that the reports give, then runs the voltage band, the input guard and the ramp governor; with no step of a plan running the planned values are applied and the protective sources that may rise do so, and otherwise the planned values are only shown. Beside its rules it rests on choices and readings of the model itself: log entries 2, 52, 65, 66, 92. -/
def Obligations.TelemetryTick : Prop :=
  ∀ (input : List (BitVec 16 × BitVec 16)) (volts phases : List (BitVec 16)) (s : State),
    input.length = 10 → volts.length = 64 → phases.length = 1312 →
    let v := sampleMean (input.map (·.1))
    let i := sampleMean (input.map (·.2))
    let x := inputEnergy input
    let z := pulpTick ((List.range 16).foldl jitterTick s)
    let a := count { z with pwr := { z.pwr with
      histP := (x :: z.pwr.histP).take 10000, histI := (i :: z.pwr.histI).take 10, energyRem := (z.pwr.energyRem + x) % 1000 } } pwmBase 0
      ((z.pwr.energyRem + x) / 1000)
    let w (n : Nat) : Nat := Nat.min 65535 (meanPower a n)
    let b := regPut a (pwmBase + 0x10) (BitVec.ofNat 64 (v + i * 2 ^ 16 + w 1 * 2 ^ 32))
    let c := fset (fset b (pwmBase + 0x18) 15 0 (w 10)) (pwmBase + 0x18) 31 16 (w 10000)
    let d := { c with pwr := { c.pwr with volts := volts, phaseAmps := phases } }
    let e := (List.range 64).foldl (fun s n => regPut s (pwtBase (n / 4) + 0x10 + 8 * (n % 4))
      (Config.domainWord (domVolt s (n / 4) (n % 4)) (domAmps s (n / 4) (n % 4))
        (if n % 4 = 0 then 64 - ((List.range 16).map fun c => vlgLost s (n / 4 * 16 + c)).sum else 6 - domLost s (n / 4) (n % 4)))) d
    let f := (List.range 256).foldl (fun s r => fset s (regionReg r) 47 32 (phaseSum s (r / 16) (4 * (r % 16)) 4)) e
    let m := { f with pwr := { f.pwr with qmap := (List.range 256).map fun r =>
      (r, BitVec.ofNat 32 (fp32.convert .rne false ⟨regionPower f r, 160000, 0⟩).1) } }
    let g := govTick (guardTick (bandTick m v)) (f64OfFrac x 100000)
    (noPlan g = true → exec (.telemetryTick input volts phases) s = .next (settle (protRise (applyPlanned g)))) ∧
    (noPlan g = false → exec (.telemetryTick input volts phases) s = .next (settle (showPlanned g)))

/-- SENSOR_SAMPLE of 192 readings marks the sensors without a valid reading as suspect, takes the model one step, updates trust and registers sensor by sensor and then the heat of each region; THERMAL_EMERGENCY_STEP lowers a hot region's limit by a further 8 down to 8; THERMAL_TRIP after 1 ms at the trip level counts, reports in notice 0x0303 and powers the region off; COOLANT_READ shows the reading, plans the derate of R408 and applies the protective limit; COOLANT_SHUTDOWN after 1 s above 45 °C powers every region off. Beside its rules it rests on choices and readings of the model itself: log entries 2, 64, 66, 67. -/
def Obligations.ThermalRows : Prop :=
  (∀ (tower : BitVec 4) (readings : List (Option Int)) (s : State), readings.length = 192 →
      let t := tower.toNat
      let rd := readings.map goodReading
      let bad := ((indexed rd).filter fun e => e.2.isNone).map (·.1)
      let a := bad.foldl (fun s i => makeSuspect s t i none) s
      let new := (List.range 192).map fun i => modelStep a t rd (sensorLayer i) (sensorCluster i) (tmOf a t i)
      exec (.sensorSample tower readings) s = .next (settle ((List.range 16).foldl (regionHeat rd t)
        ((List.range 192).foldl (sensorStep rd t new) a)))) ∧
  (∀ (region : BitVec 8) (s : State), let p := tget Prot.init s.pwr.therm region.toNat
      p.limit < 64 → p.hot = true → p.last + 1000000 ≤ s.now → exec (.thermalEmergencyStep region) s = .next (settle (capChanged
        (putTherm s region.toNat { p with limit := Nat.max 8 (p.limit - 8), last := s.now })))) ∧
  (∀ (region : BitVec 8) (s : State) (since v : Nat), let r := region.toNat
      tget? s.pwr.tripSince r = some (since, v) → since + 1000000 ≤ s.now → regionState s r ≠ 3 →
      exec (.thermalTrip region) s = .next (settle (regionsOff (notice (count s (thmBase (r / 16)) 2 1) 0x0303 1 (v / 65536) (r / 16)
        (v % 65536 + r % 16 * 2 ^ 16)) [r]))) ∧
  (∀ (inlet outlet : Int) (flow : BitVec 16) (s : State), let f := flow.toNat
      let d := coolantDerate inlet f
      let a := showPlanned (setWant (regPut s (pwmBase + 0x60) (BitVec.ofNat 64 (unsigned 16 inlet + unsigned 16 outlet * 2 ^ 16 + f * 2 ^ 32))) 3 d)
      let b := if d < 64 ∧ a.pwr.coolantEpisode = false then notice a 0x1503 0 0xFFFF 0xFF (coolantDetail inlet f d) else a
      let c := { b with pwr := { b.pwr with
        coolantEpisode := d < 64, hotInletSince := if 450 < inlet then some (b.pwr.hotInletSince.getD b.now) else none } }
      exec (.coolantRead inlet outlet flow) s = .next (settle (coolantLimit c inlet f d))) ∧
  (∀ (s : State) (t : Nat), s.pwr.hotInletSince = some t → t + 1000000000 ≤ s.now →
      exec .coolantShutdown s = .next (settle (regionsOff s allRegions)))

/-- CORE_DIAGNOSIS of a FENCED core records its arrays' bad columns and makes it a spare when it passed, for the first time, with usable arrays and a live router, or retires it, with notice 0x1019; HOP_RETRY of a flit whose every byte has even parity with its ninth bit passes, one with a bad byte counts up to three retries of that hop buffer and the fourth failure starts the loopback test, and a bypassed router checks nothing; ROUTER_DEAD of a live router stops the plan, records the router, bypasses it, turns the routes that turned at it, fences its core and moves its column, with notice 0x0801; HEARTBEAT_TIMEOUT, PLL_LOSS_OF_LOCK and PITH_UNCORRECTABLE_ERROR begin a warm reset of a tower in service, of causes 1 to 3, with the writes of its channels settled at the hold edge; STATE_PROBE fences an ACTIVE core that does not answer, and quarantines a column whose answer differs from the record, with notice 0x1017. Beside its rules it rests on choices and readings of the model itself: log entries 47, 48, 49, 50. -/
def Obligations.IntegrityRows : Prop :=
  (∀ (tower : BitVec 4) (core : BitVec 9) (pass : Bool) (bad0 bad1 : BitVec 128) (s : State),
      let pk := tower.toNat * 272 + core.toNat
      let w := endGang (writeBadCols (writeBadCols s pk 0 bad0.toNat) pk 1 bad1.toNat) pk
      let a := narrowNotice (narrowNotice w (repairState s pk 0) (repairState w pk 0)) (repairState s pk 1) (repairState w pk 1)
      let good := pass && !armsBad a pk && !(coreOf a pk).fencedBefore && !a.stone.dead.contains pk
      let b := modCore a pk fun c => { c with fencedBefore := true }
      core.toNat < 272 → coreState s pk = csFenced →
      (good = true → exec (.coreDiagnosis tower core pass bad0 bad1) s =
        .next (settle (notice (setCoreState b pk csSpare) 0x1019 1 (pk % 272) (pk / 272) 1))) ∧
      (good = false → exec (.coreDiagnosis tower core pass bad0 bad1) s =
        .next (settle (notice (recordRetired (setCoreState b pk csRetired) 0 pk) 0x1019 1 (pk % 272) (pk / 272) 0)))) ∧
  (∀ (tower : BitVec 4) (router : BitVec 9) (hop : BitVec 3) (src dst : BitVec 9) (flit : List (BitVec 9)) (s : State),
      let u := tower.toNat * 272 + router.toNat
      let k := routeClass s (tower.toNat * 272 + src.toNat) (tower.toNat * 272 + dst.toNat)
      let f := (netOf s u).fails hop.toNat k
      let good : Prop := ∀ b ∈ flit, parityBit (BitVec.ofNat 8 b.toNat) = b.getLsbD 8
      router.toNat < 272 → src.toNat < 272 → dst.toNat < 272 → hop.toNat < 6 →
      ((netOf s u).bypass = true → exec (.hopRetry tower router hop src dst flit) s = .next (settle s)) ∧
      ((netOf s u).bypass = false → good → exec (.hopRetry tower router hop src dst flit) s =
        .next (settle (modNet s u fun n => n.setFails hop.toNat k 0))) ∧
      ((netOf s u).bypass = false → ¬good → f < 3 → exec (.hopRetry tower router hop src dst flit) s =
        .next (settle (count (modNet s u fun n => n.setFails hop.toNat k (f + 1)) (nocBase tower.toNat) 1 1))) ∧
      ((netOf s u).bypass = false → ¬good → 3 ≤ f → exec (.hopRetry tower router hop src dst flit) s =
        .next (settle (emit s (.probe 2 u))))) ∧
  (∀ (tower : BitVec 4) (router : BitVec 9) (atBringUp : Bool) (s : State), let u := tower.toNat * 272 + router.toNat
      let a := stopPlan s stStepFailed 0
      let b := { a with stone := { a.stone with dead := sadd a.stone.dead u } }
      let n := turnAround (modNet b u fun n => { n with bypass := true, failed := [] }) u
      let c := leaveColumn (fenceAndSpare n u) u
      router.toNat < 272 → s.stone.dead.contains u = false → coreState n u = csActive → crossDead a u = false →
      exec (.routerDead tower router atBringUp) s = .next (settle (notice c 0x0801 1 (u % 272) (u / 272)
        (b2n atBringUp + 2 * b2n (regionState c (u / 272 * 16 + routerRow u) = 3))))) ∧
  (∀ (tower : BitVec 4) (s : State), let t := tower.toNat
      let begun (cause : Nat) : State :=
        let a := fresh s
        let b := { a with boot := { a.boot with resets := a.boot.resets ++ [(t, cause, a.now, Config.freeChoice s.free 250001 % 250001)] } }
        fset (settleBeats (downPorts (stopPlan b stStepFailed 0) t) t) (stnBase + 0x3000) (16 + t) (16 + t) 1
      inReset s t = false →
      exec (.heartbeatTimeout tower) s = .next (settle (begun 1)) ∧ exec (.pllLossOfLock tower) s = .next (settle (begun 2)) ∧
      exec (.pithUncorrectableError tower) s = .next (settle (begun 3))) ∧
  (∀ (u : UnitId) (answer : Identity) (s : State), let x := u.tower.toNat * 272 + u.idx
      u.idx < 272 →
      (u.kind = 0 → quarTries s 0 x = none → coreState s x = csActive → answer.answered = false →
        exec (.stateProbe u answer) s = .next (settle (fenceAndSpare s x))) ∧
      (u.kind = 1 → quarTries s 1 x = none → colState s x = 1 → answerOk s x (logicalCol s x) 1 answer = false →
        exec (.stateProbe u answer) s = .next (settle (quarNotice (setQuar (setColState s x 4) 1 x (some 0)) 1 (x / 272) u.idx 1
          answer.state.toNat))))

/-- While an injection of its kind is in progress, INJECT_SINGLE_BIT, INJECT_DOUBLE_BIT, INJECT_POISON_AT_REST, INJECT_POISON_IN_FLIGHT and INJECT_PARITY_ERROR either change what the kind says and end with busy 0, done 1, refused 0 and a count, when the operands obey R447, or end with refused 1 and no other effect. BEYOND_SET and BEYOND_CLEAR by a requester with the right, with the strap set and no reset, set or clear the flag and raise notice 0x0901 or 0x0902 when it changes. Beside its rules it rests on choices and readings of the model itself: log entries 51, 52. -/
def Obligations.BruiseRows : Prop :=
  (∀ (tower : BitVec 4) (s : State), let t := tower.toNat
      let o := brzBase t + 0x48
      let changed : State := pokeByte (injAccess s (injAddr s t) false) (injAddr s t) fun b y => flipBit b y (injA s t)
      let ended (u : State) (refused : Nat) : State := fset (fset (fset u o 2 2 0) o 3 3 1) o 4 4 refused
      injBusy s t = true → injKind s t = 0 →
      (injOk s t = true → exec (.injectSingleBit tower) s = .next (settle (count (ended changed 0) (brzBase t) 1 1))) ∧
      (injOk s t = false → exec (.injectSingleBit tower) s = .next (settle (ended s 1)))) ∧
  (∀ (tower : BitVec 4) (s : State), let t := tower.toNat
      let o := brzBase t + 0x48
      let changed : State := pokeByte (injAccess s (injAddr s t) false) (injAddr s t) fun b y =>
        let p := flipBit b y (injA s t)
        flipBit p.1 p.2 (injB s t)
      let ended (u : State) (refused : Nat) : State := fset (fset (fset u o 2 2 0) o 3 3 1) o 4 4 refused
      injBusy s t = true → injKind s t = 1 →
      (injOk s t = true → exec (.injectDoubleBit tower) s = .next (settle (count (ended changed 0) (brzBase t) 1 1))) ∧
      (injOk s t = false → exec (.injectDoubleBit tower) s = .next (settle (ended s 1)))) ∧
  (∀ (tower : BitVec 4) (s : State), let t := tower.toNat
      let o := brzBase t + 0x48
      let changed : State := pokeByte (injAccess s (injAddr s t) true) (injAddr s t) fun _ _ => (0, poisonSyn)
      let ended (u : State) (refused : Nat) : State := fset (fset (fset u o 2 2 0) o 3 3 1) o 4 4 refused
      injBusy s t = true → injKind s t = 2 →
      (injOk s t = true → exec (.injectPoisonAtRest tower) s = .next (settle (count (ended changed 0) (brzBase t) 1 1))) ∧
      (injOk s t = false → exec (.injectPoisonAtRest tower) s = .next (settle (ended s 1)))) ∧
  (∀ (tower : BitVec 4) (s : State), let t := tower.toNat
      let o := brzBase t + 0x48
      let changed : State := { s with stone := { s.stone with flightPoison := sadd s.stone.flightPoison (flightKey s (injAddr s t)) } }
      let ended (u : State) (refused : Nat) : State := fset (fset (fset u o 2 2 0) o 3 3 1) o 4 4 refused
      injBusy s t = true → injKind s t = 3 →
      (injOk s t = true → exec (.injectPoisonInFlight tower) s = .next (settle (count (ended changed 0) (brzBase t) 1 1))) ∧
      (injOk s t = false → exec (.injectPoisonInFlight tower) s = .next (settle (ended s 1)))) ∧
  (∀ (tower : BitVec 4) (s : State), let t := tower.toNat
      let o := brzBase t + 0x48
      let changed : State := { s with stone := { s.stone with parityAt := sadd s.stone.parityAt (t * 272 + injCore s t) } }
      let ended (u : State) (refused : Nat) : State := fset (fset (fset u o 2 2 0) o 3 3 1) o 4 4 refused
      injBusy s t = true → injKind s t = 4 →
      (injOk s t = true → exec (.injectParityError tower) s = .next (settle (count (ended changed 0) (brzBase t) 1 1))) ∧
      (injOk s t = false → exec (.injectParityError tower) s = .next (settle (ended s 1)))) ∧
  (∀ (who : Who) (tower : BitVec 4) (s : State), let t := tower.toNat
      let b := brzBase t
      let put (v : Nat) : State := fset (fset s b 5 0 (fget s b 5 0)) b 32 32 v
      brzRight t who = true → inReset s t = false → brzOn s t = true →
      (fbit s b 32 = false →
        exec (.beyondSet who tower) s = .next (settle (notice (put 1) 0x0901 1 0 t (fget (put 1) b 31 0)))) ∧
      (fbit s b 32 = true →
        exec (.beyondClear who tower) s = .next (settle (notice (put 0) 0x0902 1 0 t (fget (put 0) b 31 0)))))

/-- PWRGD_RISE without power good starts a cold boot with the straps; BRING_UP_STAGE of the stage that is due does its work and ends it, and with a fault of R456 enters FAULT; ENDPOINT_READY after stage 0x01 releases the endpoint, with a frame in the BOOT phase; RUN_ENTRY after stage 0x0B enters RUN; PROGRESS_FRAME and FAULT_PATTERN when due drive what R493 and R494 say and set their next time; RUN_PHASE_PINS 1 ms and I3C_TARGET_READY 10 ms after the entry to RUN change the pins and make the target ready; TRAINING_CACHE_SAVE ends the save under way with notice 0x1202; INPUT_50V_APPLIED records the 50 V input. Beside its rules it rests on choices and readings of the model itself: log entries 2, 68, 69. -/
def Obligations.BringUpRows : Prop :=
  (∀ (straps : BitVec 4) (s : State), s.boot.pwrgd = false → exec (.pwrgdRise straps) s = .next (settle (coldBoot s straps.toNat))) ∧
  (∀ (code : BitVec 8) (run : StageRun) (s : State), let c := code.toNat
      s.boot.pwrgd = true → bootMode s = 0 → fget s bootBase 15 8 = c → c ≠ 0xF →
      (stageFault c run = 0 → let w := stageWork s c run
        let e := { w with boot := { w.boot with ended := c } }
        (bootMode e = 0 → c ≠ 1 → exec (.bringUpStage code run) s = .next (settle (setStage e (nextStage c)))) ∧
        (bootMode e ≠ 0 ∨ c = 1 → exec (.bringUpStage code run) s = .next (settle e))) ∧
      (stageFault c run ≠ 0 → exec (.bringUpStage code run) s = .next (settle (enterFault s (stageFault c run))))) ∧
  (∀ s : State, s.boot.pwrgd = true → 1 ≤ s.boot.ended → s.boot.endpoint = false →
      let a := { s with boot := { s.boot with endpoint := true, perst := false } }
      exec .endpointReady s = .next (settle (if fget a pipBase 5 4 = 1 then sendFrame a 2 else a))) ∧
  (∀ s : State, s.boot.pwrgd = true → bootMode s = 0 → s.boot.ended = 0xB → exec .runEntry s = .next (settle (enterRun s))) ∧
  (∀ s : State, let a := fset (fset s pipBase 5 4 1) pipBase 0 0 1
      let timed (u : State) : State := { u with boot := { u.boot with frameAt := u.now + 1000000 } }
      s.boot.pwrgd = true → s.boot.frameAt ≤ s.now →
      (bootMode s = 0 → exec .progressFrame s = .next (settle (timed (sendFrame (drivePip1 a true) (fget s bootBase 15 8))))) ∧
      (bootMode s = 1 → rcvBusy s = true → exec .progressFrame s = .next (settle (timed (sendFrame (drivePip1 a true) 0xE1)))) ∧
      (bootMode s = 1 → rcvBusy s = false → exec .progressFrame s = .next (settle (timed (sendFrame (drivePip1 a false) 0xE0))))) ∧
  (∀ s : State, let f := fget s bootBase 31 24
      let a := emit s (.faultPattern f)
      s.boot.pwrgd = true → bootMode s = 3 → s.boot.frameAt ≤ s.now → exec .faultPattern s =
        .next (settle { a with boot := { a.boot with frameAt := a.now + (400 * f + 1400) * 1000000 } })) ∧
  (∀ s : State, inRun s = true → s.boot.pinsRun = false → s.boot.phaseAt + 1000000 ≤ s.now → exec .runPhasePins s = .next (settle (emit
      { s with boot := { s.boot with pinsRun := true }, pip := { s.pip with alert := false, rdy := false } } (.pin 0 true)))) ∧
  (∀ s : State, inRun s = true → s.boot.phaseAt + 10000000 ≤ s.now →
      exec .i3cTargetReady s = .next (settle { s with boot := { s.boot with i3cReady := true } })) ∧
  (∀ (s : State) (k : Nat), s.boot.saving = some k → let other := if k = 0 then s.boot.cacheB else s.boot.cacheA
      let c : Cache := ⟨true, (other.gen + 1) % 2 ^ 32, s.boot.fw.major, s.boot.fw.minor, s.boot.full ++ s.boot.fast⟩
      let b := if k = 0 then { s.boot with cacheA := c, saving := none } else { s.boot with cacheB := c, saving := none }
      exec .trainingCacheSave s = .next (settle (notice (fset { s with boot := b } bootBase 19 19 0) 0x1202 0 0xFFFF 0xFF
        (c.gen + k * 2 ^ 32)))) ∧
  (∀ s : State, exec .input50vApplied s = .next (settle { s with boot := { s.boot with input50 := true } }))

/-- RECOVERY_LOAD of an image that reads whole twice with one digest and passes every check ends with result 1, raises min_svn when asked, starts the image and goes on at stage 0x03; FIRMWARE_UPDATE of such an image ends with result 1, raises min_svn when asked, and raises notice 0x1203; PERST_L_ASSERT and HOT_RESET reset the endpoint alone; PWRGD_FALL leaves the slot of a load in progress with or without a valid image, stops the plan without a record, powers every region off and releases the pins. Beside its rules it rests on choices and readings of the model itself: log entries 68, 69, 70. -/
def Obligations.ResetAndUpdateRows : Prop :=
  (∀ (first second : HostData) (s : State), let n := rcvLength s
      let u := readHost s ((regGet s (bootBase + 0x100)).toNat / 4096 * 4096) n
      let v := rcvEnd { u with boot := { u.boot with slot := second.bytes } } 1
      let svn := leAt first.bytes 22 1
      rcvBusy s = true → busMaster s = true → readWhole first n = true → imageCheck s first.bytes n = 0 → readWhole second n = true →
      shake256 64 second.bytes = shake256 64 first.bytes →
      (s.boot.pwrgd = true → bootMode s = 1 → let a := startImage (raiseSvn v svn) first.bytes
        exec (.recoveryLoad first second) s =
          .next (settle (setStage (setMode_ { a with boot := { a.boot with fromRecovery := true } } 0) 3))) ∧
      (inRun s = true → let a := raiseSvn v svn
        exec (.firmwareUpdate first second) s = .next (settle (updateNotice a 1 svn (a.boot.minSvn ≠ u.boot.minSvn))))) ∧
  (∀ s : State, s.boot.pwrgd = true → s.boot.perst = false → exec .perstLAssert s = .next (settle (endpointReset
      { s with boot := { s.boot with perst := true, endpoint := s.boot.endpoint && bootMode s = 2 } } true))) ∧
  (∀ s : State, s.boot.pwrgd = true → fbit s pciBase 11 = true → exec .hotReset s = .next (settle (endpointReset s false))) ∧
  (∀ s : State, s.boot.pwrgd = true →
      let a := regPut (allRegions.foldl (fun s r => setRegionState s r 3) (stopPlan (forgetLaunch (tornSlot s)) stShape 0)) pipBase 0
      let q := { a.qnc with jobs := [], tries := [] }
      let b := { a.boot with pwrgd := false, pinsRun := false, i3cReady := false, endpoint := false, ended := 0 }
      exec .pwrgdFall s = .next (settle { a with run := none, qnc := q, boot := b }))

/-- PCIE_LINK_TRAINING shows the rate, width and FLIT mode, sets link_up, ends PERST_L and raises notice 0x1101 unless the link is 64 GT/s by 16; BUS_MASTER_ENABLE, MEMORY_SPACE_ENABLE and BAR2_RESIZE of an endpoint in service write what the host wrote, held requests issue in order, the further configuration requests follow and each has its Completion, which says Retry before stage 0x02 has ended; BAR2_ACCESS of bytes the window serves reads them, waits while one is withheld, or writes the enabled ones, poisoned when the write was; PTM_DIALOG of the root with PTM enabled steers its time, PTM_LOST after 30 ms raises notice 0x1102; DOE_REQUEST answers the report, or 0xFFFF_FFFF; COMPLETION_TIMEOUT counts and logs, and a core load arrives poisoned. Beside its rules it rests on choices and readings of the model itself: log entries 63, 72, 74, 86, 97. -/
def Obligations.PcieRows : Prop :=
  (∀ (rate : BitVec 3) (width : BitVec 5) (flit : Bool) (s : State), let r := rate.toNat
      let w := width.toNat
      let v := { s with boot := { s.boot with perst := false } }
      let u := fset (fset (fset (fset v pciBase 10 8 r) pciBase 4 0 w) pciBase 12 12 (b2n flit)) pciBase 11 11 1
      s.boot.pwrgd = true → 1 ≤ r ∧ r ≤ 6 → w = 1 ∨ w = 2 ∨ w = 4 ∨ w = 8 ∨ w = 16 → (r = 6 → flit = true) →
      exec (.pcieLinkTraining rate width flit) s =
        .next (settle (if r = 6 ∧ w = 16 then u else notice u 0x1101 0 0xFFFF 0xFF (w + r * 256)))) ∧
  (∀ (bme d3 : Bool) (reqs : List CfgReq) (s : State), let u := fset (fset s pciBase 14 14 (b2n bme)) pciBase 15 15 (b2n d3)
      let v := if busMaster u then { u with out := u.out ++ u.pci.held, pci := { u.pci with held := [] } } else u
      s.boot.endpoint = true → exec (.busMasterEnable bme d3 reqs) s =
        .next (settle (reqs.foldl cfgRequest (emit v (.completion 0 [] false))))) ∧
  (∀ (bme d3 on : Bool) (reqs : List CfgReq) (k : BitVec 6) (s : State), 32 ≤ k.toNat ∧ k.toNat ≤ 42 →
      s.boot.endpoint = false → s.boot.pwrgd = true → s.boot.perst = false →
      let retry := Host.Outcome.next (settle (emit s (.completion 2 [] false)))
      exec (.busMasterEnable bme d3 reqs) s = retry ∧ exec (.memorySpaceEnable on) s = retry ∧ exec (.bar2Resize k) s = retry) ∧
  (∀ (on : Bool) (s : State), s.boot.endpoint = true →
      exec (.memorySpaceEnable on) s = .next (settle (emit (fset s pciBase 13 13 (b2n on)) (.completion 0 [] false)))) ∧
  (∀ (k : BitVec 6) (s : State), s.boot.endpoint = true → 32 ≤ k.toNat ∧ k.toNat ≤ 42 →
      exec (.bar2Resize k) s = .next (settle (emit (fset { s with pci := { s.pci with bar2Log := k.toNat } } (pciBase + 0x100) 11 0 0)
        (.completion 0 [] false)))) ∧
  (∀ (off : BitVec 42) (len : BitVec 13) (be : List Bool) (d : HostData) (s : State), let n := len.toNat
      let a := bar2Addr s off.toNat
      let r := memRead s a n
      hostReach s = true → inRun s = true → rangeOk s Place.remoteOk a n = true → 1 ≤ n ∧ n ≤ 4096 → off.toNat + n ≤ 2 ^ s.pci.bar2Log →
      (withheldFrom s 4096 a n = false →
        exec (.bar2Access false off len be d) s = .next (settle (emit r.1 (.completion 0 (pdata r.2) (anyPoison r.2))))) ∧
      (withheldFrom s 4096 a n = true →
        exec (.bar2Access false off len be d) s = .next (settle { s with pci := { s.pci with waiting := s.pci.waiting ++ [(a, n)] } })) ∧
      (be = List.replicate n true → d.bytes.length = n → d.poison = [] →
        exec (.bar2Access true off len be d) s = .next (settle (beWrite memWrite (be.zip (d.bytes.map fun b => (b, false))) s a []))) ∧
      (be.length = n → d.bytes.length = n → d.poison ≠ [] →
        exec (.bar2Access true off len be d) s = .next (settle
          (beWrite memWrite (be.zip (d.bytes.map fun b => (b, true))) (aerError (count s pciBase 0 1) 12 false) a [])))) ∧
  (∀ (t : W64) (delay : W32) (s : State), let o := pciBase + 0x110
      let u := steerHost (count s pciBase 4 1) t
      let v := fset (fset (fset u o 63 32 delay.toNat) o 1 1 1) o 0 0 1
      isRoot s = true → fbit s pciBase 11 = true → (cfgWord s 0x288).testBit 0 = true → s.pci.lastPtm = 0 ∨ s.pci.lastPtm + 10000000 ≤ s.now →
      exec (.ptmDialog t delay) s = .next (settle { v with pci := { v.pci with lastPtm := v.now, ptmLost := false } })) ∧
  (∀ s : State, let o := pciBase + 0x110
      let u := { s with pci := { s.pci with ptmLost := true }, fab := { s.fab with slew := 0 } }
      fbit s o 1 = true → s.pci.ptmLost = false → s.pci.lastPtm + 30000000 ≤ s.now →
      exec .ptmLost s = .next (settle (notice (fset u o 0 0 0) 0x1102 0 0xFFFF 0xFF s.pci.lastPtm))) ∧
  (∀ (p : List Byte) (s : State), s.boot.endpoint = true →
      (p.length = 40 → leAt p 0 4 = 1 → leAt p 4 4 ≤ 1 →
        exec (.doeRequest p) s = .next (settle (emit s (.doe (report s (bytesAt p 8 32) (leAt p 4 4 = 1)))))) ∧
      (p.length ≠ 40 ∨ leAt p 0 4 ≠ 1 ∨ 1 < leAt p 4 4 →
        exec (.doeRequest p) s = .next (settle (emit s (.doe (leBytes 4 0xFFFFFFFF)))))) ∧
  (∀ (read : Nat) (s : State) (e : LoadEnt) (t : List LoadEnt), let u := aerError (count s pciBase 2 1) 14 false
      let pk := physCore u read
      busMaster s = true → readOpen s read = true → read < 4096 → live (coreOf u pk) = true → (coreOf u pk).loads = e :: t →
      exec (.completionTimeout read) s = State.resumed
        (returnLoad u pk read ⟨List.replicate e.size 0, List.range (ceilDiv e.size 32)⟩) read)

/-- In RUN, ENTDAA without a dynamic address answers PID, BCR and DCR and takes the address, SETDASA from 0x4E takes it, RSTDAA gives it up; ENEC and DISEC set and clear ibi_en; GETPID, GETBCR, GETDCR, GETSTATUS, GETMWL and GETMRL answer, SETMWL and SETMRL set; a management read of an aligned place of control space ends with status 0 and its value, of another with status 1; a management write reaches PIP_ALERT_STATUS and PIP_ALERT_MASK and ends any other with status 1; PRIVATE_READ gives the last reply once; an in-band interrupt goes out for a masked bit not announced, and every 10 ms. Beside its rules it rests on choices and readings of the model itself: log entries 72, 73. -/
def Obligations.I3cRows : Prop :=
  ∀ s : State, i3cUp s = true →
    (∀ a : BitVec 7, i3cAssigned s = false → exec (.entdaa a) s =
        .next (settle (emit (fset (fset s pipBase 22 16 a.toNat) pipBase 23 23 1) (.i3c (i3cPid ++ [0x02, 0x00]))))) ∧
    (∀ a : BitVec 7, i3cAssigned s = false → exec (.setdasa 0x4E a) s =
        .next (settle (emit (fset (fset s pipBase 22 16 a.toNat) pipBase 23 23 1) (.i3c [])))) ∧
    exec .rstdaa s = .next (settle (fset s pipBase 23 16 0)) ∧
    exec .enec s = .next (settle (fset s pipBase 24 24 1)) ∧
    exec .disec s = .next (settle (fset s pipBase 24 24 0)) ∧
    (i3cAssigned s = true →
      exec .getpid s = .next (settle (emit s (.i3c (leBytes 6 (i3cId % 2 ^ 48)).reverse))) ∧
      exec .getbcr s = .next (settle (emit s (.i3c [0x02]))) ∧
      exec .getdcr s = .next (settle (emit s (.i3c [0x00]))) ∧
      exec .getstatus s = .next (settle (emit { s with free := s.free + 1 } (.i3c (leBytes 2 (Config.targetStatus s.free).toNat)))) ∧
      exec .getmwl s = .next (settle (emit s (.i3c (leBytes 2 s.pip.mwl).reverse))) ∧
      exec .getmrl s = .next (settle (emit s (.i3c (leBytes 2 s.pip.mrl).reverse))) ∧
      (∀ n : BitVec 16, exec (.setmwl n) s = .next (settle (emit { s with pip := { s.pip with mwl := n.toNat } } (.i3c [])))) ∧
      (∀ n : BitVec 16, exec (.setmrl n) s = .next (settle (emit { s with pip := { s.pip with mrl := n.toNat } } (.i3c []))))) ∧
    (∀ (a : BitVec 7) (off : W32), i3cHere s a.toNat = true →
      let bad (n : Nat) (d : List Byte) (u : State) : State := count { u with pip := { u.pip with reply := some (leBytes 1 n ++ d) } } pipBase 1 1
      let r4 := ctlRead s (whoNum .i3c) off.toNat false
      let r8 := ctlRead s (whoNum .i3c) off.toNat true
      (ctlOk s off.toNat 4 = true → exec (.i3cRead4 a off) s = .next (settle (bad 0 (leBytes 4 r4.2) r4.1))) ∧
      (ctlOk s off.toNat 8 = true → exec (.i3cRead8 a off) s = .next (settle (bad 0 (leBytes 8 r8.2) r8.1))) ∧
      (ctlOk s off.toNat 4 = false → exec (.i3cRead4 a off) s = .next (settle (bad 1 [] s))) ∧
      (ctlOk s off.toNat 8 = false → exec (.i3cRead8 a off) s = .next (settle (bad 1 [] s))) ∧
      (off.toNat ≠ pipBase + 0x10 → off.toNat ≠ pipBase + 0x18 →
        (∀ d : W32, exec (.i3cWrite4 a off d) s = .next (settle (bad 1 [] s))) ∧
        (∀ d : W64, exec (.i3cWrite8 a off d) s = .next (settle (bad 1 [] s)))) ∧
      (off.toNat = pipBase + 0x10 ∨ off.toNat = pipBase + 0x18 →
        let u := dropHold s (latchKey (whoNum .i3c) pipBase) off.toNat
        let v (x : Nat) := regPut u off.toNat (BitVec.ofNat 64 (fldsWrite (fldsPip (off.toNat - pipBase)) (regGet u off.toNat).toNat x))
        (∀ d : W32, exec (.i3cWrite4 a off d) s = .next (settle (bad 0 [] (v d.toNat)))) ∧
        (∀ d : W64, exec (.i3cWrite8 a off d) s = .next (settle (bad 0 [] (v d.toNat)))))) ∧
    (∀ (a : BitVec 7) (r : List Byte), i3cHere s a.toNat = true → s.pip.reply = some r →
      exec (.privateRead a) s = .next (settle (emit { s with pip := { s.pip with reply := none } } (.i3c r)))) ∧
    (∀ m : Nat, m = fget s (pipBase + 0x10) 8 0 &&& fget s (pipBase + 0x18) 8 0 →
      i3cAssigned s = true → fbit s pipBase 24 = true → m ≠ 0 → m &&& s.pip.ibiFor ≠ m ∨ s.pip.ibiAt + 10000000 ≤ s.now →
      exec .inBandInterrupt s = .next (settle (emit { s with pip := { s.pip with ibiAt := s.now, ibiFor := m } } .ibi)))

/-- In RUN, CMD_TAIL takes the value unless it runs further ahead of STN_CMD_HEAD than the ring is long, which raises notice 0x1014 and changes nothing else, and REC_HEAD takes the value; before RUN both are kept. COMMAND_ENTRY_READ reads 64 bytes at the ring place of STN_CMD_HEAD, advances it modulo 2^32, and keeps a good entry for its start; an entry that failed, was poisoned or breaks R88 completes with BAD_COMMAND. COMPLETION_RECORD and NOTICE_RECORD write the record that waits first, 32 bytes at the place of STN_REC_TAIL with its phase bit, and advance it. Beside its rules it rests on choices and readings of the model itself: log entries 77. -/
def Obligations.HostQueues : Prop :=
  (∀ (v : W32) (s : State), let ahead := (v.toNat + 2 ^ 32 - cmdHead s) % 2 ^ 32
      hostReach s = true →
      (bootMode s = 2 → ahead ≤ ringSize s → exec (.cmdTail v) s = .next (settle { s with cmd := { s.cmd with cmdTail := v.toNat } })) ∧
      (bootMode s = 2 → ringSize s < ahead →
        exec (.cmdTail v) s = .next (settle (notice s 0x1014 0 0xFFFF 0xFF (v.toNat + cmdHead s * 2 ^ 32)))) ∧
      (bootMode s = 2 → exec (.recHead v) s = .next (settle { s with cmd := { s.cmd with recHead := v.toNat } })) ∧
      (bootMode s ≠ 2 →
        exec (.cmdTail v) s = .next (settle { s with cmd := { s.cmd with kept := s.cmd.kept ++ [(0, v.toNat)] } }) ∧
        exec (.recHead v) s = .next (settle { s with cmd := { s.cmd with kept := s.cmd.kept ++ [(1, v.toNat)] } }))) ∧
  (∀ (d : HostData) (s : State), let x := cmdHead s
      let a := getField (regGet s (stnBase + 0x1000)) 63 6 * 64 + 64 * (x % ringSize s)
      let u := fset (emit s (.hostRead a 64)) (stnBase + 0x1008) 63 32 ((x + 1) % 2 ^ 32)
      inRun s = true → ringOn s = true → busMaster s = true → cmdHead s ≠ s.cmd.cmdTail → d.bytes.length = 64 →
      (d.poison = [] → entryOk d.bytes = true → exec (.commandEntryRead d false) s =
        .next (settle { u with cmd := { u.cmd with entries := u.cmd.entries ++ [⟨x, d.bytes, u.cmd.reads⟩], reads := u.cmd.reads + 1 } })) ∧
      (d.poison = [] → entryOk d.bytes = false →
        exec (.commandEntryRead d false) s = .next (settle (produce u x (leAt d.bytes 4 4) stBadCommand 0 0))) ∧
      exec (.commandEntryRead d true) s = .next (settle (produce u x 0 stBadCommand 0 1))) ∧
  (∀ (c : Completion) (rest : List Completion) (s : State), let x := recTail s
      let a := (regGet s (stnBase + 0x1010)).toNat + 32 * (x % recSize s)
      recRoom s = true → s.cmd.done = c :: rest → (∀ n ∈ s.cmd.notices, c.stamp < n.stamp) →
      exec .completionRecord s = .next (settle (fset
        (emit { s with cmd := { s.cmd with done := rest } } (.hostWrite a (leBytes 1 1 ++ leBytes 1 (1 - x / recSize s % 2) ++ c.bytes) false))
        (stnBase + 0x1018) 63 32 ((x + 1) % 2 ^ 32)))) ∧
  (∀ (n : Notice) (rest : List Notice) (s : State), let x := recTail s
      let a := (regGet s (stnBase + 0x1010)).toNat + 32 * (x % recSize s)
      let flags := 1 - x / recSize s % 2 + (2 * n.service + 4 * b2n s.cmd.lostBefore)
      recRoom s = true → s.cmd.notices = n :: rest → (∀ c ∈ s.cmd.done, n.stamp < c.stamp) →
      exec .noticeRecord s = .next (settle (fset
        (emit { s with cmd := { s.cmd with notices := rest, lostBefore := false } } (.hostWrite a (leBytes 1 2 ++ leBytes 1 flags ++ n.bytes) false))
        (stnBase + 0x1018) 63 32 ((x + 1) % 2 ^ 32))))

/-- The first entry starts and takes its effect: NOP completes with OK; FENCE completes at once when no earlier command is in progress and else waits; ABORT_PLAN completes with OK when no plan runs and else marks the plan for its next commit; UNLOAD_PLAN of a loaded handle removes the plan, of one that runs is BUSY, of an empty one BAD_HANDLE; COPY copies its units of 128 bytes and completes with their number and the poisoned groups, or with WINDOW at the first bad one; SET_PROFILE of a record without fault sets the next profile and the host cap, else is REJECTED with reason 9 and the lowest offset; QUERY writes the shape table or free bytes to the host and completes with their number. Beside its rules it rests on choices and readings of the model itself: log entries 77, 78, 79. -/
def Obligations.HostCommands : Prop :=
  (∀ (e : Entry64) (rest : List Entry64) (s : State), let u := s.started e rest
      s.nextEntry 0 e rest → exec .nop s = .next (settle (endActive u (activeOf e) stOk 0 0))) ∧
  (∀ (e : Entry64) (rest : List Entry64) (s : State), s.cmd.entries = e :: rest → leAt e.bytes 0 1 = 6 →
      (s.cmd.active = [] → (∀ x ∈ rest, e.num ≤ x.num) → exec .fence s =
        .next (settle (produce { s with cmd := { s.cmd with entries := rest, active := [] } } e.index (leAt e.bytes 4 4) stOk 0 0))) ∧
      (∀ b r, s.cmd.active = b :: r → b.op ≠ 6 → exec .fence s = .next (settle (s.started e rest)))) ∧
  (∀ (e : Entry64) (rest : List Entry64) (s : State), let u := s.started e rest
      s.nextEntry 3 e rest →
      (s.run = none → exec .abortPlan s = .next (settle (endActive u (activeOf e) stOk 0 0))) ∧
      (∀ r, s.run = some r → exec .abortPlan s = .next (settle { u with run := some { r with abort := true } }))) ∧
  (∀ (e : Entry64) (rest : List Entry64) (s : State), let u := s.started e rest
      let a := activeOf e
      s.nextEntry 4 e rest → loadingH s a.handle = false →
      ((planIn s a.handle).isSome = true → handleOk a.handle = true → (∀ r, s.run = some r → r.handle ≠ a.handle) →
        exec .unloadPlan s = .next (settle (endActive { u with plans := tdel u.plans a.handle } a stOk 0 0))) ∧
      ((planIn s a.handle).isSome = true → handleOk a.handle = true → (∃ r, s.run = some r ∧ r.handle = a.handle) →
        exec .unloadPlan s = .next (settle (endActive u a stBusy 0 0))) ∧
      ((planIn s a.handle).isSome = false ∨ handleOk a.handle = false →
        exec .unloadPlan s = .next (settle (endActive u a stBadHandle 0 0)))) ∧
  (∀ (e : Entry64) (rest : List Entry64) (src : HostData) (s : State), let u := s.started e rest
      let a := activeOf e
      let c := (List.range (copyLen a / 128)).foldl (copyUnit (copySrc a) (copyDst a) (hostBytes src)) ⟨u, 0, 0, none, false⟩
      s.nextEntry 5 e rest → s.run = none → (inHostWin (copySrc a) = true → busMaster s = true ∧ src.bytes.length = copyLen a) →
      (copyLen a % 128 ≠ 0 → exec (.copy src) s = .next (settle (endActive u a stBadCommand 0 0))) ∧
      (copyLen a % 128 = 0 → withheldFrom u 4096 (copySrc a) (copyLen a) = false →
        exec (.copy src) s = .next (settle
          (endActive c.s a (if c.bad then stWindow else stOk) 0 (c.copied % 2 ^ 48 + Nat.min 0xFFFF c.groups * 2 ^ 48))))) ∧
  (∀ (e : Entry64) (rest : List Entry64) (rec : HostData) (s : State), let a := activeOf e
      let u := readHost (s.started e rest) (leAt e.bytes 16 8) (profileRead a)
      let p := profileOf rec.bytes
      s.nextEntry 7 e rest → busMaster s = true → rec.bytes.length = profileRead a →
      (profileFaults rec.bytes (leAt e.bytes 24 8) rec.poison = [] → exec (.setProfile rec) s = .next (settle
        (endActive (setWant { u with pwr := { u.pwr with profNext := some p } } 2 (limW p.cap)) a stOk 0 0))) ∧
      (∀ x r, profileFaults rec.bytes (leAt e.bytes 24 8) rec.poison = x :: r → exec (.setProfile rec) s = .next (settle
        (endActive u a stRejected 0 (9 + r.foldl Nat.min x * 2 ^ 32))))) ∧
  (∀ (e : Entry64) (rest : List Entry64) (s : State), let a := activeOf e
      let u := s.started e rest
      let v := { u with free := u.free + 1 }
      let d := (List.range (Nat.min (leAt e.bytes 24 8) (Config.freeChoice u.free 0x100000000))).map fun i => Config.freeByte u.free i
      s.nextEntry 8 e rest →
      (leAt e.bytes 8 2 = 0 → exec .query s = .next (settle (endActive
        (writeHost u (leAt e.bytes 16 8) ((shapeTable u).take (leAt e.bytes 24 8))) a stOk 0
        ((shapeTable u).take (leAt e.bytes 24 8)).length))) ∧
      (leAt e.bytes 8 2 = 1 ∨ leAt e.bytes 8 2 = 2 → exec .query s = .next (settle (endActive
        (writeHost v (leAt e.bytes 16 8) d) a stOk 0 d.length))) ∧
      (2 < leAt e.bytes 8 2 → exec .query s = .next (settle (endActive u a stBadCommand 0 0))))

/-- LOAD_PLAN into an empty handle that no other load uses begins the copy of its image; a used or unlisted handle is BAD_HANDLE, operands outside R66 are BAD_COMMAND. An image whose bytes are whole and pass every check is loaded and completes with OK; one that fails ends the command with the status and detail of its check, or with DIGEST and the first poisoned group. LAUNCH_PLAN of a loaded plan that passes the checks of R68 sets every tower's split, locks the windows, applies the pins and holds the plan until its start time; PLAN_START then applies the limits and the port weights, and starts the share of every core that takes part. Beside its rules it rests on choices and readings of the model itself: log entries 75, 76, 77, 83, 97. -/
def Obligations.PlanCommands : Prop :=
  (∀ (e : Entry64) (rest : List Entry64) (s : State), let u := s.started e rest
      let a := activeOf e
      s.cmd.entries = e :: rest → leAt e.bytes 0 1 = 1 →
      (handleOk a.handle = true → planIn s a.handle = none → loadingOther u a = false →
        (loadOperandsOk a = true → exec .loadPlan s = .next (settle (readHost u (loadFrom a) (loadSize a)))) ∧
        (loadOperandsOk a = false → exec .loadPlan s = .next (settle (endActive u a stBadCommand 0 0)))) ∧
      (handleOk a.handle = false ∨ (planIn s a.handle).isSome = true ∨ loadingOther u a = true →
        exec .loadPlan s = .next (settle (endActive u a stBadHandle 0 0)))) ∧
  (∀ (index : W32) (d : HostData) (a : Active) (s : State), let v := memWrite s (loadDest a) (hostBytes d)
      let bad := d.poison.filter fun g => 32 * g < loadSize a
      loadAt s index.toNat = some a → d.bytes.length = loadSize a → busMaster s = true →
      (∀ p, bad = [] → checkPlan v d.bytes (loadSize a) = .ok p → exec (.planImageCopied index d) s =
        .next (settle (endActive { v with plans := tput v.plans a.handle p } a stOk 0 0))) ∧
      (∀ x, bad = [] → checkPlan v d.bytes (loadSize a) = .error x →
        exec (.planImageCopied index d) s = .next (settle (loadFailed v a x.1 x.2))) ∧
      (∀ g r, bad = g :: r → exec (.planImageCopied index d) s =
        .next (settle (loadFailed v a stDigest (1 + 32 * r.foldl Nat.min g * 2 ^ 32))))) ∧
  (∀ (e : Entry64) (rest : List Entry64) (p : Plan) (s : State), let a := activeOf e
      let u := s.started e rest
      let j := readJobs u
      let defs := jobDefs j.2 (j.2.length / 64)
      let v := applyPins (lockWindows ((List.range 16).foldl (fun s t => setPoolUnits s t (p.pools.getD t 0)) j.1) 1) p
      s.nextEntry 2 e rest → handleOk a.handle = true → loadingH s a.handle = false → planIn s a.handle = some p → s.run = none →
      rcvBusy s = false → p.stale = false → leAt e.bytes 12 4 < p.stepCount → (p.fabric = true → fabricReason u p = none) →
      badJob j.1 p j.2 = none →
      exec .launchPlan s = .next (settle { v with
        run := some { handle := a.handle, tag := a.tag, num := a.num, iters := leAt e.bytes 16 4, startAt := leAt e.bytes 24 8,
                      started := false, stepIdx := leAt e.bytes 12 4, iter := 0, stepNo := leAt e.bytes 20 4, stepStart := 0,
                      abort := false, rel := [], sigs := [], held := false, toPark := [], toResume := [], ending := none }
        qnc := { v.qnc with defs := defs, jobs := [], tries := [], late := false } })) ∧
  (∀ (r : Run) (p : Plan) (s : State), let u := loadWeights (launchLimits s p) p
      let v := { u with routers := [], run := some { r with started := true, stepStart := u.now } }
      s.run = some r → runPlan s = some p → r.started = false → r.ending = none → r.startAt ≤ s.now →
      exec .planStart s = .next (settle (commitTags (((List.range 4096).filter (hasShare v)).foldl firstShare v))))

/-- When every share has arrived, nothing the step issued is under way, no commit is barred and no due job is late, STEP_COMMIT performs the commit: everything takes effect together, then the plan ends with OK after its last step, with ABORTED when one was asked for, or goes on to its next step. A late job makes the commit wait and counts once. STEP_WATCHDOG after deadline plus watchdog_ns ends the plan with TIMEOUT. REPLAY of a faulted core starts its next attempt; with an error it is the error that the row names: of a running core, with a byte that fails its parity check, class 0x02 or 0x03 or the parity cases of the L1, a fault of an array that is uncontained, or an error of the attention engine; a byte that passes its check is no error. An uncorrectable error of a scale table that the commit reads ends the plan in place of the commit. SPARE_SUBSTITUTION fences the core after its second replay and starts the spare. STEP_WIDE_REPLAY counts, raises notice 0x101A, zeroes the reduction targets and starts every share again. Beside its rules it rests on choices and readings of the model itself: log entries 40, 46, 80, 81, 95. -/
def Obligations.StepRows : Prop :=
  (∀ (r : Run) (p : Plan) (e : StepEnt) (s : State), let u := settleStep s
      let b := commitBarrier u r.stepNo (p.fabric && e.scope = 1)
      let v := commitLinks (commitEffects (scaleSweep b.1) r p e)
      curEntry s = some (r, p, e) → sharesDone u = true → enginesIdle u = true → commitBarred u = false →
      (∀ lc, lateJobs u r.stepNo = [] → b.2 = true → scaleBarred b.1 = some lc →
        exec .stepCommit s = .next (settle (scaleLost b.1 lc))) ∧
      (lateJobs u r.stepNo = [] → b.2 = true → scaleBarred b.1 = none →
        (lastStep p r = true → exec .stepCommit s = .next (settle (commitQuarantine (planEnd v stOk r.stepNo 0)))) ∧
        (lastStep p r = false → r.abort = true → exec .stepCommit s = .next (settle (commitQuarantine (planEnd v stAborted r.stepNo 0)))) ∧
        (lastStep p r = false → r.abort = false →
          let j := startJobs v r.stepIdx r.stepNo
          let x := { j with run := j.run.map fun y =>
            { y with stepIdx := (nextStep p r).1, iter := (nextStep p r).2, stepNo := (r.stepNo + 1) % 2 ^ 32, stepStart := j.now,
                     rel := [], toPark := [], toResume := [], held := false } }
          let w := commitQuarantine (commitMigrations (commitTags x))
          exec .stepCommit s = .next (settle (if (w.run.map fun y => y.ending.isNone).getD false then nextShare w r else w)))) ∧
      (lateJobs u r.stepNo = [] → b.2 = false → exec .stepCommit s = .next (settle b.1)) ∧
      (lateJobs u r.stepNo ≠ [] → u.qnc.late = false →
        exec .stepCommit s = .next (settle (count { u with qnc := { u.qnc with late := true } } qncBase 3 1)))) ∧
  (∀ (r : Run) (p : Plan) (e : StepEnt) (s : State), curEntry s = some (r, p, e) →
      r.stepStart + e.dur + e.dur * p.reserve / 1000 + p.watchdog < s.now →
      exec .stepWatchdog s = .next (settle (planEnd s stTimeout r.stepNo 0))) ∧
  (∀ (core : BitVec 12) (s : State), let lc := core.toNat
      let c := coreL s lc
      c.st = .faulted → c.attempt < 2 →
      let u := haltAll s lc
      ((coreL u lc).poisonAt = none → exec (.replay core none) s =
        .next (settle (startShare (countDelay (countStn u 16 1) (lc / 256)) lc (c.attempt + 1)))) ∧
      (∀ a, (coreL u lc).poisonAt = some a → let q := resolvePoison u lc a
        exec (.replay core none) s = .next (settle
          (if q.2 then startShare (countDelay (countStn q.1 16 1) (lc / 256)) lc (c.attempt + 1) else q.1)))) ∧
  (∀ (core : BitVec 12) (s : State), let lc := core.toNat
      let pk := physCore s lc
      let pc := (coreOf s pk).pc
      let good (w : BitVec 9) : Prop := parityBit (BitVec.ofNat 8 w.toNat) = w.getLsbD 8
      (∀ (w : BitVec 9) (i : BitVec 8), ¬ good w → Live s lc →
        exec (.replay core (some ⟨0, i, w⟩)) s = .next (settle (consumeFault s lc pc 0 2 none none)) ∧
        exec (.replay core (some ⟨1, i, w⟩)) s = .next (settle (consumeFault s lc pc 0 3 none none)) ∧
        exec (.replay core (some ⟨2, i, w⟩)) s = .next (settle (parityClean s pk)) ∧
        exec (.replay core (some ⟨3, i, w⟩)) s = .next (settle (parityDirty s pk lc))) ∧
      (∀ (w : BitVec 9) (i : BitVec 8), Live s lc →
        exec (.replay core (some ⟨4, i, w⟩)) s = .next (settle (uncontained (count s (arrBlk pk 0) 5 1) pk lc 0 none)) ∧
        exec (.replay core (some ⟨5, i, w⟩)) s = .next (settle (uncontained (count s (arrBlk pk 1) 5 1) pk lc 1 none))) ∧
      (∀ (w : BitVec 9) (i : BitVec 8), ¬ good w → exec (.replay core (some ⟨6, i, w⟩)) s = .next (settle (engineParity s lc i.toNat))) ∧
      (∀ (k i : BitVec 8) (w : BitVec 9), good w → k.toNat < 4 ∨ k = 6 → exec (.replay core (some ⟨k, i, w⟩)) s = .next (settle s))) ∧
  (∀ (core : BitVec 12) (s : State), let lc := core.toNat
      let u := fenceAndSpare s (physCore s lc)
      (coreL s lc).st = .faulted → 2 ≤ (coreL s lc).attempt →
      exec (.spareSubstitution core) s = .next (settle (if (coreL u lc).st = .faulted then replayAs (attRestart u lc) lc 0 else u))) ∧
  (∀ (cause tower : BitVec 4) (idx : BitVec 9) (r : Run) (p : Plan) (e : StepEnt) (s : State), let pk := tower.toNat * 272 + idx.toNat
      let wide (s : State) : State :=
        let s := notice (countStn s 16 1) 0x101A 0 0xFFFF 0xFF (cause.toNat + tower.toNat * 2 ^ 8 + idx.toNat * 2 ^ 16)
        let s := zeroTargets { s with llc := { s.llc with redQ := [], redPoison := [] } } p e
        let ls := s.llc.lines.map fun l => (l.1, { l.2 with reduced := false, withheld := 0 })
        let s := { s with llc := { s.llc with lines := ls, redPoison := [] }, run := s.run.map fun r => { r with rel := [], sigs := [] } }
        (List.range 4096).foldl restartShare s
      curEntry s = some (r, p, e) → sharesDone s = true → idx.toNat < 272 →
      (cause = 1 ∧ pk ∈ s.llc.redPoison ∨ cause = 2 ∧ (∃ l ∈ s.llc.lines, l.2.withheld ≠ 0 ∧ lineSlice s l.1 = pk) →
        exec (.stepWideReplay cause tower idx) s = .next (settle (wide s))) ∧
      (∀ lc, cause = 3 → logicalCore s pk = some lc → (coreL s lc).st = .arrived → (curEntry (wideIdentity s pk)).isSome = true →
        exec (.stepWideReplay cause tower idx) s = .next (settle (wide (wideIdentity s pk)))))

/-- REGISTER_WRITE of 8 bytes, or of the low 4 bytes of a 32-bit register, stores the fields that take it and starts what the register starts; the low half of a 64-bit register is held, and the high half commits with a half that is held; a locked register does not change. CNT_OVF clears the flags and counters of the bits written as 1; CE_LOG_CTL with bit 8 empties the log of its block and else changes nothing. A lone high half commits the high half only. A host access of another size, misaligned, unmapped or before the host reaches the module is an Unsupported Request; of another requester it changes nothing, as does one without rights. Host reads answer in a Completion what the register shows, the low half of a 64-bit register latching the high one and a high half returning it; reads come before the write, in order. Of BAR4 the doorbells take a 4-byte write and read back their last value. Beside its rules it rests on choices and readings of the model itself: log entries 11, 12, 13, 77, 86. -/
def Obligations.RegisterWriteRows : Prop :=
  (∀ (who : Who) (off : BitVec 31) (data : W64) (b : Blk) (s : State), let g := off.toNat
      let r := g - b.base
      let w : GWrite := ⟨who, true, true, data.toNat⟩
      let u := s.unheld who b g
      s.Serves who g 8 b →
      (u.plain b r who → exec (.registerWrite ⟨who, [], false, off, 8, data⟩) s =
        .next (settle (writeStarts (u.stored b g w) b r (regGet u g).toNat w))) ∧
      (regLocked u b r who = true → exec (.registerWrite ⟨who, [], false, off, 8, data⟩) s = .next (settle u))) ∧
  (∀ (who : Who) (off : BitVec 31) (data : W64) (b : Blk) (s : State), let g := off.toNat
      let r := g - b.base
      let w : GWrite := ⟨who, true, false, data.toNat % 2 ^ 32⟩
      let u := s.touched who b g
      s.Serves who g 4 b → g % 8 = 0 →
      (isWide g = true → exec (.registerWrite ⟨who, [], false, off, 4, data⟩) s = .next (settle
        { u with ctl := { u.ctl with whold := tput u.ctl.whold (latchKey (whoNum who) b.base) (g, data.setWidth 32) } })) ∧
      (isWide g = false → u.plain b r who → exec (.registerWrite ⟨who, [], false, off, 4, data⟩) s =
        .next (settle (writeStarts (u.stored b g w) b r (regGet u g).toNat w)))) ∧
  (∀ (who : Who) (off : BitVec 31) (data : W64) (b : Blk) (x : Nat × W32) (s : State), let g := off.toNat - 4
      let r := g - b.base
      let w : GWrite := ⟨who, true, true, x.2.toNat + data.toNat % 2 ^ 32 * 2 ^ 32⟩
      let u := s.unheld who b g
      s.Serves who off.toNat 4 b → off.toNat % 8 = 4 → isWide g = true →
      tget? (s.touched who b g).ctl.whold (latchKey (whoNum who) b.base) = some x → u.plain b r who →
      exec (.registerWrite ⟨who, [], false, off, 4, data⟩) s = .next (settle (writeStarts (u.stored b g w) b r (regGet u g).toNat w))) ∧
  (∀ (who : Who) (off : BitVec 31) (data : W64) (b : Blk) (s : State), let g := off.toNat - 4
      let r := g - b.base
      let w : GWrite := ⟨who, false, true, data.toNat % 2 ^ 32 * 2 ^ 32⟩
      let u := s.touched who b g
      s.Serves who off.toNat 4 b → off.toNat % 8 = 4 →
      (isWide g = false ∨ tget? u.ctl.whold (latchKey (whoNum who) b.base) = none) → u.plain b r who →
      exec (.registerWrite ⟨who, [], false, off, 4, data⟩) s = .next (settle (writeStarts (u.stored b g w) b r (regGet u g).toNat w))) ∧
  (∀ (who : Who) (off : BitVec 31) (data : W64) (b : Blk) (s : State), let g := off.toNat
      let u := s.unheld who b g
      s.Serves who g 8 b → 0x700 ≤ g - b.base ∧ g - b.base < 0x780 → g % 8 = 0 → regLocked u b (g - b.base) who = false →
      exec (.cntOvf who off data) s = .next (settle (clearOvf u b ((g - b.base - 0x700) / 8) data))) ∧
  (∀ (who : Who) (off : BitVec 31) (data : W32) (b : Blk) (s : State), let g := off.toNat
      let u := s.touched who b g
      s.Serves who g 4 b → hasCeLog b.kind = true → g = b.base + 0x480 → regLocked u b 0x480 who = false → g % 8 = 0 → isWide g = false →
      exec (.ceLogCtl who off data) s = .next (settle (if data.toNat.testBit 8 then clearLog u b else u))) ∧
  (∀ (off : BitVec 31) (size : Nat) (data : W64) (s : State),
      size ≠ 0 → (hostReach s = false ∨ ¬ (size = 4 ∨ size = 8) ∨ ctlOk s off.toNat size = false) →
      exec (.registerWrite ⟨.host, [], false, off, size, data⟩) s = .next (settle (unsupported s false)) ∧
      exec (.registerWrite ⟨.host, [⟨false, off, size⟩], false, 0, 0, data⟩) s = .next (settle (unsupported s true))) ∧
  (∀ (who : Who) (off : BitVec 31) (size : Nat) (data : W64) (s : State), who ≠ .host →
      (¬ (size = 4 ∨ size = 8) ∨ ctlOk s off.toNat size = false ∨ (∃ b, blkOf off.toNat = some b ∧ writeRight b who = false)) →
      exec (.registerWrite ⟨who, [], false, off, size, data⟩) s = .next (settle s)) ∧
  (∀ (off : BitVec 31) (data : W64) (b : Blk) (s : State), let g := off.toNat
      let u := s.touched .host b g
      s.Serves .host g 8 b →
      exec (.registerWrite ⟨.host, [⟨false, off, 8⟩], false, 0, 0, data⟩) s =
        .next (settle (emit u (.completion 0 (leBytes 8 (regShown u g)) false)))) ∧
  (∀ (off : BitVec 31) (data : W64) (b : Blk) (s : State), let g := off.toNat
      let u := s.touched .host b g
      s.Serves .host g 4 b → g % 8 = 0 → isWide g = true →
      exec (.registerWrite ⟨.host, [⟨false, off, 4⟩], false, 0, 0, data⟩) s =
        .next (settle (emit { u with ctl := { u.ctl with rlatch := tput u.ctl.rlatch (latchKey 0 b.base) (g, BitVec.ofNat 32 (regShown u g / 2 ^ 32)) } }
          (.completion 0 (leBytes 4 (regShown u g % 2 ^ 32)) false)))) ∧
  (∀ (off : BitVec 31) (data : W64) (b : Blk) (s : State), let g := off.toNat - 4
      let u := s.touched .host b g
      s.Serves .host off.toNat 4 b → blkOf g = some b → off.toNat % 8 = 4 → isWide g = true →
      exec (.registerWrite ⟨.host, [⟨false, off, 4⟩], false, 0, 0, data⟩) s =
        .next (settle (emit u (.completion 0 (leBytes 4 (match tget? u.ctl.rlatch (latchKey 0 b.base) with
          | some (h, l) => if h = g then l.toNat else regShown u g / 2 ^ 32
          | none => regShown u g / 2 ^ 32)) false)))) ∧
  (∀ (who : Who) (rd : RegRd) (rds : List RegRd) (bar4 : Bool) (off : BitVec 31) (size : Nat) (data : W64) (s : State),
      exec (.registerWrite ⟨who, rd :: rds, bar4, off, size, data⟩) s = exec (.registerWrite ⟨who, rds, bar4, off, size, data⟩) (regRead s who rd)) ∧
  (∀ (off : BitVec 31) (data : W64) (s : State), hostReach s = true → off.toNat < 65536 → off.toNat % 4 = 0 → let v := data.toNat % 2 ^ 32
      exec (.registerWrite ⟨.host, [], true, off, 4, data⟩) s = .next (settle (
        if off.toNat = 0 then doorbell s 0 v else if off.toNat = 4 then doorbell s 1 v else s)) ∧
      exec (.registerWrite ⟨.host, [⟨true, off, 4⟩], true, 0, 0, data⟩) s = .next (settle (emit s (.completion 0 (leBytes 4 (
        if off.toNat = 0 then doorbellValue s 0 else if off.toNat = 4 then doorbellValue s 1 else 0)) false))))

/-- A served write: FABRIC_ENABLE while no plan runs and enable is 0 stores the fields that take it and enables the fabric, FABRIC_DISABLE while enable is 1 clears it and disables the fabric; STN_TOWER_RESET starts a warm reset of every tower whose bit is 1; PTH_WINDOW_CFG while unlocked sets pool_units 0 to 8; PCI_HOST_WIN_BASE and PCI_BAR2_WIN take their fields; STN_CMD_RING_CFG and STN_REC_CFG take enable, and log2_size 6 to 16 while disabled, and start at index 0 with their doorbell when enable rises; ARR_BAD_COLS by the tower's Pith marks both halves, each with its consequences. Beside its rules it rests on choices and readings of the model itself: log entries 12, 13, 15, 17, 37. -/
def Obligations.ConfigurationRows : Prop :=
  (∀ (who : Who) (data : W64) (s : State), let b : Blk := ⟨.stn, stnBase, 0, 0⟩
      let g := stnBase + 0x2000
      let u := s.unheld who b g
      s.Serves who g 8 b → s.run = none →
      (fbit s g 63 = false → exec (.fabricEnable who data) s =
        .next (settle (enableFabric (u.stored b g ⟨who, true, true, (setField data 63 63 1).toNat⟩)))) ∧
      (fbit s g 63 = true → exec (.fabricDisable who data) s =
        .next (settle (disableFabric (regPut u g (setField (regGet s g) 63 63 0)))))) ∧
  (∀ (who : Who) (towers : BitVec 16) (s : State), let b : Blk := ⟨.stn, stnBase, 0, 0⟩
      let g := stnBase + 0x3000
      let u := s.touched who b g
      s.Serves who g 4 b → exec (.stnTowerReset who towers) s = .next (settle
        ((List.range 16).foldl (fun s t => if towers.toNat.testBit t then warmReset s t 0 else s) (regPut u g (regGet s g))))) ∧
  (∀ (who : Who) (tower : BitVec 4) (data : W32) (s : State), let t := tower.toNat
      let b : Blk := ⟨.pth, pthBase t, t, 0⟩
      let g := pthBase t + 0x100
      let u := regPut (s.touched who b g) g (regGet s g)
      s.Serves who g 4 b →
      (fbit s g 31 = false → data.toNat % 16 ≤ 8 →
        exec (.pthWindowCfg who tower data) s = .next (settle (setPoolUnits u t (data.toNat % 16)))) ∧
      (fbit s g 31 = true ∨ 8 < data.toNat % 16 → exec (.pthWindowCfg who tower data) s = .next (settle u))) ∧
  (∀ (who : Who) (data : W64) (s : State), let b : Blk := ⟨.pci, pciBase, 0, 0⟩
      (let g := pciBase + 0x120
       s.Serves who g 8 b → exec (.pciHostWinBase who data) s = .next (settle (regPut (s.unheld who b g) g
         (setField (setField (regGet s g) 63 12 (getField data 63 12)) 0 0 (getField data 0 0))))) ∧
      (let g := pciBase + 0x100
       s.Serves who g 8 b → exec (.pciBar2Win who data) s =
         .next (settle (regPut (s.unheld who b g) g (setField (regGet s g) 11 0 (getField data 11 0)))))) ∧
  (∀ (who : Who) (data : W32) (s : State), let b : Blk := ⟨.stn, stnBase, 0, 0⟩
      let x := data.toNat % 32
      let en := data.toNat / 2 ^ 31
      (let g := stnBase + 0x1008
       let w := setField (regGet s g) 31 31 en
       let u := regPut (s.touched who b g) g (if ringOn s = false ∧ 6 ≤ x ∧ x ≤ 16 then setField w 4 0 x else w)
       s.Serves who g 4 b → exec (.stnCmdRingCfg who data) s = .next (settle (if ringOn s = false ∧ en = 1 then
         (let v := fset u g 63 32 0; { v with cmd := { v.cmd with cmdTail := 0 } }) else u))) ∧
      (let g := stnBase + 0x1018
       let w := setField (regGet s g) 31 31 en
       let u := regPut (s.touched who b g) g (if recOn s = false ∧ 6 ≤ x ∧ x ≤ 16 then setField w 4 0 x else w)
       s.Serves who g 4 b → exec (.stnRecCfg who data) s = .next (settle (if recOn s = false ∧ en = 1 then
         (let v := fset u g 63 32 0; { v with cmd := { v.cmd with recHead := 0 } }) else u)))) ∧
  (∀ (tower : BitVec 4) (core : BitVec 9) (arr : BitVec 1) (data : BitVec 128) (s : State), let t := tower.toNat
      let who : Who := .pith tower
      let b : Blk := ⟨.arr, arrBase t core.toNat arr.toNat, t, 2 * core.toNat + arr.toNat⟩
      let half (s : State) (r x : Nat) : State :=
        let u := regPut (s.unheld who b (b.base + r)) (b.base + r) (regGet s (b.base + r))
        let other := (regGet s (b.base + (0x28 - r))).toNat
        badColsWritten u (t * 272 + core.toNat) arr.toNat (if r = 0x10 then x + other * 2 ^ 64 else other + x * 2 ^ 64)
      let v := half s 0x10 (data.toNat % 2 ^ 64)
      core.toNat < 272 → s.Serves who (b.base + 0x10) 8 b → v.Serves who (b.base + 0x18) 8 b →
      exec (.arrBadCols who tower core arr data) s = .next (settle (half v 0x18 (data.toNat / 2 ^ 64))))

/-- For every command c and every state: the step of the state with c at the front of its queue is exec of c on the state with the rest of the queue. Beside its rules it rests on choices and readings of the model itself: log entries 1. -/
def Obligations.StepRunsFront : Prop :=
  ∀ (c : Instr) (rest : List Instr) (s : State), step { s with pending := c :: rest } = exec c { s with pending := rest }

/-- With no command waiting, no tower in warm reset, no whole millisecond passed, no read waiting for withheld bytes, no IDENT due and no withheld credit due, a step answers the state a nanosecond later, modulo 2^64, with the pins following the registers; while a correction is being slewed, 5,000 ns after its last nanosecond the step takes 2 ns or 0 and the next nanosecond of the correction. That an idle step is a nanosecond is the model's choice (DESIGN CHOICE, log entry 1). -/
def Obligations.IdleStep : Prop :=
  ∀ s : State, s.pending = [] → s.boot.resets = [] → s.fab.waitReads = [] → s.pci.waiting = [] →
    let n := if s.fab.slew = 0 ∨ s.now < s.fab.slewAt then 1 else if 0 < s.fab.slew then 2 else 0
    (s.now + n) / 1000000 = s.now / 1000000 →
    (∀ e ∈ s.fab.ports, let p := portAt s e.1
      (portState s e.1 = 3 → p.heard = true ∨ (s.now + n) % 2 ^ 64 < p.identAt + 1000) ∧
      ∀ c ∈ p.toReturn, (s.now + n) % 2 ^ 64 < c.2) →
    let later : State := { s with now := (s.now + n) % 2 ^ 64 }
    ((s.fab.slew = 0 ∨ s.now < s.fab.slewAt) → step s = .next (settle later)) ∧
    (¬ (s.fab.slew = 0 ∨ s.now < s.fab.slewAt) → step s = .next (settle { later with fab := { later.fab with
      slew := if s.fab.holdRate then s.fab.slew else if 0 < s.fab.slew then s.fab.slew - 1 else s.fab.slew + 1, slewAt := s.now + 5000 } }))

/-- For every command and every state: when the operands are well formed and fit the state, exec answers a next state; otherwise exec ends in the fault malformedOperand. No command is refused, and ordinary data never ends a run. Beside its rules it rests on choices and readings of the model itself: log entries 8. -/
def Obligations.EveryCommandAnswers : Prop :=
  ∀ (c : Instr) (s : State),
    (wellFormed c = true → s.fits c = true → ∃ t, exec c s = .next t) ∧
    (wellFormed c = false ∨ s.fits c = false → ∃ name, exec c s = .fault (.malformedOperand name))

/-- For every register of every block and every write that reaches it: a field of access code RW in a written half takes the bits written, unless the value is reserved, out of range or locked, and then keeps its value; a W1C field keeps the bits not written as 1; every other field, and every bit outside the fields, keeps its value. -/
def Obligations.RegisterFields : Prop :=
  ∀ (s : State) (b : Blk) (r : Nat) (old : W64) (w : GWrite), let v := storeValue s b r old.toNat w
    (∀ f ∈ flds b.kind b.idx r, let x := bits (w.over old.toNat) f.hi f.lo
      bits v f.hi f.lo = match f.acc with
        | .rw => if w.reaches f = true ∧ fieldTakes s b r (w.over old.toNat) f x = true then x else getField old f.hi f.lo
        | .w1c => getField old f.hi f.lo &&& (2 ^ (f.hi + 1 - f.lo) - 1 - bits w.ones f.hi f.lo)
        | _ => getField old f.hi f.lo) ∧
    (∀ hi lo, (∀ f ∈ flds b.kind b.idx r, hi < f.lo ∨ f.hi < lo) → bits v hi lo = getField old hi lo)

/-- A register write by a Pith to a block that is not of its tower, by a Quince hart outside the QNC_ and QCH_ blocks, or by the I3C target outside the PIP block, changes nothing, and a Pith or a hart reads nothing there; neither does a write by any requester but the host to an address that is misaligned, in no block, or in a tower in warm reset. A host write that BAR0 does not serve, or at such an address, is an Unsupported Request: it is counted and logged, and moves no other register but those of the alerts. Beside its rules it rests on choices and readings of the model itself: log entries 13, 86. -/
def Obligations.WriteRights : Prop :=
  (∀ (who : Who) (off : BitVec 31) (size : Nat) (data : W64) (s : State),
    (who ≠ .host → (∀ b, blkOf off.toNat = some b → writeRight b who = false) → exec (.registerWrite ⟨who, [], false, off, size, data⟩) s = .next (settle s)) ∧
    (who ≠ .host → ctlOk s off.toNat size = false → exec (.registerWrite ⟨who, [], false, off, size, data⟩) s = .next (settle s)) ∧
    (who ≠ .host → (∀ b, blkOf off.toNat = some b → readRight b who = false) → exec (.registerWrite ⟨who, [⟨false, off, size⟩], false, 0, 0, data⟩) s = .next (settle s)) ∧
    (size ≠ 0 → hostReach s = false ∨ ctlOk s off.toNat size = false →
      exec (.registerWrite ⟨.host, [], false, off, size, data⟩) s = .next (settle (unsupported s false)))) ∧
  (∀ (s : State) (g : Nat), g ∉ alertRegs → g ≠ pciBase + 0x208 → g ≠ pciBase + 0x700 → regGet (unsupported s false) g = regGet s g) ∧
  (∀ s : State, 20 ∈ (unsupported s false).pci.aer) ∧
  (∀ (t h : BitVec 4) (b : Blk), (writeRight b (.pith t) = true ↔ b.base < 0x40000000 ∧ b.tower = t.toNat) ∧
    (writeRight b (.hart h) = true ↔ b.kind = .qnc ∨ b.kind = .qch) ∧ (writeRight b .i3c = true ↔ b.kind = .pip) ∧
    readRight b (.pith t) = writeRight b (.pith t) ∧ readRight b (.hart h) = writeRight b (.hart h))

/-- An 8-byte read returns all 64 bits. A 4-byte read of the low half returns the live low half and latches the live high half; a following read of the high half of the same register returns the latch, whatever the register holds by then. A high half without a valid latch for that register is live. A low-half write is held and changes no register; a following high-half write commits both halves at one instant, without a held half it commits with the live low half, and an access of any other register of the block discards what is held. -/
def Obligations.TwoHalves : Prop :=
  (∀ (s t : State) (who g : Nat) (b : Blk), blkOf g = some b → g % 8 = 0 → isWide g = true →
    let key := latchKey who b.base
    let r := ctlRead s who g false
    (ctlRead s who g true).2 = regShown s g ∧
    r.2 = regShown s g % 2 ^ 32 ∧
    (t.ctl.rlatch = r.1.ctl.rlatch → (ctlRead t who (g + 4) false).2 = regShown s g / 2 ^ 32 % 2 ^ 32) ∧
    ((∀ h, tget? t.ctl.rlatch key = some h → h.1 ≠ g) → (ctlRead t who (g + 4) false).2 = regShown t g / 2 ^ 32) ∧
    (∀ o wide h, blkOf (o / 8 * 8) = some b → tget? s.ctl.whold key = some h → h.1 ≠ o / 8 * 8 →
      tget? (ctlRead s who o wide).1.ctl.whold key = none)) ∧
  (∀ (s t : State) (who : Who) (g : Nat) (b : Blk) (lo hi : W32), blkOf g = some b → g % 8 = 0 → isWide g = true →
    let key := latchKey (whoNum who) b.base
    let u := heldWrite s b who g false lo.toNat
    let free (x : State) : State := { x with ctl := { x.ctl with whold := tdel x.ctl.whold key } }
    u.ctl.regs = s.ctl.regs ∧ u.mem = s.mem ∧
    (t.ctl.whold = u.ctl.whold →
      heldWrite t b who (g + 4) false hi.toNat = granuleWrite (free t) b g ⟨who, true, true, lo.toNat + hi.toNat * 2 ^ 32⟩) ∧
    (tget? t.ctl.whold key = none → heldWrite t b who (g + 4) false hi.toNat = granuleWrite t b g ⟨who, false, true, hi.toNat * 2 ^ 32⟩) ∧
    (∀ o x, o / 8 * 8 ≠ g → isWide (o / 8 * 8) = true → o % 8 = 0 → tget? (heldWrite u b who o false x).ctl.whold key ≠ some (g, lo)) ∧
    (∀ old, GWrite.over ⟨who, true, true, lo.toNat + hi.toNat * 2 ^ 32⟩ old = lo.toNat + hi.toNat * 2 ^ 32) ∧
    (∀ old : W64, GWrite.over ⟨who, false, true, hi.toNat * 2 ^ 32⟩ old.toNat = old.toNat % 2 ^ 32 + hi.toNat * 2 ^ 32))

/-- Counting n events in a counter whose flag is clear adds n, unless that passes all ones: then the counter holds all ones, its flag is set, and that overflow is reported. While the flag is set nothing changes and nothing is reported. A write to the overflow register of a block clears the flags of the bits written as 1 and sets their counters to 0, and leaves the other flags and counters, and every other granule, as they are. -/
def Obligations.EventCounters : Prop :=
  (∀ (s : State) (o hi lo fo b n : Nat), hi < 64 → lo ≤ hi → b < 64 → fo ≠ o → 0 < n → let top := 2 ^ (hi + 1 - lo) - 1
    let v := fget s o hi lo
    let r := countRaw s o hi lo fo b n
    (fbit s fo b = false → v + n ≤ top → fget r.1 o hi lo = v + n ∧ fbit r.1 fo b = false ∧ r.2 = false) ∧
    (fbit s fo b = false → top < v + n → fget r.1 o hi lo = top ∧ fbit r.1 fo b = true ∧ r.2 = true) ∧
    (fbit s fo b = true → r = (s, false)) ∧
    (∀ g, g ≠ o → g ≠ fo → regGet r.1 g = regGet s g) ∧
    (∀ hi' lo', hi' < lo ∨ hi < lo' → fget r.1 o hi' lo' = fget s o hi' lo')) ∧
  (∀ (s : State) (b : Blk) (data : W64) (i : Nat), b.kind ≠ .stn → i < ovfBits b.kind b.idx 0 →
    let t := clearOvf s b 0 data
    fbit t (b.base + 0x700) i = (!data.getLsbD i && fbit s (b.base + 0x700) i) ∧
    fget t (b.base + 0x200 + 8 * i) 63 0 = (if data.getLsbD i then 0 else fget s (b.base + 0x200 + 8 * i) 63 0)) ∧
  (∀ (s : State) (b : Blk) (data : W64) (g : Nat), b.kind ≠ .stn → g ≠ b.base + 0x700 → (∀ i, i < 64 → g ≠ b.base + 0x200 + 8 * i) →
    regGet (clearOvf s b 0 data) g = regGet s g)

/-- For an offset off below 2 TiB, line n = off >> 7 lies in the channel given by the fold of n, at channel line n >> 5; for each value of n >> 5 the 32 values of n[4:0] map one to one onto the 32 channels, so an aligned 4 KiB block places one line on every channel; and the example of R306 holds. -/
def Obligations.SlowInterleave : Prop :=
  (∀ off : Nat, off < 2 ^ 41 → let n := off / 128
    slowPlace off = ((n ^^^ (n >>> 5) ^^^ (n >>> 10) ^^^ (n >>> 15) ^^^ (n >>> 20) ^^^ (n >>> 25) ^^^ (n >>> 30)) % 32, n >>> 5) ∧
    (slowPlace off).1 < 32 ∧ (slowPlace off).2 < 2 ^ 29) ∧
  (∀ q ch : Nat, ch < 32 → ∃ k < 32, (slowPlace (128 * (32 * q + k))).1 = ch ∧ (slowPlace (128 * (32 * q + k))).2 = q ∧
    ∀ j < 32, (slowPlace (128 * (32 * q + j))).1 = ch → j = k) ∧
  slowPlace (0x100001234580 - 0x100000000000) = (10, 0x1234)

/-- The columns are those of R413, each of odd weight; each check bit is the parity of the data bits of its row; the code is linear, the check bits of 0x00 are 0 and those of 0xFF are 0b01111. A stored byte with one inverted bit, data or check, decodes to the byte; with two it is uncorrectable; syndrome 0b11111 is poison, and poison with one inverted bit is uncorrectable. -/
def Obligations.SecDedCode : Prop :=
  secdedCols = [0b00111, 0b01011, 0b01101, 0b01110, 0b10101, 0b10110, 0b11001, 0b11010, 1, 2, 4, 8, 16] ∧
  (∀ c ∈ secdedCols, ((List.range 5).filter fun k => c.testBit k).length % 2 = 1) ∧
  (∀ b : Byte,
    (checkBits b).testBit 0 = (b.getLsbD 0 ^^ b.getLsbD 1 ^^ b.getLsbD 2 ^^ b.getLsbD 4 ^^ b.getLsbD 6) ∧
    (checkBits b).testBit 1 = (b.getLsbD 0 ^^ b.getLsbD 1 ^^ b.getLsbD 3 ^^ b.getLsbD 5 ^^ b.getLsbD 7) ∧
    (checkBits b).testBit 2 = (b.getLsbD 0 ^^ b.getLsbD 2 ^^ b.getLsbD 3 ^^ b.getLsbD 4 ^^ b.getLsbD 5) ∧
    (checkBits b).testBit 3 = (b.getLsbD 1 ^^ b.getLsbD 2 ^^ b.getLsbD 3 ^^ b.getLsbD 6 ^^ b.getLsbD 7) ∧
    (checkBits b).testBit 4 = (b.getLsbD 4 ^^ b.getLsbD 5 ^^ b.getLsbD 6 ^^ b.getLsbD 7) ∧ checkBits b < 32) ∧
  (∀ a b : Byte, checkBits (a ^^^ b) = checkBits a ^^^ checkBits b) ∧ checkBits 0x00 = 0 ∧ checkBits 0xFF = 0b01111 ∧
  (∀ (b : Byte) (i : Nat), i < 13 → let f := flipBit b 0 i
    decodeByte f.1 f.2 = .corrected b ∧ decodeByte (flipBit b poisonSyn i).1 (flipBit b poisonSyn i).2 = .bad ∧
    (∀ j < 13, j ≠ i → decodeByte (flipBit f.1 f.2 j).1 (flipBit f.1 f.2 j).2 = .bad)) ∧
  (∀ b : Byte, decodeByte b 0 = .clean b ∧ decodeByte b 0b11111 = .poison ∧ decodeByte b 0b11100 = .bad ∧ decodeByte b 0b10011 = .bad)

/-- After bytes are written at rest, each clean one reads back with syndrome 0, each poisoned one is 0x00 with the syndrome of poison, every byte outside them keeps its data and syndrome, and nothing but the memory changes. Writing and making an extent undefined keep the memory's canonical form. A whole line of clean data written to the slow tier reads back as it was written. -/
def Obligations.StoresAtRest : Prop :=
  (∀ (l : List PByte) (s : State) (a : Nat), let t := memWrites l s a
    t = { s with mem := t.mem } ∧
    (∀ i (h : i < l.length), t.mem.read (a + i) = (if l[i].2 then 0 else l[i].1) ∧ t.mem.syndrome (a + i) = (if l[i].2 then poisonSyn else 0)) ∧
    (∀ x, x < a ∨ a + l.length ≤ x → t.mem.read x = s.mem.read x ∧ t.mem.syndrome x = s.mem.syndrome x) ∧
    (s.mem.wf = true → t.mem.wf = true)) ∧
  (∀ (m : Mem) (lo len stamp : Nat), m.wf = true → (m.forget lo len stamp).wf = true) ∧
  (∀ (s : State) (off : Nat) (d : List Byte), off < 2 ^ 41 → off % 128 = 0 → d.length = 128 → let la := 0x100000000000 + off
    (memRead (memWrite s la (clean d)) la 128).2 = clean d)

/-- Every control register reads its reset value of the tables, and configuration space the values of R477 (among them: the ring and record sizes of 2^6, the full cap level 0x40, the power profile 500, 500 and 11500 W); memory is in its canonical form and holds only undefined extents; nothing waits, nothing runs, nothing is loaded; and the pins agree with the registers. Beside its rules it rests on choices and readings of the model itself: log entries 4, 5, 6, 97. -/
def Obligations.ResetState : Prop :=
  let s := State.reset
  (∀ o, regGet s o = regReset o) ∧
  fget s (stnBase + 0x1008) 4 0 = 6 ∧ fget s (stnBase + 0x1018) 4 0 = 6 ∧ fget s pwmBase 6 0 = 0x40 ∧
  fget s (pwmBase + 0x30) 15 0 = 500 ∧ fget s (pwmBase + 0x30) 31 16 = 500 ∧ fget s (pwmBase + 0x30) 63 48 = 11500 ∧
  s.mem.wf = true ∧ s.mem.cells = [] ∧ s.mem.syn = [] ∧ s.pending = [] ∧ s.plans = [] ∧ s.run = none ∧ s.cmd.entries = [] ∧
  s.boot.pwrgd = false ∧ s.PinsInv ∧
  cfgRead s 0x00 = 0x4B161DF7 ∧ cfgRead s 0x08 = 0x120000B0 ∧ cfgRead s 0x2C = 0x00011DF7 ∧ bits (cfgRead s 0x0C) 23 16 = 0 ∧
  cfgRead s 0x34 = 0x40 ∧ bits (cfgRead s 0x3C) 15 8 = 0 ∧ bits (cfgRead s 0x50) 23 20 = 0 ∧ bits (cfgRead s 0x54) 2 0 = 2 ∧
  (cfgRead s 0x54).testBit 5 = true ∧ (cfgRead s 0x54).testBit 28 = false ∧ bits (cfgRead s 0x5C) 11 10 = 0 ∧
  bits (cfgRead s 0x74) 3 0 = 0xE ∧ bits (cfgRead s 0x74) 17 16 = 3 ∧
  cfgRead s 0x144 + cfgRead s 0x148 * 2 ^ 32 = Config.serial.toNat ∧
  (∀ e ∈ [(0x100, 0x01), (0x140, 0x03), (0x150, 0x19), (0x170, 0x25), (0x180, 0x26), (0x1C0, 0x27), (0x200, 0x2A), (0x220, 0x31),
      (0x260, 0x15), (0x280, 0x1F), (0x2A0, 0x2E)], bits (cfgRead s e.1) 15 0 = e.2)

/-- Whatever the command and whatever the state before it: once the pins are in their RUN functions, every step that answers a next state leaves RDY high exactly when STN_REC_TAIL differs from REC_HEAD, and ALERT_L asserted exactly when PIP_ALERT_STATUS AND PIP_ALERT_MASK is nonzero. In particular every step keeps this invariant. The state at reset has it (ResetState). Beside its rules it rests on choices and readings of the model itself: log entries 9. -/
def Obligations.PinsFollow : Prop :=
  ∀ s t : State, step s = .next t → t.PinsInv

/-- While fewer than 256 notices wait, a notice of no alert category is queued with its code, service, source, tower, the step in progress, the next seq and the time, and changes nothing else. While 256 wait, none is queued, the next one written will carry lost_before, the drop counts in STN_NOTICE_DROPS and sets bit 7 of PIP_ALERT_STATUS, and it consumes a seq value. A notice of an alert category sets its bit in either case. Beside its rules it rests on choices and readings of the model itself: log entries 82. -/
def Obligations.NoticeQueue : Prop :=
  (∀ (s : State) (code service source tower detail : Nat), alertBit code = none → s.cmd.notices.length < 256 →
    notice s code service source tower detail = { s with cmd := { s.cmd with
      seq := (s.cmd.seq + 1) % 2 ^ 32, stamp := s.cmd.stamp + 1,
      notices := s.cmd.notices ++ [⟨s.cmd.stamp, service, code, source, tower, curStep s, s.cmd.seq, s.now, detail⟩] } }) ∧
  (∀ (s : State) (code service source tower detail : Nat), alertBit code = none → 256 ≤ s.cmd.notices.length →
    fbit s (stnBase + 0x700) 21 = false → fget s (stnBase + 0x1068) 63 0 < 2 ^ 64 - 1 → fget s (pipBase + 0x200) 63 0 < 2 ^ 64 - 1 →
    let t := notice s code service source tower detail
    t.cmd = { s.cmd with seq := (s.cmd.seq + 1) % 2 ^ 32, lostBefore := true } ∧
    fget t (stnBase + 0x1068) 63 0 = fget s (stnBase + 0x1068) 63 0 + 1 ∧ fbit t (pipBase + 0x10) 7 = true) ∧
  (∀ (s : State) (code service source tower detail b : Nat), alertBit code = some b →
    fbit (notice s code service source tower detail) (pipBase + 0x10) b = true)

/-- Recording a fault writes logical_core, pc, slot, attempt (0, 1 or 2), class and valid = 1 into CORE_FAULT_INFO and the device and the 48-bit address into CORE_FAULT_ADDR, and changes no other register and nothing else. A window violation is recorded and counted, and stops the plan with WINDOW, the core and the address in the detail; without a data address the record names the pseudo address of R127 with device 0xFFFF. -/
def Obligations.FaultRecord : Prop :=
  (∀ (s : State) (lc pc slot cls dev addr : Nat), lc < 4096 → slot < 4 → cls < 256 → dev < 2 ^ 16 →
    let base := coreBase (physCore s lc / 272) (physCore s lc % 272)
    let t := recordFault s lc pc slot cls dev addr
    (fget t (base + 0x100) 43 32 = lc ∧ fget t (base + 0x100) 31 20 = pc % 4096 ∧ fget t (base + 0x100) 19 18 = slot ∧
      fget t (base + 0x100) 17 16 = Nat.min (coreOf s (physCore s lc)).attempt 2 ∧
      fget t (base + 0x100) 15 8 = cls ∧ fget t (base + 0x100) 0 0 = 1) ∧
    (fget t (base + 0x108) 63 48 = dev ∧ fget t (base + 0x108) 47 0 = addr % 2 ^ 48) ∧
    (∀ g, g ≠ base + 0x100 → g ≠ base + 0x108 → regGet t g = regGet s g) ∧ t.still = s.still) ∧
  (∀ (s : State) (lc pc slot cls dev : Nat) (addr : Option Nat),
    let base := coreBase (physCore s lc / 272) (physCore s lc % 272)
    let a := addr.getD (0x7FFF00000000 + pc * 32 + slot * 8)
    let u := count (recordFault s lc pc slot cls (if addr.isSome then dev else 0xFFFF) a) base 1 1
    windowFault s lc pc slot cls dev addr = stopPlan u stWindow (lc + a % 2 ^ 48 * 2 ^ 16))

/-- s0 reads 0 and p0 reads all ones, and a result for s0 or p0 is discarded. A result for any other s register replaces it, with the poison tag it carries or none. A result for p or v replaces exactly the bits or lanes of its mask and keeps the others at what the register holds as it lands. Every other register, and everything else in the core, is unchanged. -/
def Obligations.LandingRules : Prop :=
  (∀ c : Core, c.sGet 0 = 0 ∧ c.pGet 0 = BitVec.allOnes 64) ∧
  (∀ (c : Core) (v m : W64) (t : Option Nat), c.land (.sreg 0 v t) = c ∧ c.land (.preg 0 m v) = c) ∧
  (∀ (c : Core) (d : Nat) (v : W64) (t : Option Nat), d ≠ 0 → let u := c.land (.sreg d v t)
    u.sGet d = v ∧ tget? u.sTag d = t ∧ (∀ n, n ≠ d → u.sGet n = c.sGet n ∧ tget? u.sTag n = tget? c.sTag n) ∧
    u = { c with s := u.s, sTag := u.sTag }) ∧
  (∀ (c : Core) (d : Nat) (m v : W64), d ≠ 0 → let u := c.land (.preg d m v)
    (∀ l, (u.pGet d).getLsbD l = if m.getLsbD l then v.getLsbD l else (c.pGet d).getLsbD l) ∧
    (∀ n, n ≠ d → u.pGet n = c.pGet n) ∧ u = { c with p := u.p }) ∧
  (∀ (c : Core) (d : Nat) (m : W64) (v : VReg) (g : Tbl Nat), let u := c.land (.vreg d m v g)
    (∀ l < 64, lane (u.vGet d) l = if m.getLsbD l then lane v l else lane (c.vGet d) l) ∧
    (∀ n, n ≠ d → u.vGet n = c.vGet n) ∧ u = { c with v := u.v, vTag := u.vTag }) ∧
  (∀ (f : Nat → W32), ∀ l < 64, lane (ofLanes f) l = f l)

/-- The states in which the register instructions end (wrote, flying, passed), with the pins following, change only the core that issued: every other core, memory with every byte and syndrome, every control register but those that driving the pins moves (PIP_ALERTS with its overflow flag, and where that overflow's notice is dropped STN_NOTICE_DROPS with its flag and PIP_ALERT_STATUS), every plan, queue and engine are as before. In the core itself a result in flight changes only the pc, the cycle count, the delay slot and the results in flight; a result that is architectural in the next cycle changes in addition only the register it names. -/
def Obligations.FrameOfResults : Prop :=
  (∀ (s : State) (i : Ins) (t : State), (∃ (w : RegW) (L : Nat) (k : Bool) (f : Core → Core), t = s.wrote i w ∨ t = s.flying i L w k ∨ t = s.passed i f) →
    let u := settle t
    (∀ n, n ≠ physCore s i.core.toNat → coreOf u n = coreOf s n) ∧
    u.still = { s with cores := u.cores }.still ∧
    (∀ a, u.mem.read a = s.mem.read a ∧ u.mem.syndrome a = s.mem.syndrome a) ∧
    (∀ g, g ∉ alertRegs → regGet u g = regGet s g)) ∧
  (∀ (s : State) (i : Ins) (w : RegW), let c := s.coreFor i; let u := coreOf (settle (s.wrote i w)) (physCore s i.core.toNat)
    u = { c with pc := c.nextPc, delay := none, cyc := c.cyc + 1, s := u.s, sTag := u.sTag, p := u.p, v := u.v, vTag := u.vTag } ∧
    (∀ n, w.reg ≠ .s n → u.sGet n = c.sGet n) ∧ (∀ n, w.reg ≠ .p n → u.pGet n = c.pGet n) ∧
    (∀ n, w.reg ≠ .v n → u.vGet n = c.vGet n)) ∧
  (∀ (s : State) (i : Ins) (L : Nat) (w : RegW) (k : Bool), let c := s.coreFor i
    coreOf (settle (s.flying i L w k)) (physCore s i.core.toNat) =
      { c with pc := c.nextPc, delay := none, cyc := c.cyc + 1, fly := [⟨c.cyc + L, w, k⟩] })

/-- For every KCI instruction (MGANG as plan code): a core that does not run takes none, and nothing changes; an instruction that does not close its bundle waits in the core's stream; and an instruction alone in its bundle whose guard is false has no effect, raises no fault, occupies no queue entry and increments no token: the core passes the bundle, and after a branch that is not taken the next bundle is a delay bundle. Beside its rules it rests on choices and readings of the model itself: log entries 25, 90. -/
def Obligations.QuietIssue : Prop :=
  ∀ (o : KOp) (i : Ins) (s : State) (tower : BitVec 4) (core : BitVec 9) (found : List GangHit), let c := s.coreFor i
    (c.st ≠ .run → rowTakes o i = true → exec (kciInstr o i tower core found) s = .next (settle s)) ∧
    (c.st = .run → rowTakes o i = true → c.eng = [] → i.last = false → (∀ x ∈ c.stream, x.ins.last = false) → slotFree i c.stream = true →
      exec (kciInstr o i tower core found) s = .next (settle (setCore s (physCore s i.core.toNat) { c with stream := c.stream ++ [⟨o, i⟩] }))) ∧
    (Ready o i s → executes c o i = false → c.nextPc < bundleCount s i.core.toNat → physCore s i.core.toNat ∉ s.stone.parityAt →
      exec (kciInstr o i tower core found) s = .next (settle (s.passed i fun d => { d with delay := if isBranch o then some none else none })))

/-- For every opcode and every value of the guard, the three sources, the destination and the immediate: the word of the layout of R103, in the slot of its opcode, spells that opcode and gives each field back (the two rows of ROWMODE tell apart by imm[0]). Conversely a word that spells an opcode in its slot is the word of that opcode with its fields, so no bit of a word goes unread; a word spells at most one opcode; opcodes of the C, M, V and X slots lie in 0x01 to 0x3F, 0x40 to 0x7F, 0x80 to 0xBF and 0xC0 to 0xFF, and opcode 0x00 spells none. Beside its rules it rests on choices and readings of the model itself: log entries 90. -/
def Obligations.KciWords : Prop :=
  (∀ (i : Ins) (o : KOp) (pg : BitVec 3) (gn : Bool) (d a b c : BitVec 5) (imm : BitVec 32), i.word = kciWord o pg gn d a b c imm →
    i.slot.toNat = slotOf o → (o = .rowmodeEnter → imm.getLsbD 0 = true) → (o = .rowmodeExit → imm.getLsbD 0 = false) →
    i.op = some o ∧ i.pg = pg ∧ i.gn = gn ∧ i.d = d ∧ i.a = a ∧ i.b = b ∧ i.c = c ∧ i.imm = imm) ∧
  (∀ (i : Ins) (o : KOp), i.op = some o →
    i.word = kciWord o i.pg i.gn i.d i.a i.b i.c i.imm ∧ i.slot.toNat = slotOf o ∧ ∀ o', i.spells o' = true → o' = o) ∧
  (∀ i : Ins, i.opcode = 0 → i.op = none) ∧
  (∀ o : KOp, slotOf o < 4 ∧ 0 < opcodeOf o ∧ opcodeOf o / 0x40 = slotOf o ∧ opcodeOf o < 0x100)
end

