-- ==== Sys2Proof/Laws/State.lean ====
section
/-! SUPPORT. The basic updates of State, field by field: each leaves every field but its own as it was. -/

namespace Sys2Proof.Machine

/-! ### regPut -/

@[simp] theorem regPut_pending (s : State) (o : Nat) (v : W64) : (regPut s o v).pending = s.pending := rfl
@[simp] theorem regPut_out (s : State) (o : Nat) (v : W64) : (regPut s o v).out = s.out := rfl
@[simp] theorem regPut_free (s : State) (o : Nat) (v : W64) : (regPut s o v).free = s.free := rfl
@[simp] theorem regPut_now (s : State) (o : Nat) (v : W64) : (regPut s o v).now = s.now := rfl
@[simp] theorem regPut_mem (s : State) (o : Nat) (v : W64) : (regPut s o v).mem = s.mem := rfl
@[simp] theorem regPut_llc (s : State) (o : Nat) (v : W64) : (regPut s o v).llc = s.llc := rfl
@[simp] theorem regPut_cores (s : State) (o : Nat) (v : W64) : (regPut s o v).cores = s.cores := rfl
@[simp] theorem regPut_routers (s : State) (o : Nat) (v : W64) : (regPut s o v).routers = s.routers := rfl
@[simp] theorem regPut_plans (s : State) (o : Nat) (v : W64) : (regPut s o v).plans = s.plans := rfl
@[simp] theorem regPut_run (s : State) (o : Nat) (v : W64) : (regPut s o v).run = s.run := rfl
@[simp] theorem regPut_cmd (s : State) (o : Nat) (v : W64) : (regPut s o v).cmd = s.cmd := rfl
@[simp] theorem regPut_att (s : State) (o : Nat) (v : W64) : (regPut s o v).att = s.att := rfl
@[simp] theorem regPut_ringTaken (s : State) (o : Nat) (v : W64) : (regPut s o v).ringTaken = s.ringTaken := rfl
@[simp] theorem regPut_ringLow (s : State) (o : Nat) (v : W64) : (regPut s o v).ringLow = s.ringLow := rfl
@[simp] theorem regPut_chans (s : State) (o : Nat) (v : W64) : (regPut s o v).chans = s.chans := rfl
@[simp] theorem regPut_qnc (s : State) (o : Nat) (v : W64) : (regPut s o v).qnc = s.qnc := rfl
@[simp] theorem regPut_fab (s : State) (o : Nat) (v : W64) : (regPut s o v).fab = s.fab := rfl
@[simp] theorem regPut_pwr (s : State) (o : Nat) (v : W64) : (regPut s o v).pwr = s.pwr := rfl
@[simp] theorem regPut_boot (s : State) (o : Nat) (v : W64) : (regPut s o v).boot = s.boot := rfl
@[simp] theorem regPut_pci (s : State) (o : Nat) (v : W64) : (regPut s o v).pci = s.pci := rfl
@[simp] theorem regPut_pip (s : State) (o : Nat) (v : W64) : (regPut s o v).pip = s.pip := rfl
@[simp] theorem regPut_stone (s : State) (o : Nat) (v : W64) : (regPut s o v).stone = s.stone := rfl

/-! ### fset -/

@[simp] theorem fset_pending (s : State) (o hi lo v : Nat) : (fset s o hi lo v).pending = s.pending := rfl
@[simp] theorem fset_out (s : State) (o hi lo v : Nat) : (fset s o hi lo v).out = s.out := rfl
@[simp] theorem fset_free (s : State) (o hi lo v : Nat) : (fset s o hi lo v).free = s.free := rfl
@[simp] theorem fset_now (s : State) (o hi lo v : Nat) : (fset s o hi lo v).now = s.now := rfl
@[simp] theorem fset_mem (s : State) (o hi lo v : Nat) : (fset s o hi lo v).mem = s.mem := rfl
@[simp] theorem fset_llc (s : State) (o hi lo v : Nat) : (fset s o hi lo v).llc = s.llc := rfl
@[simp] theorem fset_cores (s : State) (o hi lo v : Nat) : (fset s o hi lo v).cores = s.cores := rfl
@[simp] theorem fset_routers (s : State) (o hi lo v : Nat) : (fset s o hi lo v).routers = s.routers := rfl
@[simp] theorem fset_plans (s : State) (o hi lo v : Nat) : (fset s o hi lo v).plans = s.plans := rfl
@[simp] theorem fset_run (s : State) (o hi lo v : Nat) : (fset s o hi lo v).run = s.run := rfl
@[simp] theorem fset_cmd (s : State) (o hi lo v : Nat) : (fset s o hi lo v).cmd = s.cmd := rfl
@[simp] theorem fset_att (s : State) (o hi lo v : Nat) : (fset s o hi lo v).att = s.att := rfl
@[simp] theorem fset_ringTaken (s : State) (o hi lo v : Nat) : (fset s o hi lo v).ringTaken = s.ringTaken := rfl
@[simp] theorem fset_ringLow (s : State) (o hi lo v : Nat) : (fset s o hi lo v).ringLow = s.ringLow := rfl
@[simp] theorem fset_chans (s : State) (o hi lo v : Nat) : (fset s o hi lo v).chans = s.chans := rfl
@[simp] theorem fset_qnc (s : State) (o hi lo v : Nat) : (fset s o hi lo v).qnc = s.qnc := rfl
@[simp] theorem fset_fab (s : State) (o hi lo v : Nat) : (fset s o hi lo v).fab = s.fab := rfl
@[simp] theorem fset_pwr (s : State) (o hi lo v : Nat) : (fset s o hi lo v).pwr = s.pwr := rfl
@[simp] theorem fset_boot (s : State) (o hi lo v : Nat) : (fset s o hi lo v).boot = s.boot := rfl
@[simp] theorem fset_pci (s : State) (o hi lo v : Nat) : (fset s o hi lo v).pci = s.pci := rfl
@[simp] theorem fset_pip (s : State) (o hi lo v : Nat) : (fset s o hi lo v).pip = s.pip := rfl
@[simp] theorem fset_stone (s : State) (o hi lo v : Nat) : (fset s o hi lo v).stone = s.stone := rfl

/-! ### emit -/

@[simp] theorem emit_pending (s : State) (o : Out) : (emit s o).pending = s.pending := rfl
@[simp] theorem emit_free (s : State) (o : Out) : (emit s o).free = s.free := rfl
@[simp] theorem emit_now (s : State) (o : Out) : (emit s o).now = s.now := rfl
@[simp] theorem emit_ctl (s : State) (o : Out) : (emit s o).ctl = s.ctl := rfl
@[simp] theorem emit_mem (s : State) (o : Out) : (emit s o).mem = s.mem := rfl
@[simp] theorem emit_llc (s : State) (o : Out) : (emit s o).llc = s.llc := rfl
@[simp] theorem emit_cores (s : State) (o : Out) : (emit s o).cores = s.cores := rfl
@[simp] theorem emit_routers (s : State) (o : Out) : (emit s o).routers = s.routers := rfl
@[simp] theorem emit_plans (s : State) (o : Out) : (emit s o).plans = s.plans := rfl
@[simp] theorem emit_run (s : State) (o : Out) : (emit s o).run = s.run := rfl
@[simp] theorem emit_cmd (s : State) (o : Out) : (emit s o).cmd = s.cmd := rfl
@[simp] theorem emit_att (s : State) (o : Out) : (emit s o).att = s.att := rfl
@[simp] theorem emit_ringTaken (s : State) (o : Out) : (emit s o).ringTaken = s.ringTaken := rfl
@[simp] theorem emit_ringLow (s : State) (o : Out) : (emit s o).ringLow = s.ringLow := rfl
@[simp] theorem emit_chans (s : State) (o : Out) : (emit s o).chans = s.chans := rfl
@[simp] theorem emit_qnc (s : State) (o : Out) : (emit s o).qnc = s.qnc := rfl
@[simp] theorem emit_fab (s : State) (o : Out) : (emit s o).fab = s.fab := rfl
@[simp] theorem emit_pwr (s : State) (o : Out) : (emit s o).pwr = s.pwr := rfl
@[simp] theorem emit_boot (s : State) (o : Out) : (emit s o).boot = s.boot := rfl
@[simp] theorem emit_pci (s : State) (o : Out) : (emit s o).pci = s.pci := rfl
@[simp] theorem emit_pip (s : State) (o : Out) : (emit s o).pip = s.pip := rfl
@[simp] theorem emit_stone (s : State) (o : Out) : (emit s o).stone = s.stone := rfl

/-! ### fresh -/

@[simp] theorem fresh_pending (s : State) : (fresh s).pending = s.pending := rfl
@[simp] theorem fresh_out (s : State) : (fresh s).out = s.out := rfl
@[simp] theorem fresh_now (s : State) : (fresh s).now = s.now := rfl
@[simp] theorem fresh_ctl (s : State) : (fresh s).ctl = s.ctl := rfl
@[simp] theorem fresh_mem (s : State) : (fresh s).mem = s.mem := rfl
@[simp] theorem fresh_llc (s : State) : (fresh s).llc = s.llc := rfl
@[simp] theorem fresh_cores (s : State) : (fresh s).cores = s.cores := rfl
@[simp] theorem fresh_routers (s : State) : (fresh s).routers = s.routers := rfl
@[simp] theorem fresh_plans (s : State) : (fresh s).plans = s.plans := rfl
@[simp] theorem fresh_run (s : State) : (fresh s).run = s.run := rfl
@[simp] theorem fresh_cmd (s : State) : (fresh s).cmd = s.cmd := rfl
@[simp] theorem fresh_att (s : State) : (fresh s).att = s.att := rfl
@[simp] theorem fresh_ringTaken (s : State) : (fresh s).ringTaken = s.ringTaken := rfl
@[simp] theorem fresh_ringLow (s : State) : (fresh s).ringLow = s.ringLow := rfl
@[simp] theorem fresh_chans (s : State) : (fresh s).chans = s.chans := rfl
@[simp] theorem fresh_qnc (s : State) : (fresh s).qnc = s.qnc := rfl
@[simp] theorem fresh_fab (s : State) : (fresh s).fab = s.fab := rfl
@[simp] theorem fresh_pwr (s : State) : (fresh s).pwr = s.pwr := rfl
@[simp] theorem fresh_boot (s : State) : (fresh s).boot = s.boot := rfl
@[simp] theorem fresh_pci (s : State) : (fresh s).pci = s.pci := rfl
@[simp] theorem fresh_pip (s : State) : (fresh s).pip = s.pip := rfl
@[simp] theorem fresh_stone (s : State) : (fresh s).stone = s.stone := rfl

/-! ### setCore -/

@[simp] theorem setCore_pending (s : State) (pk : Nat) (c : Core) : (setCore s pk c).pending = s.pending := rfl
@[simp] theorem setCore_out (s : State) (pk : Nat) (c : Core) : (setCore s pk c).out = s.out := rfl
@[simp] theorem setCore_free (s : State) (pk : Nat) (c : Core) : (setCore s pk c).free = s.free := rfl
@[simp] theorem setCore_now (s : State) (pk : Nat) (c : Core) : (setCore s pk c).now = s.now := rfl
@[simp] theorem setCore_ctl (s : State) (pk : Nat) (c : Core) : (setCore s pk c).ctl = s.ctl := rfl
@[simp] theorem setCore_mem (s : State) (pk : Nat) (c : Core) : (setCore s pk c).mem = s.mem := rfl
@[simp] theorem setCore_llc (s : State) (pk : Nat) (c : Core) : (setCore s pk c).llc = s.llc := rfl
@[simp] theorem setCore_routers (s : State) (pk : Nat) (c : Core) : (setCore s pk c).routers = s.routers := rfl
@[simp] theorem setCore_plans (s : State) (pk : Nat) (c : Core) : (setCore s pk c).plans = s.plans := rfl
@[simp] theorem setCore_run (s : State) (pk : Nat) (c : Core) : (setCore s pk c).run = s.run := rfl
@[simp] theorem setCore_cmd (s : State) (pk : Nat) (c : Core) : (setCore s pk c).cmd = s.cmd := rfl
@[simp] theorem setCore_att (s : State) (pk : Nat) (c : Core) : (setCore s pk c).att = s.att := rfl
@[simp] theorem setCore_ringTaken (s : State) (pk : Nat) (c : Core) : (setCore s pk c).ringTaken = s.ringTaken := rfl
@[simp] theorem setCore_ringLow (s : State) (pk : Nat) (c : Core) : (setCore s pk c).ringLow = s.ringLow := rfl
@[simp] theorem setCore_chans (s : State) (pk : Nat) (c : Core) : (setCore s pk c).chans = s.chans := rfl
@[simp] theorem setCore_qnc (s : State) (pk : Nat) (c : Core) : (setCore s pk c).qnc = s.qnc := rfl
@[simp] theorem setCore_fab (s : State) (pk : Nat) (c : Core) : (setCore s pk c).fab = s.fab := rfl
@[simp] theorem setCore_pwr (s : State) (pk : Nat) (c : Core) : (setCore s pk c).pwr = s.pwr := rfl
@[simp] theorem setCore_boot (s : State) (pk : Nat) (c : Core) : (setCore s pk c).boot = s.boot := rfl
@[simp] theorem setCore_pci (s : State) (pk : Nat) (c : Core) : (setCore s pk c).pci = s.pci := rfl
@[simp] theorem setCore_pip (s : State) (pk : Nat) (c : Core) : (setCore s pk c).pip = s.pip := rfl
@[simp] theorem setCore_stone (s : State) (pk : Nat) (c : Core) : (setCore s pk c).stone = s.stone := rfl

/-! ### modCore -/

@[simp] theorem modCore_pending (s : State) (pk : Nat) (f : Core → Core) : (modCore s pk f).pending = s.pending := rfl
@[simp] theorem modCore_out (s : State) (pk : Nat) (f : Core → Core) : (modCore s pk f).out = s.out := rfl
@[simp] theorem modCore_free (s : State) (pk : Nat) (f : Core → Core) : (modCore s pk f).free = s.free := rfl
@[simp] theorem modCore_now (s : State) (pk : Nat) (f : Core → Core) : (modCore s pk f).now = s.now := rfl
@[simp] theorem modCore_ctl (s : State) (pk : Nat) (f : Core → Core) : (modCore s pk f).ctl = s.ctl := rfl
@[simp] theorem modCore_mem (s : State) (pk : Nat) (f : Core → Core) : (modCore s pk f).mem = s.mem := rfl
@[simp] theorem modCore_llc (s : State) (pk : Nat) (f : Core → Core) : (modCore s pk f).llc = s.llc := rfl
@[simp] theorem modCore_routers (s : State) (pk : Nat) (f : Core → Core) : (modCore s pk f).routers = s.routers := rfl
@[simp] theorem modCore_plans (s : State) (pk : Nat) (f : Core → Core) : (modCore s pk f).plans = s.plans := rfl
@[simp] theorem modCore_run (s : State) (pk : Nat) (f : Core → Core) : (modCore s pk f).run = s.run := rfl
@[simp] theorem modCore_cmd (s : State) (pk : Nat) (f : Core → Core) : (modCore s pk f).cmd = s.cmd := rfl
@[simp] theorem modCore_att (s : State) (pk : Nat) (f : Core → Core) : (modCore s pk f).att = s.att := rfl
@[simp] theorem modCore_ringTaken (s : State) (pk : Nat) (f : Core → Core) : (modCore s pk f).ringTaken = s.ringTaken := rfl
@[simp] theorem modCore_ringLow (s : State) (pk : Nat) (f : Core → Core) : (modCore s pk f).ringLow = s.ringLow := rfl
@[simp] theorem modCore_chans (s : State) (pk : Nat) (f : Core → Core) : (modCore s pk f).chans = s.chans := rfl
@[simp] theorem modCore_qnc (s : State) (pk : Nat) (f : Core → Core) : (modCore s pk f).qnc = s.qnc := rfl
@[simp] theorem modCore_fab (s : State) (pk : Nat) (f : Core → Core) : (modCore s pk f).fab = s.fab := rfl
@[simp] theorem modCore_pwr (s : State) (pk : Nat) (f : Core → Core) : (modCore s pk f).pwr = s.pwr := rfl
@[simp] theorem modCore_boot (s : State) (pk : Nat) (f : Core → Core) : (modCore s pk f).boot = s.boot := rfl
@[simp] theorem modCore_pci (s : State) (pk : Nat) (f : Core → Core) : (modCore s pk f).pci = s.pci := rfl
@[simp] theorem modCore_pip (s : State) (pk : Nat) (f : Core → Core) : (modCore s pk f).pip = s.pip := rfl
@[simp] theorem modCore_stone (s : State) (pk : Nat) (f : Core → Core) : (modCore s pk f).stone = s.stone := rfl

/-! ### modChan -/

@[simp] theorem modChan_pending (s : State) (ch : Nat) (f : Chan → Chan) : (modChan s ch f).pending = s.pending := rfl
@[simp] theorem modChan_out (s : State) (ch : Nat) (f : Chan → Chan) : (modChan s ch f).out = s.out := rfl
@[simp] theorem modChan_free (s : State) (ch : Nat) (f : Chan → Chan) : (modChan s ch f).free = s.free := rfl
@[simp] theorem modChan_now (s : State) (ch : Nat) (f : Chan → Chan) : (modChan s ch f).now = s.now := rfl
@[simp] theorem modChan_ctl (s : State) (ch : Nat) (f : Chan → Chan) : (modChan s ch f).ctl = s.ctl := rfl
@[simp] theorem modChan_mem (s : State) (ch : Nat) (f : Chan → Chan) : (modChan s ch f).mem = s.mem := rfl
@[simp] theorem modChan_llc (s : State) (ch : Nat) (f : Chan → Chan) : (modChan s ch f).llc = s.llc := rfl
@[simp] theorem modChan_cores (s : State) (ch : Nat) (f : Chan → Chan) : (modChan s ch f).cores = s.cores := rfl
@[simp] theorem modChan_routers (s : State) (ch : Nat) (f : Chan → Chan) : (modChan s ch f).routers = s.routers := rfl
@[simp] theorem modChan_plans (s : State) (ch : Nat) (f : Chan → Chan) : (modChan s ch f).plans = s.plans := rfl
@[simp] theorem modChan_run (s : State) (ch : Nat) (f : Chan → Chan) : (modChan s ch f).run = s.run := rfl
@[simp] theorem modChan_cmd (s : State) (ch : Nat) (f : Chan → Chan) : (modChan s ch f).cmd = s.cmd := rfl
@[simp] theorem modChan_att (s : State) (ch : Nat) (f : Chan → Chan) : (modChan s ch f).att = s.att := rfl
@[simp] theorem modChan_ringTaken (s : State) (ch : Nat) (f : Chan → Chan) : (modChan s ch f).ringTaken = s.ringTaken := rfl
@[simp] theorem modChan_ringLow (s : State) (ch : Nat) (f : Chan → Chan) : (modChan s ch f).ringLow = s.ringLow := rfl
@[simp] theorem modChan_qnc (s : State) (ch : Nat) (f : Chan → Chan) : (modChan s ch f).qnc = s.qnc := rfl
@[simp] theorem modChan_fab (s : State) (ch : Nat) (f : Chan → Chan) : (modChan s ch f).fab = s.fab := rfl
@[simp] theorem modChan_pwr (s : State) (ch : Nat) (f : Chan → Chan) : (modChan s ch f).pwr = s.pwr := rfl
@[simp] theorem modChan_boot (s : State) (ch : Nat) (f : Chan → Chan) : (modChan s ch f).boot = s.boot := rfl
@[simp] theorem modChan_pci (s : State) (ch : Nat) (f : Chan → Chan) : (modChan s ch f).pci = s.pci := rfl
@[simp] theorem modChan_pip (s : State) (ch : Nat) (f : Chan → Chan) : (modChan s ch f).pip = s.pip := rfl
@[simp] theorem modChan_stone (s : State) (ch : Nat) (f : Chan → Chan) : (modChan s ch f).stone = s.stone := rfl

/-! ### modRouter -/

@[simp] theorem modRouter_pending (s : State) (lc : Nat) (f : Router → Router) : (modRouter s lc f).pending = s.pending := rfl
@[simp] theorem modRouter_out (s : State) (lc : Nat) (f : Router → Router) : (modRouter s lc f).out = s.out := rfl
@[simp] theorem modRouter_free (s : State) (lc : Nat) (f : Router → Router) : (modRouter s lc f).free = s.free := rfl
@[simp] theorem modRouter_now (s : State) (lc : Nat) (f : Router → Router) : (modRouter s lc f).now = s.now := rfl
@[simp] theorem modRouter_ctl (s : State) (lc : Nat) (f : Router → Router) : (modRouter s lc f).ctl = s.ctl := rfl
@[simp] theorem modRouter_mem (s : State) (lc : Nat) (f : Router → Router) : (modRouter s lc f).mem = s.mem := rfl
@[simp] theorem modRouter_llc (s : State) (lc : Nat) (f : Router → Router) : (modRouter s lc f).llc = s.llc := rfl
@[simp] theorem modRouter_cores (s : State) (lc : Nat) (f : Router → Router) : (modRouter s lc f).cores = s.cores := rfl
@[simp] theorem modRouter_plans (s : State) (lc : Nat) (f : Router → Router) : (modRouter s lc f).plans = s.plans := rfl
@[simp] theorem modRouter_run (s : State) (lc : Nat) (f : Router → Router) : (modRouter s lc f).run = s.run := rfl
@[simp] theorem modRouter_cmd (s : State) (lc : Nat) (f : Router → Router) : (modRouter s lc f).cmd = s.cmd := rfl
@[simp] theorem modRouter_att (s : State) (lc : Nat) (f : Router → Router) : (modRouter s lc f).att = s.att := rfl
@[simp] theorem modRouter_ringTaken (s : State) (lc : Nat) (f : Router → Router) : (modRouter s lc f).ringTaken = s.ringTaken := rfl
@[simp] theorem modRouter_ringLow (s : State) (lc : Nat) (f : Router → Router) : (modRouter s lc f).ringLow = s.ringLow := rfl
@[simp] theorem modRouter_chans (s : State) (lc : Nat) (f : Router → Router) : (modRouter s lc f).chans = s.chans := rfl
@[simp] theorem modRouter_qnc (s : State) (lc : Nat) (f : Router → Router) : (modRouter s lc f).qnc = s.qnc := rfl
@[simp] theorem modRouter_fab (s : State) (lc : Nat) (f : Router → Router) : (modRouter s lc f).fab = s.fab := rfl
@[simp] theorem modRouter_pwr (s : State) (lc : Nat) (f : Router → Router) : (modRouter s lc f).pwr = s.pwr := rfl
@[simp] theorem modRouter_boot (s : State) (lc : Nat) (f : Router → Router) : (modRouter s lc f).boot = s.boot := rfl
@[simp] theorem modRouter_pci (s : State) (lc : Nat) (f : Router → Router) : (modRouter s lc f).pci = s.pci := rfl
@[simp] theorem modRouter_pip (s : State) (lc : Nat) (f : Router → Router) : (modRouter s lc f).pip = s.pip := rfl
@[simp] theorem modRouter_stone (s : State) (lc : Nat) (f : Router → Router) : (modRouter s lc f).stone = s.stone := rfl

/-! ### memPut -/

@[simp] theorem memPut_pending (s : State) (a : Nat) (b : Byte) (y : BitVec 5) : (memPut s a b y).pending = s.pending := rfl
@[simp] theorem memPut_out (s : State) (a : Nat) (b : Byte) (y : BitVec 5) : (memPut s a b y).out = s.out := rfl
@[simp] theorem memPut_free (s : State) (a : Nat) (b : Byte) (y : BitVec 5) : (memPut s a b y).free = s.free := rfl
@[simp] theorem memPut_now (s : State) (a : Nat) (b : Byte) (y : BitVec 5) : (memPut s a b y).now = s.now := rfl
@[simp] theorem memPut_ctl (s : State) (a : Nat) (b : Byte) (y : BitVec 5) : (memPut s a b y).ctl = s.ctl := rfl
@[simp] theorem memPut_llc (s : State) (a : Nat) (b : Byte) (y : BitVec 5) : (memPut s a b y).llc = s.llc := rfl
@[simp] theorem memPut_cores (s : State) (a : Nat) (b : Byte) (y : BitVec 5) : (memPut s a b y).cores = s.cores := rfl
@[simp] theorem memPut_routers (s : State) (a : Nat) (b : Byte) (y : BitVec 5) : (memPut s a b y).routers = s.routers := rfl
@[simp] theorem memPut_plans (s : State) (a : Nat) (b : Byte) (y : BitVec 5) : (memPut s a b y).plans = s.plans := rfl
@[simp] theorem memPut_run (s : State) (a : Nat) (b : Byte) (y : BitVec 5) : (memPut s a b y).run = s.run := rfl
@[simp] theorem memPut_cmd (s : State) (a : Nat) (b : Byte) (y : BitVec 5) : (memPut s a b y).cmd = s.cmd := rfl
@[simp] theorem memPut_att (s : State) (a : Nat) (b : Byte) (y : BitVec 5) : (memPut s a b y).att = s.att := rfl
@[simp] theorem memPut_ringTaken (s : State) (a : Nat) (b : Byte) (y : BitVec 5) : (memPut s a b y).ringTaken = s.ringTaken := rfl
@[simp] theorem memPut_ringLow (s : State) (a : Nat) (b : Byte) (y : BitVec 5) : (memPut s a b y).ringLow = s.ringLow := rfl
@[simp] theorem memPut_chans (s : State) (a : Nat) (b : Byte) (y : BitVec 5) : (memPut s a b y).chans = s.chans := rfl
@[simp] theorem memPut_qnc (s : State) (a : Nat) (b : Byte) (y : BitVec 5) : (memPut s a b y).qnc = s.qnc := rfl
@[simp] theorem memPut_fab (s : State) (a : Nat) (b : Byte) (y : BitVec 5) : (memPut s a b y).fab = s.fab := rfl
@[simp] theorem memPut_pwr (s : State) (a : Nat) (b : Byte) (y : BitVec 5) : (memPut s a b y).pwr = s.pwr := rfl
@[simp] theorem memPut_boot (s : State) (a : Nat) (b : Byte) (y : BitVec 5) : (memPut s a b y).boot = s.boot := rfl
@[simp] theorem memPut_pci (s : State) (a : Nat) (b : Byte) (y : BitVec 5) : (memPut s a b y).pci = s.pci := rfl
@[simp] theorem memPut_pip (s : State) (a : Nat) (b : Byte) (y : BitVec 5) : (memPut s a b y).pip = s.pip := rfl
@[simp] theorem memPut_stone (s : State) (a : Nat) (b : Byte) (y : BitVec 5) : (memPut s a b y).stone = s.stone := rfl

/-! ### linePut -/

@[simp] theorem linePut_pending (s : State) (lk : Nat) (l : SLine) : (linePut s lk l).pending = s.pending := rfl
@[simp] theorem linePut_out (s : State) (lk : Nat) (l : SLine) : (linePut s lk l).out = s.out := rfl
@[simp] theorem linePut_free (s : State) (lk : Nat) (l : SLine) : (linePut s lk l).free = s.free := rfl
@[simp] theorem linePut_now (s : State) (lk : Nat) (l : SLine) : (linePut s lk l).now = s.now := rfl
@[simp] theorem linePut_ctl (s : State) (lk : Nat) (l : SLine) : (linePut s lk l).ctl = s.ctl := rfl
@[simp] theorem linePut_mem (s : State) (lk : Nat) (l : SLine) : (linePut s lk l).mem = s.mem := rfl
@[simp] theorem linePut_cores (s : State) (lk : Nat) (l : SLine) : (linePut s lk l).cores = s.cores := rfl
@[simp] theorem linePut_routers (s : State) (lk : Nat) (l : SLine) : (linePut s lk l).routers = s.routers := rfl
@[simp] theorem linePut_plans (s : State) (lk : Nat) (l : SLine) : (linePut s lk l).plans = s.plans := rfl
@[simp] theorem linePut_run (s : State) (lk : Nat) (l : SLine) : (linePut s lk l).run = s.run := rfl
@[simp] theorem linePut_cmd (s : State) (lk : Nat) (l : SLine) : (linePut s lk l).cmd = s.cmd := rfl
@[simp] theorem linePut_att (s : State) (lk : Nat) (l : SLine) : (linePut s lk l).att = s.att := rfl
@[simp] theorem linePut_ringTaken (s : State) (lk : Nat) (l : SLine) : (linePut s lk l).ringTaken = s.ringTaken := rfl
@[simp] theorem linePut_ringLow (s : State) (lk : Nat) (l : SLine) : (linePut s lk l).ringLow = s.ringLow := rfl
@[simp] theorem linePut_chans (s : State) (lk : Nat) (l : SLine) : (linePut s lk l).chans = s.chans := rfl
@[simp] theorem linePut_qnc (s : State) (lk : Nat) (l : SLine) : (linePut s lk l).qnc = s.qnc := rfl
@[simp] theorem linePut_fab (s : State) (lk : Nat) (l : SLine) : (linePut s lk l).fab = s.fab := rfl
@[simp] theorem linePut_pwr (s : State) (lk : Nat) (l : SLine) : (linePut s lk l).pwr = s.pwr := rfl
@[simp] theorem linePut_boot (s : State) (lk : Nat) (l : SLine) : (linePut s lk l).boot = s.boot := rfl
@[simp] theorem linePut_pci (s : State) (lk : Nat) (l : SLine) : (linePut s lk l).pci = s.pci := rfl
@[simp] theorem linePut_pip (s : State) (lk : Nat) (l : SLine) : (linePut s lk l).pip = s.pip := rfl
@[simp] theorem linePut_stone (s : State) (lk : Nat) (l : SLine) : (linePut s lk l).stone = s.stone := rfl

/-! ### modAtt -/

@[simp] theorem modAtt_pending (s : State) (e : Nat) (f : AttEng → AttEng) : (modAtt s e f).pending = s.pending := rfl
@[simp] theorem modAtt_out (s : State) (e : Nat) (f : AttEng → AttEng) : (modAtt s e f).out = s.out := rfl
@[simp] theorem modAtt_free (s : State) (e : Nat) (f : AttEng → AttEng) : (modAtt s e f).free = s.free := rfl
@[simp] theorem modAtt_now (s : State) (e : Nat) (f : AttEng → AttEng) : (modAtt s e f).now = s.now := rfl
@[simp] theorem modAtt_ctl (s : State) (e : Nat) (f : AttEng → AttEng) : (modAtt s e f).ctl = s.ctl := rfl
@[simp] theorem modAtt_mem (s : State) (e : Nat) (f : AttEng → AttEng) : (modAtt s e f).mem = s.mem := rfl
@[simp] theorem modAtt_llc (s : State) (e : Nat) (f : AttEng → AttEng) : (modAtt s e f).llc = s.llc := rfl
@[simp] theorem modAtt_cores (s : State) (e : Nat) (f : AttEng → AttEng) : (modAtt s e f).cores = s.cores := rfl
@[simp] theorem modAtt_routers (s : State) (e : Nat) (f : AttEng → AttEng) : (modAtt s e f).routers = s.routers := rfl
@[simp] theorem modAtt_plans (s : State) (e : Nat) (f : AttEng → AttEng) : (modAtt s e f).plans = s.plans := rfl
@[simp] theorem modAtt_run (s : State) (e : Nat) (f : AttEng → AttEng) : (modAtt s e f).run = s.run := rfl
@[simp] theorem modAtt_cmd (s : State) (e : Nat) (f : AttEng → AttEng) : (modAtt s e f).cmd = s.cmd := rfl
@[simp] theorem modAtt_ringTaken (s : State) (e : Nat) (f : AttEng → AttEng) : (modAtt s e f).ringTaken = s.ringTaken := rfl
@[simp] theorem modAtt_ringLow (s : State) (e : Nat) (f : AttEng → AttEng) : (modAtt s e f).ringLow = s.ringLow := rfl
@[simp] theorem modAtt_chans (s : State) (e : Nat) (f : AttEng → AttEng) : (modAtt s e f).chans = s.chans := rfl
@[simp] theorem modAtt_qnc (s : State) (e : Nat) (f : AttEng → AttEng) : (modAtt s e f).qnc = s.qnc := rfl
@[simp] theorem modAtt_fab (s : State) (e : Nat) (f : AttEng → AttEng) : (modAtt s e f).fab = s.fab := rfl
@[simp] theorem modAtt_pwr (s : State) (e : Nat) (f : AttEng → AttEng) : (modAtt s e f).pwr = s.pwr := rfl
@[simp] theorem modAtt_boot (s : State) (e : Nat) (f : AttEng → AttEng) : (modAtt s e f).boot = s.boot := rfl
@[simp] theorem modAtt_pci (s : State) (e : Nat) (f : AttEng → AttEng) : (modAtt s e f).pci = s.pci := rfl
@[simp] theorem modAtt_pip (s : State) (e : Nat) (f : AttEng → AttEng) : (modAtt s e f).pip = s.pip := rfl
@[simp] theorem modAtt_stone (s : State) (e : Nat) (f : AttEng → AttEng) : (modAtt s e f).stone = s.stone := rfl

/-! ### modColl -/

@[simp] theorem modColl_pending (s : State) (t : Nat) (f : CollEng → CollEng) : (modColl s t f).pending = s.pending := rfl
@[simp] theorem modColl_out (s : State) (t : Nat) (f : CollEng → CollEng) : (modColl s t f).out = s.out := rfl
@[simp] theorem modColl_free (s : State) (t : Nat) (f : CollEng → CollEng) : (modColl s t f).free = s.free := rfl
@[simp] theorem modColl_now (s : State) (t : Nat) (f : CollEng → CollEng) : (modColl s t f).now = s.now := rfl
@[simp] theorem modColl_ctl (s : State) (t : Nat) (f : CollEng → CollEng) : (modColl s t f).ctl = s.ctl := rfl
@[simp] theorem modColl_mem (s : State) (t : Nat) (f : CollEng → CollEng) : (modColl s t f).mem = s.mem := rfl
@[simp] theorem modColl_llc (s : State) (t : Nat) (f : CollEng → CollEng) : (modColl s t f).llc = s.llc := rfl
@[simp] theorem modColl_cores (s : State) (t : Nat) (f : CollEng → CollEng) : (modColl s t f).cores = s.cores := rfl
@[simp] theorem modColl_routers (s : State) (t : Nat) (f : CollEng → CollEng) : (modColl s t f).routers = s.routers := rfl
@[simp] theorem modColl_plans (s : State) (t : Nat) (f : CollEng → CollEng) : (modColl s t f).plans = s.plans := rfl
@[simp] theorem modColl_run (s : State) (t : Nat) (f : CollEng → CollEng) : (modColl s t f).run = s.run := rfl
@[simp] theorem modColl_cmd (s : State) (t : Nat) (f : CollEng → CollEng) : (modColl s t f).cmd = s.cmd := rfl
@[simp] theorem modColl_att (s : State) (t : Nat) (f : CollEng → CollEng) : (modColl s t f).att = s.att := rfl
@[simp] theorem modColl_ringTaken (s : State) (t : Nat) (f : CollEng → CollEng) : (modColl s t f).ringTaken = s.ringTaken := rfl
@[simp] theorem modColl_ringLow (s : State) (t : Nat) (f : CollEng → CollEng) : (modColl s t f).ringLow = s.ringLow := rfl
@[simp] theorem modColl_chans (s : State) (t : Nat) (f : CollEng → CollEng) : (modColl s t f).chans = s.chans := rfl
@[simp] theorem modColl_qnc (s : State) (t : Nat) (f : CollEng → CollEng) : (modColl s t f).qnc = s.qnc := rfl
@[simp] theorem modColl_pwr (s : State) (t : Nat) (f : CollEng → CollEng) : (modColl s t f).pwr = s.pwr := rfl
@[simp] theorem modColl_boot (s : State) (t : Nat) (f : CollEng → CollEng) : (modColl s t f).boot = s.boot := rfl
@[simp] theorem modColl_pci (s : State) (t : Nat) (f : CollEng → CollEng) : (modColl s t f).pci = s.pci := rfl
@[simp] theorem modColl_pip (s : State) (t : Nat) (f : CollEng → CollEng) : (modColl s t f).pip = s.pip := rfl
@[simp] theorem modColl_stone (s : State) (t : Nat) (f : CollEng → CollEng) : (modColl s t f).stone = s.stone := rfl

/-! ### modPort -/

@[simp] theorem modPort_pending (s : State) (l : Nat) (f : Port → Port) : (modPort s l f).pending = s.pending := rfl
@[simp] theorem modPort_out (s : State) (l : Nat) (f : Port → Port) : (modPort s l f).out = s.out := rfl
@[simp] theorem modPort_free (s : State) (l : Nat) (f : Port → Port) : (modPort s l f).free = s.free := rfl
@[simp] theorem modPort_now (s : State) (l : Nat) (f : Port → Port) : (modPort s l f).now = s.now := rfl
@[simp] theorem modPort_ctl (s : State) (l : Nat) (f : Port → Port) : (modPort s l f).ctl = s.ctl := rfl
@[simp] theorem modPort_mem (s : State) (l : Nat) (f : Port → Port) : (modPort s l f).mem = s.mem := rfl
@[simp] theorem modPort_llc (s : State) (l : Nat) (f : Port → Port) : (modPort s l f).llc = s.llc := rfl
@[simp] theorem modPort_cores (s : State) (l : Nat) (f : Port → Port) : (modPort s l f).cores = s.cores := rfl
@[simp] theorem modPort_routers (s : State) (l : Nat) (f : Port → Port) : (modPort s l f).routers = s.routers := rfl
@[simp] theorem modPort_plans (s : State) (l : Nat) (f : Port → Port) : (modPort s l f).plans = s.plans := rfl
@[simp] theorem modPort_run (s : State) (l : Nat) (f : Port → Port) : (modPort s l f).run = s.run := rfl
@[simp] theorem modPort_cmd (s : State) (l : Nat) (f : Port → Port) : (modPort s l f).cmd = s.cmd := rfl
@[simp] theorem modPort_att (s : State) (l : Nat) (f : Port → Port) : (modPort s l f).att = s.att := rfl
@[simp] theorem modPort_ringTaken (s : State) (l : Nat) (f : Port → Port) : (modPort s l f).ringTaken = s.ringTaken := rfl
@[simp] theorem modPort_ringLow (s : State) (l : Nat) (f : Port → Port) : (modPort s l f).ringLow = s.ringLow := rfl
@[simp] theorem modPort_chans (s : State) (l : Nat) (f : Port → Port) : (modPort s l f).chans = s.chans := rfl
@[simp] theorem modPort_qnc (s : State) (l : Nat) (f : Port → Port) : (modPort s l f).qnc = s.qnc := rfl
@[simp] theorem modPort_pwr (s : State) (l : Nat) (f : Port → Port) : (modPort s l f).pwr = s.pwr := rfl
@[simp] theorem modPort_boot (s : State) (l : Nat) (f : Port → Port) : (modPort s l f).boot = s.boot := rfl
@[simp] theorem modPort_pci (s : State) (l : Nat) (f : Port → Port) : (modPort s l f).pci = s.pci := rfl
@[simp] theorem modPort_pip (s : State) (l : Nat) (f : Port → Port) : (modPort s l f).pip = s.pip := rfl
@[simp] theorem modPort_stone (s : State) (l : Nat) (f : Port → Port) : (modPort s l f).stone = s.stone := rfl

/-! ### produce -/

@[simp] theorem produce_pending (s : State) (index tag status step detail : Nat) : (produce s index tag status step detail).pending = s.pending := rfl
@[simp] theorem produce_out (s : State) (index tag status step detail : Nat) : (produce s index tag status step detail).out = s.out := rfl
@[simp] theorem produce_free (s : State) (index tag status step detail : Nat) : (produce s index tag status step detail).free = s.free := rfl
@[simp] theorem produce_now (s : State) (index tag status step detail : Nat) : (produce s index tag status step detail).now = s.now := rfl
@[simp] theorem produce_ctl (s : State) (index tag status step detail : Nat) : (produce s index tag status step detail).ctl = s.ctl := rfl
@[simp] theorem produce_mem (s : State) (index tag status step detail : Nat) : (produce s index tag status step detail).mem = s.mem := rfl
@[simp] theorem produce_llc (s : State) (index tag status step detail : Nat) : (produce s index tag status step detail).llc = s.llc := rfl
@[simp] theorem produce_cores (s : State) (index tag status step detail : Nat) : (produce s index tag status step detail).cores = s.cores := rfl
@[simp] theorem produce_routers (s : State) (index tag status step detail : Nat) : (produce s index tag status step detail).routers = s.routers := rfl
@[simp] theorem produce_plans (s : State) (index tag status step detail : Nat) : (produce s index tag status step detail).plans = s.plans := rfl
@[simp] theorem produce_run (s : State) (index tag status step detail : Nat) : (produce s index tag status step detail).run = s.run := rfl
@[simp] theorem produce_att (s : State) (index tag status step detail : Nat) : (produce s index tag status step detail).att = s.att := rfl
@[simp] theorem produce_ringTaken (s : State) (index tag status step detail : Nat) : (produce s index tag status step detail).ringTaken = s.ringTaken := rfl
@[simp] theorem produce_ringLow (s : State) (index tag status step detail : Nat) : (produce s index tag status step detail).ringLow = s.ringLow := rfl
@[simp] theorem produce_chans (s : State) (index tag status step detail : Nat) : (produce s index tag status step detail).chans = s.chans := rfl
@[simp] theorem produce_qnc (s : State) (index tag status step detail : Nat) : (produce s index tag status step detail).qnc = s.qnc := rfl
@[simp] theorem produce_fab (s : State) (index tag status step detail : Nat) : (produce s index tag status step detail).fab = s.fab := rfl
@[simp] theorem produce_pwr (s : State) (index tag status step detail : Nat) : (produce s index tag status step detail).pwr = s.pwr := rfl
@[simp] theorem produce_boot (s : State) (index tag status step detail : Nat) : (produce s index tag status step detail).boot = s.boot := rfl
@[simp] theorem produce_pci (s : State) (index tag status step detail : Nat) : (produce s index tag status step detail).pci = s.pci := rfl
@[simp] theorem produce_pip (s : State) (index tag status step detail : Nat) : (produce s index tag status step detail).pip = s.pip := rfl
@[simp] theorem produce_stone (s : State) (index tag status step detail : Nat) : (produce s index tag status step detail).stone = s.stone := rfl

end Sys2Proof.Machine
end

