-- ==== Sys2Proof/Laws/Tables.lean ====
section
/-! SUPPORT. Laws of the sparse tables: reading after an update, and the rising order of the keys. -/

namespace Sys2Proof.Machine

/-- What is listed reads back. -/
@[simp] theorem tget?_tput_self {V : Type} (t : Tbl V) (k : Nat) (v : V) : tget? (tput t k v) k = some v := by
  induction t with
  | nil => simp [tput, tget?]
  | cons e r ih =>
    obtain ⟨j, w⟩ := e
    simp only [tput]
    split
    · simp [tget?]
    · split
      · simp [tget?]
      · simp only [tget?]
        rw [if_neg (by assumption), ih]

/-- Listing a key leaves every other key alone. -/
theorem tget?_tput_ne {V : Type} (t : Tbl V) {k k' : Nat} (v : V) (h : k' ≠ k) : tget? (tput t k v) k' = tget? t k' := by
  induction t with
  | nil => simp [tput, tget?, h.symm]
  | cons e r ih =>
    obtain ⟨j, w⟩ := e
    simp only [tput]
    split
    · simp only [tget?, h.symm, if_false]
    · split
      · next hj => subst hj; simp only [tget?, h.symm, if_false]
      · simp only [tget?, ih]

/-- The reading of a key with a default, after it is listed. -/
@[simp] theorem tget_tput_self {V : Type} (d : V) (t : Tbl V) (k : Nat) (v : V) : tget d (tput t k v) k = v := by
  simp [tget]

theorem tget_tput_ne {V : Type} (d : V) (t : Tbl V) {k k' : Nat} (v : V) (h : k' ≠ k) :
    tget d (tput t k v) k' = tget d t k' := by
  simp [tget, tget?_tput_ne t v h]

/-- Listing a key twice keeps the last value. -/
@[simp] theorem tput_tput {V : Type} (t : Tbl V) (k : Nat) (a b : V) : tput (tput t k a) k b = tput t k b := by
  induction t with
  | nil => simp [tput]
  | cons e r ih =>
    obtain ⟨j, w⟩ := e
    simp only [tput]
    split
    · simp [tput]
    · split
      · simp [tput]
      · simp only [tput]
        rw [if_neg (by assumption), if_neg (by assumption), ih]

/-- A rising table's head is below every other key. -/
theorem tsorted_tail {V : Type} {e : Nat × V} {r : Tbl V} (h : tsorted (e :: r) = true) : tsorted r = true := by
  cases r with
  | nil => rfl
  | cons f r' =>
    obtain ⟨k, w⟩ := f
    simp only [tsorted, Bool.and_eq_true] at h
    exact h.2

/-- In a rising table every key after the head is larger. -/
theorem tsorted_lt {V : Type} {j : Nat} {w : V} {r : Tbl V} (h : tsorted ((j, w) :: r) = true) : ∀ e ∈ r, j < e.1 := by
  induction r generalizing j w with
  | nil => simp
  | cons f r' ih =>
    obtain ⟨k, x⟩ := f
    simp only [tsorted, Bool.and_eq_true, decide_eq_true_eq] at h
    intro e he
    rcases List.mem_cons.mp he with rfl | he
    · exact h.1
    · exact lt_trans h.1 (ih h.2 e he)

/-- Keys below every listed one put in front keep a table rising. -/
theorem tsorted_cons {V : Type} {j : Nat} {w : V} {r : Tbl V} (hr : tsorted r = true) (h : ∀ e ∈ r, j < e.1) :
    tsorted ((j, w) :: r) = true := by
  cases r with
  | nil => rfl
  | cons f r' =>
    obtain ⟨k, x⟩ := f
    simp only [tsorted, Bool.and_eq_true, decide_eq_true_eq]
    exact ⟨h (k, x) (List.mem_cons_self ..), hr⟩

/-- The keys of an updated table. -/
theorem mem_tput {V : Type} {t : Tbl V} {k : Nat} {v : V} {e : Nat × V} (h : e ∈ tput t k v) : e = (k, v) ∨ e ∈ t := by
  induction t with
  | nil => simpa [tput] using h
  | cons f r ih =>
    obtain ⟨j, w⟩ := f
    simp only [tput] at h
    split at h
    · rcases List.mem_cons.mp h with h | h
      · exact .inl h
      · exact .inr h
    · split at h
      · rcases List.mem_cons.mp h with h | h
        · exact .inl h
        · exact .inr (List.mem_cons_of_mem _ h)
      · rcases List.mem_cons.mp h with h | h
        · exact .inr (h ▸ List.mem_cons_self ..)
        · rcases ih h with h | h
          · exact .inl h
          · exact .inr (List.mem_cons_of_mem _ h)

theorem mem_tdel {V : Type} {t : Tbl V} {k : Nat} {e : Nat × V} (h : e ∈ tdel t k) : e ∈ t := List.mem_of_mem_filter h

/-- Leaving entries out keeps a table rising. -/
theorem tsorted_filter {V : Type} (p : Nat × V → Bool) {t : Tbl V} (h : tsorted t = true) : tsorted (t.filter p) = true := by
  induction t with
  | nil => rfl
  | cons f r ih =>
    obtain ⟨j, w⟩ := f
    rw [List.filter_cons]
    split
    · exact tsorted_cons (ih (tsorted_tail h)) fun e he => tsorted_lt h e (List.mem_of_mem_filter he)
    · exact ih (tsorted_tail h)

/-- Updates keep a table rising. -/
theorem tsorted_tput {V : Type} {t : Tbl V} (k : Nat) (v : V) (h : tsorted t = true) : tsorted (tput t k v) = true := by
  induction t with
  | nil => rfl
  | cons f r ih =>
    obtain ⟨j, w⟩ := f
    simp only [tput]
    split
    · next hk =>
      refine tsorted_cons h ?_
      intro e he
      rcases List.mem_cons.mp he with rfl | he
      · exact hk
      · exact lt_trans hk (tsorted_lt h e he)
    · split
      · next hj => subst hj; exact tsorted_cons (tsorted_tail h) (tsorted_lt h)
      · refine tsorted_cons (ih (tsorted_tail h)) ?_
        intro e he
        rcases mem_tput he with rfl | he
        · show j < k; omega
        · exact tsorted_lt h e he

theorem tsorted_tdel {V : Type} {t : Tbl V} (k : Nat) (h : tsorted t = true) : tsorted (tdel t k) = true :=
  tsorted_filter _ h

theorem tsorted_tset {V : Type} [DecidableEq V] (d : V) {t : Tbl V} (k : Nat) (v : V) (h : tsorted t = true) :
    tsorted (tset d t k v) = true := by
  unfold tset
  split
  · exact tsorted_tdel k h
  · exact tsorted_tput k v h

/-- A removed key is not listed. -/
@[simp] theorem tget?_tdel_self {V : Type} (t : Tbl V) (k : Nat) : tget? (tdel t k) k = none := by
  induction t with
  | nil => rfl
  | cons f r ih =>
    obtain ⟨j, w⟩ := f
    unfold tdel at ih ⊢
    rw [List.filter_cons]
    split
    · next hj =>
      have hj : j ≠ k := by simpa using hj
      simp only [tget?, hj, if_false, ih]
    · exact ih

/-- Removing a key leaves every other key alone. -/
theorem tget?_tdel_ne {V : Type} (t : Tbl V) {k k' : Nat} (hk : k' ≠ k) : tget? (tdel t k) k' = tget? t k' := by
  induction t with
  | nil => rfl
  | cons f r ih =>
    obtain ⟨j, w⟩ := f
    unfold tdel at ih ⊢
    rw [List.filter_cons]
    split
    · simp only [tget?, ih]
    · next hj =>
      have hj : j = k := by simpa using hj
      rw [ih]
      simp only [tget?, hj, hk.symm, if_false]

/-- Reading a key after it is set. -/
@[simp] theorem tget_tset_self {V : Type} [DecidableEq V] (d : V) (t : Tbl V) (k : Nat) (v : V) : tget d (tset d t k v) k = v := by
  unfold tset tget
  split
  · next hv => simp [hv]
  · simp

theorem tget_tset_ne {V : Type} [DecidableEq V] (d : V) (t : Tbl V) {k k' : Nat} (v : V) (hk : k' ≠ k) :
    tget d (tset d t k v) k' = tget d t k' := by
  unfold tset tget
  split
  · rw [tget?_tdel_ne t hk]
  · rw [tget?_tput_ne t v hk]

@[simp] theorem tget_tmod_self {V : Type} [DecidableEq V] (d : V) (t : Tbl V) (k : Nat) (f : V → V) :
    tget d (tmod d t k f) k = f (tget d t k) := tget_tset_self ..

theorem tget_tmod_ne {V : Type} [DecidableEq V] (d : V) (t : Tbl V) {k k' : Nat} (f : V → V) (hk : k' ≠ k) :
    tget d (tmod d t k f) k' = tget d t k' := tget_tset_ne _ _ _ hk

/-- A table in which nothing is listed reads as the default. -/
@[simp] theorem tget_nil {V : Type} (d : V) (k : Nat) : tget d [] k = d := rfl

end Sys2Proof.Machine
end

