-- ==== Sys2Proof/Laws/Registers.lean ====
section
/-! SUPPORT. Laws of bit fields and of the stored registers: a field reads back, and every other field and granule stays. -/

namespace Sys2Proof.Machine

/-! ### Bit fields (R6) -/

theorem bits_lt (n hi lo : Nat) : bits n hi lo < 2 ^ (hi + 1 - lo) := Nat.mod_lt _ (Nat.two_pow_pos _)

/-- Bit i of a field is bit lo + i of the number. -/
theorem testBit_bits (n hi lo i : Nat) : (bits n hi lo).testBit i = (decide (i < hi + 1 - lo) && n.testBit (lo + i)) := by
  simp [bits, Nat.testBit_mod_two_pow, Nat.testBit_shiftRight]

/-- putBits as three pieces: above the field, the new field, below it. -/
theorem putBits_eq {hi lo : Nat} (h : lo ≤ hi + 1) (n v : Nat) :
    putBits n hi lo v =
      2 ^ lo * (2 ^ (hi + 1 - lo) * (n / 2 ^ (hi + 1)) + v % 2 ^ (hi + 1 - lo)) + n % 2 ^ lo := by
  unfold putBits bits
  have hw : lo + (hi + 1 - lo) = hi + 1 := by omega
  rw [Nat.shiftRight_eq_div_pow]
  have h1 : n = 2 ^ lo * (n / 2 ^ lo) + n % 2 ^ lo := (Nat.div_add_mod n (2 ^ lo)).symm
  have h2 : n / 2 ^ lo = 2 ^ (hi + 1 - lo) * (n / 2 ^ (hi + 1)) + n / 2 ^ lo % 2 ^ (hi + 1 - lo) := by
    have := (Nat.div_add_mod (n / 2 ^ lo) (2 ^ (hi + 1 - lo))).symm
    rw [Nat.div_div_eq_div_mul, ← Nat.pow_add, hw] at this
    exact this
  generalize n / 2 ^ lo % 2 ^ (hi + 1 - lo) = b at *
  generalize n / 2 ^ (hi + 1) = q at *
  generalize n % 2 ^ lo = r at *
  generalize v % 2 ^ (hi + 1 - lo) = x at *
  rw [h2] at h1
  generalize 2 ^ (hi + 1 - lo) = W at *
  generalize 2 ^ lo = L at *
  have e : n = b * L + (L * (W * q) + r) := by rw [h1]; ring
  rw [e, Nat.add_sub_cancel_left]
  ring

/-- The bits after a field is replaced. -/
theorem testBit_putBits {hi lo : Nat} (h : lo ≤ hi + 1) (n v i : Nat) :
    (putBits n hi lo v).testBit i = if lo ≤ i ∧ i ≤ hi then v.testBit (i - lo) else n.testBit i := by
  rw [putBits_eq h, Nat.testBit_two_pow_mul_add _ (Nat.mod_lt _ (Nat.two_pow_pos _)),
    Nat.testBit_two_pow_mul_add _ (Nat.mod_lt _ (Nat.two_pow_pos _))]
  by_cases h1 : i < lo
  · rw [if_pos h1, if_neg (by omega), Nat.testBit_mod_two_pow]
    simp [h1]
  · rw [if_neg h1]
    by_cases h2 : i ≤ hi
    · rw [if_pos (by omega), if_pos ⟨by omega, h2⟩, Nat.testBit_mod_two_pow]
      simp [show i - lo < hi + 1 - lo by omega]
    · rw [if_neg (by omega), if_neg (by omega), Nat.testBit_div_two_pow]
      congr 1
      omega

/-- A replaced field reads back. -/
theorem bits_putBits_self {hi lo : Nat} (h : lo ≤ hi + 1) (n v : Nat) :
    bits (putBits n hi lo v) hi lo = v % 2 ^ (hi + 1 - lo) := by
  apply Nat.eq_of_testBit_eq
  intro i
  rw [testBit_bits, testBit_putBits h, Nat.testBit_mod_two_pow]
  by_cases hi' : i < hi + 1 - lo
  · simp [hi', show lo + i ≤ hi by omega]
  · simp [hi']

/-- A field that does not meet the replaced one keeps its value. -/
theorem bits_putBits_ne {hi lo hi' lo' : Nat} (h : lo ≤ hi + 1) (hd : hi' < lo ∨ hi < lo') (n v : Nat) :
    bits (putBits n hi lo v) hi' lo' = bits n hi' lo' := by
  apply Nat.eq_of_testBit_eq
  intro i
  rw [testBit_bits, testBit_bits, testBit_putBits h]
  by_cases hi' : i < hi' + 1 - lo'
  · rw [if_neg (by omega)]
  · simp [hi']

/-- Replacing a field below bit 64 keeps the number below 2^64. -/
theorem putBits_lt {hi lo : Nat} (h : lo ≤ hi + 1) (hh : hi < 64) (n : W64) (v : Nat) : putBits n.toNat hi lo v < 2 ^ 64 := by
  apply Nat.lt_pow_two_of_testBit
  intro i hi'
  rw [testBit_putBits h, if_neg (by omega)]
  exact Nat.testBit_lt_two_pow (lt_of_lt_of_le n.isLt (Nat.pow_le_pow_right (by omega) hi'))

theorem setField_toNat {hi lo : Nat} (h : lo ≤ hi + 1) (hh : hi < 64) (w : W64) (v : Nat) :
    (setField w hi lo v).toNat = putBits w.toNat hi lo v := by
  rw [setField, BitVec.toNat_ofNat, Nat.mod_eq_of_lt (putBits_lt h hh w v)]

/-- A field of a register reads back. -/
theorem getField_setField_self {hi lo : Nat} (h : lo ≤ hi + 1) (hh : hi < 64) (w : W64) (v : Nat) :
    getField (setField w hi lo v) hi lo = v % 2 ^ (hi + 1 - lo) := by
  rw [getField, setField_toNat h hh, bits_putBits_self h]

/-- The other fields of a register stay. -/
theorem getField_setField_ne {hi lo hi' lo' : Nat} (h : lo ≤ hi + 1) (hh : hi < 64) (hd : hi' < lo ∨ hi < lo') (w : W64) (v : Nat) :
    getField (setField w hi lo v) hi' lo' = getField w hi' lo' := by
  rw [getField, getField, setField_toNat h hh, bits_putBits_ne h hd]

/-! ### Stored granules -/

/-- A stored granule reads back. -/
@[simp] theorem regGet_regPut_self (s : State) (o : Nat) (v : W64) : regGet (regPut s o v) o = v := by
  unfold regGet regPut
  by_cases hv : v = regReset o
  · simp [hv]
  · simp [hv]

/-- Every other granule keeps its value. -/
theorem regGet_regPut_ne (s : State) {o o' : Nat} (v : W64) (ho : o' ≠ o) : regGet (regPut s o v) o' = regGet s o' := by
  unfold regGet regPut
  by_cases hv : v = regReset o
  · simp [hv, tget?_tdel_ne _ ho]
  · simp [hv, tget?_tput_ne _ _ ho]

/-- A field set reads back. -/
theorem fget_fset_self (s : State) {hi lo : Nat} (hl : lo ≤ hi + 1) (hh : hi < 64) (o v : Nat) :
    fget (fset s o hi lo v) o hi lo = v % 2 ^ (hi + 1 - lo) := by
  rw [fget, fset, regGet_regPut_self, getField_setField_self hl hh]

/-- A field of another granule stays. -/
theorem fget_fset_granule (s : State) {o o' : Nat} (ho : o' ≠ o) (hi lo v hi' lo' : Nat) :
    fget (fset s o hi lo v) o' hi' lo' = fget s o' hi' lo' := by
  rw [fget, fget, fset, regGet_regPut_ne s _ ho]

/-- Another field of the granule stays. -/
theorem fget_fset_field (s : State) {hi lo hi' lo' : Nat} (hl : lo ≤ hi + 1) (hh : hi < 64)
    (hd : hi' < lo ∨ hi < lo') (o v : Nat) : fget (fset s o hi lo v) o hi' lo' = fget s o hi' lo' := by
  rw [fget, fget, fset, regGet_regPut_self, getField_setField_ne hl hh hd]

/-- A field reads only the granule it stands in. -/
theorem fget_congr {s t : State} (h : t.ctl.regs = s.ctl.regs) (o hi lo : Nat) : fget t o hi lo = fget s o hi lo := by
  simp only [fget, regGet, h]

/-- A field is below its width. -/
theorem fget_lt (s : State) (o hi lo : Nat) : fget s o hi lo < 2 ^ (hi + 1 - lo) := bits_lt _ _ _

end Sys2Proof.Machine
end

