-- ==== Sys2Proof/Laws/Issue.lean ====
section
/-! SUPPORT. What sending one instruction to a core does: the checks of a bundle of one instruction, its effect, and the core
after it. The per-instruction statements follow from submit_fly, submit_core and submit_effect. -/

namespace Sys2Proof.Machine

theorem setCore_setCore {s : State} {pk : Nat} {a b : Core} (ha : a ≠ Core.init) (hb : b ≠ Core.init) :
    setCore (setCore s pk a) pk b = setCore s pk b := by
  simp [setCore, tset, ha, hb]

@[simp] theorem coreOf_setCore (s : State) (pk : Nat) (c : Core) : coreOf (setCore s pk c) pk = c := by
  simp [coreOf, setCore]

theorem coreOf_setCore_ne (s : State) {pk k : Nat} (c : Core) (h : k ≠ pk) : coreOf (setCore s pk c) k = coreOf s k :=
  tget_tset_ne _ _ _ h

@[simp] theorem physCore_setCore (s : State) (pk lc : Nat) (c : Core) : physCore (setCore s pk c) lc = physCore s lc := rfl
@[simp] theorem bundleCount_setCore (s : State) (pk lc : Nat) (c : Core) : bundleCount (setCore s pk c) lc = bundleCount s lc := rfl

theorem ne_init_of_st {c : Core} (h : c.st ≠ .off) : c ≠ Core.init := fun e => h (by rw [e]; rfl)

theorem startEngine_none {s : State} {lc : Nat} (h : (coreL s lc).eng = []) : startEngine s lc = s := by
  simp [startEngine, h]

theorem tryCommit_run {s : State} {pk : Nat} (h : (coreOf s pk).st ≠ .commit) : tryCommit s pk = s := by
  simp [tryCommit, commitReady, h]

theorem landTo_nil {c : Core} (h : c.fly = []) (n : Nat) : c.landTo n = c := by
  cases c; simp_all [Core.landTo]


theorem coreL_st_setCore {s : State} {pk : Nat} {d : Core} (hd : d.st = (coreOf s pk).st) (a : Nat) :
    (coreL (setCore s pk d) a).st = (coreL s a).st := by
  by_cases e : physCore s a = pk
  · simp [coreL, e, hd]
  · rw [coreL, physCore_setCore, coreOf_setCore_ne _ _ e, coreL]

theorem place_setCore (s : State) (pk : Nat) (d : Core) (a : Nat) : place (setCore s pk d) a = place s a := by
  have h1 : ∀ o, regGet (setCore s pk d) o = regGet s o := fun _ => rfl
  have h2 : ∀ k, fastPlace (setCore s pk d) k = fastPlace s k := fun _ => rfl
  have h3 : ∀ t, inReset (setCore s pk d) t = inReset s t := fun _ => rfl
  simp only [place, h1, h2, h3]

theorem badAddr_setCore (s : State) (pk : Nat) (d : Core) (f : Place → Bool) (a n : Nat) :
    badAddr (setCore s pk d) f a n = badAddr s f a n := by
  simp only [badAddr, place_setCore]

theorem issueTraps_sent {s : State} {pk lc : Nat} {d c : Core} {x : List Slot} {o : KOp} {i : Ins}
   (hd : d.st = (coreOf s pk).st) : issueTraps (setCore s pk d) lc {c with stream := x} o i = issueTraps s lc c o i := by
  have hp : pendTrap {c with stream := x} o i = pendTrap c o i := rfl
  have hs : ∀ a, (coreL (setCore s pk d) a).st = (coreL s a).st := coreL_st_setCore hd
  have ha : accTraps (setCore s pk d) {c with stream := x} o i = accTraps s c o i := by
    have h1 : accAddr {c with stream := x} o i = accAddr c o i := rfl
    have h2 : accDev {c with stream := x} i = accDev c i := rfl
    have h3 : ∀ f a n, badAddr (setCore s pk d) f a n = badAddr s f a n := badAddr_setCore s pk d
    simp only [accTraps, h1, h2, h3]
  have hr : arrTraps (setCore s pk d) {c with stream := x} o i = arrTraps s c o i := by
    unfold arrTraps Core.arrN; rfl
  have hm : dmaTraps (setCore s pk d) lc {c with stream := x} o i = dmaTraps s lc c o i := by
    have h1 : fabEnabled (setCore s pk d) = fabEnabled s := rfl
    have h2 : ∀ n, isSelf (setCore s pk d) n = isSelf s n := fun n => rfl
    have h3 : ∀ n m, routeLink (setCore s pk d) n m = routeLink s n m := fun n m => rfl
    have h4 : ∀ n, Core.sGet {c with stream := x} n = Core.sGet c n := fun n => rfl
    simp only [dmaTraps, h1, h2, h3, h4]
  have hv : moveTraps (setCore s pk d) lc {c with stream := x} o i = moveTraps s lc c o i := by
    cases o <;> simp only [moveTraps, ha, hm, hs] <;> rfl
  unfold issueTraps
  rw [hp, ha, hr, hv]
  rfl
theorem runCore_one {s : State} {pk lc : Nat} (x : Slot) (hs : (coreOf s pk).st = .run) (hx : (coreOf s pk).stream = [x])
    (hl : x.ins.last = true) {t : State} (ht : issueBundle s pk lc [x] = (t, true)) :
    runCore 1 s pk lc =
      startEngine (modCore t pk fun c => if c.st = .run ∨ c.st = .commit then { c with stream := [] } else c) lc := by
  simp [runCore, hs, hx, splitBundle, hl, ht]

/-- A bundle of one executing instruction that meets nothing takes its effect. -/
theorem issueBundle_one {s : State} {pk lc : Nat} {o : KOp} {i : Ins} (c : Core) (hc : coreOf s pk = c)
    (hn : c ≠ Core.init) (hset : setCore s pk c = s)
    (hfly : c.fly = []) (hload : c.loads = []) (hstall : c.stalled = false) (hg : i.gap = 0) (hs : i.stall = 0)
    (hd : decodeOk o i = true) (hb : isBranch o = true → c.delay = none) (hx : executes c o i = true)
    (hw : isStore o = true → c.wb.length < 16) (hwt : o = .wait → i.imm16 ≤ tget 0 c.tok i.tok)
    (ht : issueTraps s lc c o i = []) (hp : pk ∉ s.stone.parityAt) (hq : poisonUse c o i = none)
    (hz : scaleStops s pk [⟨o, i⟩] = false) :
    issueBundle s pk lc [⟨o, i⟩] =
      (let t := modCore (effect s pk lc c o i) pk fun d => d.advance c [⟨o, i⟩]
       let d := coreOf t pk
       if d.st = .run ∧ bundleCount t lc ≤ d.pc then (windowFault t lc d.pc 0 0x19 0xFFFF none, true) else (t, true)) := by
  have hi : ({ i with gap := 0, stall := 0 } : Ins) = i := by cases i; simp_all
  have hsp : inSlotOrder (spent [⟨o, i⟩]) = [⟨o, i⟩] := by
    have hr : List.range 4 = [0, 1, 2, 3] := rfl
    have h4 : (⟨o, i⟩ : Slot).pos = 0 ∨ (⟨o, i⟩ : Slot).pos = 1 ∨ (⟨o, i⟩ : Slot).pos = 2 ∨ (⟨o, i⟩ : Slot).pos = 3 := by
      have := i.slot.isLt
      simp only [Slot.pos]
      omega
    simp only [spent, List.map, hi, inSlotOrder, hr, List.flatMap_cons, List.flatMap_nil, List.filter_cons, List.filter_nil]
    rcases h4 with h | h | h | h <;> simp [h]
  have hkn : i.spells o = true := by
    simp only [decodeOk, Bool.and_eq_true] at hd
    exact hd.1.1.1.1
  have hdf : decodeFaults c [⟨o, i⟩] = [] := by
    have hbr : ¬(isBranch o = true ∧ c.delay.isSome = true) := by
      rintro ⟨h1, h2⟩
      rw [hb h1] at h2
      simp at h2
    simp only [decodeFaults, List.filterMap_cons, List.filterMap_nil, hd, if_true, List.length_cons, List.length_nil,
      List.filter_cons, List.filter_nil, Slot.known, hkn]
    cases h : dstOf o i <;> simp_all [if_neg hbr]
  have hil : interlockTo c [⟨o, i⟩] = c.cyc := by simp [interlockTo, hfly]
  have hmw : mustWait c [⟨o, i⟩] = false := by
    by_cases hso : isStore o = true
    · have := hw hso
      by_cases hwo : o = .wait
      · subst hwo; simp [isStore] at hso
      · simp [mustWait, hload, storesOf, hso, hx, hwo]; omega
    · by_cases hwo : o = .wait
      · have := hwt hwo
        simp [mustWait, hload, storesOf, hwo, this, show isStore .wait = false from rfl]
      · simp [mustWait, hload, storesOf, hso, hwo]
  have hc1 : ({ c with stalled := false } : Core) = c := by cases c; simp_all
  have hc2 : ({ c with cyc := c.cyc + 0 } : Core) = c := rfl
  simp only [issueBundle, List.head?_cons, Option.map_some, Option.getD_some, hg, hs, hc, Core.passNops, Bool.not_true,
    Bool.false_eq_true, if_false, hc2, landTo_nil hfly, hil, hsp, hdf, List.map_nil, List.filter_cons, hd, if_true,
    List.filter_nil, hmw, hc1, hset, hx, List.flatMap_cons, List.flatMap_nil, ht, List.append_nil, lowest,
    List.foldl_cons, List.foldl_nil, List.findSome?_cons, List.findSome?_nil, hq, Option.map_none, hz]
  simp [hp]


/-- What sending one instruction that issues alone does. -/
theorem submit_alone {o : KOp} {i : Ins} {s : State} (h : Alone o i s) :
    let lc := i.core.toNat
    let pk := physCore s lc
    let c := { s.coreFor i with stream := [⟨o, i⟩] }
    let t := modCore (effect (setCore s pk c) pk lc c o i) pk fun d => d.advance c [⟨o, i⟩]
    ((coreOf t pk).st = .run → (coreOf t pk).pc < bundleCount t lc) → physCore t lc = pk →
    submit o i s = tryCommit (startEngine (modCore t pk fun d =>
      if d.st = .run ∨ d.st = .commit then { d with stream := [] } else d) lc) pk := by
  obtain ⟨⟨⟨hrun, hstr, hfly, hload, heng, hstall⟩, ⟨hlast, hgap, hst⟩, hdec, hbr, hpc⟩, hx, hw, hwt, htr, hpar, hpoi, hsc⟩ := h
  intro lc pk c t hin hphys
  have hcf : coreOf s pk = s.coreFor i := rfl
  have hne : c ≠ Core.init := ne_init_of_st (by show (s.coreFor i).st ≠ .off; rw [hrun]; decide)
  have hsent : (modCore s pk fun c => { c with stream := (if slotFree i c.stream then c.stream else closeBundle c.stream) ++ [⟨o, i⟩] })
      = setCore s pk c := by
    simp only [modCore, hcf, hstr]
    rfl
  have hcs : coreOf (setCore s pk c) pk = c := coreOf_setCore ..
  have hb := issueBundle_one (s := setCore s pk c) (pk := pk) (lc := lc) (o := o) (i := i) c hcs hne (setCore_setCore hne hne)
    hfly hload hstall hgap hst hdec hbr hx hw hwt
    ((issueTraps_sent (by show (s.coreFor i).st = _; rfl)).trans htr) hpar hpoi hsc
  have hno : ¬((coreOf t pk).st = .run ∧ bundleCount t lc ≤ (coreOf t pk).pc) := fun ⟨h1, h2⟩ => by
    have := hin h1; omega
  have hb' : issueBundle (setCore s pk c) pk lc [⟨o, i⟩] = (t, true) := by
    rw [hb]
    exact if_neg hno
  have hnr : ¬(coreOf s (physCore s i.core.toNat)).st ≠ .run := by
    rw [show coreOf s (physCore s i.core.toNat) = s.coreFor i from rfl, hrun]; simp
  have hse : startEngine (setCore s pk c) lc = setCore s pk c := startEngine_none (by
    rw [coreL, physCore_setCore, show physCore s lc = pk from rfl, coreOf_setCore]; exact heng)
  have hgo : submit o i s = resume (setCore s pk c) lc := by
    unfold submit
    rw [if_neg hnr]
    exact congrArg (fun x => resume x lc) hsent
  rw [hgo]
  unfold resume
  rw [hse]
  show tryCommit (runCore (coreOf (setCore s pk c) pk).stream.length (setCore s pk c) pk lc) pk = _
  rw [hcs, show (c.stream).length = 1 from rfl, runCore_one ⟨o, i⟩ (by rw [hcs]; exact hrun) (by rw [hcs]) hlast hb']


theorem land_keep (c : Core) (w : RegW) :
    (c.land w).st = c.st ∧ (c.land w).eng = c.eng ∧ (c.land w).fly = c.fly ∧ (c.land w).pc = c.pc ∧ (c.land w).stream = c.stream := by
  refine ⟨?_, ?_, ?_, ?_, ?_⟩ <;> cases w <;> dsimp only [Core.land] <;> (try (split <;> rfl))

theorem land_stream (c : Core) (w : RegW) (x : List Slot) : { c.land w with stream := x } = Core.land { c with stream := x } w := by
  cases w <;> simp only [Core.land] <;> (try split) <;> rfl

/-- One instruction alone with its effect given: the core passes the bundle, then engine commands start and a COMMIT completes. -/
theorem submit_effect {o : KOp} {i : Ins} {s u : State} (h : Alone o i s) (d : Core)
    (he : effect (setCore s (physCore s i.core.toNat) { s.coreFor i with stream := [⟨o, i⟩] }) (physCore s i.core.toNat) i.core.toNat
      { s.coreFor i with stream := [⟨o, i⟩] } o i = setCore u (physCore s i.core.toNat) d)
    (hu : physCore u i.core.toNat = physCore s i.core.toNat) (hbc : bundleCount u i.core.toNat = bundleCount s i.core.toNat)
    {e : Core} (ha : d.advance { s.coreFor i with stream := [⟨o, i⟩] } [⟨o, i⟩] = e)
    (hd : d.st ≠ .off) (hst : e.st = .run ∨ e.st = .commit) (hpc : e.st = .run → e.pc < bundleCount s i.core.toNat) :
    submit o i s = tryCommit (startEngine (setCore u (physCore s i.core.toNat) { e with stream := [] }) i.core.toNat)
      (physCore s i.core.toNat) := by
  have hn : d ≠ Core.init := ne_init_of_st hd
  have hoff : e.st ≠ .off := by rcases hst with hst | hst <;> rw [hst] <;> decide
  have hn2 : e ≠ Core.init := ne_init_of_st hoff
  have hn3 : { e with stream := [] } ≠ Core.init := ne_init_of_st hoff
  have hm := submit_alone h
  simp only [he, modCore, coreOf_setCore, ha, setCore_setCore hn hn2] at hm
  have hm2 := hm (fun hr => by rw [bundleCount_setCore, hbc]; exact hpc hr) (by rw [physCore_setCore, hu])
  rw [if_pos hst, setCore_setCore hn2 hn3] at hm2
  exact hm2

/-- One instruction alone after which the core runs with an empty engine queue. -/
theorem submit_core {o : KOp} {i : Ins} {s u : State} (h : Alone o i s) (d : Core)
    (he : effect (setCore s (physCore s i.core.toNat) { s.coreFor i with stream := [⟨o, i⟩] }) (physCore s i.core.toNat) i.core.toNat
      { s.coreFor i with stream := [⟨o, i⟩] } o i = setCore u (physCore s i.core.toNat) d)
    (hu : physCore u i.core.toNat = physCore s i.core.toNat) (hbc : bundleCount u i.core.toNat = bundleCount s i.core.toNat)
    {e : Core} (ha : d.advance { s.coreFor i with stream := [⟨o, i⟩] } [⟨o, i⟩] = e)
    (hd : d.st = .run) (hst : e.st = .run) (heng : e.eng = []) (hpc : e.pc < bundleCount s i.core.toNat) :
    submit o i s = setCore u (physCore s i.core.toNat) { e with stream := [] } := by
  rw [submit_effect h d he hu hbc ha (by rw [hd]; decide) (Or.inl hst) (fun _ => hpc), startEngine_none, tryCommit_run]
  · rw [coreOf_setCore]; show e.st ≠ .commit; rw [hst]; decide
  · unfold coreL; rw [physCore_setCore, hu, coreOf_setCore]; exact heng

/-- One instruction alone whose effect works on the core in place, after which the core runs with an empty engine queue. -/
theorem submit_inPlace {o : KOp} {i : Ins} {s u : State} (h : Alone o i s)
    (he : effect (setCore s (physCore s i.core.toNat) { s.coreFor i with stream := [⟨o, i⟩] }) (physCore s i.core.toNat) i.core.toNat
      { s.coreFor i with stream := [⟨o, i⟩] } o i = u)
    (hu : physCore u i.core.toNat = physCore s i.core.toNat) (hbc : bundleCount u i.core.toNat = bundleCount s i.core.toNat)
    {e : Core} (ha : (coreOf u (physCore s i.core.toNat)).advance { s.coreFor i with stream := [⟨o, i⟩] } [⟨o, i⟩] = e)
    (hst : e.st = .run) (heng : e.eng = []) (hpc : e.pc < bundleCount s i.core.toNat) :
    submit o i s = setCore u (physCore s i.core.toNat) { e with stream := [] } := by
  have hoff : e.st ≠ .off := by rw [hst]; decide
  have hm := submit_alone h
  simp only [he, modCore, coreOf_setCore, ha] at hm
  have hm2 := hm (fun _ => by rw [bundleCount_setCore, hbc]; exact hpc) (by rw [physCore_setCore, hu])
  rw [if_pos (Or.inl hst), setCore_setCore (ne_init_of_st hoff) (ne_init_of_st (by exact hoff))] at hm2
  rw [hm2, startEngine_none, tryCommit_run]
  · rw [coreOf_setCore]; show e.st ≠ .commit; rw [hst]; decide
  · unfold coreL; rw [physCore_setCore, hu, coreOf_setCore]; exact heng

theorem advance_fly {c d : Core} {o : KOp} {i : Ins} (hb : isBranch o = false) (L : Nat) (w : RegW) (lock : Bool) (hL : 1 ≤ L)
    (hd : d.fly = [⟨d.cyc + L, w, lock⟩]) :
    d.advance c [⟨o, i⟩] =
      (let e := { d with pc := c.nextPc, delay := none, cyc := d.cyc + 1, fly := [] }
       if L = 1 then e.land w else { e with fly := [⟨d.cyc + L, w, lock⟩] }) := by
  have hf : List.find? (fun (x : Slot) => isBranch x.op) [⟨o, i⟩] = none := by simp [hb]
  simp only [Core.advance, hf, Core.landTo, hd]
  by_cases h1 : L = 1
  · subst h1
    simp only [List.takeWhile, Nat.le_refl, decide_true, List.dropWhile, List.foldl, if_true]
    have := (land_keep { d with pc := c.nextPc, delay := none, cyc := d.cyc + 1 } w)
    cases w <;> simp only [Core.land] <;> (try split) <;> rfl
  · have h2 : ¬ d.cyc + L ≤ d.cyc + 1 := by omega
    simp only [List.takeWhile, h2, decide_false, List.dropWhile, List.foldl, if_neg h1]

/-- One instruction alone that puts one register write in flight (R98) in a state u that differs outside the cores. -/
theorem submit_flyTo {o : KOp} {i : Ins} {s u : State} (h : Alone o i s) (hb : isBranch o = false) (hco : o ≠ .commit) (L : Nat) (w : RegW) (lock : Bool)
    (hL : 1 ≤ L) (huc : u.cores = s.cores) (hup : physCore u i.core.toNat = physCore s i.core.toNat)
    (hub : bundleCount u i.core.toNat = bundleCount s i.core.toNat)
    (he : effect (setCore s (physCore s i.core.toNat) { s.coreFor i with stream := [⟨o, i⟩] }) (physCore s i.core.toNat) i.core.toNat
      { s.coreFor i with stream := [⟨o, i⟩] } o i =
        modCore (setCore u (physCore s i.core.toNat) { s.coreFor i with stream := [⟨o, i⟩] }) (physCore s i.core.toNat)
          fun c => c.fly1 L w lock) :
    submit o i s = if L = 1 then u.wrote i w else u.flying i L w lock := by
  have huf : u.coreFor i = s.coreFor i := by simp only [State.coreFor, coreOf, huc, hup]
  have h0 := h
  obtain ⟨⟨⟨hrun, hstr, hfly, hload, heng, hstall⟩, -, -, -, hpc⟩, -⟩ := h0
  have hpc := hpc.resolve_left hco
  let c := s.coreFor i
  let c1 : Core := { c with stream := [⟨o, i⟩] }
  let d : Core := { c1 with fly := [⟨c.cyc + L, w, lock⟩] }
  have hc1 : c1 ≠ Core.init := ne_init_of_st (by show c.st ≠ .off; rw [hrun]; decide)
  have hd : d ≠ Core.init := ne_init_of_st (by show c.st ≠ .off; rw [hrun]; decide)
  have hfl : c1.fly1 L w lock = d := by
    simp only [Core.fly1, show c1.fly = [] from hfly, flyIns]; rfl
  have he' : effect (setCore s (physCore s i.core.toNat) c1) (physCore s i.core.toNat) i.core.toNat c1 o i =
      setCore u (physCore s i.core.toNat) d := by
    rw [he]; simp only [modCore, coreOf_setCore]
    rw [show ({ s.coreFor i with stream := [⟨o, i⟩] } : Core).fly1 L w lock = d from hfl, setCore_setCore hc1 hd]
  have had := advance_fly (c := c1) (d := d) (i := i) hb L w lock hL rfl
  by_cases h1 : L = 1
  · subst h1
    simp only [if_true] at had ⊢
    have k := land_keep { d with pc := c1.nextPc, delay := none, cyc := d.cyc + 1, fly := [] } w
    rw [submit_core h d he' hup hub had hrun (k.1.trans hrun) (k.2.1.trans heng) (by rw [k.2.2.2.1]; exact hpc)]
    rw [land_stream]
    have : ({ d with pc := c1.nextPc, delay := none, cyc := d.cyc + 1, fly := [], stream := [] } : Core) = c.past := by
      simp only [Core.past, d, c1]; cases hc : c; simp_all [c]; rfl
    rw [this]; simp only [State.wrote, hup, huf, c]
  · simp only [if_neg h1] at had ⊢
    rw [submit_core h d he' hup hub had hrun hrun heng hpc]
    simp only [State.flying, Core.past, d, c1, c, hup, huf]
    congr 1
    cases hc : s.coreFor i; simp_all [Core.nextPc]

/-- One instruction alone that puts one register write in flight (R98). -/
theorem submit_fly {o : KOp} {i : Ins} {s : State} (h : Alone o i s) (hb : isBranch o = false) (hco : o ≠ .commit) (L : Nat) (w : RegW) (lock : Bool)
    (hL : 1 ≤ L)
    (he : effect (setCore s (physCore s i.core.toNat) { s.coreFor i with stream := [⟨o, i⟩] }) (physCore s i.core.toNat) i.core.toNat
      { s.coreFor i with stream := [⟨o, i⟩] } o i =
        modCore (setCore s (physCore s i.core.toNat) { s.coreFor i with stream := [⟨o, i⟩] }) (physCore s i.core.toNat)
          fun c => c.fly1 L w lock) :
    submit o i s = if L = 1 then s.wrote i w else s.flying i L w lock :=
  submit_flyTo h hb hco L w lock hL rfl rfl rfl he

/-- A core with nothing due passes a bundle that does not branch. -/
theorem advance_plain {c d : Core} {o : KOp} {i : Ins} (hb : isBranch o = false) (hd : d.fly = []) :
    d.advance c [⟨o, i⟩] = { d with pc := c.nextPc, delay := none, cyc := d.cyc + 1 } := by
  have hf : List.find? (fun (x : Slot) => isBranch x.op) [⟨o, i⟩] = none := by simp [hb]
  simp only [Core.advance, hf, Core.landTo, hd]
  cases d; simp_all

/-- The C-slot instructions that write a register (R108). -/
theorem submit_scalar {o : KOp} {i : Ins} {s : State} (h : Alone o i s) {w : RegW} {L : Nat} (hb : isBranch o = false)
    (hr : scalarResult s i.core.toNat (s.coreFor i) o i = some (w, L)) :
    submit o i s = if L = 1 then s.wrote i w else s.flying i L w false := by
  have hr' : scalarResult (setCore s (physCore s i.core.toNat) { s.coreFor i with stream := [⟨o, i⟩] }) i.core.toNat
      { s.coreFor i with stream := [⟨o, i⟩] } o i = some (w, L) := by
    rw [← hr]; cases o <;> rfl
  have hL : 1 ≤ L := by
    cases o <;> simp [scalarResult] at hr <;> (try omega)
    obtain ⟨-, rfl⟩ := hr; split <;> decide
  refine submit_fly h hb (by rintro rfl; simp [scalarResult] at hr) L w false hL ?_
  cases o <;> simp only [effect, hr'] <;> simp [scalarResult] at hr

/-! ### Reading a scale-table entry (R185) -/

/-- Reading an entry changes nothing but the bytes it corrects. -/
theorem scaleFix_keeps (s : State) (pk t : Nat) :
    (∀ p c, scaleFix (setCore s p c) pk t = setCore (scaleFix s pk t) p c) ∧ (scaleFix s pk t).cores = s.cores ∧
    (scaleFix s pk t).run = s.run ∧ (scaleFix s pk t).plans = s.plans ∧
    ∀ g, g ∉ scaleGranules pk t → regGet (scaleFix s pk t) g = regGet s g := by
  have hd (p : Nat) (c : Core) : scaleDirty (setCore s p c) pk t = scaleDirty s pk t := rfl
  have hm : ∀ a ∈ scaleDirty s pk t, a / 8 * 8 ∈ scaleGranules pk t := fun a ha => by
    simpa [scaleDirty] using (List.mem_filter.mp ha).2
  unfold scaleFix
  simp only [hd]
  generalize scaleDirty s pk t = l at hm
  induction l generalizing s with
  | nil => exact ⟨fun _ _ => rfl, rfl, rfl, rfl, fun _ _ => rfl⟩
  | cons a l ih =>
    simp only [List.foldl_cons]
    have hl : ∀ b ∈ l, b / 8 * 8 ∈ scaleGranules pk t := fun b hb => hm b (List.mem_cons_of_mem _ hb)
    have hfound (p : Nat) (c : Core) : scaleFound (setCore s p c) a = scaleFound s a := rfl
    simp only [hfound]
    cases hf : scaleFound s a with
    | corrected v =>
      obtain ⟨h1, h2, h3, h4, h5⟩ := ih { fset s (a / 8 * 8) (8 * (a % 8) + 7) (8 * (a % 8)) v.toNat with
        ctl := { (fset s (a / 8 * 8) (8 * (a % 8) + 7) (8 * (a % 8)) v.toNat).ctl with
          syn := tdel (fset s (a / 8 * 8) (8 * (a % 8) + 7) (8 * (a % 8)) v.toNat).ctl.syn a } } (fun _ _ => rfl) hl
      refine ⟨h1, h2, h3, h4, fun g hg => (h5 g hg).trans ?_⟩
      have hne : g ≠ a / 8 * 8 := fun e => hg (e ▸ hm a (List.mem_cons_self ..))
      exact regGet_regPut_ne s _ hne
    | clean v => exact ih s (fun _ _ => rfl) hl
    | bad => exact ih s (fun _ _ => rfl) hl
    | poison => exact ih s (fun _ _ => rfl) hl

/-- No granule of a core's scale table is a map register of a cluster. -/
theorem map_notin_scale {t c r : Nat} (ht : t < 16) (hc : c < 16) (hr : r < 0x1000) (pk e : Nat) (he : e < 256) :
    clBase t c + r ∉ scaleGranules pk e := by
  intro h
  simp only [scaleGranules, List.mem_append, List.mem_cons, List.not_mem_nil, or_false, List.mem_map, List.mem_range] at h
  have hq : pk % 272 / 17 < 16 := by have := Nat.mod_lt pk (show 272 > 0 by decide); omega
  have hp : pk % 272 % 17 < 17 := Nat.mod_lt _ (by decide)
  rcases h with (h | h) | ⟨i, hi, h⟩
  · simp only [clBase, clusterBase, towerBase, coreScale, coreBase] at h
    omega
  · simp only [clBase, clusterBase, towerBase, coreScale, coreBase] at h
    omega
  · unfold ringGranule at h
    by_cases hlt : coreScale pk e < 0x40000000
    · rw [if_pos hlt] at h
      simp only [coreScale, clBase, clusterBase, towerBase, coreBase] at h
      omega
    · rw [if_neg hlt] at h
      simp only [coreScale, clBase, clusterBase, towerBase, coreBase, qncBase] at h hlt
      omega

theorem physCore_scaleFix (s : State) (pk e lc : Nat) (hl : lc < 4096) (he : e < 256) :
    physCore (scaleFix s pk e) lc = physCore s lc := by
  have h : coreMap (scaleFix s pk e) (lc / 256) (lc / 16 % 16) (lc % 16) = coreMap s (lc / 256) (lc / 16 % 16) (lc % 16) := by
    unfold coreMap fget
    rw [Nat.add_assoc, (scaleFix_keeps s pk e).2.2.2.2 _ (map_notin_scale (by omega) (by omega) (by omega) pk e he)]
  unfold physCore
  dsimp only
  rw [h]

/-- What reading an instruction's scale entry leaves. -/
theorem scalesRead_keeps (s : State) (o : KOp) (i : Ins) :
    ((scaleUse o i).map (scaleFix s (physCore s i.core.toNat))).getD s = s.scalesRead o i ∧
    (∀ p c, ((scaleUse o i).map (scaleFix (setCore s p c) (physCore s i.core.toNat))).getD (setCore s p c) =
      setCore (s.scalesRead o i) p c) ∧
    (s.scalesRead o i).cores = s.cores ∧ physCore (s.scalesRead o i) i.core.toNat = physCore s i.core.toNat ∧
    bundleCount (s.scalesRead o i) i.core.toNat = bundleCount s i.core.toNat := by
  unfold State.scalesRead
  cases h : scaleUse o i with
  | none => exact ⟨rfl, fun _ _ => rfl, rfl, rfl, rfl⟩
  | some e =>
    have he : e < 256 := by
      have : e = i.tensor := by cases o <;> simp_all [scaleUse]
      rw [this]; exact Nat.lt_of_lt_of_le (bits_lt _ _ _) (by decide)
    obtain ⟨h1, h2, h3, h4, -⟩ := scaleFix_keeps s (physCore s i.core.toNat) e
    refine ⟨rfl, fun p c => h1 p c, h2, physCore_scaleFix _ _ _ _ i.core.isLt he, ?_⟩
    show bundleCount (scaleFix s (physCore s i.core.toNat) e) i.core.toNat = _
    simp only [bundleCount, runPlan, h3, h4]

/-- The V-slot instructions that capture nothing (R113). -/
theorem submit_vector {o : KOp} {i : Ins} {s : State} (h : Alone o i s) {w : RegW}
    (hr : vectorResult (s.scalesRead o i) (physCore s i.core.toNat) i.core.toNat (s.coreFor i) o i = some (w, none)) :
    submit o i s = if vLatency o = 1 then (s.scalesRead o i).wrote i w else (s.scalesRead o i).flying i (vLatency o) w false := by
  obtain ⟨-, hsc, hcores, hphys, hbc⟩ := scalesRead_keeps s o i
  have hr' : vectorResult (setCore (s.scalesRead o i) (physCore s i.core.toNat) { s.coreFor i with stream := [⟨o, i⟩] }) (physCore s i.core.toNat)
      i.core.toNat { s.coreFor i with stream := [⟨o, i⟩] } o i = some (w, none) := by
    rw [← hr]
    cases o <;> simp only [vectorResult, vLane] <;> rfl
  have hv : slotOf o = 2 := by cases o <;> simp [vectorResult, vLane] at hr <;> rfl
  refine submit_flyTo h (by cases o <;> simp [slotOf] at hv <;> rfl) (by rintro rfl; simp [slotOf] at hv) _ w false
    (by cases o <;> simp [slotOf] at hv <;> decide) hcores hphys hbc ?_
  have hs : scalarResult (setCore s (physCore s i.core.toNat) { s.coreFor i with stream := [⟨o, i⟩] }) i.core.toNat
      { s.coreFor i with stream := [⟨o, i⟩] } o i = none := by
    cases o <;> simp [slotOf] at hv <;> rfl
  have hx := hsc (physCore s i.core.toNat) { s.coreFor i with stream := [⟨o, i⟩] }
  cases o <;> simp [slotOf] at hv <;> simp only [effect, hs, hx, hr']

/-- A row whose word spells its opcode sends it to the core. -/
theorem kci_alone {o : KOp} {i : Ins} {s : State} {n : String} (h : Alone o i s) : kci o n i s = .next (settle (submit o i s)) := by
  have hd := h.1.2.2.1
  have hs : i.spells o = true := by
    simp only [decodeOk, Bool.and_eq_true] at hd
    exact hd.1.1.1.1
  have hw : i.word ≠ 0 := by
    intro h0
    have ho : i.opcode = opcodeOf o := by
      simp only [Ins.spells, Bool.and_eq_true, decide_eq_true_eq] at hs
      exact hs.1.1
    have hz : i.opcode = 0 := by unfold Ins.opcode; rw [h0]; rfl
    rw [hz] at ho
    cases o <;> exact absurd ho (by decide)
  have hr : rowTakes o i = true := by
    simp only [rowTakes, hs, Bool.true_or, Bool.and_true, decide_eq_true_eq]
    exact hw
  simp only [kci, shaped, hr, if_true, finish]

end Sys2Proof.Machine
end

