-- ==== Sys2Proof/Laws/Notice.lean ====
section
/-! SUPPORT. What a notice, a counter and the pins leave alone. -/

namespace Sys2Proof.Machine

/-- Storing a register changes the register file alone. -/
@[simp] theorem still_regPut (s : State) (o : Nat) (v : W64) : (regPut s o v).still = s.still := rfl
@[simp] theorem still_fset (s : State) (o hi lo v : Nat) : (fset s o hi lo v).still = s.still := rfl
@[simp] theorem still_emit (s : State) (o : Out) : (emit s o).still = s.still := rfl

@[simp] theorem still_countRaw (s : State) (o hi lo fo b n : Nat) : (countRaw s o hi lo fo b n).1.still = s.still := by
  unfold countRaw
  split
  · rfl
  · dsimp only
    split <;> rfl

@[simp] theorem still_queueNotice (s : State) (c v so t d : Nat) : (queueNotice s c v so t d).1.still = s.still := by
  unfold queueNotice
  dsimp only
  split <;> rfl

@[simp] theorem still_noticeDropped (s : State) : (noticeDropped s).still = s.still := by
  unfold noticeDropped
  dsimp only
  rw [still_fset]
  split
  · exact (still_queueNotice ..).trans (still_countRaw ..)
  · exact still_countRaw ..

@[simp] theorem still_overflowNotice (s : State) (k : BK) (o n : Nat) : (overflowNotice s k o n).still = s.still := by
  unfold overflowNotice
  dsimp only
  split
  · exact (still_noticeDropped _).trans (still_queueNotice ..)
  · exact still_queueNotice ..

@[simp] theorem still_alertUpdate (s : State) : (alertUpdate s).still = s.still := by
  unfold alertUpdate
  dsimp only
  split
  · split
    · split
      · exact (still_overflowNotice ..).trans (still_countRaw ..)
      · exact still_countRaw ..
    · rfl
  · rfl

@[simp] theorem still_setAlert (s : State) (b : Nat) : (setAlert s b).still = s.still := still_alertUpdate _

/-- A notice changes nothing but the alert status, the pins and the queue of notices (R57, R60, R61). -/
@[simp] theorem still_notice (s : State) (c v so t d : Nat) : (notice s c v so t d).still = s.still := by
  have aux (u : State) : (if (queueNotice u c v so t d).2 = true then alertUpdate (noticeDropped (queueNotice u c v so t d).1)
      else (queueNotice u c v so t d).1).still = u.still := by
    split
    · exact (still_alertUpdate _).trans ((still_noticeDropped _).trans (still_queueNotice ..))
    · exact still_queueNotice ..
  unfold notice
  cases alertBit c with
  | none => exact aux s
  | some b => exact (aux _).trans (still_setAlert s b)

/-- Counting an event changes nothing but registers and, at an overflow, what a notice changes (R50, R51). -/
@[simp] theorem still_countAt (s : State) (base o hi lo n amt : Nat) : (countAt s base o hi lo n amt).still = s.still := by
  unfold countAt
  dsimp only
  split
  · split
    · exact (still_notice ..).trans (still_countRaw ..)
    · exact still_countRaw ..
  · exact still_countRaw ..

@[simp] theorem still_count (s : State) (base n amt : Nat) : (count s base n amt).still = s.still := still_countAt ..
@[simp] theorem still_countStn (s : State) (n amt : Nat) : (countStn s n amt).still = s.still := still_countAt ..

/-- Letting the pins follow the registers changes nothing else (R93, R495). -/
@[simp] theorem still_settle (s : State) : (settle s).still = s.still := by
  unfold settle
  dsimp only
  split
  · refine (still_alertUpdate _).trans ?_
    split <;> rfl
  · rfl

theorem mem_of_still {s t : State} (h : s.still = t.still) : s.mem = t.mem := congrArg (fun x => x.mem) h
theorem run_of_still {s t : State} (h : s.still = t.still) : s.run = t.run := congrArg (fun x => x.run) h
theorem cores_of_still {s t : State} (h : s.still = t.still) : s.cores = t.cores := congrArg (fun x => x.cores) h
theorem boot_of_still {s t : State} (h : s.still = t.still) : s.boot = t.boot := congrArg (fun x => x.boot) h

/-! ### Registers that the alert pin does not move -/

theorem regGet_queueNotice (s : State) (c v so t d g : Nat) : regGet (queueNotice s c v so t d).1 g = regGet s g := by
  unfold queueNotice
  dsimp only
  split <;> rfl

/-- Counting touches the counter and its flag alone. -/
theorem regGet_countRaw (s : State) (o hi lo fo b n : Nat) {g : Nat} (h1 : g ≠ o) (h2 : g ≠ fo) :
    regGet (countRaw s o hi lo fo b n).1 g = regGet s g := by
  unfold countRaw
  split
  · rfl
  · dsimp only
    split
    · exact regGet_regPut_ne _ _ h1
    · exact (regGet_regPut_ne _ _ h2).trans (regGet_regPut_ne _ _ h1)

/-- What a dropped notice leaves of PIP_ALERT_STATUS: bit 7 is set (R495). -/
theorem status_noticeDropped (s : State) : regGet (noticeDropped s) (pipBase + 0x10) = setField (regGet s (pipBase + 0x10)) 7 7 1 := by
  unfold noticeDropped fset
  dsimp only
  rw [regGet_regPut_self]
  have h := regGet_countRaw s (stnBase + 0x1068) 63 0 (stnBase + 0x700) 21 1 (g := pipBase + 0x10) (by decide) (by decide)
  split
  · rw [regGet_queueNotice, h]
  · rw [h]

theorem regGet_noticeDropped (s : State) {g : Nat} (h : g ∉ alertRegs) : regGet (noticeDropped s) g = regGet s g := by
  simp only [alertRegs, List.mem_cons, List.not_mem_nil, or_false, not_or] at h
  unfold noticeDropped
  dsimp only
  unfold fset
  rw [regGet_regPut_ne _ _ h.2.2.2.2]
  have k := regGet_countRaw s (stnBase + 0x1068) 63 0 (stnBase + 0x700) 21 1 h.2.2.1 h.2.2.2.1
  split
  · rw [regGet_queueNotice, k]
  · exact k

theorem regGet_overflowNotice (s : State) (k : BK) (o n : Nat) {g : Nat} (h : g ∉ alertRegs) :
    regGet (overflowNotice s k o n) g = regGet s g := by
  unfold overflowNotice
  dsimp only
  split
  · exact (regGet_noticeDropped _ h).trans (regGet_queueNotice ..)
  · exact regGet_queueNotice ..

/-- Driving ALERT_L moves only registers of `alertRegs`. -/
theorem regGet_alertUpdate (s : State) {g : Nat} (h : g ∉ alertRegs) : regGet (alertUpdate s) g = regGet s g := by
  have h' := h
  simp only [alertRegs, List.mem_cons, List.not_mem_nil, or_false, not_or] at h'
  have hr (s : State) := regGet_countRaw s (pipBase + 0x200) 63 0 (pipBase + 0x700) 0 1 h'.1 h'.2.1
  unfold alertUpdate
  dsimp only
  split
  · split
    · split
      · rw [regGet_overflowNotice _ _ _ _ h, hr]; rfl
      · rw [hr]; rfl
    · rfl
  · rfl

/-- Driving ALERT_L leaves PIP_ALERT_STATUS, or sets its bit 7 while ALERT_L is being asserted (R61, R495). -/
theorem status_alertUpdate (s : State) :
    regGet (alertUpdate s) (pipBase + 0x10) = regGet s (pipBase + 0x10) ∨
    (fget s (pipBase + 0x10) 8 0 &&& fget s (pipBase + 0x18) 8 0 ≠ 0 ∧
      regGet (alertUpdate s) (pipBase + 0x10) = setField (regGet s (pipBase + 0x10)) 7 7 1) := by
  have hr (s : State) := regGet_countRaw s (pipBase + 0x200) 63 0 (pipBase + 0x700) 0 1 (g := pipBase + 0x10) (by decide) (by decide)
  have ho (s : State) (k : BK) (o n : Nat) : regGet (overflowNotice s k o n) (pipBase + 0x10) = regGet s (pipBase + 0x10) ∨
      regGet (overflowNotice s k o n) (pipBase + 0x10) = setField (regGet s (pipBase + 0x10)) 7 7 1 := by
    unfold overflowNotice
    dsimp only
    split
    · exact Or.inr (by rw [status_noticeDropped, regGet_queueNotice])
    · exact Or.inl (regGet_queueNotice ..)
  have hc (u : State) (hu : regGet u (pipBase + 0x10) = regGet s (pipBase + 0x10)) :
      let r := countRaw u (pipBase + 0x200) 63 0 (pipBase + 0x700) 0 1
      let t := if r.2 then overflowNotice r.1 .pip (pipBase + 0x200) 0 else r.1
      regGet t (pipBase + 0x10) = regGet s (pipBase + 0x10) ∨ regGet t (pipBase + 0x10) = setField (regGet s (pipBase + 0x10)) 7 7 1 := by
    dsimp only
    split
    · rcases ho (countRaw u (pipBase + 0x200) 63 0 (pipBase + 0x700) 0 1).1 .pip (pipBase + 0x200) 0 with h | h
      · exact Or.inl (h.trans ((hr u).trans hu))
      · exact Or.inr (h.trans (by rw [hr, hu]))
    · exact Or.inl ((hr u).trans hu)
  unfold alertUpdate
  dsimp only
  split
  · split
    · rename_i hon
      rcases hc { s with pip := { s.pip with alert := decide (fget s (pipBase + 0x10) 8 0 &&& fget s (pipBase + 0x18) 8 0 ≠ 0) }, out := s.out ++ [.pin 0 (!(decide (fget s (pipBase + 0x10) 8 0 &&& fget s (pipBase + 0x18) 8 0 ≠ 0)))] } rfl with h | h
      · exact Or.inl h
      · exact Or.inr ⟨hon, h⟩
    · exact Or.inl rfl
  · exact Or.inl rfl

/-- The pins' levels move only registers of `alertRegs`. -/
theorem regGet_settle (s : State) {g : Nat} (h : g ∉ alertRegs) : regGet (settle s) g = regGet s g := by
  unfold settle
  dsimp only
  split
  · rw [regGet_alertUpdate _ h]
    split <;> rfl
  · rfl

/-- A notice moves only registers of `alertRegs`. -/
theorem regGet_notice (s : State) (c v so t d : Nat) {g : Nat} (h : g ∉ alertRegs) : regGet (notice s c v so t d) g = regGet s g := by
  have hg : g ≠ pipBase + 0x10 := by rintro rfl; exact h (by simp [alertRegs])
  have hs (b : Nat) : regGet (setAlert s b) g = regGet s g := by
    unfold setAlert; rw [regGet_alertUpdate _ h]; exact regGet_regPut_ne _ _ hg
  have hu (u : State) (hu : regGet u g = regGet s g) : regGet (let r := queueNotice u c v so t d
      if r.2 then alertUpdate (noticeDropped r.1) else r.1) g = regGet s g := by
    dsimp only
    split
    · rw [regGet_alertUpdate _ h, regGet_noticeDropped _ h, regGet_queueNotice]; exact hu
    · rw [regGet_queueNotice]; exact hu
  unfold notice
  cases alertBit c with
  | none => exact hu s rfl
  | some b => exact hu _ (hs b)

/-- Counting moves its counter, its flag and, where it raises a notice, registers of `alertRegs`. -/
theorem regGet_countAt (s : State) (base o hi lo n amt : Nat) {g : Nat} (h : g ∉ alertRegs) (h1 : g ≠ o) (h2 : g ≠ base + 0x700 + 8 * (n / 64)) :
    regGet (countAt s base o hi lo n amt) g = regGet s g := by
  have k := regGet_countRaw s o hi lo (base + 0x700 + 8 * (n / 64)) (n % 64) amt h1 h2
  unfold countAt
  dsimp only
  split
  · split
    · rw [regGet_notice _ _ _ _ _ _ h, k]
    · exact k
  · exact k

/-- A status bit of a masked status that is not 0 stays so with bit 7 set. -/
theorem masked_ne_zero {w : W64} {m : Nat} (h : getField w 8 0 &&& m ≠ 0) : getField (setField w 7 7 1) 8 0 &&& m ≠ 0 := by
  obtain ⟨i, hi⟩ := Nat.exists_testBit_of_ne_zero h
  rw [Nat.testBit_and, Bool.and_eq_true] at hi
  have tb (v : W64) (i : Nat) : (getField v 8 0).testBit i = (decide (i < 9) && v.toNat.testBit i) := by
    show (v.toNat >>> 0 % 2 ^ 9).testBit i = _
    rw [Nat.shiftRight_zero, Nat.testBit_mod_two_pow]
  have one (v : W64) (i : Nat) : v.toNat.testBit i = decide (getField v i i = 1) := by
    simp only [getField, bits, Nat.add_sub_cancel_left, pow_one, Nat.testBit, Nat.one_and_eq_mod_two]
    rcases Nat.mod_two_eq_zero_or_one (v.toNat >>> i) with h | h <;> simp [h]
  have hi1 := hi.1
  rw [tb, Bool.and_eq_true, decide_eq_true_eq] at hi1
  have k : (getField (setField w 7 7 1) 8 0).testBit i = true := by
    rw [tb, Bool.and_eq_true, decide_eq_true_eq]
    refine ⟨hi1.1, ?_⟩
    rw [one, decide_eq_true_eq]
    by_cases h7 : i = 7
    · subst h7; rw [getField_setField_self (by decide) (by decide)]; rfl
    · have hw := hi1.2
      rw [one, decide_eq_true_eq] at hw
      rw [getField_setField_ne (by omega) (by omega) (by omega)]; exact hw
  intro h0
  have := Nat.testBit_and (getField (setField w 7 7 1) 8 0) m i
  rw [h0, k, hi.2] at this
  simp at this

end Sys2Proof.Machine
end

