-- ==== Sys2Proof/Laws/CacheFrame.lean ====
section
/-! SUPPORT. What the caches leave alone: serving a line at a home slice or in an L1 changes no plan, no map register of a cluster and, of a core,
only its L1. -/

namespace Sys2Proof.Machine

/-- A granule of CL_CORE_MAP or CL_COL_MAP. -/
def isMap (g : Nat) : Prop := ∃ t < 16, ∃ c < 16, ∃ j < 4, g = clBase t c + 0x10 + 8 * j

/-- The state t has the plans, the run and the map registers of s, and its cores but for their L1. -/
def Quiet (s t : State) : Prop :=
  t.run = s.run ∧ t.plans = s.plans ∧ (∀ g, isMap g → regGet t g = regGet s g) ∧
  ∀ k, ∃ l u, coreOf t k = { coreOf s k with l1 := l, l1plru := u }

theorem Quiet.refl (s : State) : Quiet s s := ⟨rfl, rfl, fun _ _ => rfl, fun _ => ⟨_, _, rfl⟩⟩

theorem Quiet.trans {a b c : State} (h : Quiet a b) (g : Quiet b c) : Quiet a c := by
  refine ⟨g.1.trans h.1, g.2.1.trans h.2.1, fun x hx => (g.2.2.1 x hx).trans (h.2.2.1 x hx), fun k => ?_⟩
  obtain ⟨l, u, e⟩ := h.2.2.2 k
  obtain ⟨l', u', e'⟩ := g.2.2.2 k
  exact ⟨l', u', by rw [e', e]⟩

/-- A state with the run, plans, registers and cores of s. -/
theorem Quiet.same {s t : State} (hr : t.run = s.run) (hp : t.plans = s.plans) (hg : t.ctl.regs = s.ctl.regs) (hc : t.cores = s.cores) : Quiet s t :=
  ⟨hr, hp, fun g _ => by simp only [regGet, hg], fun k => ⟨(coreOf s k).l1, (coreOf s k).l1plru, by unfold coreOf; rw [hc]⟩⟩

theorem Quiet.ite {s a b : State} {p : Prop} [Decidable p] (ha : Quiet s a) (hb : Quiet s b) : Quiet s (if p then a else b) := by
  split
  · exact ha
  · exact hb

theorem Quiet.fold {α : Type} {f : State → α → State} (h : ∀ s a, Quiet s (f s a)) (l : List α) (s : State) : Quiet s (l.foldl f s) := by
  induction l generalizing s with
  | nil => exact Quiet.refl s
  | cons a l ih => exact (h s a).trans (ih _)

theorem quiet_setCore {s : State} {pk : Nat} {l : Tbl L1Line} {u : Tbl (BitVec 16)} : Quiet s (setCore s pk { coreOf s pk with l1 := l, l1plru := u }) := by
  refine ⟨rfl, rfl, fun _ _ => rfl, fun k => ?_⟩
  by_cases h : k = pk
  · subst h; exact ⟨l, u, coreOf_setCore ..⟩
  · exact ⟨_, _, coreOf_setCore_ne s _ h⟩

/-! ### Counters and logs -/

/-- The block at a base lies away from every map register. -/
def Apart (base : Nat) : Prop := ∀ r < 0x800, ¬ isMap (base + r)

theorem apart_llc (ch : Nat) : Apart (slBase ch) := by
  rintro r hr ⟨t, ht, c, hc, j, hj, h⟩
  have : ch % 272 < 272 := Nat.mod_lt _ (by decide)
  simp only [slBase, llcBase, clBase, clusterBase, towerBase] at h
  omega

theorem apart_ch (ch : Nat) : Apart (chBase ch) := by
  rintro r hr ⟨t, ht, c, hc, j, hj, h⟩
  have : ch % 272 < 272 := Nat.mod_lt _ (by decide)
  simp only [chBase, vchBase, clBase, clusterBase, towerBase] at h
  omega

theorem apart_brz (t : Nat) : Apart (brzBase t) := by
  rintro r hr ⟨t, ht, c, hc, j, hj, h⟩
  simp only [brzBase, clBase, clusterBase, towerBase] at h
  omega

theorem apart_core (pk : Nat) : Apart (coreBase (pk / 272) (pk % 272)) := by
  rintro r hr ⟨t, ht, c, hc, j, hj, h⟩
  have : pk % 272 < 272 := Nat.mod_lt _ (by decide)
  have : pk % 272 / 17 < 16 := by omega
  simp only [coreBase, clBase, clusterBase, towerBase] at h
  omega

theorem map_not_alert {g : Nat} (h : isMap g) : g ∉ alertRegs := by
  obtain ⟨t, ht, c, hc, j, hj, rfl⟩ := h
  simp only [alertRegs, List.mem_cons, List.not_mem_nil, or_false, not_or, clBase, clusterBase, towerBase, pipBase, stnBase]
  omega

theorem Quiet.of_still {s t : State} (h : t.still = s.still) (hg : ∀ g, isMap g → regGet t g = regGet s g) : Quiet s t :=
  ⟨run_of_still h, congrArg (fun x => x.plans) h, hg, fun k => ⟨(coreOf s k).l1, (coreOf s k).l1plru, by unfold coreOf; rw [cores_of_still h]⟩⟩

theorem quiet_notice (s : State) (c v so t d : Nat) : Quiet s (notice s c v so t d) :=
  .of_still (still_notice ..) fun _ hg => regGet_notice _ _ _ _ _ _ (map_not_alert hg)

theorem quiet_regPut (s : State) {o : Nat} (v : W64) (h : ¬ isMap o) : Quiet s (regPut s o v) :=
  .of_still rfl fun g hg => regGet_regPut_ne _ _ (by rintro rfl; exact h hg)

theorem quiet_fset (s : State) {o : Nat} (hi lo v : Nat) (h : ¬ isMap o) : Quiet s (fset s o hi lo v) := quiet_regPut _ _ h

theorem quiet_count (s : State) {base n : Nat} (amt : Nat) (hb : Apart base) (hn : n < 64) : Quiet s (count s base n amt) := by
  refine .of_still (still_count ..) fun g hg => regGet_countAt _ _ _ _ _ _ _ (map_not_alert hg) ?_ ?_
  · rintro rfl; exact hb (0x200 + 8 * n) (by omega) (by rwa [← Nat.add_assoc])
  · rintro rfl
    exact hb 0x700 (by omega) (by rwa [show n / 64 = 0 by omega] at hg)

theorem quiet_logError (s : State) {base : Nat} (source : Nat) (y : BitVec 5) (loc : Nat) (hb : Apart base) : Quiet s (logError s base source y loc) := by
  have hc : ¬ isMap (base + 0x480) := hb _ (by omega)
  unfold logError
  dsimp only
  split
  · next h =>
    exact (quiet_regPut s _ (by rw [Nat.add_assoc]; exact hb _ (by omega))).trans (quiet_fset _ _ _ _ hc)
  · split
    · exact .refl s
    · split
      · exact (quiet_fset s _ _ _ hc).trans (quiet_notice ..)
      · exact quiet_fset s _ _ _ hc

theorem quiet_foundError (s : State) (k : BK) {base : Nat} (source : Nat) (y : BitVec 5) (loc : Nat) (fixed : Bool) (hb : Apart base) :
    Quiet s (foundError s k base source y loc fixed) := by
  unfold foundError
  dsimp only
  refine (quiet_count s 1 hb ?_).trans (quiet_logError _ _ _ _ hb)
  cases k <;> cases fixed <;> decide

/-! ### The slice -/

theorem quiet_memPut (s : State) (a : Nat) (b : Byte) (y : BitVec 5) : Quiet s (memPut s a b y) := .same rfl rfl rfl rfl
theorem quiet_linePut (s : State) (lk : Nat) (l : SLine) : Quiet s (linePut s lk l) := .same rfl rfl rfl rfl
theorem quiet_lineDrop (s : State) (lk : Nat) : Quiet s (lineDrop s lk) := .same rfl rfl rfl rfl
theorem quiet_closeMiss (s : State) (lk : Nat) : Quiet s (closeMiss s lk) := .same rfl rfl rfl rfl
theorem quiet_missWritten (s : State) (lk : Nat) : Quiet s (missWritten s lk) := .same rfl rfl rfl rfl
theorem quiet_setDir (s : State) (lk : Nat) (d : Dir) : Quiet s (setDir s lk d) := quiet_linePut ..
theorem quiet_lineTouch (s : State) (lk : Nat) : Quiet s (lineTouch s lk) := .same rfl rfl rfl rfl

theorem quiet_openMiss (s : State) (lk : Nat) : Quiet s (openMiss s lk) := by
  have h (u : State) : Quiet u { u with llc := { u.llc with miss := u.llc.miss ++ [⟨lk, false⟩] } } := .same rfl rfl rfl rfl
  unfold openMiss
  dsimp only
  refine Quiet.trans ?_ (h _)
  refine .ite (.refl s) ?_
  cases (s.llc.miss.filter fun m => lineSlice s m.line = lineSlice s lk).head? with
  | none => exact .refl s
  | some m => exact quiet_closeMiss ..

theorem quiet_sliceByte (s : State) (lk i source : Nat) : Quiet s (sliceByte s lk i source).1 := by
  unfold sliceByte
  dsimp only
  have hr (u : State) : Quiet u (if (lineAt s lk).reduced then { u with llc := { u.llc with redPoison := sadd u.llc.redPoison (lineSlice u lk) } } else u) :=
    .ite (.same rfl rfl rfl rfl) (.refl u)
  split
  · exact .refl s
  · exact (quiet_foundError s _ _ _ _ _ (apart_llc _)).trans (quiet_linePut ..)
  · exact .refl s
  · exact ((quiet_foundError s _ _ _ _ _ (apart_llc _)).trans (hr _)).trans (quiet_linePut ..)

theorem quiet_sliceBytes (lk source : Nat) : ∀ (n : Nat) (s : State) (i : Nat), Quiet s (sliceBytes lk source n s i).1
  | 0, s, _ => .refl s
  | n + 1, s, i => (quiet_sliceByte s lk i source).trans (quiet_sliceBytes lk source n _ (i + 1))

theorem quiet_fillByte (s : State) (lk i : Nat) : Quiet s (fillByte s lk i) := by
  unfold fillByte
  dsimp only
  split
  · exact quiet_linePut ..
  · exact (quiet_foundError s _ _ _ _ _ (apart_ch _)).trans (quiet_linePut ..)
  · exact quiet_linePut ..
  · exact ((quiet_foundError s _ _ _ _ _ (apart_ch _)).trans (quiet_memPut ..)).trans (quiet_linePut ..)

theorem quiet_lfsrDraw (s : State) (t : Nat) : Quiet s (lfsrDraw s t).1 := .same rfl rfl rfl rfl

theorem quiet_drawStall (s : State) (ch : Nat) : Quiet s (drawStall s ch) := by
  unfold drawStall
  dsimp only
  refine .ite (.refl s) (.ite (quiet_lfsrDraw ..) ?_)
  exact (quiet_lfsrDraw s _).trans (quiet_count _ _ (apart_brz _) (by decide))

theorem quiet_fillLine (s : State) (lk : Nat) : Quiet s (fillLine s lk) := by
  unfold fillLine
  dsimp only
  refine .ite (.refl s) ?_
  have h : Quiet s ((List.range 128).foldl (fun u i => if (lineAt s lk).valid.getLsbD i then u else fillByte u lk i)
      (drawStall (count (count (count s (slBase (lineSlice s lk)) 1 1) (chBase (lineSlice s lk)) 0 1) (chBase (lineSlice s lk)) 1 1) (lineSlice s lk))) := by
    refine Quiet.trans ?_ (Quiet.fold (fun u i => .ite (.refl u) (quiet_fillByte u lk i)) _ _)
    refine Quiet.trans ?_ (quiet_drawStall ..)
    exact ((quiet_count s 1 (apart_llc _) (by decide)).trans (quiet_count _ 1 (apart_ch _) (by decide))).trans
      (quiet_count _ 1 (apart_ch _) (by decide))
  exact .ite (h.trans (.same rfl rfl rfl rfl)) h

theorem quiet_writeBack (s : State) (lk : Nat) : Quiet s (writeBack s lk) := by
  unfold writeBack
  dsimp only
  refine .ite (.refl s) ?_
  refine Quiet.trans ?_ (quiet_linePut ..)
  refine Quiet.trans ?_ (Quiet.fold (fun u i => .ite ((quiet_sliceByte u lk i 4).trans (quiet_memPut ..)) (.refl u)) _ _)
  refine Quiet.trans ?_ (.same rfl rfl rfl rfl : Quiet _ (issueBeat _ _ _))
  exact ((quiet_count s 1 (apart_llc _) (by decide)).trans (quiet_count _ 1 (apart_ch _) (by decide))).trans
    (quiet_count _ 1 (apart_ch _) (by decide))

/-! ### Recalls and the directory -/

theorem quiet_l1Recall (s : State) (pk lk : Nat) : Quiet s (l1Recall s pk lk) := by
  unfold l1Recall
  dsimp only
  split
  · exact .refl s
  · next e _ =>
    have hc (u : State) (h : u.cores = s.cores) (l : Tbl L1Line) :
        Quiet u (setCore u pk { coreOf s pk with l1 := l }) := by
      have : coreOf u pk = coreOf s pk := by simp only [coreOf, h]
      rw [← this]; exact quiet_setCore
    refine Quiet.trans ?_ (hc _ (by show (linePut _ _ _).cores = _; split <;> rfl) _)
    refine Quiet.trans ?_ (quiet_linePut ..)
    exact .ite (.refl s) (quiet_missWritten ..)

theorem quiet_l1Drop (s : State) (pk lk : Nat) : Quiet s (l1Drop s pk lk) := by
  unfold l1Drop
  dsimp only
  exact .ite quiet_setCore (.refl s)

theorem quiet_countRecall (s : State) (pk lk : Nat) : Quiet s (countRecall s pk lk) :=
  (quiet_count s 1 (apart_core pk) (by decide)).trans (quiet_count _ 1 (apart_llc _) (by decide))

theorem quiet_recallOwner (s : State) (pk lk : Nat) : Quiet s (recallOwner s pk lk) := (quiet_countRecall ..).trans (quiet_l1Recall ..)
theorem quiet_recallDrop (s : State) (pk lk : Nat) : Quiet s (recallDrop s pk lk) :=
  ((quiet_countRecall ..).trans (quiet_l1Recall ..)).trans (quiet_l1Drop ..)
theorem quiet_invalidateL1 (s : State) (pk lk : Nat) : Quiet s (invalidateL1 s pk lk) := (quiet_countRecall ..).trans (quiet_l1Drop ..)

theorem quiet_dirWrite (s : State) (lk : Nat) : Quiet s (dirWrite s lk) := by
  unfold dirWrite
  split
  · exact .refl s
  · exact (quiet_invalidateL1 ..).trans (quiet_setDir ..)
  · exact (Quiet.fold (fun u k => quiet_invalidateL1 u k lk) _ s).trans (quiet_setDir ..)
  · exact (quiet_recallDrop ..).trans (quiet_setDir ..)

theorem quiet_dirMiss (s : State) (lk q : Nat) : Quiet s (dirMiss s lk q) := by
  unfold dirMiss
  split
  · exact quiet_setDir ..
  · exact quiet_setDir ..
  · exact quiet_setDir ..
  · exact .ite (.refl s) ((quiet_recallOwner ..).trans (quiet_setDir ..))

theorem quiet_evictLine (s : State) (lk : Nat) : Quiet s (evictLine s lk) :=
  (((quiet_dirWrite ..).trans (quiet_writeBack ..)).trans (quiet_lineDrop ..)).trans (quiet_closeMiss ..)

/-! ### Contributions and ways -/

theorem quiet_storeLine (s : State) (lk o : Nat) (l : List PByte) : Quiet s (storeLine s lk o l) :=
  (quiet_missWritten s lk).trans (quiet_linePut ..)

theorem quiet_readLines : ∀ (l : List Nat) (s : State), Quiet s (readLines l s).1
  | [], s => .refl s
  | lk :: r, s => ((quiet_fillLine s lk).trans (quiet_sliceBytes lk 0 128 _ 0)).trans (quiet_readLines r _)

theorem quiet_addContrib (s : State) (c : Contrib) : Quiet s (addContrib s c) := by
  unfold addContrib
  dsimp only
  refine Quiet.trans ?_ (Quiet.fold (fun u lk => (quiet_storeLine u lk 0 _).trans (quiet_linePut ..)) _ _)
  refine Quiet.trans ?_ (.ite (.same rfl rfl rfl rfl) (.refl _))
  refine Quiet.trans ?_ (quiet_count _ _ (apart_llc _) (by decide))
  exact .ite ((quiet_readLines _ s).trans (quiet_count _ 1 (apart_llc _) (by decide))) (quiet_readLines _ s)

theorem quiet_drainSlice (s : State) (sl : Nat) : Quiet s (drainSlice s sl) := by
  unfold drainSlice
  dsimp only
  refine .ite (.refl s) (Quiet.trans (.same rfl rfl rfl rfl : Quiet s { s with llc := { s.llc with redQ := _ } }) (Quiet.fold (fun u c => quiet_addContrib u c) _ _))

theorem quiet_settleLine (s : State) (lk : Nat) : Quiet s (settleLine s lk) := .ite (quiet_drainSlice ..) (.refl s)

theorem quiet_takeWay (s : State) (lk : Nat) : Quiet s (takeWay s lk).1 := by
  unfold takeWay
  split
  · exact .refl s
  · split
    · exact quiet_evictLine ..
    · split
      · exact ((quiet_drainSlice ..).trans (quiet_evictLine ..)).trans (quiet_count _ 1 (apart_llc _) (by decide))
      · exact .refl s

theorem quiet_ensureLine (s : State) (lk : Nat) : Quiet s (ensureLine s lk) := by
  unfold ensureLine
  dsimp only
  exact .ite (quiet_lineTouch ..) (((quiet_takeWay s lk).trans (quiet_linePut ..)).trans (quiet_lineTouch ..))

theorem quiet_drawMiss (s : State) (t : Nat) (b : Bool) : Quiet s (drawMiss s t b).1 := by
  have h := quiet_lfsrDraw s t
  have hc : Quiet s (count (lfsrDraw s t).1 (brzBase t) 0 1) := h.trans (quiet_count _ 1 (apart_brz t) (by decide))
  unfold drawMiss
  dsimp only
  generalize count (lfsrDraw s t).1 (brzBase t) 0 1 = u at hc
  split
  · exact .refl s
  · split
    · exact hc
    · exact h

theorem quiet_serveHit (s : State) (lk : Nat) : Quiet s (serveHit s lk) := by
  unfold serveHit
  dsimp only
  split
  · exact (((quiet_drawMiss ..).trans (quiet_writeBack ..)).trans (quiet_linePut ..)).trans (quiet_fillLine ..)
  · exact (quiet_drawMiss ..).trans (quiet_count _ 1 (apart_llc _) (by decide))

theorem quiet_serveRead (s : State) (lk : Nat) (m : BitVec 128) : Quiet s (serveRead s lk m) := by
  unfold serveRead
  split
  · split
    · exact .ite ((quiet_closeMiss ..).trans (quiet_serveHit ..)) (quiet_count s 1 (apart_llc _) (by decide))
    · exact quiet_serveHit ..
  · exact (quiet_fillLine ..).trans (quiet_openMiss ..)

theorem quiet_takeFlight (s : State) (a n : Nat) (l : List PByte) : Quiet s (takeFlight s a n l).1 := by
  unfold takeFlight
  dsimp only
  split
  · exact .refl s
  · exact .same rfl rfl rfl rfl

/-! ### The L1 -/

theorem quiet_l1Touch (s : State) (q lk : Nat) : Quiet s (l1Touch s q lk) := by
  unfold l1Touch
  split
  · exact quiet_setCore
  · exact .refl s

theorem quiet_l1Evict (s : State) (q lk : Nat) : Quiet s (l1Evict s q lk) := by
  have h : Quiet s (l1Drop (if (tget L1Line.init (coreOf s q).l1 lk).dirty = 0 then s
      else count (l1Recall s q lk) (slBase (lineSlice s lk)) 0 1) q lk) :=
    (Quiet.ite (.refl s) ((quiet_l1Recall ..).trans (quiet_count _ 1 (apart_llc _) (by decide)))).trans (quiet_l1Drop ..)
  unfold l1Evict
  exact .ite (h.trans (quiet_setDir ..)) h

theorem quiet_l1Alloc (s : State) (q lk : Nat) : Quiet s (l1Alloc s q lk) := by
  unfold l1Alloc
  dsimp only
  refine .ite (.refl s) (Quiet.trans ?_ quiet_setCore)
  split
  · exact .refl s
  · show Quiet s ((Option.map _ _).getD s)
    cases ((coreOf s q).l1.filter fun e => l1Set s e.1 = l1Set s lk).find? _ with
    | none => exact .refl s
    | some e => exact quiet_l1Evict ..

theorem quiet_l1Fill (s : State) (q lk : Nat) : Quiet s (l1Fill s q lk) := by
  unfold l1Fill
  dsimp only
  refine .ite (.refl s) ?_
  refine Quiet.trans ?_ (quiet_count _ 1 (apart_core q) (by decide))
  refine Quiet.trans ?_ (quiet_l1Touch ..)
  refine Quiet.trans ?_ quiet_setCore
  refine Quiet.trans ?_ (quiet_l1Alloc ..)
  refine Quiet.trans ?_ (quiet_takeFlight ..)
  refine Quiet.trans ?_ (quiet_sliceBytes ..)
  refine Quiet.trans ?_ (quiet_serveRead ..)
  exact ((quiet_ensureLine ..).trans (quiet_settleLine ..)).trans (quiet_dirMiss ..)

/-- A PREF changes no plan, no map register and, of a core, only its L1. -/
theorem quiet_issuePref (s : State) (pk : Nat) (c : Core) (i : Ins) : Quiet s (issuePref s pk c i) := by
  unfold issuePref
  dsimp only
  refine .ite (.refl s) (Quiet.fold (fun u p => ?_) _ s)
  split
  · refine .ite (.refl u) (.ite (.ite (.refl u) (quiet_l1Fill ..)) (.ite (.refl u) ?_))
    exact (((quiet_ensureLine ..).trans (quiet_settleLine ..)).trans (quiet_fillLine ..)).trans (quiet_openMiss ..)
  · exact .refl u

theorem Quiet.physCore {s t : State} (h : Quiet s t) {lc : Nat} (hl : lc < 4096) : physCore t lc = physCore s lc := by
  have hm : coreMap t (lc / 256) (lc / 16 % 16) (lc % 16) = coreMap s (lc / 256) (lc / 16 % 16) (lc % 16) := by
    unfold coreMap fget
    rw [h.2.2.1 _ ⟨lc / 256, by omega, lc / 16 % 16, by omega, lc % 16 / 8, by omega, rfl⟩]
  unfold Machine.physCore
  dsimp only
  rw [hm]

theorem Quiet.bundleCount {s t : State} (h : Quiet s t) (lc : Nat) : bundleCount t lc = bundleCount s lc := by
  simp only [Machine.bundleCount, runPlan, h.1, h.2.1]

end Sys2Proof.Machine
end

