-- ==== Sys2Proof/Laws/CoreCache.lean ====
section
/-! SUPPORT. What a core's own L1 does on a hit: using a line moves the tree of its set, a store into an owned line changes the line, and
neither touches anything outside the core. -/

namespace Sys2Proof.Machine

/-- An operation on one core: it commutes with what the core has been sent, leaves every other part of the state, and changes the core's L1
alone. -/
def OnL1 (pk : Nat) (f : State → State) : Prop :=
  ∀ s, (coreOf s pk).st ≠ .off →
    (∀ x, f (setCore s pk { coreOf s pk with stream := x }) = setCore (f s) pk { coreOf (f s) pk with stream := x }) ∧
    (∀ y, y ≠ Core.init → setCore (f s) pk y = setCore s pk y) ∧
    ∃ l u, coreOf (f s) pk = { coreOf s pk with l1 := l, l1plru := u }

theorem onL1_id (pk : Nat) : OnL1 pk fun s => s := fun _ _ => ⟨fun _ => rfl, fun _ _ => rfl, _, _, rfl⟩

theorem onL1_comp {pk : Nat} {f g : State → State} (hf : OnL1 pk f) (hg : OnL1 pk g) : OnL1 pk fun s => g (f s) := by
  intro s hs
  obtain ⟨f1, f2, l, u, f3⟩ := hf s hs
  have hs' : (coreOf (f s) pk).st ≠ .off := by rw [f3]; exact hs
  obtain ⟨g1, g2, l', u', g3⟩ := hg (f s) hs'
  refine ⟨fun x => (congrArg g (f1 x)).trans (g1 x), fun y hy => (g2 y hy).trans (f2 y hy), l', u', ?_⟩
  exact g3.trans (by rw [f3])

/-- The last core put in a place stands. -/
theorem setCore_last {s : State} {pk : Nat} {a a' b : Core} (h : a.st ≠ .off) (h' : a'.st ≠ .off) (hb : b.st ≠ .off) :
    setCore (setCore s pk a) pk b = setCore (setCore s pk a') pk b := by
  rw [setCore_setCore (ne_init_of_st h) (ne_init_of_st hb), setCore_setCore (ne_init_of_st h') (ne_init_of_st hb)]

/-- Using a line of the L1 (R205). -/
theorem l1Touch_onL1 (pk lk : Nat) : OnL1 pk fun s => l1Touch s pk lk := by
  intro s hs
  have hn (d : Core) (h : d.st = (coreOf s pk).st) : d ≠ Core.init := ne_init_of_st (by rw [h]; exact hs)
  have hset (c : Core) : l1Set (setCore s pk c) lk = l1Set s lk := rfl
  unfold l1Touch
  simp only [coreOf_setCore]
  cases he : tget? (coreOf s pk).l1 lk with
  | none => exact ⟨fun _ => rfl, fun _ _ => rfl, _, _, rfl⟩
  | some e =>
    simp only [modCore, coreOf_setCore, hset]
    refine ⟨fun x => ?_, fun y hy => setCore_setCore (hn _ rfl) hy, _, _, rfl⟩
    exact setCore_last (by exact hs) (by exact hs) (by exact hs)

theorem setL1_onL1 (pk : Nat) (f : Tbl L1Line → Tbl L1Line) :
    OnL1 pk fun s => setCore s pk { coreOf s pk with l1 := f (coreOf s pk).l1 } := by
  intro s hs
  simp only [coreOf_setCore]
  refine ⟨fun x => setCore_last (by exact hs) (by exact hs) (by exact hs), fun y hy => setCore_setCore (ne_init_of_st (by exact hs)) hy, _, _, rfl⟩

/-- A store into a line that the L1 owns (R207). -/
theorem l1Store_onL1 (pk lk o : Nat) (l : List Byte) : OnL1 pk fun s => l1Store s pk lk o l := by
  have h := setL1_onL1 pk fun t =>
    let e := tget L1Line.init t lk
    tput t lk { e with valid := e.valid ||| maskOf o l.length, dirty := e.dirty ||| maskOf o l.length,
                       data := (indexed l).foldl (fun d p => lPut d (o + p.1) p.2) e.data, own := true }
  exact onL1_comp h (l1Touch_onL1 pk lk)

theorem foldl_onL1 {α : Type} {pk : Nat} {f : State → α → State} (h : ∀ a, OnL1 pk fun s => f s a) (l : List α) :
    OnL1 pk fun s => l.foldl f s := by
  induction l with
  | nil => exact onL1_id pk
  | cons a l ih => exact onL1_comp (h a) ih

theorem l1Stores_onL1 (pk : Nat) (ps : List (Nat × Nat × Nat)) (l : List PByte) : OnL1 pk fun s => l1Stores s pk ps l := by
  induction ps generalizing l with
  | nil => exact onL1_id pk
  | cons p r ih => exact onL1_comp (l1Store_onL1 pk p.1 p.2.1 (pdata (l.take p.2.2))) (ih (l.drop p.2.2))

theorem ownLine_setCore (s : State) (pk q : Nat) (d : Core) (a : Nat) : ownLine (setCore s pk d) q a = ownLine s q a := by
  simp only [ownLine, place_setCore]

/-- A load's use of the lines it hits (R205). -/
theorem touchLines_onL1 (pk a n : Nat) : OnL1 pk fun s => touchLines s pk a n := by
  intro s hs
  have h := foldl_onL1 (f := fun s lk => l1Touch s pk lk) (l1Touch_onL1 pk) ((linesOf a n).filterMap fun p => ownLine s pk p.1) s hs
  refine ⟨fun x => ?_, h.2⟩
  have he : ∀ p : Nat × Nat × Nat, ownLine (setCore s pk { coreOf s pk with stream := x }) pk p.1 = ownLine s pk p.1 :=
    fun p => ownLine_setCore ..
  simp only [touchLines, he]
  exact h.1 x

/-- Using lines changes none of them. -/
theorem touchLines_l1 (s : State) (pk a n : Nat) : (coreOf (touchLines s pk a n) pk).l1 = (coreOf s pk).l1 := by
  unfold touchLines
  generalize (linesOf a n).filterMap (fun p => ownLine s pk p.1) = l
  induction l generalizing s with
  | nil => rfl
  | cons k l ih =>
    simp only [List.foldl_cons]
    rw [ih]
    unfold l1Touch
    split
    · simp only [modCore, coreOf_setCore]
    · rfl

end Sys2Proof.Machine
end

