-- ==== Sys2Proof/Laws/Events.lean ====
section
/-! SUPPORT. What an event of a core does when the core runs a share, and what a command with a shape does when the shape
fits. -/

namespace Sys2Proof.Machine

/-- An event of a core that runs a share takes its effect, and the core goes on. -/
theorem coreEvent_live {s : State} {lc : Nat} {f : State → Nat → State} (h : Live s lc) :
    finish (coreEvent s lc f) = (f s (physCore s lc)).resumed lc := by
  have h : live (coreOf s (physCore s lc)) = true := h
  simp only [coreEvent, h, if_true]; rfl

/-- An event of a core that runs no share does nothing. -/
theorem coreEvent_idle {s : State} {lc : Nat} {f : State → Nat → State} (h : ¬ Live s lc) :
    coreEvent s lc f = s := by
  have h : live (coreOf s (physCore s lc)) = false := by simpa [Live] using h
  simp only [coreEvent, h, Bool.false_eq_true, if_false]

/-- A command whose operands fit takes its effect. -/
theorem shaped_true {ok : Bool} {n : String} {s : State} (h : ok = true) : shaped ok n s = .next (settle s) := by
  simp only [shaped, h, if_true]; rfl

/-- A command whose operands do not fit is refused as malformed. -/
theorem shaped_false {ok : Bool} {n : String} {s : State} (h : ok = false) :
    shaped ok n s = .fault (.malformedOperand n) := by
  simp only [shaped, h, Bool.false_eq_true, if_false]

/-- A command under way. -/
theorem runArr_mclr {s : State} {pk lc n : Nat} {h : HostFeed} {q : QCmd} (ho : q.op = .mclr) :
    runArr s pk lc n h q = modArr s pk n fun a =>
      { (a.clearBank (partGeom a.mode q.ins.part) q.ins.part q.ins.bank).logCmd q with
        run := ((a.clearBank (partGeom a.mode q.ins.part) q.ins.part q.ins.bank).logCmd q).run ++
          [{ q with st := 1 }] } := by
  simp only [runArr, ho]

theorem runArr_mswap {s : State} {pk lc n : Nat} {h : HostFeed} {q : QCmd} (ho : q.op = .mswap) (hx : q.aux ≠ 0) :
    runArr s pk lc n h q = modArr s pk n fun a =>
      let b := Arr.logCmd { a with
        bufs := tput (tdel a.bufs (a.activeBuf q.ins.part)) (a.spareBuf q.ins.part)
          { tget WBuf.init a.bufs (a.spareBuf q.ins.part) with st := 3 },
        active := tset 0 a.active q.ins.part (1 - tget 0 a.active q.ins.part) } q
      { b with run := b.run ++ [{ q with st := 1 }] } := by
  simp only [runArr, ho, if_neg hx]

theorem runArr_feed {s : State} {pk lc n : Nat} {h : HostFeed} {q : QCmd} (ho : q.op = .mmac ∨ q.op = .mlda)
    (hk : kindTrap ((coreOf s pk).arrN n) q = false)
    (ht : feedsTrap s ((coreOf s pk).arrN n) q (((coreOf s pk).arrN n).toFetch q) = none) :
    runArr s pk lc n h q =
      (let r := feedLands s pk h ((coreOf s pk).arrN n) q
       modArr (enterSlots (count r.1 (arrBlk pk n) 4 r.2.2) pk n q) pk n fun a =>
         let b := (a.takes q).logCmd q
         { b with run := b.run ++ [{ q with land := r.2.1, st := 1 }] }) := by
  cases ho with
  | inl ho => simp only [runArr, ho, hk, ht, Bool.false_eq_true, if_false]
  | inr ho => simp only [runArr, ho, hk, ht, Bool.false_eq_true, if_false]

theorem runArr_mst {s : State} {pk lc n : Nat} {h : HostFeed} {q : QCmd} (ho : q.op = .mst)
    (hk : kindTrap ((coreOf s pk).arrN n) q = false) (ht : mstTrap s ((coreOf s pk).arrN n) q = none) :
    runArr s pk lc n h q = modArr s pk n fun a =>
      { a with port := cclk s + 64,
               run := a.run ++ [{ q with rows := readRows ((coreOf s pk).arrN n) q, kind := tget 0 ((coreOf s pk).arrN n).kind q.bank,
                                         win := busOf s 0x400000000000, st := 1 }] } := by
  simp only [runArr, ho, hk, ht, Bool.false_eq_true, if_false]

theorem runArr_mrdv {s : State} {pk lc n : Nat} {h : HostFeed} {q : QCmd} (ho : q.op = .mrdv) :
    runArr s pk lc n h q = modArr s pk n fun a =>
      { a with port := cclk s + 2,
               run := a.run ++ [{ q with rows := readRows ((coreOf s pk).arrN n) q, kind := tget 0 ((coreOf s pk).arrN n).kind q.bank,
                                         st := 1 }] } := by
  simp only [runArr, ho]

theorem runArr_mmask {s : State} {pk lc n : Nat} {h : HostFeed} {q : QCmd} (ho : q.op = .mmask) :
    runArr s pk lc n h q = modArr s pk n fun a => { a with run := a.run ++ [{ q with st := 1 }] } := by
  simp only [runArr, ho, id]

theorem runArr_mpcfg {s : State} {pk lc n : Nat} {h : HostFeed} {q : QCmd} (ho : q.op = .mpcfg) :
    runArr s pk lc n h q = modArr (endGang s pk) pk n fun a =>
      { a.reconfig (columnMap s pk n) (q.ins.im 1 0) with
        run := (a.reconfig (columnMap s pk n) (q.ins.im 1 0)).run ++ [{ q with st := 1 }] } := by
  simp only [runArr, ho]

end Sys2Proof.Machine
end

