-- ==== Sys2Proof/Laws/Fields.lean ====
section
/-! SUPPORT. The register table is well made: the fields of every granule lie apart, inside 64 bits; and what a sequence of
field updates leaves in each field. -/

namespace Sys2Proof.Machine

/-- Two fields share no bit. -/
def Fld.apart (f g : Fld) : Prop := f.hi < g.lo ∨ g.hi < f.lo

/-- The fields of one granule lie apart and inside its 64 bits. -/
def fieldsOk (l : List Fld) : Prop := l.Pairwise Fld.apart ∧ ∀ f ∈ l, f.lo ≤ f.hi ∧ f.hi < 64

theorem fieldsOk_nil : fieldsOk [] := ⟨.nil, by simp⟩

theorem fieldsOk_one {f : Fld} (h : f.lo ≤ f.hi) (hh : f.hi < 64) : fieldsOk [f] := ⟨by simp, by simp [h, hh]⟩

/-- The same, as a test that the kernel evaluates. -/
def fieldsGood (l : List (Nat × Nat)) : Bool :=
  l.all (fun f => f.2 ≤ f.1 && f.1 < 64) && (l.tails.all fun t =>
    match t with
    | [] => true
    | f :: r => r.all fun g => f.1 < g.2 || g.1 < f.2)

theorem fieldsOk_of {l : List Fld} (h : fieldsGood (l.map fun f => (f.hi, f.lo)) = true) : fieldsOk l := by
  induction l with
  | nil => exact fieldsOk_nil
  | cons f r ih =>
    have h' := h
    simp only [fieldsGood, List.map_cons, List.all_cons, List.tails_cons, Bool.and_eq_true, decide_eq_true_eq, Bool.or_eq_true,
      List.all_eq_true, List.mem_map, forall_exists_index, and_imp] at h'
    obtain ⟨⟨h1, h2⟩, h3, h4⟩ := h'
    have hr : fieldsOk r := by
      apply ih
      simp only [fieldsGood, Bool.and_eq_true, List.all_eq_true, List.mem_map, decide_eq_true_eq, forall_exists_index, and_imp]
      exact ⟨by simpa using h2, h4⟩
    refine ⟨List.pairwise_cons.2 ⟨fun g hg => ?_, hr.1⟩, fun g hg => ?_⟩
    · exact h3 (g.hi, g.lo) g hg rfl
    · rcases List.mem_cons.1 hg with rfl | hg
      · exact h1
      · exact hr.2 g hg

theorem fieldsOk_ite (c : Prop) [Decidable c] {a b : List Fld} (ha : fieldsOk a) (hb : fieldsOk b) : fieldsOk (if c then a else b) := by
  split
  · exact ha
  · exact hb

theorem ovfBits_le (k : BK) (idx j : Nat) : ovfBits k idx j ≤ 64 := by
  unfold ovfBits cntCount
  cases k <;> simp only [] <;> split_ifs <;> omega

theorem fldsPth_ok (o : Nat) : fieldsOk (fldsPth o) := by
  unfold fldsPth
  repeat' refine fieldsOk_ite _ ?_ ?_
  all_goals exact fieldsOk_of rfl
theorem fldsPwt_ok (o : Nat) : fieldsOk (fldsPwt o) := by
  unfold fldsPwt
  repeat' refine fieldsOk_ite _ ?_ ?_
  all_goals exact fieldsOk_of rfl
theorem fldsThm_ok (o : Nat) : fieldsOk (fldsThm o) := by
  unfold fldsThm
  repeat' refine fieldsOk_ite _ ?_ ?_
  all_goals exact fieldsOk_of rfl
theorem fldsIdg_ok (i o : Nat) : fieldsOk (fldsIdg i o) := by
  unfold fldsIdg
  repeat' refine fieldsOk_ite _ ?_ ?_
  all_goals exact fieldsOk_of rfl
theorem fldsVch_ok (i o : Nat) : fieldsOk (fldsVch i o) := by
  unfold fldsVch
  repeat' refine fieldsOk_ite _ ?_ ?_
  all_goals exact fieldsOk_of rfl
theorem fldsRow_ok (o : Nat) : fieldsOk (fldsRow o) := by
  unfold fldsRow
  repeat' refine fieldsOk_ite _ ?_ ?_
  all_goals exact fieldsOk_of rfl
theorem fldsLlc_ok (o : Nat) : fieldsOk (fldsLlc o) := by
  unfold fldsLlc
  repeat' refine fieldsOk_ite _ ?_ ?_
  all_goals exact fieldsOk_of rfl
theorem fldsBrz_ok (o : Nat) : fieldsOk (fldsBrz o) := by
  unfold fldsBrz
  repeat' refine fieldsOk_ite _ ?_ ?_
  all_goals exact fieldsOk_of rfl
theorem fldsCore_ok (o : Nat) : fieldsOk (fldsCore o) := by
  unfold fldsCore
  repeat' refine fieldsOk_ite _ ?_ ?_
  all_goals exact fieldsOk_of rfl
theorem fldsArr_ok (i o : Nat) : fieldsOk (fldsArr i o) := by
  unfold fldsArr
  repeat' refine fieldsOk_ite _ ?_ ?_
  all_goals exact fieldsOk_of rfl
theorem fldsCl_ok (o : Nat) : fieldsOk (fldsCl o) := by
  unfold fldsCl
  repeat' refine fieldsOk_ite _ ?_ ?_
  all_goals exact fieldsOk_of rfl
theorem fldsAtt_ok (o : Nat) : fieldsOk (fldsAtt o) := by
  unfold fldsAtt
  repeat' refine fieldsOk_ite _ ?_ ?_
  all_goals exact fieldsOk_of rfl
theorem fldsStn_ok (o : Nat) : fieldsOk (fldsStn o) := by
  unfold fldsStn
  repeat' refine fieldsOk_ite _ ?_ ?_
  all_goals exact fieldsOk_of rfl
theorem fldsPci_ok (o : Nat) : fieldsOk (fldsPci o) := by
  unfold fldsPci
  repeat' refine fieldsOk_ite _ ?_ ?_
  all_goals exact fieldsOk_of rfl
theorem fldsBoot_ok (o : Nat) : fieldsOk (fldsBoot o) := by
  unfold fldsBoot
  repeat' refine fieldsOk_ite _ ?_ ?_
  all_goals exact fieldsOk_of rfl
theorem fldsSec_ok (o : Nat) : fieldsOk (fldsSec o) := by
  unfold fldsSec
  repeat' refine fieldsOk_ite _ ?_ ?_
  all_goals exact fieldsOk_of rfl
theorem fldsPwm_ok (o : Nat) : fieldsOk (fldsPwm o) := by
  unfold fldsPwm
  repeat' refine fieldsOk_ite _ ?_ ?_
  all_goals exact fieldsOk_of rfl
theorem fldsPip_ok (o : Nat) : fieldsOk (fldsPip o) := by
  unfold fldsPip
  repeat' refine fieldsOk_ite _ ?_ ?_
  all_goals exact fieldsOk_of rfl
theorem fldsQnc_ok (o : Nat) : fieldsOk (fldsQnc o) := by
  unfold fldsQnc
  repeat' refine fieldsOk_ite _ ?_ ?_
  all_goals exact fieldsOk_of rfl
theorem fldsQch_ok (o : Nat) : fieldsOk (fldsQch o) := by
  unfold fldsQch
  repeat' refine fieldsOk_ite _ ?_ ?_
  all_goals exact fieldsOk_of rfl

theorem fldsOfKind_ok (k : BK) (idx o : Nat) : fieldsOk (fldsOfKind k idx o) := by
  cases k
  · exact fldsPth_ok o
  · exact fldsPwt_ok o
  · exact fldsThm_ok o
  · exact fldsIdg_ok idx o
  · exact fldsVch_ok idx o
  · exact fldsRow_ok o
  · exact fieldsOk_nil
  · exact fldsLlc_ok o
  · exact fieldsOk_nil
  · exact fldsBrz_ok o
  · exact fldsCore_ok o
  · exact fldsArr_ok idx o
  · exact fldsCl_ok o
  · exact fldsAtt_ok o
  · exact fldsStn_ok o
  · exact fldsPci_ok o
  · exact fldsBoot_ok o
  · exact fldsSec_ok o
  · exact fieldsOk_nil
  · exact fldsPwm_ok o
  · exact fldsPip_ok o
  · exact fldsQnc_ok o
  · exact fldsQch_ok o

/-- Every granule of every block has fields that lie apart, inside 64 bits. -/
theorem flds_ok (k : BK) (idx o : Nat) : fieldsOk (flds k idx o) := by
  unfold flds
  dsimp only
  split_ifs
  · exact fieldsOk_nil
  · exact fieldsOk_of (by decide)
  · exact fieldsOk_of (by decide)
  · exact fieldsOk_nil
  · have := ovfBits_le k idx ((o - 0x700) / 8)
    exact fieldsOk_one (by simp) (by simp only []; omega)
  · exact fieldsOk_of (by decide)
  · exact fieldsOk_of (by decide)
  · exact fldsOfKind_ok k idx o

/-- Update one field with the value `v` gives it, or not at all. -/
def putOne (v : Fld → Option Nat) (n : Nat) (f : Fld) : Nat :=
  match v f with
  | some x => putBits n f.hi f.lo x
  | none => n

/-- Update fields one after another. -/
def putFields (v : Fld → Option Nat) (l : List Fld) (n : Nat) : Nat := l.foldl (putOne v) n

theorem bits_putOne_ne {v : Fld → Option Nat} {f : Fld} (h : f.lo ≤ f.hi) {hi lo : Nat} (hd : hi < f.lo ∨ f.hi < lo) (n : Nat) :
    bits (putOne v n f) hi lo = bits n hi lo := by
  unfold putOne
  cases v f with
  | none => rfl
  | some x => exact bits_putBits_ne (by omega) hd n x

theorem bits_putOne {v : Fld → Option Nat} {f : Fld} (h : f.lo ≤ f.hi) (n : Nat) :
    bits (putOne v n f) f.hi f.lo = match v f with
      | some x => x % 2 ^ (f.hi + 1 - f.lo)
      | none => bits n f.hi f.lo := by
  unfold putOne
  cases v f with
  | none => rfl
  | some x => exact bits_putBits_self (by omega) n x

/-- Bits that no updated field holds stay. -/
theorem bits_putFields_ne {v : Fld → Option Nat} {l : List Fld} (h : ∀ f ∈ l, f.lo ≤ f.hi) {hi lo : Nat}
    (hd : ∀ f ∈ l, hi < f.lo ∨ f.hi < lo) (n : Nat) : bits (putFields v l n) hi lo = bits n hi lo := by
  induction l generalizing n with
  | nil => rfl
  | cons f r ih =>
    exact (ih (fun g hg => h g (by simp [hg])) (fun g hg => hd g (by simp [hg])) _).trans
      (bits_putOne_ne (h f (by simp)) (hd f (by simp)) n)

/-- Each field holds the value given to it, or keeps its own. -/
theorem bits_putFields {v : Fld → Option Nat} {l : List Fld} (h : fieldsOk l) {f : Fld} (hf : f ∈ l) (n : Nat) :
    bits (putFields v l n) f.hi f.lo = match v f with
      | some x => x % 2 ^ (f.hi + 1 - f.lo)
      | none => bits n f.hi f.lo := by
  induction l generalizing n with
  | nil => cases hf
  | cons g r ih =>
    obtain ⟨hp, hb⟩ := h
    obtain ⟨hg, hr⟩ := List.pairwise_cons.1 hp
    have hlo : ∀ q ∈ r, q.lo ≤ q.hi := fun q hq => (hb q (by simp [hq])).1
    rcases List.mem_cons.1 hf with e | hf
    · rw [e]
      exact (bits_putFields_ne hlo (fun q hq => hg q hq) _).trans (bits_putOne (hb g (by simp)).1 n)
    · refine (ih ⟨hr, fun q hq => hb q (by simp [hq])⟩ hf _).trans ?_
      have hd : f.hi < g.lo ∨ g.hi < f.lo := (hg f hf).symm
      rw [bits_putOne_ne (hb g (by simp)).1 hd n]

end Sys2Proof.Machine
end

