-- ==== Sys2Proof/Laws/Governor.lean ====
section
/-! SUPPORT. A notice, a counter, a telemetry tick and the ramp governor leave the running plan as it is. -/

namespace Sys2Proof.Machine

@[simp] theorem notice_run (s : State) (c v so t d : Nat) : (notice s c v so t d).run = s.run := run_of_still (still_notice s c v so t d)
@[simp] theorem count_run (s : State) (b n a : Nat) : (count s b n a).run = s.run := run_of_still (still_count s b n a)
@[simp] theorem pulpCount_run (s : State) (q : Nat) : (pulpCount s q).run = s.run := by
  unfold pulpCount
  split
  · rfl
  · split
    · rfl
    · exact count_run _ _ _ _
@[simp] theorem setWant_run (s : State) (i v : Nat) : (setWant s i v).run = s.run := rfl
theorem ite_run {c : Prop} [Decidable c] {a b : State} {r : Option Run} (ha : a.run = r) (hb : b.run = r) :
    (if c then a else b).run = r := by
  split <;> assumption
@[simp] theorem govPut_run (s : State) (p : Nat) (n : Nat × Nat × Nat) (t : Nat) (q : Nat × Bool) : (govPut s p n t q).run = s.run := by
  refine (pulpCount_run _ _).trans ?_
  have h := (setWant_run { s with pwr := { s.pwr with gov := some n } } 1 (limF n.1))
  exact ite_run ((notice_run _ _ _ _ _ _).trans ((fset_run ..).trans ((fset_run ..).trans ((fset_run ..).trans ((fset_run ..).trans ((fset_run ..).trans h))))))
    ((fset_run ..).trans ((fset_run ..).trans ((fset_run ..).trans ((fset_run ..).trans ((fset_run ..).trans h)))))
@[simp] theorem govTick_run (s : State) (p : Nat) : (govTick s p).run = s.run := govPut_run ..
theorem noPlan_govTick (s : State) (p : Nat) : noPlan (govTick s p) = noPlan s := by
  unfold noPlan
  rw [govTick_run]

/-! ### What a telemetry tick keeps -/

/-- The plan in progress and the input guard are as they were. -/
def Kept (s t : State) : Prop := t.run = s.run ∧ t.pwr.guard = s.pwr.guard
theorem Kept.trans {a b c : State} (h : Kept a b) (g : Kept b c) : Kept a c := ⟨g.1.trans h.1, g.2.trans h.2⟩
theorem Kept.fold {α : Type} {f : State → α → State} (h : ∀ s a, Kept s (f s a)) (l : List α) (s : State) : Kept s (l.foldl f s) := by
  induction l generalizing s with
  | nil => exact ⟨rfl, rfl⟩
  | cons a l ih => exact (h s a).trans (ih _)
theorem kept_count (s : State) (b n a : Nat) : Kept s (count s b n a) :=
  ⟨run_of_still (still_count s b n a), congrArg (fun x => x.pwr.guard) (still_count s b n a)⟩
theorem kept_jitterTick (s : State) (t : Nat) : Kept s (jitterTick s t) := by
  unfold jitterTick
  dsimp only
  split
  · exact kept_count _ _ _ _
  · exact ⟨rfl, rfl⟩
theorem Kept.same {s t : State} (h : t.run = s.run) (g : t.pwr.guard = s.pwr.guard) : Kept s t := ⟨h, g⟩
theorem kept_pulpArr (q lim : Nat) (s : State) (x : Nat × Nat) : Kept s (pulpArr q lim s x) :=
  Kept.trans (Kept.same (t := fresh s) rfl rfl) (Kept.trans (kept_count _ _ _ _) (Kept.same rfl rfl))
theorem Kept.ite {s a b : State} {p : Prop} [Decidable p] (ha : Kept s a) (hb : Kept s b) : Kept s (if p then a else b) := by
  split
  · exact ha
  · exact hb
theorem Kept.refl (s : State) : Kept s s := ⟨rfl, rfl⟩
theorem kept_pulpTick (s : State) : Kept s (pulpTick s) :=
  Kept.ite (Kept.refl s) (Kept.fold (fun s _ => Kept.ite (Kept.fold (fun s _ => kept_pulpArr _ _ s _) _ _) (Kept.refl s)) _ _)
theorem kept_pwr (s : State) (p : Power) (h : p.guard = s.pwr.guard) : Kept s { s with pwr := p } := ⟨rfl, h⟩
theorem kept_notice (s : State) (c v so t d : Nat) : Kept s (notice s c v so t d) :=
  ⟨run_of_still (still_notice _ _ _ _ _ _), congrArg (fun x => x.pwr.guard) (still_notice _ _ _ _ _ _)⟩
theorem kept_inputNotice (s : State) (k : Nat) : Kept s (inputNotice s k) := by
  unfold inputNotice
  exact kept_notice _ _ _ _ _ _
theorem kept_bandTick (s : State) (v : Nat) : Kept s (bandTick s v) := by
  unfold bandTick
  extract_lets p s1 t src1 s2 b src2
  have h1 : Kept s s1 := kept_pwr s _ rfl
  have h2 : Kept s1 s2 := kept_pwr s1 _ rfl
  refine Kept.ite (h1.trans (kept_pwr s1 _ rfl)) (Kept.ite (h1.trans h2) ?_)
  exact (h1.trans h2).trans ((kept_pwr s2 _ rfl).trans (kept_inputNotice _ _))
theorem kept_regPut (s : State) (o : Nat) (v : W64) : Kept s (regPut s o v) := ⟨rfl, rfl⟩
theorem kept_fset (s : State) (o hi lo v : Nat) : Kept s (fset s o hi lo v) := ⟨rfl, rfl⟩
theorem kept_inputTick (s : State) (v a e : Nat) : Kept s (inputTick s v a e) := by
  unfold inputTick
  extract_lets p s1 s2 w s3
  have h1 : Kept s s1 := kept_pwr s _ rfl
  have h2 : Kept s1 s2 := kept_count _ _ _ _
  have h3 : Kept s2 s3 := kept_regPut _ _ _
  exact (h1.trans (h2.trans h3)).trans ((kept_fset _ _ _ _ _).trans (kept_fset _ _ _ _ _))
theorem kept_domainTick (s : State) (v p : List (BitVec 16)) : Kept s (domainTick s v p) := by
  unfold domainTick
  extract_lets src a b c
  have ha : Kept s a := ⟨rfl, rfl⟩
  have hb : Kept a b := Kept.fold (fun _ _ => kept_regPut _ _ _) _ _
  have hc : Kept b c := Kept.fold (fun _ _ => kept_fset _ _ _ _ _) _ _
  exact (ha.trans (hb.trans hc)).trans (kept_pwr c _ rfl)
theorem run_guardTick {s : State} (h : s.pwr.guard.limit ≠ 64) : (guardTick s).run = s.run := by
  have e : guardTick s = if guardHot s = true then { s with pwr := { s.pwr with guard := { s.pwr.guard with hot := true, okSince := none, rise := false } } }
      else { s with pwr := { s.pwr with guard := { s.pwr.guard with hot := false, okSince :=
        (if s.pwr.guard.limit < 64 ∧ guardCool s = true then some (s.pwr.guard.okSince.getD s.now) else none) } } } := by
    unfold guardTick
    simp only [if_neg h]
  rw [e]
  exact ite_run rfl rfl

end Sys2Proof.Machine
end

