-- ==== Sys2Proof/Laws/Memory.lean ====
section
/-! SUPPORT. Laws of the stores at rest: a byte reads back, every other byte stays, and every operation keeps the canonical
form. -/

namespace Sys2Proof.Machine

/-! ### Read after write -/

@[simp] theorem Mem.write_undef (m : Mem) (a : Nat) (b : Byte) (y : BitVec 5) : (m.write a b y).undef = m.undef := rfl

/-- The byte written reads back. -/
@[simp] theorem Mem.read_write_self (m : Mem) (a : Nat) (b : Byte) (y : BitVec 5) : (m.write a b y).read a = b := by
  unfold Mem.read Mem.write background
  by_cases h : b = 0 ∧ extentAt m.undef a = none
  · simp [h.1, h.2]
  · simp only [if_neg h, tget?_tput_self, Option.getD_some]

/-- Every other byte stays. -/
theorem Mem.read_write_ne (m : Mem) {a a' : Nat} (b : Byte) (y : BitVec 5) (h : a' ≠ a) : (m.write a b y).read a' = m.read a' := by
  unfold Mem.read Mem.write background
  by_cases hc : b = 0 ∧ extentAt m.undef a = none
  · simp [hc.1, hc.2, tget?_tdel_ne _ h]
  · simp only [if_neg hc, tget?_tput_ne _ _ h]

@[simp] theorem Mem.syndrome_write_self (m : Mem) (a : Nat) (b : Byte) (y : BitVec 5) : (m.write a b y).syndrome a = y := by
  simp [Mem.syndrome, Mem.write]

theorem Mem.syndrome_write_ne (m : Mem) {a a' : Nat} (b : Byte) (y : BitVec 5) (h : a' ≠ a) :
    (m.write a b y).syndrome a' = m.syndrome a' := by
  simp [Mem.syndrome, Mem.write, tget_tset_ne _ _ _ h]

/-! ### The canonical form -/

theorem mem_tset {V : Type} [DecidableEq V] {d : V} {t : Tbl V} {k : Nat} {v : V} {e : Nat × V} (h : e ∈ tset d t k v) :
    (e = (k, v) ∧ v ≠ d) ∨ e ∈ t := by
  unfold tset at h
  split at h
  · exact .inr (mem_tdel h)
  · next hv =>
    rcases mem_tput h with h | h
    · exact .inl ⟨h, hv⟩
    · exact .inr h

/-- The canonical form, as propositions. -/
theorem Mem.wf_iff (m : Mem) : m.wf = true ↔
    tsorted m.cells = true ∧ tsorted m.syn = true ∧ (∀ e ∈ m.syn, e.2 ≠ 0) ∧
    ∀ e ∈ m.cells, e.2 ≠ 0 ∨ (extentAt m.undef e.1).isSome = true := by
  simp only [Mem.wf, Bool.and_eq_true, List.all_eq_true, decide_eq_true_eq, Bool.or_eq_true, and_assoc]

/-- Storing a byte keeps the canonical form. -/
theorem Mem.write_wf (m : Mem) (a : Nat) (b : Byte) (y : BitVec 5) (h : m.wf = true) : (m.write a b y).wf = true := by
  obtain ⟨h1, h2, h3, h4⟩ := (Mem.wf_iff m).1 h
  refine (Mem.wf_iff _).2 ⟨?_, tsorted_tset _ _ _ h2, fun e he => ?_, fun e he => ?_⟩
  · show tsorted (if _ then _ else _) = true
    split
    · exact tsorted_tdel _ h1
    · exact tsorted_tput _ _ h1
  · rcases mem_tset (show e ∈ tset 0 m.syn a y from he) with ⟨rfl, hy⟩ | he
    · exact hy
    · exact h3 e he
  · have he : e ∈ (if b = 0 ∧ extentAt m.undef a = none then tdel m.cells a else tput m.cells a b) := he
    show e.2 ≠ 0 ∨ (extentAt m.undef e.1).isSome = true
    split at he
    · exact h4 e (mem_tdel he)
    · next hc =>
      rcases mem_tput he with rfl | he
      · by_cases hb : b = 0
        · right
          rw [Option.isSome_iff_ne_none]
          exact fun hn => hc ⟨hb, hn⟩
        · exact .inl hb
      · exact h4 e he

/-- Making an extent undefined keeps the canonical form. -/
theorem Mem.forget_wf (m : Mem) (lo len stamp : Nat) (h : m.wf = true) : (m.forget lo len stamp).wf = true := by
  obtain ⟨h1, h2, h3, h4⟩ := (Mem.wf_iff m).1 h
  refine (Mem.wf_iff _).2 ⟨tsorted_filter _ h1, tsorted_filter _ h2, fun e he => h3 e (List.mem_of_mem_filter he), fun e he => ?_⟩
  rcases h4 e (List.mem_of_mem_filter he) with h | h
  · exact .inl h
  · right
    unfold Mem.forget extentAt
    rw [List.find?_cons]
    split
    · rfl
    · exact h

/-- Clearing the syndromes of an extent, as a regeneration does (R258), keeps the canonical form. -/
theorem Mem.clear_syn_wf (m : Mem) (lo hi : Nat) (h : m.wf = true) : Mem.wf { m with syn := tclear m.syn lo hi } = true := by
  obtain ⟨h1, h2, h3, h4⟩ := (Mem.wf_iff m).1 h
  exact (Mem.wf_iff _).2 ⟨h1, tsorted_filter _ h2, fun e he => h3 e (List.mem_of_mem_filter he), h4⟩

/-! ### Bytes in a row -/

@[simp] theorem memPut_mem (s : State) (a : Nat) (b : Byte) (y : BitVec 5) : (memPut s a b y).mem = s.mem.write a b y := rfl

theorem memPut_wf (s : State) (a : Nat) (b : Byte) (y : BitVec 5) (h : s.mem.wf = true) : (memPut s a b y).mem.wf = true :=
  Mem.write_wf _ _ _ _ h

/-- Writing bytes keeps the canonical form. -/
theorem memWrites_wf (l : List PByte) (s : State) (a : Nat) (h : s.mem.wf = true) : (memWrites l s a).mem.wf = true := by
  induction l generalizing s a with
  | nil => exact h
  | cons p r ih => exact ih _ _ (memPut_wf _ _ _ _ h)

/-- Bytes outside those written stay. -/
theorem memWrites_ne (l : List PByte) (s : State) {a a' : Nat} (h : a' < a ∨ a + l.length ≤ a') :
    (memWrites l s a).mem.read a' = s.mem.read a' ∧ (memWrites l s a).mem.syndrome a' = s.mem.syndrome a' := by
  induction l generalizing s a with
  | nil => exact ⟨rfl, rfl⟩
  | cons p r ih =>
    rw [List.length_cons] at h
    have hr := ih (memPut s a (restOf p).1 (restOf p).2) (a := a + 1) (by omega)
    have hn : a' ≠ a := by omega
    exact ⟨hr.1.trans (Mem.read_write_ne _ _ _ hn), hr.2.trans (Mem.syndrome_write_ne _ _ _ hn)⟩

/-- Each byte written reads back with its syndrome. -/
theorem memWrites_at (l : List PByte) (s : State) (a i : Nat) (h : i < l.length) :
    (memWrites l s a).mem.read (a + i) = (restOf l[i]).1 ∧ (memWrites l s a).mem.syndrome (a + i) = (restOf l[i]).2 := by
  induction l generalizing s a i with
  | nil => exact absurd h (by simp)
  | cons p r ih =>
    cases i with
    | zero =>
      have hn := memWrites_ne r (memPut s a (restOf p).1 (restOf p).2) (a := a + 1) (a' := a) (.inl (by omega))
      exact ⟨hn.1.trans (Mem.read_write_self ..), hn.2.trans (Mem.syndrome_write_self ..)⟩
    | succ i =>
      have := ih (memPut s a (restOf p).1 (restOf p).2) (a + 1) i (by simpa using h)
      rw [show a + (i + 1) = a + 1 + i by omega]
      exact this

/-- Writing bytes changes the memory alone. -/
theorem memWrites_frame (l : List PByte) (s : State) (a : Nat) : memWrites l s a = { s with mem := (memWrites l s a).mem } := by
  induction l generalizing s a with
  | nil => rfl
  | cons p r ih => exact ih _ _

/-- A read of clean bytes gives them and changes nothing. -/
theorem checkedReads_clean (k : BK) (base source : Nat) (n : Nat) (s : State) (a loc : Nat)
    (h : ∀ i < n, s.mem.syndrome (a + i) = 0) :
    checkedReads k base source n s a loc = (s, (List.range n).map fun i => (s.mem.read (a + i), false)) := by
  induction n generalizing a loc with
  | zero => rfl
  | succ n ih =>
    have h0 : s.mem.syndrome a = 0 := h 0 (by omega)
    have hc : checkedRead s k base source a loc = (s, (s.mem.read a, false)) := by
      simp [checkedRead, decodeByte, h0]
    rw [checkedReads, hc]
    simp only []
    rw [ih (a + 1) (loc + 1) (fun i hi => by rw [show a + 1 + i = a + (i + 1) by omega]; exact h (i + 1) (by omega)),
      List.range_succ_eq_map, List.map_cons, List.map_map]
    simp only [Nat.add_zero, Prod.mk.injEq, true_and, List.cons.injEq]
    refine List.map_congr_left fun i _ => ?_
    simp only [Function.comp_apply, Nat.succ_eq_add_one]
    rw [show a + 1 + i = a + (i + 1) by omega]

/-- Nothing is listed at reset. -/
theorem reset_mem_wf : State.reset.mem.wf = true := by decide

end Sys2Proof.Machine
end

