-- ==== Sys2Proof/Tests/Slice0.lean ====
section
/-! SUPPORT. Small tests: ill-formed terms that wellFormed refuses, states that meet the hypotheses of the statements, and
single steps with results from the spec. -/

namespace Sys2Proof.Tests

open Sys2Proof.Machine

set_option Elab.async false

/-- A plan of one step whose image has four bundles for every core. -/
def planW : Plan :=
  { size := 512, shapeDigest := [], stepCount := 1, seed := 7, reserve := 0, profile := 0, sloe := false, fabric := false,
    capFollow := false, pools := [], watchdog := 0, copyRate := 0, places := [], steps := [⟨1000, 0, 0, 0, 0, 0, 0, 0, 0⟩], ids := [],
    code := List.replicate 128 0, codeParam := 0, params := [], coll := [], routes := [], profileSec := [], pins := [], kv := [],
    digest := [], stale := false }
def runW : Run :=
  { handle := 1, tag := 0, num := 0, iters := 1, startAt := 0, started := true, stepIdx := 0, iter := 0, stepNo := 5,
    stepStart := 0, abort := false, rel := [], sigs := [], held := false, toPark := [], toResume := [], ending := none }
/-- Core 0 as it runs: s2 a cluster memory address, s3 a line, s5 poisoned. -/
def coreW : Core := { Core.init with st := .run, s := [(2, 0x20000000000), (3, 128), (5, 1), (6, 0xFFFF020000000000)], sTag := [(5, 0)] }
def withCore (c : Core) : State := { State.reset with plans := [(1, planW)], run := some runW, cores := [(0, c)] }
def insW (o : KOp) (gn : Bool) (d a b c : BitVec 5) (imm : BitVec 32) : Ins :=
  ⟨0, BitVec.ofNat 2 (slotOf o), kciWord o 0 gn d a b c imm, true, 0, 0⟩
/-- Operands for each operation. -/
def operandsOf : KOp → BitVec 5 × BitVec 5 × BitVec 5 × BitVec 5 × BitVec 32
  | .vfma => (1, 2, 3, 4, 0)
  | .addi | .shi | .pmov | .ptos | .ld8 | .ld16 | .ld32 | .ld64 | .vsfu | .vmov | .vrsum | .vrmax | .vbcl | .vld | .movsv | .movvs => (1, 2, 0, 0, 0)
  | .li | .lih | .mfs | .ldp => (1, 0, 0, 0, 0)
  | .st8 | .st16 | .st32 | .st64 | .vst | .mmask => (0, 2, 3, 0, 0)
  | .bnzd | .jr | .pref | .attcmd | .pfxwalk | .rowop | .rowmodeExit => (0, 2, 0, 0, 0)
  | .rowmodeEnter => (0, 2, 0, 0, 1)
  | .br | .mpcfg | .mswap | .mclr | .arrive | .wait | .commit | .coll | .rwake | .rsleep | .mgang | .sig => (0, 0, 0, 0, 0)
  | .vcvt => (1, 2, 3, 0, 0x10000000)
  | .vcvtw => (1, 2, 0, 0, 0x10000000)
  | .mwld => (0, 2, 3, 0, 0x07000000)
  | .mmac => (0, 2, 3, 0, 0x77000000)
  | .mst => (0, 2, 3, 4, 0xA0000000)
  | .mrdv => (0, 2, 3, 4, 0)
  | .mlda => (0, 2, 3, 0, 0xA0000000)
  | .dma => (0, 6, 6, 3, 0)
  | .dmar => (0, 6, 6, 3, 0x80000000)
  | _ => (1, 2, 3, 0, 0)
def insOf (o : KOp) : Ins := let p := operandsOf o; insW o false p.1 p.2.1 p.2.2.1 p.2.2.2.1 p.2.2.2.2
/-- The instruction with another immediate, and with its guard inverted. -/
def insImm (o : KOp) (imm : BitVec 32) : Ins := let p := operandsOf o; insW o false p.1 p.2.1 p.2.2.1 p.2.2.2.1 imm
def insOff (o : KOp) : Ins := let p := operandsOf o; insW o true p.1 p.2.1 p.2.2.1 p.2.2.2.1 p.2.2.2.2
def kops : List KOp :=
  [.add, .addi, .sub, .mul, .mulhu, .divu, .remu, .and, .or, .xor, .shl, .shr, .sar, .shi, .li, .lih, .cmp, .plog, .pmov, .ptos, .mfs, .ldp,
   .ld8, .ld16, .ld32, .ld64, .st8, .st16, .st32, .st64, .br, .bnzd, .jr, .vadd, .vsub, .vmul, .vfma, .vmax, .vmin, .vsfu, .vcmp, .vmov,
   .viadd, .vlogic, .vshift, .vcvt, .vcvtw, .vrsum, .vrmax, .vbcl, .vperm, .mpcfg, .mmask, .mwld, .mswap, .mmac, .mclr, .mst, .mrdv, .mlda,
   .vld, .vst, .movsv, .movvs, .dma, .dmar, .pref, .sig, .arrive, .wait, .commit, .attcmd, .pfxwalk, .rowop, .rowmodeEnter, .rowmodeExit,
   .coll, .rwake, .rsleep]

/-! ### States that meet the hypotheses of the statements: one instruction -/

/-- Ready and Alone as tests the kernel evaluates. -/
def readyB (o : KOp) (i : Ins) (s : State) : Bool :=
  let c := s.coreFor i
  (decide (c.st = .run) && decide (c.stream = []) && decide (c.fly = []) && decide (c.loads = []) && decide (c.eng = []) && !c.stalled) &&
  (i.last && decide (i.gap = 0) && decide (i.stall = 0)) && decodeOk o i && (!isBranch o || decide (c.delay = none)) &&
  (decide (o = .commit) || decide (c.nextPc < bundleCount s i.core.toNat))

def aloneB (o : KOp) (i : Ins) (s : State) : Bool :=
  let c := s.coreFor i
  readyB o i s && executes c o i && (!isStore o || decide (c.wb.length < 16)) && (!decide (o = .wait) || decide (i.imm16 ≤ tget 0 c.tok i.tok)) &&
  decide (issueTraps s i.core.toNat c o i = []) && !decide (physCore s i.core.toNat ∈ s.stone.parityAt) && decide (poisonUse c o i = none) &&
  !scaleStops s (physCore s i.core.toNat) [⟨o, i⟩]

theorem readyB_iff (o : KOp) (i : Ins) (s : State) : readyB o i s = true ↔ Ready o i s := by
  simp [readyB, Ready, imp_iff_not_or]
  tauto

theorem aloneB_iff (o : KOp) (i : Ins) (s : State) : aloneB o i s = true ↔ Alone o i s := by
  simp only [aloneB, Alone, Bool.and_eq_true, readyB_iff, Bool.or_eq_true, Bool.not_eq_true', decide_eq_true_eq, decide_eq_false_iff_not,
    imp_iff_not_or, Bool.not_eq_true]
  tauto

/-- Every KCI instruction of the statements finds a core on which it issues alone (ScalarIntegerResults, ScalarMovesResults,
VectorFloatResults, VectorIntegerResults, VectorConversion, Branches, LoadIssue, StoreIssue, ArrayIssue, EngineIssue, SyncIssue). -/
theorem wit_alone : ∀ o ∈ kops, Alone o (insOf o) (withCore coreW) := by
  simp only [← aloneB_iff]
  decide +kernel

/-- MFS of every special register, LDP of the first and last parameter. -/
theorem wit_special : (∀ n < 14, Alone .mfs (insImm .mfs (BitVec.ofNat 32 n)) (withCore coreW)) ∧
    Alone .ldp (insImm .ldp 0xF8) (withCore coreW) := by
  simp only [← aloneB_iff]
  decide +kernel

/-- A load whose bytes the write buffer holds, and one that misses (LoadIssue). -/
theorem wit_loads : ∀ o ∈ [KOp.ld8, .ld16, .ld32, .ld64, .vld],
    (withCore coreW).nearLoad o (insOf o) = none ∧
    (let s := withCore { coreW with nextId := 1, wb := [⟨0, 0x20000000000, List.replicate 256 1, List.replicate 256 false, 0, 0, none⟩] }
     Alone o (insOf o) s ∧ (s.nearLoad o (insOf o)).isSome = true ∧ s.noForcedMiss (insOf o)) := by
  simp only [← aloneB_iff, State.noForcedMiss]
  decide +kernel

/-- A store that enters the write buffer, and one whose lines the L1 owns (StoreIssue). -/
theorem wit_stores : ∀ o ∈ [KOp.st8, .st16, .st32, .st64, .vst],
    (withCore coreW).storePlaces o (insOf o) = none ∧
    (let s := withCore { coreW with l1 := [(0, ⟨0, 0, 0, true, 0⟩), (1, ⟨0, 0, 0, true, 0⟩)] }
     let i := insW o false 0 7 3 0 0
     Alone o i s ∧ (s.storePlaces o i).isSome = true) := by
  simp only [← aloneB_iff]
  decide +kernel

/-- The last core of the last tower stands outside every plan (GangedMode). -/
theorem wit_gang : (271 : BitVec 9).toNat < 272 ∧ (coreOf (withCore coreW) ((15 : BitVec 4).toNat * 272 + (271 : BitVec 9).toNat)).st = .off := by
  decide +kernel

/-- A SIG that no replay suppresses and one that a replay does, a WAIT on a full counter, a PREF of a tagged, a misaligned and an unmapped address and one that fetches, an RSLEEP under a plan (SyncIssue); a core
with nothing outstanding (CommitInstruction); the write buffer of the engine commands is empty (EngineIssue). -/
theorem wit_sync : (withCore coreW).run = some runW ∧ (tget 0 (routerOf (withCore coreW) 0).effLocal coreW.effNext < 1 ∧
    (let s := { withCore coreW with routers := [(0, { Router.init with effLocal := [(0, 1)] })] }
     Alone .sig (insOf .sig) s ∧ tget 0 (routerOf s 0).cur 0 + 1 ≤ tget 0 (routerOf s 0).effLocal 0)) ∧
    Alone .wait (insImm .wait 0xFFFFF) (withCore { coreW with tok := [(15, 65535)] }) ∧
    (Alone .pref (insW .pref false 0 5 0 0 0) (withCore coreW) ∧ (tget? coreW.sTag 5).isSome = true) ∧
    (let i := insW .pref false 0 5 0 0 1; let s := withCore { coreW with s := [(5, 1)], sTag := [] }
     Alone .pref i s ∧ aligned 128 ((s.coreFor i).sGet 5).toNat = false) ∧
    (let i := insW .pref false 0 2 0 0 1
     Alone .pref i (withCore coreW) ∧ rangeOk (withCore coreW) Place.isFast (0x20000000000 % 2 ^ 48) 128 = false) ∧
    (let i := insW .pref false 0 3 0 0 2
     Alone .pref i (withCore coreW) ∧ rangeOk (withCore coreW) Place.isFast 128 256 = true) ∧
    (let c := (withCore coreW).coreFor (insOf .commit)
     c.wb = [] ∧ c.waits = [] ∧ (∀ e ∈ c.l1, e.2.dirty = 0) ∧ c.arr0.cq = [] ∧ c.arr0.wq = [] ∧ c.arr0.run = [] ∧
     c.arr1.cq = [] ∧ c.arr1.wq = [] ∧ c.arr1.run = []) := by
  simp only [← aloneB_iff]
  decide +kernel

/-- A core that does not run, an open bundle, and a guard that is false (QuietIssue). -/
theorem wit_quiet : ((withCore Core.init).coreFor (insOf .add)).st ≠ .run ∧
    (let i := { insOf .add with last := false }
     coreW.st = .run ∧ coreW.eng = [] ∧ i.last = false ∧ (∀ x ∈ coreW.stream, x.ins.last = false) ∧ slotFree i coreW.stream = true ∧ rowTakes .add i = true) ∧
    (∀ o ∈ [KOp.add, .br, .st8, .wait, .commit, .mmac, .dma], let i := insOff o
     Ready o i (withCore coreW) ∧ executes coreW o i = false ∧ coreW.nextPc < bundleCount (withCore coreW) 0 ∧
     physCore (withCore coreW) 0 ∉ (withCore coreW).stone.parityAt) := by
  simp only [← readyB_iff]
  decide +kernel

/-- The three classes of result, and their registers (LandingRules, FrameOfResults). -/
theorem wit_frame : (1 : Nat) ≠ 0 ∧ (RegW.sreg 1 7 none).reg ≠ .s 2 ∧ (RegW.preg 1 7 7).reg ≠ .p 2 ∧ (RegW.vreg 1 7 0 []).reg ≠ .v 2 ∧
    (0 : Nat) ≠ physCore (withCore coreW) 1 := by decide +kernel

/-! ### The events of a core -/

/-- The state with host memory mapped and bus mastering on. -/
def hosted (s : State) : State := regPut (regPut s (pciBase + 0x120) 1) pciBase 0x4000
def loadE (a n : Nat) (bus : Option Nat) : LoadEnt := ⟨0, false, 1, a, n, 0, BitVec.allOnes 64, bus⟩
def storeE (a : Nat) (bus : Option Nat) : StoreEnt := ⟨1, a, [1], [false], 0, 3, bus⟩

/-- LOAD_RETURN from the host and from a cluster memory, STORE_PERFORMED at both, OWNERSHIP_GRANT and L1_MISS of a fast line (CoreEvents). -/
theorem wit_coreEvents :
    (let e := loadE 0x400000000000 8 (some 0)
     let s := hosted (withCore { coreW with loads := [e] })
     live (coreL s 0) = true ∧ (coreOf s 0).loads = [e] ∧ busMaster s = true ∧ withheldFrom s 0 (fetchRange s 0 e).1 (fetchRange s 0 e).2 = false) ∧
    (let e := loadE 0x20000000000 8 none
     let s := withCore { coreW with loads := [e] }
     live (coreL s 0) = true ∧ withheldFrom s 0 (fetchRange s 0 e).1 (fetchRange s 0 e).2 = false) ∧
    (let e := storeE 0x7EFFFFFFFFFF (some 0x3EFFFFFFFFFF)
     let s := hosted (withCore { coreW with st := .commit, wb := [e] })
     live (coreL s 0) = true ∧ loadOver (coreOf s 0) e.id e.addr e.bytes.length = false ∧ wantsOwnership s 0 e = none) ∧
    (let e := storeE 0x20000000000 none
     let s := withCore { coreW with wb := [e] }
     loadOver (coreOf s 0) e.id e.addr e.bytes.length = false ∧ wantsOwnership s 0 e = none) ∧
    (let e := storeE 0 none
     let s := withCore { coreW with wb := [e], loads := [loadE 128 1 none] }
     loadOver (coreOf s 0) e.id e.addr e.bytes.length = false ∧ (wantsOwnership s 0 e).isSome = true ∧
     ownLine s 0 128 = some 1 ∧ 1 ∈ missLines s 0 ∧ withheldFrom s 0 128 128 = false) := by
  decide +kernel

/-- An array command as it stands in its queue, with all masks 1. -/
def cmdW (o : KOp) (i : Ins) (va vb : W64) : QCmd :=
  { id := 0, op := o, ins := i, va := va, vb := vb, vc := 0, rmask := BitVec.allOnes 64, cmask := BitVec.allOnes 64, pc := 0, aux := 0,
    cfg := 0, st := 0, buf := 0, kind := 0, land := [], rows := [], bank := 0, eff := 0, win := none }
def withArr (a : Arr) : State := withCore { coreW with arr0 := a }

/-- MWLD_START of a weight load from a cluster memory, and of one already in the staging buffer (ArrayEvents). -/
theorem wit_mwldStart :
    let q := cmdW .mwld (insOf .mwld) 0x20000000000 128
    let a := { Arr.init with wq := [q] }
    let s := withArr a
    let rows := mwldRows a.width q (partGeom 0 0)
    let spans := feedSpans 7 rows.2.1
    live (coreL s 0) = true ∧ mwldReady (coreOf s 0) a q = true ∧
    rowsTrap s q 4 4 rows.1 spans = none ∧ rowsWait s 0 q rows.1 spans = false ∧
    (let b : Arr := { a with staging := some ⟨0, WBuf.init, 2⟩ }
     live (coreL (withArr b) 0) = true ∧ (tget WBuf.init b.bufs (b.spareBuf 0)).st = 0) := by
  decide +kernel

/-- Dispatch of each compute command (ArrayEvents), the weights of an INT8 MMAC are active. -/
theorem wit_dispatch : ∀ o ∈ [KOp.mclr, .mswap, .mmac, .mlda, .mrdv, .mst, .mmask, .mpcfg],
    let q := { cmdW o (insOf o) 0x20000000000 128 with aux := 1 }
    let a := { Arr.init with cq := [q], bufs := [(0, ⟨3, 7, [], 0⟩)] }
    let s := withArr a
    let t := fifoFill s 0 0 0 []
    let b := (coreOf t 0).arrN 0
    let left := modArr t 0 0 fun a => { a with cq := [] }
    live (coreL s 0) = true ∧ (coreOf t 0).st = (coreOf s 0).st ∧ b.cq = [q] ∧ dispatchOk (cclk t) (coreOf t 0) b q = true ∧
    feedsWait t 0 b q (b.toFetch q) = false ∧ q.aux ≠ 0 ∧
    (let b := (coreOf left 0).arrN 0
     kindTrap b q = false ∧ (o = .mmac ∨ o = .mlda → feedsTrap left b q (b.toFetch q) = none) ∧ (o = .mst → mstTrap left b q = none)) := by
  decide +kernel

/-- Completion of each array command, and a rebuild of partition 0 for a column of it (ArrayEvents). -/
theorem wit_complete : (∀ o ∈ [KOp.mwld, .mmac, .mlda, .mrdv, .mst], let q := { cmdW o (insOf o) 0x20000000000 128 with st := 1, rows := [⟨0, [], false⟩] }
    completable { Arr.init with run := [q] } 0 = some q) ∧
    (let q := { cmdW .mst (insOf .mst) 0x20000000000 128 with st := 1 }
     let s := withArr { Arr.init with run := [q] }
     (scaleChain s 0 q.ins.tensor).any (scaleBad s 0) = false ∧
     (mstRows 0 0 (sloe s) q (partGeom 0 q.ins.part).2.2.2 q.rows s (Cap.init, 0)).2.2 = true) ∧
    (let s := withArr Arr.init
     ((coreOf s 0).arrN 0).siteIn 0 (some 63) = true ∧ ((coreOf (count s (arrBlk 0 0) 5 1) 0).arrN 0).logFull = false) := by
  decide +kernel

/-- A SIG that may be delivered, barriers of the scopes 0 and 3 whose participants have arrived (SyncEvents). -/
theorem wit_syncEvents :
    (takeFirst (fun g => g.tgt = 4095 && sigReady (withCore coreW) g) [⟨0, 4095, 15, 1⟩]).isSome = true ∧
    (let s := { withCore coreW with routers := [(0, { Router.init with standing := [(0, 0), (3, 0)] })] }
     lateArrival s 0 0 = none ∧ (∀ x ∈ groupCores 0 0, hasArrived s 0 (released s 0 0) x = true) ∧ 0 ∈ groupCores 0 0 ∧
     (routerOf s 0).standing.contains (0, released s 0 0) = true) := by
  decide +kernel
theorem wit_fabricBarrier :
    let s := { withCore coreW with cores := [], routers := [(0, { Router.init with standing := [(3, 0)] })] }
    lateArrival s 3 0 = none ∧ (∀ x ∈ groupCores 3 0, hasArrived s 3 (released s 3 0) x = true) ∧
    0 ∈ groupCores 3 0 ∧ (routerOf s 0).standing.contains (3, released s 3 0) = true ∧
    fabricReleased (barArrive s (curStep s) (released s 3 0 + 1)) 0 = true :=
  ⟨List.findSome?_eq_none_iff.2 fun _ _ => rfl, fun _ _ => rfl, by unfold groupCores; simp, by decide +kernel, by decide +kernel⟩

/-- Started engine commands whose work is done (SyncEvents). -/
theorem wit_engine : (∀ o ∈ [KOp.rowop, .attcmd, .coll, .rwake],
      let q := { cmdW o (insOf o) 0 0 with st := 1 }
      let s := withCore { coreW with eng := [q] }
      live (coreL s 0) = true ∧ ((coreL s 0).eng.filter fun x => x.st ≠ 0)[0]? = some q ∧ towerHolds s 0 0 q.id = false ∧
      attHolds s 0 q.id = false ∧ collHolds s 0 q.id = false ∧ wakeHolds s 0 q.id = false) ∧
    (∀ o ∈ [KOp.dma, .dmar], let q := { cmdW o (insOf o) 0xFFFF020000000000 0xFFFF000000000000 with st := 1, vc := 128 }
      let s := withCore { coreW with eng := [q] }
      (moveStep s 0 q ⟨[], []⟩).2 = true ∧ engHolds (moveStep s 0 q ⟨[], []⟩).1 0 q.id = true) ∧
    (∀ o ∈ [KOp.rowmodeEnter, .rowmodeExit], let q := { cmdW o (insOf o) 0 0 with st := 1 }
      let c : ChanCmd := ⟨0, 0, if o = .rowmodeEnter then 1 else 2, []⟩
      let s := { withCore { coreW with eng := [q] } with chans := [(0, { Chan.init with queue := [c] })] }
      chanOf s 0 0 = 0 ∧ (chanAt (chanGo s 0) 0).queue = [c] ∧ engHolds (modeFront (chanGo s 0) 0 c) 0 q.id = true) := by
  decide +kernel

/-! ### Attention and the KV cache -/

/-- 64 bytes with the given fields, each an offset, a width and a value. -/
def fieldsB (n : Nat) (l : List (Nat × Nat × Nat)) : List Byte :=
  (List.range n).map fun i => ((l.find? fun f => f.1 ≤ i ∧ i < f.1 + f.2.1).map fun f => (leBytes f.2.1 f.2.2).getD (i - f.1) 0).getD 0

/-- A pool of tower 0: 4 pages, 3 sequences, tokens of 128 bytes; sequence 1 holds one token in page 0, page 1 is spare. -/
def poolW : List Byte :=
  fieldsB 64 [(2, 2, 16), (4, 2, 128), (6, 1, 4), (7, 1, 4), (8, 4, 4), (12, 4, 3), (16, 8, 0x20000001000), (24, 8, 0x20000002000), (32, 8, 0x20000003000),
    (40, 8, 0x20000005000), (48, 8, 0x20000005800), (56, 8, 0x20000006000)]
def cellsW : List Host.Cell :=
  [(0x20000001002, 1), (0x20000001005, 2), (0x20000001008, 1), (0x2000000100A, 1), (0x20000001022, 2), (0x20000001025, 2), (0x20000003200, 1),
   (0x20000003204, 1), (0x20000003214, 1), (0x20000007000, 1)]
/-- One command of the engine of cluster 0 of tower 0, started. -/
def attQ (l : List (Nat × Nat × Nat)) : AttCmd := ⟨0, 0, 0, 0, 0x20000000000, false, true, fieldsB 64 l, false⟩
def attW (l : List (Nat × Nat × Nat)) : State :=
  { withCore coreW with
    plans := [(1, { planW with kv := poolW })], mem := ⟨cellsW, [], []⟩, att := [(0, { AttEng.init with queue := [attQ l] })] }
def isOkB {A : Type} : Except EngErr A → Bool
  | .ok _ => true
  | .error _ => false
def attRun (op : Nat) (s : State) (q : AttCmd) : AttAns :=
  match op with
  | 1 => attSoftmax s 0 q
  | 2 => attRecomp s 0 q
  | 3 => attAccum s 0 q
  | 4 => attMerge s 0 q
  | 5 => attGather s 0 q
  | 6 => attAppend s 0 q
  | 7 => attAttach s 0 q
  | 8 => attFork s 0 q
  | 9 => attDropSeq s 0 q
  | _ => attRingfill s 0 q
def attDescs : List (List (Nat × Nat × Nat)) :=
  [[(0, 1, 1), (1, 1, 1), (4, 2, 1), (6, 2, 64), (8, 8, 0x20000008000), (24, 8, 0x20000009000), (32, 8, 0x2000000A000)],
   [(0, 1, 2), (4, 2, 1), (6, 2, 64), (8, 8, 0x20000008000), (16, 8, 0x20000009000), (32, 8, 0x2000000A000)],
   [(0, 1, 3), (1, 1, 1), (4, 2, 1), (6, 2, 64), (8, 8, 0x20000008000), (24, 8, 0x20000009000)],
   [(0, 1, 4), (4, 2, 1), (6, 2, 64), (8, 8, 0x20000008000), (16, 8, 0x20000009000), (32, 8, 0x2000000A000), (40, 4, 1)],
   [(0, 1, 5), (4, 2, 1), (8, 8, 0x2000000A000), (44, 4, 64), (52, 4, 1)],
   [(0, 1, 6), (4, 2, 1), (8, 8, 0x2000000A000), (44, 4, 128), (52, 4, 1)],
   [(0, 1, 7), (4, 2, 1), (8, 8, 0x20000007000)],
   [(0, 1, 8), (4, 2, 1), (40, 4, 1)],
   [(0, 1, 9), (52, 4, 1)],
   [(0, 1, 10), (4, 2, 1), (8, 8, 0x20000007000)]]

/-- A command is started and meets no error. -/
def attGood (l : List (Nat × Nat × Nat)) : Prop :=
  (attW l).attFront 0 0 (attQ l).op = some (attQ l) ∧ isOkB (attRun (attQ l).op ((attW l).attNow 0 0) (attQ l)).2 = true

/-- A started command of each operation of R268 that meets no error (AttentionCommands). -/
theorem wit_softmax : attGood (attDescs.getD 0 []) := by
  unfold attGood
  decide +kernel
theorem wit_recomp : attGood (attDescs.getD 1 []) := by
  unfold attGood
  decide +kernel
theorem wit_accum : attGood (attDescs.getD 2 []) := by
  unfold attGood
  decide +kernel
theorem wit_merge : attGood (attDescs.getD 3 []) := by
  unfold attGood
  decide +kernel
theorem wit_gather : attGood (attDescs.getD 4 []) := by
  unfold attGood
  decide +kernel
theorem wit_append : attGood (attDescs.getD 5 []) := by
  unfold attGood
  decide +kernel
theorem wit_attach : attGood (attDescs.getD 6 []) := by
  unfold attGood
  decide +kernel
theorem wit_fork : attGood (attDescs.getD 7 []) := by
  unfold attGood
  decide +kernel
theorem wit_drop : attGood (attDescs.getD 8 []) := by
  unfold attGood
  decide +kernel
theorem wit_ringfill : attGood (attDescs.getD 9 []) := by
  unfold attGood
  decide +kernel

/-- The checks that AttentionResults names pass: SOFTMAX and ACCUM with init, FORK, DROP and RINGFILL (AttentionResults). -/
theorem wit_attResults :
    (let q := attQ (attDescs.getD 0 [])
     let u := (attW (attDescs.getD 0 [])).attNow 0 0
     bit q.flags 0 = true ∧
     pickErr (softFields q ++ arrOk u 0 q.a0 (4 * q.n * q.w) 4 ++ arrOk u 0 q.a2 (16 * q.n) 4 ++
        arrOk u 0 q.a3 (q.n * q.w * fmtBytes q.fmt) (if q.fmt = 0 then 4 else 1)) = none ∧
     usedPoison q.a0 (memRead u q.a0 (4 * q.n * q.w)).2 (fun i => !attMasked (bit q.flags 1) q.s q.x q.y (i / 4 / q.w) (i / 4 % q.w)) = none) ∧
    (let q := attQ (attDescs.getD 2 [])
     let u := (attW (attDescs.getD 2 [])).attNow 0 0
     let m := 4 * q.n * q.w
     pickErr ([fieldOk q (q.onlyFields [(0, 2), (4, 36)] && q.flags ≤ 1), fieldOk q (1 ≤ q.n && q.n ≤ 64),
        fieldOk q (64 ≤ q.w && q.w ≤ 256 && q.w % 64 = 0)] ++ arrOk u 0 q.a0 m 4 ++ arrOk u 0 q.a2 m 4) = none ∧
     bit q.flags 0 = true ∧ isOkB (eReads [(q.a0, m, fun _ => true)] u).2 = true) ∧
    (∀ k ∈ [7, 8, 9], ((runPlan (attW [])).map planPools).bind (fun l => l.find? fun p => p.idx = (attQ (attDescs.getD k [])).pool)
      = some (poolOf poolW 0)) ∧
    (let u := (attW (attDescs.getD 7 [])).attNow 0 0
     let p := poolOf poolW 0
     (match (snapshot u p 0).2, (snapshot (snapshot u p 0).1 p 1).2 with
     | .ok a, .ok b => decide (a.ents = [] ∧ b.ents.length = 1)
     | _, _ => false) = true) ∧
    (let u := (attW (attDescs.getD 9 [])).attNow 0 0
     let p := poolOf poolW 0
     (match (readPages p [1] u).2 with
     | .ok gs => gs.all Page.spare && distinct [1] && decide (1 < p.pages)
     | .error _ => false) = true) := by
  decide +kernel

/-- A PFXWALK of one block that no leaf matches, begun by core 0 (SyncEvents). -/
def walkL : List (Nat × Nat × Nat) := [(4, 2, 1), (8, 8, 0x20000008000), (16, 8, 0x2000000A000), (32, 8, 0x2000000B000)]
theorem wit_walk :
    let q := { cmdW .pfxwalk (insOf .pfxwalk) 0 0 with st := 1 }
    let x : AttCmd := { attQ walkL with walk := true }
    let s : State := { attW walkL with plans := [(1, { planW with kv := fieldsB 64 [(2, 2, 16), (4, 2, 32768)] })], cores := [(0, { coreW with eng := [q] })], att := [(0, { AttEng.init with queue := [x] })] }
    let u := walkSettle s 0
    ((attAt u 0).queue.take 4).find? (fun x => x.started && x.walk && x.core = 0 && x.id = q.id) = some x ∧
    (match attWalk u 0 x with
     | (v, .ok n) => engHolds (attDone v 0 x n) 0 q.id
     | _ => false) = true := by
  decide +kernel

/-! ### Channels, memory and Quince -/

/-- A channel of tower 0 with the given contents and mode. -/
def chanW (c : Chan) (mode : Nat) : State := fset { withCore coreW with chans := [(0, c)] } (chBase 0) 1 0 mode
def rowW (op : Nat) : ChanCmd := ⟨0, 0, 0, [⟨op, 16, 32, 48, 64⟩]⟩

/-- A channel in ROWAN whose queue has each operation in front (RowanOperations). -/
theorem wit_rowan : ∀ op ∈ [1, 2, 3, 4, 5, 6, 7, 8], let s := chanW { Chan.init with queue := [rowW op] } 2
    chanMode (chanGo s 0) 0 = 2 ∧ (chanAt (chanGo s 0) 0).queue = [rowW op] := by
  decide +kernel

/-- A stale row that an access waits for and the lowest stale row; an access and a clone in and out of memory mode; a window out of
self-refresh; a channel long cool; a column that asks to migrate, with no plan (ChannelRows). -/
theorem wit_channelRows :
    (let s := chanW { Chan.init with stale := [16, 147440] } 2
     147440 ∈ staleIn s 0 7 0 ∧ (staleIn s 0 1 0).head? = some 16) ∧
    (let s := chanW Chan.init 2
     place s 0 = .fast 0 ∧ bypassed s 0 = true ∧ (0 : Nat) % 128 + 128 ≤ 128) ∧
    (let s := chanW Chan.init 0
     (147327 : BitVec 18).toNat < 147456 ∧ (147455 : BitVec 18).toNat < 147456 ∧ 147327 % 128 = 147455 % 128 ∧ 147327 / 16384 = 147455 / 16384 ∧
     (0 : BitVec 4).toNat + (16 : BitVec 5).toNat ≤ 16 ∧ chanMode s 0 = 0 ∧ logicalCol s 0 = some 0 ∧ fbit s (chBase 0) 11 = false) ∧
    (let s := { fset (chanW { Chan.init with coolSince := some 0 } 0) (chBase 0) 5 5 1 with now := 10000000 }
     fbit s (chBase 0) 5 = true ∧ (chanAt s 0).coolSince = some 0 ∧ 0 + 10000000 ≤ s.now) ∧
    (let s := { chanW { Chan.init with wantMigrate := true } 0 with run := none }
     (chanAt s 0).wantMigrate = true ∧ s.run = none) := by
  decide +kernel

/-- Seventeen lines of one set of column 0 (R203), the first sixteen held and pinned. -/
def heldW : State :=
  { withCore coreW with llc := { State.reset.llc with lines := (List.range 16).map fun k => (k * 513, { SLine.init with pinned := true }) } }
def contribW : Contrib := ⟨0, 8, List.replicate 128 1, List.replicate 128 false⟩

/-- A fast line in memory mode, a contribution that waits, a set whose ways are all pinned, reads of a cluster memory with and
without an open slot, accesses of the slow tier (MemoryRows). -/
theorem wit_memoryRows :
    (let s := chanW Chan.init 0
     place s 0 = .fast 0 ∧ bypassed s 0 = false) ∧
    (let s := { withCore coreW with llc := { State.reset.llc with redQ := [contribW] } }
     takeFirst (fun (c : Contrib) => lineSlice s c.key = 0) s.llc.redQ = some (contribW, [])) ∧
    (place heldW (16 * 513 * 128) = .fast (16 * 513 * 128) ∧ bypassed heldW (16 * 513) = false ∧ lineHeld heldW (16 * 513) = false ∧
     16 ≤ (setLines heldW (16 * 513)).length ∧ ∀ x ∈ setLines heldW (16 * 513), (lineAt heldW x).pinned = true) ∧
    (let m : Tbl Nat := (List.range 4).map fun k => (0x400000000 + 32 * k, 0)
     let s := { withCore coreW with llc := { State.reset.llc with merge := m } }
     let slots := slotsOpen s.llc.merge (cclk s)
     (place s 0x20000000000 = .cmem 0x20000000000 ∧ (tget? slots (0x20000000000 / 128)).isSome = true) ∧
     (place s 0x20F000000C8 = .cmem 0x20F000000C8 ∧ tget? slots (0x20F000000C8 / 128) = none ∧
      (slots.filter fun e => cmemBank (e.1 * 128) = cmemBank (0x20F000000C8 / 128 * 128)).length < 4) ∧
     (place s 0x20000004000 = .cmem 0x20000004000 ∧ tget? slots (0x20000004000 / 128) = none ∧
      4 ≤ (slots.filter fun e => cmemBank (e.1 * 128) = cmemBank 0x20000004000).length)) ∧
    (place State.reset 0x11FFFFFFFFFF = .slow 0x1FFFFFFFFFF ∧ 0x11FFFFFFFFFF % 128 + (1 : BitVec 8).toNat ≤ 128 ∧
     (hostBytes ⟨[1], []⟩).length = 1) := by
  decide +kernel

/-- A slow-tier image of a rule of four zero bytes at the tier's second line (R312). -/
def ruleImageW : List Byte :=
  fieldsB 64 [(0, 4, 0x4C555251), (4, 4, 1), (8, 4, 4), (16, 4, 0xFFFFFFFF)] ++ shake256 64 (List.replicate 4 0)
def ruleStateW : State :=
  { fset (withCore coreW) (ruleReg 16) 47 7 (0x100000000080 / 128) with
    run := none, mem := ⟨(indexed ruleImageW).map fun e => (0x100000000080 + e.1, e.2), [], []⟩ }

/-- An image that slot 16 may load (QuinceRows). -/
theorem wit_ruleLoad :
    let s := ruleStateW
    let a := fget s (ruleReg 16) 47 7 * 128
    let h := memRead s a 128
    let t := memRead h.1 (a + 128) (leAt (pdata h.2) 8 4)
    rangeOk s Place.isSlow a 128 = true ∧ anyPoison h.2 = false ∧ ruleHeaderOk (pdata h.2) = true ∧
    rangeOk s Place.isSlow (a + 128) (leAt (pdata h.2) 8 4) = true ∧ anyPoison t.2 = false ∧
    shake256 64 (pdata t.2) = bytesAt (pdata h.2) 64 64 ∧ (rulePlace [] 4096).isSome = true := by
  decide +kernel

/-! A rule of two instructions, a0 cleared and the return, that a hart runs to its end. -/
theorem fetchC {r t : HRun} {o lo w : Nat} (hr : r.h.pc ≠ returnAt) (h1 : hplace r.s r.h.pc.toNat 2 = .rule o)
    (h2 : leNat [ruleByte r.s o, ruleByte r.s (o + 1)] = lo)
    (h3 : lo % 4 ≠ 3) (h4 : expandC lo = some w) (h5 : scalarOp w 2 r = .ok true t) : hartStep r = .ok () t := by
  simp only [hartStep, if_neg hr, hartFetch, bind, EStateM.bind, hartGet, h1, h2, h4, if_neg h3, h5]
  rfl
theorem scalar_li (r : HRun) : scalarOp 0x513 2 r =
    .ok true { r with h := { r.h with pc := (r.h.pc + 2) &&& ~~~1, x := tset 0 r.h.x 10 0 } } := rfl
theorem scalar_ret (r : HRun) : scalarOp 0x8067 2 r = .ok true { r with h := { r.h with pc := (r.h.xr 1 + 0) &&& ~~~1 } } := rfl
theorem returnAt_even : (returnAt + 0) &&& ~~~(1 : W64) = returnAt := by
  have h : returnAt + (0 : W64) = returnAt := BitVec.add_zero _
  rw [h, returnAt, BitVec.and_assoc]
  rfl
theorem returnAt_ne {a : W64} (h : a.getLsbD 28 = true) : a ≠ returnAt := by
  rintro rfl
  simp [returnAt] at h

def retRule : Rule := ⟨0, false, [0x01, 0x45, 0x82, 0x80], 0, 0xFFFFFFFF, 0⟩
theorem ret_places (s : State) (hs : s.qnc.rules = [(16, retRule)]) :
    (hplace s 0x200010000000 2 = .rule 0 ∧ leNat [ruleByte s 0, ruleByte s 1] = 0x4501) ∧
    (hplace s 0x200010000002 2 = .rule 2 ∧ leNat [ruleByte s 2, ruleByte s 3] = 0x8082) := by
  refine ⟨⟨by simp [hplace, scratchBase, ruleBase], ?_⟩, by simp [hplace, scratchBase, ruleBase], ?_⟩ <;> (unfold ruleByte; rw [hs]; rfl)

/-- It ends with status 0 and no write (QuinceRows). -/
theorem wit_rule (s : State) (hs : s.qnc.rules = [(16, retRule)]) (first cnt no : Nat) (d : List Byte) :
    ∃ v x, runRule s 0 retRule false first cnt no 3 d = (v, .ret x) ∧ x.ret = 0 ∧ runFault v false x = none := by
  obtain ⟨⟨p0, b0⟩, p2, b2⟩ := ret_places s hs
  let h0 := hartEnter (hartOf s 0) 0 first cnt no d
  have pc : (h0.pc + 2) &&& ~~~1 = 0x200010000002 := by
    show (BitVec.ofNat 64 (ruleBase + 0) + 2) &&& ~~~1 = (0x200010000002 : W64)
    decide
  let h1 : Hart := { h0 with pc := 0x200010000002, x := tset 0 h0.x 10 0 }
  have e0 : hartStep ⟨s, 0, h0, [], false⟩ = .ok () ⟨s, 0, h1, [], false⟩ :=
    fetchC (w := 0x513) (returnAt_ne (a := 0x200010000000) (by decide)) p0 b0 (by decide) (by decide) (by rw [scalar_li]; simp only [pc]; rfl)
  have x1 : h1.xr 1 = returnAt := by
    show tget 0 (tset 0 h0.x 10 0) 1 = _
    simp only [h0, hartEnter, List.foldl_cons, List.foldl_nil]
    rw [tget_tset_ne, tget_tset_ne, tget_tset_ne, tget_tset_ne, tget_tset_ne, tget_tset_ne, tget_tset_ne, tget_tset_self] <;> decide
  have e1 : hartStep ⟨s, 0, h1, [], false⟩ = .ok () ⟨s, 0, { h1 with pc := returnAt }, [], false⟩ := by
    rw [fetchC (w := 0x8067) (returnAt_ne (a := 0x200010000002) (by decide)) p2 b2 (by decide) (by decide) (scalar_ret _), x1, returnAt_even]
  have e2 : hartStep ⟨s, 0, { h1 with pc := returnAt }, [], false⟩ = .error .ret ⟨s, 0, { h1 with pc := returnAt }, [], false⟩ := if_pos rfl
  have e : hartRun 3 ⟨s, 0, h0, [], false⟩ = (⟨s, 0, { h1 with pc := returnAt }, [], false⟩, some .ret) := by
    simp only [hartRun, e0, e1, e2]
  let r : HRun := ⟨s, 0, { h1 with pc := returnAt }, [], false⟩
  have er : runRule s 0 retRule false first cnt no 3 d =
      ({ s with qnc := { s.qnc with harts := tput s.qnc.harts 0 (hartLeave r.h none) } }, .ret (hartResult r)) := by
    show runRule s 0 ⟨0, false, [0x01, 0x45, 0x82, 0x80], 0, 0xFFFFFFFF, 0⟩ false first cnt no 3 d = _
    unfold runRule
    simp only [Bool.false_eq_true, if_false, Nat.add_zero]
    rw [show hartRun 3 ⟨s, 0, hartEnter (hartOf s 0) 0 first cnt no d, [], false⟩ = (r, some .ret) from e]
  have ex : (hartResult r).ret = 0 := by
    show (tget 0 (tset 0 h0.x 10 0) 10).toNat = 0
    rw [tget_tset_self]; rfl
  refine ⟨_, _, er, ex, ?_⟩
  have ew : (hartResult r).writes = [] := rfl
  unfold runFault
  rw [ex, ew]
  rfl

def jobW (rule : Nat) (g : GroupRun) : Job := ⟨0, ⟨0, 1, rule, 1, 0x100000001000, 0x100000002000⟩, 0, 1, true, [g]⟩
def groupW : GroupRun := ⟨false, 0, [], false, false, 0, 0, 0, 0, 0, false, 0⟩
def jobStateW (rule : Nat) (r : Rule) (g : GroupRun) : State :=
  { withCore coreW with qnc := { State.reset.qnc with jobs := [jobW rule g], rules := [(16, r)] },
                        mem := ⟨[(0x100000001000, 1)], [], []⟩ }
def retW (area : List Byte) : RuleRun := ⟨0, [], area, 0, 0, 0, 0, false, 0, none⟩

/-- A job whose turn has come, with invocations of the prologue of the Adam rule, of a rule of slot 1 with and without a prologue, of the body
of the rule above and of the Adam rule (QuinceRows). -/
theorem wit_invocation :
    (∀ k ∈ [(0, retRule, groupW, none), (1, retRule, groupW, some 0), (16, retRule, groupW, some 0),
        (0, retRule, { groupW with prologueDone := true }, some 0)],
      let s := jobStateW k.1 k.2.1 k.2.2.1
      let j := jobW k.1 k.2.2.1
      let i : InvId := ⟨0, 0, if (ruleOfSlot s k.1).prologue && !k.2.2.1.prologueDone then none else some 0⟩
      let d := memRead s (j.d.groups + 128 * 0) 128
      s.qnc.jobs.find? (fun j => j.idx = 0) = some j ∧ j.groups[0]? = some k.2.2.1 ∧ i.chunk = k.2.2.2 ∧
      (∀ k ∈ s.qnc.jobs, k.startNo = j.startNo → k.idx < j.idx → k.begun = true) ∧
      invocable s j k.2.2.1 i 0 = true ∧ anyPoison d.2 = false ∧ d.1.qnc.rules = [(16, k.2.1)] ∧
      runFault d.1 true ⟨0, [], adamPrologue (pdata d.2), 0, 0, 0, 0, false, 0, none⟩ = none ∧ adamPrologue (pdata d.2) ≠ [] ∧
      runFault d.1 false (settledRun (retW [])) = none) ∧
    (let g := { groupW with prologueDone := true }
     let s := jobStateW 0 retRule g
     let d := memRead s 0x100000001000 128
     (match adamBody d.1 (pdata d.2) g.exp (4096 * 0) (Nat.min 4096 (leAt (pdata d.2) 0 8 - 4096 * 0)) with
      | (v, .ret x) => decide (runFault v false x = none)
      | _ => false) = true) := by
  decide +kernel

/-! ### The fabric -/

/-- Device 0x12 of a fabric of 32 members and 1 bunch, time root 0x10; link 5 UP with peer 0x13 link 7, link 9 in force for device 0x13
at tower 1 and link 1 for device 0x10 at tower 0. -/
def fabW : State :=
  let a := regPut (withCore coreW) (stnBase + 0x2000) (BitVec.ofNat 64 (2 ^ 63 + 0x10 * 2 ^ 32 + 0x12 * 2 ^ 16 + 64 + 16))
  let b := fset (regPut a (linkBase 5 + 0x10) (BitVec.ofNat 64 (0x13 * 2 ^ 48 + 7 * 2 ^ 40))) (linkBase 5) 2 0 4
  regPut (regPut b (routeGranule b 1 0x13) 0x8000000000000089) (routeGranule b 0 0x10) 0x8000000000000081
def msgW (dest : Nat) (h : Header) : Msg := ⟨5, 4, { h with dest := BitVec.ofNat 16 dest, src := 0x13 }, []⟩
def arrivesB (s : State) (m : Msg) : Bool := fabEnabled s && linkLive s m.link.toNat && decide (m.hdr.dest.toNat = deviceId s)
theorem arrivesB_iff (s : State) (m : Msg) : arrivesB s m = true ↔ Arrives s m := by simp [arrivesB, Arrives, and_assoc]
def reqW (read : Bool) : Req := ⟨7, 0, 0, 0, 0, read, 0x13000000000000, 0, 1⟩

/-- Requests that may be performed, responses to open requests, TAGs of this step and of a later one (FabricRequests). -/
theorem wit_fabricRequests :
    (let s := { fabW with llc := { fabW.llc with lines := [(0, { SLine.init with withheld := 1 })] } }
     let m := msgW 0x12 (hdrTo 0 0)
     Arrives s m ∧ rangeOk (serveWaiting s) Place.remoteOk m.hdr.addr.toNat (hdrLen m.hdr) = true ∧
     withheldFrom (serveWaiting s) 4096 m.hdr.addr.toNat (hdrLen m.hdr) = true) ∧
    (∀ l ∈ [(0 : Nat), 3], let m := msgW 0x12 { hdrTo 0 0 with lines := BitVec.ofNat 2 l, addr := 0x20000000000 }
      Arrives fabW m ∧ rangeOk fabW Place.remoteOk m.hdr.addr.toNat (hdrLen m.hdr) = true) ∧
    (∀ f ∈ [(8 : Nat), 9, 0xA], let m := msgW 0x12 { hdrTo 0 0 with lines := 2, fmt := BitVec.ofNat 8 f }
      Arrives fabW m ∧ hdrLen m.hdr = 384 ∧ reduceTargetOk fabW m.hdr.addr.toNat (hdrLen m.hdr) (decide (f = 0xA)) = true) ∧
    (∀ b ∈ [true, false], let m := msgW 0x12 { hdrTo 0 0 with id := 7 }
      let s := { fabW with cores := [(0, { coreW with eng := [cmdW .dma (insOf .dma) 0 0] })], fab := { fabW.fab with reqs := [reqW b] } }
      Arrives s m ∧ (openReq s m b).map (·.1) = some (reqW b) ∧ m.hdr.status ≠ 1 ∧
      ((coreL s (reqW b).core).eng.find? fun x => x.id = (reqW b).cmd) = some (cmdW .dma (insOf .dma) 0 0)) ∧
    (∀ n ∈ [(4 : Nat), 5, 6], let m := msgW 0x12 { hdrTo 0 0 with step := BitVec.ofNat 32 n }
      Arrives fabW m ∧ fabW.run = some runW ∧
      (serialCmp (BitVec.ofNat 32 (curStep fabW)) (BitVec.ofNat 32 m.hdr.step.toNat) = -1 ↔ n = 6)) := by
  simp only [← arrivesB_iff]
  decide +kernel

/-- A message for device 0x13 goes out on link 9 (FabricTransit). -/
theorem wit_transit : let m := msgW 0x13 (hdrTo 0 0)
    fabEnabled fabW = true ∧ linkLive fabW m.link.toNat = true ∧ m.hdr.dest.toNat ≠ deviceId fabW ∧
    routeLink fabW (m.link.toNat / 4) m.hdr.dest.toNat = some 9 ∧ (3 : BitVec 3).toNat < 4 ∧ 4 ≤ m.hop.toNat := by
  decide +kernel

/-- A link in IDENT outside a fabric in service; the time parent; its loss; messages of the root's kinds (FabricControl). -/
theorem wit_fabricControl :
    (let s := fset (withCore coreW) (linkBase 5) 2 0 3
     portState s 5 = 3 ∧ (1 : W64) ≠ 0) ∧
    parentLink fabW = some 1 ∧
    (fabEnabled fabW = true ∧ linkLive fabW 5 = true) ∧
    (let s := fset fabW (linkBase 1) 2 0 4
     linkLive s 1 = true ∧ parentLink s = some 1) ∧
    (let s := { fset fabW (stnBase + 0x2010) 1 1 1 with now := 10000000 }
     parentLink s = some 1 ∧ s.fab.lastTime + 10000000 ≤ s.now ∧ fbit s (stnBase + 0x2010) 1 = true) ∧
    (let m := msgW 0x12 { hdrTo 0 0 with addr := 0xFFFFFFFF }
     Arrives fabW m ∧ m.hdr.addr.toNat / 2 ^ 32 = 0 ∧ takesPart { fabW with run := none } = true ∧ Arrives { fabW with run := none } m ∧
     takesPart fabW = false ∧ capRepeat fabW m = false ∧
     (let s := { fabW with fab := { fabW.fab with capSeen := [(0, (0, List.replicate 16 0))] } }
      Arrives s m ∧ capRepeat s m = true)) ∧
    (let m := { msgW 0x12 { hdrTo 0 0 with addr := 0x70000, id := 0xFFFF } with link := 1 }
     let s := fset (fset fabW (linkBase 5) 2 0 5) (linkBase 1) 2 0 4
     Arrives s m ∧
     linkOfPeer s m.hdr.src.toNat (m.hdr.addr.toNat / 65536 % 64) = some 5 ∧ portState s 5 ≠ 4) ∧
    (∀ a ∈ [(0x50000 : Nat), 0x57FFF, 0x58000, 0x5FFFF], let m := msgW 0x12 { hdrTo 0 0 with addr := BitVec.ofNat 48 a, id := 0x12 }
     Arrives fabW m ∧ m.hdr.id.toNat = deviceId fabW ∧ (portAt fabW (m.hdr.addr.toNat / 65536 % 64)).early = [] ∧
     (portAt fabW (m.hdr.addr.toNat / 65536 % 64)).rxSeq = 0) ∧
    (let m := { msgW 0x12 { hdrTo 0 0 with id := 0x13 } with hop := 3 }
     Arrives fabW m ∧ m.hdr.id ≠ 0xFFFF ∧ m.hdr.id.toNat ≠ deviceId fabW ∧ routeLink fabW (m.link.toNat / 4) m.hdr.id.toNat = some 9 ∧
     m.hop.toNat < 4) := by
  simp only [← arrivesB_iff]
  decide +kernel

/-- The lanes of eight codewords, each of its first three bytes, 41 zeros and its twelve check bytes. Lane 8 is unused. -/
def lanesW (w : List (List Nat)) : List (List (BitVec 2)) :=
  (w.map fun c => (c.take 3 ++ List.replicate 41 0 ++ c.drop 3).flatMap fun b => symbolsOf (BitVec.ofNat 8 b)) ++ [[]]
/-- A flit on its nine lanes as it stands, and with a CRC of zeros. -/
def flitW : Flit := ⟨1, 2, 0, 0, 0, false, false, 0, [(0, 0, 1), (1, 0, 2)], List.replicate 328 0⟩
def goodLanes : List (List (BitVec 2)) := lanesW
  [[1, 0, 247, 31, 124, 189, 180, 132, 210, 45, 49, 207, 184, 117, 212],
   [2, 0, 248, 43, 184, 227, 103, 159, 50, 249, 244, 155, 30, 128, 72],
   [0, 1, 36, 108, 246, 150, 43, 243, 142, 215, 32, 139, 201, 26, 208],
   [0, 0, 178, 62, 251, 31, 141, 100, 89, 95, 146, 2, 184, 135, 40],
   [0, 1, 120, 34, 207, 177, 198, 143, 160, 193, 234, 104, 221, 191, 237],
   [0, 0, 168, 35, 126, 159, 46, 133, 84, 173, 177, 87, 190, 56, 88],
   [0, 2, 96, 106, 239, 104, 99, 177, 21, 98, 44, 72, 245, 83, 232],
   [0, 0, 238, 112, 194, 56, 96, 24, 119, 73, 88, 225, 172, 34, 21]]
def badLanes : List (List (BitVec 2)) := lanesW
  [[1, 0, 0, 182, 125, 103, 159, 71, 39, 251, 192, 37, 42, 59, 93],
   [2, 0, 0, 113, 250, 206, 35, 142, 78, 235, 157, 74, 84, 118, 186],
   [0, 1, 0, 233, 237, 90, 153, 81, 156, 175, 94, 173, 83, 22, 18],
   [0, 0, 0, 0, 0, 0, 0, 0, 0, 0, 0, 0, 0, 0, 0],
   [0, 1, 0, 233, 237, 90, 153, 81, 156, 175, 94, 173, 83, 22, 18],
   [0, 0, 0, 0, 0, 0, 0, 0, 0, 0, 0, 0, 0, 0, 0],
   [0, 2, 0, 207, 199, 180, 47, 162, 37, 67, 188, 71, 166, 44, 36],
   [0, 0, 0, 0, 0, 0, 0, 0, 0, 0, 0, 0, 0, 0, 0]]
def badBytes : List Byte := flitW.control ++ List.replicate 336 0
def goodBytes : List Byte := flitW.control ++ [247, 248, 36, 178, 120, 168, 96, 238] ++ List.replicate 328 0
/-- Column i of the bytes of a flit. -/
def wordW (b : List Byte) (i : Nat) : List Byte := (List.range 44).map fun k => b.getD (8 * k + i) 0
theorem words_good : ∀ i < 8, laneWord (goodLanes.getD i []) = (wordW goodBytes i, some 0) := by
  decide +kernel
theorem words_bad : ∀ i < 8, laneWord (badLanes.getD i []) = (wordW badBytes i, some 0) := by
  decide +kernel
theorem lanes_of {lanes : List (List (BitVec 2))} {b : List Byte} (h : ∀ i < 8, laneWord (lanes.getD i []) = (wordW b i, some 0)) :
    fromLanes none lanes = ((List.range 352).map fun j => (wordW b (j % 8)).getD (j / 8) 0, List.replicate 8 (some 0)) := by
  have hw : (List.range 8).map (fun i => laneWord (lanes.getD (laneOf none i) [])) = (List.range 8).map fun i => (wordW b i, some 0) :=
    List.map_congr_left fun i hi => h i (List.mem_range.mp hi)
  unfold fromLanes
  rw [hw]
  refine Prod.ext ?_ rfl
  show (List.range 352).map (fun j => ((((List.range 8).map fun i => ((wordW b i, some 0) : List Byte × Option Nat)).getD (j % 8) ([], none)).1).getD
    (j / 8) 0) = (List.range 352).map fun j => (wordW b (j % 8)).getD (j / 8) 0
  refine List.map_congr_left fun j _ => ?_
  have hj : j % 8 < 8 := Nat.mod_lt _ (by decide)
  simp [List.getD_eq_getElem?_getD, hj]
theorem lanes_good : fromLanes none goodLanes = (goodBytes, List.replicate 8 (some 0)) := by
  rw [lanes_of words_good]
  exact Prod.ext (by decide +kernel) rfl
theorem lanes_bad : fromLanes none badLanes = (badBytes, List.replicate 8 (some 0)) := by
  rw [lanes_of words_bad]
  exact Prod.ext (by decide +kernel) rfl
set_option maxRecDepth 100000 in
theorem crc_good : flitCrc (flitW.control ++ flitW.body) = 17176914215129381111 := by
  decide +kernel
theorem flit_good : (flitOf goodBytes).1 = flitW ∧ (flitOf goodBytes).2 = flitCrc (flitW.control ++ flitW.body) ∧
    goodBytes.take 16 = flitW.control := by
  rw [crc_good]
  decide +kernel
theorem flit_bad : (flitOf badBytes).1 = flitW ∧ (flitOf badBytes).2 ≠ flitCrc (flitW.control ++ flitW.body) := by
  rw [crc_good]
  decide +kernel

/-- A good data flit, the next in sequence (FabricLinks). -/
theorem wit_flit :
    let lanes := goodLanes
    let r := fromLanes (sparedIn (portAt fabW 5) (portAt fabW 5).rxSeq) lanes
    let f := (flitOf r.1).1
    let a := fecCount fabW 5 (r.2.map fun n => n.getD 0)
    let b := takeCredits (modPort a 5 fun p => { p with validAt := a.now, retry := afterSeq p.retry f.ack }) 5 f.creds
    lanes.length = 9 ∧ portState fabW 5 = 4 ∧ portState a 5 ≠ 5 ∧ flitCrc (f.control ++ f.body) = (flitOf r.1).2 ∧ r.1.take 16 = f.control ∧
    f.kind = 1 ∧ f.nak = false ∧ f.spareReq = false ∧ f.seq = (portAt b 5).rxSeq := by
  intro lanes r f a b
  have hr : r = (goodBytes, List.replicate 8 (some 0)) := lanes_good
  have hf : f = flitW := by simp only [f, hr]; exact flit_good.1
  have ha : a = fecCount fabW 5 (List.replicate 8 0) := by simp only [a, hr]; rfl
  refine ⟨rfl, by decide +kernel, by rw [ha]; decide +kernel, ?_, ?_, by rw [hf]; rfl, by rw [hf]; rfl, by rw [hf]; rfl, ?_⟩
  · rw [hf, hr]; exact flit_good.2.1.symm
  · rw [hf, hr]; exact flit_good.2.2
  · simp only [b, hf, ha]; decide +kernel

/-- A bad one, the first and again (FabricLinks). -/
theorem wit_badFlit : ∀ again ∈ [false, true],
    let s := modPort fabW 5 fun p => { p with resent := again }
    let lanes := badLanes
    let r := fromLanes (sparedIn (portAt s 5) (portAt s 5).rxSeq) lanes
    let f := (flitOf r.1).1
    let a := fecCount s 5 (r.2.map fun n => n.getD 0)
    let d := count a (linkBase 5) 3 1
    lanes.length = 9 ∧ portState s 5 = 4 ∧ portState a 5 ≠ 5 ∧ flitCrc (f.control ++ f.body) ≠ (flitOf r.1).2 ∧
    (portAt d 5).resent = again ∧ f.kind = 1 ∧ f.seq = (portAt d 5).rxSeq := by
  have st : ∀ again ∈ [false, true],
      let s := modPort fabW 5 fun p => { p with resent := again }
      let a := fecCount s 5 (List.replicate 8 0)
      let d := count a (linkBase 5) 3 1
      sparedIn (portAt s 5) (portAt s 5).rxSeq = none ∧ portState s 5 = 4 ∧ portState a 5 ≠ 5 ∧ (portAt d 5).resent = again ∧
      flitW.seq = (portAt d 5).rxSeq := by
    decide +kernel
  intro again hm s lanes r f a d
  obtain ⟨h1, h2, h3, h4, h5⟩ := st again hm
  have hr : r = (badBytes, List.replicate 8 (some 0)) := by
    have e : r = fromLanes none lanes := congrArg (fun x => fromLanes x lanes) h1
    rw [e]; exact lanes_bad
  have hf : f = flitW := by simp only [f, hr]; exact flit_bad.1
  have ha : a = fecCount s 5 (List.replicate 8 0) := by simp only [a, hr]; rfl
  have hd : d = count (fecCount s 5 (List.replicate 8 0)) (linkBase 5) 3 1 := by rw [← ha]
  refine ⟨rfl, h2, by rw [ha]; exact h3, ?_, by rw [hd]; exact h4, by rw [hf]; rfl, by rw [hf, hd]; exact h5⟩
  rw [hf, hr]; exact flit_bad.2.symm

/-- Links that fail, with a plan and without one, and after a silence, one with a lane to replace, one that begins to train, and one that trains
on fewer than eight lanes, on the first eight, and without one of these (FabricLinks). -/
theorem wit_fabricLinks :
    (∀ r ∈ [some runW, none], let s := { fabW with run := r, now := 200 }
     let a := modPort (setPortState s 5 5) 5 fun p => { p with failedAt := s.now, failed := true, switched := false }
     let b := sendFailover (tunnelsCut (notice (count a (linkBase 5) 6 1) 0x0402 1 5 1 3)) 5
     portState s 5 = 4 ∧ (portAt s 5).validAt + 200 ≤ s.now ∧ b.run.isSome = r.isSome) ∧
    fbit fabW (linkBase 5) 24 = false ∧
    (let s := { fset fabW (linkBase 5) 2 0 5 with now := 1000000000 }
     portState s 5 = 5 ∧ (portAt s 5).failedAt + 1000000000 ≤ s.now) ∧
    (portState (fset fabW (linkBase 5) 2 0 2) 5 = 2 ∧
     (∀ e ∈ [((0x7F : BitVec 9), (7 : Nat), some 7), (0xFF, 8, none), (0x1FF, 9, none), (0x1F7, 8, some 3)],
       ((List.range 9).filter fun i => e.1.toNat.testBit i).length = e.2.1 ∧ (List.range 8).find? (fun i => !e.1.toNat.testBit i) = e.2.2)) := by
  decide +kernel

/-- A plan whose entry 0 gives tower 0 one operation. -/
def collPlanW (kind a b dtype : Nat) : Plan :=
  { planW with coll := fieldsB 160 [(0, 4, 128), (4, 2, 1), (6, 1, dtype), (128, 1, kind), (130, 1, 63), (132, 4, 1), (136, 8, a), (144, 8, b), (152, 8, 128)] }
def collStateW (kind a b dtype : Nat) : State :=
  { fabW with
    plans := [(1, collPlanW kind a b dtype)],
    fab := { fabW.fab with coll := [(0, { CollEng.init with queue := [⟨0, 0, 0, 0, 0, 0, false, none⟩], tags := [(63, 1)] })] } }
def hereB (s : State) (x : Nat) : Bool :=
  isSelf s (x / 2 ^ 48) && (badAddr s Place.collOk (x % 2 ^ 48) 128).isNone && !withheldFrom s 4096 (x % 2 ^ 48) 128

/-- An operation of each kind that has its operands; a COLL_PUT to another module (Collectives). -/
theorem wit_collectives :
    (∀ k ∈ [1, 2, 3, 4], let s := collStateW k 0xFFFF020000000000 0x12020000000080 0
      ((collFront s 0).map fun f => decide (f.2.2.kind = k) && !collBad f.2.2 f.2.1.2.2 && hereB s f.2.2.a && hereB s f.2.2.b &&
        decide (f.2.2.count ≤ tget 0 (collEng s 0).tags f.2.2.tag)) = some true) ∧
    (let s := collStateW 1 0x10020000000000 0x12020000000080 0
     ((collFront s 0).map fun f => !isSelf s (f.2.2.a / 2 ^ 48) && hereB s f.2.2.b && decide (f.2.2.kind = 1) &&
       (putLines 0 f.1 f.2.2.a (f.2.2.len / 512 + 1) s 0 (List.replicate 128 (0, false))).isSome) = some true) := by
  decide +kernel

/-! ### Power, heat, integrity and Bruise -/

def atNow (s : State) (t : Nat) : State := { s with now := t }
def baseW : State := withCore coreW

/-- Each of the events of PowerRows at the moment it comes. -/
theorem wit_power :
    (let g : Prot := { Prot.init with limit := 60, hot := true, okSince := some 0 }
     let s := atNow { baseW with pwr := { baseW.pwr with guard := g, therm := [(255, g)] } } 10000000
     s.pwr.guard.limit < 64 ∧ s.pwr.guard.hot = true ∧ s.pwr.guard.last + 1000000 ≤ s.now ∧ s.pwr.guard.okSince = some 0 ∧ 0 + 10000000 ≤ s.now ∧
     tget Prot.init s.pwr.therm (255 : BitVec 8).toNat = g ∧ (lowestEmergency s).1 < 64 ∧ s.pwr.lastCapAt + 10000000 ≤ s.now) ∧
    (let f : Follow := ⟨0x13, 60, 3, 0⟩
     let s := atNow { baseW with pwr := { baseW.pwr with follow := [f] } } 50000000
     s.pwr.follow.find? (fun f => f.origin = (0x13 : BitVec 16).toNat) = some f ∧ f.time + 50000000 ≤ s.now) ∧
    (let s := atNow { baseW with pwr := { baseW.pwr with want := [(47, 8)], lowSince := [(47, 0)] } } 100000000
     tget? s.pwr.lowSince (47 : BitVec 6).toNat = some 0 ∧ 0 + 100000000 ≤ s.now) ∧
    (baseW.pwr.phaseLost.contains (15 * 64 + (63 : BitVec 6).toNat) = false ∧ (3 : BitVec 4).toNat ≤ 3 ∧ (5 : BitVec 6).toNat < 6 ∧
     baseW.pwr.domLost.contains ((15 * 4 + 3) * 16 + 5) = false) ∧
    (let s := fset baseW pwmBase 23 16 0xFF
     fbit s pwmBase (16 + (7 : BitVec 3).toNat) = true ∧
     2 < ibcCount (notice (fset s pwmBase 23 23 0) 0x1506 0 0xFFFF 0xFF (ibcOk (fset s pwmBase 23 23 0)))) ∧
    (let s := fset baseW pwmBase 23 16 0x83
     fbit s pwmBase (16 + (7 : BitVec 3).toNat) = true ∧
     ibcCount (notice (fset s pwmBase 23 23 0) 0x1506 0 0xFFFF 0xFF (ibcOk (fset s pwmBase 23 23 0))) ≤ 2) ∧
    (let s := atNow { baseW with pwr := { baseW.pwr with underSince := some 0, hotInletSince := some 0 } } 1000000000
     s.pwr.underSince = some 0 ∧ 0 + 1000000 ≤ s.now ∧ s.pwr.hotInletSince = some 0 ∧ 0 + 1000000000 ≤ s.now) ∧
    6000 < fget (fset baseW (pwmBase + 0x10) 15 0 6001) (pwmBase + 0x10) 15 0 ∧
    (let s := setRegionState { baseW with pwr := { baseW.pwr with staging := [⟨255, 0, 0, 0⟩] } } 255 1
     regionState s (255 : BitVec 8).toNat = 1 ∧ s.pwr.staging.any (fun x => decide (x.region = 255) && decide (x.until_ ≤ s.now)) = true) := by
  decide +kernel

/-- The state that the governor meets in a tick. -/
def tickW (input : List (BitVec 16 × BitVec 16)) (volts phases : List (BitVec 16)) (s : State) : State :=
  let v := sampleMean (input.map (·.1))
  let z := pulpTick ((List.range 16).foldl jitterTick s)
  guardTick (bandTick (domainTick (inputTick z v (sampleMean (input.map (·.2))) (inputEnergy input)) volts phases) v)
theorem run_tickW (input : List (BitVec 16 × BitVec 16)) (volts phases : List (BitVec 16)) (s : State) (h : s.pwr.guard.limit ≠ 64) :
    (tickW input volts phases s).run = s.run := by
  have k := ((((Kept.fold kept_jitterTick (List.range 16) s).trans (kept_pulpTick _)).trans
    (kept_inputTick _ (sampleMean (input.map (·.1))) (sampleMean (input.map (·.2))) (inputEnergy input))).trans
    (kept_domainTick _ volts phases)).trans (kept_bandTick _ (sampleMean (input.map (·.1))))
  unfold tickW
  dsimp only
  rw [run_guardTick (by rw [k.2]; exact h), k.1]

/-- Ticks of the right shape, with and without a plan, while the guard has the input limited (TelemetryTick). -/
theorem wit_telemetry : ∃ (input : List (BitVec 16 × BitVec 16)) (volts phases : List (BitVec 16)),
    input.length = 10 ∧ volts.length = 64 ∧ phases.length = 1312 ∧ ∀ r ∈ [some runW, none],
      let s := { withCore coreW with run := r, pwr := { State.reset.pwr with guard := { Prot.init with limit := 60 } } }
      noPlan (govTick (tickW input volts phases s) (f64OfFrac (inputEnergy input) 100000)) = r.isNone := by
  refine ⟨List.replicate 10 (5000, 100), List.replicate 64 90, List.replicate 1312 10, List.length_replicate, List.length_replicate,
    List.length_replicate, fun r hr => ?_⟩
  intro s
  rw [noPlan_govTick, noPlan, run_tickW _ _ _ s (by show (60 : Nat) ≠ 64; decide)]
  rw [List.mem_cons, List.mem_singleton] at hr
  obtain rfl | rfl := hr <;> rfl

/-- A hot region due for a step, a region at the trip level for 1 ms (ThermalRows). -/
theorem wit_thermal : (List.replicate 192 (none : Option Int)).length = 192 ∧
    (let g : Prot := { Prot.init with limit := 12, hot := true }
     let s := atNow { baseW with pwr := { baseW.pwr with therm := [(255, g)], tripSince := [(255, (0, 1))] } } 1000000
     tget Prot.init s.pwr.therm (255 : BitVec 8).toNat = g ∧ g.limit < 64 ∧ g.hot = true ∧ g.last + 1000000 ≤ s.now ∧
     tget? s.pwr.tripSince 255 = some (0, 1) ∧ 0 + 1000000 ≤ s.now ∧ regionState s 255 ≠ 3) := by
  decide +kernel

/-- A FENCED core that passes for the first time and one that does not, flits that pass a hop, fail it and have failed it three times, a bypassed
router, a live router beside an ACTIVE core, a tower in service, a silent core, a column that answers with another state (IntegrityRows). -/
theorem wit_integrity :
    (let s := setCoreState baseW (3 * 272 + 271) csFenced
     let w := endGang (writeBadCols (writeBadCols s (3 * 272 + 271) 0 0) (3 * 272 + 271) 1 0) (3 * 272 + 271)
     let a := narrowNotice (narrowNotice w (repairState s (3 * 272 + 271) 0) (repairState w (3 * 272 + 271) 0)) (repairState s (3 * 272 + 271) 1)
       (repairState w (3 * 272 + 271) 1)
     coreState s (3 * 272 + 271) = csFenced ∧
     (∀ pass ∈ [true, false], (pass && !armsBad a (3 * 272 + 271) && !(coreOf a (3 * 272 + 271)).fencedBefore &&
       !a.stone.dead.contains (3 * 272 + 271)) = pass)) ∧
    ((netOf baseW 271).bypass = false ∧ (∀ b ∈ [(0x003 : BitVec 9), 0x101], parityBit (BitVec.ofNat 8 b.toNat) = b.getLsbD 8) ∧
     ¬(∀ b ∈ [(0x001 : BitVec 9)], parityBit (BitVec.ofNat 8 b.toNat) = b.getLsbD 8) ∧
     (∀ f ∈ [0, 2, 3], (netOf (modNet baseW 271 fun n => n.setFails 5 (routeClass baseW 0 271) f) 271).fails 5
       (routeClass (modNet baseW 271 fun n => n.setFails 5 (routeClass baseW 0 271) f) 0 271) = f) ∧
     (netOf (modNet baseW 271 fun n => { n with bypass := true }) 271).bypass = true) ∧
    (let s := setCoreState baseW 0 csActive
     inReset s 0 = false ∧ quarTries s 0 0 = none ∧ coreState s 0 = csActive ∧ (⟨false, 0, 0, 0⟩ : Identity).answered = false) ∧
    (let s := setColState baseW 0 1
     quarTries s 1 0 = none ∧ colState s 0 = 1 ∧ answerOk s 0 (logicalCol s 0) 1 ⟨true, 0, 0, 2⟩ = false) := by
  decide +kernel
theorem wit_routerDead :
    let s := setCoreState State.reset 0 csActive
    let a := stopPlan s stStepFailed 0
    let b := { a with stone := { a.stone with dead := sadd a.stone.dead 0 } }
    let n := turnAround (modNet b 0 fun n => { n with bypass := true, failed := [] }) 0
    s.stone.dead.contains 0 = false ∧ coreState n 0 = csActive ∧ crossDead a 0 = false := by
  decide +kernel

/-- An injection of each kind in progress, with operands that obey R447 and that do not; a tower of the strap (BruiseRows). -/
theorem wit_bruise :
    (∀ k ∈ [0, 1, 2, 3, 4], let s := fset (regPut baseW (brzBase 0 + 0x40) (BitVec.ofNat 64 (k * 2 ^ 48 + 12 * 2 ^ 56 + 0x020000000080))) (brzBase 0 + 0x48) 2 2 1
      injBusy s 0 = true ∧ injKind s 0 = k ∧ injOk s 0 = true) ∧
    (∀ k ∈ [0, 1, 2, 3, 4], let s := fset (fset (regPut baseW (brzBase 0 + 0x40) (BitVec.ofNat 64 (k * 2 ^ 48 + 13 * 2 ^ 56 + 0x400000000000))) (brzBase 0 + 0x48) 2 2 1) (brzBase 0 + 0x48) 16 8 272
      injBusy s 0 = true ∧ injKind s 0 = k ∧ injOk s 0 = false) ∧
    (∀ b ∈ [0, 1], let s := fset (fset baseW (brzBase 15) 63 63 1) (brzBase 15) 32 32 b
      brzRight 15 .host = true ∧ inReset s 15 = false ∧ brzOn s 15 = true ∧ fbit s (brzBase 15) 32 = decide (b = 1)) := by
  decide +kernel

/-! ### Bring-up and the host link -/

/-- The module with power good, the mode and the boot record given. -/
def bootW (mode : Nat) (f : Boot → Boot) : State := fset { baseW with boot := f { baseW.boot with pwrgd := true } } bootBase 1 0 mode

/-- The stages, phases and pins at the moments they come (BringUpRows). -/
theorem wit_bringUp :
    State.reset.boot.pwrgd = false ∧
    (let s := fset (bootW 0 id) bootBase 15 8 2
     s.boot.pwrgd = true ∧ bootMode s = 0 ∧ fget s bootBase 15 8 = (2 : BitVec 8).toNat ∧ (2 : BitVec 8).toNat ≠ 0xF ∧ stageFault 2 ⟨[], [], [], 0⟩ = 0 ∧
     bootMode (stageWork s 2 ⟨[], [], [], 0⟩) = 0 ∧ stageFault 2 ⟨[], [], [], 5⟩ ≠ 0) ∧
    (let s := fset (bootW 0 id) bootBase 15 8 1
     s.boot.pwrgd = true ∧ bootMode s = 0 ∧ fget s bootBase 15 8 = 1) ∧
    (let s := bootW 0 fun b => { b with ended := 1 }
     s.boot.pwrgd = true ∧ 1 ≤ s.boot.ended ∧ s.boot.endpoint = false) ∧
    (let s := bootW 0 fun b => { b with ended := 0xB }
     s.boot.pwrgd = true ∧ bootMode s = 0 ∧ s.boot.ended = 0xB ∧ s.boot.frameAt ≤ s.now) ∧
    (let s := bootW 1 id
     bootMode s = 1 ∧ rcvBusy s = false ∧ rcvBusy (fset s rcvCtl 9 9 1) = true) ∧
    (let s := bootW 3 id
     bootMode s = 3 ∧ s.boot.frameAt ≤ s.now) ∧
    (let s := atNow (bootW 2 fun b => { b with saving := some 1 }) 10000000
     inRun s = true ∧ s.boot.pinsRun = false ∧ s.boot.phaseAt + 1000000 ≤ s.now ∧ s.boot.phaseAt + 10000000 ≤ s.now ∧ s.boot.saving = some 1) := by
  decide +kernel

/-- Stage 1 ends without a fault exactly when the manufacturing area passes its digest, which the model leaves free (BringUpRows). -/
theorem wit_stageOne : (Config.manufacturingOk = true → stageFault 1 ⟨[], [], [], 0⟩ = 0) ∧
    (Config.manufacturingOk = false → stageFault 1 ⟨[], [], [], 0⟩ ≠ 0) := by
  constructor <;> intro h <;> simp [stageFault, h]

/-- An image that passes the checks (its key and signature are the module's own, which the model leaves free), read twice alike, in
RECOVERY and in RUN (ResetAndUpdateRows). -/
theorem wit_firmware (b : List Byte) (mode : Nat) (hm : mode = 1 ∨ mode = 2) (hl : b.length = 65536) :
    let s := fset (fset (fset (bootW mode id) rcvCtl 63 32 65536) rcvCtl 9 9 1) pciBase 14 14 1
    imageCheck s b 65536 = 0 →
    rcvBusy s = true ∧ busMaster s = true ∧ readWhole ⟨b, []⟩ (rcvLength s) = true ∧ imageCheck s b (rcvLength s) = 0 ∧
    (mode = 1 → s.boot.pwrgd = true ∧ bootMode s = 1) ∧ (mode = 2 → inRun s = true) := by
  intro s h
  have hr : rcvLength s = 65536 := by obtain rfl | rfl := hm <;> decide +kernel
  rw [hr]
  refine ⟨by obtain rfl | rfl := hm <;> decide +kernel, by obtain rfl | rfl := hm <;> decide +kernel, by simp [readWhole, hl], h, ?_, ?_⟩
  · rintro rfl; decide +kernel
  · rintro rfl; decide +kernel

/-- Power good with PERST_L released and the link up (ResetAndUpdateRows). -/
theorem wit_resets : let s := fset (bootW 2 fun b => { b with perst := false }) pciBase 11 11 1
    s.boot.pwrgd = true ∧ s.boot.perst = false ∧ fbit s pciBase 11 = true := by
  decide +kernel

/-- A module in RUN whose endpoint serves the host, with bus mastering on and BAR2 at the cluster memory of tower 0. -/
def runModeW : State :=
  regPut (fset (fset (fset (bootW 2 fun b => { b with endpoint := true, i3cReady := true }) pciBase 14 13 3) pciBase 11 11 1) bootBase 1 0 2)
    (pciBase + 0x108) 0x20000000000

/-- A line of the cluster memory of tower 0 moved to a fast line that a core's replay has yet to write. -/
def heldFastW : State :=
  let s := regPut runModeW (pciBase + 0x108) 0
  { s with llc := { s.llc with lines := [(0, { SLine.init with withheld := 1 })] } }

/-- The widths and rates of a link, the endpoint's settings, BAR2 bytes that are served, PTM, DOE and a read that timed out (PcieRows). -/
theorem wit_pcie :
    (∀ w ∈ [(1, 1, false), (5, 2, true), (6, 16, true)], 1 ≤ (BitVec.ofNat 3 w.1).toNat ∧ (BitVec.ofNat 3 w.1).toNat ≤ 6 ∧
       (BitVec.ofNat 5 w.2.1).toNat ∈ [1, 2, 4, 8, 16] ∧ ((BitVec.ofNat 3 w.1).toNat = 6 → w.2.2 = true)) ∧
    (runModeW.boot.pwrgd = true ∧ runModeW.boot.endpoint = true ∧ 32 ≤ (42 : BitVec 6).toNat ∧ (42 : BitVec 6).toNat ≤ 42) ∧
    (hostReach runModeW = true ∧ inRun runModeW = true ∧ rangeOk runModeW Place.remoteOk (bar2Addr runModeW 0) 8 = true ∧
     0 + 8 ≤ 2 ^ runModeW.pci.bar2Log ∧ withheldFrom runModeW 4096 (bar2Addr runModeW 0) 8 = false) ∧
    (hostReach heldFastW = true ∧ inRun heldFastW = true ∧ rangeOk heldFastW Place.remoteOk (bar2Addr heldFastW 0) 8 = true ∧
     withheldFrom heldFastW 4096 (bar2Addr heldFastW 0) 8 = true) ∧
    (let s := { fset runModeW bootBase 15 8 1 with boot := { runModeW.boot with endpoint := false, perst := false } }
     s.boot.endpoint = false ∧ s.boot.pwrgd = true ∧ s.boot.perst = false) ∧
    (let s := regPut runModeW (stnBase + 0x2000) (BitVec.ofNat 64 (2 ^ 63 + 0x12 * 2 ^ 32 + 0x12 * 2 ^ 16 + 64 + 16))
     let s := { s with pci := { s.pci with cfg := [(0x288, 1)] } }
     isRoot s = true ∧ fbit s pciBase 11 = true ∧ (cfgWord s 0x288).testBit 0 = true ∧ s.pci.lastPtm = 0) ∧
    (let s := atNow (fset runModeW (pciBase + 0x110) 1 1 1) 30000000
     fbit s (pciBase + 0x110) 1 = true ∧ s.pci.ptmLost = false ∧ s.pci.lastPtm + 30000000 ≤ s.now) ∧
    (let p := leBytes 4 1 ++ leBytes 4 1 ++ List.replicate 32 0
     p.length = 40 ∧ leAt p 0 4 = 1 ∧ leAt p 4 4 ≤ 1 ∧ runModeW.boot.endpoint = true ∧ (leBytes 4 2).length ≠ 40) ∧
    (let e := loadE 0x400000000000 8 (some 0)
     let s := { hosted runModeW with cores := [(0, { coreW with loads := [e] })] }
     let u := aerError (count s pciBase 2 1) 14 false
     busMaster s = true ∧ readOpen s 0 = true ∧ live (coreOf u (physCore u 0)) = true ∧ (coreOf u (physCore u 0)).loads = [e]) := by
  decide +kernel

/-- The target on its static and on a dynamic address; aligned places of control space and others; a reply; an interrupt due (I3cRows). -/
theorem wit_i3c :
    (i3cUp runModeW = true ∧ i3cAssigned runModeW = false ∧ i3cHere runModeW 0x4E = true) ∧
    (let s := fset (fset (fset (fset runModeW pipBase 23 16 0x8A) pipBase 24 24 1) (pipBase + 0x10) 8 0 0x100) (pipBase + 0x18) 8 0 0x1FF
     let t := atNow { s with pip := { s.pip with reply := some [0] } } 10000000
     i3cUp t = true ∧ i3cAssigned t = true ∧ i3cHere t 0x0A = true ∧ t.pip.reply = some [0] ∧
     fget t (pipBase + 0x10) 8 0 &&& fget t (pipBase + 0x18) 8 0 ≠ 0 ∧ fbit t pipBase 24 = true ∧ t.pip.ibiAt + 10000000 ≤ t.now) ∧
    (ctlOk runModeW (pipBase + 0x10) 8 = true ∧ ctlOk runModeW (pipBase + 0x14) 4 = true ∧ ctlOk runModeW 0x7FFFFFF8 8 = false ∧
     ctlOk runModeW (pipBase + 2) 4 = false) := by
  decide +kernel

/-! ### Host commands, plans and steps -/

/-- A ring of 64 entries and a record ring of 64 records that are on, with one entry not read. -/
def ringW : State :=
  let s := fset (fset runModeW (stnBase + 0x1008) 31 31 1) (stnBase + 0x1018) 31 31 1
  { s with cmd := { s.cmd with cmdTail := 1 } }
def entryW (op handle : Nat) (l : List (Nat × Nat × Nat)) : Entry64 := ⟨0, fieldsB 64 ([(0, 1, op), (4, 4, 77), (8, 1, handle)] ++ l), 0⟩
def complW (n : Nat) : Completion := ⟨n, 0, 77, 0, 0, 0, 0⟩
def noticeW (n : Nat) : Notice := ⟨n, 0, 0x1014, 0xFFFF, 0xFF, 0, 0, 0, 0⟩

/-- Doorbells in and before RUN, within the ring and beyond it; entries of each outcome; records that wait, with room (HostQueues). -/
theorem wit_hostQueues :
    (hostReach ringW = true ∧ bootMode ringW = 2 ∧ cmdHead ringW = 0 ∧ ringSize ringW = 64) ∧
    (let s := fset ringW bootBase 1 0 0
     hostReach s = true ∧ bootMode s ≠ 2) ∧
    (inRun ringW = true ∧ ringOn ringW = true ∧ busMaster ringW = true ∧ cmdHead ringW ≠ ringW.cmd.cmdTail ∧
     (entryW 0 0 []).bytes.length = 64 ∧ entryOk (entryW 0 0 []).bytes = true ∧ entryOk (entryW 9 0 []).bytes = false ∧
     entryOk (entryW 0 1 []).bytes = false) ∧
    (let s := { ringW with cmd := { ringW.cmd with done := [complW 0], notices := [noticeW 1] } }
     recRoom s = true ∧ ∀ n ∈ s.cmd.notices, (complW 0).stamp < n.stamp) ∧
    (let s := { ringW with cmd := { ringW.cmd with done := [complW 1], notices := [noticeW 0] } }
     recRoom s = true ∧ ∀ c ∈ s.cmd.done, (noticeW 0).stamp < c.stamp) := by
  decide +kernel

/-- RUN with an entry in front, beside the given plan and run. -/
def cmdStateW (e : Entry64) (r : Option Run) : State :=
  { ringW with cmd := { ringW.cmd with entries := [e] }, run := r }

/-- An entry in front of each command that nothing of its kind precedes, and the conditions of each outcome (HostCommands). -/
theorem wit_hostCommands :
    (∀ op ∈ [0, 1, 2, 3, 4, 5, 6, 7, 8], (cmdStateW (entryW op 1 []) none).nextEntry op (entryW op 1 []) []) ∧
    (let b := activeOf (entryW 4 1 [])
     let s := { ringW with cmd := { ringW.cmd with entries := [entryW 6 0 []], active := [b] } }
     s.cmd.entries = [entryW 6 0 []] ∧ leAt (entryW 6 0 []).bytes 0 1 = 6 ∧ s.cmd.active = [b] ∧ b.op ≠ 6) ∧
    (runW.started = true ∧ { runW with started := false }.ending = none) ∧
    (∀ r ∈ [some runW, none], let s := cmdStateW (entryW 4 1 []) r
      loadingH s 1 = false ∧ (planIn s 1).isSome = true ∧ handleOk 1 = true ∧ (planIn s 2).isSome = false ∧ handleOk 9 = false) ∧
    (let e := entryW 5 0 [(16, 8, 0x400000000000), (24, 8, 0x20000000000), (32, 8, 128)]
     let a := activeOf e
     inHostWin (copySrc a) = true ∧ busMaster ringW = true ∧ copyLen a = 128 ∧ copyLen a % 128 = 0 ∧
     withheldFrom ((cmdStateW e none).started e []) 4096 (copySrc a) (copyLen a) = false ∧
     copyLen (activeOf (entryW 5 0 [(32, 8, 100)])) % 128 ≠ 0) ∧
    (let e := entryW 7 0 [(24, 8, 64)]
     let prof := fieldsB 64 [(0, 4, 1), (4, 4, 10), (8, 4, 11500), (12, 4, 9000), (16, 4, 1500), (20, 1, 1)]
     prof.length = profileRead (activeOf e) ∧ profileFaults prof (leAt e.bytes 24 8) [] = [] ∧
     profileFaults prof (leAt e.bytes 24 8) [1] = [32] ∧ profileFaults (fieldsB 64 [(0, 4, 1)]) 64 [] ≠ []) ∧
    (∀ n ∈ [0, 1, 2, 3], leAt (entryW 8 n [(24, 8, 64)]).bytes 8 2 = n ∧ leAt (entryW 8 n [(24, 8, 64)]).bytes 24 8 ≠ 0) := by
  simp only [State.nextEntry]
  decide +kernel

/-- LOAD_PLAN into an empty handle and a used one, with operands in and out of range; an image that arrives whole or poisoned, one that
fails its checks; LAUNCH_PLAN of a plan that may start; a plan whose start time has come (PlanCommands). -/
theorem wit_planCommands :
    (let e := entryW 1 2 [(16, 8, 64), (24, 8, 256), (32, 8, 0x100000000000)]
     let s := cmdStateW e none
     let a := activeOf e
     handleOk a.handle = true ∧ planIn s a.handle = none ∧ loadingOther (s.started e []) a = false ∧ loadOperandsOk a = true ∧
     loadOperandsOk (activeOf (entryW 1 2 [(16, 8, 65)])) = false ∧ (planIn s 1).isSome = true) ∧
    (let a := activeOf (entryW 1 2 [(16, 8, 64), (24, 8, 256), (32, 8, 0x100000000000)])
     let s := { ringW with cmd := { ringW.cmd with active := [a] } }
     loadAt s (0 : W32).toNat = some a ∧ (List.replicate 256 (0 : Byte)).length = loadSize a ∧ busMaster s = true ∧
     headerOk (List.replicate 256 0) (loadSize a) = false ∧ ([0, 7].filter fun g => 32 * g < loadSize a) = [0, 7]) ∧
    (let e := entryW 2 1 [(16, 4, 1)]
     let s := cmdStateW e none
     handleOk (activeOf e).handle = true ∧ loadingH s (activeOf e).handle = false ∧ planIn s (activeOf e).handle = some planW ∧ s.run = none ∧
     rcvBusy s = false ∧ planW.stale = false ∧ leAt e.bytes 12 4 < planW.stepCount ∧ planW.fabric = false ∧
     badJob (readJobs (s.started e [])).1 planW (readJobs (s.started e [])).2 = none) ∧
    (let r := { runW with started := false }
     let s := { ringW with run := some r }
     s.run = some r ∧ runPlan s = some planW ∧ r.started = false ∧ r.ending = none ∧ r.startAt ≤ s.now) := by
  decide +kernel

/-- An image that passes each check loads: the image's digest and contents are the sender's (PlanCommands). -/
theorem wit_image (s : State) (img : List Byte) (h1 : headerOk img img.length = true) (h2 : digestOk img = true)
    (h3 : bytesAt img 16 64 = shapeDigest s) (h4 : sectionsRej img (planOf img) = none)
    (h5 : onSection img (sectionsOf img) 4 (fun x _ => disjointRej x (planOf img).ids (planOf img).steps) = none)
    (h6 : onSection img (sectionsOf img) 8 (fun x b => pinRej x b (planOf img).pools) = none) :
    checkPlan s img img.length = .ok (planOf img) := by
  simp [checkPlan, h1, h2, h3, h4, h5, h6]

/-- A step of a plan none of whose cores is on: its shares are done. -/
def stepW (p : Plan) (r : Run) : State := { baseW with cores := [], plans := [(1, p)], run := some r }
def longW : Plan := { planW with stepCount := 2, steps := planW.steps ++ planW.steps }
def dueW : Job := { jobW 16 groupW with dueNo := 5 }

theorem stepW_done (p : Plan) (r : Run) : sharesDone (stepW p r) = true := List.all_eq_true.2 fun _ _ => rfl

/-- The last step, an aborted one, one with a successor, a late job, and a deadline that has passed (StepRows). -/
theorem wit_commit :
    (∀ k ∈ [(planW, { runW with iters := 1 }), (longW, { runW with abort := true }), (longW, runW)],
      let s := stepW k.1 k.2
      curEntry s = some (k.2, k.1, ⟨1000, 0, 0, 0, 0, 0, 0, 0, 0⟩) ∧ enginesIdle (settleStep s) = true ∧ commitBarred (settleStep s) = false ∧
      lateJobs (settleStep s) k.2.stepNo = [] ∧ (commitBarrier (settleStep s) k.2.stepNo (k.1.fabric && decide (0 = 1))).2 = true ∧
      scaleBarred (commitBarrier (settleStep s) k.2.stepNo (k.1.fabric && decide (0 = 1))).1 = none) ∧
    (lastStep planW { runW with iters := 1 } = true ∧ lastStep longW runW = false) ∧
    (let s := { stepW planW runW with qnc := { State.reset.qnc with jobs := [dueW] } }
     lateJobs (settleStep s) runW.stepNo = [dueW] ∧ (settleStep s).qnc.late = false) ∧
    (let s := atNow (stepW planW runW) 1001
     runW.stepStart + 1000 + 1000 * planW.reserve / 1000 + planW.watchdog < s.now) := by
  decide +kernel

/-- A step whose commit meets an uncorrectable error in the scale table of core 0 (StepRows). -/
theorem wit_scaleBarred :
    let w := stepW planW runW
    let s := { w with ctl := { w.ctl with syn := [(coreScale 0 0, 3)] } }
    curEntry s = some (runW, planW, ⟨1000, 0, 0, 0, 0, 0, 0, 0, 0⟩) ∧ enginesIdle (settleStep s) = true ∧ commitBarred (settleStep s) = false ∧
    lateJobs (settleStep s) runW.stepNo = [] ∧ (commitBarrier (settleStep s) runW.stepNo false).2 = true ∧
    scaleBarred (commitBarrier (settleStep s) runW.stepNo false).1 = some 0 := by
  decide +kernel

/-- A fabric step whose barrier has not completed (StepRows). -/
theorem wit_barrierWaits : let e : StepEnt := ⟨1000, 0, 0, 0, 0, 0, 0, 1, 0⟩
    let p := { planW with fabric := true, steps := [e], routes := fieldsB 512 [(80, 1, 3)] }
    let s := { fabW with cores := [], plans := [(1, p)], fab := { fabW.fab with barMembers := [(barKey 5 0, [2])] } }
    curEntry s = some (runW, p, e) ∧ lateJobs (settleStep s) runW.stepNo = [] ∧
    (commitBarrier (settleStep s) runW.stepNo (p.fabric && decide (e.scope = 1))).2 = false := by
  decide +kernel

/-- A faulted core on its first attempt, without and with poison in memory, and after its second replay; cores that run (StepRows). -/
theorem wit_replay :
    (let s := withCore { coreW with st := .faulted }
     (coreL s 0).st = .faulted ∧ (coreL s 0).attempt < 2 ∧ (coreL (haltAll s 0) 0).poisonAt = none) ∧
    (let s := withCore { coreW with st := .faulted, poisonAt := some 128 }
     (coreL s 0).st = .faulted ∧ (coreL s 0).attempt < 2 ∧ (coreL (haltAll s 0) 0).poisonAt = some 128) ∧
    (let s := withCore { coreW with st := .faulted, attempt := 2 }
     (coreL s 0).st = .faulted ∧ 2 ≤ (coreL s 0).attempt) ∧
    live (coreL (withCore coreW) 0) = true ∧
    parityBit (BitVec.ofNat 8 (1 : BitVec 9).toNat) ≠ (1 : BitVec 9).getLsbD 8 ∧
    parityBit (BitVec.ofNat 8 (0x101 : BitVec 9).toNat) = (0x101 : BitVec 9).getLsbD 8 := by
  decide +kernel

theorem arrived_done : sharesDone (setCoreState (setCoreState (withCore { coreW with st := .arrived }) 0 csActive) 16 csSpare) = true := by
  generalize hs : setCoreState (setCoreState (withCore { coreW with st := .arrived }) 0 csActive) 16 csSpare = s
  have hc : s.cores = [(0, { coreW with st := .arrived })] := by rw [← hs]; rfl
  have h : ∀ k, (tget Core.init [(0, { coreW with st := .arrived })] k).st = .arrived ∨ (tget Core.init [(0, { coreW with st := .arrived })] k).st = .off := by
    intro k
    simp only [tget, tget?]
    split <;> simp [Core.init]
  refine List.all_eq_true.2 fun lc _ => ?_
  simp only [coreL, coreOf, hc]
  obtain h | h := h (physCore s lc) <;> simp [h]

/-! A spare that takes a core's place leaves the plan in progress. -/
def Runs (s t : State) : Prop := t.run = s.run ∧ t.plans = s.plans
theorem Runs.trans {a b c : State} (h : Runs a b) (g : Runs b c) : Runs a c := ⟨g.1.trans h.1, g.2.trans h.2⟩
theorem Runs.fold {α : Type} {f : State → α → State} (h : ∀ s a, Runs s (f s a)) (l : List α) (s : State) : Runs s (l.foldl f s) := by
  induction l generalizing s with
  | nil => exact ⟨rfl, rfl⟩
  | cons a l ih => exact (h s a).trans (ih _)
theorem runs_still {s t : State} (h : t.still = s.still) : Runs s t := ⟨run_of_still h, congrArg (fun x => x.plans) h⟩
theorem runs_ctl (s : State) (c : Ctl) : Runs s { s with ctl := c } := ⟨rfl, rfl⟩
theorem runs_regPut (s : State) (o : Nat) (v : W64) : Runs s (regPut s o v) := ⟨rfl, rfl⟩
theorem runs_fset (s : State) (o hi lo v : Nat) : Runs s (fset s o hi lo v) := ⟨rfl, rfl⟩
theorem runs_fresh (s : State) : Runs s (fresh s) := ⟨rfl, rfl⟩
theorem runs_setCore (s : State) (k : Nat) (c : Core) : Runs s (setCore s k c) := ⟨rfl, rfl⟩
theorem runs_modCore (s : State) (k : Nat) (f : Core → Core) : Runs s (modCore s k f) := ⟨rfl, rfl⟩
theorem runs_setCoreState (s : State) (k v : Nat) : Runs s (setCoreState s k v) := runs_fset ..
theorem runs_setQuar (s : State) (k u : Nat) (v : Option Nat) : Runs s (setQuar s k u v) := ⟨rfl, rfl⟩
theorem runs_notice (s : State) (c v so t d : Nat) : Runs s (notice s c v so t d) := runs_still (still_notice ..)
theorem runs_setDir (s : State) (k : Nat) (d : Dir) : Runs s (setDir s k d) := ⟨rfl, rfl⟩
theorem runs_setMapEntry (s : State) (cl o j p : Nat) : Runs s (setMapEntry s cl o j p) := runs_fset ..
theorem runs_l1Clear (s : State) (q : Nat) : Runs s (l1Clear s q) := by
  have f : ∀ s (a : Nat × L1Line), Runs s (if (lineAt s a.1).dir = .m q then setDir s a.1 .i else s) := fun s a => by
    split
    · exact runs_setDir ..
    · exact ⟨rfl, rfl⟩
  exact (Runs.fold f (coreOf s q).l1 s).trans (runs_modCore ..)
theorem runs_copyScales (s : State) (a b : Nat) : Runs s (copyScales s a b) := by
  have f : ∀ (x y n : Nat) (u : State), Runs u ((List.range n).foldl (fun s i => regPut s (x + 8 * i) (regGet s (y + 8 * i))) u) :=
    fun x y n u => Runs.fold (f := fun s i => regPut s (x + 8 * i) (regGet s (y + 8 * i))) (fun s i => runs_regPut ..) _ _
  unfold copyScales
  extract_lets x y copy syn src
  exact (runs_ctl s _).trans ((f _ _ _ _).trans ((f _ _ _ _).trans (f _ _ _ _)))
theorem runs_mapUnit (s : State) (o u k : Nat) : Runs s (mapUnit s o u k) := by
  unfold mapUnit
  extract_lets cl p gone a b
  have h : Runs s a := Runs.fold (f := fun s j => setMapEntry s cl o j gone) (fun _ _ => runs_setMapEntry ..) _ _
  exact h.trans ((runs_setMapEntry ..).trans (runs_fset ..))
theorem runs_refuse (s : State) (pk : Nat) : Runs s (refuseInjections s pk) := (runs_fresh s).trans (runs_still (still_count ..))
theorem runs_installSpare (s : State) (lc pk u : Nat) : Runs s (installSpare s lc pk u) := by
  unfold installSpare
  extract_lets old a b c d e i f
  have ha : Runs s a := (runs_refuse _ _).trans (runs_copyScales _ _ _)
  have hd : Runs a d := (runs_l1Clear _ _).trans ((runs_l1Clear _ _).trans (runs_mapUnit _ _ _ _))
  have he : Runs d e := (runs_setCoreState ..).trans (runs_setCoreState ..)
  have hf : Runs e f := runs_setCore ..
  exact ha.trans (hd.trans (he.trans (hf.trans (runs_modCore ..))))

/-- A poisoned reduction target, a withheld group, and an arrived core whose identity disagrees, with a spare beside it (StepRows). -/
theorem wit_stepWide :
    (let s := { stepW planW runW with llc := { State.reset.llc with redPoison := [0] } }
     curEntry s = some (runW, planW, ⟨1000, 0, 0, 0, 0, 0, 0, 0, 0⟩) ∧ 0 * 272 + (0 : BitVec 9).toNat ∈ s.llc.redPoison) ∧
    (let s := { stepW planW runW with llc := { State.reset.llc with lines := [(0, { SLine.init with withheld := 1 })] } }
     s.llc.lines.any (fun l => decide (l.2.withheld ≠ 0) && decide (lineSlice s l.1 = 0)) = true) := by
  decide +kernel
def spareW : State := setCoreState (setCoreState (withCore { coreW with st := .arrived }) 0 csActive) 16 csSpare
theorem wit_wideIdentity : logicalCore spareW 0 = some 0 ∧ (coreL spareW 0).st = .arrived ∧ sharesDone spareW = true ∧
    (curEntry (wideIdentity spareW 0)).isSome = true := by
  refine ⟨by decide +kernel, by decide +kernel, arrived_done, ?_⟩
  let u := setQuar (setCoreState spareW 0 csQuar) 0 0 (some 0)
  let v := fresh (quarNotice u 0 0 0 (coreState spareW 0) ((Config.freeWord spareW.free).toNat % 256))
  have hv : Runs spareW v := (runs_setCoreState spareW 0 csQuar).trans ((runs_setQuar _ 0 0 (some 0)).trans
    ((runs_notice u 0x1017 1 0 _ _).trans (runs_fresh _)))
  have hl : logicalCore v 0 = some 0 := by decide +kernel
  have hs : spareCore v 0 = some 16 := by decide +kernel
  have e : wideIdentity spareW 0 = takeOver v 0 := rfl
  have hr : Runs spareW (wideIdentity spareW 0) := by
    rw [e, takeOver, hl]
    simp only [hs]
    exact hv.trans ((runs_installSpare v 0 0 16).trans (runs_setCoreState ..))
  have hc : curEntry (wideIdentity spareW 0) = curEntry spareW := by
    unfold curEntry runPlan
    rw [hr.1, hr.2]
  rw [hc]
  decide +kernel

/-! ### Registers, time and content -/

def servesB (s : State) (who : Who) (off n : Nat) (b : Blk) : Bool :=
  (decide (who ≠ .host) || hostReach s && inService s b.kind) && ctlOk s off n && decide (blkOf off = some b) && writeRight b who && s.boot.pwrgd
theorem servesB_iff (s : State) (who : Who) (off n : Nat) (b : Blk) : servesB s who off n b = true ↔ s.Serves who off n b := by
  simp [servesB, State.Serves, and_assoc, imp_iff_not_or]
def stnW : Blk := ⟨.stn, stnBase, 0, 0⟩

/-- Writes of 8 bytes, of a low half of each width and of a high half with a half held and alone; a locked register; the overflow register
and the log control of a slice; accesses that the host is refused and that another requester makes for nothing; reads of the host; the
doorbells (RegisterWriteRows). -/
theorem wit_registerWrite :
    (let g := stnBase + 0x1000
     runModeW.Serves .host g 8 stnW ∧ runModeW.Serves .host g 4 stnW ∧ g % 8 = 0 ∧ isWide g = true ∧ blkOf g = some stnW ∧
     regLocked runModeW stnW 0x1000 .host = false ∧ hasCeLog stnW.kind = false ∧ regLocked ringW stnW 0x1000 .host = true ∧ ringW.Serves .host g 8 stnW ∧
     runModeW.Serves .host (g + 4) 4 stnW ∧ tget? (runModeW.touched .host stnW g).ctl.whold (latchKey (whoNum .host) stnBase) = none ∧
     (let s := { runModeW with ctl := { runModeW.ctl with whold := [(latchKey (whoNum .host) stnBase, (g, 5))] } }
      s.Serves .host (g + 4) 4 stnW ∧ tget? (s.touched .host stnW g).ctl.whold (latchKey (whoNum .host) stnBase) = some (g, 5))) ∧
    (let b : Blk := ⟨.pip, pipBase, 0, 0⟩
     isWide (pipBase + 0x10) = false ∧ runModeW.Serves .i3c (pipBase + 0x10) 4 b ∧ runModeW.Serves .i3c (pipBase + 0x14) 4 b ∧
     regLocked runModeW b 0x10 .i3c = false ∧ hasCeLog b.kind = false) ∧
    (let b : Blk := ⟨.llc, llcBase 15 271, 15, 271⟩
     runModeW.Serves (.pith 15) (b.base + 0x700) 8 b ∧ runModeW.Serves .host (b.base + 0x480) 4 b ∧ hasCeLog b.kind = true ∧ (b.base + 0x700) % 8 = 0 ∧
     regLocked runModeW b 0x700 .host = false ∧ regLocked runModeW b 0x480 .host = false ∧ (b.base + 0x480) % 8 = 0 ∧ isWide (b.base + 0x480) = false) := by
  simp only [← servesB_iff]
  decide +kernel
theorem wit_registerRefused :
    (hostReach State.reset = false ∧ hostReach runModeW = true ∧ ¬ (3 = 4 ∨ 3 = 8) ∧ ctlOk runModeW (stnBase + 4) 8 = false) ∧
    (Who.pith 4 ≠ .host ∧ (∃ b, blkOf stnBase = some b ∧ writeRight b .i3c = false) ∧ (∃ b, blkOf stnBase = some b ∧ writeRight b (.hart 3) = false)) ∧
    (∀ x ∈ [0, 4, 8, 65532], x < 65536 ∧ x % 4 = 0) := by
  refine ⟨by decide +kernel, ⟨by decide, ⟨stnW, by decide +kernel, by decide +kernel⟩, ⟨stnW, by decide +kernel, by decide +kernel⟩⟩, by decide⟩

/-- The configuration rows: the fabric with and without enable, a window register free and locked, the rings on and off, the bad columns
of an array by its tower's Pith (ConfigurationRows). -/
theorem wit_configuration :
    (let s := { runModeW with run := none }
     let t := { s with ctl := fabW.ctl }
     s.Serves .host (stnBase + 0x2000) 8 stnW ∧ s.run = none ∧ fbit s (stnBase + 0x2000) 63 = false ∧
     s.Serves .stone (stnBase + 0x3000) 4 stnW ∧ t.Serves .stone (stnBase + 0x2000) 8 stnW ∧ t.run = none ∧ fbit t (stnBase + 0x2000) 63 = true) ∧
    (let b : Blk := ⟨.pth, pthBase 15, 15, 0⟩
     runModeW.Serves .host (pthBase 15 + 0x100) 4 b ∧ fbit runModeW (pthBase 15 + 0x100) 31 = false ∧
     (let s := fset runModeW (pthBase 15 + 0x100) 31 31 1
      fbit s (pthBase 15 + 0x100) 31 = true ∧ s.Serves .host (pthBase 15 + 0x100) 4 b) ∧ (8 : W32).toNat % 16 ≤ 8 ∧ 8 < (9 : W32).toNat % 16) ∧
    (let b : Blk := ⟨.pci, pciBase, 0, 0⟩
     runModeW.Serves .host (pciBase + 0x120) 8 b ∧ runModeW.Serves .host (pciBase + 0x100) 8 b) ∧
    (runModeW.Serves .host (stnBase + 0x1008) 4 stnW ∧ runModeW.Serves .host (stnBase + 0x1018) 4 stnW ∧
     ringOn runModeW = false ∧ recOn runModeW = false ∧ ringOn ringW = true ∧ recOn ringW = true) ∧
    (let b : Blk := ⟨.arr, arrBase 15 271 1, 15, 543⟩
     runModeW.Serves (.pith 15) (b.base + 0x10) 8 b ∧
     (let s := runModeW
      let u := regPut (s.unheld (.pith 15) b (b.base + 0x10)) (b.base + 0x10) (regGet s (b.base + 0x10))
      (badColsWritten u (15 * 272 + 271) 1 1).Serves (.pith 15) (b.base + 0x18) 8 b)) := by
  simp only [← servesB_iff]
  decide +kernel

/-- A state with a port that waits for its peer's IDENT and owes a withheld credit, with a correction to slew. -/
def idleW (slew : Int) (slewAt : Nat) : State :=
  { State.reset with fab := { fabW.fab with slew := slew, slewAt := slewAt, ports := [(3, { Port.init with heard := false, identAt := 500, toReturn := [(8, 70)] })] },
                     ctl := fabW.ctl }

/-- An idle state within a millisecond, with no correction, before and at each of its ends; a command that is well formed and fits, one
that is not, and one that does not fit; what a host, a Pith, a hart and the I3C target may not write or read (IdleStep,
EveryCommandAnswers, WriteRights). -/
theorem wit_idle : ∀ p ∈ [((0 : Int), 0), (5, 100), (5, 0), (-5, 100), (-5, 0)], let s := idleW p.1 p.2
    s.pending = [] ∧ s.boot.resets = [] ∧ s.fab.waitReads = [] ∧ s.pci.waiting = [] ∧ s.now = 0 ∧ s.fab.slew = p.1 ∧ s.fab.slewAt = p.2 ∧
    (s.now + 2) / 1000000 = s.now / 1000000 ∧
    (∀ e ∈ s.fab.ports, let q := portAt s e.1
      (portState s e.1 = 3 → q.heard = true ∨ (s.now + 2) % 2 ^ 64 < q.identAt + 1000) ∧ ∀ c ∈ q.toReturn, (s.now + 2) % 2 ^ 64 < c.2) := by
  decide +kernel
theorem wit_whole :
    (wellFormed (.normalRefresh 15 271) = true ∧ State.reset.fits (.normalRefresh 15 271) = true ∧ wellFormed (.normalRefresh 0 272) = false ∧
     wellFormed (.bar2Access false 0 4 [] ⟨[], []⟩) = true ∧ State.reset.fits (.bar2Access false 0x3FFFFFFFFFF 4 [] ⟨[], []⟩) = false) ∧
    ((∀ b, blkOf (thmBase 3) = some b → writeRight b (.pith 4) = false) ∧ (∀ b, blkOf stnBase = some b → writeRight b .i3c = false) ∧
     (∀ b, blkOf stnBase = some b → writeRight b (.hart 3) = false ∧ readRight b (.hart 3) = false) ∧
     ctlOk State.reset 0x7FFFFFF8 8 = false ∧ ctlOk State.reset (stnBase + 4) 8 = false ∧ hostReach State.reset = false) := by
  refine ⟨by decide +kernel, ?_, ?_, ?_, by decide +kernel⟩
  · intro b h; rw [show blkOf (thmBase 3) = some ⟨.thm, thmBase 3, 3, 0⟩ by decide +kernel] at h; cases h; decide +kernel
  · intro b h; rw [show blkOf stnBase = some stnW by decide +kernel] at h; cases h; decide +kernel
  · intro b h; rw [show blkOf stnBase = some stnW by decide +kernel] at h; cases h; decide +kernel

/-- A 64-bit register with a held half and a latch; a counter short of its top, at its top and with its flag set; the queue with room and
full; a fault of the last core (TwoHalves, EventCounters, NoticeQueue, FaultRecord). -/
theorem wit_content :
    (let g := stnBase + 0x1000
     blkOf g = some stnW ∧ g % 8 = 0 ∧ isWide g = true ∧
     (let key := latchKey 0 stnBase
      let s := { State.reset with ctl := { State.reset.ctl with whold := [(key, (stnBase, 5))], rlatch := [(key, (stnBase, 7))] } }
      tget? s.ctl.rlatch key = some (stnBase, 7) ∧ stnBase ≠ g ∧ blkOf (g / 8 * 8) = some stnW ∧ tget? s.ctl.whold key = some (stnBase, 5) ∧
      tget? State.reset.ctl.whold key = none ∧ (stnBase + 0x2000) / 8 * 8 ≠ g ∧ isWide ((stnBase + 0x2000) / 8 * 8) = true ∧ (stnBase + 0x2000) % 8 = 0)) ∧
    (let o := nocBase 0 + 0x200
     fbit State.reset (nocBase 0 + 0x700) 0 = false ∧ fget State.reset o 63 0 + 1 ≤ 2 ^ 64 - 1 ∧ nocBase 0 + 0x700 ≠ o ∧
     (let t := regPut State.reset o (BitVec.allOnes 64)
      2 ^ 64 - 1 < fget t o 63 0 + 1 ∧ fbit (regPut t (nocBase 0 + 0x700) 1) (nocBase 0 + 0x700) 0 = true) ∧
     BK.noc ≠ .stn ∧ 0 < ovfBits .noc 0 0 ∧ 63 < 64) ∧
    (alertBit 0x0502 = none ∧ State.reset.cmd.notices.length < 256 ∧ (alertBit 0x1013).isSome = true ∧
     (let s := { State.reset with cmd := { Cmd.init with notices := List.replicate 256 (noticeW 0) } }
      256 ≤ s.cmd.notices.length ∧ fbit s (stnBase + 0x700) 21 = false ∧ fget s (stnBase + 0x1068) 63 0 < 2 ^ 64 - 1 ∧
      fget s (pipBase + 0x200) 63 0 < 2 ^ 64 - 1)) ∧
    (4095 < 4096 ∧ 3 < 4 ∧ 0x1A < 256 ∧ 0xFFFF < 2 ^ 16) := by
  decide +kernel

/-- The bounds of R306, of the code and of the memory statements are met at their ends (SlowInterleave, SecDedCode, StoresAtRest). -/
theorem wit_storage : 2 ^ 41 - 1 < 2 ^ 41 ∧ (2 ^ 41 - 128) % 128 = 0 ∧ (List.replicate 128 (0 : Byte)).length = 128 ∧ State.reset.mem.wf = true ∧
    (∃ k < 32, (slowPlace (128 * (32 * (2 ^ 29 - 1) + k))).1 = 31) := by
  decide +kernel

/-! ### The spec's worked examples -/

def poolStateW : State := fset State.reset (pthBase 3 + 0x100) 3 0 4

/-- The worked address decode of 01_module_composition.md (R32) and of 07_on_die_memory.md (R203, R204), with pool_units 4 at T3. -/
theorem test_place :
    place poolStateW 0x00629D456780 = .fast 0x00629D456780 ∧
    (keyTower 0x00629D456780 = 3 ∧ keyCol 0x00629D456780 = 37 ∧ keyOff 0x00629D456780 = 0x3456780) ∧
    place poolStateW 0x007800001000 = .fast (placeKey 3 32 0xE000000) ∧ place poolStateW 0x007C00000000 = .unmapped ∧
    place poolStateW 0x007A4D3C5A80 = .fast (placeKey 3 83 0x104D3C00) ∧ llcSet 0x209A78 = 61 ∧
    keyChan poolStateW (placeKey 3 83 0x104D3C00) = 3 * 272 + 88 ∧ llcBase 3 88 = 0x0C73C000 := by
  decide +kernel

/-- The conversions of 06_numerics.md's worked example (R167, R181): each x × 2^e in E4M3. -/
theorem test_convert :
    [e4m3.convert .rne false ⟨12, 10, 0⟩, e4m3.convert .rne true ⟨64, 10, 0⟩, e4m3.convert .rne false ⟨16, 1, 0⟩, e4m3.convert .rne false ⟨296, 1000, 0⟩,
     e4m3.convert .rne false ⟨16, 10, 0⟩, e4m3.convert .rne false ⟨64, 100, 0⟩, e4m3.convert .rne true ⟨352, 1000, 0⟩, e4m3.convert .rne false ⟨96, 10, 0⟩].map (·.1)
      = [0x3A, 0xCD, 0x58, 0x29, 0x3D, 0x32, 0xAB, 0x52] := by
  decide +kernel

/-- Its column sum in LACC-96 (R173, R174), the MST of it under both roundings (R180 to R182), its amax and the update of R188. -/
theorem test_mst :
    ([(0x3A, 0x3D), (0xCD, 0x32), (0x58, 0xAB), (0x29, 0x52)].foldl (fun a p => laccAdd a (laccOf ((elemVal 2 p.1).mul (elemVal 2 p.2)))) 0
      = 0xFFFFFFFFFFFFFFFB48000000) ∧
    (let v := (laccVal 0xFFFFFFFFFFFFFFFB48000000).scale2 (7 - 3 - 5)
     (encodeElem 2 .rne v).1 = 0xC1 ∧ (encodeElem 2 (.sr 0x9B2C41) v).1 = 0xC2 ∧ (encodeElem 2 (.sr 9437184) v).1 = 0xC2 ∧
     (encodeElem 2 (.sr 9437183) v).1 = 0xC1) ∧
    bf16Up ⟨151, 1, -13⟩ = 0x3C97 ∧ (updateMax 2).bind (newExp 0x3C97 0) = some 14 ∧ (updateMax 2).bind (newExp 0x3C97 1) = some 13 := by
  decide +kernel

/-- The byte of 13_integrity_and_failure_hiding.md (R413): its check bits, its repair and an uncorrectable pair. -/
theorem test_secded :
    checkBits 0xA5 = 0b00110 ∧ (flipBit 0xA5 0 5) = (0x85, 0b10110) ∧ decodeByte 0x85 0b10110 = .corrected 0xA5 ∧
    (let f := flipBit 0xA5 0 0
     (flipBit f.1 f.2 1).2 = 0b01100 ∧ decodeByte (flipBit f.1 f.2 1).1 (flipBit f.1 f.2 1).2 = .bad) := by
  decide +kernel

/-- serial_cmp (R55), the counter read in halves (R48), the frame of stage 0x04 (R493) and the window of 16_host_interface_and_pins.md (R481). -/
theorem test_examples :
    serialCmp 0xFFFFFFFE 0x00000003 = -1 ∧
    (let o := nocBase 0 + 0x200
     let s := regPut State.reset o 0x00000001FFFFFFFE
     let r := ctlRead s 0 o false
     r.2 = 0xFFFFFFFE ∧ regGet (count r.1 (nocBase 0) 0 5) o = 0x0000000200000003 ∧ (ctlRead (count r.1 (nocBase 0) 0 5) 0 (o + 4) false).2 = 1) ∧
    frameBits 0x04 = 0b110101010000010011111011 ∧
    (let s := fset State.reset (pciBase + 0x100) 11 0 0x850
     bar2Addr s 0 = 0x101000000000 ∧ bar2Addr s 0xFFFFFFFFF = 0x101FFFFFFFFF) := by
  decide +kernel

/-! ### Single steps, with results worked out by hand from the rules -/

/-- The named register of core 0 after a step that runs one instruction on core 0 with the given s2, s3 and p1. -/
def afterStep (i : Instr) (a b : W64) (read : Core → W64) : Option W64 :=
  let c := { Core.init with st := .run, s := [(1, 0xAAAAAAAA55555555), (2, a), (3, b)] }
  match step { withCore c with pending := [i] } with
  | .next t => some (read (coreL t 0))
  | _ => none
def s1 (c : Core) : W64 := c.sGet 1

/-- ADD wraps; ADDI sign-extends; SHL takes its count modulo 64; SAR keeps the sign; LI sign-extends and LIH keeps the low half (R108). -/
theorem test_scalar :
    afterStep (.add (insW .add false 1 2 3 0 0)) (BitVec.allOnes 64) 2 s1 = some 1 ∧
    afterStep (.addi (insW .addi false 1 2 0 0 0xFFFFFFFF)) 0 0 s1 = some (BitVec.allOnes 64) ∧
    afterStep (.shl (insW .shl false 1 2 3 0 0)) 1 65 s1 = some 2 ∧
    afterStep (.sar (insW .sar false 1 2 3 0 0)) 0x8000000000000000 63 s1 = some (BitVec.allOnes 64) ∧
    afterStep (.li (insW .li false 1 0 0 0 0x80000000)) 0 0 s1 = some 0xFFFFFFFF80000000 ∧
    afterStep (.lih (insW .lih false 1 0 0 0 0x12345678)) 0 0 s1 = some 0x1234567855555555 ∧
    afterStep (.add (insW .add false 0 2 3 0 0)) 5 6 (fun c => c.sGet 0) = some 0 := by
  decide +kernel

/-- A taken BR leaves its target for after the delay bundle, and passes to the delay bundle (R100); a guard that is false has no effect. -/
theorem test_branch :
    afterStep (.br (insW .br false 0 0 0 0 2)) 0 0 (fun c => BitVec.ofNat 64 (c.pc + 16 * ((c.delay.bind id).getD 0))) = some 33 ∧
    afterStep (.add (insW .add true 1 2 3 0 0)) 5 6 s1 = some 0xAAAAAAAA55555555 := by
  decide +kernel

/-- An idle step passes one nanosecond; a command whose operands have a wrong shape is a fault; a host write of a plain register. -/
theorem test_step :
    (match step State.reset with | .next t => decide (t.now = 1) | _ => false) = true ∧
    (match step { State.reset with pending := [.normalRefresh 0 272] } with | .fault f => decide (f = .malformedOperand "NORMAL_REFRESH") | _ => false) = true ∧
    (match step { runModeW with pending := [.registerWrite ⟨.host, [], false, BitVec.ofNat 31 (stnBase + 0x1000), 8, 0x1234567812345678⟩] } with
      | .next t => decide (regGet t (stnBase + 0x1000) = 0x1234567812345640) && decide (t.pending = []) | _ => false) = true := by
  decide +kernel

/-! ### Well-formed commands: an ill-formed term for each check -/

def zerosW (n : Nat) : HostData := ⟨List.replicate n 0, []⟩

theorem test_wellFormed_refuses : ∀ i ∈
   ([.pcieLinkTraining 0 16 true, .pcieLinkTraining 7 16 true, .pcieLinkTraining 6 3 true, .pcieLinkTraining 6 16 false, .bar2Resize 31, .bar2Resize 43,
   .bar2Access false 0 0 [] (zerosW 0), .bar2Access false 0 4097 [] (zerosW 0), .bar2Access true 0 4 [true] (zerosW 4), .bar2Access true 0 1 [true] (zerosW 4),
   .commandEntryRead (zerosW 63) false, .replay 0 (some ⟨7, 0, 0⟩), .stepWideReplay 0 0 0, .stepWideReplay 4 0 0, .stepWideReplay 1 0 272,
   .coreDiagnosis 0 272 true 0 0, .mgang 0 272 true [] (insW .mgang false 0 0 0 0 0), .mgang 0 0 false [] (insW .mswap false 0 0 0 0 0)] : List Instr),
    wellFormed i = false := by
  decide +kernel
theorem test_wellFormed_refuses_units : ∀ i ∈
   ([.rowanAnd 0 272, .rowanOr 0 272, .rowanXor 0 272, .rowanNot 0 272, .rowanMaj 0 272, .rowanClone 0 272, .fill0 0 272, .fill1 0 272,
   .regeneration 0 272 0 0 none, .rowanOrdinaryAccess true 127 (zerosW 2), .lineClone 0 272 0 0 0 1, .lineClone 0 0 147456 147456 0 1, .lineClone 0 0 0 1 0 1,
   .lineClone 0 0 0 16384 0 1, .lineClone 0 0 0 0 0 0, .lineClone 0 0 0 0 15 2, .maintenanceWindow 0 272 false false, .normalRefresh 0 272,
   .columnMigration 0 272, .reduceAdd 0 272, .slowTierAccess false 0 0 (zerosW 0) 0, .slowTierAccess false 127 2 (zerosW 0) 0,
   .slowTierAccess true 0 2 (zerosW 1) 0, .linkFailure 0 0, .linkFailure 0 5, .flit 0 (List.replicate 8 [])] : List Instr),
    wellFormed i = false := by
  decide +kernel
theorem test_wellFormed_refuses_readings : ∀ i ∈
   ([.telemetryTick [] (List.replicate 64 0) (List.replicate 1312 0), .telemetryTick (List.replicate 10 (0, 0)) [] (List.replicate 1312 0),
   .telemetryTick (List.replicate 10 (0, 0)) (List.replicate 64 0) [], .phaseLoss 0 4 0, .phaseLoss 0 1 6, .sensorSample 0 [], .hopRetry 0 272 0 0 0 [],
   .hopRetry 0 0 0 272 0 [], .hopRetry 0 0 0 0 272 [], .hopRetry 0 0 6 0 0 [], .routerDead 0 272 false, .stateProbe ⟨4, 0, 4⟩ ⟨true, 0, 0, 0⟩,
   .stateProbe ⟨7, 0, 0⟩ ⟨true, 0, 0, 0⟩, .cntOvf .host 0 0, .cntOvf .host 0x44000000 0, .ceLogCtl .host 0x480 0, .arrBadCols .host 0 272 0 0] : List Instr),
    wellFormed i = false := by
  decide +kernel
/-- Every KCI row refuses the word 0, and a word of another listed opcode (R104). -/
theorem test_wellFormed_refuses_words : ∀ o : KOp, let i := insW o false 1 2 3 4 1
    spelled o { i with word := 0 } = false ∧
    (∀ o' ∈ allOps, slotOf o' = slotOf o → o' ≠ o → spelled o (insW o' false 1 2 3 4 (if o' = .rowmodeExit then 0 else 1)) = false) := by
  intro o; cases o <;> decide +kernel

theorem test_wellFormed_accepts : ∀ i ∈ ([.pcieLinkTraining 6 16 true, .bar2Resize 32, .replay 0 (some ⟨6, 0, 0⟩), .stepWideReplay 3 15 271,
    .lineClone 15 271 16256 128 15 1, .linkFailure 63 4, .phaseLoss 15 3 5, .stateProbe ⟨3, 15, 543⟩ ⟨true, 0, 0, 0⟩, .nop, .inputGuardStep,
    .add (insW .add false 1 2 3 0 0), .flit 0 (List.replicate 9 [])] : List Instr),
    wellFormed i = true := by decide +kernel

/-- Words written out from the encodings of R103 and the opcodes of the tables spell their rows: ADD s1, s2, s3 under not p1; ADDI s0, s1, -1;
VFMA v31, v30, v29, v28; ROWMODE enter and exit; an opcode in a slot of another class spells none (KciWords). -/
theorem wit_kciWords :
    (let i : Ins := ⟨0, 0, kciWord .add 1 true 1 2 3 0 0, true, 0, 0⟩
     i.op = some .add ∧ i.slot.toNat = slotOf .add ∧ i.pg = 1 ∧ i.gn = true ∧ i.d = 1 ∧ i.a = 2 ∧ i.b = 3 ∧ i.c = 0 ∧ i.imm = 0 ∧
     Ins.op ⟨0, 1, i.word, true, 0, 0⟩ = none) ∧
    (let i : Ins := ⟨0, 3, kciWord .rowmodeEnter 0 false 0 2 0 0 1, true, 0, 0⟩
     i.op = some .rowmodeEnter ∧ Ins.op ⟨0, 3, kciWord .rowmodeExit 0 false 0 2 0 0 0, true, 0, 0⟩ = some .rowmodeExit) ∧
    (let i : Ins := ⟨0, 2, kciWord .vfma 7 false 31 30 29 28 0, true, 0, 0⟩
     i.op = some .vfma ∧ i.d = 31 ∧ i.a = 30 ∧ i.b = 29 ∧ i.c = 28) ∧
    Ins.opcode ⟨0, 0, 0xFFFFFFFFFFFFFF, true, 0, 0⟩ = 0 ∧ Ins.op ⟨0, 0, 0xFFFFFFFFFFFFFF, true, 0, 0⟩ = none ∧
    (kciWord .add 1 true 1 2 3 0 0 = 0x130886000000000 ∧ kciWord .addi 0 false 0 1 0 0 0xFFFFFFFF = 0x2000400ffffffff ∧ kciWord .vfma 7 false 31 30 29 28 0 = 0x83effbbc00000000) := by
  decide +kernel

/-- A register of every access code, with a value that its fields take and one that they do not (RegisterFields); a step that answers a
next state, with the pins in their RUN functions (PinsFollow, StepRunsFront). -/
theorem wit_fields :
    (let b : Blk := ⟨.stn, stnBase, 0, 0⟩
     let w : GWrite := ⟨.host, true, false, 5⟩
     let x := w.over (regGet State.reset (stnBase + 0x1008)).toNat
     (⟨4, 0, .rw, 6⟩ : Fld) ∈ flds b.kind b.idx 0x1008 ∧ w.reaches ⟨4, 0, .rw, 6⟩ = true ∧ fieldTakes State.reset b 0x1008 x ⟨4, 0, .rw, 6⟩ 5 = false ∧
     fieldTakes State.reset b 0x1008 x ⟨4, 0, .rw, 6⟩ 16 = true ∧ (∀ f ∈ flds b.kind b.idx 0x1008, 20 < f.lo ∨ f.hi < 10)) ∧
    (let s := { runModeW with boot := { runModeW.boot with pinsRun := true } }
     (match step s with | .next t => t.boot.pinsRun | _ => false) = true) := by
  decide +kernel

/-- The table gives no row any bits, so no word spells a command, and placing one changes nothing. -/
theorem test_no_words : decodeTableWord 32 5 = none ∧ decodeTableWord 0 0 = none ∧ (State.reset.withFetchWord 32 5).pending = [] := by decide +kernel

end Sys2Proof.Tests
end

/-! ## The fields of a register after a write (R7 to R9, R504) -/

section

namespace Sys2Proof.Machine

/-- The value that a write gives a field; none when the field keeps its own. -/
def fieldWrite (s : State) (b : Blk) (r old : Nat) (w : GWrite) (f : Fld) : Option Nat :=
  let x := bits (w.over old) f.hi f.lo
  match f.acc with
  | .rw => if w.reaches f && fieldTakes s b r (w.over old) f x then some x else none
  | .w1c => some (bits old f.hi f.lo &&& (2 ^ (f.hi + 1 - f.lo) - 1 - bits w.ones f.hi f.lo))
  | _ => none

/-- An RW field in a half that is written takes the bits written, where it takes that value. -/
theorem fieldWrite_rw {s : State} {b : Blk} {r old : Nat} {w : GWrite} {f : Fld} (hf : f.acc = .rw) :
    fieldWrite s b r old w f =
      if w.reaches f = true ∧ fieldTakes s b r (w.over old) f (bits (w.over old) f.hi f.lo) = true
      then some (bits (w.over old) f.hi f.lo) else none := by
  simp only [fieldWrite, hf, Bool.and_eq_true]

/-- A W1C field loses the bits written as 1. -/
theorem fieldWrite_w1c {s : State} {b : Blk} {r old : Nat} {w : GWrite} {f : Fld} (hf : f.acc = .w1c) :
    fieldWrite s b r old w f = some (bits old f.hi f.lo &&& (2 ^ (f.hi + 1 - f.lo) - 1 - bits w.ones f.hi f.lo)) := by
  simp only [fieldWrite, hf]

/-- A field of another access code takes nothing. -/
theorem fieldWrite_other {s : State} {b : Blk} {r old : Nat} {w : GWrite} {f : Fld} (hf : f.acc = .ro ∨ f.acc = .wo) :
    fieldWrite s b r old w f = none := by
  rcases hf with hf | hf <;> simp only [fieldWrite, hf]

/-- A write updates the fields of its granule one after another, each with the value that `fieldWrite` gives it. -/
theorem storeValue_eq_putFields (s : State) (b : Blk) (r old : Nat) (w : GWrite) :
    storeValue s b r old w = putFields (fieldWrite s b r old w) (flds b.kind b.idx r) old := by
  unfold storeValue putFields
  congr 1
  funext acc f
  unfold putOne fieldWrite
  cases f.acc with
  | rw => dsimp only; split_ifs <;> rfl
  | w1c => rfl
  | ro => rfl
  | wo => rfl

/-- Each field of the granule holds what the write gives it, or keeps its value: the fields lie apart, inside 64 bits. -/
theorem bits_storeValue (s : State) (b : Blk) (r old : Nat) (w : GWrite) {f : Fld} (hf : f ∈ flds b.kind b.idx r) :
    bits (storeValue s b r old w) f.hi f.lo =
      (fieldWrite s b r old w f).elim (bits old f.hi f.lo) (· % 2 ^ (f.hi + 1 - f.lo)) := by
  rw [storeValue_eq_putFields]
  refine (bits_putFields (flds_ok b.kind b.idx r) hf old).trans ?_
  cases fieldWrite s b r old w f <;> rfl

/-- Bits outside every field keep their value. -/
theorem bits_storeValue_outside (s : State) (b : Blk) (r old : Nat) (w : GWrite) {hi lo : Nat}
    (h : ∀ f ∈ flds b.kind b.idx r, hi < f.lo ∨ f.hi < lo) : bits (storeValue s b r old w) hi lo = bits old hi lo := by
  rw [storeValue_eq_putFields]
  exact bits_putFields_ne (fun f hf => ((flds_ok b.kind b.idx r).2 f hf).1) h old

/-- A field of a number fits its width. -/
theorem bits_mod_width (n hi lo : Nat) : bits n hi lo % 2 ^ (hi + 1 - lo) = bits n hi lo := Nat.mod_eq_of_lt (bits_lt n hi lo)

/-- So does a field of which some bits are cleared. -/
theorem bits_and_mod_width (n hi lo m : Nat) : (bits n hi lo &&& m) % 2 ^ (hi + 1 - lo) = bits n hi lo &&& m :=
  Nat.mod_eq_of_lt (lt_of_le_of_lt Nat.and_le_left (bits_lt n hi lo))

end Sys2Proof.Machine

open Sys2Proof Sys2Proof.Machine

/-- Settles O46: the fields of a granule lie apart, so each holds what the write gives it, by its access code. -/
theorem registerFields : Obligations.RegisterFields := by
  unfold Obligations.RegisterFields
  intro s b r old w
  refine ⟨fun f hf => ?_, fun hi lo h => bits_storeValue_outside s b r old.toNat w h⟩
  have hv := bits_storeValue s b r old.toNat w hf
  cases hacc : f.acc with
  | rw =>
    rw [fieldWrite_rw hacc] at hv
    by_cases h : w.reaches f = true ∧ fieldTakes s b r (w.over old.toNat) f (bits (w.over old.toNat) f.hi f.lo) = true
    · rw [if_pos h, Option.elim_some, bits_mod_width] at hv
      exact hv.trans (if_pos h).symm
    · rw [if_neg h, Option.elim_none] at hv
      exact hv.trans (if_neg h).symm
  | w1c => rwa [fieldWrite_w1c hacc, Option.elim_some, bits_and_mod_width] at hv
  | ro => rwa [fieldWrite_other (.inl hacc)] at hv
  | wo => rwa [fieldWrite_other (.inr hacc)] at hv

end

/-! ## The block before the first rise of PWRGD (R454, R477, R478) -/

section

namespace Sys2Proof.Machine

/-- No granule is listed at reset, so every one reads its reset value. -/
theorem regGet_reset (o : Nat) : regGet State.reset o = regReset o := rfl

/-- Before the first rise of PWRGD the pins are not in their RUN functions. -/
theorem pinsInv_reset : State.reset.PinsInv := fun h => absurd h (by decide)

/-- The two words of the device serial number spell it. -/
theorem cfgRead_serial (s : State) : cfgRead s 0x144 + cfgRead s 0x148 * 2 ^ 32 = Config.serial.toNat :=
  Nat.mod_add_div' Config.serial.toNat (2 ^ 32)

end Sys2Proof.Machine

open Sys2Proof Sys2Proof.Machine

/-- Settles O53: nothing is listed at reset, so each register and each word of configuration space is the table's. -/
theorem resetState : Obligations.ResetState := by
  unfold Obligations.ResetState
  refine ⟨regGet_reset, ?_, ?_, ?_, ?_, ?_, ?_, reset_mem_wf, rfl, rfl, rfl, rfl, rfl, rfl, rfl, pinsInv_reset,
    ?_, ?_, ?_, ?_, ?_, ?_, ?_, ?_, ?_, ?_, ?_, ?_, ?_, cfgRead_serial State.reset, ?_⟩
  -- The named fields and words: one entry of a table each.
  all_goals decide +kernel

end

/-! ## Accesses to control space (R31, R43 to R48, R458) -/

section

namespace Sys2Proof.Machine

/-! ### The rows, and accesses that are served -/

/-- REGISTER_WRITE of n bytes, without reads before it. -/
theorem exec_registerWrite_write (who : Who) (off : BitVec 31) (n : Nat) (data : W64) (s : State) :
    exec (.registerWrite ⟨who, [], false, off, n, data⟩) s = .next (settle (ctlWriteN s who off.toNat n data.toNat)) := rfl

/-- A host read of n bytes, without a write after it. -/
theorem exec_registerWrite_read (off : BitVec 31) (n : Nat) (data : W64) (s : State) :
    exec (.registerWrite ⟨.host, [⟨false, off, n⟩], false, 0, 0, data⟩) s = .next (settle (ctlReads s .host off.toNat n)) := rfl

/-- CNT_OVF at an overflow register is an 8-byte write (R52). -/
theorem exec_cntOvf {who : Who} {off : BitVec 31} {data : W64} {s : State} {b : Blk} (hblk : blkOf off.toNat = some b)
    (ho : 0x700 ≤ off.toNat - b.base ∧ off.toNat - b.base < 0x780) (ha : off.toNat % 8 = 0) :
    exec (.cntOvf who off data) s = .next (settle (ctlWriteN s who off.toNat 8 data.toNat)) := by
  simp [exec, execCntOvf, hblk, shaped, ho, ha, finish, ctlWriteN]

/-- CE_LOG_CTL at a log control register is a 4-byte write (R424). -/
theorem exec_ceLogCtl {who : Who} {off : BitVec 31} {data : W32} {s : State} {b : Blk} (hblk : blkOf off.toNat = some b)
    (hb : hasCeLog b.kind = true) (hoff : off.toNat = b.base + 0x480) :
    exec (.ceLogCtl who off data) s = .next (settle (ctlWriteN s who off.toNat 4 data.toNat)) := by
  rw [hoff] at hblk
  simp [exec, execCeLogCtl, hoff, hblk, shaped, hb, finish, ctlWriteN]

/-- An access that answers is aligned. -/
theorem mod_eq_zero_of_ctlOk {s : State} {off n : Nat} (h : ctlOk s off n = true) : off % n = 0 := by
  simp only [ctlOk, aligned, Bool.and_eq_true, beq_iff_eq] at h
  exact h.1

/-- What a block serves is aligned. -/
theorem State.Serves.mod_eq_zero {s : State} {who : Who} {off n : Nat} {b : Blk} (h : s.Serves who off n b) : off % n = 0 := by
  obtain ⟨-, hok, -⟩ := h
  exact mod_eq_zero_of_ctlOk hok

/-- What serves an offset is the block of that offset. -/
theorem State.Serves.blkOf_eq {s : State} {who : Who} {off n : Nat} {b : Blk} (h : s.Serves who off n b) : blkOf off = some b := by
  obtain ⟨-, -, hblk, -⟩ := h
  exact hblk

/-- The granule of an aligned offset. -/
theorem granule_low {off : Nat} (h : off % 8 = 0) : off / 8 * 8 = off := by omega
theorem granule_high {off : Nat} (h : off % 8 = 4) : off / 8 * 8 = off - 4 := by omega

/-- A write that a block serves goes to that block. -/
theorem ctlWrite_served {s : State} {who : Who} {off : Nat} {wide : Bool} {b : Blk} (data : Nat)
    (h : s.Serves who off (if wide then 8 else 4) b) : ctlWrite s who off wide data = heldWrite s b who off wide data := by
  obtain ⟨hhost, hok, hblk, hright, hpwr⟩ := h
  unfold ctlWrite
  by_cases hw : who = .host
  · obtain ⟨hreach, hserv⟩ := hhost hw
    simp [hw ▸ hright, hw, hreach, hok, hblk, hpwr, hserv]
  · simp [hw, hok, hblk, hright, hpwr]

theorem ctlWriteN_eight {s : State} {who : Who} {off : Nat} {b : Blk} (data : Nat) (h : s.Serves who off 8 b) :
    ctlWriteN s who off 8 data = heldWrite s b who off true data := ctlWrite_served data h

theorem ctlWriteN_four {s : State} {who : Who} {off : Nat} {b : Blk} (data : Nat) (h : s.Serves who off 4 b) :
    ctlWriteN s who off 4 data = heldWrite s b who off false data := ctlWrite_served (wide := false) data h

/-! ### Halves of a register (R44, R48) -/

/-- A write of 8 bytes discards what is held and reaches the granule with both halves. -/
theorem heldWrite_whole {s : State} {who : Who} {off : Nat} {b : Blk} (data : W64) (h : off % 8 = 0) :
    heldWrite s b who off true data.toNat = granuleWrite (s.unheld who b off) b off ⟨who, true, true, data.toNat⟩ := by
  simp only [heldWrite, granule_low h, if_true, Nat.mod_eq_of_lt data.isLt]
  rfl

/-- The low half of a 64-bit register is held. -/
theorem heldWrite_low_wide {s : State} {who : Who} {off : Nat} {b : Blk} (data : W64) (h : off % 8 = 0) (hw : isWide off = true) :
    heldWrite s b who off false data.toNat =
      let u := s.touched who b off
      { u with ctl := { u.ctl with whold := tput u.ctl.whold (latchKey (whoNum who) b.base) (off, data.setWidth 32) } } := by
  simp only [heldWrite, granule_low h, h, hw, if_true, Bool.false_eq_true, if_false, BitVec.ofNat_toNat]
  rfl

/-- The low half of a granule of two 32-bit registers reaches it alone. -/
theorem heldWrite_low_narrow {s : State} {who : Who} {off : Nat} {b : Blk} (data : Nat) (h : off % 8 = 0) (hw : isWide off = false) :
    heldWrite s b who off false data = granuleWrite (s.touched who b off) b off ⟨who, true, false, data % 2 ^ 32⟩ := by
  simp only [heldWrite, granule_low h, h, hw, if_true, Bool.false_eq_true, if_false]
  rfl

/-- A high half commits with the half that is held for its register. -/
theorem heldWrite_high_held {s : State} {who : Who} {off : Nat} {b : Blk} (data : Nat) {x : Nat × W32} (h : off % 8 = 4)
    (hw : isWide (off - 4) = true) (hx : tget? (s.touched who b (off - 4)).ctl.whold (latchKey (whoNum who) b.base) = some x) :
    heldWrite s b who off false data =
      granuleWrite (s.unheld who b (off - 4)) b (off - 4) ⟨who, true, true, x.2.toNat + data % 2 ^ 32 * 2 ^ 32⟩ := by
  unfold State.touched at hx
  simp only [heldWrite, granule_high h, h, hx, hw, Option.filter_some, if_true, Bool.false_eq_true, if_false,
    show ¬ (4 = 0) by decide]
  rfl

/-- A high half without a held one reaches the granule alone. -/
theorem heldWrite_high_alone {s : State} {who : Who} {off : Nat} {b : Blk} (data : Nat) (h : off % 8 = 4)
    (hw : isWide (off - 4) = false ∨ tget? (s.touched who b (off - 4)).ctl.whold (latchKey (whoNum who) b.base) = none) :
    heldWrite s b who off false data =
      granuleWrite (s.touched who b (off - 4)) b (off - 4) ⟨who, false, true, data % 2 ^ 32 * 2 ^ 32⟩ := by
  have hnone : ((tget? (s.touched who b (off - 4)).ctl.whold (latchKey (whoNum who) b.base)).filter fun _ => isWide (off - 4)) = none := by
    rcases hw with hw | hw
    · simp [hw]
    · rw [hw]; rfl
  unfold State.touched at hnone
  simp only [heldWrite, granule_high h, h, hnone, Bool.false_eq_true, if_false, show ¬ (4 = 0) by decide]
  rfl

/-! ### What reaches a granule -/

/-- A plain register stores the fields that take the write and starts what it starts. -/
theorem granuleWrite_plain {s : State} {b : Blk} {g : Nat} {w : GWrite} (h : s.plain b (g - b.base) w.who) :
    granuleWrite s b g w = writeStarts (s.stored b g w) b (g - b.base) (regGet s g).toNat w := by
  obtain ⟨hfree, hovf, hlog⟩ := h
  simp only [granuleWrite, hfree, Bool.and_eq_true, decide_eq_true_eq, if_neg hovf, if_neg hlog, Bool.false_eq_true, if_false]
  rfl

/-- A locked register does not change. -/
theorem granuleWrite_locked {s : State} {b : Blk} {g : Nat} {w : GWrite} (h : regLocked s b (g - b.base) w.who = true) :
    granuleWrite s b g w = s := by
  simp only [granuleWrite, h, if_true]

/-- A counter overflow register clears the flags and counters of the bits written as 1 (R52). -/
theorem granuleWrite_overflow {s : State} {b : Blk} {g : Nat} {w : GWrite} (h : regLocked s b (g - b.base) w.who = false)
    (ho : 0x700 ≤ g - b.base ∧ g - b.base < 0x780) :
    granuleWrite s b g w = clearOvf s b ((g - b.base - 0x700) / 8) (BitVec.ofNat 64 w.ones) := by
  simp only [granuleWrite, h, Bool.and_eq_true, decide_eq_true_eq, if_pos ho, Bool.false_eq_true, if_false]

/-- A log control register empties its log when bit 8 is written as 1 (R424). -/
theorem granuleWrite_logControl {s : State} {b : Blk} {g : Nat} {w : GWrite} (hb : hasCeLog b.kind = true) (hg : g = b.base + 0x480)
    (h : regLocked s b 0x480 w.who = false) :
    granuleWrite s b g w = if w.ones.testBit 8 then clearLog s b else s := by
  have hr : g - b.base = 0x480 := by omega
  simp [granuleWrite, hr, h, hb]

/-- A write of both halves writes its own bits. -/
theorem ones_whole (who : Who) (data : W64) : GWrite.ones ⟨who, true, true, data.toNat⟩ = data.toNat := by
  have := data.isLt
  simp only [GWrite.ones, if_true]
  omega

/-- A write of the low half writes the bits of the low half. -/
theorem ones_low (who : Who) (data : W32) : GWrite.ones ⟨who, true, false, data.toNat % 2 ^ 32⟩ = data.toNat := by
  have := data.isLt
  simp only [GWrite.ones, if_true, Bool.false_eq_true, if_false]
  omega

/-! ### Accesses that are not served -/

/-- A host write that its reach, its size, its alignment or its address rules out is an Unsupported Request. -/
theorem ctlWriteN_host_unserved {s : State} {off n : Nat} (data : Nat) (hn : n ≠ 0)
    (h : hostReach s = false ∨ ¬ (n = 4 ∨ n = 8) ∨ ctlOk s off n = false) : ctlWriteN s .host off n data = unsupported s false := by
  have hok (wide : Bool) (h : hostReach s = false ∨ ctlOk s off (if wide then 8 else 4) = false) :
      ctlWrite s .host off wide data = unsupported s false := by
    unfold ctlWrite
    cases hr : hostReach s with
    | false => simp
    | true => simp [h.resolve_left (by simp [hr])]
  by_cases h8 : n = 8
  · subst h8; exact hok true (by simpa using h)
  · by_cases h4 : n = 4
    · subst h4; exact hok false (by simpa using h)
    · simp [ctlWriteN, h8, h4, hn]

/-- The same of a host read. -/
theorem ctlReads_host_unserved {s : State} {off n : Nat} (h : hostReach s = false ∨ ¬ (n = 4 ∨ n = 8) ∨ ctlOk s off n = false) :
    ctlReads s .host off n = unsupported s true := by
  unfold ctlReads
  cases hr : hostReach s with
  | false => simp
  | true =>
    have hbad : ((n = 4 || n = 8) && ctlOk s off n) = false := by
      rcases h.resolve_left (by simp [hr]) with hn | hok
      · simp [not_or.1 hn]
      · simp [hok]
    simp [hbad]

/-- Another requester's write outside its rights, or that no block answers, changes nothing. -/
theorem ctlWriteN_other_unserved {s : State} {who : Who} {off n : Nat} (data : Nat) (hw : who ≠ .host)
    (h : ¬ (n = 4 ∨ n = 8) ∨ ctlOk s off n = false ∨ ∃ b, blkOf off = some b ∧ writeRight b who = false) :
    ctlWriteN s who off n data = s := by
  have hsame (wide : Bool) (h : ctlOk s off (if wide then 8 else 4) = false ∨ ∃ b, blkOf off = some b ∧ writeRight b who = false) :
      ctlWrite s who off wide data = s := by
    unfold ctlWrite
    rcases h with hok | ⟨b, hblk, hright⟩
    · simp [hw, hok]
    · simp [hw, hblk, hright]
  by_cases h8 : n = 8
  · subst h8; exact hsame true (by simpa using h)
  · by_cases h4 : n = 4
    · subst h4; exact hsame false (by simpa using h)
    · simp [ctlWriteN, h8, h4, hw]

/-! ### Reads of the host -/

/-- A host read that a block serves answers in a Completion. -/
theorem ctlReads_served {s : State} {off n : Nat} {b : Blk} (h : s.Serves .host off n b) (hn : n = 4 ∨ n = 8) :
    ctlReads s .host off n =
      emit (ctlRead s 0 off (n = 8)).1 (.completion 0 (leBytes n (ctlRead s 0 off (n = 8)).2) false) := by
  obtain ⟨hhost, hok, hblk, -, hpwr⟩ := h
  obtain ⟨hreach, hserv⟩ := hhost rfl
  have hsize : (n = 4 || n = 8 : Bool) = true := by simpa using hn
  simp [ctlReads, hreach, hsize, hok, hblk, hserv, hpwr, readRight, whoNum]

theorem ctlRead_whole {s : State} {who off : Nat} {b : Blk} (hblk : blkOf off = some b) (h : off % 8 = 0) :
    ctlRead s who off true = (dropHold s (latchKey who b.base) off, regShown (dropHold s (latchKey who b.base) off) off) := by
  simp only [ctlRead, granule_low h, hblk, if_true]

/-- Reading the low half of a 64-bit register latches the high one. -/
theorem ctlRead_low {s : State} {who off : Nat} {b : Blk} (hblk : blkOf off = some b) (h : off % 8 = 0) (hw : isWide off = true) :
    ctlRead s who off false =
      let u := dropHold s (latchKey who b.base) off
      ({ u with ctl := { u.ctl with rlatch := tput u.ctl.rlatch (latchKey who b.base) (off, BitVec.ofNat 32 (regShown u off / 2 ^ 32)) } },
        regShown u off % 2 ^ 32) := by
  simp only [ctlRead, granule_low h, hblk, h, hw, if_true, Bool.false_eq_true, if_false]

/-- The high half that a read of a 64-bit register returns: the latch of that register, or else what the register shows. -/
def highShown (u : State) (key g : Nat) : Nat :=
  match tget? u.ctl.rlatch key with
  | some (h, l) => if h = g then l.toNat else regShown u g / 2 ^ 32
  | none => regShown u g / 2 ^ 32

theorem ctlRead_high {s : State} {who off : Nat} {b : Blk} (hblk : blkOf (off - 4) = some b) (h : off % 8 = 4)
    (hw : isWide (off - 4) = true) :
    ctlRead s who off false =
      let u := dropHold s (latchKey who b.base) (off - 4)
      (u, highShown u (latchKey who b.base) (off - 4)) := by
  simp only [ctlRead, granule_high h, hblk, h, hw, true_and, Bool.false_eq_true, if_false, show ¬ (4 = 0) by decide]
  unfold highShown
  cases tget? (dropHold s (latchKey who b.base) (off - 4)).ctl.rlatch (latchKey who b.base) with
  | none => rfl
  | some x => dsimp only; split_ifs <;> rfl

/-! ### The doorbells (R87) -/

/-- The doorbells take a write of 4 bytes; the rest of BAR4 ignores it. -/
theorem bar4Write_four {s : State} {off : Nat} (v : Nat) (hr : hostReach s = true) (hoff : off < 65536) (ha : off % 4 = 0) :
    bar4Write s off 4 v = if off = 0 then doorbell s 0 v else if off = 4 then doorbell s 1 v else s := by
  simp [bar4Write, aligned, hr, ha, Nat.not_le.2 hoff]

/-- The doorbells read back their last value; the rest of BAR4 reads 0. -/
theorem bar4Read_four {s : State} {off : Nat} (hr : hostReach s = true) (hoff : off < 65536) (ha : off % 4 = 0) :
    bar4Read s off 4 = emit s (.completion 0 (leBytes 4 (
      if off = 0 then doorbellValue s 0 else if off = 4 then doorbellValue s 1 else 0)) false) := by
  simp [bar4Read, aligned, hr, ha, Nat.not_le.2 hoff]

end Sys2Proof.Machine

open Sys2Proof Sys2Proof.Machine

/-- Settles O41: an access that is served reaches its granule with the halves it writes, and the granule is plain, locked, an
overflow register or a log control; an access that is not served is an Unsupported Request of the host and else nothing. -/
theorem registerWriteRows : Obligations.RegisterWriteRows := by
  unfold Obligations.RegisterWriteRows
  refine ⟨?whole, ?low, ?highHeld, ?highAlone, ?overflow, ?logControl, ?hostUnserved, ?otherUnserved, ?readWhole, ?readLow, ?readHigh,
    fun _ _ _ _ _ _ _ _ => rfl, ?doorbells⟩
  case whole =>
    intro who off data b s g r w u h
    rw [exec_registerWrite_write, ctlWriteN_eight _ h, heldWrite_whole data h.mod_eq_zero]
    exact ⟨fun hp => by rw [granuleWrite_plain hp], fun hl => by rw [granuleWrite_locked hl]⟩
  case low =>
    intro who off data b s g r w u h hg
    rw [exec_registerWrite_write, ctlWriteN_four _ h]
    exact ⟨fun hw => by rw [heldWrite_low_wide data hg hw],
      fun hw hp => by rw [heldWrite_low_narrow _ hg hw, granuleWrite_plain hp]⟩
  case highHeld =>
    intro who off data b x s g r w u h hg hw hx hp
    rw [exec_registerWrite_write, ctlWriteN_four _ h, heldWrite_high_held _ hg hw hx, granuleWrite_plain hp]
  case highAlone =>
    intro who off data b s g r w u h hg hw hp
    rw [exec_registerWrite_write, ctlWriteN_four _ h, heldWrite_high_alone _ hg hw, granuleWrite_plain hp]
  case overflow =>
    intro who off data b s g u h ho hg hl
    rw [exec_cntOvf h.blkOf_eq ho hg, ctlWriteN_eight _ h, heldWrite_whole data hg, granuleWrite_overflow hl ho,
      ones_whole, BitVec.ofNat_toNat, BitVec.setWidth_eq]
  case logControl =>
    intro who off data b s g u h hb hgb hl hg hw
    rw [exec_ceLogCtl h.blkOf_eq hb hgb, ctlWriteN_four _ h, heldWrite_low_narrow _ hg hw, granuleWrite_logControl hb hgb hl, ones_low]
  case hostUnserved =>
    intro off size data s hn h
    rw [exec_registerWrite_write, exec_registerWrite_read, ctlWriteN_host_unserved _ hn h, ctlReads_host_unserved h]
    exact ⟨rfl, rfl⟩
  case otherUnserved =>
    intro who off size data s hw h
    rw [exec_registerWrite_write, ctlWriteN_other_unserved _ hw h]
  case readWhole =>
    intro off data b s g u h
    rw [exec_registerWrite_read, ctlReads_served h (.inr rfl), decide_eq_true rfl, ctlRead_whole h.blkOf_eq h.mod_eq_zero]
    rfl
  case readLow =>
    intro off data b s g u h hg hw
    rw [exec_registerWrite_read, ctlReads_served h (.inl rfl), decide_eq_false (by decide), ctlRead_low h.blkOf_eq hg hw]
    rfl
  case readHigh =>
    intro off data b s g u h hblk hg hw
    rw [exec_registerWrite_read, ctlReads_served h (.inl rfl), decide_eq_false (by decide), ctlRead_high hblk hg hw]
    rfl
  case doorbells =>
    intro off data s hr hoff ha v
    refine ⟨?_, ?_⟩
    · rw [← bar4Write_four v hr hoff ha]; rfl
    · rw [← bar4Read_four hr hoff ha]; rfl

end

/-! ## What comes back to a core (R97, R102, R206, R207, R219) -/

section

namespace Sys2Proof.Machine

/-! ### The rows as events of a core -/

theorem exec_loadReturn {core : BitVec 12} (host : HostData) {s : State} (h : Live s core.toNat) :
    exec (.loadReturn core host) s =
      (returnLoad s (physCore s core.toNat) core.toNat host).resumed core.toNat := coreEvent_live h

theorem exec_storePerformed {core : BitVec 12} {s : State} (h : Live s core.toNat) :
    exec (.storePerformed core) s = (performOldest s (physCore s core.toNat)).resumed core.toNat := coreEvent_live h

theorem exec_ownershipGrant {core : BitVec 12} {s : State} (h : Live s core.toNat) :
    exec (.ownershipGrant core) s = (ownOldest s (physCore s core.toNat)).resumed core.toNat := coreEvent_live h

/-- The line of a miss entry that nothing withholds is fetched into the L1 (R206). -/
theorem exec_l1Miss {core : BitVec 12} {addr : BitVec 48} {s : State} {lk : Nat} (h : Live s core.toNat)
    (hline : ownLine s (physCore s core.toNat) addr.toNat = some lk) (hmiss : lk ∈ missLines s (physCore s core.toNat))
    (hw : withheldFrom s core.toNat (addr.toNat / 128 * 128) 128 = false) :
    exec (.l1Miss core addr) s = (l1Fill s (physCore s core.toNat) lk).resumed core.toNat := by
  refine (coreEvent_live h).trans ?_
  simp only [hline, hmiss, hw, List.contains_iff_mem, Bool.not_false, Bool.and_true, if_true]

/-! ### The oldest load -/

/-- A load of the host brings what the host answered, under the core's own older stores (R102). -/
theorem loadBytes_bus (s : State) (pk lc : Nat) {e : LoadEnt} (host : HostData) {bus : Nat} (hb : e.bus = some bus) :
    loadBytes s pk lc e host =
      (s, (indexed ((List.range e.size).map fun j => (hostBytes host).getD j (0, false))).map fun x =>
        (wbByte (coreOf s pk) e.id (e.addr + x.1)).getD (if x.2.2 then (0, true) else x.2)) := by
  simp only [loadBytes, hb]

/-- The oldest load of the host sends its read, writes its register and ends (R97, R484). -/
theorem returnLoad_bus {s : State} {pk lc : Nat} {host : HostData} {e : LoadEnt} {rest : List LoadEnt} {bus : Nat}
    (hl : (coreOf s pk).loads = e :: rest) (hw : withheldFrom s lc (fetchRange s pk e).1 (fetchRange s pk e).2 = false)
    (hb : e.bus = some bus) (hm : busMaster s = true) :
    returnLoad s pk lc host =
      let r := loadBytes (emit s (.hostRead bus e.size)) pk lc e host
      modCore r.1 pk fun c => { c with loads := rest }.land (loadWrite e.vec e.d e.addr r.2) := by
  simp only [returnLoad, hl, hw, hb, hm, Bool.false_eq_true, if_false, if_true]

/-- The oldest load of the module's memory writes its register and ends (R97, R206). -/
theorem returnLoad_memory {s : State} {pk lc : Nat} {host : HostData} {e : LoadEnt} {rest : List LoadEnt}
    (hl : (coreOf s pk).loads = e :: rest) (hw : withheldFrom s lc (fetchRange s pk e).1 (fetchRange s pk e).2 = false)
    (hb : e.bus = none) :
    returnLoad s pk lc host =
      let r := loadBytes s pk lc e host
      modCore r.1 pk fun c => { c with loads := rest }.land (loadWrite e.vec e.d e.addr r.2) := by
  simp only [returnLoad, hl, hw, hb, Bool.false_eq_true, if_false]

/-! ### The oldest buffered store -/

/-- A store to the host that waits for no ownership is sent and leaves the buffer (R207, R484). -/
theorem performOldest_bus {s : State} {pk : Nat} {e : StoreEnt} {rest : List StoreEnt} {bus : Nat} (hl : (coreOf s pk).wb = e :: rest)
    (ho : loadOver (coreOf s pk) e.id e.addr e.bytes.length = false) (hw : wantsOwnership s pk e = none) (hb : e.bus = some bus) :
    performOldest s pk =
      modCore (toHost s (.hostWrite bus e.bytes (e.poison.any id))) pk fun c => { c with wb := rest } := by
  simp only [performOldest, hl, ho, hw, hb, Bool.false_eq_true, if_false]

/-- A store to the module's memory that waits for no ownership is written there and leaves the buffer (R207). -/
theorem performOldest_memory {s : State} {pk : Nat} {e : StoreEnt} {rest : List StoreEnt} (hl : (coreOf s pk).wb = e :: rest)
    (ho : loadOver (coreOf s pk) e.id e.addr e.bytes.length = false) (hw : wantsOwnership s pk e = none) (hb : e.bus = none) :
    performOldest s pk = modCore (memWrite s e.addr (List.zip e.bytes e.poison)) pk fun c => { c with wb := rest } := by
  simp only [performOldest, hl, ho, hw, hb, Bool.false_eq_true, if_false]

/-- A store whose lines the directory grants enters the L1 and leaves the buffer (R207, R219). -/
theorem ownOldest_granted {s : State} {pk : Nat} {e : StoreEnt} {rest : List StoreEnt} {ps : List (Nat × Nat × Nat)}
    (hl : (coreOf s pk).wb = e :: rest) (ho : loadOver (coreOf s pk) e.id e.addr e.bytes.length = false)
    (hw : wantsOwnership s pk e = some ps) :
    ownOldest s pk =
      let u := ps.foldl (fun s p => if (tget L1Line.init (coreOf s pk).l1 p.1).own then s else grantOwn s pk p.1) s
      modCore (l1Stores u pk ps (clean e.bytes)) pk fun c => { c with wb := rest } := by
  simp only [ownOldest, hl, ho, hw, Bool.false_eq_true, if_false]

end Sys2Proof.Machine

open Sys2Proof Sys2Proof.Machine

/-- Settles O14: at a core that runs, each event is what the oldest load, the oldest buffered store or the miss entry does, and the
core goes on from there. -/
theorem coreEvents : Obligations.CoreEvents := by
  unfold Obligations.CoreEvents
  refine ⟨?hostLoad, ?memoryLoad, ?hostStore, ?memoryStore, ?granted, ?miss⟩
  case hostLoad =>
    intro core host s e rest bus pk hlive hl hb hm hw
    rw [exec_loadReturn host hlive, returnLoad_bus hl hw hb hm, loadBytes_bus _ _ _ _ hb]
    rfl
  case memoryLoad =>
    intro core host s e rest pk hlive hl hb hw
    rw [exec_loadReturn host hlive, returnLoad_memory hl hw hb]
  case hostStore =>
    intro core s e rest bus pk hlive hl ho hw hb
    rw [exec_storePerformed hlive, performOldest_bus hl ho hw hb]
  case memoryStore =>
    intro core s e rest pk hlive hl ho hw hb
    rw [exec_storePerformed hlive, performOldest_memory hl ho hw hb]
  case granted =>
    intro core s e rest ps pk hlive hl ho hw
    rw [exec_ownershipGrant hlive, ownOldest_granted hl ho hw]
  case miss =>
    intro core addr s lk pk hlive hline hmiss hw
    exact exec_l1Miss hlive hline hmiss hw

end

/-! ## The rights of a requester over control space (R31, R45, R434, R484, R497) -/

section

namespace Sys2Proof.Machine

/-- An address that no block of a right answers is in no block, or in one without the right. -/
theorem ctlOk_false_or_noRight {off n : Nat} {right : Blk → Bool} (s : State) (h : ∀ b, blkOf off = some b → right b = false) :
    ctlOk s off n = false ∨ ∃ b, blkOf off = some b ∧ right b = false := by
  cases hblk : blkOf off with
  | none => exact .inl (by simp [ctlOk, hblk])
  | some b => exact .inr ⟨b, rfl, h b hblk⟩

/-- A read that no block answers to a requester other than the host does nothing. -/
theorem ctlReads_other_unserved {s : State} {who : Who} {off n : Nat} (hw : who ≠ .host)
    (h : ctlOk s off n = false ∨ ∃ b, blkOf off = some b ∧ readRight b who = false) : ctlReads s who off n = s := by
  unfold ctlReads
  rcases h with hok | ⟨b, hblk, hright⟩
  · simp [hw, hok]
  · simp [hw, hblk, hright]

/-- REGISTER_WRITE of one read and no write. -/
theorem exec_registerWrite_readOnly (who : Who) (off : BitVec 31) (n : Nat) (data : W64) (s : State) :
    exec (.registerWrite ⟨who, [⟨false, off, n⟩], false, 0, 0, data⟩) s = .next (settle (ctlReads s who off.toNat n)) := rfl

/-! ### An Unsupported Request -/

/-- A member added to a set is in it. -/
theorem mem_sadd_self (l : List Nat) (k : Nat) : k ∈ sadd l k := by
  induction l with
  | nil => simp [sadd]
  | cons j r ih =>
    unfold sadd
    split_ifs with hlt heq
    · simp
    · simp [heq]
    · simp [ih]

/-- Signalling an error sends at most a Message. -/
theorem errSignal_ctl (s : State) (severity : Nat) : (errSignal s severity).ctl = s.ctl := by
  unfold errSignal
  split_ifs <;> rfl

theorem errSignal_pci (s : State) (severity : Nat) : (errSignal s severity).pci = s.pci := by
  unfold errSignal
  split_ifs <;> rfl

/-- Logging an uncorrectable error that is not advisory touches the AER log alone, but for the Message. -/
theorem aerError_ctl (s : State) (bit : Nat) : (aerError s bit false).ctl = s.ctl := by
  simp only [aerError, Bool.false_and, Bool.false_eq_true, if_false]
  split
  · rfl
  · exact errSignal_ctl ..

theorem aerError_pci (s : State) (bit : Nat) : (aerError s bit false).pci = (aerLog s bit).pci := by
  simp only [aerError, Bool.false_and, Bool.false_eq_true, if_false]
  split
  · rfl
  · exact errSignal_pci ..

/-- The registers after an Unsupported Request of a write are those that counting it leaves. -/
theorem unsupported_write_ctl (s : State) : (unsupported s false).ctl = (count s pciBase 1 1).ctl := by
  simp only [unsupported, Bool.false_eq_true, if_false]
  split
  · exact aerError_ctl ..
  · rfl

/-- An Unsupported Request of a write is logged as error 20 (R486). -/
theorem unsupported_write_pci (s : State) : (unsupported s false).pci = (aerLog (count s pciBase 1 1) 20).pci := by
  simp only [unsupported, Bool.false_eq_true, if_false]
  split
  · exact aerError_pci ..
  · rfl

/-- It moves its counter, the counter's flag and the registers of the alerts alone. -/
theorem regGet_unsupported_write (s : State) {g : Nat} (ha : g ∉ alertRegs) (hc : g ≠ pciBase + 0x208) (hf : g ≠ pciBase + 0x700) :
    regGet (unsupported s false) g = regGet s g :=
  calc regGet (unsupported s false) g = regGet (count s pciBase 1 1) g := by unfold regGet; rw [unsupported_write_ctl]
    _ = regGet s g := regGet_countAt s pciBase _ 63 0 1 1 ha hc hf

/-! ### Rights -/

theorem writeRight_pith (b : Blk) (t : BitVec 4) :
    writeRight b (.pith t) = true ↔ b.base < 0x40000000 ∧ b.tower = t.toNat := by simp [writeRight, readRight]

theorem writeRight_hart (b : Blk) (h : BitVec 4) : writeRight b (.hart h) = true ↔ b.kind = .qnc ∨ b.kind = .qch := by
  simp [writeRight, readRight]

theorem writeRight_i3c (b : Blk) : writeRight b .i3c = true ↔ b.kind = .pip := by simp [writeRight]

end Sys2Proof.Machine

open Sys2Proof Sys2Proof.Machine

/-- Settles O47: an access outside the rights, or that no block answers, is no access; of the host it is an Unsupported Request. -/
theorem writeRights : Obligations.WriteRights := by
  unfold Obligations.WriteRights
  refine ⟨fun who off size data s => ⟨?noRight, ?noBlock, ?noReadRight, ?hostUnserved⟩,
    fun s g ha hc hf => regGet_unsupported_write s ha hc hf, ?logged, fun t h b => ⟨writeRight_pith b t, writeRight_hart b h, writeRight_i3c b, rfl, rfl⟩⟩
  case noRight =>
    intro hw h
    rw [exec_registerWrite_write, ctlWriteN_other_unserved _ hw (.inr (ctlOk_false_or_noRight s h))]
  case noBlock =>
    intro hw h
    rw [exec_registerWrite_write, ctlWriteN_other_unserved _ hw (.inr (.inl h))]
  case noReadRight =>
    intro hw h
    rw [exec_registerWrite_readOnly, ctlReads_other_unserved hw (ctlOk_false_or_noRight s h)]
  case hostUnserved =>
    intro hn h
    rw [exec_registerWrite_write, ctlWriteN_host_unserved _ hn (h.imp_right .inr)]
  case logged =>
    intro s
    rw [unsupported_write_pci]
    exact mem_sadd_self ..

end

/-! ## The configuration registers with a row of their own (R33, R35, R86, R87, R160, R351, R433, R481) -/

section

namespace Sys2Proof.Machine

/-! ### What an access of the block leaves -/

/-- Discarding a held half changes the held halves alone. -/
theorem touched_eq (s : State) (who : Who) (b : Blk) (g : Nat) :
    ∃ l, s.touched who b g = { s with ctl := { s.ctl with whold := l } } := by
  unfold State.touched dropHold
  split
  · split_ifs
    · exact ⟨_, rfl⟩
    · exact ⟨_, rfl⟩
  · exact ⟨_, rfl⟩

theorem regGet_touched (s : State) (who : Who) (b : Blk) (g o : Nat) : regGet (s.touched who b g) o = regGet s o := by
  obtain ⟨l, h⟩ := touched_eq s who b g
  rw [h]; rfl

theorem run_touched (s : State) (who : Who) (b : Blk) (g : Nat) : (s.touched who b g).run = s.run := by
  obtain ⟨l, h⟩ := touched_eq s who b g
  rw [h]

theorem regGet_unheld (s : State) (who : Who) (b : Blk) (g o : Nat) : regGet (s.unheld who b g) o = regGet s o :=
  regGet_touched s who b g o

theorem run_unheld (s : State) (who : Who) (b : Blk) (g : Nat) : (s.unheld who b g).run = s.run := run_touched s who b g

/-- A one-bit field is a bit of its granule. -/
theorem fbit_eq_testBit (s : State) (o k : Nat) : fbit s o k = (regGet s o).toNat.testBit k := by
  rw [Nat.testBit_eq_decide_div_mod_eq]
  simp only [fbit, fget, getField, bits, Nat.add_sub_cancel_left, pow_one, Nat.shiftRight_eq_div_pow]

theorem fbit_touched (s : State) (who : Who) (b : Blk) (g o k : Nat) : fbit (s.touched who b g) o k = fbit s o k := by
  rw [fbit_eq_testBit, regGet_touched, fbit_eq_testBit]

theorem fbit_unheld (s : State) (who : Who) (b : Blk) (g o k : Nat) : fbit (s.unheld who b g) o k = fbit s o k :=
  fbit_touched s who b g o k

/-! ### The value that a write stores -/

theorem putOne_some {v : Fld → Option Nat} {f : Fld} {x : Nat} (h : v f = some x) (n : Nat) :
    putOne v n f = putBits n f.hi f.lo x := by simp only [putOne, h]

theorem putOne_none {v : Fld → Option Nat} {f : Fld} (h : v f = none) (n : Nat) : putOne v n f = n := by simp only [putOne, h]

theorem putFields_nil (v : Fld → Option Nat) (n : Nat) : putFields v [] n = n := rfl

theorem putFields_cons (v : Fld → Option Nat) (f : Fld) (l : List Fld) (n : Nat) :
    putFields v (f :: l) n = putFields v l (putOne v n f) := rfl

/-- A write that no field takes leaves the number. -/
theorem putFields_of_none {v : Fld → Option Nat} {l : List Fld} (h : ∀ f ∈ l, v f = none) (n : Nat) : putFields v l n = n := by
  induction l with
  | nil => rfl
  | cons f r ih =>
    rw [putFields_cons, putOne_none (h f (by simp))]
    exact ih fun q hq => h q (by simp [hq])

/-- An RW field takes the value written to it. -/
theorem fieldWrite_taken {s : State} {b : Blk} {r old : Nat} {w : GWrite} {f : Fld} {x : Nat} (hf : f.acc = .rw)
    (hx : bits (w.over old) f.hi f.lo = x) (hw : w.reaches f = true) (ht : fieldTakes s b r (w.over old) f x = true) :
    fieldWrite s b r old w f = some x := by
  subst hx
  rw [fieldWrite_rw hf, if_pos ⟨hw, ht⟩]

/-- An RW field keeps its value when it does not take the one written. -/
theorem fieldWrite_kept {s : State} {b : Blk} {r old : Nat} {w : GWrite} {f : Fld} (hf : f.acc = .rw)
    (ht : ∀ x, fieldTakes s b r (w.over old) f x = false) : fieldWrite s b r old w f = none := by
  rw [fieldWrite_rw hf, if_neg fun h => absurd h.2 (by simp [ht])]

/-- A write of both halves of a granule. -/
abbrev GWrite.whole (who : Who) (data : W64) : GWrite := ⟨who, true, true, data.toNat⟩

/-- A write of the low half of a granule. -/
abbrev GWrite.lowHalf (who : Who) (data : W32) : GWrite := ⟨who, true, false, data.toNat⟩

/-- A write of both halves leaves its own bits for the RW fields. -/
theorem over_whole (who : Who) (data : W64) (old : Nat) : (GWrite.whole who data).over old = data.toNat := by
  have := data.isLt
  simp only [GWrite.over, if_true]
  omega

/-- A write of both halves reaches every field. -/
theorem reaches_whole (who : Who) (data : W64) {f : Fld} (h : f.lo ≤ f.hi) : (GWrite.whole who data).reaches f = true := by
  simp only [GWrite.reaches, Bool.true_and, Bool.or_eq_true, decide_eq_true_eq]
  omega

/-- A write of the low half leaves its own bits there. -/
theorem bits_over_low (who : Who) (data : W32) (old : Nat) {hi lo : Nat} (h : hi < 32) :
    bits ((GWrite.lowHalf who data).over old) hi lo = bits data.toNat hi lo := by
  have hlow : (GWrite.lowHalf who data).over old = 2 ^ 32 * (old / 2 ^ 32 % 2 ^ 32) + data.toNat := by
    simp only [GWrite.over, if_true, Bool.false_eq_true, if_false, Nat.mod_eq_of_lt data.isLt]
    omega
  apply Nat.eq_of_testBit_eq
  intro i
  rw [testBit_bits, testBit_bits, hlow, Nat.testBit_two_pow_mul_add _ data.isLt]
  by_cases hi' : i < hi + 1 - lo
  · rw [if_pos (by omega)]
  · simp [hi']

section
variable {b : Blk} {g r : Nat} (hg : g = b.base + r)
include hg

/-- The granule at offset r of a block after a write. -/
theorem stored_eq (s : State) (w : GWrite) :
    s.stored b g w = regPut s g
      (BitVec.ofNat 64 (putFields (fieldWrite s b r (regGet s g).toNat w) (flds b.kind b.idx r) (regGet s g).toNat)) := by
  have hr : g - b.base = r := by omega
  rw [State.stored, hr, storeValue_eq_putFields]

/-- A write that no field of the granule takes leaves the register as it was. -/
theorem stored_unchanged {s : State} {w : GWrite} (h : ∀ f ∈ flds b.kind b.idx r, ∀ old, fieldWrite s b r old w f = none) :
    s.stored b g w = regPut s g (regGet s g) := by
  rw [stored_eq hg, putFields_of_none fun f hf => h f hf _, BitVec.ofNat_toNat, BitVec.setWidth_eq]

/-- A bit that is a field of its own is what the write gave it. -/
theorem fbit_stored {s : State} {k x rst : Nat} {w : GWrite} {acc : Acc} (hf : ⟨k, k, acc, rst⟩ ∈ flds b.kind b.idx r) (hk : k < 64)
    (hx : fieldWrite s b r (regGet s g).toNat w ⟨k, k, acc, rst⟩ = some x) :
    fbit (s.stored b g w) g k = decide (x % 2 = 1) := by
  have hr : g - b.base = r := by omega
  have hv := bits_storeValue s b r (regGet s g).toNat w hf
  rw [hx, Option.elim_some] at hv
  simp only [Nat.add_sub_cancel_left, pow_one, bits, Nat.shiftRight_eq_div_pow] at hv
  rw [fbit_eq_testBit, State.stored, regGet_regPut_self, hr, BitVec.toNat_ofNat, Nat.testBit_mod_two_pow, ← hv,
    Nat.testBit_eq_decide_div_mod_eq, decide_eq_true hk, Bool.true_and]

end

/-- Two fields of a register set one after the other. -/
theorem setField_setField {hi lo hi' lo' : Nat} (h : lo ≤ hi + 1) (hh : hi < 64) (w : W64) (v v' : Nat) :
    setField (setField w hi lo v) hi' lo' v' = BitVec.ofNat 64 (putBits (putBits w.toNat hi lo v) hi' lo' v') := by
  rw [setField.eq_def (setField w hi lo v), setField_toNat h hh]

/-! ### Writes of whole registers, and of the low half of two 32-bit registers -/

section
variable {s : State} {who : Who} {b : Blk} {g r : Nat} (hg : g = b.base + r)
include hg

/-- A write of 8 bytes to a plain register. -/
theorem ctlWrite_whole_plain (data : W64) (h : s.Serves who g 8 b) (hp : (s.unheld who b g).plain b r who) :
    ctlWrite s who g true data.toNat =
      writeStarts ((s.unheld who b g).stored b g (.whole who data)) b r (regGet s g).toNat (.whole who data) := by
  obtain rfl : g - b.base = r := by omega
  rw [ctlWrite_served _ h, heldWrite_whole data h.mod_eq_zero, granuleWrite_plain hp, regGet_unheld]

/-- A write of the low half to a plain register of 32 bits. -/
theorem ctlWrite_low_plain (data : W32) (h : s.Serves who g 4 b) (ha : g % 8 = 0) (hn : isWide g = false)
    (hp : (s.touched who b g).plain b r who) :
    ctlWrite s who g false data.toNat =
      writeStarts ((s.touched who b g).stored b g (.lowHalf who data)) b r (regGet s g).toNat (.lowHalf who data) := by
  obtain rfl : g - b.base = r := by omega
  rw [ctlWrite_served (wide := false) _ h, heldWrite_low_narrow _ ha hn, Nat.mod_eq_of_lt data.isLt, granuleWrite_plain hp, regGet_touched]

end

/-! ### STN_FABRIC_CFG (R351) -/

/-- Stone's block. -/
abbrev stnBlock : Blk := ⟨.stn, stnBase, 0, 0⟩

theorem flds_fabricCfg : flds .stn 0 0x2000 =
    [⟨63, 63, .rw, 0⟩, ⟨47, 32, .rw, 0xFFFF⟩, ⟨31, 16, .rw, 0xFFFF⟩, ⟨15, 6, .rw, 0⟩, ⟨4, 0, .rw, 0⟩] := rfl

/-- While no plan runs, STN_FABRIC_CFG is open to a write. -/
theorem plain_fabricCfg {s : State} (who : Who) (h : s.run = none) : s.plain stnBlock 0x2000 who := by
  refine ⟨?_, by decide, by decide⟩
  simp [regLocked, h]

/-- A write of STN_FABRIC_CFG starts or ends the fabric as enable rises or falls. -/
theorem writeStarts_fabricCfg (s : State) (old : Nat) (w : GWrite) :
    writeStarts s stnBlock 0x2000 old w =
      if !old.testBit 63 && fbit s (stnBase + 0x2000) 63 then enableFabric s
      else if old.testBit 63 && !fbit s (stnBase + 0x2000) 63 then disableFabric s else s := rfl

/-- The enable bit takes either value (R351). -/
theorem fieldWrite_fabricEnable (s : State) (old : Nat) (who : Who) (data : W64) (v : Nat) :
    fieldWrite s stnBlock 0x2000 old (.whole who (setField data 63 63 v)) ⟨63, 63, .rw, 0⟩ = some (v % 2) := by
  refine fieldWrite_taken rfl ?_ rfl rfl
  rw [over_whole]
  exact getField_setField_self (by decide) (by decide) data v

/-- A write of enable 1 while enable is 0 enables the fabric. -/
theorem ctlWrite_fabricEnable {s : State} {who : Who} (data : W64) (h : s.Serves who (stnBase + 0x2000) 8 stnBlock) (hr : s.run = none)
    (he : fbit s (stnBase + 0x2000) 63 = false) :
    ctlWrite s who (stnBase + 0x2000) true (setField data 63 63 1).toNat =
      enableFabric ((s.unheld who stnBlock (stnBase + 0x2000)).stored stnBlock (stnBase + 0x2000)
        (.whole who (setField data 63 63 1))) := by
  have hset := fbit_stored rfl (s := s.unheld who stnBlock (stnBase + 0x2000)) (b := stnBlock) (by decide) (by decide)
    (fieldWrite_fabricEnable _ _ who data 1)
  rw [fbit_eq_testBit] at he
  rw [ctlWrite_whole_plain (b := stnBlock) rfl _ h (plain_fabricCfg who ((run_unheld ..).trans hr)), writeStarts_fabricCfg, he, hset]
  rfl

/-- While enable is 1 the other fields keep their value, so a write of enable 0 clears that bit alone. -/
theorem stored_fabricDisable {s : State} (who : Who) (data : W64) (he : fbit s (stnBase + 0x2000) 63 = true) :
    s.stored stnBlock (stnBase + 0x2000) (.whole who (setField data 63 63 0)) =
      regPut s (stnBase + 0x2000) (setField (regGet s (stnBase + 0x2000)) 63 63 0) := by
  have hkeep (n x : Nat) (f : Fld) (hf : f.lo ≠ 63) : fieldTakes s stnBlock 0x2000 n f x = false := by
    simp [fieldTakes, fabricOk, hf, fabEnabled, he]
  rw [stored_eq (b := stnBlock) rfl, flds_fabricCfg, putFields_cons, putOne_some (fieldWrite_fabricEnable _ _ who data 0),
    putFields_of_none]
  · rfl
  · intro f hf
    simp only [List.mem_cons, List.not_mem_nil, or_false] at hf
    rcases hf with rfl | rfl | rfl | rfl <;> exact fieldWrite_kept rfl fun x => hkeep _ x _ (by decide)

/-- A write of enable 0 while enable is 1 disables the fabric. -/
theorem ctlWrite_fabricDisable {s : State} {who : Who} (data : W64) (h : s.Serves who (stnBase + 0x2000) 8 stnBlock) (hr : s.run = none)
    (he : fbit s (stnBase + 0x2000) 63 = true) :
    ctlWrite s who (stnBase + 0x2000) true (setField data 63 63 0).toNat =
      disableFabric (regPut (s.unheld who stnBlock (stnBase + 0x2000)) (stnBase + 0x2000) (setField (regGet s (stnBase + 0x2000)) 63 63 0)) := by
  have hcleared := fbit_stored rfl (s := s.unheld who stnBlock (stnBase + 0x2000)) (b := stnBlock) (by decide) (by decide)
    (fieldWrite_fabricEnable _ _ who data 0)
  have hbit := he
  rw [fbit_eq_testBit] at hbit
  rw [ctlWrite_whole_plain (b := stnBlock) rfl _ h (plain_fabricCfg who ((run_unheld ..).trans hr)), writeStarts_fabricCfg, hbit, hcleared,
    stored_fabricDisable who data ((fbit_unheld ..).trans he), regGet_unheld]
  rfl

/-! ### STN_TOWER_RESET (R433) -/

/-- A write of STN_TOWER_RESET resets the towers whose bit is written as 1. -/
theorem writeStarts_towerReset (s : State) (old : Nat) (w : GWrite) :
    writeStarts s stnBlock 0x3000 old w = resetTowers s (bits w.ones 15 0) := rfl

/-- The tower bits are write-only: nothing is stored, and every tower whose bit is 1 is reset. -/
theorem ctlWrite_towerReset {s : State} {who : Who} (towers : BitVec 16) (h : s.Serves who (stnBase + 0x3000) 4 stnBlock) :
    ctlWrite s who (stnBase + 0x3000) false towers.toNat =
      resetTowers (regPut (s.touched who stnBlock (stnBase + 0x3000)) (stnBase + 0x3000) (regGet s (stnBase + 0x3000))) towers.toNat := by
  have hlt := towers.isLt
  have hval : towers.toNat = (towers.setWidth 32).toNat := by rw [BitVec.toNat_setWidth, Nat.mod_eq_of_lt (by omega)]
  have hones : bits (GWrite.lowHalf who (towers.setWidth 32)).ones 15 0 = towers.toNat := by
    simp only [bits, GWrite.ones, if_true, Bool.false_eq_true, if_false, Nat.shiftRight_zero, ← hval]
    omega
  have hnone (t : State) : ∀ f ∈ flds .stn 0 0x3000, ∀ old, fieldWrite t stnBlock 0x3000 old (.lowHalf who (towers.setWidth 32)) f = none := by
    intro f hf old
    rw [show flds .stn 0 0x3000 = [⟨31, 16, .ro, 0⟩, ⟨15, 0, .wo, 0⟩] from rfl] at hf
    simp only [List.mem_cons, List.not_mem_nil, or_false] at hf
    rcases hf with rfl | rfl
    · exact fieldWrite_other (.inl rfl)
    · exact fieldWrite_other (.inr rfl)
  rw [congrArg (ctlWrite s who (stnBase + 0x3000) false) hval, ctlWrite_low_plain (b := stnBlock) rfl _ h (by decide) (by decide) ⟨rfl, by decide, by decide⟩, stored_unchanged rfl (hnone _),
    regGet_touched, writeStarts_towerReset, hones]

/-! ### PTH_WINDOW_CFG (R33, R34) -/

/-- The block of a tower's Pith. -/
abbrev pthBlock (t : Nat) : Blk := ⟨.pth, pthBase t, t, 0⟩

/-- PTH_WINDOW_CFG is a register of 32 bits. -/
theorem isWide_windowCfg {b : Blk} {g : Nat} (hblk : blkOf g = some b) (hk : b.kind = .pth) (hg : g = b.base + 0x100) : isWide g = false := by
  have hr : g - b.base = 0x100 := by omega
  simp [isWide, hblk, hk, hr]

/-- A write of the low half of PTH_WINDOW_CFG gives pool_units the low four bits. -/
theorem writeStarts_windowCfg (s : State) (t old : Nat) (who : Who) (data : W32) :
    writeStarts s (pthBlock t) 0x100 old (.lowHalf who data) = writePoolUnits s t (data.toNat % 16) := by
  simp [writeStarts, bits]

/-- A write of pool_units: the field itself takes nothing, and the columns are split anew. -/
theorem ctlWrite_windowCfg {s : State} {who : Who} {t : Nat} (data : W32) (h : s.Serves who (pthBase t + 0x100) 4 (pthBlock t)) :
    ctlWrite s who (pthBase t + 0x100) false data.toNat =
      writePoolUnits (regPut (s.touched who (pthBlock t) (pthBase t + 0x100)) (pthBase t + 0x100) (regGet s (pthBase t + 0x100)))
        t (data.toNat % 16) := by
  have hgran : (pthBase t + 0x100) % 8 = 0 := by unfold pthBase towerBase; omega
  have hnarrow : isWide (pthBase t + 0x100) = false := by
    exact isWide_windowCfg h.blkOf_eq rfl rfl
  have hnone (u : State) : ∀ f ∈ flds .pth 0 0x100, ∀ old, fieldWrite u (pthBlock t) 0x100 old (.lowHalf who data) f = none := by
    intro f hf old
    rw [show flds .pth 0 0x100 = [⟨31, 31, .ro, 0⟩, ⟨11, 4, .ro, 0x12⟩, ⟨3, 0, .rw, 0⟩] from rfl] at hf
    simp only [List.mem_cons, List.not_mem_nil, or_false] at hf
    rcases hf with rfl | rfl | rfl
    · exact fieldWrite_other (.inl rfl)
    · exact fieldWrite_other (.inl rfl)
    · exact fieldWrite_kept rfl fun _ => rfl
  rw [ctlWrite_low_plain (b := pthBlock t) rfl data h hgran hnarrow ⟨rfl, by omega, by simp [hasCeLog]⟩, stored_unchanged rfl (hnone _), regGet_touched,
    writeStarts_windowCfg]

/-- A write of 0 to 8 while unlocked gives the tower those pool units. -/
theorem writePoolUnits_open {s : State} {t v : Nat} (hl : fbit s (pthBase t + 0x100) 31 = false) (hv : v ≤ 8) :
    writePoolUnits s t v = setPoolUnits s t v := by
  simp [writePoolUnits, hl, hv]

/-- While locked, or of 9 to 15, it has no effect. -/
theorem writePoolUnits_ignored {s : State} {t v : Nat} (h : fbit s (pthBase t + 0x100) 31 = true ∨ 8 < v) : writePoolUnits s t v = s := by
  rcases h with h | h <;> simp [writePoolUnits, h]

/-! ### PCI_HOST_WIN_BASE and PCI_BAR2_WIN (R35, R481) -/

/-- The block of the PCIe endpoint. -/
abbrev pciBlock : Blk := ⟨.pci, pciBase, 0, 0⟩

/-- Every RW field of the PCI block takes what a whole write gives it. -/
theorem fieldWrite_pci (s : State) (r old : Nat) (who : Who) (data : W64) {hi lo : Nat} (rst : Nat) (h : lo ≤ hi) :
    fieldWrite s pciBlock r old (.whole who data) ⟨hi, lo, .rw, rst⟩ = some (getField data hi lo) :=
  fieldWrite_taken rfl (by rw [over_whole]; rfl) (reaches_whole who data h) rfl

theorem ctlWrite_hostWinBase {s : State} {who : Who} (data : W64) (h : s.Serves who (pciBase + 0x120) 8 pciBlock) :
    ctlWrite s who (pciBase + 0x120) true data.toNat = regPut (s.unheld who pciBlock (pciBase + 0x120)) (pciBase + 0x120)
      (setField (setField (regGet s (pciBase + 0x120)) 63 12 (getField data 63 12)) 0 0 (getField data 0 0)) := by
  rw [ctlWrite_whole_plain (b := pciBlock) rfl data h ⟨rfl, by decide, by decide⟩, stored_eq (b := pciBlock) rfl,
    show flds pciBlock.kind pciBlock.idx 0x120 = [⟨63, 12, .rw, 0⟩, ⟨0, 0, .rw, 0⟩] from rfl, putFields_cons, putFields_cons,
    putOne_some (fieldWrite_pci _ _ _ who data _ (by decide)), putOne_some (fieldWrite_pci _ _ _ who data _ (by decide)), regGet_unheld,
    setField_setField (by decide) (by decide)]
  rfl

theorem ctlWrite_bar2Win {s : State} {who : Who} (data : W64) (h : s.Serves who (pciBase + 0x100) 8 pciBlock) :
    ctlWrite s who (pciBase + 0x100) true data.toNat = regPut (s.unheld who pciBlock (pciBase + 0x100)) (pciBase + 0x100)
      (setField (regGet s (pciBase + 0x100)) 11 0 (getField data 11 0)) := by
  rw [ctlWrite_whole_plain (b := pciBlock) rfl data h ⟨rfl, by decide, by decide⟩, stored_eq (b := pciBlock) rfl,
    show flds pciBlock.kind pciBlock.idx 0x100 = [⟨11, 0, .rw, 0⟩] from rfl, putFields_cons,
    putOne_some (fieldWrite_pci _ _ _ who data _ (by decide)), regGet_unheld]
  rfl

/-! ### STN_CMD_RING_CFG and STN_REC_CFG (R86, R87) -/

section
variable {r : Nat} (hr : r = 0x1008 ∨ r = 0x1018)
include hr

theorem flds_ring : flds .stn 0 r = [⟨63, 32, .ro, 0⟩, ⟨31, 31, .rw, 0⟩, ⟨4, 0, .rw, 6⟩] := by
  rcases hr with rfl | rfl <;> rfl

/-- log2_size moves while the ring is disabled alone, and within 6 to 16. -/
theorem fieldTakes_ring (s : State) (n : Nat) (f : Fld) (x : Nat) :
    fieldTakes s stnBlock r n f x = ringOk (fbit s (stnBase + r) 31) f x := by
  rcases hr with rfl | rfl <;> rfl

/-- A ring starts when its enable rises. -/
theorem writeStarts_ring (s : State) (old : Nat) (w : GWrite) :
    writeStarts s stnBlock r old w = if !old.testBit 31 && fbit s (stnBase + r) 31 then ringStarts s r else s := by
  rcases hr with rfl | rfl <;> rfl

theorem fieldWrite_ringEnable (s : State) (old : Nat) (who : Who) (data : W32) :
    fieldWrite s stnBlock r old (.lowHalf who data) ⟨31, 31, .rw, 0⟩ = some (data.toNat / 2 ^ 31) := by
  have := data.isLt
  refine fieldWrite_taken rfl ?_ rfl (by rw [fieldTakes_ring hr]; rfl)
  rw [bits_over_low _ _ _ (by decide)]
  simp only [bits, Nat.shiftRight_eq_div_pow, Nat.add_sub_cancel_left, pow_one]
  omega

theorem fieldWrite_ringSize (s : State) (old : Nat) (who : Who) (data : W32) :
    fieldWrite s stnBlock r old (.lowHalf who data) ⟨4, 0, .rw, 6⟩ =
      if fbit s (stnBase + r) 31 = false ∧ 6 ≤ data.toNat % 32 ∧ data.toNat % 32 ≤ 16 then some (data.toNat % 32) else none := by
  have hx : bits ((GWrite.lowHalf who data).over old) 4 0 = data.toNat % 32 := bits_over_low _ _ _ (by decide)
  rw [fieldWrite_rw rfl, hx, fieldTakes_ring hr]
  simp [GWrite.reaches, ringOk, and_assoc]

/-- The value that a write leaves in the register. -/
theorem stored_ring (s : State) (who : Who) (data : W32) :
    s.stored stnBlock (stnBase + r) (.lowHalf who data) = regPut s (stnBase + r)
      (let x := data.toNat % 32
       let w := setField (regGet s (stnBase + r)) 31 31 (data.toNat / 2 ^ 31)
       if fbit s (stnBase + r) 31 = false ∧ 6 ≤ x ∧ x ≤ 16 then setField w 4 0 x else w) := by
  rw [stored_eq (b := stnBlock) rfl, flds_ring hr, putFields_cons, putFields_cons, putFields_cons, putOne_none (fieldWrite_other (f := ⟨63, 32, .ro, 0⟩) (.inl rfl)),
    putOne_some (fieldWrite_ringEnable hr _ _ who data)]
  by_cases h : fbit s (stnBase + r) 31 = false ∧ 6 ≤ data.toNat % 32 ∧ data.toNat % 32 ≤ 16
  · rw [putOne_some ((fieldWrite_ringSize hr ..).trans (if_pos h)), putFields_nil]
    simp only [if_pos h, setField_setField (show 31 ≤ 31 + 1 by decide) (show 31 < 64 by decide)]
  · rw [putOne_none ((fieldWrite_ringSize hr ..).trans (if_neg h)), putFields_nil]
    simp only [if_neg h, setField]

/-- A write of a ring's configuration register: its fields, and the start of the ring when enable rises. -/
theorem ctlWrite_ring {s : State} {who : Who} (data : W32) (h : s.Serves who (stnBase + r) 4 stnBlock) :
    ctlWrite s who (stnBase + r) false data.toNat =
      let x := data.toNat % 32
      let w := setField (regGet s (stnBase + r)) 31 31 (data.toNat / 2 ^ 31)
      let u := regPut (s.touched who stnBlock (stnBase + r)) (stnBase + r)
        (if fbit s (stnBase + r) 31 = false ∧ 6 ≤ x ∧ x ≤ 16 then setField w 4 0 x else w)
      if fbit s (stnBase + r) 31 = false ∧ data.toNat / 2 ^ 31 = 1 then ringStarts u r else u := by
  have hlt := data.isLt
  have hgran : (stnBase + r) % 8 = 0 := by rcases hr with rfl | rfl <;> rfl
  have hnarrow : isWide (stnBase + r) = false := by rcases hr with rfl | rfl <;> rfl
  have hplain : (s.touched who stnBlock (stnBase + r)).plain stnBlock r who := by
    rcases hr with rfl | rfl <;> exact ⟨rfl, by decide, by decide⟩
  have henable := fbit_stored rfl (s := s.touched who stnBlock (stnBase + r)) (b := stnBlock) (w := .lowHalf who data)
    (by rw [flds_ring hr]; simp) (by decide) (fieldWrite_ringEnable hr _ _ who data)
  rw [Nat.mod_eq_of_lt (by omega)] at henable
  rw [ctlWrite_low_plain (b := stnBlock) rfl data h hgran hnarrow hplain, writeStarts_ring hr, henable, stored_ring hr, regGet_touched,
    fbit_touched, ← fbit_eq_testBit]
  simp only [Bool.and_eq_true, Bool.not_eq_true', decide_eq_true_eq]

end

/-! ### ARR_BAD_COLS (R160, R162) -/

section
variable {b : Blk} {r : Nat} (hk : b.kind = .arr) (hr : r = 0x10 ∨ r = 0x18)
include hk hr

/-- A granule of ARR_BAD_COLS stores nothing of itself. -/
theorem fieldWrite_badCols (s : State) (old : Nat) (w : GWrite) : ∀ f ∈ flds b.kind b.idx r, fieldWrite s b r old w f = none := by
  have hkeep (n x : Nat) (f : Fld) : fieldTakes s b r n f x = false := by
    rcases hr with rfl | rfl <;> simp [fieldTakes, hk]
  have hrw : ∀ f ∈ flds b.kind b.idx r, f.acc = .rw := by
    rw [hk]
    rcases hr with rfl | rfl
    · rw [show flds .arr b.idx 0x10 = [⟨63, 0, .rw, 0⟩] from rfl]; simp
    · rw [show flds .arr b.idx 0x18 = [⟨63, 63, .rw, 0⟩, ⟨1, 0, .rw, 0⟩] from rfl]; simp
  exact fun f hf => fieldWrite_kept (hrw f hf) fun x => hkeep _ x f

/-- The bad columns that a granule of ARR_BAD_COLS leaves: its own half as written, the other as it was. -/
theorem writeStarts_badCols (s : State) (old : Nat) (who : Who) (x : W64) :
    writeStarts s b r old (.whole who x) =
      let other := (regGet s (b.base + (0x28 - r))).toNat
      badColsWritten s (b.tower * 272 + b.idx / 2) (b.idx % 2)
        (if r = 0x10 then x.toNat + other * 2 ^ 64 else other + x.toNat * 2 ^ 64) := by
  rcases hr with rfl | rfl <;> simp [writeStarts, hk, badColsHalf, over_whole]

/-- Only a Pith writes ARR_BAD_COLS. -/
theorem plain_badCols (s : State) (tower : BitVec 4) : s.plain b r (.pith tower) := by
  rcases hr with rfl | rfl <;> exact ⟨by simp [regLocked, hk, isPith], by decide, by simp⟩

/-- A Pith's write of a granule of ARR_BAD_COLS marks the array's bad columns. -/
theorem ctlWrite_badCols {s : State} {tower : BitVec 4} {g x : Nat} (hx : x < 2 ^ 64) (hg : g = b.base + r)
    (h : s.Serves (.pith tower) g 8 b) :
    ctlWrite s (.pith tower) g true x =
      let other := (regGet s (b.base + (0x28 - r))).toNat
      badColsWritten (regPut (s.unheld (.pith tower) b g) g (regGet s g)) (b.tower * 272 + b.idx / 2) (b.idx % 2)
        (if r = 0x10 then x + other * 2 ^ 64 else other + x * 2 ^ 64) := by
  obtain ⟨y, rfl⟩ : ∃ y : W64, x = y.toNat := ⟨BitVec.ofNat 64 x, by rw [BitVec.toNat_ofNat, Nat.mod_eq_of_lt hx]⟩
  have hother : b.base + (0x28 - r) ≠ g := by omega
  rw [ctlWrite_whole_plain hg y h (plain_badCols hk hr _ tower), stored_unchanged hg fun f hf old => fieldWrite_badCols hk hr _ old _ f hf,
    writeStarts_badCols hk hr, regGet_regPut_ne _ _ hother, regGet_unheld, regGet_unheld]

end

/-! ### The rows -/

/-- ARR_BAD_COLS writes its low granule and then its high one (R160). -/
theorem exec_arrBadCols {who : Who} {tower : BitVec 4} {core : BitVec 9} {arr : BitVec 1} {data : BitVec 128} {s : State}
    (h : core.toNat < 272) :
    exec (.arrBadCols who tower core arr data) s = .next (settle
      (let base := arrBase tower.toNat core.toNat arr.toNat
       ctlWrite (ctlWrite s who (base + 0x10) true (data.toNat % 2 ^ 64)) who (base + 0x18) true (data.toNat / 2 ^ 64))) :=
  shaped_true (decide_eq_true h)

end Sys2Proof.Machine

open Sys2Proof Sys2Proof.Machine

/-- Settles O42: each row is a write of its register, whose fields take what their rules allow and which then starts what it starts. -/
theorem configurationRows : Obligations.ConfigurationRows := by
  unfold Obligations.ConfigurationRows
  refine ⟨?fabric, ?towers, ?window, ?pcie, ?rings, ?badCols⟩
  case fabric =>
    intro who data s b g u h hr
    exact ⟨fun he => congrArg finish (ctlWrite_fabricEnable data h hr he),
      fun he => congrArg finish (ctlWrite_fabricDisable data h hr he)⟩
  case towers =>
    intro who towers s b g u h
    exact congrArg finish (ctlWrite_towerReset towers h)
  case window =>
    intro who tower data s t b g u h
    have hwrite : exec (.pthWindowCfg who tower data) s = .next (settle (writePoolUnits u t (data.toNat % 16))) :=
      congrArg finish (ctlWrite_windowCfg data h)
    have hlock : fbit u g 31 = fbit s g 31 := by
      rw [fbit_eq_testBit, regGet_regPut_self, fbit_eq_testBit]
    rw [hwrite]
    exact ⟨fun hl hv => by rw [writePoolUnits_open (hlock.trans hl) hv],
      fun hi => by rw [writePoolUnits_ignored (hi.imp_left hlock.trans)]⟩
  case pcie =>
    intro who data s b
    exact ⟨fun h => congrArg finish (ctlWrite_hostWinBase data h),
      fun h => congrArg finish (ctlWrite_bar2Win data h)⟩
  case rings =>
    intro who data s b x en
    exact ⟨fun h => congrArg finish (ctlWrite_ring (.inl rfl) data h),
      fun h => congrArg finish (ctlWrite_ring (.inr rfl) data h)⟩
  case badCols =>
    intro tower core arr data s t who b half v hcore hlow hhigh
    have harrlt := arr.isLt
    have hpk : b.tower * 272 + b.idx / 2 = t * 272 + core.toNat := by simp only [b]; omega
    have harr : b.idx % 2 = arr.toNat := by simp only [b]; omega
    have hhalf {s : State} {r x : Nat} (hr : r = 0x10 ∨ r = 0x18) (hx : x < 2 ^ 64) (h : s.Serves who (b.base + r) 8 b) :
        ctlWrite s who (b.base + r) true x = half s r x := by
      have hwrite := ctlWrite_badCols (b := b) rfl hr hx rfl h
      rw [hpk, harr] at hwrite
      exact hwrite
    have hdata := data.isLt
    rw [exec_arrBadCols hcore]
    refine congrArg finish ?_
    calc ctlWrite (ctlWrite s who (b.base + 0x10) true (data.toNat % 2 ^ 64)) who (b.base + 0x18) true (data.toNat / 2 ^ 64)
        = ctlWrite v who (b.base + 0x18) true (data.toNat / 2 ^ 64) := by rw [hhalf (.inl rfl) (Nat.mod_lt _ (by decide)) hlow]
      _ = half v 0x18 (data.toNat / 2 ^ 64) := hhalf (.inr rfl) (by omega) hhigh

end

/-! ## A 64-bit register in two accesses of 4 bytes (R48) -/

section

namespace Sys2Proof.Machine

/-! ### Discarding a held half -/

theorem dropHold_of_none {s : State} {key : Nat} (g : Nat) (h : tget? s.ctl.whold key = none) : dropHold s key g = s := by
  simp only [dropHold, h]

/-- An access of the register that the held half is for keeps it. -/
theorem dropHold_of_same {s : State} {key g : Nat} {x : W32} (h : tget? s.ctl.whold key = some (g, x)) : dropHold s key g = s := by
  simp only [dropHold, h, if_true]

/-- An access of another register discards it. -/
theorem dropHold_of_other {s : State} {key g : Nat} {x : Nat × W32} (h : tget? s.ctl.whold key = some x) (hg : x.1 ≠ g) :
    dropHold s key g = { s with ctl := { s.ctl with whold := tdel s.ctl.whold key } } := by
  simp only [dropHold, h, if_neg hg]

/-- No more than the held halves changes. -/
theorem dropHold_eq (s : State) (key g : Nat) : ∃ l, dropHold s key g = { s with ctl := { s.ctl with whold := l } } := by
  cases h : tget? s.ctl.whold key with
  | none => exact ⟨_, dropHold_of_none g h⟩
  | some x =>
    by_cases hg : x.1 = g
    · subst hg; exact ⟨_, dropHold_of_same h⟩
    · exact ⟨_, dropHold_of_other h hg⟩

@[simp] theorem rlatch_dropHold (s : State) (key g : Nat) : (dropHold s key g).ctl.rlatch = s.ctl.rlatch := by
  obtain ⟨l, h⟩ := dropHold_eq s key g
  rw [h]

@[simp] theorem regs_dropHold (s : State) (key g : Nat) : (dropHold s key g).ctl.regs = s.ctl.regs := by
  obtain ⟨l, h⟩ := dropHold_eq s key g
  rw [h]

@[simp] theorem mem_dropHold (s : State) (key g : Nat) : (dropHold s key g).mem = s.mem := by
  obtain ⟨l, h⟩ := dropHold_eq s key g
  rw [h]

/-- No register shows a held half. -/
@[simp] theorem regShown_dropHold (s : State) (key g o : Nat) : regShown (dropHold s key g) o = regShown s o := by
  obtain ⟨l, h⟩ := dropHold_eq s key g
  rw [h]; rfl

/-! ### Reads -/

/-- A read does to the held halves what any access of its granule does. -/
theorem whold_ctlRead {s : State} {who o : Nat} {b : Blk} (wide : Bool) (hblk : blkOf (o / 8 * 8) = some b) :
    (ctlRead s who o wide).1.ctl.whold = (dropHold s (latchKey who b.base) (o / 8 * 8)).ctl.whold := by
  simp only [ctlRead, hblk]
  split_ifs
  · rfl
  · rfl
  · rfl
  · split
    · split_ifs <;> rfl
    · rfl

/-- A latch of the register answers for its high half. -/
theorem highShown_latched {u : State} {key g : Nat} {l : W32} (h : tget? u.ctl.rlatch key = some (g, l)) : highShown u key g = l.toNat := by
  simp only [highShown, h, if_true]

/-- Without a latch of the register its high half is live. -/
theorem highShown_live {u : State} {key g : Nat} (h : ∀ x, tget? u.ctl.rlatch key = some x → x.1 ≠ g) :
    highShown u key g = regShown u g / 2 ^ 32 := by
  unfold highShown
  cases hx : tget? u.ctl.rlatch key with
  | none => rfl
  | some x => exact if_neg (h x hx)

section
variable {g : Nat} {b : Blk} (hblk : blkOf g = some b) (hg : g % 8 = 0) (hw : isWide g = true)
include hblk hg hw

/-- Reading the low half latches the high half of the same instant. -/
theorem latch_ctlRead_low (s : State) (who : Nat) :
    tget? (ctlRead s who g false).1.ctl.rlatch (latchKey who b.base) = some (g, BitVec.ofNat 32 (regShown s g / 2 ^ 32)) := by
  rw [ctlRead_low hblk hg hw]
  simp

/-- Reading the high half returns what the latch or the register shows. -/
theorem ctlRead_high_value (t : State) (who : Nat) :
    (ctlRead t who (g + 4) false).2 = highShown (dropHold t (latchKey who b.base) g) (latchKey who b.base) g := by
  have hhigh : (g + 4) % 8 = 4 := by omega
  rw [ctlRead_high (by rwa [Nat.add_sub_cancel]) hhigh (by rwa [Nat.add_sub_cancel]), Nat.add_sub_cancel]

end

/-! ### Writes -/

/-- The low half of a 64-bit register is held for it. -/
theorem heldWrite_low_held {s : State} {who : Who} {g : Nat} {b : Blk} (x : Nat) (hg : g % 8 = 0) (hw : isWide g = true) :
    heldWrite s b who g false x =
      let u := s.touched who b g
      { u with ctl := { u.ctl with whold := tput u.ctl.whold (latchKey (whoNum who) b.base) (g, BitVec.ofNat 32 x) } } := by
  simp only [heldWrite, granule_low hg, hg, hw, if_true, Bool.false_eq_true, if_false]
  rfl

theorem held_heldWrite_low (s : State) (who : Who) {g : Nat} (b : Blk) (x : Nat) (hg : g % 8 = 0) (hw : isWide g = true) :
    tget? (heldWrite s b who g false x).ctl.whold (latchKey (whoNum who) b.base) = some (g, BitVec.ofNat 32 x) := by
  rw [heldWrite_low_held x hg hw]
  simp

/-- Both halves written: the register's old bits do not matter. -/
theorem over_halves (who : Who) (lo hi : W32) (old : Nat) :
    GWrite.over ⟨who, true, true, lo.toNat + hi.toNat * 2 ^ 32⟩ old = lo.toNat + hi.toNat * 2 ^ 32 := by
  have hlo := lo.isLt
  have hhi := hi.isLt
  simp only [GWrite.over, if_true]
  omega

/-- The high half written alone: the live low half stays. -/
theorem over_high (who : Who) (hi : W32) (old : Nat) :
    GWrite.over ⟨who, false, true, hi.toNat * 2 ^ 32⟩ old = old % 2 ^ 32 + hi.toNat * 2 ^ 32 := by
  have hhi := hi.isLt
  simp only [GWrite.over, Bool.false_eq_true, if_true, if_false]
  omega

end Sys2Proof.Machine

open Sys2Proof Sys2Proof.Machine

/-- Settles O48: a read of a low half latches the high half, a write of one is held, and the access of the high half takes it up. -/
theorem twoHalves : Obligations.TwoHalves := by
  unfold Obligations.TwoHalves
  refine ⟨fun s t who g b hblk hg hw => ⟨?whole, ?low, ?latched, ?live, ?discarded⟩,
    fun s t who g b lo hi hblk hg hw => ⟨?regs, ?mem, ?held, ?alone, ?other, over_halves who lo hi, fun old => over_high who hi old.toNat⟩⟩
  case whole =>
    rw [ctlRead_whole hblk hg]
    exact regShown_dropHold ..
  case low =>
    rw [ctlRead_low hblk hg hw]
    exact congrArg (· % 2 ^ 32) (regShown_dropHold ..)
  case latched =>
    intro ht
    have hlatch := latch_ctlRead_low hblk hg hw s who
    rw [← ht, ← rlatch_dropHold t (latchKey who b.base) g] at hlatch
    rw [ctlRead_high_value hblk hg hw, highShown_latched hlatch, BitVec.toNat_ofNat]
  case live =>
    intro ht
    rw [ctlRead_high_value hblk hg hw, highShown_live (by simpa using ht), regShown_dropHold]
  case discarded =>
    intro o wide h hblk' hheld hother
    rw [whold_ctlRead wide hblk', dropHold_of_other hheld hother]
    exact tget?_tdel_self ..
  case regs =>
    rw [heldWrite_low_held _ hg hw]
    exact regs_dropHold ..
  case mem =>
    rw [heldWrite_low_held _ hg hw]
    exact mem_dropHold ..
  case held =>
    intro ht
    have hheld : tget? t.ctl.whold (latchKey (whoNum who) b.base) = some (g, lo) := by
      rw [ht, held_heldWrite_low s who b _ hg hw, BitVec.ofNat_toNat, BitVec.setWidth_eq]
    have hsame : t.touched who b g = t := dropHold_of_same hheld
    have hcommit := heldWrite_high_held (s := t) (who := who) (off := g + 4) (b := b) hi.toNat (x := (g, lo)) (by omega)
      (by rwa [Nat.add_sub_cancel]) (by rwa [Nat.add_sub_cancel, hsame])
    simpa only [Nat.add_sub_cancel, State.unheld, hsame, Nat.mod_eq_of_lt hi.isLt] using hcommit
  case alone =>
    intro ht
    have hsame : t.touched who b g = t := dropHold_of_none g ht
    have hcommit := heldWrite_high_alone (s := t) (who := who) (off := g + 4) (b := b) hi.toNat (by omega)
      (.inr (by rwa [Nat.add_sub_cancel, hsame]))
    simpa only [Nat.add_sub_cancel, hsame, Nat.mod_eq_of_lt hi.isLt] using hcommit
  case other =>
    intro o x hne hwide hlow
    rw [granule_low hlow] at hne hwide
    rw [held_heldWrite_low _ who b x hlow hwide]
    simp [hne]

end

/-! ## Event counters (R50 to R53) -/

section

namespace Sys2Proof.Machine

/-! ### One-bit fields -/

theorem fbit_fset_self (s : State) (o : Nat) {b : Nat} (hb : b < 64) (v : Nat) : fbit (fset s o b b v) o b = decide (v % 2 = 1) := by
  unfold fbit
  rw [fget_fset_self s (by omega) hb, Nat.add_sub_cancel_left, pow_one]

theorem fbit_fset_granule (s : State) {o o' : Nat} (ho : o' ≠ o) (hi lo v b : Nat) : fbit (fset s o hi lo v) o' b = fbit s o' b := by
  unfold fbit
  rw [fget_fset_granule s ho]

theorem fbit_fset_bit (s : State) (o : Nat) {b k : Nat} (hb : b < 64) (hk : k ≠ b) (v : Nat) : fbit (fset s o b b v) o k = fbit s o k := by
  unfold fbit
  rw [fget_fset_field s (by omega) hb (by omega)]

/-! ### Counting -/

section
variable {s : State} {o hi lo fo b n : Nat}

/-- A counter whose flag is set counts nothing. -/
theorem countRaw_flagged (hf : fbit s fo b = true) : countRaw s o hi lo fo b n = (s, false) := if_pos (.inr hf)

/-- A counter that stays within its field adds. -/
theorem countRaw_within (hn : 0 < n) (hf : fbit s fo b = false) (h : fget s o hi lo + n ≤ 2 ^ (hi + 1 - lo) - 1) :
    countRaw s o hi lo fo b n = (fset s o hi lo (fget s o hi lo + n), false) := by
  simp only [countRaw, hf, hn.ne', h, or_self, Bool.false_eq_true, if_false, if_true]

/-- A counter that would pass all ones holds all ones, sets its flag and reports. -/
theorem countRaw_overflow (hn : 0 < n) (hf : fbit s fo b = false) (h : 2 ^ (hi + 1 - lo) - 1 < fget s o hi lo + n) :
    countRaw s o hi lo fo b n = (fset (fset s o hi lo (2 ^ (hi + 1 - lo) - 1)) fo b b 1, true) := by
  simp only [countRaw, hf, hn.ne', Nat.not_le.2 h, or_self, Bool.false_eq_true, if_false]

/-- No overflow is reported while the counter has room. -/
theorem countRaw_silent (h : fget s o hi lo + n ≤ 2 ^ (hi + 1 - lo) - 1) : (countRaw s o hi lo fo b n).2 = false := by
  simp only [countRaw, if_pos h]
  split_ifs <;> rfl

/-- The other fields of the counter's granule stay. -/
theorem fget_countRaw_field {hi' lo' : Nat} (hl : lo ≤ hi) (hh : hi < 64) (ho : fo ≠ o) (hd : hi' < lo ∨ hi < lo') :
    fget (countRaw s o hi lo fo b n).1 o hi' lo' = fget s o hi' lo' := by
  have hfield (v : Nat) : fget (fset s o hi lo v) o hi' lo' = fget s o hi' lo' := fget_fset_field s (by omega) hh hd o v
  unfold countRaw
  dsimp only
  split_ifs
  · rfl
  · exact hfield _
  · exact (fget_fset_granule _ ho.symm ..).trans (hfield _)

end

/-! ### Clearing by the overflow register (R52) -/

/-- What a step of a fold keeps, the fold keeps. -/
theorem foldl_keeps {σ α β : Type} {f : σ → α → σ} {l : List α} (r : σ → β) (h : ∀ s, ∀ a ∈ l, r (f s a) = r s) (s : σ) :
    r (l.foldl f s) = r s :=
  List.foldlRecOn l f (motive := fun t => r t = r s) rfl fun t ht a ha => (h t a ha).trans ht

/-- What only step i of a fold over a range changes is after the fold as step i makes it. -/
theorem foldl_range_only {σ β : Type} {f : σ → Nat → σ} {i n : Nat} (r : σ → β) (v : β → β) (hi : i < n)
    (hself : ∀ s, r (f s i) = v (r s)) (hother : ∀ s, ∀ j < n, j ≠ i → r (f s j) = r s) (s : σ) :
    r ((List.range n).foldl f s) = v (r s) := by
  induction n with
  | zero => omega
  | succ n ih =>
    rw [List.range_succ, List.foldl_append, List.foldl_cons, List.foldl_nil]
    by_cases hin : i = n
    · subst hin
      rw [hself, foldl_keeps r fun s j hj => hother s j (by simp at hj; omega) (by simp at hj; omega)]
    · rw [hother _ n (by omega) (by omega), ih (by omega) fun s j hj => hother s j (by omega)]

/-- Writing bit i of overflow register 0 as 1 clears its flag and its counter. -/
def clearCounter (b : Blk) (data : W64) (s : State) (i : Nat) : State :=
  if data.getLsbD i = true ∧ i < ovfBits b.kind b.idx 0 then
    fset (fset s (b.base + 0x700) i i 0) (b.base + 0x200 + 8 * i) 63 0 0
  else s

/-- Outside Stone's block, overflow register 0 clears the counters at 0x200. -/
theorem clearOvf_eq_foldl (s : State) {b : Blk} (data : W64) (hb : b.kind ≠ .stn) :
    clearOvf s b 0 data = (List.range 64).foldl (clearCounter b data) s := by
  unfold clearOvf
  refine List.foldl_ext _ _ _ fun t i hi => ?_
  have hlt : i < 64 := List.mem_range.1 hi
  simp [clearCounter, hb, hlt]

section
variable {b : Blk} {data : W64} {i : Nat}

theorem regGet_clearCounter (s : State) {g : Nat} (hflag : g ≠ b.base + 0x700) (hcount : g ≠ b.base + 0x200 + 8 * i) :
    regGet (clearCounter b data s i) g = regGet s g := by
  unfold clearCounter
  split_ifs
  · exact (regGet_regPut_ne _ _ hcount).trans (regGet_regPut_ne _ _ hflag)
  · rfl

theorem flag_clearCounter_self (s : State) (hi : i < ovfBits b.kind b.idx 0) :
    fbit (clearCounter b data s i) (b.base + 0x700) i = (!data.getLsbD i && fbit s (b.base + 0x700) i) := by
  have hlt := ovfBits_le b.kind b.idx 0
  cases hd : data.getLsbD i with
  | false => simp [clearCounter, hd]
  | true =>
    simp only [clearCounter, hd, hi, and_self, if_true]
    rw [fbit_fset_granule _ (by omega), fbit_fset_self _ _ (by omega)]
    rfl

theorem flag_clearCounter_ne (s : State) {k : Nat} (hk : k ≠ i) (hi : i < 64) :
    fbit (clearCounter b data s i) (b.base + 0x700) k = fbit s (b.base + 0x700) k := by
  unfold clearCounter
  split_ifs
  · rw [fbit_fset_granule _ (by omega), fbit_fset_bit _ _ hi hk]
  · rfl

theorem counter_clearCounter_self (s : State) (hi : i < ovfBits b.kind b.idx 0) :
    fget (clearCounter b data s i) (b.base + 0x200 + 8 * i) 63 0 =
      if data.getLsbD i then 0 else fget s (b.base + 0x200 + 8 * i) 63 0 := by
  cases hd : data.getLsbD i with
  | false => simp [clearCounter, hd]
  | true =>
    simp only [clearCounter, hd, hi, and_self, if_true]
    exact fget_fset_self _ (by decide) (by decide) _ _

theorem counter_clearCounter_ne (s : State) {k : Nat} (hk : k ≠ i) (hlt : k < 64) :
    fget (clearCounter b data s i) (b.base + 0x200 + 8 * k) 63 0 = fget s (b.base + 0x200 + 8 * k) 63 0 := by
  unfold fget
  rw [regGet_clearCounter s (by omega) (by omega)]

end

end Sys2Proof.Machine

open Sys2Proof Sys2Proof.Machine

/-- Settles O49: counting stays within the field, overflows or finds its flag set; clearing goes bit by bit, and each bit has its own
flag and counter. -/
theorem eventCounters : Obligations.EventCounters := by
  unfold Obligations.EventCounters
  refine ⟨fun s o hi lo fo b n hh hl hb ho hn => ⟨?within, ?overflow, countRaw_flagged, fun g => regGet_countRaw s o hi lo fo b n,
    fun hi' lo' => fget_countRaw_field hl hh ho⟩, fun s b data i hk hi => ⟨?flag, ?counter⟩, ?frame⟩
  case within =>
    intro hf hv
    have hlt : fget s o hi lo + n < 2 ^ (hi + 1 - lo) := Nat.lt_of_le_pred (Nat.two_pow_pos _) hv
    rw [countRaw_within hn hf hv]
    exact ⟨(fget_fset_self s (by omega) hh _ _).trans (Nat.mod_eq_of_lt hlt), (fbit_fset_granule _ ho ..).trans hf, rfl⟩
  case overflow =>
    intro hf hv
    rw [countRaw_overflow hn hf hv]
    refine ⟨?_, fbit_fset_self _ _ hb 1, rfl⟩
    rw [fget_fset_granule _ ho.symm, fget_fset_self s (by omega) hh]
    exact Nat.mod_eq_of_lt (Nat.pred_lt (Nat.two_pow_pos _).ne')
  case flag =>
    have hlt := ovfBits_le b.kind b.idx 0
    rw [clearOvf_eq_foldl s data hk]
    exact foldl_range_only (fun t => fbit t (b.base + 0x700) i) (fun x => !data.getLsbD i && x) (by omega)
      (fun t => flag_clearCounter_self t hi) (fun t j hj hne => flag_clearCounter_ne t hne.symm hj) s
  case counter =>
    have hlt := ovfBits_le b.kind b.idx 0
    rw [clearOvf_eq_foldl s data hk]
    exact foldl_range_only (fun t => fget t (b.base + 0x200 + 8 * i) 63 0) (fun x => if data.getLsbD i then 0 else x) (by omega)
      (fun t => counter_clearCounter_self t hi) (fun t j _ hne => counter_clearCounter_ne t hne.symm (by omega)) s
  case frame =>
    intro s b data g hk hflag hcount
    rw [clearOvf_eq_foldl s data hk]
    exact foldl_keeps (fun t => regGet t g) (fun t i hi => regGet_clearCounter t hflag (hcount i (List.mem_range.1 hi))) s

end

/-! ## The queue of notices (R57, R60, R61, R495) -/

section

namespace Sys2Proof.Machine

/-! ### Queued or dropped -/

section
variable {s : State} (code service source tower detail : Nat)

/-- While fewer than 256 wait, a notice is queued. -/
theorem queueNotice_room (h : s.cmd.notices.length < 256) :
    queueNotice s code service source tower detail =
      ({ s with cmd := { s.cmd with
        seq := (s.cmd.seq + 1) % 2 ^ 32, stamp := s.cmd.stamp + 1,
        notices := s.cmd.notices ++ [⟨s.cmd.stamp, service, code, source, tower, curStep s, s.cmd.seq, s.now, detail⟩] } }, false) :=
  if_neg (Nat.not_le.2 h)

/-- While 256 wait, a notice consumes its seq value and the next one written will say so. -/
theorem queueNotice_full (h : 256 ≤ s.cmd.notices.length) :
    queueNotice s code service source tower detail =
      ({ s with cmd := { s.cmd with seq := (s.cmd.seq + 1) % 2 ^ 32, lostBefore := true } }, true) :=
  if_pos h

/-- A notice of no alert category is queued, or dropped with what a drop does. -/
theorem notice_of_no_alert (h : alertBit code = none) :
    notice s code service source tower detail =
      let r := queueNotice s code service source tower detail
      if r.2 then alertUpdate (noticeDropped r.1) else r.1 := by
  simp only [notice, h]

/-- A notice of an alert category sets its bit first. -/
theorem notice_of_alert {b : Nat} (h : alertBit code = some b) :
    notice s code service source tower detail =
      let r := queueNotice (setAlert s b) code service source tower detail
      if r.2 then alertUpdate (noticeDropped r.1) else r.1 := by
  simp only [notice, h]

end

/-- A drop that STN_NOTICE_DROPS has room for counts there and sets its alert. -/
theorem noticeDropped_counted {s : State} (hf : fbit s (stnBase + 0x700) 21 = false) (hv : fget s (stnBase + 0x1068) 63 0 < 2 ^ 64 - 1) :
    noticeDropped s = fset (fset s (stnBase + 0x1068) 63 0 (fget s (stnBase + 0x1068) 63 0 + 1)) (pipBase + 0x10) 7 7 1 := by
  simp only [noticeDropped, countRaw_within Nat.one_pos hf (show _ + 1 ≤ 2 ^ (63 + 1 - 0) - 1 from hv), Bool.false_eq_true, if_false]

/-! ### The alert pin and its count -/

theorem cmd_countRaw (s : State) (o hi lo fo b n : Nat) : (countRaw s o hi lo fo b n).1.cmd = s.cmd := by
  unfold countRaw
  dsimp only
  split_ifs <;> rfl

/-- While PIP_ALERTS has room, driving ALERT_L moves the pin and at most counts. -/
theorem alertUpdate_room {s : State} (h : fget s (pipBase + 0x200) 63 0 < 2 ^ 64 - 1) :
    ∃ u : State, u.ctl = s.ctl ∧ u.cmd = s.cmd ∧
      (alertUpdate s = u ∨ alertUpdate s = (countRaw u (pipBase + 0x200) 63 0 (pipBase + 0x700) 0 1).1) := by
  have hsilent (u : State) (hu : u.ctl.regs = s.ctl.regs) :
      (countRaw u (pipBase + 0x200) 63 0 (pipBase + 0x700) 0 1).2 = false :=
    countRaw_silent (show _ + 1 ≤ 2 ^ (63 + 1 - 0) - 1 by rw [fget_congr hu]; exact h)
  unfold alertUpdate
  dsimp only
  split
  · split
    · simp only [hsilent, Bool.false_eq_true, if_false]
      exact ⟨_, by rfl, by rfl, .inr rfl⟩
    · exact ⟨_, by rfl, by rfl, .inl rfl⟩
  · exact ⟨s, rfl, rfl, .inl rfl⟩

/-- It then raises no notice. -/
theorem cmd_alertUpdate_room {s : State} (h : fget s (pipBase + 0x200) 63 0 < 2 ^ 64 - 1) : (alertUpdate s).cmd = s.cmd := by
  obtain ⟨u, -, hcmd, hsame | hcount⟩ := alertUpdate_room h
  · rw [hsame, hcmd]
  · rw [hcount, cmd_countRaw, hcmd]

/-- It then moves no register but PIP_ALERTS and its flag. -/
theorem regGet_alertUpdate_room {s : State} {g : Nat} (h : fget s (pipBase + 0x200) 63 0 < 2 ^ 64 - 1) (hc : g ≠ pipBase + 0x200)
    (hf : g ≠ pipBase + 0x700) : regGet (alertUpdate s) g = regGet s g := by
  obtain ⟨u, hctl, -, hsame | hcount⟩ := alertUpdate_room h
  · unfold regGet; rw [hsame, hctl]
  · rw [hcount, regGet_countRaw _ _ _ _ _ _ _ hc hf]; unfold regGet; rw [hctl]

/-! ### Bits of PIP_ALERT_STATUS that are set -/

/-- Setting bit 7 of a register leaves every other bit that is 1. -/
theorem fbit_of_seven_set {s t : State} {g b : Nat} (h : regGet t g = setField (regGet s g) 7 7 1) (hb : fbit s g b = true) :
    fbit t g b = true := by
  have hs : getField (regGet s g) b b = 1 := of_decide_eq_true hb
  unfold fbit fget
  rw [h, decide_eq_true_eq]
  by_cases h7 : b = 7
  · subst h7; exact getField_setField_self (by decide) (by decide) _ 1
  · rw [getField_setField_ne (by decide) (by decide) (by omega), hs]

theorem fbit_of_regGet_eq {s t : State} {g b : Nat} (h : regGet t g = regGet s g) (hb : fbit s g b = true) : fbit t g b = true := by
  rw [fbit_eq_testBit, h, ← fbit_eq_testBit, hb]

theorem fbit_status_alertUpdate {s : State} {b : Nat} (h : fbit s (pipBase + 0x10) b = true) :
    fbit (alertUpdate s) (pipBase + 0x10) b = true := by
  rcases status_alertUpdate s with hsame | ⟨-, hseven⟩
  · exact fbit_of_regGet_eq hsame h
  · exact fbit_of_seven_set hseven h

/-- The bit of an alert category is a bit of a 64-bit register. -/
theorem alertBit_lt {code b : Nat} (h : alertBit code = some b) : b < 64 := by
  unfold alertBit at h
  split_ifs at h <;> cases h <;> decide

/-- Setting an alert sets its bit. -/
theorem fbit_setAlert (s : State) {b : Nat} (hb : b < 64) : fbit (setAlert s b) (pipBase + 0x10) b = true :=
  fbit_status_alertUpdate (fbit_fset_self s _ hb 1)

end Sys2Proof.Machine

open Sys2Proof Sys2Proof.Machine

/-- Settles O55: a notice is queued or dropped by the room there is; a drop counts and sets bit 7, and no later step clears a bit. -/
theorem noticeQueue : Obligations.NoticeQueue := by
  unfold Obligations.NoticeQueue
  refine ⟨?queued, ?dropped, ?alert⟩
  case queued =>
    intro s code service source tower detail ha hroom
    rw [notice_of_no_alert _ _ _ _ _ ha, queueNotice_room _ _ _ _ _ hroom]
    rfl
  case dropped =>
    intro s code service source tower detail ha hfull hf hdrops halerts
    let u : State := { s with cmd := { s.cmd with seq := (s.cmd.seq + 1) % 2 ^ 32, lostBefore := true } }
    let v := noticeDropped u
    have ht : notice s code service source tower detail = alertUpdate v := by
      rw [notice_of_no_alert _ _ _ _ _ ha, queueNotice_full _ _ _ _ _ hfull]
      rfl
    have hv : v = fset (fset u (stnBase + 0x1068) 63 0 (fget s (stnBase + 0x1068) 63 0 + 1)) (pipBase + 0x10) 7 7 1 :=
      noticeDropped_counted hf hdrops
    have hroom : fget v (pipBase + 0x200) 63 0 < 2 ^ 64 - 1 := by
      rw [hv, fget_fset_granule _ (by decide), fget_fset_granule _ (by decide)]
      exact halerts
    rw [ht]
    refine ⟨?_, ?_, ?_⟩
    · rw [cmd_alertUpdate_room hroom, hv]
      rfl
    · have hkept := congrArg (getField · 63 0) (regGet_alertUpdate_room (g := stnBase + 0x1068) hroom (by decide) (by decide))
      refine hkept.trans ?_
      rw [hv]
      refine (fget_fset_granule _ (by decide) ..).trans ((fget_fset_self _ (by decide) (by decide) ..).trans ?_)
      exact Nat.mod_eq_of_lt (by omega)
    · refine fbit_status_alertUpdate ?_
      rw [hv]
      exact fbit_fset_self _ _ (by decide) 1
  case alert =>
    intro s code service source tower detail b ha
    have hset := fbit_setAlert s (alertBit_lt ha)
    rw [notice_of_alert _ _ _ _ _ ha]
    dsimp only
    split
    · exact fbit_status_alertUpdate (fbit_of_seven_set (status_noticeDropped _)
        (fbit_of_regGet_eq (regGet_queueNotice ..) hset))
    · exact fbit_of_regGet_eq (regGet_queueNotice ..) hset

end

/-! ## A tick of the idle block (R54, R364) -/

section

namespace Sys2Proof.Machine

theorem step_idle {s : State} (h : s.pending = []) : step s = .next (idle s) := by
  simp only [step, h]

/-! ### What a tick finds not due -/

theorem warmTick_of_none {s : State} (h : s.boot.resets = []) : warmTick s = s := by
  simp only [warmTick, h, List.filter_nil, List.foldl_nil]

theorem serveWaiting_of_none {s : State} (h : s.fab.waitReads = []) : serveWaiting s = s := by
  simp only [serveWaiting, h, List.foldl_nil]
  rw [← h]

theorem serveHostReads_of_none {s : State} (h : s.pci.waiting = []) : serveHostReads s = s := by
  simp only [serveHostReads, h, List.foldl_nil]
  rw [← h]

/-- Port l in IDENT has heard its peer, or sent its own IDENT less than a microsecond ago (R349). -/
def identNotDue (s : State) (l : Nat) : Prop :=
  portState s l = 3 → (portAt s l).heard = true ∨ s.now < (portAt s l).identAt + 1000

theorem identTick_of_not_due {s : State} (h : ∀ e ∈ s.fab.ports, identNotDue s e.1) : identTick s = s := by
  have hnone : ((s.fab.ports.map (·.1)).filter fun l =>
      portState s l = 3 && !(portAt s l).heard && (portAt s l).identAt + 1000 ≤ s.now) = [] := by
    simp only [List.filter_eq_nil_iff, List.mem_map, Bool.and_eq_true, decide_eq_true_eq, Bool.not_eq_true']
    rintro l ⟨e, he, rfl⟩ ⟨⟨hst, hheard⟩, hdue⟩
    rcases h e he hst with hh | hlater
    · simp [hh] at hheard
    · omega
  simp only [identTick, hnone, List.foldl_nil]

/-- Bruise withholds every credit that port l owes (R444). -/
def creditNotDue (s : State) (l : Nat) : Prop := ∀ c ∈ (portAt s l).toReturn, s.now < c.2

theorem readyReturns_of_not_due {s : State} {l : Nat} (h : creditNotDue s l) : readyReturns (portAt s l) s.now = [] := by
  simpa [readyReturns, List.filter_eq_nil_iff] using fun k x hc => h (k, x) hc

theorem creditTick_of_not_due {s : State} (h : ∀ e ∈ s.fab.ports, creditNotDue s e.1) : creditTick s = s := by
  refine List.foldlRecOn _ _ (motive := fun t => t = s) rfl fun t ht l hl => ?_
  obtain ⟨e, he, rfl⟩ := List.mem_map.1 hl
  rw [ht, readyReturns_of_not_due (h e he)]
  simp

/-! ### What is left of a tick -/

/-- No nanosecond of a correction is due. -/
theorem slewed_of_not_due {s : State} (h : s.fab.slew = 0 ∨ s.now < s.fab.slewAt) : slewed s = s := if_pos h

/-- A due nanosecond is taken from the correction, unless its rate is held (R365). -/
theorem slewed_of_due {s : State} (h : ¬ (s.fab.slew = 0 ∨ s.now < s.fab.slewAt)) :
    slewed s = { s with fab := { s.fab with
      slew := if s.fab.holdRate then s.fab.slew else if 0 < s.fab.slew then s.fab.slew - 1 else s.fab.slew + 1, slewAt := s.now + 5000 } } :=
  if_neg h

theorem now_slewed (s : State) : (slewed s).now = s.now := by
  by_cases h : s.fab.slew = 0 ∨ s.now < s.fab.slewAt
  · rw [slewed_of_not_due h]
  · rw [slewed_of_due h]

/-- The state once time has passed and has taken its nanosecond of the correction. -/
def ticked (s : State) : State := { slewed s with now := (s.now + tickLength s) % 2 ^ 64 }

/-- Steering changes the correction alone. -/
theorem ticked_eq (s : State) :
    ∃ slew slewAt, ticked s =
      { s with now := (s.now + tickLength s) % 2 ^ 64, fab := { s.fab with slew := slew, slewAt := slewAt } } := by
  unfold ticked
  by_cases h : s.fab.slew = 0 ∨ s.now < s.fab.slewAt
  · rw [slewed_of_not_due h]; exact ⟨_, _, rfl⟩
  · rw [slewed_of_due h]; exact ⟨_, _, rfl⟩

/-- An idle step within a millisecond, with nothing due, lets time pass. -/
theorem idle_of_nothing_due {s : State} (hresets : s.boot.resets = []) (hreads : s.fab.waitReads = []) (hhost : s.pci.waiting = [])
    (hms : (s.now + tickLength s) / 1000000 = s.now / 1000000) (hident : ∀ e ∈ s.fab.ports, identNotDue (ticked s) e.1)
    (hcredit : ∀ e ∈ s.fab.ports, creditNotDue (ticked s) e.1) : idle s = settle (ticked s) := by
  obtain ⟨slew, slewAt, ht⟩ := ticked_eq s
  have hwarm : warmTick (ticked s) = ticked s := warmTick_of_none (by rw [ht]; exact hresets)
  have hserve : serveWaiting (ticked s) = ticked s := serveWaiting_of_none (by rw [ht]; exact hreads)
  have hhosts : serveHostReads (ticked s) = ticked s := serveHostReads_of_none (by rw [ht]; exact hhost)
  have hidents : identTick (ticked s) = ticked s := identTick_of_not_due (by rw [ht] at hident ⊢; exact hident)
  have hcredits : creditTick (ticked s) = ticked s := creditTick_of_not_due (by rw [ht] at hcredit ⊢; exact hcredit)
  unfold idle
  dsimp only
  rw [now_slewed, if_neg (by simpa using hms)]
  show settle (creditTick (identTick (serveHostReads (serveWaiting (warmTick (ticked s)))))) = _
  rw [hwarm, hserve, hhosts, hidents, hcredits]

end Sys2Proof.Machine

open Sys2Proof Sys2Proof.Machine

/-- Settles O44: with nothing due an idle step is a tick, which steers the clock or does not. -/
theorem idleStep : Obligations.IdleStep := by
  unfold Obligations.IdleStep
  intro s hpending hresets hreads hhost n hms hports later
  have hidle : idle s = settle (ticked s) := by
    obtain ⟨slew, slewAt, ht⟩ := ticked_eq s
    refine idle_of_nothing_due hresets hreads hhost hms (fun e he => ?_) (fun e he => ?_)
    · rw [ht]; exact (hports e he).1
    · rw [ht]; exact (hports e he).2
  rw [step_idle hpending, hidle]
  refine ⟨fun hdue => ?steady, fun hdue => ?steered⟩
  case steady => unfold ticked; rw [slewed_of_not_due hdue]; rfl
  case steered => unfold ticked; rw [slewed_of_due hdue]; rfl

end

/-! ## The pins after every step (R93, R492, R495) -/

section

namespace Sys2Proof.Machine

/-! ### What driving ALERT_L leaves of the pins -/

theorem pip_countRaw (s : State) (o hi lo fo b n : Nat) : (countRaw s o hi lo fo b n).1.pip = s.pip := by
  unfold countRaw
  dsimp only
  split_ifs <;> rfl

theorem pip_queueNotice (s : State) (code service source tower detail : Nat) :
    (queueNotice s code service source tower detail).1.pip = s.pip := by
  unfold queueNotice
  dsimp only
  split_ifs <;> rfl

theorem pip_noticeDropped (s : State) : (noticeDropped s).pip = s.pip := by
  unfold noticeDropped
  dsimp only
  rw [fset_pip]
  split_ifs
  · rw [pip_queueNotice, pip_countRaw]
  · rw [pip_countRaw]

theorem pip_overflowNotice (s : State) (k : BK) (o n : Nat) : (overflowNotice s k o n).pip = s.pip := by
  unfold overflowNotice
  dsimp only
  split_ifs
  · rw [pip_noticeDropped, pip_queueNotice]
  · rw [pip_queueNotice]

/-- PIP_ALERT_STATUS AND PIP_ALERT_MASK (R495). -/
def maskedAlerts (s : State) : Nat := fget s (pipBase + 0x10) 8 0 &&& fget s (pipBase + 0x18) 8 0

/-- While the pins are in their RUN functions, ALERT_L takes the level of the masked status and RDY keeps its own. -/
theorem pip_alertUpdate {s : State} (h : s.boot.pinsRun = true) :
    (alertUpdate s).pip = { s.pip with alert := decide (maskedAlerts s ≠ 0) } := by
  unfold alertUpdate
  dsimp only
  split_ifs with hchange hon hover
  · rw [pip_overflowNotice, pip_countRaw]; rfl
  · rw [pip_countRaw]; rfl
  · rfl
  · have hsame : decide (maskedAlerts s ≠ 0) = s.pip.alert := by
      by_contra hne
      exact hchange ⟨h, fun he => hne (Bool.eq_iff_iff.2 (decide_eq_true_iff.trans (iff_of_eq he)))⟩
    rw [hsame]

/-- An overflow of PIP_ALERTS may set bit 7 of the status, but only while it is masked in already. -/
theorem maskedAlerts_alertUpdate (s : State) : maskedAlerts (alertUpdate s) ≠ 0 ↔ maskedAlerts s ≠ 0 := by
  have hmask : fget (alertUpdate s) (pipBase + 0x18) 8 0 = fget s (pipBase + 0x18) 8 0 := by
    unfold fget; rw [regGet_alertUpdate s (by decide)]
  unfold maskedAlerts
  rw [hmask]
  rcases status_alertUpdate s with hsame | ⟨hon, hseven⟩
  · unfold fget; rw [hsame]
  · refine iff_of_true ?_ hon
    unfold fget at hon ⊢
    rw [hseven]
    exact masked_ne_zero hon

/-- Once ALERT_L has been driven, the pins agree with the registers if RDY did. -/
theorem pinsInv_alertUpdate {s : State} (h : s.boot.pinsRun = true → s.pip.rdy = decide (fget s (stnBase + 0x1018) 63 32 ≠ s.cmd.recHead)) :
    (alertUpdate s).PinsInv := by
  have hstill := still_alertUpdate s
  have hboot : (alertUpdate s).boot = s.boot := boot_of_still hstill
  have hhead : (alertUpdate s).cmd.recHead = s.cmd.recHead := congrArg (fun x => x.cmd.recHead) hstill
  have htail : fget (alertUpdate s) (stnBase + 0x1018) 63 32 = fget s (stnBase + 0x1018) 63 32 := by
    unfold fget; rw [regGet_alertUpdate s (by decide)]
  intro hrun
  rw [hboot] at hrun
  rw [pip_alertUpdate hrun, hhead, htail]
  exact ⟨decide_eq_decide.2 (maskedAlerts_alertUpdate s).symm, h hrun⟩

/-- However a meaning leaves the registers, letting the pins follow makes them agree (R93, R495). -/
theorem pinsInv_settle (s : State) : (settle s).PinsInv := by
  unfold settle
  dsimp only
  split_ifs with hrun hrdy
  · exact pinsInv_alertUpdate fun _ => hrdy.symm
  · exact pinsInv_alertUpdate fun _ => rfl
  · exact fun h => absurd h hrun

/-! ### Every step ends by letting the pins follow -/

/-- An outcome whose next state, if it answers one, has its pins follow the registers. -/
def PinsSettled (o : Host.Outcome State Fault Refusal) : Prop := ∀ t, o = .next t → t.PinsInv

theorem pinsSettled_finish (s : State) : PinsSettled (finish s) := by
  rintro t ⟨⟩
  exact pinsInv_settle s

theorem pinsSettled_shaped (ok : Bool) (name : String) (s : State) : PinsSettled (shaped ok name s) := by
  cases ok with
  | false => rintro t ⟨⟩
  | true => exact pinsSettled_finish s

theorem pinsSettled_planImageCopied (index : W32) (image : HostData) (s : State) : PinsSettled (execPlanImageCopied index image s) := by
  unfold execPlanImageCopied
  split
  · exact pinsSettled_shaped _ _ _
  · exact pinsSettled_finish _

theorem pinsSettled_mgang (tower : BitVec 4) (core : BitVec 9) (service : Bool) (found : List GangHit) (i : Ins) (s : State) :
    PinsSettled (execMgang tower core service found i s) := by
  cases service with
  | true => exact pinsSettled_shaped _ _ _
  | false => exact pinsSettled_shaped _ _ _

/-- Every command ends in `finish` or in `shaped`; two choose by their operands first. -/
theorem pinsSettled_exec (c : Instr) (s : State) : PinsSettled (exec c s) := by
  cases c with
  | planImageCopied index image => exact pinsSettled_planImageCopied _ _ _
  | mgang tower core service found ins => exact pinsSettled_mgang _ _ _ _ _ _
  | _ => first | exact pinsSettled_finish _ | exact pinsSettled_shaped _ _ _

end Sys2Proof.Machine

open Sys2Proof Sys2Proof.Machine

/-- Settles O54: a step is an idle tick or a command, and either ends by letting the pins follow the registers. -/
theorem pinsFollow : Obligations.PinsFollow := by
  unfold Obligations.PinsFollow
  intro s t h
  unfold step at h
  split at h
  · cases h
    exact pinsInv_settle _
  · exact pinsSettled_exec _ _ t h

end

/-! ## What a register result leaves unchanged (R72, R94, R98, R100) -/

section

namespace Sys2Proof.Machine

/-! ### What a landing result leaves of its core (R94, R98) -/

/-- A result that lands changes register files and their poison tags alone. -/
theorem land_registers_only (c : Core) (w : RegW) :
    c.land w = { c with s := (c.land w).s, sTag := (c.land w).sTag, p := (c.land w).p, v := (c.land w).v, vTag := (c.land w).vTag } := by
  cases w <;> simp only [Core.land] <;> split_ifs <;> rfl

/-- A scalar register that the result does not name reads as before. -/
theorem sGet_land_ne (c : Core) {w : RegW} {n : Nat} (h : w.reg ≠ .s n) : (c.land w).sGet n = c.sGet n := by
  cases w with
  | sreg d v tag =>
    have hd : n ≠ d := fun e => h (by rw [e]; rfl)
    simp only [Core.land]
    split_ifs
    · rfl
    · simp only [Core.sGet, tget_tset_ne _ _ _ hd]
  | preg d m v => simp only [Core.land]; split_ifs <;> rfl
  | vreg d m v tags => rfl

/-- A predicate register that the result does not name reads as before. -/
theorem pGet_land_ne (c : Core) {w : RegW} {n : Nat} (h : w.reg ≠ .p n) : (c.land w).pGet n = c.pGet n := by
  cases w with
  | sreg d v tag => simp only [Core.land]; split_ifs <;> rfl
  | preg d m v =>
    have hd : n ≠ d := fun e => h (by rw [e]; rfl)
    simp only [Core.land]
    split_ifs
    · rfl
    · simp only [Core.pGet, tget_tset_ne _ _ _ hd]
  | vreg d m v tags => rfl

/-- A vector register that the result does not name reads as before. -/
theorem vGet_land_ne (c : Core) {w : RegW} {n : Nat} (h : w.reg ≠ .v n) : (c.land w).vGet n = c.vGet n := by
  cases w with
  | sreg d v tag => simp only [Core.land]; split_ifs <;> rfl
  | preg d m v => simp only [Core.land]; split_ifs <;> rfl
  | vreg d m v tags =>
    have hd : n ≠ d := fun e => h (by rw [e]; rfl)
    exact congrArg (fun o => Option.getD o (if c.vstamp = 0 then 0 else Config.freeVreg (c.vstamp - 1) n)) (tget?_tput_ne c.v _ hd)

/-! ### What the pins and one core's update leave of the state -/

theorem coreOf_settle (s : State) (pk : Nat) : coreOf (settle s) pk = coreOf s pk := by
  unfold coreOf
  rw [cores_of_still (still_settle s)]

/-- A state in which one core has been put, with the pins following: every other core, memory and every register but those of the alerts are
as before, and so is all that `still` keeps. -/
theorem frame_settle_setCore (s : State) (pk : Nat) (c : Core) :
    let u := settle (setCore s pk c)
    (∀ n, n ≠ pk → coreOf u n = coreOf s n) ∧ u.still = { s with cores := u.cores }.still ∧
    (∀ a, u.mem.read a = s.mem.read a ∧ u.mem.syndrome a = s.mem.syndrome a) ∧ ∀ g, g ∉ alertRegs → regGet u g = regGet s g := by
  have hstill : (settle (setCore s pk c)).still = (setCore s pk c).still := still_settle _
  have hmem : (settle (setCore s pk c)).mem = s.mem := (mem_of_still hstill).trans (setCore_mem ..)
  refine ⟨fun n hn => ?_, ?_, fun a => ?_, fun g hg => regGet_settle _ hg⟩
  · rw [coreOf_settle, coreOf_setCore_ne s c hn]
  · rw [hstill, cores_of_still hstill]; rfl
  · rw [hmem]; exact ⟨rfl, rfl⟩

end Sys2Proof.Machine

open Sys2Proof Sys2Proof.Machine

/-- Settles O58: each end state puts one core, and of that core a landing result touches only the register it names. -/
theorem frameOfResults : Obligations.FrameOfResults := by
  unfold Obligations.FrameOfResults
  refine ⟨?frame, fun s i w => ?wrote, fun s i L w k => ?flying⟩
  case frame =>
    rintro s i t ⟨w, L, k, f, rfl | rfl | rfl⟩
    · exact frame_settle_setCore ..
    · exact frame_settle_setCore ..
    · exact frame_settle_setCore ..
  case wrote =>
    have hcore : coreOf (settle (s.wrote i w)) (physCore s i.core.toNat) = (s.coreFor i).past.land w :=
      (coreOf_settle ..).trans (coreOf_setCore ..)
    dsimp only
    rw [hcore]
    exact ⟨land_registers_only .., fun n hn => sGet_land_ne _ hn, fun n hn => pGet_land_ne _ hn, fun n hn => vGet_land_ne _ hn⟩
  case flying => exact (coreOf_settle ..).trans (coreOf_setCore ..)

end

/-! ## The record of a fault (R82, R126 to R128) -/

section

namespace Sys2Proof.Machine

/-! ### The fault record of a core (R127, R128) -/

/-- CORE_FAULT_INFO as a fault fills it (R128). -/
def faultInfo (lc pc slot cls attempt : Nat) : Nat :=
  1 + cls * 2 ^ 8 + Nat.min attempt 2 * 2 ^ 16 + slot * 2 ^ 18 + pc % 4096 * 2 ^ 20 + lc * 2 ^ 32

/-- Recording a fault stores the two registers of the physical core. -/
theorem recordFault_eq (s : State) (lc pc slot cls dev addr : Nat) :
    let base := coreBase (physCore s lc / 272) (physCore s lc % 272)
    recordFault s lc pc slot cls dev addr =
      regPut (regPut s (base + 0x100) (BitVec.ofNat 64 (faultInfo lc pc slot cls (coreOf s (physCore s lc)).attempt)))
        (base + 0x108) (BitVec.ofNat 64 (addr % 2 ^ 48 + dev * 2 ^ 48)) := rfl

/-- A field of a register that has just been stored with a number below 2^64. -/
theorem getField_ofNat {n : Nat} (h : n < 2 ^ 64) (hi lo : Nat) : getField (BitVec.ofNat 64 n) hi lo = n / 2 ^ lo % 2 ^ (hi + 1 - lo) := by
  rw [getField, bits, BitVec.toNat_ofNat, Nat.mod_eq_of_lt h, Nat.shiftRight_eq_div_pow]

section
variable {lc pc slot cls attempt : Nat} (hlc : lc < 4096) (hslot : slot < 4) (hcls : cls < 256)
include hlc hslot hcls

theorem faultInfo_lt : faultInfo lc pc slot cls attempt < 2 ^ 64 := by
  have : Nat.min attempt 2 ≤ 2 := Nat.min_le_right ..
  unfold faultInfo
  omega

/-- Each field of CORE_FAULT_INFO holds its part of the record. -/
theorem faultInfo_fields :
    let w := BitVec.ofNat 64 (faultInfo lc pc slot cls attempt)
    getField w 43 32 = lc ∧ getField w 31 20 = pc % 4096 ∧ getField w 19 18 = slot ∧ getField w 17 16 = Nat.min attempt 2 ∧
      getField w 15 8 = cls ∧ getField w 0 0 = 1 := by
  have hmin : Nat.min attempt 2 ≤ 2 := Nat.min_le_right ..
  dsimp only
  simp only [getField_ofNat (faultInfo_lt (pc := pc) (attempt := attempt) hlc hslot hcls)]
  unfold faultInfo
  omega

end

/-- The fields of CORE_FAULT_ADDR: the device and the 48-bit address. -/
theorem faultAddr_fields {dev : Nat} (addr : Nat) (hdev : dev < 2 ^ 16) :
    let w := BitVec.ofNat 64 (addr % 2 ^ 48 + dev * 2 ^ 48)
    getField w 63 48 = dev ∧ getField w 47 0 = addr % 2 ^ 48 := by
  simp only [getField_ofNat (show addr % 2 ^ 48 + dev * 2 ^ 48 < 2 ^ 64 by omega)]
  omega

end Sys2Proof.Machine

open Sys2Proof Sys2Proof.Machine

/-- Settles O56: the record is two stored registers, and a window violation counts it and stops the plan. -/
theorem faultRecord : Obligations.FaultRecord := by
  unfold Obligations.FaultRecord
  refine ⟨fun s lc pc slot cls dev addr hlc hslot hcls hdev => ?record, fun s lc pc slot cls dev addr => rfl⟩
  case record =>
    dsimp only
    rw [recordFault_eq]
    generalize coreBase (physCore s lc / 272) (physCore s lc % 272) = base
    refine ⟨?_, ?_, fun g hinfo haddr => ?_, (still_regPut ..).trans (still_regPut ..)⟩
    · simp only [fget, regGet_regPut_ne _ _ (show base + 0x100 ≠ base + 0x108 by omega), regGet_regPut_self]
      exact faultInfo_fields hlc hslot hcls
    · simp only [fget, regGet_regPut_self]
      exact faultAddr_fields addr hdev
    · rw [regGet_regPut_ne _ _ haddr, regGet_regPut_ne _ _ hinfo]

end

/-! ## O12: SIG, ARRIVE, WAIT, RSLEEP and PREF (R114, R120, R122, R130) -/

section

namespace Sys2Proof.Machine

/-! ### A bundle of one instruction that works beside its core's passing (R100) -/

/-- A change of a core that neither sees nor moves what passing a bundle moves, and puts no result in flight. -/
def Beside (f : Core → Core) : Prop :=
  ∀ d, (f d).fly = d.fly ∧ (f d).cyc = d.cyc ∧
    ∀ pc delay cyc stream, { f d with pc := pc, delay := delay, cyc := cyc, stream := stream } =
      f { d with pc := pc, delay := delay, cyc := cyc, stream := stream }

/-- Putting a core in place of one that was put there before. -/
theorem modCore_setCore {s : State} {pk : Nat} {c : Core} {f : Core → Core} (hc : c.st ≠ .off) (hf : (f c).st ≠ .off) :
    modCore (setCore s pk c) pk f = setCore s pk (f c) := by
  rw [modCore, coreOf_setCore, setCore_setCore (ne_init_of_st hc) (ne_init_of_st hf)]

/-- A core that has been sent one instruction and nothing before it. -/
def Core.sent (c : Core) (o : KOp) (i : Ins) : Core := { c with stream := [⟨o, i⟩] }

section
variable {o : KOp} {i : Ins} {s u : State} {f : Core → Core}

/-- The parts of `Alone` that say in what condition the core is. -/
theorem Alone.core_eq (h : Alone o i s) : (s.coreFor i).st = .run ∧ (s.coreFor i).eng = [] ∧ (s.coreFor i).fly = [] ∧
    (o = .commit ∨ (s.coreFor i).nextPc < bundleCount s i.core.toNat) := by
  obtain ⟨⟨⟨hrun, -, hfly, -, heng, -⟩, -, -, -, hpc⟩, -⟩ := h
  exact ⟨hrun, heng, hfly, hpc⟩

theorem Alone.sent_on (h : Alone o i s) : ((s.coreFor i).sent o i).st ≠ .off := by
  obtain ⟨hrun, -⟩ := h.core_eq
  show (s.coreFor i).st ≠ .off
  rw [hrun]
  decide

/-- The core once it has passed the bundle is the changed core that has passed it. -/
theorem advance_beside (h : Alone o i s) (hb : isBranch o = false) (hf : Beside f) :
    { (f ((s.coreFor i).sent o i)).advance ((s.coreFor i).sent o i) [⟨o, i⟩] with stream := [] } =
      f (s.coreFor i).past := by
  obtain ⟨⟨⟨-, hstream, hnofly, -⟩, -⟩, -⟩ := h
  obtain ⟨hfly, hcyc, hpass⟩ := hf ((s.coreFor i).sent o i)
  rw [advance_plain hb (hfly.trans hnofly), hcyc]
  refine (hpass ..).trans (congrArg f ?_)
  rw [← hstream]
  rfl

/-- An instruction alone that is no branch and no COMMIT: its core passes the bundle, and the rest of its effect stands. -/
theorem submit_beside (h : Alone o i s) (hb : isBranch o = false) (hco : o ≠ .commit) (hf : Beside f)
    (hkeep : ∀ d, (f d).st = d.st ∧ (f d).eng = d.eng)
    (he : effect (setCore s (physCore s i.core.toNat) ((s.coreFor i).sent o i)) (physCore s i.core.toNat) i.core.toNat
      ((s.coreFor i).sent o i) o i = setCore u (physCore s i.core.toNat) (f ((s.coreFor i).sent o i)))
    (hu : physCore u i.core.toNat = physCore s i.core.toNat) (hbc : bundleCount u i.core.toNat = bundleCount s i.core.toNat) :
    submit o i s = setCore u (physCore s i.core.toNat) (f (s.coreFor i).past) := by
  obtain ⟨hrun, heng, hnofly, hpc⟩ := h.core_eq
  obtain ⟨hfly, hcyc, -⟩ := hf ((s.coreFor i).sent o i)
  obtain ⟨hst, hqueue⟩ := hkeep ((s.coreFor i).sent o i)
  have hplain := advance_plain (c := (s.coreFor i).sent o i) (i := i) hb (hfly.trans hnofly)
  rw [← advance_beside h hb hf]
  exact submit_core h _ he hu hbc rfl (hst.trans hrun) (by rw [hplain]; exact hst.trans hrun) (by rw [hplain]; exact hqueue.trans heng)
    (by rw [hplain]; exact hpc.resolve_left hco)

end

/-! ### SIG, ARRIVE, WAIT and RSLEEP (R78, R120, R122, R130) -/

/-- One local effect at its place in the share: counted, and counted as issued unless an earlier attempt issued it (R78). -/
theorem takeEffect_new {s : State} {lc k : Nat} (h : tget 0 (routerOf s lc).effLocal k < tget 0 (routerOf s lc).cur k + 1) :
    takeEffect s lc k false 1 =
      (modRouter s lc fun r => { r with
        cur := tput r.cur k (tget 0 (routerOf s lc).cur k + 1), effLocal := tput r.effLocal k (tget 0 (routerOf s lc).cur k + 1) }, true) := by
  simp only [takeEffect, Bool.false_eq_true, if_false, false_or, false_and, if_neg (Nat.not_le.2 h), decide_eq_true h]

theorem takeEffect_old {s : State} {lc k : Nat} (h : tget 0 (routerOf s lc).cur k + 1 ≤ tget 0 (routerOf s lc).effLocal k) :
    takeEffect s lc k false 1 =
      (modRouter s lc fun r => { r with cur := tput r.cur k (tget 0 (routerOf s lc).cur k + 1) }, false) := by
  simp only [takeEffect, Bool.false_eq_true, if_false, false_or, false_and, if_pos h, decide_eq_false (Nat.not_lt.2 h)]

/-- bundle_count is read from the loaded plan, which the run names by its handle. -/
theorem bundleCount_congr {s u : State} {r r' : Run} (hs : s.run = some r) (hu : u.run = some r') (hh : r'.handle = r.handle)
    (hplans : u.plans = s.plans) (lc : Nat) : bundleCount u lc = bundleCount s lc := by
  simp only [bundleCount, runPlan, hs, hu, Option.bind_some, hh, hplans]

/-- The core with a SIG entered among the commands of its share that have effects. -/
def Core.signalled (c d : Core) : Core := { d with nextId := c.nextId + 1, effNext := c.effNext + 1 }

theorem beside_signalled (c : Core) : Beside c.signalled := fun _ => ⟨rfl, rfl, fun _ _ _ _ => rfl⟩

/-- The count of the effects computed at the place in its share of the command that core c issues next (R78). -/
def State.computedNext (s : State) (lc : Nat) (c : Core) : Nat := tget 0 (routerOf s lc).cur c.effNext + 1

/-- A SIG has been counted as computed and as issued, and is in flight to the core it names. -/
def State.sigIssued (s : State) (lc : Nat) (c : Core) (i : Ins) (r : Run) : State :=
  { s with
    routers := tmod Router.init s.routers lc fun x =>
      { x with cur := tput x.cur c.effNext (s.computedNext lc c), effLocal := tput x.effLocal c.effNext (s.computedNext lc c) }
    run := some { r with sigs := r.sigs ++ [⟨lc, (c.sGet i.a.toNat).toNat, i.im 19 16, c.nextId⟩] } }

/-- A SIG that an earlier attempt issued has been counted as computed. -/
def State.sigComputed (s : State) (lc : Nat) (c : Core) : State :=
  { s with routers := tmod Router.init s.routers lc fun x => { x with cur := tput x.cur c.effNext (s.computedNext lc c) } }

theorem issueSig_new {s : State} {pk lc : Nat} {c : Core} {i : Ins} {r : Run} (hc : coreOf s pk = c) (hr : s.run = some r)
    (hn : tget 0 (routerOf s lc).effLocal c.effNext < s.computedNext lc c) :
    issueSig s pk lc c i = setCore (s.sigIssued lc c i r) pk (c.signalled c) := by
  subst hc
  have hrun (f : Router → Router) (g : Core → Core) : (modCore (modRouter s lc f) pk g).run = some r := hr
  simp only [issueSig, takeEffect_new hn, hrun, Bool.not_true, Bool.false_eq_true, if_false]
  rfl

theorem issueSig_old {s : State} {pk lc : Nat} {c : Core} {i : Ins} (hc : coreOf s pk = c)
    (hn : s.computedNext lc c ≤ tget 0 (routerOf s lc).effLocal c.effNext) :
    issueSig s pk lc c i = setCore (s.sigComputed lc c) pk (c.signalled c) := by
  subst hc
  simp only [issueSig, takeEffect_old hn, Bool.not_false, if_true]
  rfl

/-- The core waiting for the k-th instance of a scope (R122). -/
def Core.joined (c : Core) (i : Ins) (k : Nat) (d : Core) : Core :=
  { d with nextId := c.nextId + 1, waits := d.waits ++ [⟨i.im 25 24, k, i.im 19 16, c.nextId⟩] }

/-- The number of the instance of its scope that an ARRIVE of a logical core joins. -/
def State.nextInstance (s : State) (lc : Nat) (i : Ins) : Nat := tget 0 (routerOf s lc).arrK (i.im 25 24)

/-- The router has counted an ARRIVE, which stands at the instance it joined. -/
def State.joined (s : State) (lc : Nat) (i : Ins) : State :=
  let sc := i.im 25 24
  let k := s.nextInstance lc i
  { s with routers := tmod Router.init s.routers lc fun x =>
    { x with arrK := tput x.arrK sc (k + 1), standing := if (sc, k) ∈ x.standing then x.standing else x.standing ++ [(sc, k)] } }

theorem issueArrive_eq {s : State} {pk lc : Nat} {c : Core} {i : Ins} (hc : coreOf s pk = c) :
    issueArrive s pk lc i = setCore (s.joined lc i) pk (c.joined i (s.nextInstance lc i) c) := by
  subst hc
  simp only [issueArrive, List.contains_iff_mem]
  rfl

/-- The core whose token counter has been decreased by what a WAIT asks for (R120). -/
def Core.waited (i : Ins) (c : Core) : Core := { c with tok := tset 0 c.tok (i.im 19 16) (tget 0 c.tok (i.im 19 16) - i.im 15 0) }

/-- The region that an RSLEEP names is to be parked at the next commit (R130). -/
def State.parking (s : State) (lc : Nat) (i : Ins) (r : Run) : State :=
  { s with run := some { r with toPark := sadd r.toPark (lc / 256 * 16 + i.im 3 0) } }

theorem issueSleep_eq {s : State} {lc : Nat} {i : Ins} {r : Run} (hr : s.run = some r) : issueSleep s lc i = s.parking lc i r := by
  simp only [issueSleep, hr]
  rfl

/-- The core put in place of the one that an instruction was sent to. -/
theorem setCore_sent {o : KOp} {i : Ins} {s : State} (h : Alone o i s) (t : State) {d : Core} (hd : d.st = (s.coreFor i).st) :
    setCore (setCore t (physCore s i.core.toNat) ((s.coreFor i).sent o i)) (physCore s i.core.toNat) d =
      setCore t (physCore s i.core.toNat) d :=
  setCore_setCore (ne_init_of_st h.sent_on) (ne_init_of_st (by rw [hd]; exact h.sent_on))

/-- A row of an instruction alone ends in what sending it makes, with the pins following. -/
theorem kci_of_submit {o : KOp} {i : Ins} {s t : State} {n : String} (h : Alone o i s) (ht : submit o i s = t) :
    kci o n i s = .next (settle t) := by
  rw [kci_alone h, ht]

section
variable (s : State) (pk lc : Nat) (d c : Core) (o : KOp) (i : Ins) (r : Run)

theorem effect_sig : effect s pk lc c .sig i = issueSig s pk lc c i := rfl

theorem computedNext_sent : (setCore s pk d).computedNext lc (c.sent o i) = s.computedNext lc c := rfl

theorem signalled_sent : (c.sent o i).signalled = c.signalled := rfl

theorem sigIssued_sent : (setCore s pk d).sigIssued lc (c.sent o i) i r = setCore (s.sigIssued lc c i r) pk d := rfl

theorem sigComputed_sent : (setCore s pk d).sigComputed lc (c.sent o i) = setCore (s.sigComputed lc c) pk d := rfl

end

section
variable {i : Ins} {s : State}

theorem submit_sig_new {r : Run} (h : Alone .sig i s) (hr : s.run = some r)
    (hn : tget 0 (routerOf s i.core.toNat).effLocal (s.coreFor i).effNext < s.computedNext i.core.toNat (s.coreFor i)) :
    submit .sig i s = setCore (s.sigIssued i.core.toNat (s.coreFor i) i r) (physCore s i.core.toNat)
      ((s.coreFor i).signalled (s.coreFor i).past) := by
  refine submit_beside (f := (s.coreFor i).signalled) h rfl (by decide) (beside_signalled _) (fun _ => ⟨rfl, rfl⟩) ?effect ?phys ?count
  case effect =>
    rw [effect_sig, issueSig_new (r := r) (coreOf_setCore ..) hr (by rw [computedNext_sent]; exact hn), sigIssued_sent, signalled_sent]
    exact setCore_sent h _ rfl
  case phys => rfl
  case count => exact bundleCount_congr hr (u := s.sigIssued i.core.toNat (s.coreFor i) i r) rfl rfl rfl _

theorem submit_sig_old (h : Alone .sig i s)
    (hn : s.computedNext i.core.toNat (s.coreFor i) ≤ tget 0 (routerOf s i.core.toNat).effLocal (s.coreFor i).effNext) :
    submit .sig i s = setCore (s.sigComputed i.core.toNat (s.coreFor i)) (physCore s i.core.toNat)
      ((s.coreFor i).signalled (s.coreFor i).past) := by
  refine submit_beside (f := (s.coreFor i).signalled) h rfl (by decide) (beside_signalled _) (fun _ => ⟨rfl, rfl⟩) ?effect ?phys ?count
  case effect =>
    rw [effect_sig, issueSig_old (coreOf_setCore ..) (by rw [computedNext_sent]; exact hn), sigComputed_sent, signalled_sent]
    exact setCore_sent h _ rfl
  case phys => rfl
  case count => rfl

theorem submit_arrive (h : Alone .arrive i s) :
    submit .arrive i s = setCore (s.joined i.core.toNat i) (physCore s i.core.toNat)
      ((s.coreFor i).joined i (s.nextInstance i.core.toNat i) (s.coreFor i).past) := by
  refine submit_beside (f := (s.coreFor i).joined i (s.nextInstance i.core.toNat i)) h rfl (by decide)
    (fun _ => ⟨rfl, rfl, fun _ _ _ _ => rfl⟩) (fun _ => ⟨rfl, rfl⟩) ?effect ?phys ?count
  case effect => exact (issueArrive_eq (coreOf_setCore ..)).trans (setCore_sent h (s.joined i.core.toNat i) rfl)
  case phys => rfl
  case count => rfl

theorem submit_wait (h : Alone .wait i s) : submit .wait i s = s.passed i (Core.waited i) := by
  refine submit_beside h rfl (by decide) (fun _ => ⟨rfl, rfl, fun _ _ _ _ => rfl⟩) (fun _ => ⟨rfl, rfl⟩) ?effect rfl rfl
  show modCore _ _ (Core.waited i) = _
  refine modCore_setCore h.sent_on ?_
  exact h.sent_on

theorem submit_rsleep {r : Run} (h : Alone .rsleep i s) (hr : s.run = some r) :
    submit .rsleep i s = setCore (s.parking i.core.toNat i r) (physCore s i.core.toNat) (s.coreFor i).past := by
  refine submit_beside (f := id) h rfl (by decide) (fun _ => ⟨rfl, rfl, fun _ _ _ _ => rfl⟩) (fun _ => ⟨rfl, rfl⟩) ?effect ?phys ?count
  case effect => exact issueSleep_eq hr
  case phys => rfl
  case count => exact bundleCount_congr hr (u := s.parking i.core.toNat i r) rfl rfl rfl _

end

/-! ### PREF (R114, R125) -/

theorem rangeOk_setCore (s : State) (pk : Nat) (d : Core) (f : Place → Bool) (a n : Nat) :
    rangeOk (setCore s pk d) f a n = rangeOk s f a n := by
  simp only [rangeOk, badAddr_setCore]

/-- A PREF of a tagged address, of one that is misaligned or of lines that leave the fast tier is dropped. -/
theorem issuePref_dropped {s : State} {pk : Nat} {c : Core} {i : Ins} (h : (tget? c.sTag i.a.toNat).isSome = true ∨
    aligned 128 (c.sGet i.a.toNat).toNat = false ∨ rangeOk s Place.isFast ((c.sGet i.a.toNat).toNat % 2 ^ 48) (128 * i.im 15 0) = false) :
    issuePref s pk c i = s := by
  have haligned : aligned 128 ((c.sGet i.a.toNat).toNat % 2 ^ 48) = aligned 128 (c.sGet i.a.toNat).toNat := by
    simp only [aligned, Nat.mod_mod_of_dvd _ (show 128 ∣ 2 ^ 48 by decide)]
  refine if_pos (.inr ?_)
  rw [haligned, show i.imm16 = i.im 15 0 from rfl]
  rcases h with htag | hali | hrange
  · exact .inl htag
  · exact .inr (.inl (by rw [hali]; rfl))
  · exact .inr (.inr (by rw [hrange]; rfl))

/-- A PREF that is dropped only passes its core. -/
theorem submit_pref_dropped {i : Ins} {s : State} (h : Alone .pref i s) (hdrop : (tget? (s.coreFor i).sTag i.a.toNat).isSome = true ∨
    aligned 128 ((s.coreFor i).sGet i.a.toNat).toNat = false ∨
    rangeOk s Place.isFast (((s.coreFor i).sGet i.a.toNat).toNat % 2 ^ 48) (128 * i.im 15 0) = false) :
    submit .pref i s = s.passed i id := by
  refine submit_beside (f := id) h rfl (by decide) (fun _ => ⟨rfl, rfl, fun _ _ _ _ => rfl⟩) (fun _ => ⟨rfl, rfl⟩) ?_ rfl rfl
  exact issuePref_dropped (by rw [rangeOk_setCore]; exact hdrop)

/-- A PREF alone: its core passes the bundle in the state that the lines have been carried to. -/
theorem submit_pref {i : Ins} {s : State} (h : Alone .pref i s) :
    let pk := physCore s i.core.toNat
    let c1 : Core := { s.coreFor i with stream := [⟨.pref, i⟩] }
    let u := issuePref (setCore s pk c1) pk c1 i
    submit .pref i s = setCore u pk { coreOf u pk with
      pc := (s.coreFor i).nextPc, delay := none, cyc := (s.coreFor i).cyc + 1, stream := [] } := by
  intro pk c1 u
  obtain ⟨hrun, heng, hfly, hpc⟩ := h.core_eq
  have hquiet : Quiet (setCore s pk c1) u := quiet_issuePref ..
  have hphys : physCore u i.core.toNat = physCore s i.core.toNat := hquiet.physCore i.core.isLt
  have hcount : bundleCount u i.core.toNat = bundleCount s i.core.toNat := hquiet.bundleCount _
  obtain ⟨-, -, -, hcores⟩ := hquiet
  obtain ⟨l, p, hcore⟩ := hcores pk
  rw [coreOf_setCore] at hcore
  have hadvance : (coreOf u pk).advance c1 [⟨.pref, i⟩] =
      { coreOf u pk with pc := (s.coreFor i).nextPc, delay := none, cyc := (s.coreFor i).cyc + 1 } := by
    rw [advance_plain rfl (by rw [hcore]; exact hfly), hcore]
    rfl
  exact submit_inPlace h rfl hphys hcount hadvance (by rw [hcore]; exact hrun) (by rw [hcore]; exact heng) (hpc.resolve_left (by decide))

end Sys2Proof.Machine

open Sys2Proof Sys2Proof.Machine

/-- Settles O12: SIG, ARRIVE, WAIT and RSLEEP work beside the bundle's passing, and so does a PREF that is dropped; any other PREF
changes only what the caches may. -/
theorem syncIssue : Obligations.SyncIssue := by
  unfold Obligations.SyncIssue
  refine ⟨fun i s r h hr => ⟨fun hn => kci_of_submit h (submit_sig_new h hr hn), fun hn => kci_of_submit h (submit_sig_old h hn)⟩,
    fun i s h => kci_of_submit h (submit_arrive h), fun i s h => kci_of_submit h (submit_wait h),
    fun i s r h hr => kci_of_submit h (submit_rsleep h hr), fun i s h hdrop => kci_of_submit h (submit_pref_dropped h hdrop),
    fun i s h => ?pref⟩
  case pref =>
    intro c pk c1 u
    have hquiet : Quiet (setCore s pk c1) u := quiet_issuePref ..
    have hphys : ∀ lc < 4096, physCore u lc = physCore s lc := fun lc hlc => hquiet.physCore hlc
    obtain ⟨hrun, hplans, -, hcores⟩ := hquiet
    exact ⟨kci_of_submit h (submit_pref h), hrun, hplans, hphys, hcores⟩

end

/-! ## O13: COMMIT (R73, R122) -/

section

namespace Sys2Proof.Machine

/-! ### COMMIT (R73, R122) -/

/-- A core whose COMMIT waits for what the core has outstanding. -/
def Core.committing (d : Core) : Core := { d with st := .commit }

/-- A core has nothing outstanding in its write buffer, its barrier waits and its arrays. -/
def Core.Idle (c : Core) : Prop :=
  c.wb = [] ∧ c.waits = [] ∧ c.arr0.cq = [] ∧ c.arr0.wq = [] ∧ c.arr0.run = [] ∧ c.arr1.cq = [] ∧ c.arr1.wq = [] ∧ c.arr1.run = []

section
variable {i : Ins} {s : State}

/-- A COMMIT alone: its core passes the bundle in the state that waits to complete, and completes when it can. -/
theorem submit_commit (h : Alone .commit i s) :
    submit .commit i s = tryCommit (s.passed i Core.committing) (physCore s i.core.toNat) := by
  have hbeside : Beside Core.committing := fun _ => ⟨rfl, rfl, fun _ _ _ _ => rfl⟩
  obtain ⟨-, heng, hfly, -⟩ := h.core_eq
  have hst : (((s.coreFor i).sent .commit i).committing.advance ((s.coreFor i).sent .commit i) [⟨.commit, i⟩]).st = .commit := by
    rw [advance_plain (o := .commit) rfl (d := ((s.coreFor i).sent .commit i).committing) hfly]
    rfl
  have heffect : effect (setCore s (physCore s i.core.toNat) ((s.coreFor i).sent .commit i)) (physCore s i.core.toNat) i.core.toNat
      ((s.coreFor i).sent .commit i) .commit i =
        setCore s (physCore s i.core.toNat) ((s.coreFor i).sent .commit i).committing :=
    modCore_setCore (f := Core.committing) h.sent_on (by nofun)
  have hsubmit := submit_effect h _ heffect rfl rfl rfl (by nofun) (.inr hst) (fun hr => nomatch hst.symm.trans hr)
  have hnone : (coreL (s.passed i Core.committing) i.core.toNat).eng = [] := by
    rw [coreL, State.passed, physCore_setCore, coreOf_setCore]
    exact heng
  have hstart := (congrArg (fun d => startEngine (setCore s (physCore s i.core.toNat) d) i.core.toNat)
    (advance_beside h rfl hbeside)).trans (startEngine_none hnone)
  exact hsubmit.trans (congrArg (tryCommit · (physCore s i.core.toNat)) hstart)

/-- A core that has passed a COMMIT with no loads and no engine commands can complete its share once it is idle. -/
theorem commitReady_committing {s : State} {pk : Nat} {c : Core} (hl : c.loads = []) (he : c.eng = []) :
    commitReady (setCore s pk c.committing) pk = true ↔ c.Idle := by
  simp only [commitReady, coreOf_setCore, Core.committing, hl, he, Core.Idle, List.isEmpty_iff, Bool.and_eq_true,
    decide_true, List.isEmpty_nil, and_true, true_and]
  constructor
  · rintro ⟨⟨⟨⟨⟨h1, h2⟩, h3⟩, ⟨h4, h5⟩, h6⟩, h7⟩, h8⟩
    exact ⟨h8, h7, h1, h2, h3, h4, h5, h6⟩
  · rintro ⟨h8, h7, h1, h2, h3, h4, h5, h6⟩
    exact ⟨⟨⟨⟨⟨h1, h2⟩, h3⟩, ⟨h4, h5⟩, h6⟩, h7⟩, h8⟩

theorem commitReady_passed (h : Alone .commit i s) :
    commitReady (s.passed i Core.committing) (physCore s i.core.toNat) = true ↔ (s.coreFor i).Idle := by
  obtain ⟨⟨⟨-, -, -, hl, he, -⟩, -⟩, -⟩ := h
  exact commitReady_committing hl he

end

theorem tryCommit_ready {s : State} {pk : Nat} (h : commitReady s pk = true) :
    tryCommit s pk = modCore (l1WriteBack s pk) pk fun c => { c.drain with st := .arrived, stalled := false } := by
  simp only [tryCommit, h, Bool.not_true, Bool.false_eq_true, if_false]

theorem tryCommit_waits {s : State} {pk : Nat} (h : ¬ commitReady s pk = true) : tryCommit s pk = s := by
  simp only [tryCommit, Bool.eq_false_iff.2 h, Bool.not_false, if_true]

end Sys2Proof.Machine

open Sys2Proof Sys2Proof.Machine

/-- Settles O13: the core passes the bundle as a committing core, and what `tryCommit` then asks for is the statement's idle core, since
an instruction alone has no loads and no engine commands. -/
theorem commitInstruction : Obligations.CommitInstruction := by
  unfold Obligations.CommitInstruction
  intro i s h pk c u idle
  refine ⟨fun hidle => kci_of_submit h ?ready, fun hbusy => kci_of_submit h ?waits⟩
  case ready => exact (submit_commit h).trans (tryCommit_ready ((commitReady_passed h).2 hidle))
  case waits => exact (submit_commit h).trans (tryCommit_waits fun hr => hbusy ((commitReady_passed h).1 hr))

end

/-! ## O16: SIG delivery, barrier release and engine completion (R114, R123, R124) -/

section

namespace Sys2Proof.Machine

/-! ### SIG delivery and barrier release (R123, R124) -/

/-- The oldest deliverable SIG to a target is counted at its router and raises its token (R124). -/
theorem deliverSig_eq {s : State} {tgt : Nat} {r : Run} {g : Sig} {rest : List Sig} (hr : s.run = some r)
    (ht : takeFirst (fun g => g.tgt = tgt && sigReady s g) r.sigs = some (g, rest)) :
    deliverSig s tgt = resume (tokInc (modRouter { s with run := some { r with sigs := rest } } tgt fun x =>
      { x with rcv := tput x.rcv g.tok (tget 0 x.rcv g.tok + 1) }) tgt g.tok) tgt := by
  simp only [deliverSig, hr, ht]

section
variable {s : State} {scope g lc : Nat}

/-- An instance that no participant has passed and that every participant has arrived at is released; of scope 3 once the fabric
barrier of the bunches is complete (R123, R366). -/
theorem barrierStep_arrived (hlate : lateArrival s scope g = none)
    (hall : ∀ x ∈ groupCores scope g, hasArrived s scope (released s scope g) x = true) (hlc : lc ∈ groupCores scope g)
    (hst : (routerOf s lc).standing.contains (scope, released s scope g) = true) :
    barrierStep s scope g =
      if scope = 3 then
        let t := barArrive s (curStep s) (released s scope g + 1)
        if fabricReleased t (released s scope g) then releaseInstance t scope g (released s scope g) else t
      else releaseInstance s scope g (released s scope g) := by
  have hany : ((groupCores scope g).any fun lc => (routerOf s lc).standing.contains (scope, released s scope g)) = true :=
    List.any_eq_true.2 ⟨lc, hlc, hst⟩
  simp only [barrierStep, hlate, List.all_eq_true.2 hall, hany, Bool.and_true, if_true]

end

/-! ### Engine commands end (R114, R120) -/

section
variable {s : State} {lc : Nat} {q : QCmd} {host : HostData}

/-- A command has left the engine queue of its core and its token has risen. -/
def State.engEnded (s : State) (lc : Nat) (q : QCmd) : State :=
  tokDone (modCoreL s lc fun c => { c with eng := c.eng.filter fun x => x.id ≠ q.id }) lc q.ins

theorem engDone_held (h : engHolds s lc q.id = true) : engDone s lc q = s.engEnded lc q := if_pos h

/-- The core of a started command holds it. -/
theorem engHolds_of_started {k : Nat} (h : ((coreL s lc).eng.filter fun x => x.st ≠ 0)[k]? = some q) : engHolds s lc q.id = true :=
  List.any_eq_true.2 ⟨q, List.mem_of_mem_filter (List.mem_of_getElem? h), by simp⟩

/-- ENGINE_COMMAND_COMPLETION works on the k-th started command of a core that runs. -/
theorem exec_engineCommandCompletion {core : BitVec 12} {k : Nat} {q : QCmd} (h : Live s core.toNat)
    (hq : ((coreL s core.toNat).eng.filter fun x => x.st ≠ 0)[k]? = some q) :
    exec (.engineCommandCompletion core k host) s = (endEngine s core.toNat q host).resumed core.toNat := by
  refine (coreEvent_live h).trans ?_
  simp only [hq]

theorem endEngine_moved (ho : q.op = .dma ∨ q.op = .dmar) (hdone : (moveStep s lc q host).2 = true)
    (hheld : engHolds (moveStep s lc q host).1 lc q.id = true) : endEngine s lc q host = (moveStep s lc q host).1.engEnded lc q := by
  rw [← engDone_held hheld]
  rcases ho with ho | ho <;> simp only [endEngine, ho, hdone, if_true]

/-- A ROWMODE at the front of its channel's queue changes the channel's mode and ends (R247). -/
theorem endEngine_rowmode {c : ChanCmd} {rest : List ChanCmd} (ho : q.op = .rowmodeEnter ∨ q.op = .rowmodeExit) :
    let ch := chanOf s (lc / 256) (q.va.toNat % 256)
    let u := modeFront (chanGo s ch) ch c
    (chanAt (chanGo s ch) ch).queue = c :: rest → c.core = lc → c.id = q.id → engHolds u lc q.id = true →
    endEngine s lc q host = u.engEnded lc q := by
  intro ch u hqueue hcore hid hheld
  have hchan : chanHolds (chanGo s ch) ch lc q.id = true := by
    simp only [chanHolds, hqueue, List.any_cons, hcore, hid, decide_true, Bool.and_true, Bool.true_or]
  have hend : endRowmode s lc q = u.engEnded lc q := by
    rw [← engDone_held hheld]
    simp only [endRowmode, ch, hchan, hqueue, hcore, hid, Bool.not_true, Bool.false_eq_true, if_false, and_self, if_true, u]
  rcases ho with ho | ho <;> simpa only [endEngine, ho] using hend

/-- A PFXWALK whose walk answers ends with its result (R299). -/
theorem endEngine_walk {x : AttCmd} {v : State} {n : Nat} (ho : q.op = .pfxwalk) :
    let u := walkSettle s (attIdx lc)
    ((attAt u (attIdx lc)).queue.take 4).find? (fun x => x.started && x.walk && x.core = lc && x.id = q.id) = some x →
    attWalk u (attIdx lc) x = (v, .ok n) → engHolds (attDone v (attIdx lc) x n) lc q.id = true →
    endEngine s lc q host = (attDone v (attIdx lc) x n).engEnded lc q := by
  intro u hfind hwalk hheld
  rw [← engDone_held hheld]
  simp only [endEngine, ho, endWalk, u, hfind, walkEnd, hwalk]

end

end Sys2Proof.Machine

open Sys2Proof Sys2Proof.Machine

/-- Settles O16: each event finds what it takes at the front, and a started command is one that its core holds. -/
theorem syncEvents : Obligations.SyncEvents := by
  unfold Obligations.SyncEvents
  refine ⟨fun target s r g rest hr ht => congrArg finish (deliverSig_eq hr ht), ?barrier, ?engine⟩
  case barrier =>
    intro scope group s lc g k hlate hall hlc hst
    have hstep := barrierStep_arrived hlate hall hlc hst
    refine ⟨fun hne => ?_, fun he hrel => ?_⟩
    · exact congrArg finish (hstep.trans (if_neg hne))
    · rw [if_pos he, if_pos hrel] at hstep
      exact congrArg finish (hstep.trans (by simp only [k, he]))
  case engine =>
    intro core k host s q lc ended hlive hq
    have hheld := engHolds_of_started hq
    have hexec := exec_engineCommandCompletion (host := host) hlive hq
    have hends {u : State} (hu : endEngine s lc q host = u.engEnded lc q) :
        exec (.engineCommandCompletion core k host) s = ended u := hexec.trans (congrArg (·.resumed lc) hu)
    refine ⟨fun ho hfree => hends ?_, fun ho hfree => hends ?_, fun ho hfree => hends ?_, fun ho hfree => hends ?_,
      fun ho hdone hh => hends (endEngine_moved ho hdone hh),
      fun c rest ho hqueue hcore hid hh => hends (endEngine_rowmode ho hqueue hcore hid hh),
      fun x v n ho hfind hwalk hh => hends (endEngine_walk ho hfind hwalk hh)⟩
    all_goals
      rw [← engDone_held hheld]
      simp only [endEngine, ho, hfree, Bool.false_eq_true, if_false]

end

/-! ## O38: NOP, FENCE, ABORT_PLAN, UNLOAD_PLAN, COPY, SET_PROFILE and QUERY (R68, R88 to R90, R392) -/

section

namespace Sys2Proof.Machine

/-! ### The first entry starts (R88, R89) -/

section
variable {s : State} {op : Nat} {e : Entry64} {rest : List Entry64} {f : State → Active → State}

/-- The first entry starts when it holds the row's command. -/
theorem withEntry_head (hentries : s.cmd.entries = e :: rest) (hop : leAt e.bytes 0 1 = op) :
    withEntry s op f = f (s.started e rest) (activeOf e) := by
  simp only [withEntry, hentries, hop, if_true]
  rfl

theorem withEntry_next (h : s.nextEntry op e rest) : withEntry s op f = f (s.started e rest) (activeOf e) :=
  withEntry_head h.1 h.2.1

/-- No command of the row's opcode is in progress, so none of them waits. -/
theorem find_active_next (h : s.nextEntry op e rest) (ready : Active → Bool) :
    (s.cmd.active.find? fun a => a.op = op && ready a) = none := by
  obtain ⟨-, -, hactive⟩ := h
  exact List.find?_eq_none.2 fun a ha => by simp [hactive a ha]

/-- With no waiting command of its opcode the row starts the first entry. -/
theorem withWaiting_next {ready : Active → Bool} (h : s.nextEntry op e rest) :
    withWaiting s op ready f = f (s.started e rest) (activeOf e) := by
  have hnone := find_active_next h fun a => !a.runs s && ready a
  simp only [withWaiting, Bool.and_assoc, hnone]
  exact withEntry_next h

/-- Loads in progress are the same once a command other than LOAD_PLAN has started. -/
theorem loadingH_started {h : Nat} (hne : leAt e.bytes 0 1 ≠ 1) : loadingH (s.started e rest) h = loadingH s h := by
  simp only [loadingH, State.started, List.any_append, List.any_cons, List.any_nil, activeOf, hne, decide_false,
    Bool.false_and, Bool.or_false]

end

section
variable (s : State) (e : Entry64) (rest : List Entry64)

@[simp] theorem run_started : (s.started e rest).run = s.run := rfl
@[simp] theorem planIn_started (h : Nat) : planIn (s.started e rest) h = planIn s h := rfl
@[simp] theorem busMaster_started : busMaster (s.started e rest) = busMaster s := rfl

end

/-! ### FENCE, ABORT_PLAN and UNLOAD_PLAN (R89) -/

section
variable {s : State} {e : Entry64} {rest : List Entry64}

/-- A FENCE behind no command in progress, and before every other entry, ends at once. -/
theorem endFences_alone (hop : leAt e.bytes 0 1 = 6) (hactive : s.cmd.active = []) (hfirst : ∀ x ∈ rest, e.num ≤ x.num) :
    endFences (s.started e rest).cmd.active.length (s.started e rest) =
      produce { s with cmd := { s.cmd with entries := rest, active := [] } } e.index (leAt e.bytes 4 4) stOk 0 0 := by
  have hall : (rest.all fun x => e.num ≤ x.num) = true := List.all_eq_true.2 fun x hx => decide_eq_true (hfirst x hx)
  have hlist : (s.started e rest).cmd.active = [activeOf e] := by
    simp only [State.started, hactive, List.nil_append]
  rw [hlist, List.length_singleton]
  simp only [endFences, hlist]
  exact if_pos ⟨hop, hall⟩

/-- A FENCE behind another command waits. -/
theorem endFences_behind {b : Active} {r : List Active} (hactive : s.cmd.active = b :: r) (hop : b.op ≠ 6) :
    endFences (s.started e rest).cmd.active.length (s.started e rest) = s.started e rest := by
  have hlist : (s.started e rest).cmd.active = b :: (r ++ [activeOf e]) := by
    simp only [State.started, hactive, List.cons_append]
  rw [hlist, List.length_cons]
  simp only [endFences, hlist, hop, false_and, if_false]

/-- A handle is unlisted or holds no plan. -/
theorem noPlan_iff {p : Option Plan} {ok : Bool} : (p.isNone || !ok) = true ↔ p.isSome = false ∨ ok = false := by
  cases p <;> simp

/-- The plan of a handle runs. -/
theorem runsHandle_iff {x : Option Run} {h : Nat} :
    (x.map fun r => decide (r.handle = h)).getD false = true ↔ ∃ r, x = some r ∧ r.handle = h := by
  cases x <;> simp

/-- UNLOAD_PLAN of a handle that no load in progress uses (R68). -/
theorem execUnloadPlan_next (h : s.nextEntry 4 e rest) (hload : loadingH s (activeOf e).handle = false) :
    exec .unloadPlan s = finish (
      if (planIn s (activeOf e).handle).isNone || !handleOk (activeOf e).handle then
        endActive (s.started e rest) (activeOf e) stBadHandle 0 0
      else if (s.run.map fun r => decide (r.handle = (activeOf e).handle)).getD false then
        endActive (s.started e rest) (activeOf e) stBusy 0 0
      else
        endActive { s.started e rest with plans := tdel s.plans (activeOf e).handle } (activeOf e) stOk 0 0) := by
  have hloading : loadingH (s.started e rest) (activeOf e).handle = false := by
    obtain ⟨-, hop, -⟩ := h
    rw [loadingH_started (by rw [hop]; decide), hload]
  refine congrArg finish ((withWaiting_next h).trans ?_)
  simp only [hloading, Bool.and_false, Bool.false_eq_true, if_false]
  rfl

end

/-! ### COPY, SET_PROFILE and QUERY (R88, R90, R392) -/

section
variable {s : State} {e : Entry64} {rest : List Entry64}

/-- The row of COPY acts on the first entry, which is a COPY. -/
theorem copyNext_next (h : s.nextEntry 5 e rest) : copyNext s = some (activeOf e) := by
  have hnone := find_active_next h (copyReady s)
  obtain ⟨hentries, hop, -⟩ := h
  simp only [copyNext, hnone, hentries, List.head?_cons, Option.filter, hop, decide_true, if_true, Option.map_some]

/-- A COPY that starts, with the host's data of its whole source. -/
theorem execCopy_next {src : HostData} (h : s.nextEntry 5 e rest)
    (hsrc : inHostWin (copySrc (activeOf e)) = true → src.bytes.length = copyLen (activeOf e)) :
    exec (.copy src) s = .next (settle (copyStart (s.started e rest) (activeOf e) src)) := by
  have hshape : copyShape s src = true := by
    simp only [copyShape, copyNext_next h, Bool.or_eq_true, Bool.not_eq_true', decide_eq_true_eq]
    exact (Bool.eq_false_or_eq_true _).symm.imp_right hsrc
  rw [← withWaiting_next (f := fun s a => copyStart s a src) h]
  exact shaped_true hshape

/-- With no plan and with the host at hand, a COPY of whole units runs unless bytes of its source are withheld. -/
theorem copyStart_runs {t : State} {a : Active} {src : HostData} (hlen : copyLen a % 128 = 0) (hrun : t.run = none)
    (hbus : inHostWin (copySrc a) = true → busMaster t = true) (hheld : withheldFrom t 4096 (copySrc a) (copyLen a) = false) :
    copyStart t a src = copyRun t a src := by
  have hhost : (inHostWin (copySrc a) && !busMaster t) = false := by
    cases hwin : inHostWin (copySrc a) with
    | false => rfl
    | true => rw [hbus hwin]; rfl
  simp only [copyStart, hlen, ne_eq, not_true_eq_false, if_false, hrun, Option.isSome_none, Bool.false_and, runPlan,
    Option.bind_none, Option.map_none, Option.getD_none, hhost, hheld, Bool.or_self, Bool.false_eq_true]

/-- The first entry is a SET_PROFILE whose record has been read. -/
theorem execSetProfile_next {d : HostData} (h : s.nextEntry 7 e rest) (hbus : busMaster s = true)
    (hlen : d.bytes.length = profileRead (activeOf e)) :
    exec (.setProfile d) s = .next (settle
      (takeProfile (readHost (s.started e rest) (leAt e.bytes 16 8) (profileRead (activeOf e))) (activeOf e) d)) := by
  have hshape : profileShape s d.bytes.length = true := by
    obtain ⟨hentries, -⟩ := h
    simp only [profileShape, hentries, hlen, decide_true, Bool.or_true]
  refine (shaped_true hshape).trans ?_
  rw [if_pos hbus, withEntry_next h]
  rfl

/-- QUERY of a listed item writes its data and completes with their number. -/
theorem execQuery_next (h : s.nextEntry 8 e rest) :
    exec .query s = finish (
      let u := s.started e rest
      if 2 < leAt e.bytes 8 2 then endActive u (activeOf e) stBadCommand 0 0
      else
        let d := queryData u (leAt e.bytes 8 2) (leAt e.bytes 24 8)
        endActive (writeHost (if leAt e.bytes 8 2 = 0 then u else fresh u) (leAt e.bytes 16 8) d) (activeOf e) stOk 0 d.length) :=
  congrArg finish (withEntry_next h)

end

end Sys2Proof.Machine

open Sys2Proof Sys2Proof.Machine

/-- Settles O38: each row starts the first entry, and the entry's command then takes the branch that the clause's conditions choose. -/
theorem hostCommands : Obligations.HostCommands := by
  unfold Obligations.HostCommands
  refine ⟨fun e rest s h => congrArg finish (withEntry_next h), ?fence, ?abort, ?unload, ?copy, ?profile, ?query⟩
  case fence =>
    intro e rest s hentries hop
    have hstart : exec .fence s = finish (endFences (s.started e rest).cmd.active.length (s.started e rest)) :=
      congrArg finish (withEntry_head hentries hop)
    exact ⟨fun ha hf => hstart.trans (congrArg finish (endFences_alone hop ha hf)),
      fun b r ha hb => hstart.trans (congrArg finish (endFences_behind ha hb))⟩
  case abort =>
    intro e rest s u h
    have hstart := congrArg finish (withEntry_next (f := fun s a => match s.run with
      | none => endActive s a stOk 0 0
      | some r => { s with run := some { r with abort := true } }) h)
    refine ⟨fun hr => hstart.trans ?_, fun r hr => hstart.trans ?_⟩ <;> simp only [run_started, hr] <;> rfl
  case unload =>
    intro e rest s u a h hload
    have hlisted (hp : (planIn s a.handle).isSome = true) (ho : handleOk a.handle = true) :
        ¬((planIn s a.handle).isNone || !handleOk a.handle) = true := by
      rw [noPlan_iff, hp, ho]
      decide
    have hexec := execUnloadPlan_next h hload
    refine ⟨fun hp ho hr => hexec.trans (congrArg finish ((if_neg (hlisted hp ho)).trans (if_neg ?_))),
      fun hp ho hr => hexec.trans (congrArg finish ((if_neg (hlisted hp ho)).trans (if_pos ?_))),
      fun hbad => hexec.trans (congrArg finish (if_pos (noPlan_iff.2 hbad)))⟩
    · rw [runsHandle_iff]
      exact fun ⟨r, hrun, hhandle⟩ => hr r hrun hhandle
    · exact runsHandle_iff.2 hr
  case copy =>
    intro e rest src s u a c h hrun hsrc
    have hexec := execCopy_next h fun hw => (hsrc hw).2
    refine ⟨fun hlen => hexec.trans ?_, fun hlen hheld => hexec.trans ?_⟩
    · rw [copyStart, if_pos hlen]
    · have hbus : inHostWin (copySrc (activeOf e)) = true → busMaster (s.started e rest) = true := by
        rw [busMaster_started]
        exact fun hw => (hsrc hw).1
      have hidle : (s.started e rest).run = none := hrun
      rw [copyStart_runs hlen hidle hbus hheld]
      rfl
  case profile =>
    intro e rest rec s a u p h hbus hlen
    have hexec := execSetProfile_next h hbus hlen
    refine ⟨fun hnone => hexec.trans ?_, fun x r hbad => hexec.trans ?_⟩
    · rw [takeProfile, show profileFaults rec.bytes (leAt (activeOf e).bytes 24 8) rec.poison = [] from hnone]
    · rw [takeProfile, show profileFaults rec.bytes (leAt (activeOf e).bytes 24 8) rec.poison = x :: r from hbad]
  case query =>
    intro e rest s a u v d h
    have hexec := execQuery_next h
    refine ⟨fun hitem => hexec.trans ?_, fun hitem => hexec.trans ?_, fun hitem => hexec.trans ?_⟩
    · simp only [hitem, Nat.not_lt_zero, if_false, queryData, if_true]
      rfl
    · have hlow : ¬2 < leAt e.bytes 8 2 := by omega
      have hdata : leAt e.bytes 8 2 ≠ 0 := by omega
      simp only [hlow, if_false, queryData, hdata]
      rfl
    · simp only [hitem, if_true]
      rfl

end

/-! ## O39: LOAD_PLAN, LAUNCH_PLAN and PLAN_START (R66, R68, R72, R116) -/

section

namespace Sys2Proof.Machine

/-! ### LOAD_PLAN (R66, R68) -/

/-- A handle that LOAD_PLAN refuses: unlisted, loaded, or in use by another load. -/
theorem handleTaken_iff {ok other : Bool} {p : Option Plan} :
    (!ok || p.isSome || other) = true ↔ ok = false ∨ p.isSome = true ∨ other = true := by
  simp only [Bool.or_eq_true, Bool.not_eq_true', or_assoc]

section
variable {s : State} {e : Entry64} {rest : List Entry64}

theorem execLoadPlan_head (hentries : s.cmd.entries = e :: rest) (hop : leAt e.bytes 0 1 = 1) :
    exec .loadPlan s = finish (
      let u := s.started e rest
      let a := activeOf e
      if !handleOk a.handle || (planIn s a.handle).isSome || loadingOther u a then endActive u a stBadHandle 0 0
      else if !loadOperandsOk a then endActive u a stBadCommand 0 0
      else readHost u (loadFrom a) (loadSize a)) :=
  congrArg finish (withEntry_head hentries hop)

end

section
variable {s : State} {a : Active} {d : HostData}

/-- The bytes of an image being copied have arrived (R66). -/
theorem execPlanImageCopied_eq {index : W32} (ha : loadAt s index.toNat = some a) (hlen : d.bytes.length = loadSize a)
    (hbus : busMaster s = true) : exec (.planImageCopied index d) s = .next (settle (imageCopied s a d)) := by
  have hexec : exec (.planImageCopied index d) s =
      shaped (d.bytes.length = loadSize a) "PLAN_IMAGE_COPIED" (if busMaster s then imageCopied s a d else s) := by
    show execPlanImageCopied index d s = _
    simp only [execPlanImageCopied, ha]
  rw [hexec, shaped_true (decide_eq_true hlen), if_pos hbus]

/-- A whole image that passes every check is loaded. -/
theorem imageCopied_ok {p : Plan} (hwhole : (d.poison.filter fun g => 32 * g < loadSize a) = [])
    (hcheck : checkPlan (memWrite s (loadDest a) (hostBytes d)) d.bytes (loadSize a) = .ok p) :
    let v := memWrite s (loadDest a) (hostBytes d)
    imageCopied s a d = endActive { v with plans := tput v.plans a.handle p } a stOk 0 0 := by
  simp only [imageCopied, hwhole, hcheck]

theorem imageCopied_bad {x : Nat × Nat} (hwhole : (d.poison.filter fun g => 32 * g < loadSize a) = [])
    (hcheck : checkPlan (memWrite s (loadDest a) (hostBytes d)) d.bytes (loadSize a) = .error x) :
    imageCopied s a d = loadFailed (memWrite s (loadDest a) (hostBytes d)) a x.1 x.2 := by
  simp only [imageCopied, hwhole, hcheck]

theorem imageCopied_poisoned {g : Nat} {r : List Nat} (hbad : (d.poison.filter fun g => 32 * g < loadSize a) = g :: r) :
    imageCopied s a d =
      loadFailed (memWrite s (loadDest a) (hostBytes d)) a stDigest (1 + 32 * r.foldl Nat.min g * 2 ^ 32) := by
  simp only [imageCopied, hbad]

end

/-! ### LAUNCH_PLAN and PLAN_START (R68, R72, R116) -/

/-- A LAUNCH_PLAN of a loaded plan performs the checks that follow its handle's. -/
theorem execLaunchPlan_next {s : State} {e : Entry64} {rest : List Entry64} {p : Plan} (h : s.nextEntry 2 e rest)
    (hok : handleOk (activeOf e).handle = true) (hp : planIn s (activeOf e).handle = some p) :
    exec .launchPlan s = finish (launchPlan (s.started e rest) (activeOf e) p) := by
  refine congrArg finish ((withWaiting_next h).trans ?_)
  simp only [planIn_started, hp, hok, if_true]

/-- A LAUNCH_PLAN that passes every check of R68 is accepted. -/
theorem launchPlan_accepted {s : State} {a : Active} {p : Plan} (hrun : s.run = none) (hrcv : rcvBusy s = false)
    (hstale : p.stale = false) (hstep : leAt a.bytes 12 4 < p.stepCount) (hfab : p.fabric = true → fabricReason s p = none)
    (hjobs : badJob (readJobs s).1 p (readJobs s).2 = none) :
    launchPlan s a p = acceptLaunch (readJobs s).1 a p (jobDefs (readJobs s).2 ((readJobs s).2.length / 64)) := by
  have hfabric : (if p.fabric then fabricReason s p else none) = none := by
    split
    case isTrue hf => exact hfab hf
    case isFalse => rfl
  simp only [launchPlan, hrun, Option.isSome_none, hrcv, Bool.or_self, hstale, Bool.false_eq_true, if_false,
    Nat.not_le.2 hstep, hfabric, hjobs]

/-- The start time of a plan that waits for it has come. -/
theorem execPlanStart_due {s : State} {r : Run} {p : Plan} (hr : s.run = some r) (hp : runPlan s = some p)
    (hstarted : r.started = false) (hend : r.ending = none) (hdue : r.startAt ≤ s.now) :
    exec .planStart s = finish (startRun s r p) := by
  refine congrArg finish ?_
  simp only [hr, hp, hstarted, hend, hdue, Bool.not_false, Option.isNone_none, decide_true, Bool.and_self, if_true]

end Sys2Proof.Machine

open Sys2Proof Sys2Proof.Machine

/-- Settles O39: the conditions of each clause choose the branch of LOAD_PLAN, of the copied image, of LAUNCH_PLAN and of PLAN_START. -/
theorem planCommands : Obligations.PlanCommands := by
  unfold Obligations.PlanCommands
  refine ⟨?load, ?image, ?launch, ?start⟩
  case load =>
    intro e rest s u a hentries hop
    have hexec := execLoadPlan_head hentries hop
    refine ⟨fun hok hnone hother => ?_, fun hbad => hexec.trans (congrArg finish (if_pos (handleTaken_iff.2 hbad)))⟩
    have hfree : ¬(!handleOk a.handle || (planIn s a.handle).isSome || loadingOther u a) = true := by
      rw [hok, hnone, hother]
      decide
    refine ⟨fun hops => hexec.trans (congrArg finish ((if_neg hfree).trans (if_neg ?_))),
      fun hops => hexec.trans (congrArg finish ((if_neg hfree).trans (if_pos ?_)))⟩
    · simp [show loadOperandsOk (activeOf e) = true from hops]
    · simp [show loadOperandsOk (activeOf e) = false from hops]
  case image =>
    intro index d a s v bad ha hlen hbus
    have hexec := execPlanImageCopied_eq ha hlen hbus
    exact ⟨fun p hwhole hcheck => hexec.trans (congrArg finish (imageCopied_ok hwhole hcheck)),
      fun x hwhole hcheck => hexec.trans (congrArg finish (imageCopied_bad hwhole hcheck)),
      fun g r hbad => hexec.trans (congrArg finish (imageCopied_poisoned hbad))⟩
  case launch =>
    intro e rest p s a u j defs v h hok hload hp hrun hrcv hstale hstep hfab hjobs
    exact (execLaunchPlan_next h hok hp).trans
      (congrArg finish (launchPlan_accepted (s := u) hrun hrcv hstale hstep hfab hjobs))
  case start =>
    intro r p s u v hr hp hstarted hend hdue
    rw [execPlanStart_due hr hp hstarted hend hdue, startRun]
    rfl

end

/-! ## O40: commits, the watchdog, replays, spares and step-wide replays (R73 to R83) -/

section

namespace Sys2Proof.Machine

/-! ### The step in progress (R72, R82) -/

section
variable {s : State} {r : Run} {p : Plan} {e : StepEnt}

/-- The step in progress belongs to a plan that runs and that does not end. -/
theorem curEntry_run (h : curEntry s = some (r, p, e)) : s.run = some r ∧ r.ending = none := by
  unfold curEntry at h
  split at h
  case h_1 x y hx hy =>
    split at h
    case isTrue hgo =>
      obtain ⟨e', -, heq⟩ := Option.map_eq_some_iff.1 h
      obtain ⟨rfl, -⟩ := Prod.mk.inj heq
      obtain ⟨-, hend⟩ := Bool.and_eq_true_iff.1 hgo
      exact ⟨hx, Option.isNone_iff_eq_none.1 hend⟩
    case isFalse => nomatch h
  case h_2 => nomatch h

/-- Stopping a plan with a step in progress ends it with the number of that step (R82). -/
theorem stopPlan_curEntry (h : curEntry s = some (r, p, e)) (status detail : Nat) :
    stopPlan s status detail = planEnd s status r.stepNo detail := by
  obtain ⟨hrun, hend⟩ := curEntry_run h
  simp only [stopPlan, hrun, hend, Option.isSome_none, Bool.false_eq_true, if_false]

theorem execStepWatchdog_late (h : curEntry s = some (r, p, e))
    (hlate : r.stepStart + e.dur + e.dur * p.reserve / 1000 + p.watchdog < s.now) :
    exec .stepWatchdog s = finish (planEnd s stTimeout r.stepNo 0) := by
  rw [← stopPlan_curEntry h]
  refine congrArg finish ?_
  simp only [h]
  exact if_pos hlate

/-! ### The commit (R73, R74) -/

section
variable (h : curEntry s = some (r, p, e)) (hshares : sharesDone (settleStep s) = true)
  (hidle : enginesIdle (settleStep s) = true) (hbar : commitBarred (settleStep s) = false)
include h hshares hidle hbar

/-- A job that is due and late holds the commit up (R318). -/
theorem stepCommit_late (hlate : lateJobs (settleStep s) r.stepNo ≠ []) : stepCommit s = markLate (settleStep s) := by
  have hsome : (lateJobs (settleStep s) r.stepNo).isEmpty = false := by simp [hlate]
  simp only [stepCommit, h, hshares, hidle, hbar, hsome, Bool.not_true, Bool.or_self, Bool.false_eq_true, Bool.not_false,
    if_true, if_false]

/-- The commit waits for the barrier of its scope. -/
theorem stepCommit_waits {b : State × Bool} (hlate : lateJobs (settleStep s) r.stepNo = [])
    (hb : commitBarrier (settleStep s) r.stepNo (p.fabric && e.scope = 1) = b) (hopen : b.2 = false) : stepCommit s = b.1 := by
  simp only [stepCommit, h, hshares, hidle, hbar, hlate, hb, hopen, List.isEmpty_nil, Bool.not_true, Bool.or_self,
    Bool.false_eq_true, if_false]

/-- An uncorrectable error of a scale table that the commit reads stops the plan instead (R185). -/
theorem stepCommit_scaleLost {b : State × Bool} {lc : Nat} (hlate : lateJobs (settleStep s) r.stepNo = [])
    (hb : commitBarrier (settleStep s) r.stepNo (p.fabric && e.scope = 1) = b) (hjoined : b.2 = true)
    (hscale : scaleBarred b.1 = some lc) : stepCommit s = scaleLost b.1 lc := by
  simp only [stepCommit, h, hshares, hidle, hbar, hlate, hb, hjoined, hscale, List.isEmpty_nil, Bool.not_true, Bool.or_self,
    Bool.false_eq_true, if_true, if_false]

theorem stepCommit_commits {b : State × Bool} (hlate : lateJobs (settleStep s) r.stepNo = [])
    (hb : commitBarrier (settleStep s) r.stepNo (p.fabric && e.scope = 1) = b) (hjoined : b.2 = true)
    (hscale : scaleBarred b.1 = none) : stepCommit s = commitNow (scaleSweep b.1) r p e := by
  simp only [stepCommit, h, hshares, hidle, hbar, hlate, hb, hjoined, hscale, List.isEmpty_nil, Bool.not_true, Bool.or_self,
    Bool.false_eq_true, if_true, if_false]

end

/-- A commit that can happen, of the last step of the last iteration. -/
theorem commitNow_last (hlast : lastStep p r = true) :
    commitNow s r p e = commitQuarantine (planEnd (commitLinks (commitEffects s r p e)) stOk r.stepNo 0) := by
  simp only [commitNow, hlast, if_true]

theorem commitNow_aborted (hlast : lastStep p r = false) (habort : r.abort = true) :
    commitNow s r p e = commitQuarantine (planEnd (commitLinks (commitEffects s r p e)) stAborted r.stepNo 0) := by
  simp only [commitNow, hlast, habort, Bool.false_eq_true, if_false, if_true]

/-- A commit after which the plan goes on to its next step. -/
theorem commitNow_next (hlast : lastStep p r = false) (habort : r.abort = false) :
    let j := startJobs (commitLinks (commitEffects s r p e)) r.stepIdx r.stepNo
    let x := { j with run := j.run.map fun y =>
      { y with stepIdx := (nextStep p r).1, iter := (nextStep p r).2, stepNo := (r.stepNo + 1) % 2 ^ 32, stepStart := j.now,
               rel := [], toPark := [], toResume := [], held := false } }
    let w := commitQuarantine (commitMigrations (commitTags x))
    commitNow s r p e = if (w.run.map fun y => y.ending.isNone).getD false then nextShare w r else w := by
  intro j x w
  rw [commitNow, if_neg (by rw [hlast]; decide), if_neg (by rw [habort]; decide)]

end

/-! ### Replays and spares (R77, R81, R83) -/

section
variable {s : State} {lc attempt : Nat}

/-- A replay without poison to resolve starts at once. -/
theorem replayAs_clean (h : (coreL (haltAll s lc) lc).poisonAt = none) :
    replayAs s lc attempt = startShare (countDelay (countStn (haltAll s lc) 16 1) (lc / 256)) lc attempt := by
  simp only [replayAs, h, if_true]

theorem replayAs_poisoned {a : Nat} (h : (coreL (haltAll s lc) lc).poisonAt = some a) :
    replayAs s lc attempt =
      let q := resolvePoison (haltAll s lc) lc a
      if q.2 then startShare (countDelay (countStn q.1 16 1) (lc / 256)) lc attempt else q.1 := by
  simp only [replayAs, h]

theorem execReplay_faulted {core : BitVec 12} (hst : (coreL s core.toNat).st = .faulted) (hattempt : (coreL s core.toNat).attempt < 2) :
    exec (.replay core none) s = finish (replayAs s core.toNat ((coreL s core.toNat).attempt + 1)) :=
  congrArg finish (if_pos ⟨hst, hattempt⟩)

theorem execSpareSubstitution_due {core : BitVec 12} (hst : (coreL s core.toNat).st = .faulted)
    (hattempt : 2 ≤ (coreL s core.toNat).attempt) :
    let u := fenceAndSpare s (physCore s core.toNat)
    exec (.spareSubstitution core) s = finish
      (if (coreL u core.toNat).st = .faulted then replayAs (attRestart u core.toNat) core.toNat 0 else u) :=
  congrArg finish (if_pos ⟨hst, hattempt⟩)

end

/-! ### Errors of a core's circuits (R210, R270, R412) -/

/-- A byte passes when its ninth bit is the parity of the eight (R412). -/
theorem parityOk_iff {w : BitVec 9} : parityOk w = true ↔ parityBit (BitVec.ofNat 8 w.toNat) = w.getLsbD 8 := by
  have hlow : parityBit (BitVec.ofNat 8 w.toNat) = (List.range 8).foldl (fun p i => p.xor (w.getLsbD i)) false := by
    refine List.foldl_ext _ _ _ fun p i hi => ?_
    rw [BitVec.getLsbD_ofNat, decide_eq_true (List.mem_range.1 hi), Bool.true_and, BitVec.testBit_toNat]
  rw [parityOk, List.range_succ (n := 8), List.foldl_append, ← hlow]
  show (!(parityBit (BitVec.ofNat 8 w.toNat)).xor (w.getLsbD 8)) = true ↔ _
  cases parityBit (BitVec.ofNat 8 w.toNat) <;> cases w.getLsbD 8 <;> decide

section
variable {s : State} {lc : Nat} {k i : BitVec 8} {w : BitVec 9}

theorem execReplay_error {core : BitVec 12} (hkind : k.toNat ≤ 6) :
    exec (.replay core (some ⟨k, i, w⟩)) s = .next (settle (coreError s core.toNat ⟨k, i, w⟩)) := shaped_true (decide_eq_true hkind)

/-- A byte that passes its check is no error. -/
theorem coreError_good (hgood : parityOk w = true) (hkind : k.toNat < 4 ∨ k.toNat = 6) : coreError s lc ⟨k, i, w⟩ = s :=
  if_pos (hkind.imp (⟨·, hgood⟩) (⟨·, hgood⟩))

/-- An error that no check lets pass acts on a core that runs a share. -/
theorem coreError_live (hbad : parityOk w = false ∨ 4 ≤ k.toNat) (hkind : k.toNat ≠ 6) (hlive : Live s lc) :
    coreError s lc ⟨k, i, w⟩ =
      match k.toNat with
      | 0 => consumeFault s lc (coreL s lc).pc 0 2 none none
      | 1 => consumeFault s lc (coreL s lc).pc 0 3 none none
      | 2 => parityClean s (physCore s lc)
      | 3 => parityDirty s (physCore s lc) lc
      | n => uncontained (count s (arrBlk (physCore s lc) (n - 4)) 5 1) (physCore s lc) lc (n - 4) none := by
  have hlive : live (coreOf s (physCore s lc)) = true := hlive
  have hmeets : ¬(k.toNat < 4 ∧ parityOk w = true ∨ k.toNat = 6 ∧ parityOk w = true) := by
    rcases hbad with hbad | hbad
    · simp [hbad]
    · simp [hkind]; omega
  rw [coreError, if_neg hmeets, if_neg hkind, if_neg (by rw [hlive]; decide)]
  rfl

/-- A parity error inside an attention engine. -/
theorem coreError_engine (hbad : parityOk w = false) (hkind : k.toNat = 6) :
    coreError s lc ⟨k, i, w⟩ = engineParity s lc i.toNat := by
  simp only [coreError, hbad, hkind, Bool.false_eq_true, and_false, or_self, if_false, if_true]

end

/-! ### Step-wide replay (R79, R439) -/

section
variable {s : State} {r : Run} {p : Plan} {e : StepEnt} {cause tower : BitVec 4} {idx : BitVec 9}

/-- The report of a slice that holds its arrival back restarts the step (R210, R229). -/
theorem execStepWideReplay_slice (h : curEntry s = some (r, p, e)) (hshares : sharesDone s = true) (hidx : idx.toNat < 272)
    (hcause : cause.toNat = 1 ∨ cause.toNat = 2) (hdue : wideDue s cause.toNat (tower.toNat * 272 + idx.toNat) = true) :
    exec (.stepWideReplay cause tower idx) s = .next (settle (stepWide s p e cause.toNat tower.toNat idx.toNat)) := by
  have hshape : (1 ≤ cause.toNat && cause.toNat ≤ 3 && idx.toNat < 272) = true := by simp; omega
  have hne : cause.toNat ≠ 3 := by omega
  refine (shaped_true hshape).trans ?_
  simp only [h, hshares, Bool.not_true, Bool.false_eq_true, if_false, hne, hdue, if_true]

/-- A disagreement in a commit's identity words restarts the step once the core is quarantined (R439). -/
theorem execStepWideReplay_identity {lc : Nat} (h : curEntry s = some (r, p, e)) (hshares : sharesDone s = true)
    (hidx : idx.toNat < 272) (hcause : cause.toNat = 3) (hlc : logicalCore s (tower.toNat * 272 + idx.toNat) = some lc)
    (hst : (coreL s lc).st = .arrived) (hcur : (curEntry (wideIdentity s (tower.toNat * 272 + idx.toNat))).isSome = true) :
    exec (.stepWideReplay cause tower idx) s =
      .next (settle (stepWide (wideIdentity s (tower.toNat * 272 + idx.toNat)) p e 3 tower.toNat idx.toNat)) := by
  have hshape : (1 ≤ cause.toNat && cause.toNat ≤ 3 && idx.toNat < 272) = true := by simp; omega
  refine (shaped_true hshape).trans ?_
  simp only [h, hshares, Bool.not_true, Bool.false_eq_true, if_false, hcause, if_true, hlc, Option.map_some, Option.getD_some,
    hst, decide_true, hcur]

/-- A slice reports a poisoned reduction target, or a withheld group. -/
theorem wideDue_poison {sl : Nat} (h : sl ∈ s.llc.redPoison) : wideDue s 1 sl = true := by
  simp [wideDue, h]

theorem wideDue_withheld {sl : Nat} (h : ∃ l ∈ s.llc.lines, l.2.withheld ≠ 0 ∧ lineSlice s l.1 = sl) : wideDue s 2 sl = true := by
  obtain ⟨l, hl, hheld, hslice⟩ := h
  have hany : (s.llc.lines.any fun e => e.2.withheld ≠ 0 && lineSlice s e.1 = sl) = true :=
    List.any_eq_true.2 ⟨l, hl, Bool.and_eq_true_iff.2 ⟨decide_eq_true hheld, decide_eq_true hslice⟩⟩
  rw [wideDue, if_neg (by decide), hany]
  rfl

end

end Sys2Proof.Machine

open Sys2Proof Sys2Proof.Machine

/-- Settles O40: each row finds the step in progress or the core in the condition that its clause names, and takes that branch. -/
theorem stepRows : Obligations.StepRows := by
  unfold Obligations.StepRows
  refine ⟨?commit, fun r p e s h hlate => execStepWatchdog_late h hlate, ?replay, ?error,
    fun core s hst hattempt => execSpareSubstitution_due hst hattempt, ?wide⟩
  case commit =>
    intro r p e s u b v h hshares hidle hbar
    have hcommit (hlate : lateJobs u r.stepNo = []) (hb : b.2 = true) (hscale : scaleBarred b.1 = none) :
        stepCommit s = commitNow (scaleSweep b.1) r p e := stepCommit_commits h hshares hidle hbar hlate rfl hb hscale
    refine ⟨fun lc hlate hb hscale => congrArg finish (stepCommit_scaleLost h hshares hidle hbar hlate rfl hb hscale),
      fun hlate hb hscale => ⟨fun hlast => ?last, fun hlast habort => ?aborted, fun hlast habort => ?next⟩,
      fun hlate hb => congrArg finish (stepCommit_waits h hshares hidle hbar hlate rfl hb), fun hlate hfirst => ?late⟩
    case last => exact congrArg finish ((hcommit hlate hb hscale).trans (commitNow_last hlast))
    case aborted => exact congrArg finish ((hcommit hlate hb hscale).trans (commitNow_aborted hlast habort))
    case next => exact congrArg finish ((hcommit hlate hb hscale).trans (commitNow_next hlast habort))
    case late =>
      refine congrArg finish ((stepCommit_late h hshares hidle hbar hlate).trans (if_neg ?_))
      rw [show (settleStep s).qnc.late = false from hfirst]
      decide
  case replay =>
    intro core s lc c hst hattempt u
    have hexec := execReplay_faulted hst hattempt
    exact ⟨fun hclean => hexec.trans (congrArg finish (replayAs_clean hclean)),
      fun a ha => hexec.trans (congrArg finish (replayAs_poisoned ha))⟩
  case error =>
    intro core s lc pk pc good
    have hbad {w : BitVec 9} (hw : ¬good w) : parityOk w = false := Bool.eq_false_iff.2 fun h => hw (parityOk_iff.1 h)
    have hexec {k i : BitVec 8} {w : BitVec 9} {t : State} (hkind : k.toNat ≤ 6) (ht : coreError s lc ⟨k, i, w⟩ = t) :
        exec (.replay core (some ⟨k, i, w⟩)) s = .next (settle t) := (execReplay_error hkind).trans (by rw [ht])
    refine ⟨fun w i hw hlive => ?_, fun w i hlive => ?_, fun w i hw => ?_, fun k i w hw hk => ?_⟩
    · refine ⟨?_, ?_, ?_, ?_⟩ <;> exact hexec (by decide) (coreError_live (.inl (hbad hw)) (by decide) hlive)
    · refine ⟨?_, ?_⟩ <;> exact hexec (by decide) (coreError_live (.inr (by decide)) (by decide) hlive)
    · exact hexec (by decide) (coreError_engine (hbad hw) rfl)
    · have hkind : k.toNat < 4 ∨ k.toNat = 6 := hk.imp_right fun h => by rw [h]; rfl
      exact hexec (by omega) (coreError_good (parityOk_iff.2 hw) hkind)
  case wide =>
    intro cause tower idx r p e s pk wide h hshares hidx
    refine ⟨?_, fun lc hcause hlc hst hcur => ?_⟩
    · rintro (⟨rfl, hdue⟩ | ⟨rfl, hdue⟩)
      · rw [execStepWideReplay_slice (cause := 1) (tower := tower) h hshares hidx (.inl rfl) (wideDue_poison hdue), stepWide]
      · rw [execStepWideReplay_slice (cause := 2) (tower := tower) h hshares hidx (.inr rfl) (wideDue_withheld hdue), stepWide]
    · subst hcause
      rw [execStepWideReplay_identity h hshares hidx rfl hlc hst hcur, stepWide]
      rfl

end

/-! ## O60: KCI words (R103, R104) -/

section

namespace Sys2Proof

/-- A number that tells every opcode of the tables from every other: twice its opcode, with the row that imm[0] picks of ROWMODE. -/
def KOp.key (o : KOp) : Nat := 2 * opcodeOf o + if o = .rowmodeExit then 1 else 0

theorem mem_allOps (o : KOp) : o ∈ allOps := by cases o <;> decide

/-- The tables list the opcodes in rising order. -/
theorem allOps_rising : (allOps.map KOp.key).Pairwise (· < ·) := List.isChain_iff_pairwise.1 (by decide +kernel)

theorem KOp.key_inj {o o' : KOp} (h : o.key = o'.key) : o = o' :=
  List.inj_on_of_nodup_map (allOps_rising.imp Nat.ne_of_lt) (mem_allOps o) (mem_allOps o') h

theorem slotOf_opcodeOf (o : KOp) : slotOf o < 4 ∧ 0 < opcodeOf o ∧ opcodeOf o / 0x40 = slotOf o ∧ opcodeOf o < 0x100 := by
  cases o <;> decide

/-- Only the two rows of ROWMODE share an opcode. -/
theorem opcodeOf_rowmodeExit {o : KOp} (h : opcodeOf o = opcodeOf .rowmodeExit) : o = .rowmodeExit ∨ o = .rowmodeEnter := by
  by_cases ho : o = .rowmodeExit
  · exact .inl ho
  · exact .inr (KOp.key_inj (by rw [KOp.key, if_neg ho, h]; rfl))

section
variable {i : Ins} {o o' : KOp}

theorem Ins.spells_iff : i.spells o = true ↔ i.opcode = opcodeOf o ∧ i.slot.toNat = slotOf o ∧
    (o = .rowmodeEnter → i.imm.getLsbD 0 = true) ∧ (o = .rowmodeExit → i.imm.getLsbD 0 = false) := by
  simp only [Ins.spells, Bool.and_eq_true, decide_eq_true_eq, and_assoc]
  refine and_congr_right fun _ => and_congr_right fun _ => ?_
  split
  · simp only [true_imp_iff, reduceCtorEq, false_imp_iff, and_true]
  · simp only [true_imp_iff, reduceCtorEq, false_imp_iff, true_and, Bool.not_eq_true']
  · next henter hexit => exact ⟨fun _ => ⟨fun h => (henter h).elim, fun h => (hexit h).elim⟩, fun _ => rfl⟩

/-- A word spells at most one opcode. -/
theorem Ins.spells_unique (h : i.spells o = true) (h' : i.spells o' = true) : o' = o := by
  obtain ⟨hop, -, henter, hexit⟩ := spells_iff.1 h
  obtain ⟨hop', -, henter', hexit'⟩ := spells_iff.1 h'
  have hsame : opcodeOf o' = opcodeOf o := hop'.symm.trans hop
  by_cases ho : o = .rowmodeExit
  · refine (opcodeOf_rowmodeExit (ho ▸ hsame)).elim (·.trans ho.symm) fun ho' => ?_
    exact absurd (henter' ho') (by rw [hexit ho]; decide)
  · refine KOp.key_inj ?_
    have ho' : o' ≠ .rowmodeExit := fun ho' => (opcodeOf_rowmodeExit (ho' ▸ hsame.symm)).elim ho fun ho =>
      absurd (henter ho) (by rw [hexit' ho']; decide)
    rw [KOp.key, KOp.key, if_neg ho, if_neg ho', hsame]

theorem Ins.op_eq_some : i.op = some o ↔ i.spells o = true := by
  refine ⟨List.find?_some, fun h => ?_⟩
  obtain ⟨o', ho'⟩ := Option.isSome_iff_exists.1 (List.find?_isSome.2 ⟨o, mem_allOps o, h⟩)
  rw [Ins.op, ho', spells_unique h (List.find?_some ho')]

/-- The pieces of a word in the layout of R103. -/
theorem layout_fields (op : BitVec 8) (pg : BitVec 3) (gn : BitVec 1) (d a b c : BitVec 5) (imm : BitVec 32) :
    let w := op ++ pg ++ gn ++ d ++ a ++ b ++ c ++ imm
    w.extractLsb' 56 8 = op ∧ w.extractLsb' 53 3 = pg ∧ w.extractLsb' 52 1 = gn ∧ w.extractLsb' 47 5 = d ∧ w.extractLsb' 42 5 = a ∧
    w.extractLsb' 37 5 = b ∧ w.extractLsb' 32 5 = c ∧ w.extractLsb' 0 32 = imm := by
  intro w
  refine ⟨?op, ?_, ?_, ?_, ?_, ?_, ?_, ?_⟩
  case op =>
    repeat rw [BitVec.extractLsb'_append_eq_of_le (by decide)]
    exact BitVec.extractLsb'_eq_self
  all_goals
    repeat rw [BitVec.extractLsb'_append_eq_of_le (by decide)]
    exact BitVec.extractLsb'_append_eq_right

/-- The fields of a word in the layout of R103. -/
theorem Ins.fields_of_word {pg : BitVec 3} {gn : Bool} {d a b c : BitVec 5} {imm : BitVec 32} (h : i.word = kciWord o pg gn d a b c imm) :
    i.opcode = opcodeOf o ∧ i.pg = pg ∧ i.gn = gn ∧ i.d = d ∧ i.a = a ∧ i.b = b ∧ i.c = c ∧ i.imm = imm := by
  obtain ⟨hop, hpg, hgn, hd, ha, hb, hc, himm⟩ := layout_fields (BitVec.ofNat 8 (opcodeOf o)) pg (BitVec.ofBool gn) d a b c imm
  have hopcode : (BitVec.ofNat 8 (opcodeOf o)).toNat = opcodeOf o := Nat.mod_eq_of_lt (slotOf_opcodeOf o).2.2.2
  have hneg : (i.word.extractLsb' 52 1).getLsbD 0 = gn := by
    rw [h]
    exact (congrArg (BitVec.getLsbD · 0) hgn).trans (by simp)
  simp only [Ins.opcode, Ins.pg, Ins.d, Ins.a, Ins.b, Ins.c, Ins.imm, h]
  exact ⟨(congrArg BitVec.toNat hop).trans hopcode, hpg, by simpa [Ins.gn] using hneg, hd, ha, hb, hc, himm⟩

/-- A word is made of its fields. -/
theorem Ins.word_of_opcode (h : i.opcode = opcodeOf o) : i.word = kciWord o i.pg i.gn i.d i.a i.b i.c i.imm := by
  have hop : BitVec.ofNat 8 (opcodeOf o) = i.word.extractLsb' 56 8 := by
    rw [← h, Ins.opcode, BitVec.ofNat_toNat, BitVec.setWidth_eq]
  have hgn : BitVec.ofBool i.gn = i.word.extractLsb' 52 1 := by
    ext k hk
    obtain rfl : k = 0 := by omega
    simp [Ins.gn]
  simp only [kciWord, hop, hgn, Ins.pg, Ins.d, Ins.a, Ins.b, Ins.c, Ins.imm]
  repeat rw [BitVec.extractLsb'_append_extractLsb'_eq_extractLsb' (by rfl)]
  exact BitVec.extractLsb'_eq_self.symm

end

end Sys2Proof

open Sys2Proof Sys2Proof.Machine

/-- Settles O60: a word is its fields and its fields are the word's; `KOp.key` tells the opcodes apart. -/
theorem kciWords : Obligations.KciWords := by
  unfold Obligations.KciWords
  refine ⟨fun i o pg gn d a b c imm hword hslot henter hexit => ?read, fun i o ho => ?back, fun i hi => ?none, slotOf_opcodeOf⟩
  case read =>
    obtain ⟨hop, hpg, hgn, hd, ha, hb, hc, himm⟩ := Ins.fields_of_word hword
    exact ⟨Ins.op_eq_some.2 (Ins.spells_iff.2 ⟨hop, hslot, himm ▸ henter, himm ▸ hexit⟩), hpg, hgn, hd, ha, hb, hc, himm⟩
  case back =>
    have hspells := Ins.op_eq_some.1 ho
    obtain ⟨hop, hslot, -⟩ := Ins.spells_iff.1 hspells
    exact ⟨Ins.word_of_opcode hop, hslot, fun o' => Ins.spells_unique hspells⟩
  case none =>
    refine Option.eq_none_iff_forall_ne_some.2 fun o ho => ?_
    obtain ⟨hop, -⟩ := Ins.spells_iff.1 (Ins.op_eq_some.1 ho)
    obtain ⟨-, hpos, -⟩ := slotOf_opcodeOf o
    omega

end

/-! ## O57: where a result lands (R94, R95, R98, R101) -/

section

namespace Sys2Proof.Machine

/-! ### Lanes of a vector register -/

theorem lane_ofNat (N : Nat) {l : Nat} (h : l < 64) : lane (BitVec.ofNat 2048 N) l = BitVec.ofNat 32 (N / 2 ^ (32 * l)) := by
  refine BitVec.eq_of_getLsbD_eq fun k hk => ?_
  have hbit : 32 * l + k < 2048 := by omega
  simp only [lane, BitVec.getLsbD_extractLsb', BitVec.getLsbD_ofNat, hk, hbit, Nat.testBit_div_two_pow, decide_true,
    Bool.true_and, Nat.add_comm k]

/-- Lane k of lanes packed one above the other. -/
theorem packed_lane (f : Nat → W32) (l : List Nat) {k : Nat} (h : k < l.length) :
    BitVec.ofNat 32 (l.foldr (fun i acc => (f i).toNat + 2 ^ 32 * acc) 0 / 2 ^ (32 * k)) = f l[k] := by
  induction l generalizing k with
  | nil => exact absurd h (Nat.not_lt_zero _)
  | cons j r ih =>
    have hlt := (f j).isLt
    cases k with
    | zero =>
      refine BitVec.eq_of_toNat_eq ?_
      simp only [List.foldr_cons, BitVec.toNat_ofNat, List.getElem_cons_zero]
      omega
    | succ k =>
      rw [List.getElem_cons_succ, ← ih (Nat.lt_of_succ_lt_succ h), List.foldr_cons, show 32 * (k + 1) = 32 + 32 * k by omega, Nat.pow_add,
        ← Nat.div_div_eq_div_mul]
      congr 2
      omega

@[simp] theorem lane_ofLanes (f : Nat → W32) {l : Nat} (h : l < 64) : lane (ofLanes f) l = f l := by
  rw [ofLanes, lane_ofNat _ h, packed_lane f (List.range 64) (by simpa using h), List.getElem_range]

theorem laneMask_bit (m : W64) {l k : Nat} (hl : l < 64) (hk : k < 32) : (laneMask m).getLsbD (32 * l + k) = m.getLsbD l := by
  have h : (lane (laneMask m) l).getLsbD k = (if m.getLsbD l then BitVec.allOnes 32 else 0).getLsbD k := by rw [laneMask, lane_ofLanes _ hl]
  rw [lane, BitVec.getLsbD_extractLsb', decide_eq_true hk, Bool.true_and] at h
  rw [h]
  split
  · next hm => simp only [hm, BitVec.getLsbD_allOnes, hk, decide_true]
  · next hm => simp only [hm, BitVec.ofNat_eq_ofNat, BitVec.getLsbD_zero]

/-- Lanes of a register in which those that a mask selects are replaced (R101). -/
theorem lane_blend (old new : VReg) (m : W64) {l : Nat} (h : l < 64) :
    lane ((old &&& ~~~laneMask m) ||| (new &&& laneMask m)) l = if m.getLsbD l then lane new l else lane old l := by
  ext k hk
  have hbit : 32 * l + k < 2048 := by omega
  have hsel : m.getLsbD l = (laneMask m).getLsbD (32 * l + k) := (laneMask_bit m h hk).symm
  cases hm : m.getLsbD l <;> simp [lane, ← BitVec.getLsbD_eq_getElem, hbit, hk, ← hsel, hm]

/-! ### Each kind of result in its register -/

section
variable (c : Core)

theorem land_s0 (v : W64) (t : Option Nat) : c.land (.sreg 0 v t) = c := rfl

theorem land_p0 (m v : W64) : c.land (.preg 0 m v) = c := rfl

section
variable {d : Nat}

theorem land_sreg (h : d ≠ 0) (v : W64) (t : Option Nat) : c.land (.sreg d v t) = { c with
    s := tset 0 c.s d v, sTag := t.elim (tdel c.sTag d) (tput c.sTag d) } := by
  cases t <;> exact if_neg h

theorem sGet_land_sreg (h : d ≠ 0) (v : W64) (t : Option Nat) : (c.land (.sreg d v t)).sGet d = v := by
  rw [land_sreg c h, Core.sGet, if_neg h, tget_tset_self]

theorem sGet_land_sreg_ne (h : d ≠ 0) (v : W64) (t : Option Nat) {n : Nat} (hn : n ≠ d) : (c.land (.sreg d v t)).sGet n = c.sGet n := by
  simp only [land_sreg c h, Core.sGet, tget_tset_ne 0 c.s v hn]

theorem sTag_land_sreg (h : d ≠ 0) (v : W64) (t : Option Nat) : tget? (c.land (.sreg d v t)).sTag d = t := by
  rw [land_sreg c h]
  cases t <;> simp

theorem sTag_land_sreg_ne (h : d ≠ 0) (v : W64) (t : Option Nat) {n : Nat} (hn : n ≠ d) :
    tget? (c.land (.sreg d v t)).sTag n = tget? c.sTag n := by
  rw [land_sreg c h]
  cases t with
  | some a => exact tget?_tput_ne c.sTag a hn
  | none => exact tget?_tdel_ne c.sTag hn

theorem land_preg (h : d ≠ 0) (m v : W64) :
    c.land (.preg d m v) = { c with p := tset 0 c.p d ((c.pGet d &&& ~~~m) ||| (v &&& m)) } := by
  simp only [Core.land, if_neg h]

theorem pGet_land_preg (h : d ≠ 0) (m v : W64) (l : Nat) :
    ((c.land (.preg d m v)).pGet d).getLsbD l = if m.getLsbD l then v.getLsbD l else (c.pGet d).getLsbD l := by
  have hget : (c.land (.preg d m v)).pGet d = (c.pGet d &&& ~~~m) ||| (v &&& m) := by rw [land_preg c h, Core.pGet, if_neg h, tget_tset_self]
  rw [hget]
  by_cases hl : l < 64
  · cases hm : m.getLsbD l <;> simp only [BitVec.getLsbD_or, BitVec.getLsbD_and, BitVec.getLsbD_not, hl, hm] <;> simp
  · simp [BitVec.getLsbD_of_ge _ l (Nat.not_lt.1 hl)]

theorem pGet_land_preg_ne (h : d ≠ 0) (m v : W64) {n : Nat} (hn : n ≠ d) : (c.land (.preg d m v)).pGet n = c.pGet n := by
  simp only [land_preg c h, Core.pGet, tget_tset_ne 0 c.p _ hn]

end

variable (d : Nat) (m : W64) (v : VReg) (g : Tbl Nat)

theorem lane_land_vreg {l : Nat} (h : l < 64) :
    lane ((c.land (.vreg d m v g)).vGet d) l = if m.getLsbD l then lane v l else lane (c.vGet d) l := by
  rw [← lane_blend _ _ _ h]
  simp only [Core.land, Core.vGet, tget?_tput_self, Option.getD_some]

theorem vGet_land_vreg_ne {n : Nat} (hn : n ≠ d) : (c.land (.vreg d m v g)).vGet n = c.vGet n :=
  congrArg (fun x : Option VReg => x.getD (if c.vstamp = 0 then 0 else Config.freeVreg (c.vstamp - 1) n)) (tget?_tput_ne c.v _ hn)

end

end Sys2Proof.Machine

open Sys2Proof Sys2Proof.Machine

/-- Settles O57, by the kind of the result that lands. -/
theorem landingRules : Obligations.LandingRules := by
  unfold Obligations.LandingRules
  refine ⟨fun _ => ⟨rfl, rfl⟩, fun c v m t => ⟨land_s0 c v t, land_p0 c m v⟩, ?sreg, ?preg, ?vreg, fun f l h => lane_ofLanes f h⟩
  case sreg =>
    intro c d v t h u
    exact ⟨sGet_land_sreg c h v t, sTag_land_sreg c h v t, fun n hn => ⟨sGet_land_sreg_ne c h v t hn, sTag_land_sreg_ne c h v t hn⟩,
      by simp only [u, land_sreg c h]⟩
  case preg =>
    intro c d m v h u
    exact ⟨pGet_land_preg c h m v, fun n hn => pGet_land_preg_ne c h m v hn, by simp only [u, land_preg c h]⟩
  case vreg =>
    intro c d m v g u
    exact ⟨fun l h => lane_land_vreg c d m v g h, fun n hn => vGet_land_vreg_ne c d m v g hn, rfl⟩

end

/-! ## O59: when sending an instruction has no effect beyond its bundle (R96, R97, R100, R101) -/

section

namespace Sys2Proof.Machine

/-! ### The rows of the KCI opcodes -/

/-- The row of an opcode sends its word to the core. -/
theorem exec_kciInstr (o : KOp) (i : Ins) (tower : BitVec 4) (core : BitVec 9) (found : List GangHit) (s : State) :
    ∃ n, exec (kciInstr o i tower core found) s = kci o n i s := by
  cases o <;> exact ⟨_, rfl⟩

theorem kci_takes {o : KOp} {i : Ins} {s : State} {n : String} (h : rowTakes o i = true) :
    kci o n i s = .next (settle (submit o i s)) :=
  shaped_true h

/-- A row ends in what sending its word makes, with the pins following. -/
theorem exec_of_submit {o : KOp} {i : Ins} {s t : State} (tower : BitVec 4) (core : BitVec 9) (found : List GangHit)
    (hr : rowTakes o i = true) (ht : submit o i s = t) : exec (kciInstr o i tower core found) s = .next (settle t) := by
  obtain ⟨n, hn⟩ := exec_kciInstr o i tower core found s
  rw [hn, kci_takes hr, ht]

section
variable {o : KOp} {i : Ins}

theorem spells_of_decodeOk (h : decodeOk o i = true) : i.spells o = true := by
  simp only [decodeOk, Bool.and_eq_true, and_assoc] at h
  obtain ⟨hs, -⟩ := h
  exact hs

theorem rowTakes_of_decodeOk (h : decodeOk o i = true) : rowTakes o i = true := by
  have hs := spells_of_decodeOk h
  have hw : i.word ≠ 0 := fun h0 => by
    obtain ⟨hop, -⟩ := Ins.spells_iff.1 hs
    obtain ⟨-, hpos, -⟩ := slotOf_opcodeOf o
    have hz : i.opcode = 0 := by rw [Ins.opcode, h0]; rfl
    omega
  simp only [rowTakes, hs, hw, ne_eq, not_false_eq_true, decide_true, Bool.true_or, Bool.and_self]

/-! ### A bundle of one instruction that does not execute -/

theorem inSlotOrder_one (x : Slot) : inSlotOrder [x] = [x] := by
  have hpos : x.pos ∈ List.range 4 := List.mem_range.2 x.ins.slot.isLt
  generalize hp : x.pos = p at hpos
  have hfilter (n : Nat) : [x].filter (fun x => decide (x.pos = n)) = if p = n then [x] else [] := by rw [List.filter_singleton, hp]; simp
  simp only [inSlotOrder, hfilter]
  fin_cases hpos <;> rfl

theorem spent_one (hg : i.gap = 0) (hs : i.stall = 0) : spent [⟨o, i⟩] = [⟨o, i⟩] := by
  have hi : ({ i with gap := 0, stall := 0 } : Ins) = i := by
    cases i
    cases hg
    cases hs
    rfl
  simp only [spent, List.map_cons, List.map_nil, hi]

/-- One instruction whose word decodes meets no decode fault, unless it is a branch in a delay bundle (R100). -/
theorem decodeFaults_one {c : Core} (hd : decodeOk o i = true) (hb : isBranch o = true → c.delay = none) :
    decodeFaults c [⟨o, i⟩] = [] := by
  have hk : (⟨o, i⟩ : Slot).known = true := spells_of_decodeOk hd
  have hbr : ¬(isBranch o = true ∧ c.delay.isSome = true) := fun ⟨h1, h2⟩ => by rw [hb h1] at h2; exact absurd h2 (by decide)
  simp only [decodeFaults, List.filterMap_cons, List.filterMap_nil, hd, if_true, List.length_cons, List.length_nil, List.filter_cons,
    List.filter_nil, hk, if_neg hbr]
  cases dstOf o i <;> simp

/-- A core with no loads, whose bundle holds one instruction that does not execute, has nothing to wait for (R97). -/
theorem mustWait_quiet {c : Core} (hl : c.loads = []) (hx : executes c o i = false) : mustWait c [⟨o, i⟩] = false := by
  simp [mustWait, storesOf, hl, hx]

theorem interlockTo_nil {c : Core} {b : List Slot} (h : c.fly = []) : interlockTo c b = c.cyc := by
  simp only [interlockTo, h, List.foldl_nil]

end

/-- The core with a bundle of one instruction behind it that does not execute: after a branch that is not taken the next bundle is a
delay bundle (R100). -/
def Core.skipped (o : KOp) (d : Core) : Core := { d with delay := if isBranch o then some none else none }

theorem advance_quiet {c : Core} {o : KOp} {i : Ins} (hf : c.fly = []) (hx : executes c o i = false) :
    c.advance c [⟨o, i⟩] = c.past.skipped o := by
  have hadv (n : Nat) (d : Option (Option Nat)) : Core.landTo { c with pc := c.nextPc, delay := d, cyc := n } n =
      { c with pc := c.nextPc, delay := d, cyc := n } := landTo_nil (c := { c with pc := c.nextPc, delay := d, cyc := n }) hf n
  cases hb : isBranch o <;>
    simp only [Core.advance, List.find?_cons, List.find?_nil, hb, hx, Bool.false_eq_true, if_false, hadv, Core.skipped, Core.past, if_true]

/-- A bundle of one instruction that does not execute only passes. -/
theorem issueBundle_quiet {s : State} {pk lc : Nat} {o : KOp} {i : Ins} {c : Core} (hc : coreOf s pk = c) (hset : setCore s pk c = s)
    (hfly : c.fly = []) (hload : c.loads = []) (hstall : c.stalled = false) (hg : i.gap = 0) (hs : i.stall = 0)
    (hd : decodeOk o i = true) (hb : isBranch o = true → c.delay = none) (hx : executes c o i = false) (hp : pk ∉ s.stone.parityAt)
    (hpc : c.nextPc < bundleCount s lc) : issueBundle s pk lc [⟨o, i⟩] = (setCore s pk (c.past.skipped o), true) := by
  have hgo : ({ c with stalled := false } : Core) = c := by rw [← hstall]
  have hin : ¬((c.past.skipped o).st = .run ∧ bundleCount s lc ≤ (c.past.skipped o).pc) := fun h => Nat.not_le.2 hpc h.2
  simp only [issueBundle, List.head?_cons, Option.map_some, Option.getD_some, hg, hs, hc, Core.passNops, Bool.not_true, Bool.false_eq_true,
    if_false, hset, Nat.add_zero, landTo_nil hfly, interlockTo_nil hfly, spent_one hg hs, inSlotOrder_one, List.filter_cons, hd, if_true,
    List.filter_nil, mustWait_quiet hload hx, hgo, hx, decodeFaults_one hd hb, List.map_nil, List.flatMap_nil, List.append_nil, lowest,
    List.contains_iff_mem, hp, false_and, List.findSome?_nil, scaleStops, List.any_nil, List.foldl_nil, modCore, advance_quiet hfly hx,
    coreOf_setCore, bundleCount_setCore, if_neg hin]

section
variable {o : KOp} {i : Ins} {s : State}

/-- The core of an instruction that is sent, with the stream that then stands. -/
theorem submit_run (h : (s.coreFor i).st = .run) (hfree : slotFree i (s.coreFor i).stream = true) : submit o i s =
    resume (setCore s (physCore s i.core.toNat) { s.coreFor i with stream := (s.coreFor i).stream ++ [⟨o, i⟩] }) i.core.toNat := by
  simp only [submit, modCore, State.coreFor] at h hfree ⊢
  rw [if_neg (not_not.2 h), if_pos hfree]

theorem splitBundle_open {l : List Slot} (h : ∀ x ∈ l, x.ins.last = false) : splitBundle l = none := by
  induction l with
  | nil => rfl
  | cons x r ih =>
    rw [splitBundle, h x (List.mem_cons_self ..), ih fun y hy => h y (List.mem_cons_of_mem _ hy)]
    rfl

/-- A core whose bundle is not yet whole waits for the rest of it. -/
theorem runCore_open {pk lc n : Nat} (h : splitBundle (coreOf s pk).stream = none) : runCore n s pk lc = s := by
  cases n <;> simp [runCore, h]

theorem submit_open (hrun : (s.coreFor i).st = .run) (heng : (s.coreFor i).eng = []) (hlast : i.last = false)
    (hstream : ∀ x ∈ (s.coreFor i).stream, x.ins.last = false) (hfree : slotFree i (s.coreFor i).stream = true) :
    submit o i s = setCore s (physCore s i.core.toNat) { s.coreFor i with stream := (s.coreFor i).stream ++ [⟨o, i⟩] } := by
  rw [submit_run hrun hfree]
  generalize hc : ({ s.coreFor i with stream := (s.coreFor i).stream ++ [⟨o, i⟩] } : Core) = c
  have hst : c.st = .run := by rw [← hc]; exact hrun
  have hempty : c.eng = [] := by rw [← hc]; exact heng
  have hopen : splitBundle c.stream = none := splitBundle_open fun x hx => by
    rw [← hc] at hx
    rcases List.mem_append.1 hx with hx | hx
    · exact hstream x hx
    · rw [List.mem_singleton.1 hx]; exact hlast
  have hstart := startEngine_none (s := setCore s (physCore s i.core.toNat) c) (lc := i.core.toNat)
    (by rw [coreL, physCore_setCore, coreOf_setCore]; exact hempty)
  simp only [resume, physCore_setCore, hstart, coreOf_setCore]
  rw [runCore_open (by rw [coreOf_setCore]; exact hopen), tryCommit_run (by rw [coreOf_setCore, hst]; decide)]

theorem submit_quiet (h : Ready o i s) (hx : executes (s.coreFor i) o i = false) (hpc : (s.coreFor i).nextPc < bundleCount s i.core.toNat)
    (hp : physCore s i.core.toNat ∉ s.stone.parityAt) : submit o i s = s.passed i (Core.skipped o) := by
  obtain ⟨⟨hrun, hstream, hfly, hload, heng, hstall⟩, ⟨hlast, hgap, hst⟩, hdec, hbr, -⟩ := h
  let c := (s.coreFor i).sent o i
  let d := c.past.skipped o
  have hput (a b : Core) (ha : a.st = .run) (hb : b.st = .run) :
      setCore (setCore s (physCore s i.core.toNat) a) (physCore s i.core.toNat) b = setCore s (physCore s i.core.toNat) b :=
    setCore_setCore (ne_init_of_st (by rw [ha]; decide)) (ne_init_of_st (by rw [hb]; decide))
  have hstart (a : Core) (ha : a.eng = []) :
      startEngine (setCore s (physCore s i.core.toNat) a) i.core.toNat = setCore s (physCore s i.core.toNat) a :=
    startEngine_none (by rw [coreL, physCore_setCore, coreOf_setCore]; exact ha)
  have hbundle := issueBundle_quiet (s := setCore s (physCore s i.core.toNat) c) (lc := i.core.toNat) (coreOf_setCore ..) (hput c c hrun hrun)
    hfly hload hstall hgap hst hdec hbr hx hp hpc
  have hone := runCore_one ⟨o, i⟩ (by rw [coreOf_setCore]; exact hrun) (by rw [coreOf_setCore]; rfl) hlast hbundle
  have hpassed : ({ d with stream := [] } : Core) = (s.coreFor i).past.skipped o := by rw [← hstream]; rfl
  rw [submit_run hrun (by rw [hstream]; rfl), hstream]
  show resume (setCore s (physCore s i.core.toNat) c) i.core.toNat = _
  simp only [resume, physCore_setCore, hstart c heng, coreOf_setCore]
  show tryCommit (runCore 1 _ _ _) _ = _
  rw [hone, hput c d hrun hrun, modCore, coreOf_setCore, if_pos (.inl hrun), hput d { d with stream := [] } hrun hrun,
    hstart { d with stream := [] } heng, hpassed, tryCommit_run (by rw [coreOf_setCore]; exact hrun ▸ (by decide))]
  rfl

end

end Sys2Proof.Machine

open Sys2Proof Sys2Proof.Machine

/-- Settles O59: a core that does not run, an open bundle, and a false guard. -/
theorem quietIssue : Obligations.QuietIssue := by
  unfold Obligations.QuietIssue
  intro o i s tower core found c
  refine ⟨fun hst hr => exec_of_submit tower core found hr (if_pos hst), fun hst hr heng hlast hstream hfree =>
    exec_of_submit tower core found hr (submit_open hst heng hlast hstream hfree), fun h hx hpc hp =>
    exec_of_submit tower core found (rowTakes_of_decodeOk ?_) (submit_quiet h hx hpc hp)⟩
  obtain ⟨-, -, hdec, -⟩ := h
  exact hdec

end

/-! ## O1 to O6: the instructions that compute on registers (R98, R100, R108, R113, R114) -/

section

namespace Sys2Proof.Machine

section
variable {o : KOp} {i : Ins} {s t : State} {w : RegW}

/-- The row of an instruction that issues alone ends in what sending it makes. -/
theorem exec_of_alone (h : Alone o i s) (ht : submit o i s = t) : exec (kciInstr o i 0 0 []) s = .next (settle t) := by
  refine exec_of_submit 0 0 [] (rowTakes_of_decodeOk ?_) ht
  obtain ⟨⟨-, -, hdec, -⟩, -⟩ := h
  exact hdec

theorem exec_scalar_next (h : Alone o i s) (hb : isBranch o = false)
    (hr : scalarResult s i.core.toNat (s.coreFor i) o i = some (w, 1)) : exec (kciInstr o i 0 0 []) s = .next (settle (s.wrote i w)) :=
  exec_of_alone h (submit_scalar h hb hr)

theorem exec_scalar_later {L : Nat} (h : Alone o i s) (hb : isBranch o = false) (hL : L ≠ 1)
    (hr : scalarResult s i.core.toNat (s.coreFor i) o i = some (w, L)) :
    exec (kciInstr o i 0 0 []) s = .next (settle (s.flying i L w false)) :=
  exec_of_alone h ((submit_scalar h hb hr).trans (if_neg hL))

theorem exec_vector_next (h : Alone o i s) (hL : vLatency o = 1)
    (hr : vectorResult (s.scalesRead o i) (physCore s i.core.toNat) i.core.toNat (s.coreFor i) o i = some (w, none)) :
    exec (kciInstr o i 0 0 []) s = .next (settle ((s.scalesRead o i).wrote i w)) :=
  exec_of_alone h ((submit_vector h hr).trans (if_pos hL))

theorem exec_vector_later (h : Alone o i s) (hL : vLatency o ≠ 1)
    (hr : vectorResult (s.scalesRead o i) (physCore s i.core.toNat) i.core.toNat (s.coreFor i) o i = some (w, none)) :
    exec (kciInstr o i 0 0 []) s = .next (settle ((s.scalesRead o i).flying i (vLatency o) w false)) :=
  exec_of_alone h ((submit_vector h hr).trans (if_neg hL))

end

theorem Alone.no_stream {o : KOp} {i : Ins} {s : State} (h : Alone o i s) : (s.coreFor i).stream = [] := by
  obtain ⟨⟨⟨-, hstream, -⟩, -⟩, -⟩ := h
  exact hstream

theorem Alone.runs {o : KOp} {i : Ins} {s : State} (h : Alone o i s) : executes (s.coreFor i) o i = true := by
  obtain ⟨-, hx, -⟩ := h
  exact hx

/-! ### Values of R108 in the words of the rule -/

theorem valDivu_eq (a b : W64) : valDivu a b = if b = 0 then BitVec.allOnes 64 else a / b := by
  rw [valDivu, ← BitVec.toNat_udiv, BitVec.ofNat_toNat, BitVec.setWidth_eq]

theorem valRemu_eq (a b : W64) : valRemu a b = if b = 0 then a else a % b := by
  rw [valRemu, ← BitVec.toNat_umod, BitVec.ofNat_toNat, BitVec.setWidth_eq]

theorem valLih_eq (d : W64) (imm : W32) : valLih d imm = imm ++ d.setWidth 32 := by
  refine BitVec.eq_of_toNat_eq ?_
  have himm := imm.isLt
  rw [valLih, BitVec.toNat_ofNat, BitVec.toNat_append, BitVec.toNat_setWidth, Nat.shiftLeft_eq, Nat.mul_comm imm.toNat,
    ← Nat.two_pow_add_eq_or_of_lt (Nat.mod_lt _ (by decide))]
  omega

theorem valShift_eq (kind : Nat) (a : W64) (n : Nat) :
    valShift kind a n = if kind = 0 then a <<< n else if kind = 1 then a >>> n else a.sshiftRight n := by
  match kind with
  | 0 => rfl
  | 1 => rfl
  | k + 2 => rw [if_neg (by omega), if_neg (by omega)]; rfl

/-! ### A result in flight beside another change of the core (R98) -/

/-- An instruction alone that changes its core and puts one result in flight. -/
theorem submit_besideFly {o : KOp} {i : Ins} {s u : State} {f : Core → Core} {L : Nat} {w : RegW} {lock : Bool} (h : Alone o i s)
    (hb : isBranch o = false) (hco : o ≠ .commit) (hL : 1 < L) (hf : Beside f) (hkeep : ∀ d, (f d).st = d.st ∧ (f d).eng = d.eng)
    (he : effect (setCore s (physCore s i.core.toNat) ((s.coreFor i).sent o i)) (physCore s i.core.toNat) i.core.toNat
      ((s.coreFor i).sent o i) o i =
        setCore u (physCore s i.core.toNat) { f ((s.coreFor i).sent o i) with fly := [⟨(s.coreFor i).cyc + L, w, lock⟩] })
    (hu : physCore u i.core.toNat = physCore s i.core.toNat) (hbc : bundleCount u i.core.toNat = bundleCount s i.core.toNat) :
    submit o i s =
      setCore u (physCore s i.core.toNat) { f (s.coreFor i).past with fly := [⟨(s.coreFor i).cyc + L, w, lock⟩] } := by
  obtain ⟨hrun, heng, -, hpc⟩ := h.core_eq
  obtain ⟨-, hcyc, hpass⟩ := hf ((s.coreFor i).sent o i)
  obtain ⟨hst, hqueue⟩ := hkeep ((s.coreFor i).sent o i)
  have hadvance := advance_fly (c := (s.coreFor i).sent o i) (i := i) hb L w lock (Nat.le_of_lt hL)
    (d := { f ((s.coreFor i).sent o i) with fly := [⟨(s.coreFor i).cyc + L, w, lock⟩] }) (by rw [hcyc]; rfl)
  simp only [if_neg (Nat.ne_of_gt hL)] at hadvance
  refine (submit_core h _ he hu hbc hadvance (hst.trans hrun) (hst.trans hrun) (hqueue.trans heng) (hpc.resolve_left hco)).trans ?_
  have hpast : f (s.coreFor i).past = { f ((s.coreFor i).sent o i) with
      pc := (s.coreFor i).nextPc, delay := none, cyc := (s.coreFor i).cyc + 1, stream := [] } := by
    rw [hpass, ← h.no_stream]
    rfl
  rw [hpast, hcyc]
  rfl

theorem fly1_sent {o : KOp} {i : Ins} {s : State} (h : Alone o i s) (L : Nat) (w : RegW) (lock : Bool) :
    ((s.coreFor i).sent o i).fly1 L w lock = { (s.coreFor i).sent o i with fly := [⟨(s.coreFor i).cyc + L, w, lock⟩] } := by
  obtain ⟨-, -, hfly, -⟩ := h.core_eq
  rw [Core.fly1, show ((s.coreFor i).sent o i).fly = [] from hfly]
  rfl

/-- A conversion that captures (R113, R187). -/
theorem submit_vcvt {i : Ins} {s : State} {w : RegW} {t : Nat} {k : Cap} (h : Alone .vcvt i s)
    (hr : vectorResult (s.scalesRead .vcvt i) (physCore s i.core.toNat) i.core.toNat (s.coreFor i) .vcvt i = some (w, some (t, k))) :
    submit .vcvt i s = setCore (s.scalesRead .vcvt i) (physCore s i.core.toNat)
      { stageCap (s.coreFor i).past t k with fly := [⟨(s.coreFor i).cyc + 6, w, false⟩] } := by
  obtain ⟨-, hread, -, hphys, hcount⟩ := scalesRead_keeps s .vcvt i
  refine submit_besideFly (f := fun c => stageCap c t k) h rfl (by decide) (by decide) (fun _ => ⟨rfl, rfl, fun _ _ _ _ => rfl⟩)
    (fun _ => ⟨rfl, rfl⟩) ?_ hphys hcount
  have hres : vectorResult (setCore (s.scalesRead .vcvt i) (physCore s i.core.toNat) ((s.coreFor i).sent .vcvt i)) (physCore s i.core.toNat)
      i.core.toNat ((s.coreFor i).sent .vcvt i) .vcvt i = some (w, some (t, k)) := hr
  simp only [effect, scalarResult, hread, hres, modCore, coreOf_setCore, vLatency, fly1_sent h]
  exact setCore_sent h _ rfl

/-! ### Branches (R100) -/

section
variable {o : KOp} {i : Ins} {s : State}

theorem advance_branch {c d : Core} (hb : isBranch o = true) (hx : executes c o i = true) :
    d.advance c [⟨o, i⟩] = Core.landTo { d with pc := c.nextPc, delay := some (branchTarget c o i), cyc := d.cyc + 1 } (d.cyc + 1) := by
  simp only [Core.advance, List.find?_cons, hb, hx, if_true]

/-- A branch that writes no register: its core passes the bundle with the target held for the one after the next. -/
theorem submit_branch (h : Alone o i s) (hb : isBranch o = true)
    (he : effect (setCore s (physCore s i.core.toNat) ((s.coreFor i).sent o i)) (physCore s i.core.toNat) i.core.toNat
      ((s.coreFor i).sent o i) o i = setCore s (physCore s i.core.toNat) ((s.coreFor i).sent o i)) :
    submit o i s = s.passed i fun c => { c with delay := some (branchTarget (s.coreFor i) o i) } := by
  obtain ⟨hrun, heng, hfly, hpc⟩ := h.core_eq
  have hstream := h.no_stream
  have htarget : branchTarget ((s.coreFor i).sent o i) o i = branchTarget (s.coreFor i) o i := by cases o <;> rfl
  have hadvance := advance_branch (c := (s.coreFor i).sent o i) (d := (s.coreFor i).sent o i) hb h.runs
  have hstay := landTo_nil (c := { (s.coreFor i).sent o i with
    pc := (s.coreFor i).nextPc, delay := some (branchTarget ((s.coreFor i).sent o i) o i), cyc := (s.coreFor i).cyc + 1 }) hfly
    ((s.coreFor i).cyc + 1)
  rw [htarget] at hadvance hstay
  refine (submit_core h _ he rfl rfl (hadvance.trans hstay) hrun hrun heng (hpc.resolve_left (by rintro rfl; cases hb))).trans ?_
  rw [State.passed, ← hstream]
  rfl

theorem submit_bnzd (h : Alone .bnzd i s) : submit .bnzd i s = s.passed i fun c =>
    { c.land (.sreg i.a.toNat ((s.coreFor i).sGet i.a.toNat - 1) none) with delay := some (branchTarget (s.coreFor i) .bnzd i) } := by
  obtain ⟨hrun, heng, hfly, hpc⟩ := h.core_eq
  have hstream := h.no_stream
  let c := (s.coreFor i).sent .bnzd i
  let w := RegW.sreg i.a.toNat ((s.coreFor i).sGet i.a.toNat - 1) none
  let d : Core := { c with fly := [⟨c.cyc + 1, w, false⟩] }
  let e : Core := { d with pc := c.nextPc, delay := some (branchTarget c .bnzd i), cyc := d.cyc + 1 }
  have heffect : effect (setCore s (physCore s i.core.toNat) c) (physCore s i.core.toNat) i.core.toNat c .bnzd i =
      setCore s (physCore s i.core.toNat) d := by
    rw [show d = c.fly1 1 w false from (fly1_sent h 1 w false).symm]
    exact modCore_setCore (f := fun c => c.fly1 1 w false) h.sent_on h.sent_on
  have hland : e.landTo (d.cyc + 1) = { e.land w with fly := [] } := by
    simp only [Core.landTo, e, d, List.takeWhile, List.dropWhile, Nat.le_refl, decide_true, List.foldl]
  have hadvance := (advance_branch (c := c) (d := d) (o := .bnzd) rfl h.runs).trans hland
  obtain ⟨hst, hqueue, -, hpc', -⟩ := land_keep e w
  refine (submit_core h d heffect rfl rfl hadvance hrun (hst.trans hrun) (hqueue.trans heng)
    (by rw [hpc']; exact hpc.resolve_left (by decide))).trans ?_
  have hcore : ({ e.land w with fly := [], stream := [] } : Core) =
      { (s.coreFor i).past.land w with delay := some (branchTarget (s.coreFor i) .bnzd i) } := by
    rw [← hstream, ← hfly]
    simp only [w, Core.land]
    split <;> rfl
  exact congrArg (setCore s _) hcore

end

/-! ### MFS (R118) -/

section
variable {i : Ins} {s : State} {n : Nat}

theorem exec_mfs_next (h : Alone .mfs i s) (hn : i.im 7 0 = n) (hL : ¬(n = 5 ∨ n = 6)) :
    exec (.mfs i) s = .next (settle (s.wrote i (.sreg i.d.toNat (BitVec.ofNat 64 (mfsVal s i.core.toNat (s.coreFor i) n)) none))) := by
  refine exec_scalar_next (o := .mfs) h rfl ?_
  simp only [scalarResult, hn, if_neg hL]

theorem exec_mfs_later (h : Alone .mfs i s) (hn : i.im 7 0 = n) (hL : n = 5 ∨ n = 6) :
    exec (.mfs i) s =
      .next (settle (s.flying i 4 (.sreg i.d.toNat (BitVec.ofNat 64 (mfsVal s i.core.toNat (s.coreFor i) n)) none) false)) := by
  refine exec_scalar_later (o := .mfs) h rfl (by decide) ?_
  simp only [scalarResult, hn, if_pos hL]

end

end Sys2Proof.Machine

open Sys2Proof Sys2Proof.Machine

/-- Settles O1: each instruction writes its `scalarResult`. -/
theorem scalarIntegerResults : Obligations.ScalarIntegerResults := by
  unfold Obligations.ScalarIntegerResults
  refine ⟨fun i s h => exec_scalar_next (o := .add) h rfl rfl, fun i s h => exec_scalar_next (o := .addi) h rfl rfl,
    fun i s h => exec_scalar_next (o := .sub) h rfl rfl, fun i s h => exec_scalar_later (o := .mul) h rfl (by decide) rfl,
    fun i s h => exec_scalar_later (o := .mulhu) h rfl (by decide) rfl, fun i s h => exec_scalar_later (o := .divu) h rfl (by decide) ?divu,
    fun i s h => exec_scalar_later (o := .remu) h rfl (by decide) ?remu, fun i s h => exec_scalar_next (o := .and) h rfl rfl,
    fun i s h => exec_scalar_next (o := .or) h rfl rfl, fun i s h => exec_scalar_next (o := .xor) h rfl rfl,
    fun i s h => exec_scalar_next (o := .shl) h rfl rfl, fun i s h => exec_scalar_next (o := .shr) h rfl rfl,
    fun i s h => exec_scalar_next (o := .sar) h rfl rfl, fun i s h => exec_scalar_next (o := .shi) h rfl ?shi,
    fun i s h => exec_scalar_next (o := .li) h rfl rfl, fun i s h => exec_scalar_next (o := .lih) h rfl ?lih⟩
  case divu => rw [← valDivu_eq]; rfl
  case remu => rw [← valRemu_eq]; rfl
  case shi => rw [← valShift_eq]; rfl
  case lih => rw [← valLih_eq]; rfl

/-- Settles O2: each instruction writes its `scalarResult`; the token counters of MFS are its registers 9 to 12. -/
theorem scalarMovesResults : Obligations.ScalarMovesResults := by
  unfold Obligations.ScalarMovesResults
  refine ⟨fun i s h => exec_scalar_next (o := .cmp) h rfl rfl, fun i s h => exec_scalar_next (o := .plog) h rfl rfl,
    fun i s h => exec_scalar_next (o := .pmov) h rfl rfl, fun i s h => exec_scalar_next (o := .ptos) h rfl rfl,
    fun i s h hn => exec_mfs_next (n := 0) h hn (by decide), fun i s h hn => exec_mfs_next (n := 1) h hn (by decide),
    fun i s h hn => exec_mfs_next (n := 2) h hn (by decide), fun i s h hn => exec_mfs_next (n := 3) h hn (by decide),
    fun i s h hn => exec_mfs_next (n := 4) h hn (by decide), fun i s h hn => exec_mfs_later (n := 5) h hn (by decide),
    fun i s h hn => exec_mfs_later (n := 6) h hn (by decide), fun i s h hn => exec_mfs_next (n := 7) h hn (by decide),
    fun i s h hn => exec_mfs_next (n := 8) h hn (by decide), fun i s j h hj hn => ?tokens,
    fun i s h hn => exec_mfs_next (n := 13) h hn (by decide), fun i s h => exec_scalar_later (o := .ldp) h rfl (by decide) rfl⟩
  case tokens =>
    have hval : mfsVal s i.core.toNat (s.coreFor i) (9 + j) = tokens4 (s.coreFor i) j := by
      interval_cases j <;> rfl
    rw [exec_mfs_next h hn (by omega), hval]

/-- Settles O3: each instruction writes its `vectorResult`. -/
theorem vectorFloatResults : Obligations.VectorFloatResults := by
  unfold Obligations.VectorFloatResults
  exact ⟨fun i s h => exec_vector_later (o := .vadd) h (by decide) rfl, fun i s h => exec_vector_later (o := .vsub) h (by decide) rfl,
    fun i s h => exec_vector_later (o := .vmul) h (by decide) rfl, fun i s h => exec_vector_later (o := .vfma) h (by decide) rfl,
    fun i s h => exec_vector_later (o := .vmax) h (by decide) rfl, fun i s h => exec_vector_later (o := .vmin) h (by decide) rfl,
    fun i s h => exec_vector_later (o := .vsfu) h (by decide) rfl, fun i s h => exec_vector_later (o := .vrsum) h (by decide) rfl,
    fun i s h => exec_vector_later (o := .vrmax) h (by decide) rfl⟩

/-- Settles O4: each instruction writes its `vectorResult`; the moves of the X slot put theirs in flight directly. -/
theorem vectorIntegerResults : Obligations.VectorIntegerResults := by
  unfold Obligations.VectorIntegerResults
  refine ⟨fun i s h => exec_vector_later (o := .vcmp) h (by decide) rfl, fun i s h => exec_vector_next (o := .vmov) h rfl rfl,
    fun i s h => exec_vector_next (o := .viadd) h rfl rfl, fun i s h => exec_vector_next (o := .vlogic) h rfl rfl,
    fun i s h => exec_vector_next (o := .vshift) h rfl rfl, fun i s h => exec_vector_later (o := .vcvtw) h (by decide) rfl,
    fun i s h => exec_vector_later (o := .vbcl) h (by decide) rfl, fun i s h => exec_vector_later (o := .vperm) h (by decide) rfl,
    fun i s h => exec_of_alone (o := .movsv) h ?_, fun i s h => exec_of_alone (o := .movvs) h ?_⟩
  · exact submit_fly h rfl (by decide) 1 _ false (by decide) rfl
  · exact submit_fly h rfl (by decide) 2 _ false (by decide) rfl

/-- Settles O5: the result is in flight and the capture joins what the core has staged. -/
theorem vectorConversion : Obligations.VectorConversion := by
  unfold Obligations.VectorConversion
  intro i s h pk c t u who r
  exact exec_of_alone (o := .vcvt) h (submit_vcvt h rfl)

/-- Settles O6: a branch only passes its core, which BNZD leaves with its register decremented. -/
theorem branches : Obligations.Branches := by
  unfold Obligations.Branches
  exact ⟨fun i s h => exec_of_alone (o := .br) h (submit_branch h rfl rfl), fun i s h => exec_of_alone (o := .bnzd) h (submit_bnzd h),
    fun i s h => exec_of_alone (o := .jr) h (submit_branch h rfl rfl), fun c => rfl⟩

end

/-! ## O7, O8: loads and stores issue (R97, R102, R206, R207) -/

section

namespace Sys2Proof.Machine

/-! ### What a core sees of memory does not depend on what it has been sent -/

section
variable (s : State) (pk : Nat) (d c : Core) (o : KOp) (i : Ins) (a n : Nat)

theorem busOf_setCore : busOf (setCore s pk d) a = busOf s a := by
  simp only [busOf, place_setCore]

theorem nearBytes_sent : nearBytes (setCore s pk d) pk (c.sent o i) a n = nearBytes s pk c a n := by
  simp only [nearBytes, nearByte, ownLine_setCore]
  rfl

theorem storesNow_sent (l : List PByte) : storesNow (setCore s pk d) pk (c.sent o i) a l = storesNow s pk c a l := by
  simp only [storesNow, ownPieces, ownLine_setCore]
  rfl

end

/-- The core with the L1 of another. -/
def Core.cached (u c : Core) : Core := { c with l1 := u.l1, l1plru := u.l1plru }

/-- A use of the L1 that a core makes of what it has been sent. -/
theorem OnL1.sent {pk : Nat} {f : State → State} (hf : OnL1 pk f) {s : State} (hs : (coreOf s pk).st ≠ .off) (o : KOp) (i : Ins) :
    f (setCore s pk ((coreOf s pk).sent o i)) = 
      setCore s pk ((coreOf (f s) pk).cached ((coreOf s pk).sent o i)) := by
  obtain ⟨hstream, hput, l, u, hcore⟩ := hf s hs
  refine (hstream [⟨o, i⟩]).trans ((hput _ (ne_init_of_st ?_)).trans ?_)
  · rw [hcore]; exact hs
  · rw [hcore]; rfl

section
variable {o : KOp} {i : Ins} {s : State}

/-! ### Loads (R97, R206) -/

/-- A load whose bytes the core's own copies hold returns them (R206). -/
theorem issueLoad_hit {l : List PByte} (h : Alone o i s) (hnear : s.nearLoad o i = some l) (hmiss : s.noForcedMiss i) :
    let pk := physCore s i.core.toNat
    let a := accAddr (s.coreFor i) o i
    let vec : Bool := accSize o = 256
    issueLoad (setCore s pk ((s.coreFor i).sent o i)) pk ((s.coreFor i).sent o i) o i = setCore s pk
      { (s.coreFor i).sent o i with
          l1plru := (coreOf (touchLines s pk a (accSize o)) pk).l1plru
          fly := [⟨(s.coreFor i).cyc + if vec then 6 else 4, loadWrite vec i.d.toNat a l, true⟩] } := by
  intro pk a vec
  have hon : (coreOf s pk).st ≠ .off := h.sent_on
  have hbytes : nearBytes (setCore s pk ((s.coreFor i).sent o i)) pk ((s.coreFor i).sent o i) a (accSize o) = some l :=
    (nearBytes_sent ..).trans hnear
  have hdraw (sel : Bool) : drawMiss (setCore s pk ((s.coreFor i).sent o i)) (pk / 272) sel =
      (setCore s pk ((s.coreFor i).sent o i), false) := if_pos (.inr hmiss)
  have htouch := (touchLines_onL1 pk a (accSize o)).sent hon o i
  rw [Core.cached, touchLines_l1] at htouch
  have hfly := fly1_sent h (if vec then 6 else 4) (loadWrite vec i.d.toNat a l) true
  simp only [issueLoad, coreOf_setCore, show accAddr ((s.coreFor i).sent o i) o i = a from rfl, hbytes, hdraw, Bool.false_eq_true,
    if_false]
  rw [show setCore s pk ((s.coreFor i).sent o i) = setCore s pk ((coreOf s pk).sent o i) from rfl, htouch]
  refine (modCore_setCore (f := fun c => c.fly1 (if vec then 6 else 4) (loadWrite vec i.d.toNat a l) true) (by exact hon) (by exact hon)).trans ?_
  exact congrArg (fun c : Core => setCore s pk { c with l1plru := (coreOf (touchLines s pk a (accSize o)) pk).l1plru }) hfly

theorem Alone.no_loads (h : Alone o i s) : (s.coreFor i).loads = [] := by
  obtain ⟨⟨⟨-, -, -, hloads, -⟩, -⟩, -⟩ := h
  exact hloads

/-- The core with a load entered among those that wait for their data (R97), with the host address that the window gives it (R36). -/
def Core.missed (c : Core) (s : State) (o : KOp) (i : Ins) (d : Core) : Core :=
  { d with nextId := d.nextId + 1, loads := [⟨d.nextId, accSize o = 256, i.d.toNat, accAddr c o i, accSize o, c.pc, BitVec.allOnes 64,
      busOf s (accAddr c o i)⟩] }

theorem issueLoad_miss (h : Alone o i s) (hnear : s.nearLoad o i = none) :
    let pk := physCore s i.core.toNat
    issueLoad (setCore s pk ((s.coreFor i).sent o i)) pk ((s.coreFor i).sent o i) o i =
      setCore s pk ((s.coreFor i).missed s o i ((s.coreFor i).sent o i)) := by
  intro pk
  have hbytes : nearBytes (setCore s pk ((s.coreFor i).sent o i)) pk ((s.coreFor i).sent o i) (accAddr (s.coreFor i) o i)
      (accSize o) = none := (nearBytes_sent ..).trans hnear
  simp only [issueLoad, coreOf_setCore, show accAddr ((s.coreFor i).sent o i) o i = accAddr (s.coreFor i) o i from rfl, hbytes, modCore,
    busOf_setCore, show ((s.coreFor i).sent o i).loads = [] from h.no_loads, List.nil_append]
  exact setCore_sent h s rfl

theorem exec_load_hit {l : List PByte} (h : Alone o i s) (hnear : s.nearLoad o i = some l) (hmiss : s.noForcedMiss i)
    (he : ∀ t pk lc c, effect t pk lc c o i = issueLoad t pk c o i) (hb : isBranch o = false) (hco : o ≠ .commit) :
    exec (kciInstr o i 0 0 []) s = .next (settle (s.passed i fun c =>
      { c with l1plru := (coreOf (touchLines s (physCore s i.core.toNat) (accAddr (s.coreFor i) o i) (accSize o))
                 (physCore s i.core.toNat)).l1plru
               fly := [⟨(s.coreFor i).cyc + if (accSize o = 256 : Bool) then 6 else 4,
                 loadWrite (accSize o = 256) i.d.toNat (accAddr (s.coreFor i) o i) l, true⟩] })) :=
  exec_of_alone h (submit_besideFly (f := fun c => { c with
      l1plru := (coreOf (touchLines s (physCore s i.core.toNat) (accAddr (s.coreFor i) o i) (accSize o)) (physCore s i.core.toNat)).l1plru })
    h hb hco (by split <;> decide) (fun _ => ⟨rfl, rfl, fun _ _ _ _ => rfl⟩) (fun _ => ⟨rfl, rfl⟩)
    ((he ..).trans (issueLoad_hit h hnear hmiss)) rfl rfl)

theorem exec_load_miss (h : Alone o i s) (hnear : s.nearLoad o i = none) (he : ∀ t pk lc c, effect t pk lc c o i = issueLoad t pk c o i)
    (hb : isBranch o = false) (hco : o ≠ .commit) :
    exec (kciInstr o i 0 0 []) s = .next (settle (s.passed i ((s.coreFor i).missed s o i))) :=
  exec_of_alone h (submit_beside h hb hco (fun _ => ⟨rfl, rfl, fun _ _ _ _ => rfl⟩) (fun _ => ⟨rfl, rfl⟩)
    ((he ..).trans (issueLoad_miss h hnear)) rfl rfl)

/-! ### Stores (R97, R207) -/

/-- The core with a store entered in its write buffer. -/
def Core.posted (e : StoreEnt) (d : Core) : Core := { d with nextId := d.nextId + 1, wb := d.wb ++ [e] }

theorem issueStore_posted (h : Alone o i s) (hplaces : s.storePlaces o i = none) :
    let pk := physCore s i.core.toNat
    issueStore (setCore s pk ((s.coreFor i).sent o i)) pk ((s.coreFor i).sent o i) o i =
      setCore s pk (((s.coreFor i).sent o i).posted (s.storeEntry o i)) := by
  intro pk
  have hnow : storesNow (setCore s pk ((s.coreFor i).sent o i)) pk ((s.coreFor i).sent o i) (accAddr (s.coreFor i) o i)
      (storeData (s.coreFor i) o i) = none := (storesNow_sent ..).trans hplaces
  simp only [issueStore, coreOf_setCore, show accAddr ((s.coreFor i).sent o i) o i = accAddr (s.coreFor i) o i from rfl,
    show storeData ((s.coreFor i).sent o i) o i = storeData (s.coreFor i) o i from rfl, hnow, modCore, busOf_setCore]
  exact setCore_sent h s rfl

theorem issueStore_owned {ps : List (Nat × Nat × Nat)} (h : Alone o i s) (hplaces : s.storePlaces o i = some ps) :
    let pk := physCore s i.core.toNat
    let u := l1Stores s pk ps (storeData (s.coreFor i) o i)
    issueStore (setCore s pk ((s.coreFor i).sent o i)) pk ((s.coreFor i).sent o i) o i =
      setCore s pk ((coreOf u pk).cached ((s.coreFor i).sent o i)) := by
  intro pk u
  have hnow : storesNow (setCore s pk ((s.coreFor i).sent o i)) pk ((s.coreFor i).sent o i) (accAddr (s.coreFor i) o i)
      (storeData (s.coreFor i) o i) = some ps := (storesNow_sent ..).trans hplaces
  simp only [issueStore, coreOf_setCore, show accAddr ((s.coreFor i).sent o i) o i = accAddr (s.coreFor i) o i from rfl,
    show storeData ((s.coreFor i).sent o i) o i = storeData (s.coreFor i) o i from rfl, hnow]
  exact (l1Stores_onL1 pk ps (storeData (s.coreFor i) o i)).sent h.sent_on o i

theorem exec_store_posted (h : Alone o i s) (hplaces : s.storePlaces o i = none)
    (he : ∀ t pk lc c, effect t pk lc c o i = issueStore t pk c o i) (hb : isBranch o = false) (hco : o ≠ .commit) :
    exec (kciInstr o i 0 0 []) s = .next (settle (s.passed i (Core.posted (s.storeEntry o i)))) :=
  exec_of_alone h (submit_beside h hb hco (fun _ => ⟨rfl, rfl, fun _ _ _ _ => rfl⟩) (fun _ => ⟨rfl, rfl⟩)
    ((he ..).trans (issueStore_posted h hplaces)) rfl rfl)

theorem exec_store_owned {ps : List (Nat × Nat × Nat)} (h : Alone o i s) (hplaces : s.storePlaces o i = some ps)
    (he : ∀ t pk lc c, effect t pk lc c o i = issueStore t pk c o i) (hb : isBranch o = false) (hco : o ≠ .commit) :
    let u := l1Stores s (physCore s i.core.toNat) ps (storeData (s.coreFor i) o i)
    exec (kciInstr o i 0 0 []) s = .next (settle (s.passed i (coreOf u (physCore s i.core.toNat)).cached)) :=
  exec_of_alone h (submit_beside h hb hco (fun _ => ⟨rfl, rfl, fun _ _ _ _ => rfl⟩) (fun _ => ⟨rfl, rfl⟩)
    ((he ..).trans (issueStore_owned h hplaces)) rfl rfl)

end

end Sys2Proof.Machine

open Sys2Proof Sys2Proof.Machine

/-- Settles O7: what the core's own copies hold decides between a hit and a load that waits. -/
theorem loadIssue : Obligations.LoadIssue := by
  unfold Obligations.LoadIssue
  exact ⟨fun i s l h hl hm => exec_load_hit (o := .ld8) h hl hm (fun _ _ _ _ => rfl) rfl (by decide),
    fun i s h hl => exec_load_miss (o := .ld8) h hl (fun _ _ _ _ => rfl) rfl (by decide),
    fun i s l h hl hm => exec_load_hit (o := .ld16) h hl hm (fun _ _ _ _ => rfl) rfl (by decide),
    fun i s h hl => exec_load_miss (o := .ld16) h hl (fun _ _ _ _ => rfl) rfl (by decide),
    fun i s l h hl hm => exec_load_hit (o := .ld32) h hl hm (fun _ _ _ _ => rfl) rfl (by decide),
    fun i s h hl => exec_load_miss (o := .ld32) h hl (fun _ _ _ _ => rfl) rfl (by decide),
    fun i s l h hl hm => exec_load_hit (o := .ld64) h hl hm (fun _ _ _ _ => rfl) rfl (by decide),
    fun i s h hl => exec_load_miss (o := .ld64) h hl (fun _ _ _ _ => rfl) rfl (by decide),
    fun i s l h hl hm => exec_load_hit (o := .vld) h hl hm (fun _ _ _ _ => rfl) rfl (by decide),
    fun i s h hl => exec_load_miss (o := .vld) h hl (fun _ _ _ _ => rfl) rfl (by decide)⟩

/-- Settles O8: a store goes at once where `storePlaces` gives lines that the L1 owns, and into the write buffer otherwise. -/
theorem storeIssue : Obligations.StoreIssue := by
  unfold Obligations.StoreIssue
  exact ⟨fun i s h hp => exec_store_posted (o := .st8) h hp (fun _ _ _ _ => rfl) rfl (by decide),
    fun i s ps h hp => exec_store_owned (o := .st8) h hp (fun _ _ _ _ => rfl) rfl (by decide),
    fun i s h hp => exec_store_posted (o := .st16) h hp (fun _ _ _ _ => rfl) rfl (by decide),
    fun i s ps h hp => exec_store_owned (o := .st16) h hp (fun _ _ _ _ => rfl) rfl (by decide),
    fun i s h hp => exec_store_posted (o := .st32) h hp (fun _ _ _ _ => rfl) rfl (by decide),
    fun i s ps h hp => exec_store_owned (o := .st32) h hp (fun _ _ _ _ => rfl) rfl (by decide),
    fun i s h hp => exec_store_posted (o := .st64) h hp (fun _ _ _ _ => rfl) rfl (by decide),
    fun i s ps h hp => exec_store_owned (o := .st64) h hp (fun _ _ _ _ => rfl) rfl (by decide),
    fun i s h hp => exec_store_posted (o := .vst) h hp (fun _ _ _ _ => rfl) rfl (by decide),
    fun i s ps h hp => exec_store_owned (o := .vst) h hp (fun _ _ _ _ => rfl) rfl (by decide)⟩

end

/-! ## O9: array commands issue (R99, R110, R149) -/

section

namespace Sys2Proof.Machine

/-- The core with an array command entered as `f` makes its array with the command's entry (R110). -/
def Core.queued (c : Core) (o : KOp) (i : Ins) (f : Arr → QCmd → Arr) (d : Core) : Core :=
  { d.putArr i.arr (f (d.arrN i.arr) (arrayCmd c o i)) with
    nextId := d.nextId + 1, effNext := if o = .mst ∧ i.mode = 1 then d.effNext + 1 else d.effNext }

/-- The core with an MRDV entered, its register pending (R99). -/
def Core.readQueued (c : Core) (i : Ins) (d : Core) : Core :=
  { d.putArr i.arr { d.arrN i.arr with cq := (d.arrN i.arr).cq ++ [arrayCmd c .mrdv i] } with
    nextId := d.nextId + 1, pend := sadd d.pend i.c.toNat }

theorem putArr_keeps (d : Core) (n : Nat) (a : Arr) :
    (d.putArr n a).fly = d.fly ∧ (d.putArr n a).cyc = d.cyc ∧ (d.putArr n a).st = d.st ∧ (d.putArr n a).eng = d.eng := by
  by_cases h : n = 0 <;> simp only [Core.putArr, h, if_true, if_false, and_self]

theorem beside_queued (c : Core) (o : KOp) (i : Ins) (f : Arr → QCmd → Arr) : Beside (c.queued o i f) := by
  intro d
  obtain ⟨hfly, hcyc, -⟩ := putArr_keeps d i.arr (f (d.arrN i.arr) (arrayCmd c o i))
  refine ⟨hfly, hcyc, fun _ _ _ _ => ?_⟩
  by_cases h : i.arr = 0 <;> simp only [Core.queued, Core.putArr, Core.arrN, h, if_true, if_false]

theorem beside_readQueued (c : Core) (i : Ins) : Beside (c.readQueued i) := by
  intro d
  obtain ⟨hfly, hcyc, -⟩ := putArr_keeps d i.arr { d.arrN i.arr with cq := (d.arrN i.arr).cq ++ [arrayCmd c .mrdv i] }
  refine ⟨hfly, hcyc, fun _ _ _ _ => ?_⟩
  by_cases h : i.arr = 0 <;> simp only [Core.readQueued, Core.putArr, Core.arrN, h, if_true, if_false]

section
variable {o : KOp} {i : Ins} {s : State}

/-- An instruction alone that changes its core only, by what it finds there as it issues. -/
theorem submit_inCore {f : Core → Core → Core} (h : Alone o i s) (hb : isBranch o = false) (hco : o ≠ .commit)
    (hf : Beside (f (s.coreFor i))) (hkeep : ∀ d, (f (s.coreFor i) d).st = d.st ∧ (f (s.coreFor i) d).eng = d.eng)
    (hsent : f ((s.coreFor i).sent o i) = f (s.coreFor i))
    (he : ∀ t pk lc, effect t pk lc (coreOf t pk) o i = setCore t pk (f (coreOf t pk) (coreOf t pk))) :
    submit o i s = s.passed i (f (s.coreFor i)) := by
  refine submit_beside (f := f (s.coreFor i)) h hb hco hf hkeep ?_ rfl rfl
  have heffect := he (setCore s (physCore s i.core.toNat) ((s.coreFor i).sent o i)) (physCore s i.core.toNat) i.core.toNat
  rw [coreOf_setCore, hsent] at heffect
  exact heffect.trans (setCore_sent h s (hkeep _).1)

theorem exec_array {f : Arr → QCmd → Arr} (h : Alone o i s) (hb : isBranch o = false) (hco : o ≠ .commit)
    (he : ∀ t pk lc, effect t pk lc (coreOf t pk) o i = setCore t pk ((coreOf t pk).queued o i f (coreOf t pk))) :
    exec (kciInstr o i 0 0 []) s = .next (settle (s.arrayQueued o i f)) :=
  exec_of_alone h (submit_inCore (f := fun c => c.queued o i f) h hb hco (beside_queued _ _ _ _) (fun d => (putArr_keeps d _ _).2.2) rfl he)

theorem effect_mrdv (t : State) (pk lc : Nat) :
    effect t pk lc (coreOf t pk) .mrdv i = setCore t pk ((coreOf t pk).readQueued i (coreOf t pk)) := by
  let c := coreOf t pk
  let d := c.queued .mrdv i (fun a q => { a with cq := a.cq ++ [q] }) c
  show setCore t pk { d with pend := sadd d.pend i.c.toNat } = setCore t pk (c.readQueued i c)
  refine congrArg (setCore t pk) ?_
  by_cases h : i.arr = 0 <;> simp [d, Core.queued, Core.readQueued, Core.putArr, h]

theorem exec_mrdv (h : Alone .mrdv i s) : exec (.mrdv i) s = .next (settle (s.passed i ((s.coreFor i).readQueued i))) :=
  exec_of_alone (o := .mrdv) h (submit_inCore (f := fun c => c.readQueued i) h rfl (by decide) (beside_readQueued _ _)
    (fun d => (putArr_keeps d _ _).2.2) rfl effect_mrdv)

end

end Sys2Proof.Machine

open Sys2Proof Sys2Proof.Machine

/-- Settles O9: each command enters its queue with the entry of program order. -/
theorem arrayIssue : Obligations.ArrayIssue := by
  unfold Obligations.ArrayIssue
  exact ⟨fun i s h => exec_array (o := .mpcfg) h rfl (by decide) fun _ _ _ => rfl,
    fun i s h => exec_array (o := .mmask) h rfl (by decide) fun _ _ _ => rfl,
    fun i s h => exec_array (o := .mwld) h rfl (by decide) fun _ _ _ => rfl,
    fun i s h => exec_array (o := .mswap) h rfl (by decide) fun _ _ _ => rfl,
    fun i s h => exec_array (o := .mmac) h rfl (by decide) fun _ _ _ => rfl,
    fun i s h => exec_array (o := .mclr) h rfl (by decide) fun _ _ _ => rfl,
    fun i s h => exec_array (o := .mst) h rfl (by decide) fun _ _ _ => rfl,
    fun i s h => exec_array (o := .mlda) h rfl (by decide) fun _ _ _ => rfl, fun i s h => exec_mrdv h⟩

end

/-! ## O11: engine commands issue and start (R78, R114) -/

section

namespace Sys2Proof.Machine

/-- The core with an engine command entered (R114); a DMAR and a COLL take the next effect number (R78). -/
def Core.engaged (c : Core) (o : KOp) (i : Ins) (d : Core) : Core :=
  { d with nextId := d.nextId + 1, effNext := if o = .dmar ∨ o = .coll then d.effNext + 1 else d.effNext,
           eng := d.eng ++ [queuedCmd c o i] }

theorem beside_engaged (c : Core) (o : KOp) (i : Ins) : Beside (c.engaged o i) := fun _ => ⟨rfl, rfl, fun _ _ _ _ => rfl⟩

/-- A core whose only engine command waits, with no store before it, starts that command (R102, R114). -/
theorem startEngine_one {s : State} {lc : Nat} {q : QCmd} (heng : (coreL s lc).eng = [q]) (hq : q.st = 0) (hwb : (coreL s lc).wb = [])
    (hrun : (coreL s lc).st = .run) : startEngine s lc = startCmd s lc q := by
  simp [startEngine, heng, hq, storesBefore, hwb, hrun]

/-- Marking the only engine command of a core. -/
theorem engMark_one {s : State} {lc st : Nat} {c : Core} {q : QCmd} (hc : c.st ≠ .off) (heng : c.eng = [q]) :
    engMark (setCore s (physCore s lc) c) lc q.id st = setCore s (physCore s lc) { c with eng := [{ q with st := st }] } := by
  rw [engMark, modCoreL, physCore_setCore]
  refine (modCore_setCore hc hc).trans ?_
  simp only [heng, List.map_cons, List.map_nil, if_true]

section
variable {o : KOp} {i : Ins} {s : State}

/-- An engine command alone enters the queue and starts. -/
theorem submit_engine (h : Alone o i s) (hwb : (s.coreFor i).wb = []) (hb : isBranch o = false) (hco : o ≠ .commit)
    (he : ∀ t pk lc, effect t pk lc (coreOf t pk) o i = setCore t pk ((coreOf t pk).engaged o i (coreOf t pk))) :
    submit o i s = tryCommit (startCmd (s.passed i ((s.coreFor i).engaged o i)) i.core.toNat (queuedCmd (s.coreFor i) o i))
      (physCore s i.core.toNat) := by
  obtain ⟨hrun, heng, hfly, hpc⟩ := h.core_eq
  have heffect := he (setCore s (physCore s i.core.toNat) ((s.coreFor i).sent o i)) (physCore s i.core.toNat) i.core.toNat
  rw [coreOf_setCore] at heffect
  have hplain := advance_plain (c := (s.coreFor i).sent o i) (d := (s.coreFor i).engaged o i ((s.coreFor i).sent o i)) (i := i) hb hfly
  have hsubmit := submit_effect h _ (heffect.trans (setCore_sent h s rfl)) rfl rfl hplain h.sent_on (.inl hrun) fun _ => hpc.resolve_left hco
  have hpassed := congrArg (setCore s (physCore s i.core.toNat)) (advance_beside h hb (beside_engaged (s.coreFor i) o i))
  rw [hplain] at hpassed
  have hcore : coreL (setCore s (physCore s i.core.toNat) ((s.coreFor i).engaged o i (s.coreFor i).past)) i.core.toNat =
      (s.coreFor i).engaged o i (s.coreFor i).past := coreOf_setCore ..
  refine (hsubmit.trans (congrArg (fun t => tryCommit (startEngine t i.core.toNat) (physCore s i.core.toNat)) hpassed)).trans ?_
  refine congrArg (tryCommit · _) (startEngine_one ?_ rfl ?_ ?_)
  · rw [hcore]
    show (s.coreFor i).eng ++ [_] = [_]
    rw [heng, List.nil_append]
  · rw [hcore]; exact hwb
  · rw [hcore]; exact hrun

theorem exec_engine (h : Alone o i s) (hwb : (s.coreFor i).wb = []) (hb : isBranch o = false) (hco : o ≠ .commit)
    (he : ∀ t pk lc, effect t pk lc (coreOf t pk) o i = setCore t pk ((coreOf t pk).engaged o i (coreOf t pk))) :
    exec (kciInstr o i 0 0 []) s = .next (settle (tryCommit (startCmd (s.passed i fun c =>
      { c with nextId := c.nextId + 1, effNext := if o = .dmar ∨ o = .coll then c.effNext + 1 else c.effNext,
               eng := [queuedCmd (s.coreFor i) o i] })
        i.core.toNat (queuedCmd (s.coreFor i) o i)) (physCore s i.core.toNat))) := by
  obtain ⟨-, heng, -⟩ := h.core_eq
  have hcore : (s.coreFor i).engaged o i (s.coreFor i).past = { (s.coreFor i).past with
      nextId := (s.coreFor i).past.nextId + 1
      effNext := if o = .dmar ∨ o = .coll then (s.coreFor i).past.effNext + 1 else (s.coreFor i).past.effNext
      eng := [queuedCmd (s.coreFor i) o i] } := by
    rw [Core.engaged, show (s.coreFor i).past.eng = [] from heng, List.nil_append]
  rw [exec_of_alone h (submit_engine h hwb hb hco he), State.passed, hcore, State.passed]

/-- The data movement of a DMA or DMAR only starts: the command is marked (R114). -/
theorem exec_move (h : Alone o i s) (hwb : (s.coreFor i).wb = []) (hb : isBranch o = false) (hco : o ≠ .commit)
    (he : ∀ t pk lc, effect t pk lc (coreOf t pk) o i = setCore t pk ((coreOf t pk).engaged o i (coreOf t pk)))
    (hstart : ∀ t lc q, q.op = o → startCmd t lc q = engMark t lc q.id 1) :
    exec (kciInstr o i 0 0 []) s = .next (settle (s.passed i fun c =>
      { c with nextId := c.nextId + 1, effNext := if o = .dmar ∨ o = .coll then c.effNext + 1 else c.effNext,
               eng := [{ queuedCmd (s.coreFor i) o i with st := 1 }] })) := by
  obtain ⟨hrun, -⟩ := h.core_eq
  have hon : (s.coreFor i).past.st ≠ .off := h.sent_on
  rw [exec_engine h hwb hb hco he, hstart _ _ _ rfl, State.passed]
  refine congrArg (fun t => Host.Outcome.next (settle t)) ?_
  refine (congrArg (tryCommit · _) (engMark_one (by exact hon) rfl)).trans (tryCommit_run ?_)
  rw [coreOf_setCore]
  show (s.coreFor i).st ≠ .commit
  rw [hrun]
  decide

end

end Sys2Proof.Machine

open Sys2Proof Sys2Proof.Machine

/-- Settles O11: the command is the only one in its queue and starts as its engine starts it. -/
theorem engineIssue : Obligations.EngineIssue := by
  unfold Obligations.EngineIssue
  exact ⟨fun i s h hwb => exec_move (o := .dma) h hwb rfl (by decide) (fun _ _ _ => rfl) fun t lc q hq => by rw [startCmd, hq],
    fun i s h hwb => exec_move (o := .dmar) h hwb rfl (by decide) (fun _ _ _ => rfl) fun t lc q hq => by rw [startCmd, hq],
    fun i s h hwb => exec_engine (o := .attcmd) h hwb rfl (by decide) fun _ _ _ => rfl,
    fun i s h hwb => exec_engine (o := .pfxwalk) h hwb rfl (by decide) fun _ _ _ => rfl,
    fun i s h hwb => exec_engine (o := .rowop) h hwb rfl (by decide) fun _ _ _ => rfl,
    fun i s h hwb => exec_engine (o := .rowmodeEnter) h hwb rfl (by decide) fun _ _ _ => rfl,
    fun i s h hwb => exec_engine (o := .rowmodeExit) h hwb rfl (by decide) fun _ _ _ => rfl,
    fun i s h hwb => exec_engine (o := .coll) h hwb rfl (by decide) fun _ _ _ => rfl,
    fun i s h hwb => exec_engine (o := .rwake) h hwb rfl (by decide) fun _ _ _ => rfl⟩

end

/-! ## O15: the events of an array (R112, R139, R140, R143, R157) -/

section

namespace Sys2Proof.Machine

/-! ### The events at a core that runs -/

section
variable {core : BitVec 12} {arr : BitVec 1} {s : State} (host : HostFeed)

theorem exec_mwldStart (h : Live s core.toNat) :
    exec (.mwldStart core arr host) s = (startMwld s (physCore s core.toNat) core.toNat arr.toNat host).resumed core.toNat := coreEvent_live h

theorem exec_arrayDispatch (h : Live s core.toNat) :
    exec (.arrayDispatch core arr host) s = (dispatchArr s (physCore s core.toNat) core.toNat arr.toNat host).resumed core.toNat :=
  coreEvent_live h

theorem exec_arrayCommandCompletion {k : Nat} {q : QCmd} (h : Live s core.toNat)
    (hq : completable ((coreOf s (physCore s core.toNat)).arrN arr.toNat) k = some q) :
    exec (.arrayCommandCompletion core arr k) s = (finishArr s (physCore s core.toNat) core.toNat arr.toNat q).resumed core.toNat := by
  refine (coreEvent_live h).trans ?_
  simp only [hq]

theorem exec_partitionRebuild {e : CheckErr} (h : Live s core.toNat)
    (hsite : siteOk ((coreOf s (physCore s core.toNat)).arrN arr.toNat) e.site = true) :
    exec (.partitionRebuild core arr e host) s = (checkError s (physCore s core.toNat) core.toNat arr.toNat e host).resumed core.toNat := by
  refine (coreEvent_live h).trans ?_
  simp only [hsite, if_true]

end

/-! ### Weight loads (R140, R142) -/

section
variable {s : State} {pk lc n : Nat} {h : HostFeed} {q : QCmd} {rest : List QCmd}

/-- The rows of the weight command at the head go into the staging buffer, which holds another command's or nothing. -/
theorem stageMwld_fetches (hwq : ((coreOf s pk).arrN n).wq = q :: rest) (hready : mwldReady (coreOf s pk) ((coreOf s pk).arrN n) q = true)
    (hstaged : ∀ x, ((coreOf s pk).arrN n).staging = some x → x.id ≠ q.id) :
    let a := (coreOf s pk).arrN n
    let g := partGeom a.mode q.ins.part
    let rows := mwldRows a.width q g
    let spans := feedSpans q.ins.fmtW rows.2.1
    let r := mwldLoad s pk a.width h q g
    rowsTrap s q 4 4 rows.1 spans = none → rowsWait s lc q rows.1 spans = false →
    stageMwld s pk lc n h = modArr r.1 pk n fun a => { a with staging := some ⟨q.id, r.2.1, r.2.2⟩ } := by
  intro a g rows spans r htrap hwait
  have hother : ((coreOf s pk).arrN n).staging.any (fun x => decide (x.id = q.id)) = false := by
    cases hx : ((coreOf s pk).arrN n).staging with
    | none => rfl
    | some x => exact decide_eq_false (hstaged x hx)
  simp only [stageMwld, hwq, hready, hother, htrap, hwait, a, g, rows, spans, r, Bool.not_true, Bool.false_eq_true, or_self, if_false]

section
variable {x : WStage} (hwq : ((coreOf s pk).arrN n).wq = q :: rest) (hstaging : ((coreOf s pk).arrN n).staging = some x) (hid : x.id = q.id)
include hwq hstaging hid

theorem stageMwld_staged : stageMwld s pk lc n h = s := by
  simp only [stageMwld, hwq, hstaging, Option.any_some, hid, decide_true, or_true, if_true]

/-- A staged command is written into the buffer of its partition that is not active. -/
theorem writeMwld_writes (hst : q.st = 0)
    (hfree : (tget WBuf.init ((coreOf s pk).arrN n).bufs (((coreOf s pk).arrN n).spareBuf q.ins.part)).st = 0) :
    let q1 := { q with st := 1, buf := ((coreOf s pk).arrN n).spareBuf q.ins.part }
    writeMwld s pk n = modArr (count s (arrBlk pk n) 4 x.bad) pk n fun a =>
      ({ a with wq := q1 :: rest, staging := none, bufs := tput a.bufs q1.buf x.buf }).logCmd q1 := by
  simp only [writeMwld, hwq, hstaging, hid, hst, hfree, ne_eq, not_true_eq_false, or_self, if_false]

end

/-! ### Dispatch (R143) -/

/-- The head of the compute queue leaves it and runs, once the FIFO has fetched what it could. -/
theorem dispatchArr_runs :
    let t := fifoFill s pk lc n h
    let a := (coreOf t pk).arrN n
    (coreOf t pk).st = (coreOf s pk).st → a.cq = q :: rest → dispatchOk (cclk t) (coreOf t pk) a q = true →
    feedsWait t lc a q (a.toFetch q) = false →
    dispatchArr s pk lc n h = runArr (modArr t pk n fun a => { a with cq := rest }) pk lc n h q := by
  intro t a hst hcq hok hwait
  simp only [dispatchArr, dispatchHead, t, a] at hst hcq hok hwait ⊢
  simp only [hst, hcq, hok, hwait, if_true, Bool.not_true, Bool.false_eq_true, or_self, if_false]

/-! ### Completion (R112) -/

/-- A command has left its array's lists and its token has risen. -/
def State.retired (s : State) (pk lc n : Nat) (q : QCmd) : State := tokDone (modArr s pk n fun a => a.retire q.id) lc q.ins

theorem finishArr_mwld (ho : q.op = .mwld) : finishArr s pk lc n q = (modArr s pk n fun a =>
    { a with bufs := tput a.bufs q.buf { tget WBuf.init a.bufs q.buf with st := 2 } }).retired pk lc n q := by
  simp only [finishArr, ho, State.retired]

theorem finishArr_feed (ho : q.op = .mmac ∨ q.op = .mlda) :
    finishArr s pk lc n q = (modArr s pk n fun a => a.landAll q.land).retired pk lc n q := by
  rcases ho with ho | ho <;> simp only [finishArr, ho, State.retired]

/-- An MST whose entry has no uncorrectable byte and whose rows carry no poison writes them all and stages its capture. -/
theorem finishArr_mst (ho : q.op = .mst) (hchain : (scaleChain s pk q.ins.tensor).any (scaleBad s pk) = false) :
    let t := (scaleChain s pk q.ins.tensor).foldl (fun s e => scaleFix s pk e) s
    let r := mstRows pk lc (sloe t) q (partGeom ((coreOf t pk).arrN n).mode q.ins.part).2.2.2 q.rows t (Cap.init, 0)
    r.2.2 = true → finishArr s pk lc n q = (modCore r.1 pk fun c =>
      let c := if mstCaptures q.ins.fmtA q.ins.mode then stageCap c q.ins.tensor r.2.1.1 else c
      { c with stageUnfit := c.stageUnfit + r.2.1.2 }).retired pk lc n q := by
  intro t r hdone
  simp only [r, t] at hdone
  simp only [finishArr, ho, hchain, hdone, t, r, State.retired, Bool.not_true, Bool.false_eq_true, if_false]

theorem finishArr_mrdv {r : ReadRow} {rs : List ReadRow} (ho : q.op = .mrdv) (hrows : q.rows = r :: rs) (hclean : r.poison = false) :
    finishArr s pk lc n q =
      (modCore s pk fun c => { c with pend := sdel c.pend q.ins.c.toNat }.land (mrdvWrite s lc q r)).retired pk lc n q := by
  simp only [finishArr, ho, hrows, hclean, State.retired, Bool.false_eq_true, if_false]

/-! ### Check errors (R155, R157) -/

theorem checkError_pulp (again rebuilding : Bool) (mst : Option (Nat × Nat)) :
    checkError s pk lc n ⟨.pulp, again, rebuilding, mst⟩ h = count s (arrBlk pk n) 5 1 := rfl

/-- A first error that no MST has let out is contained: with room in the log its partition is rebuilt. -/
theorem checkError_contained (part : BitVec 2) (column : Option (BitVec 7))
    (hlog : ((coreOf (count s (arrBlk pk n) 5 1) pk).arrN n).logFull = false) :
    checkError s pk lc n ⟨.part part column, false, false, none⟩ h = rebuildPart (count s (arrBlk pk n) 5 1) pk n part.toNat h := by
  simp only [checkError, mstPart, Option.bind_none, hlog, Bool.or_self, Bool.false_eq_true, if_false]

end

end Sys2Proof.Machine

open Sys2Proof Sys2Proof.Machine

/-- Settles O15: each event finds its command at the head of its queue or among those under way, and the command's kind says what it does. -/
theorem arrayEvents : Obligations.ArrayEvents := by
  unfold Obligations.ArrayEvents
  refine ⟨?fetch, ?write, ?dispatch, ?complete, ?rebuild⟩
  case fetch =>
    intro core arr host s q rest pk n a g rows spans hlive hwq hready hstaged htrap hwait r
    rw [exec_mwldStart host hlive, startMwld, stageMwld_fetches hwq hready hstaged htrap hwait]
  case write =>
    intro core arr host s q rest x pk n a hlive hwq hst hstaging hid hfree q1
    rw [exec_mwldStart host hlive, startMwld, stageMwld_staged hwq hstaging hid, writeMwld_writes hwq hstaging hid hst hfree]
  case dispatch =>
    intro core arr host s q rest pk n t a left run hlive hst hcq hok hwait b
    have hrun {u : State} (h : runArr left pk core.toNat n host q = u) : exec (.arrayDispatch core arr host) s = u.resumed core.toNat := by
      rw [exec_arrayDispatch host hlive, dispatchArr_runs hst hcq hok hwait, ← h]
    exact ⟨fun ho => hrun (runArr_mclr ho), fun ho haux => hrun (runArr_mswap ho haux),
      fun ho hkind htrap => hrun (runArr_feed ho hkind htrap), fun ho hkind htrap => hrun (runArr_mst ho hkind htrap),
      fun ho => hrun (runArr_mrdv ho), fun ho => hrun (runArr_mmask ho),
      fun ho => hrun (runArr_mpcfg ho)⟩
  case complete =>
    intro core arr k s q pk n hlive hq
    have hdone {u : State} (h : finishArr s pk core.toNat n q = u) : exec (.arrayCommandCompletion core arr k) s = u.resumed core.toNat := by
      rw [exec_arrayCommandCompletion hlive hq, ← h]
    exact ⟨fun ho => hdone (finishArr_mwld ho), fun ho => hdone (finishArr_feed ho),
      fun ho hchain hall => hdone (finishArr_mst ho hchain hall), fun r rs ho hrows hclean => hdone (finishArr_mrdv ho hrows hclean)⟩
  case rebuild =>
    intro core arr host s pk n t hlive
    refine ⟨fun again rebuilding mst => exec_partitionRebuild host hlive rfl, fun part column hsite hlog => ?_⟩
    rw [exec_partitionRebuild (arr := arr) (e := ⟨.part part column, false, false, none⟩) host hlive hsite,
      checkError_contained part column hlog]

end

/-! ## O10: ganged mode (R126, R164) -/

section

namespace Sys2Proof.Machine

/-! ### Lockstep comparison -/

/-- The columns of a window are the 64 from twice its number. -/
theorem mem_gangCols {w k : Nat} : k ∈ gangCols w ↔ 2 * w ≤ k ∧ k < 2 * w + 64 := by
  simp only [gangCols, List.mem_map, List.mem_range]
  constructor
  · rintro ⟨j, hj, rfl⟩
    omega
  · rintro ⟨hlo, hhi⟩
    exact ⟨k - 2 * w, by omega, by omega⟩

/-- Outside lockstep mode nothing is compared. -/
theorem gangRun_uncompared {s : State} {pk : Nat} (h : (coreOf s pk).arr0.gang ≠ 2) (found : List GangHit) : gangRun s pk found = s :=
  if_neg h

/-- In lockstep mode the differing pairs on a column of the window are recorded. -/
theorem gangRun_lockstep {s : State} {pk : Nat} (h : (coreOf s pk).arr0.gang = 2) (found : List GangHit) :
    gangRun s pk found = (found.filter fun x => 2 * (coreOf s pk).arr0.window ≤ x.column.toNat ∧
      x.column.toNat < 2 * (coreOf s pk).arr0.window + 64).foldl (gangMiss pk) s := by
  simp only [gangRun, if_pos h, List.contains_eq_mem, mem_gangCols]

/-! ### MGANG by service code and by plan code -/

/-- Array 0 enters the mode and the window of ARR_GANG_CTL of array 0. -/
theorem coreOf_gangOn_arr0 (s : State) (pk : Nat) : (coreOf (gangOn s pk) pk).arr0 =
    { (coreOf s pk).arr0 with gang := fget s (arrBlk pk 0 + 0x20) 1 0, window := fget s (arrBlk pk 0 + 0x20) 2 2 } := by
  rw [gangOn, modCore, coreOf_setCore]

/-- Service code enters ganged mode on a core that no plan holds. -/
theorem exec_mgang_service {tower : BitVec 4} {core : BitVec 9} {s : State} (hcore : core.toNat < 272)
    (hoff : (coreOf s (tower.toNat * 272 + core.toNat)).st = .off) (found : List GangHit) (i : Ins) :
    exec (.mgang tower core true found i) s = .next (settle
      (gangRun (gangOn s (tower.toNat * 272 + core.toNat)) (tower.toNat * 272 + core.toNat) found)) := by
  show shaped (core.toNat < 272) "MGANG" (if (coreOf s (tower.toNat * 272 + core.toNat)).st = .off then _ else s) = _
  rw [if_pos hoff, shaped_true (decide_eq_true hcore)]

/-- What MGANG meets at issue: the check of pending registers, then its own window violation, class 0x1A (R126, R164). -/
theorem issueTraps_mgang (s : State) (lc : Nat) (c : Core) (i : Ins) :
    issueTraps s lc c .mgang i = pendTrap c .mgang i ++ [⟨0x1A, 0xFFFF, none⟩] := rfl

end Sys2Proof.Machine

open Sys2Proof Sys2Proof.Machine

/-- Settles O10: service code applies ARR_GANG_CTL to both arrays, and the mode it gives decides whether the pairs found are recorded;
plan code meets class 0x1A among the checks of its issue. -/
theorem gangedMode : Obligations.GangedMode := by
  unfold Obligations.GangedMode
  refine ⟨?service, ?plan⟩
  case service =>
    intro tower core found i s hcore hoff pk m w c t
    have harr : (coreOf (gangOn s pk) pk).arr0 = { c.arr0 with gang := m, window := w } := coreOf_gangOn_arr0 s pk
    have hgang : (coreOf (gangOn s pk) pk).arr0.gang = m := congrArg Arr.gang harr
    have hwindow : (coreOf (gangOn s pk) pk).arr0.window = w := congrArg Arr.window harr
    rw [exec_mgang_service hcore hoff]
    refine ⟨fun hm => ?other, fun hm => ?lockstep⟩
    case other => rw [gangRun_uncompared (by rwa [hgang])]; rfl
    case lockstep => rw [gangRun_lockstep (hgang.trans hm), hwindow]; rfl
  case plan =>
    intro i s c lc
    rw [issueTraps_mgang]
    exact List.mem_append_right _ (List.mem_singleton_self _)

end

/-! ## O21: slices, cluster memory and the slow tier (R212, R217, R226, R227, R307, R308) -/

section

namespace Sys2Proof.Machine

/-! ### Slices (R217, R226, R227) -/

section
variable {addr : BitVec 48} {s : State} {k : Nat} (hplace : place s addr.toNat = .fast k) (hmode : bypassed s (k / 128) = false)
include hplace hmode

theorem exec_sliceFill_memory :
    exec (.sliceFill addr) s = .next (settle (closeMiss (fillLine (ensureLine s (k / 128)) (k / 128)) (k / 128))) := by
  show execSliceFill addr s = _
  simp only [execSliceFill, hplace, hmode, Bool.false_eq_true, if_false, finish]

theorem exec_forcedEviction_blocked (hheld : lineHeld s (k / 128) = false) (hset : setBlocked s (k / 128) = true) :
    exec (.forcedEviction addr) s = .next (settle (ensureLine s (k / 128))) := by
  show execForcedEviction addr s = _
  simp only [execForcedEviction, hplace, hmode, hheld, hset, Bool.not_false, Bool.and_self, if_true, finish]

end

/-- The set of a line is blocked when its sixteen ways are all pinned or pending (R227). -/
theorem setBlocked_iff {s : State} {lk : Nat} : setBlocked s lk = true ↔
    16 ≤ (setLines s lk).length ∧ ∀ x ∈ setLines s lk, (lineAt s x).pinned = true ∨ linePending s x = true := by
  simp only [setBlocked, Bool.and_eq_true, decide_eq_true_eq, List.all_eq_true, Bool.or_eq_true]

/-- The oldest contribution of a slice leaves the queue and is added. -/
theorem addOldest_takes {s : State} {sl : Nat} {c : Contrib} {rest : List Contrib}
    (h : takeFirst (fun (c : Contrib) => lineSlice s c.key = sl) s.llc.redQ = some (c, rest)) :
    addOldest s sl = addContrib { s with llc := { s.llc with redQ := rest } } c := by
  simp only [addOldest, h]

/-! ### Cluster memory (R212) -/

theorem exec_cmemRead_line {addr : BitVec 48} {s : State} {a : Nat} {r : State × List PByte} (hplace : place s addr.toNat = .cmem a)
    (hread : cmemLine s (a / 128 * 128) = r) : exec (.cmemRead addr) s = .next (settle r.1) := by
  show execCmemRead addr s = _
  simp only [execCmemRead, hplace, hread, finish]

/-- The bytes of a line read at its bank, with the merge slots that stand after the read and the reads that count as merged. -/
def bankRead (s : State) (la : Nat) (slots : Tbl Nat) (merged : Nat) : State × List PByte :=
  checkedReads .cl (cmemBlk la) 0 128 (count { s with llc := { s.llc with merge := slots } } (cmemBlk la) merged 1) la (cmemOff la)

/-- Merge slots that stand at the bank of a line (R212). -/
def bankSlots (s : State) (la : Nat) : Tbl Nat := (slotsOpen s.llc.merge (cclk s)).filter fun e => cmemBank (e.1 * 128) = cmemBank la

section
variable {s : State} {la : Nat}

/-- The line's slot stands: the read is served from it and counts as merged. -/
theorem cmemLine_joins (hslot : (tget? (slotsOpen s.llc.merge (cclk s)) (la / 128)).isSome = true) :
    cmemLine s la = bankRead s la (slotsOpen s.llc.merge (cclk s)) 1 := by
  simp only [cmemLine, bankRead, hslot, Bool.true_or, if_true]

/-- The line has no slot and its bank has room: the read opens one. -/
theorem cmemLine_opens (hslot : tget? (slotsOpen s.llc.merge (cclk s)) (la / 128) = none) (hroom : (bankSlots s la).length < 4) :
    cmemLine s la = bankRead s la (tput (slotsOpen s.llc.merge (cclk s)) (la / 128) (cclk s)) 0 := by
  unfold bankSlots at hroom
  simp [cmemLine, bankRead, hslot, hroom]

/-- The line has no slot and its bank has four: the read is performed separately. -/
theorem cmemLine_apart (hslot : tget? (slotsOpen s.llc.merge (cclk s)) (la / 128) = none) (hfull : 4 ≤ (bankSlots s la).length) :
    cmemLine s la = bankRead s la (slotsOpen s.llc.merge (cclk s)) 0 := by
  unfold bankSlots at hfull
  simp [cmemLine, bankRead, hslot, hfull]

end

/-! ### The slow tier (R307) -/

/-- An access within one line counts the corrected link symbols; a write brings as many bytes as it says. -/
theorem exec_slowTierAccess {write : Bool} {addr : BitVec 48} {len : BitVec 8} {data : HostData} {s : State} {off : Nat} (corr : Nat)
    (hplace : place s addr.toNat = .slow off) (hlen : 1 ≤ len.toNat) (hline : addr.toNat % 128 + len.toNat ≤ 128)
    (hdata : write = true → (hostBytes data).length = len.toNat) :
    let u := count s (slowBlk (slowBase + off / 128 * 128)) 3 corr
    exec (.slowTierAccess write addr len data corr) s = .next (settle (if write then
      slowWrite u (slowBase + off) (spread (slowBase + off) (hostBytes data)) else (slowLine u (slowBase + off / 128 * 128) 0).1)) := by
  have hshape :
      (1 ≤ len.toNat && addr.toNat % 128 + len.toNat ≤ 128 && (!write || (hostBytes data).length = len.toNat) : Bool) = true := by
    cases write with
    | false => simp [hlen, hline]
    | true => simp [hlen, hline, hdata]
  refine (shaped_true hshape).trans ?_
  simp only [hplace]

end Sys2Proof.Machine

open Sys2Proof Sys2Proof.Machine

/-- Settles O21: each row finds its address in the tier its clause names, and the contribution, the blocked set or the merge slots there
choose what it does. -/
theorem memoryRows : Obligations.MemoryRows := by
  unfold Obligations.MemoryRows
  refine ⟨fun addr s k => exec_sliceFill_memory, ?reduceAdd, ?eviction, ?cmem, ?slow, fun chan corr s => rfl⟩
  case reduceAdd =>
    intro tower slice s c rest sl hslice htake
    exact (shaped_true (decide_eq_true hslice)).trans (by rw [addOldest_takes htake])
  case eviction =>
    intro addr s k lk hplace hmode hheld hways hall
    exact exec_forcedEviction_blocked hplace hmode hheld (setBlocked_iff.2 ⟨hways, hall⟩)
  case cmem =>
    intro addr s a la slots read hplace
    exact ⟨fun hslot => exec_cmemRead_line hplace (cmemLine_joins hslot),
      fun hslot hroom => exec_cmemRead_line hplace (cmemLine_opens hslot hroom),
      fun hslot hfull => exec_cmemRead_line hplace (cmemLine_apart hslot hfull)⟩
  case slow =>
    intro addr len data corr s off u hplace hlen hline
    exact ⟨exec_slowTierAccess corr hplace hlen hline nofun, fun hdata => exec_slowTierAccess corr hplace hlen hline fun _ => hdata⟩

end

/-! ## O19: Rowan operations (R249, R252, R254 to R257) -/

section

namespace Sys2Proof.Machine

/-- A channel index within its tower is a shape a channel row takes. -/
theorem chanOk_of_lt {chan : BitVec 9} (h : chan.toNat < 272) : chanOk chan = true := decide_eq_true h

/-- The operation in front of a channel in ROWAN or EXITING is performed and counted, and the ROWOP goes on to its next entry. -/
theorem rowRun_front {s : State} {ch op : Nat} {c : ChanCmd} {rest : List ChanCmd} {e : RowEnt} {es : List RowEnt}
    (hmode : 2 ≤ chanMode (chanGo s ch) ch) (hqueue : (chanAt (chanGo s ch) ch).queue = c :: rest) (hkind : c.kind = 0)
    (hents : c.ents = e :: es) (hop : e.op = op) (perform : State → Nat → RowEnt → State) :
    rowRun s ch op perform = rowNext (count (perform (chanGo s ch) ch e) (chBase ch) 6 1) ch := by
  have hperform : c.kind = 0 ∧ e.op = op ∧ 2 ≤ chanMode (chanGo s ch) ch := ⟨hkind, hop, hmode⟩
  simp only [rowRun, hqueue, hents, if_pos hperform]

/-- The shape that the eight rows of Rowan operations share: a row with the code `op` performs the entry in front with `perform`. -/
theorem shaped_rowRun_front {name : String} {op : Nat} (perform : State → Nat → RowEnt → State) (tower : BitVec 4) (chan : BitVec 9)
    (s : State) (c : ChanCmd) (rest : List ChanCmd) (e : RowEnt) (es : List RowEnt) :
    let ch := chanIdx tower chan
    let u := chanGo s ch
    chan.toNat < 272 → 2 ≤ chanMode u ch → (chanAt u ch).queue = c :: rest → c.kind = 0 → c.ents = e :: es → e.op = op →
    shaped (chanOk chan) name (rowRun s ch op perform) = .next (settle (rowNext (count (perform u ch e) (chBase ch) 6 1) ch)) := by
  intro ch u hchan hmode hqueue hkind hents hop
  rw [shaped_true (chanOk_of_lt hchan), rowRun_front hmode hqueue hkind hents hop]

end Sys2Proof.Machine

open Sys2Proof Sys2Proof.Machine

/-- Settles O19: every row performs the entry in front of the queue, and its operation is the opening of the sources and the write of
the destination that its clause spells out. -/
theorem rowanOperations : Obligations.RowanOperations := by
  unfold Obligations.RowanOperations
  refine ⟨?and, ?or, ?xor, ?not, ?maj, ?clone, ?fill0, ?fill1⟩
  case and => exact shaped_rowRun_front rowAnd
  case or => exact shaped_rowRun_front rowOr
  case xor => exact shaped_rowRun_front rowXor
  case not => exact shaped_rowRun_front rowNot
  case maj => exact shaped_rowRun_front rowMajOp
  case clone => exact shaped_rowRun_front rowClone
  case fill0 => exact shaped_rowRun_front (rowFill 0x00)
  case fill1 => exact shaped_rowRun_front (rowFill 0xFF)

end

/-! ## O20: the rows of a vertical channel (R241 to R243, R258, R259, R261, R262) -/

section

namespace Sys2Proof.Machine

/-! ### Regeneration (R258) -/

section
variable {tower : BitVec 4} {chan : BitVec 9} {die : BitVec 3} {bank : BitVec 4} {s : State} (hchan : chan.toNat < 272)
include hchan

/-- The bank's regenerator takes the stale row that waits. -/
theorem exec_regeneration_waiting {w : BitVec 18} (h : w.toNat ∈ staleIn s (chanIdx tower chan) die.toNat bank.toNat) :
    exec (.regeneration tower chan die bank (some w)) s = .next (settle (regenRow s (chanIdx tower chan) w.toNat)) := by
  have hfind : (staleIn s (chanIdx tower chan) die.toNat bank.toNat).find? (· = w.toNat) = some w.toNat := by
    obtain ⟨ra, hra⟩ := Option.isSome_iff_exists.1 (List.find?_isSome (p := (· = w.toNat)).2 ⟨_, h, decide_eq_true rfl⟩)
    have heq : ra = w.toNat := by simpa using List.find?_some hra
    rwa [heq] at hra
  refine (shaped_true (chanOk_of_lt hchan)).trans ?_
  simp only [Option.bind_some, hfind, Option.orElse_some]

/-- With no row waiting it takes the lowest stale row. -/
theorem exec_regeneration_lowest {ra : Nat} (h : (staleIn s (chanIdx tower chan) die.toNat bank.toNat).head? = some ra) :
    exec (.regeneration tower chan die bank none) s = .next (settle (regenRow s (chanIdx tower chan) ra)) := by
  refine (shaped_true (chanOk_of_lt hchan)).trans ?_
  simp only [Option.bind_none, Option.orElse_none, h]

end

/-! ### Ordinary accesses and line clones (R259, R261) -/

/-- An access to a column out of memory mode takes place at the controller; the bytes of a write stay within their line. -/
theorem exec_rowanOrdinaryAccess_bypassed {write : Bool} {addr : BitVec 48} {data : HostData} {s : State} {k : Nat}
    (hplace : place s addr.toNat = .fast k) (hbypass : bypassed s (k / 128) = true)
    (hline : write = true → addr.toNat % 128 + (hostBytes data).length ≤ 128) :
    exec (.rowanOrdinaryAccess write addr data) s = .next (settle (if write then
      lineWrite s (addr.toNat / 128 * 128) (addr.toNat % 128) (hostBytes data) else (lineRead s (addr.toNat / 128 * 128) 0 128).1)) := by
  have hshape : (!write || addr.toNat % 128 + (hostBytes data).length ≤ 128 : Bool) = true := by
    cases write with
    | false => rfl
    | true => exact decide_eq_true (hline rfl)
  refine (shaped_true hshape).trans ?_
  simp only [hplace, hbypass, if_true]

/-- A clone within a subarray copies its lines while the channel is in memory mode. -/
theorem exec_lineClone_memory {tower : BitVec 4} {chan : BitVec 9} {src dst : BitVec 18} {first : BitVec 4} {n : BitVec 5} {s : State}
    {col : Nat} (hchan : chan.toNat < 272) (hsrc : src.toNat < 147456) (hdst : dst.toNat < 147456)
    (hsub : sameSub src.toNat dst.toNat = true) (hn : 1 ≤ n.toNat) (hlast : first.toNat + n.toNat ≤ 16)
    (hmode : chanMode s (chanIdx tower chan) = 0) (hcol : logicalCol s (chanIdx tower chan) = some col) :
    exec (.lineClone tower chan src dst first n) s =
      .next (settle (cloneLines s (chanIdx tower chan) src.toNat dst.toNat first.toNat n.toNat)) := by
  have hshape : (chanOk chan && src.toNat < 147456 && dst.toNat < 147456 && sameSub src.toNat dst.toNat && 1 ≤ n.toNat &&
      first.toNat + n.toNat ≤ 16 : Bool) = true := by
    simp only [chanOk_of_lt hchan, hsrc, hdst, hsub, hn, hlast, decide_true, Bool.and_self]
  refine (shaped_true hshape).trans ?_
  rw [if_pos ⟨hmode, Option.isSome_of_eq_some hcol⟩]

/-! ### Maintenance, refresh rate and migration (R241 to R243, R262) -/

section
variable {tower : BitVec 4} {chan : BitVec 9} {s : State} (hchan : chan.toNat < 272)
include hchan

/-- A channel index gives back its tower and the place in it. -/
theorem chanIdx_mod : chanIdx tower chan % 272 = chan.toNat := by unfold chanIdx; omega
theorem chanIdx_div : chanIdx tower chan / 272 = tower.toNat := by unfold chanIdx; omega

/-- A channel out of self-refresh runs its four slots, counts the window and loses a column that has nowhere to go. -/
theorem exec_maintenanceWindow_awake (bondFails fits : Bool) (hawake : fbit s (chBase (chanIdx tower chan)) 11 = false) :
    let ch := chanIdx tower chan
    exec (.maintenanceWindow tower chan bondFails fits) s = .next (settle (lossDue (modChan (regenSlot
      (bondSlot (scrubSlot (refreshSlot s ch) ch fits) ch bondFails) ch) ch fun x => { x with window := x.window + 1 }) ch)) := by
  refine (shaped_true (chanOk_of_lt hchan)).trans ?_
  simp only [hawake, Bool.false_eq_true, if_false]

/-- A channel that has been cool for 10 ms leaves the quadruple rate and says so. -/
theorem exec_normalRefresh_due {t : Nat} (hquad : fbit s (chBase (chanIdx tower chan)) 5 = true)
    (hcool : (chanAt s (chanIdx tower chan)).coolSince = some t) (hdue : t + 10000000 ≤ s.now) :
    let ch := chanIdx tower chan
    exec (.normalRefresh tower chan) s = .next (settle (notice (fset s (chBase ch) 5 5 0) 0x0502 1 chan.toNat tower.toNat
      (fget s (chBase ch) 47 40))) := by
  refine (shaped_true (chanOk_of_lt hchan)).trans ?_
  simp only [hquad, hcool, hdue, decide_true, and_self, if_true, chanIdx_mod hchan, chanIdx_div hchan]

/-- A column that asked for a migration gets it while no plan runs. -/
theorem exec_columnMigration_wanted (hwant : (chanAt s (chanIdx tower chan)).wantMigrate = true) (hrun : s.run = none) :
    exec (.columnMigration tower chan) s = .next (settle (migrate s (chanIdx tower chan))) := by
  refine (shaped_true (chanOk_of_lt hchan)).trans ?_
  rw [if_pos ⟨hwant, Option.isNone_iff_eq_none.2 hrun⟩]

end

end Sys2Proof.Machine

open Sys2Proof Sys2Proof.Machine

/-- Settles O20: under the conditions of its clause each row is past its guards, and what it does is what the clause says. -/
theorem channelRows : Obligations.ChannelRows := by
  unfold Obligations.ChannelRows
  refine ⟨?regeneration, ?access, ?clone, ?window, ?refresh, ?migration⟩
  case regeneration =>
    intro tower chan die bank s w ra ch l hchan
    exact ⟨exec_regeneration_waiting hchan, exec_regeneration_lowest hchan⟩
  case access =>
    intro addr data s k hplace hbypass line
    exact ⟨exec_rowanOrdinaryAccess_bypassed hplace hbypass nofun,
      fun hline => exec_rowanOrdinaryAccess_bypassed hplace hbypass fun _ => hline⟩
  case clone =>
    intro tower chan src dst first n s col ch hchan hsrc hdst hbank hsub hn hlast hmode hcol
    have hsame : sameSub src.toNat dst.toNat = true := by simp only [sameSub, hbank, hsub, decide_true, Bool.and_self]
    exact exec_lineClone_memory hchan hsrc hdst hsame hn hlast hmode hcol
  case window => exact fun tower chan bondFails fits s hchan => exec_maintenanceWindow_awake hchan bondFails fits
  case refresh =>
    intro tower chan s t ch hchan hquad hcool hdue
    exact exec_normalRefresh_due hchan hquad hcool hdue
  case migration => exact fun tower chan s hchan => exec_columnMigration_wanted hchan

end

/-! ## O17: the commands of an attention engine complete (R266, R267, R269) -/

section

namespace Sys2Proof.Machine

/-! ### The oldest command of an operation completes (R267, R269) -/

/-- The attention engine of a cluster. -/
def engIdx (tower cluster : BitVec 4) : Nat := tower.toNat * 16 + cluster.toNat

/-- An engine's index gives back its tower and the cluster in it. -/
theorem engIdx_div (tower cluster : BitVec 4) : engIdx tower cluster / 16 = tower.toNat := by unfold engIdx; omega
theorem engIdx_mod (tower cluster : BitVec 4) : engIdx tower cluster % 16 = cluster.toNat := by unfold engIdx; omega

/-- A row performs its operation on the oldest started command of that operation. -/
theorem attRow_front {tower cluster : BitVec 4} {op : Nat} {s : State} {q : AttCmd} (hfront : s.attFront tower cluster op = some q)
    (f : State → Nat → AttCmd → AttAns) :
    attRow s tower cluster op f = attEnd (engIdx tower cluster) q (f (s.attNow tower cluster) (engIdx tower cluster) q) := by
  unfold State.attFront State.attNow at hfront
  simp only [attRow, hfront]
  rfl

/-- A command that met no error leaves its effects, its result and its count, and its engine goes on. -/
theorem finish_attEnd (tower cluster : BitVec 4) (q : AttCmd) (v : State) (n : Nat) :
    finish (attEnd (engIdx tower cluster) q (v, .ok n)) = v.attended tower cluster q n := by
  simp only [finish, attEnd, attDone, engIdx_div, engIdx_mod]
  rfl

/-- The shape that the ten rows of an attention engine share: the row with the code `op` performs `f`. -/
theorem finish_attRow {op : Nat} (f : State → Nat → AttCmd → AttAns) (tower cluster : BitVec 4) (s v : State) (q : AttCmd) (n : Nat)
    (hfront : s.attFront tower cluster op = some q) (hans : f (s.attNow tower cluster) (engIdx tower cluster) q = (v, .ok n)) :
    finish (attRow s tower cluster op f) = v.attended tower cluster q n := by
  rw [attRow_front hfront, hans, finish_attEnd]

end Sys2Proof.Machine

open Sys2Proof Sys2Proof.Machine

/-- Settles O17: the ten rows are one row over ten operations. -/
theorem attentionCommands : Obligations.AttentionCommands := by
  unfold Obligations.AttentionCommands
  exact ⟨finish_attRow attSoftmax, finish_attRow attRecomp, finish_attRow attAccum, finish_attRow attMerge, finish_attRow attGather,
    finish_attRow attAppend, finish_attRow attAttach, finish_attRow attFork, finish_attRow attDropSeq, finish_attRow attRingfill⟩

end

/-! ## O18: what SOFTMAX, ACCUM, FORK, DROP and RINGFILL answer (R275, R276, R286, R289) -/

section

namespace Sys2Proof.Machine

/-! ### Checks and reads without an error (R270) -/

@[simp] theorem orElse_none (s : State) (k : State → AttAns) : orElse s none k = k s := rfl
@[simp] theorem withBytes_ok {α : Type} (s : State) (b : α) (k : State → α → AttAns) : withBytes (s, .ok b) k = k s b := rfl
@[simp] theorem edAns_none (s : State) (v : Nat) : edAns (s, none) v = (s, .ok v) := rfl

/-- The pool of the plan in progress that a command names (R281). -/
def namedPool (u : State) (q : AttCmd) : Option Pool := ((runPlan u).map planPools).bind fun l => l.find? fun p => p.idx = q.pool

/-- A command goes on with the pool it names once its checks have passed. -/
theorem withPool_named {u : State} {e : Nat} {q : AttCmd} {p : Pool} {chk : Pool → List (Bool × Nat × Option Nat)}
    (hpool : namedPool u q = some p) (hchk : pickErr ((p.tower = e / 16, 0x10, q.at_) :: chk p) = none) (k : State → Pool → AttAns) :
    withPool u e q chk k = k u p := by
  unfold namedPool at hpool
  simp only [withPool, hpool, hchk, orElse_none]

/-! ### SOFTMAX and ACCUM (R275, R276) -/

/-- SOFTMAX with init starts each row at m = −∞ and l = 0 and reads no old state. -/
theorem attSoftmax_init {u : State} {e : Nat} {q : AttCmd} (hinit : bit q.flags 0 = true) :
    let mask := attMasked (bit q.flags 1) q.s q.x q.y
    let sc := memRead u q.a0 (4 * q.n * q.w)
    let rows := (List.range q.n).map fun r => softmaxRow q.fmt q.z (mask r) f32NegInf 0 (rowOf (f32List (pdata sc.2)) q.w r)
    pickErr (softFields q ++ arrOk u e q.a0 (4 * q.n * q.w) 4 ++ arrOk u e q.a2 (16 * q.n) 4 ++
      arrOk u e q.a3 (q.n * q.w * fmtBytes q.fmt) (if q.fmt = 0 then 4 else 1)) = none →
    usedPoison q.a0 sc.2 (fun i => !mask (i / 4 / q.w) (i / 4 % q.w)) = none →
    attSoftmax u e q = (memWrite (memWrite sc.1 q.a3 (clean ((rows.map fun r => (r.1.map (leBytes (fmtBytes q.fmt))).flatten).flatten)))
      q.a2 (clean ((rows.map fun r => f32Bytes [r.2.1, r.2.2.1, r.2.2.2, 0]).flatten)), .ok 0) := by
  intro mask sc rows hchk hused
  simp only [attSoftmax, hinit, if_true, List.append_nil, hchk, hused, orElse_none, withBytes_ok, mask, sc, rows]

/-- ACCUM writes PV with init, and else PV plus the old O rescaled by the row's alpha. -/
theorem attAccum_ok {u v : State} {e : Nat} {q : AttCmd} {bs : List (List Byte)} :
    let m := 4 * q.n * q.w
    let init := bit q.flags 0
    let all : Nat → Bool := fun _ => true
    pickErr ([fieldOk q (q.onlyFields [(0, 2), (4, 36)] && q.flags ≤ 1), fieldOk q (1 ≤ q.n && q.n ≤ 64),
      fieldOk q (64 ≤ q.w && q.w ≤ 256 && q.w % 64 = 0)] ++ arrOk u e q.a0 m 4 ++ arrOk u e q.a2 m 4 ++
      (if init then [] else arrOk u e q.a1 m 4 ++ arrOk u e q.a3 (16 * q.n) 4)) = none →
    eReads (if init then [(q.a0, m, all)] else [(q.a0, m, all), (q.a1, m, all), (q.a3, 16 * q.n, usesAlpha)]) u = (v, .ok bs) →
    let pv := f32List (bs.getD 0 [])
    let out := if init then pv else (indexed (pv.zip (f32List (bs.getD 1 [])))).map fun x =>
      fp32.add (fp32.mul (leAt (bs.getD 2 []) (16 * (x.1 / q.w) + 8) 4) x.2.2) x.2.1
    attAccum u e q = (memWrite v q.a2 (clean (f32Bytes out)), .ok 0) := by
  intro m init all hchk hread pv out
  simp only [attAccum, hchk, hread, orElse_none, withBytes_ok, m, init, all, pv, out]

/-! ### FORK, DROP and RINGFILL (R286, R289) -/

section
variable {u v w t x : State} {e : Nat} {q : AttCmd} {p : Pool} (hpool : namedPool u q = some p)
include hpool

/-- FORK of an empty sequence answers the epoch of the other's snapshot. -/
theorem attFork_empty {sn sx : Snap}
    (hchk : pickErr ((p.tower = e / 16, 0x10, q.at_) :: [fieldOk q (q.onlyFields [(0, 1), (3, 3), (40, 4), (52, 4)]),
      fieldOk q (q.s < p.seqs && q.x < p.seqs), fieldOk q (!edited u e q p q.s)]) = none)
    (hsnap : snapshot u p q.s = (v, .ok sn)) (hother : snapshot v p q.x = (w, .ok sx)) (hempty : sn.ents = [])
    (hlen : q.n ≤ sx.ents.length)
    (hedit : editSeq w e q p q.s sn ((sx.ents.take q.n).foldl (fun n x => n + x.2) 0) (sx.ents.take q.n)
      ((sx.ents.take q.n).map fun x => .inc x.1) = (t, none)) :
    attFork u e q = (t, .ok sx.epoch) := by
  have hfits : ¬ (!sn.ents.isEmpty ∨ sx.ents.length < q.n) := by simp [hempty, hlen]
  refine (withPool_named hpool hchk _).trans ?_
  simp only [hsnap, hother, withBytes_ok, if_neg hfits, hedit, edAns_none]

theorem attDropSeq_ok {sn : Snap}
    (hchk : pickErr ((p.tower = e / 16, 0x10, q.at_) :: [fieldOk q (q.onlyFields [(0, 1), (3, 1), (52, 4)]),
      fieldOk q (q.s < p.seqs), fieldOk q (!edited u e q p q.s)]) = none)
    (hsnap : snapshot u p q.s = (v, .ok sn))
    (hedit : editSeq v e q p q.s sn 0 [] (sn.ents.map fun x => .dec x.1) = (t, none)) :
    attDropSeq u e q = (t, .ok sn.epoch) := by
  refine (withPool_named hpool hchk _).trans ?_
  simp only [hsnap, withBytes_ok, hedit, edAns_none]

/-- RINGFILL of distinct spare pages of the pool, for which the ring has room, stages each. -/
theorem attRingfill_spare {ps : List Nat} {gs : List Page} {cb : List Byte}
    (hchk : pickErr ((p.tower = e / 16, 0x10, q.at_) :: ([fieldOk q (q.onlyFields [(0, 1), (3, 3), (8, 8)]),
      fieldOk q (1 ≤ q.n && q.n ≤ 64)] ++ arrOk u e q.a0 (4 * q.n) 4)) = none)
    (hlist : pageList u q = (v, .ok ps)) (hdist : distinct ps = true) (hin : ∀ i ∈ ps, i < p.pages)
    (hdesc : readPages p ps v = (w, .ok gs)) (hctrl : eRead w p.ctrl 8 = (t, .ok cb)) (hspare : gs.all Page.spare = true)
    (hroom : unsigned 32 ((leAt cb 4 4 : Int) - leAt cb 0 4) + q.n ≤ 2 ^ p.ringLog)
    (hstage : stageAll t e q (ps.map fun i => ⟨q.core, p.idx, .push i⟩) = (x, none)) :
    attRingfill u e q = (x, .ok 0) := by
  have hpages : ¬ (!distinct ps ∨ ps.any (fun i => p.pages ≤ i)) := by simpa [hdist] using hin
  have hfits : ¬ (!(gs.all Page.spare) ∨ 2 ^ p.ringLog < unsigned 32 ((leAt cb 4 4 : Int) - leAt cb 0 4) + q.n) := by
    simpa only [hspare, Bool.not_true, Bool.false_eq_true, false_or, not_lt] using hroom
  refine (withPool_named hpool hchk _).trans ?_
  simp only [hlist, hdesc, hctrl, withBytes_ok, if_neg hpages, if_neg hfits, hstage, edAns_none]

end

end Sys2Proof.Machine

open Sys2Proof Sys2Proof.Machine

/-- Settles O18: each clause's conditions choose the answer of its operation, with which the command completes. -/
theorem attentionResults : Obligations.AttentionResults := by
  unfold Obligations.AttentionResults
  refine ⟨?softmax, ?accum, ?fork, ?drop, ?ringfill⟩
  case softmax =>
    intro tower cluster s q u e mask sc rows hfront hinit hchk hused
    exact finish_attRow attSoftmax _ _ _ _ _ _ hfront (attSoftmax_init hinit hchk hused)
  case accum =>
    intro tower cluster s v q bs u e m init all hfront hchk hread pv out
    exact finish_attRow attAccum _ _ _ _ _ _ hfront (attAccum_ok hchk hread)
  case fork =>
    intro tower cluster s v w t q p sn sx u e hfront hpool hchk hsnap hother hempty hlen es hedit
    exact finish_attRow attFork _ _ _ _ _ _ hfront (attFork_empty hpool hchk hsnap hother hempty hlen hedit)
  case drop =>
    intro tower cluster s v t q p sn u e hfront hpool hchk hsnap hedit
    exact finish_attRow attDropSeq _ _ _ _ _ _ hfront (attDropSeq_ok hpool hchk hsnap hedit)
  case ringfill =>
    intro tower cluster s v w t x q p ps gs cb u e hfront hpool hchk hlist hdist hin hdesc hctrl hspare hroom hstage
    exact finish_attRow attRingfill _ _ _ _ _ _ hfront
      (attRingfill_spare hpool hchk hlist hdist hin hdesc hctrl hspare hroom hstage)

end

/-! ## O50: the channels and lines of the slow tier (R306) -/

section

namespace Sys2Proof.Machine

/-- What the channel line q adds to the low bits of a line number in the fold of R306. -/
def slowFold (q : Nat) : Nat :=
  (q ^^^ (q >>> 5) ^^^ (q >>> 10) ^^^ (q >>> 15) ^^^ (q >>> 20) ^^^ (q >>> 25)) % 32

theorem slowFold_lt (q : Nat) : slowFold q < 32 := Nat.mod_lt _ (by decide)

/-- A shift past the low five bits of a line number is a shift of its channel line. -/
theorem shiftRight_add_five (n m : Nat) : n >>> (m + 5) = (n / 32) >>> m := by
  rw [Nat.add_comm, Nat.shiftRight_add, Nat.shiftRight_eq_div_pow n 5]

/-- The channel is the low bits of the line number, folded with what its channel line adds. -/
theorem slowPlace_line (q : Nat) {k : Nat} (hk : k < 32) : slowPlace (128 * (32 * q + k)) = (k ^^^ slowFold q, q) := by
  have hline : 128 * (32 * q + k) / 128 = 32 * q + k := Nat.mul_div_cancel_left _ (by decide)
  have hhigh : (32 * q + k) / 32 = q := by omega
  have hlow : (32 * q + k) % 2 ^ 5 = k := by omega
  have hshift (m : Nat) : (32 * q + k) >>> (m + 5) = q >>> m := by rw [shiftRight_add_five, hhigh]
  refine Prod.ext ?_ (by simp only [slowPlace, hline, hhigh])
  calc (slowPlace (128 * (32 * q + k))).1
      = ((32 * q + k) ^^^ q ^^^ (q >>> 5) ^^^ (q >>> 10) ^^^ (q >>> 15) ^^^ (q >>> 20) ^^^ (q >>> 25)) % 2 ^ 5 := by
        simp only [slowPlace, hline, hshift 0, hshift 5, hshift 10, hshift 15, hshift 20, hshift 25]
        rfl
    _ = ((32 * q + k) ^^^ (q ^^^ (q >>> 5) ^^^ (q >>> 10) ^^^ (q >>> 15) ^^^ (q >>> 20) ^^^ (q >>> 25))) % 2 ^ 5 := by
        simp only [Nat.xor_assoc]
    _ = k ^^^ slowFold q := by rw [Nat.xor_mod_two_pow, hlow]; rfl

/-- The channel and the channel line of an offset of the slow tier are in range. -/
theorem slowPlace_lt {off : Nat} (h : off < 2 ^ 41) : (slowPlace off).1 < 32 ∧ (slowPlace off).2 < 2 ^ 29 :=
  ⟨Nat.mod_lt _ (by decide), by simp only [slowPlace]; omega⟩

end Sys2Proof.Machine

open Sys2Proof Sys2Proof.Machine

/-- Settles O50: within a channel line the channel is the line's low bits XORed with one value, which is its own inverse. -/
theorem slowInterleave : Obligations.SlowInterleave := by
  unfold Obligations.SlowInterleave
  refine ⟨?fold, ?bijection, ?workedExample⟩
  case fold =>
    intro off hoff n
    exact ⟨Prod.ext rfl (Nat.shiftRight_eq_div_pow n 5).symm, slowPlace_lt hoff⟩
  case bijection =>
    intro q ch hch
    have hk : ch ^^^ slowFold q < 32 := Nat.xor_lt_two_pow (n := 5) hch (slowFold_lt q)
    refine ⟨ch ^^^ slowFold q, hk, ?_, ?_, fun j hj hsame => ?_⟩
    · rw [slowPlace_line q hk, Nat.xor_xor_cancel_right]
    · rw [slowPlace_line q hk]
    · rw [slowPlace_line q hj] at hsame
      rw [← hsame, Nat.xor_xor_cancel_right]
  case workedExample => decide

end

/-! ## O22: the rules, the jobs and the invocations of Quince (R312 to R314, R318, R324) -/

section

namespace Sys2Proof.Machine

/-! ### Loading a rule (R312, R313) -/

/-- An image with a good header and a good digest, for which rule memory has room, is loaded. -/
theorem ruleFetch_loads {s : State} {k p n : Nat} {h t : State × List PByte}
    (hh : memRead s (fget s (ruleReg k) 47 7 * 128) 128 = h) (hn : leAt (pdata h.2) 8 4 = n)
    (ht : memRead h.1 (fget s (ruleReg k) 47 7 * 128 + 128) n = t)
    (hrange : rangeOk s Place.isSlow (fget s (ruleReg k) 47 7 * 128) 128 = true) (hclean : anyPoison h.2 = false)
    (hheader : ruleHeaderOk (pdata h.2) = true)
    (htext : rangeOk s Place.isSlow (fget s (ruleReg k) 47 7 * 128 + 128) n = true) (htextClean : anyPoison t.2 = false)
    (hdigest : shake256 64 (pdata t.2) = bytesAt (pdata h.2) 64 64)
    (hroom : rulePlace ((tdel s.qnc.rules k).map (·.2)) (ceilDiv n 4096 * 4096) = some p) :
    ruleFetch s k =
      ({ t.1 with qnc := { t.1.qnc with rules := tput (tdel s.qnc.rules k) k (ruleOf (pdata h.2) (pdata t.2) p) } }, 1) := by
  subst hh hn ht
  simp only [ruleFetch, hrange, hclean, hheader, htext, htextClean, hdigest, hroom, Bool.not_true, Bool.or_self,
    Bool.false_eq_true, if_false, ne_eq, not_true, decide_false]

/-- A write of load to a slot past the library's, with no plan running, that loads a rule shows status 1 with the slot loaded, and
reports it. -/
theorem ruleLoad_loads {s u : State} {k : Nat} {r : Rule} (hk : 16 ≤ k) (hrun : s.run = none) (hfetch : ruleFetch s k = (u, 1))
    (hloaded : tget? u.qnc.rules k = some r) :
    ruleLoad s k = notice (fset (fset u (ruleReg k) 62 60 1) (ruleReg k) 63 63 1) 0x2005 0 0xFFFF 0xFF (k + 1 * 2 ^ 8) := by
  have hopen : ¬ (k < 16 ∨ s.run.isSome = true) := by simp [hrun, hk]
  simp only [ruleLoad, if_neg hopen, hfetch, hloaded, Option.isSome_some, b2n, if_true]

/-! ### Starting a job (R318) -/

/-- A job begins once every job of its commit that stands before it in the table has begun. -/
theorem exec_jobStart_turn {s : State} {job : Nat} {j : Job} (hjob : s.qnc.jobs.find? (fun j => j.idx = job) = some j)
    (hturn : ∀ k ∈ s.qnc.jobs, k.startNo = j.startNo → k.idx < j.idx → k.begun = true) :
    exec (.jobStart job) s = .next (settle { s with qnc := { s.qnc with jobs := s.qnc.jobs.map fun k =>
      if k.idx = job then { k with begun := true } else k } }) := by
  have hall : (s.qnc.jobs.all fun k => k.startNo ≠ j.startNo || j.idx ≤ k.idx || k.begun) = true := by
    refine List.all_eq_true.2 fun k hk => ?_
    by_cases hno : k.startNo = j.startNo
    · by_cases hidx : k.idx < j.idx
      · simp [hturn k hk hno hidx]
      · simp [Nat.not_lt.1 hidx]
    · simp [hno]
  show execJobStart job s = _
  simp only [execJobStart, hjob, hall, if_true]
  rfl

/-! ### How an invocation ends (R314, R324) -/

/-- Bytes without poison have no first poisoned byte. -/
theorem findIdx?_poison_none {l : List PByte} (h : anyPoison l = false) : l.findIdx? (·.2) = none :=
  List.findIdx?_eq_none_iff.2 fun x hx => Bool.eq_false_iff.2 (List.any_eq_false.1 h x hx)

section
variable {s v : State} {j : Job} {i : InvId} {hart steps : Nat} {d : List Byte} {g : GroupRun} {err : InvErr} {run x : RuleRun}

/-- The Adam rule's prologue is computed. -/
theorem ruleEnd_adamPrologue (hrule : j.d.rule = 0) (hi : i.chunk = none) :
    ruleEnd s j i hart steps d g err run = (s, .ret ⟨0, [], adamPrologue d, 0, 0, 0, 0, false, 0, none⟩) := by
  simp only [ruleEnd, hrule, hi, if_true]

/-- The Adam rule is elementwise, and a chunk of its body is computed. -/
theorem ruleEnd_adamBody {k : Nat} (hrule : j.d.rule = 0) (hi : i.chunk = some k) :
    ruleEnd s j i hart steps d g err run = adamBody s d g.exp (4096 * k) (Nat.min 4096 (leAt d 0 8 - 4096 * k)) := by
  simp only [ruleEnd, hrule, hi, if_true]
  rfl

/-- A rule of the library brings its result with the command. -/
theorem ruleEnd_library (hlo : 1 ≤ j.d.rule) (hhi : j.d.rule < 16) :
    ruleEnd s j i hart steps d g .none run = (s, .ret (settledRun run)) := by
  simp only [ruleEnd, if_neg (Nat.one_le_iff_ne_zero.1 hlo), if_neg (Nat.not_le.2 hhi)]

/-- A rule of a loaded text is the run of its text. -/
theorem ruleEnd_text (hrule : 16 ≤ j.d.rule) :
    ruleEnd s j i hart steps d g err run =
      let rule := ruleOfSlot s j.d.rule
      let c := i.chunk.elim (0, 0) fun k => chunkSpan rule (leAt d 0 8) k
      runRule s hart rule i.chunk.isNone c.1 c.2 j.startNo steps d := by
  have hne : j.d.rule ≠ 0 := by omega
  simp only [ruleEnd, if_neg hne, if_pos hrule]

/-! ### What an invocation that returned leaves (R314, R318) -/

/-- An invocation that returned is counted, and its record of failures ends. -/
def State.returned (s : State) (i : InvId) (x : RuleRun) : State :=
  setTries (count (count s qncBase 5 x.retries) qncBase 1 1) i none

theorem runDone_prologue (hfault : runFault s i.chunk.isNone x = none) (hi : i.chunk = none) :
    runDone s j i hart x = prologueDone (s.returned i x) j i.group x := by
  simp only [runDone, hfault]
  rw [hi]
  rfl

theorem runDone_body {k : Nat} (hfault : runFault s i.chunk.isNone x = none) (hi : i.chunk = some k) :
    runDone s j i hart x = bodyDone (s.returned i x) j i.group k x := by
  simp only [runDone, hfault]
  rw [hi]
  rfl

/-- A prologue that returns 0 puts its area into the group descriptor. -/
theorem prologueDone_area {group : Nat} (hret : x.ret = 0) (harea : x.area ≠ []) :
    prologueDone s j group x = memWrite (modGroup s j.idx group fun g => { g.capture x with prologueDone := true })
      (j.d.groups + 128 * group + 64) (clean (bytesAt x.area 0 64)) := by
  have hempty : ¬ x.area.isEmpty = true := by simpa using harea
  simp only [prologueDone, hret, if_neg hempty, if_neg Nat.zero_ne_one]

/-- A chunk of a body that returns 0 releases its staged writes whole, and the last one ends its group. -/
theorem bodyDone_released {group k : Nat} (hret : x.ret = 0) :
    bodyDone s j group k x =
      let w := modGroup (x.writes.foldl (fun s w => memWrite s w.1.toNat (clean w.2)) s) j.idx group fun g =>
        { (g.capture x).doneChunk k with skipped := g.skipped }
      let n := chunkCount (ruleOfSlot s j.d.rule) (leAt (jobDesc s j.d group) 0 8)
      let next := ((w.qnc.jobs.find? fun k => k.idx = j.idx).bind fun k => (k.groups[group]?).map (·.next)).getD 0
      if n ≤ next then endGroup w j.idx group else w := by
  simp only [bodyDone, hret, Nat.zero_ne_one, if_false, decide_false, Bool.or_false]

/-- An invocation with a descriptor without poison, whose rule returned. -/
theorem invoke_returned (hclean : anyPoison (memRead s (j.d.groups + 128 * i.group) 128).2 = false)
    (hend : ruleEnd (memRead s (j.d.groups + 128 * i.group) 128).1 j i hart steps
      (pdata (memRead s (j.d.groups + 128 * i.group) 128).2) g err run = (v, .ret x)) :
    invoke s j i hart steps g err run = runDone v j i hart x := by
  simp only [invoke, findIdx?_poison_none hclean, hend]

/-- An invocation that is to run next and that no error befalls runs. -/
theorem invocation_turn {job group chunk : Nat} (hjob : s.qnc.jobs.find? (fun j => j.idx = job) = some j)
    (hgroup : j.groups[group]? = some g)
    (hi : i = ⟨job, group, if (ruleOfSlot s j.d.rule).prologue && !g.prologueDone then none else some chunk⟩)
    (hturn : invocable s j g i hart = true) :
    invocation s job group chunk hart steps .none run = invoke s j i hart steps g .none run := by
  subst hi
  simp only [invocation, hjob, hgroup, hturn, Bool.not_true, Bool.false_eq_true, if_false]

end

end Sys2Proof.Machine

open Sys2Proof Sys2Proof.Machine

/-- Settles O22: each clause's conditions lead its row past the branches that refuse, fail or repeat. -/
theorem quinceRows : Obligations.QuinceRows := by
  unfold Obligations.QuinceRows
  refine ⟨?load, fun job s j => exec_jobStart_turn, ?invocation⟩
  case load =>
    intro slot s p k a h n t rest hk hrun hrange hclean hheader htext htextClean hdigest hroom u
    have hfetch : ruleFetch s k = (u, 1) := ruleFetch_loads rfl rfl rfl hrange hclean hheader htext htextClean hdigest hroom
    exact congrArg finish (ruleLoad_loads hk hrun hfetch (tget?_tput_self rest k _))
  case invocation =>
    intro job group chunk hart steps run x s v j g d i rule c u hjob hgroup hturn hclean hrule hfault
    have hend : ruleEnd d.1 j i hart.toNat steps (pdata d.2) g .none run = (v, .ret x) := by
      rcases hrule with ⟨h0, hi, rfl, rfl⟩ | ⟨k, h0, hi, hrun⟩ | ⟨hlo, hhi, rfl, rfl⟩ | ⟨htext, hrun⟩
      · exact ruleEnd_adamPrologue h0 hi
      · exact (ruleEnd_adamBody h0 hi).trans hrun
      · exact ruleEnd_library hlo hhi
      · exact (ruleEnd_text htext).trans hrun
    have hinv : invocation s job group chunk hart.toNat steps .none run = runDone v j i hart.toNat x :=
      (invocation_turn hjob hgroup rfl hturn).trans (invoke_returned hclean hend)
    refine ⟨fun hi hret harea => ?_, fun k hi hret => ?_⟩
    · exact congrArg finish (hinv.trans ((runDone_prologue hfault hi).trans (prologueDone_area hret harea)))
    · exact congrArg finish (hinv.trans ((runDone_body hfault hi).trans (bodyDone_released hret)))

end

/-! ## O23: requests and responses of the fabric that are for this module (R342 to R344, R370) -/

section

namespace Sys2Proof.Machine

variable {s u : State} {m : Msg}

/-- A message for this module, on a delivering link of a fabric in service, takes its effect here. -/
theorem routed_here (h : Arrives s m) (ty : Nat) (f : State → State) : routed s m ty f = f s := by
  obtain ⟨hen, hlive, hdest⟩ := h
  simp only [routed, hen, hlive, hdest, Bool.not_true, Bool.or_self, Bool.false_eq_true, if_false, if_true]

/-! ### Requests (R343) -/

/-- Readable lines without a withheld byte are answered with status 0. -/
theorem takeRead_answers (hrange : rangeOk s Place.remoteOk m.hdr.addr.toNat (hdrLen m.hdr) = true)
    (hwhole : withheldFrom s 4096 m.hdr.addr.toNat (hdrLen m.hdr) = false) :
    takeRead s m = answer (memRead s m.hdr.addr.toNat (hdrLen m.hdr)).1 m.hdr mtReadResp 0
      (memRead s m.hdr.addr.toNat (hdrLen m.hdr)).2 := by
  simp only [takeRead, hrange, hwhole, Bool.not_true, Bool.false_eq_true, if_false]

/-- A READ of readable lines with a withheld byte waits at the slice. -/
theorem takeRead_waits (hrange : rangeOk s Place.remoteOk m.hdr.addr.toNat (hdrLen m.hdr) = true)
    (hheld : withheldFrom s 4096 m.hdr.addr.toNat (hdrLen m.hdr) = true) :
    takeRead s m = { s with fab := { s.fab with waitReads := s.fab.waitReads ++ [(m.link.toNat, m.hdr)] } } := by
  simp only [takeRead, hrange, hheld, Bool.not_true, Bool.false_eq_true, if_false, if_true]

/-- Writable lines are written and acknowledged. -/
theorem takeWrite_writes {ok : Place → Bool} (hrange : rangeOk s ok m.hdr.addr.toNat (hdrLen m.hdr) = true) :
    takeWrite s m ok =
      answer (memWrite s m.hdr.addr.toNat (msgBytes m.hdr (bytesAt m.data 0 (hdrLen m.hdr)))) m.hdr mtAck 0 [] := by
  simp only [takeWrite, hrange, Bool.not_true, Bool.false_eq_true, if_false]

/-- Lines of a format that has a reduction, to a place that accepts it, are contributed and acknowledged (R224, R225). -/
theorem takeReduce_contributes (hfmt : m.hdr.fmt.toNat = 8 ∨ m.hdr.fmt.toNat = 9 ∨ m.hdr.fmt.toNat = 0xA ∧ hdrLen m.hdr = 384)
    (htarget : reduceTargetOk s m.hdr.addr.toNat (hdrLen m.hdr) (m.hdr.fmt.toNat = 0xA) = true) :
    takeReduce s m = answer (contribute s m.hdr.fmt.toNat m.hdr.addr.toNat (msgBytes m.hdr (bytesAt m.data 0 (hdrLen m.hdr))))
      m.hdr mtAck 0 [] := by
  have hok : (if m.hdr.fmt.toNat = 0xA then decide (hdrLen m.hdr = 384)
      else decide (m.hdr.fmt.toNat = 8) || decide (m.hdr.fmt.toNat = 9)) = true := by
    rcases hfmt with h8 | h9 | ⟨hA, hlen⟩
    · simp [h8]
    · simp [h9]
    · simp [hA, hlen]
  simp only [takeReduce, hok, htarget, Bool.not_true, Bool.or_self, Bool.false_eq_true, if_false]

/-! ### Responses (R342, R344) -/

/-- The lines that an open READ asked for go on to the destination of its command. -/
theorem takeResp_delivers {q : Req} {c : QCmd} (hopen : openReq s m true = some (q, u)) (hstatus : m.hdr.status ≠ 1)
    (hcmd : (coreL u q.core).eng.find? (fun x => x.id = q.cmd) = some c) :
    takeResp s m = ((⟨q.core, c, ⟨[], []⟩⟩ : Mover).deliver u (q.dest - (⟨q.core, c, ⟨[], []⟩⟩ : Mover).dst)
      (msgBytes m.hdr (bytesAt m.data 0 (q.lines * 128)))).1 := by
  simp only [takeResp, hopen, if_neg hstatus, hcmd]

/-! ### Tags (R370) -/

/-- While a plan runs, the TAG of the running step or an earlier one counts at once. -/
theorem takeTag_counts {r : Run} {step : Nat} (hrun : s.run = some r)
    (hstep : serialCmp (BitVec.ofNat 32 (curStep s)) (BitVec.ofNat 32 step) ≠ -1) (t tag : Nat) :
    takeTag s t tag step = tagInc s t tag := by
  simp only [takeTag, hrun, Option.isNone_some, Bool.false_or, decide_eq_true_eq, if_neg hstep]

/-- The TAG of a later step is held. -/
theorem takeTag_holds {step : Nat} (hstep : serialCmp (BitVec.ofNat 32 (curStep s)) (BitVec.ofNat 32 step) = -1) (t tag : Nat) :
    takeTag s t tag step = modColl s t fun e => { e with heldTags := e.heldTags ++ [(tag, step)] } := by
  simp only [takeTag, hstep, decide_true, Bool.or_true, if_true]

end Sys2Proof.Machine

open Sys2Proof Sys2Proof.Machine

/-- Settles O23: a message that arrives takes its effect here, and each clause's conditions lead it past the branches that refuse. -/
theorem fabricRequests : Obligations.FabricRequests := by
  unfold Obligations.FabricRequests
  refine ⟨?read, ?write, ?reduce, ?response, ?ack, ?tag⟩
  case read =>
    intro m s u n r harrives hrange
    have hexec : exec (.read m) s = finish (takeRead u m) := congrArg finish (routed_here harrives _ _)
    exact ⟨fun hwhole => hexec.trans (congrArg finish (takeRead_answers hrange hwhole)),
      fun hheld => hexec.trans (congrArg finish (takeRead_waits hrange hheld))⟩
  case write =>
    intro m s d harrives hrange
    exact ⟨congrArg finish ((routed_here harrives _ _).trans (takeWrite_writes hrange)),
      congrArg finish ((routed_here harrives _ _).trans (takeWrite_writes hrange))⟩
  case reduce =>
    intro m s d fmt harrives hfmt htarget
    exact congrArg finish ((routed_here harrives _ _).trans (takeReduce_contributes hfmt htarget))
  case response =>
    intro m s u q c harrives hopen hstatus hcmd v
    exact congrArg finish ((routed_here harrives _ _).trans (takeResp_delivers hopen hstatus hcmd))
  case ack =>
    intro m s u q harrives hopen hstatus
    refine congrArg finish ((routed_here harrives _ _).trans ?_)
    simp only [hopen, if_neg hstatus]
  case tag =>
    intro m s r t tag harrives hrun
    exact ⟨fun hstep => congrArg finish ((routed_here harrives _ _).trans (takeTag_counts hrun hstep t tag)),
      fun hstep => congrArg finish ((routed_here harrives _ _).trans (takeTag_holds hstep t tag))⟩

end

/-! ## O24: messages in transit (R352, R355, R358) -/

section

namespace Sys2Proof.Machine

variable {s : State} {m : Msg} {l : Nat}

/-- A message for another module is forwarded. -/
theorem routed_elsewhere (hen : fabEnabled s = true) (hlive : linkLive s m.link.toNat = true) (hdest : m.hdr.dest.toNat ≠ deviceId s)
    (ty : Nat) (f : State → State) : routed s m ty f = forward s m.link.toNat ty m.hop.toNat m.hdr m.data := by
  simp only [routed, hen, hlive, Bool.not_true, Bool.or_self, Bool.false_eq_true, if_false, if_neg hdest]

/-- A message in transit goes out on the link in force, its hop class one higher, while that is at most 4 (R355). -/
theorem forwardVc_sends {fromLink hop : Nat} {h : Header} (hen : fabEnabled s = true)
    (hroute : routeLink s (fromLink / 4) h.dest.toNat = some l) (hhop : hop < 4) (vc ty : Nat) (data : List Byte) :
    forwardVc s fromLink vc ty hop h data = sendVc s l vc ty (hop + 1) h data := by
  simp only [forwardVc, hen, hroute, Bool.not_true, Bool.false_eq_true, if_false, if_neg (Nat.not_lt.2 hhop)]

/-- A message in transit whose hop class cannot rise is dropped, counted and reported (R355). -/
theorem forwardVc_drops {fromLink hop : Nat} {h : Header} (hen : fabEnabled s = true)
    (hroute : routeLink s (fromLink / 4) h.dest.toNat = some l) (hhop : 4 ≤ hop) (vc ty : Nat) (data : List Byte) :
    forwardVc s fromLink vc ty hop h data = notice (count s (linkBase l) 8 1) 0x0405 1 l (l / 4) h.dest.toNat := by
  simp only [forwardVc, hen, hroute, Bool.not_true, Bool.false_eq_true, if_false, if_pos (Nat.lt_succ_of_le hhop)]

/-- The commands of a routed message, each with its virtual channel and type (R342); a TUNNEL has a channel of its own (R358). -/
def routedRows (m : Msg) (vc : BitVec 2) : List (Instr × Nat × Nat) :=
  [(.barrier m, 0, 0x03), (.cap m, 0, 0x04), (.failover m, 0, 0x05), (.read m, 1, 0x10), (.write m, 1, 0x11), (.reduce m, 1, 0x12),
    (.readResp m, 2, 0x20), (.ack m, 2, 0x21), (.put m, 3, 0x30), (.tag m, 3, 0x31), (.tunnel vc m, vc.toNat, 0x40)]

/-- Every routed message for another module is forwarded on its virtual channel. -/
theorem exec_routedRows_elsewhere (hen : fabEnabled s = true) (hlive : linkLive s m.link.toNat = true)
    (hdest : m.hdr.dest.toNat ≠ deviceId s) (vc : BitVec 2) :
    ∀ e ∈ routedRows m vc, exec e.1 s = finish (forwardVc s m.link.toNat e.2.1 e.2.2 m.hop.toNat m.hdr m.data) := by
  have hforward (ty : Nat) (f : State → State) :
      finish (routed s m ty f) = finish (forwardVc s m.link.toNat (msgVc ty) ty m.hop.toNat m.hdr m.data) :=
    congrArg finish (routed_elsewhere hen hlive hdest ty f)
  have htunnel : exec (.tunnel vc m) s = finish (forwardVc s m.link.toNat vc.toNat 0x40 m.hop.toNat m.hdr m.data) := by
    show execTunnel vc m s = _
    simp only [execTunnel, hen, hlive, Bool.not_true, Bool.or_self, Bool.false_eq_true, if_false, if_neg hdest, mtTunnel]
  simp only [routedRows, List.forall_mem_cons]
  exact ⟨hforward mtBarrier _, hforward mtCap _, hforward mtFailover _, hforward mtRead _, hforward mtWrite _, hforward mtReduce _,
    hforward mtReadResp _, hforward mtAck _, hforward mtPut _, hforward mtTag _, htunnel, List.forall_mem_nil _⟩

end Sys2Proof.Machine

open Sys2Proof Sys2Proof.Machine

/-- Settles O24: the eleven rows forward what is not for this module, and forwarding sends or drops by the hop class. -/
theorem fabricTransit : Obligations.FabricTransit := by
  unfold Obligations.FabricTransit
  intro m vc s l hen hlive hdest hroute sent dropped
  have hrows := exec_routedRows_elsewhere hen hlive hdest vc
  refine ⟨fun hhop => ?_, fun hhop c hc => ?_⟩
  · have hsent : ∀ e ∈ routedRows m vc, exec e.1 s = .next (settle (sent e.2.1 e.2.2)) := fun e he =>
      (hrows e he).trans (congrArg finish (forwardVc_sends hen hroute hhop e.2.1 e.2.2 m.data))
    simpa only [routedRows, List.forall_mem_cons, List.not_mem_nil, false_implies, implies_true, and_true] using hsent
  · obtain ⟨e, he, rfl⟩ : ∃ e ∈ routedRows m vc, e.1 = c := List.mem_map.1 hc
    exact (hrows e he).trans (congrArg finish (forwardVc_drops hen hroute hhop e.2.1 e.2.2 m.data))

end

/-! ## O25: discovery, time, barriers, cap notices, failover and tunnels (R349, R358, R363 to R366, R396) -/

section

namespace Sys2Proof.Machine

variable {s : State} {m : Msg} {l : Nat}

/-! ### IDENT (R349) -/

/-- A port in IDENT whose IDENT comes back echoed shows its delay and is UP. -/
theorem takeIdent_echoed {m : IdentMsg} (hstate : portState s l = 3) (hecho : m.echo ≠ 0) (received : W64) :
    takeIdent s l m received =
      let a := regPut s (linkBase l + 0x18) m.serial
      let b := regPut a (linkBase l + 0x10) (setField (setField (setField (regGet a (linkBase l + 0x10)) 63 48 m.device.toNat)
        45 40 m.link.toNat) 39 32 m.stepping.toNat)
      let c := modPort b l fun p => { p with peerSent := m.sent.toNat, peerAt := received.toNat, heard := true }
      let d := fset c (linkBase l) 39 32 (Nat.min 255 (ceilDiv (received - m.echo - m.held).toNat 2))
      let e := portUp (sendIdent d l) l (regGet s (linkBase l + 0x18) = m.serial)
      fabShow (if fabEnabled e ∧ fbit e (linkBase l) 5 then checkWiring e l else e) := by
  have hopen : ¬ (portState s l ≠ 3 ∧ portState s l ≠ 4) := fun h => h.1 hstate
  simp only [takeIdent, if_neg hopen, if_pos hstate, if_neg hecho]

/-! ### Time (R363 to R365) -/

/-- A module that shows time_locked and loses its reference holds its rate, clears the bit and reports it. -/
theorem unlockTime_locked (hlocked : fbit s (stnBase + 0x2010) 1 = true) :
    unlockTime s = notice (fset { s with fab := { s.fab with holdRate := true } } (stnBase + 0x2010) 1 1 0) 0x1016 0 0xFFFF 0xFF
      (unsigned 64 s.fab.offset) := by
  simp only [unlockTime, if_pos hlocked]

/-! ### Barriers and cap notices (R366, R396) -/

/-- The arrival of a member: its maxima are taken and it is recorded. -/
theorem takeBarrier_member (hphase : m.hdr.addr.toNat / 2 ^ 32 = 0) :
    takeBarrier s m =
      barMember (barTake s (barKey m.hdr.step.toNat (m.hdr.addr.toNat % 65536)) m.data) m.hdr.step.toNat (m.hdr.addr.toNat % 65536)
        (m.hdr.src.toNat % 16) := by
  simp only [takeBarrier, if_pos hphase]

/-- The notice of a member is counted, goes on to the runners, and is followed. -/
theorem takeCap_member (hphase : m.hdr.addr.toNat / 2 ^ 32 = 0) :
    takeCap s m =
      let v := count s pwmBase 3 1
      let d := bytesAt m.data 0 128
      let u := { v with fab := { v.fab with capSeen := tput v.fab.capSeen (leAt d 0 2) (v.now, bytesAt d 0 16) } }
      let h := { m.hdr with src := BitVec.ofNat 16 (deviceId u), addr := BitVec.ofNat 48 (2 ^ 32) }
      followPut (toRunners u mtCap h d) (leAt d 0 2) (leAt d 2 1) (leAt d 3 1) (leAt d 6 1 % 2 = 1) := by
  simp only [takeCap, if_pos hphase]

/-! ### Failover and tunnels (R354, R357, R358) -/

/-- A FAILOVER or TUNNEL that names no further module, or this one, takes its effect here. -/
theorem viaOnward_here (hid : m.hdr.id = 0xFFFF ∨ m.hdr.id.toNat = deviceId s) (vc ty : Nat) (f : State → State) :
    viaOnward s m vc ty f = f s := by
  simp only [viaOnward, if_pos hid]

/-- One that names another module goes on to it from the via device. -/
theorem viaOnward_sends (hen : fabEnabled s = true) (hnone : m.hdr.id ≠ 0xFFFF) (hother : m.hdr.id.toNat ≠ deviceId s)
    (hroute : routeLink s (m.link.toNat / 4) m.hdr.id.toNat = some l) (hhop : m.hop.toNat < 4) (vc ty : Nat) (f : State → State) :
    viaOnward s m vc ty f = sendVc s l vc ty (m.hop.toNat + 1) { m.hdr with dest := m.hdr.id, id := 0xFFFF } m.data := by
  have hid : ¬ (m.hdr.id = 0xFFFF ∨ m.hdr.id.toNat = deviceId s) := not_or.2 ⟨hnone, hother⟩
  have hsends := forwardVc_sends (h := { m.hdr with dest := m.hdr.id, id := 0xFFFF }) hen hroute hhop vc ty m.data
  simp only [viaOnward, if_neg hid, hsends]

/-- A TUNNEL for this module goes on from here, or its body is taken. -/
theorem exec_tunnel_arrives (harrives : Arrives s m) (vc : BitVec 2) :
    exec (.tunnel vc m) s = finish (viaOnward s m vc.toNat mtTunnel fun s =>
      takeTunnel s (m.hdr.addr.toNat / 65536 % 64) (m.hdr.addr.toNat % 65536)) := by
  obtain ⟨hen, hlive, hdest⟩ := harrives
  show execTunnel vc m s = _
  simp only [execTunnel, hen, hlive, hdest, Bool.not_true, Bool.or_self, Bool.false_eq_true, if_false, if_true]

/-- The peer's FAILOVER for a link that is not UP here opens the tunnel of that link. -/
theorem takeFailover_opens {src pl : Nat} (hlink : linkOfPeer s src pl = some l) (hdown : portState s l ≠ 4) (seq : Nat) :
    takeFailover s src pl seq = openTunnel s l seq := by
  simp only [takeFailover, hlink, if_neg hdown]

/-! ### Bodies of a tunnel (R358) -/

@[simp] theorem portAt_modPort (s : State) (l : Nat) (f : Port → Port) : portAt (modPort s l f) l = f (portAt s l) :=
  tget_tmod_self _ _ _ _

/-- Two changes that agree on the port as it stands change it alike. -/
theorem modPort_congr {f g : Port → Port} (h : f (portAt s l) = g (portAt s l)) : modPort s l f = modPort s l g := by
  have htable : tmod Port.init s.fab.ports l f = tmod Port.init s.fab.ports l g := congrArg (tset Port.init s.fab.ports l) h
  simp only [modPort, htable]

/-- While the body whose turn it is has not come, none is accepted. -/
theorem acceptEarly_waits (h : (portAt s l).rxSeq ∉ (portAt s l).early) (n : Nat) : acceptEarly n s l = s := by
  cases n with
  | zero => rfl
  | succ n => simp only [acceptEarly, List.contains_iff_mem, if_neg h]

/-- The only body that has come is accepted in its turn. -/
theorem acceptEarly_turn (h : (portAt s l).early = [(portAt s l).rxSeq]) :
    acceptEarly 1 s l = count (modPort s l fun p => { p with rxSeq := (p.rxSeq + 1) % 65536, early := [] }) (linkBase l) 1 1 := by
  have hport : modPort s l (fun p => { p with rxSeq := (p.rxSeq + 1) % 65536, early := p.early.filter (· ≠ p.rxSeq) }) =
      modPort s l fun p => { p with rxSeq := (p.rxSeq + 1) % 65536, early := [] } := modPort_congr (by simp [h])
  simp only [acceptEarly, h, List.contains_cons, beq_self_eq_true, Bool.true_or, if_true, hport]

/-- A body within the half of the numbers that is to come is kept, when none is kept yet, and what is in turn is accepted. -/
theorem takeTunnel_kept {seq : Nat} (hnear : (seq + 65536 - (portAt s l).rxSeq) % 65536 < 32768) (hearly : (portAt s l).early = []) :
    takeTunnel s l seq = acceptEarly 1 (modPort s l fun p => { p with early := [seq] }) l := by
  have hkept : modPort s l (fun p => { p with early := sadd p.early seq }) = modPort s l fun p => { p with early := [seq] } :=
    modPort_congr (by simp only [hearly, sadd])
  simp only [takeTunnel, if_pos hnear, hkept, portAt_modPort, List.length_singleton]

/-- The body that is next in sequence is taken. -/
theorem takeTunnel_next {seq : Nat} (hturn : seq = (portAt s l).rxSeq) (hearly : (portAt s l).early = []) :
    takeTunnel s l seq = count (modPort (modPort s l fun p => { p with early := [seq] }) l fun p =>
      { p with rxSeq := (p.rxSeq + 1) % 65536, early := [] }) (linkBase l) 1 1 := by
  have hnear : (seq + 65536 - (portAt s l).rxSeq) % 65536 < 32768 := by omega
  rw [takeTunnel_kept hnear hearly]
  exact acceptEarly_turn (by rw [portAt_modPort, hturn])

/-- A body ahead of its turn is kept. -/
theorem takeTunnel_ahead {seq : Nat} (hturn : seq ≠ (portAt s l).rxSeq)
    (hnear : (seq + 65536 - (portAt s l).rxSeq) % 65536 < 32768) (hearly : (portAt s l).early = []) :
    takeTunnel s l seq = modPort s l fun p => { p with early := [seq] } := by
  rw [takeTunnel_kept hnear hearly]
  exact acceptEarly_waits (by simpa only [portAt_modPort, List.mem_singleton] using hturn.symm) 1

/-- A body that has been received is dropped. -/
theorem takeTunnel_received {seq : Nat} (hpast : 32768 ≤ (seq + 65536 - (portAt s l).rxSeq) % 65536) : takeTunnel s l seq = s := by
  simp only [takeTunnel, if_neg (Nat.not_lt.2 hpast)]

end Sys2Proof.Machine

open Sys2Proof Sys2Proof.Machine

/-- Settles O25: each row's conditions lead it to the branch that its clause spells out; the port's own changes in turn give the three
cases of a tunnelled body. -/
theorem fabricControl : Obligations.FabricControl := by
  unfold Obligations.FabricControl
  refine ⟨?ident, ?exchange, ?time, ?unlock, ?barrier, ?capAgain, ?cap, ?failover, ?tunnel, ?via⟩
  case ident =>
    intro link m received s l o a b c d e hstate hecho
    exact congrArg finish (takeIdent_echoed hstate hecho received)
  case exchange =>
    intro s l hparent
    show execTimeExchange s = _
    simp only [execTimeExchange, hparent]
    rfl
  case time =>
    intro link t1 t2 t3 t4 s l hen hlive
    have hlive : linkLive s link.toNat = true := hlive
    refine ⟨?_, fun hparent => ?_⟩
    · show execTime link false t1 t2 t3 t4 s = _
      simp only [execTime, hen, hlive, Bool.not_true, Bool.not_false, Bool.or_self, Bool.false_eq_true, if_false, if_true]
      rfl
    · have hparent : parentLink s = some link.toNat := hparent
      show execTime link true t1 t2 t3 t4 s = _
      simp only [execTime, hen, hlive, hparent, Bool.not_true, Bool.or_self, Bool.false_eq_true, if_false, if_true]
      rfl
  case unlock =>
    intro s l hparent hlate hlocked u
    have hlost : (parentLink s).isSome = true ∧ s.fab.lastTime + 10000000 ≤ s.now := ⟨Option.isSome_of_eq_some hparent, hlate⟩
    exact congrArg finish ((if_pos hlost).trans (unlockTime_locked hlocked))
  case barrier =>
    intro m s inst step harrives hphase
    exact ⟨fun hpart => congrArg finish ((routed_here harrives _ _).trans ((if_pos hpart).trans (takeBarrier_member hphase))),
      fun hapart => congrArg finish ((routed_here harrives _ _).trans (if_neg (Bool.eq_false_iff.1 hapart)))⟩
  case capAgain =>
    intro m s harrives hcopy
    exact congrArg finish ((routed_here harrives _ _).trans (if_pos hcopy))
  case cap =>
    intro m s harrives hnew hphase v d u h
    exact congrArg finish ((routed_here harrives _ _).trans ((if_neg (Bool.eq_false_iff.1 hnew)).trans (takeCap_member hphase)))
  case failover =>
    intro m s l harrives hid hlink hdown
    exact congrArg finish ((routed_here harrives _ _).trans ((viaOnward_here hid _ _ _).trans (takeFailover_opens hlink hdown _)))
  case tunnel =>
    intro m vc s l seq ahead harrives hid
    have hexec : exec (.tunnel vc m) s = finish (takeTunnel s l seq) :=
      (exec_tunnel_arrives harrives vc).trans (congrArg finish (viaOnward_here hid _ _ _))
    exact ⟨fun hturn hearly => hexec.trans (congrArg finish (takeTunnel_next hturn hearly)),
      fun hturn hnear hearly => hexec.trans (congrArg finish (takeTunnel_ahead hturn hnear hearly)),
      fun hpast => hexec.trans (congrArg finish (takeTunnel_received hpast))⟩
  case via =>
    intro m vc s l harrives hnone hother hroute hhop h
    have hen : fabEnabled s = true := harrives.1
    exact ⟨congrArg finish ((routed_here harrives _ _).trans (viaOnward_sends hen hnone hother hroute hhop _ _ _)),
      (exec_tunnel_arrives harrives vc).trans (congrArg finish (viaOnward_sends hen hnone hother hroute hhop _ _ _))⟩

end

/-! ## O26: links that fail, spare lanes, retraining and flits (R333 to R337, R358, R361, R463) -/

section

namespace Sys2Proof.Machine

variable {s : State} {l : Nat}

/-! ### Failure (R336, R358, R359) -/

/-- The state once the failure of link l has been counted and reported, and its FAILOVER sent. -/
def State.linkFailed (s : State) (l cause : Nat) : State :=
  let a := modPort (setPortState s l 5) l fun p => { p with failedAt := s.now, failed := true, switched := false }
  sendFailover (tunnelsCut (notice (count a (linkBase l) 6 1) 0x0402 1 l (l / 4) cause)) l

/-- An UP link that fails has its routes switched at once while no plan runs, and otherwise at the next commit. -/
theorem failLink_up {cause : Nat} (hup : portState s l = 4) :
    failLink s l cause = fabShow (if (s.linkFailed l cause).run.isNone then switchLink (s.linkFailed l cause) l
      else { s.linkFailed l cause with
        fab := { (s.linkFailed l cause).fab with toSwitch := sadd (s.linkFailed l cause).fab.toSwitch l } }) :=
  if_neg (not_not.2 hup)

/-- While no plan runs its routes switch at once. -/
theorem failLink_switches {cause : Nat} {b : State} (hup : portState s l = 4) (hb : s.linkFailed l cause = b) (hrun : b.run = none) :
    failLink s l cause = fabShow (switchLink b l) := by
  subst hb
  exact (failLink_up hup).trans (congrArg fabShow (if_pos (Option.isNone_iff_eq_none.2 hrun)))

/-- While a plan runs they switch at the next commit. -/
theorem failLink_defers {cause : Nat} {b : State} {r : Run} (hup : portState s l = 4) (hb : s.linkFailed l cause = b)
    (hrun : b.run = some r) :
    failLink s l cause = fabShow { b with fab := { b.fab with toSwitch := sadd b.fab.toSwitch l } } := by
  subst hb
  have hsome : ¬ (s.linkFailed l cause).run.isNone = true := by rw [hrun]; exact Bool.false_ne_true
  exact (failLink_up hup).trans (congrArg fabShow (if_neg hsome))

/-- A failure with a cause that is due fails the link; silence is due after 200 ns. -/
theorem exec_linkFailure {link : BitVec 6} {cause : BitVec 3} (hlo : 1 ≤ cause.toNat) (hhi : cause.toNat ≤ 4)
    (hsilent : cause = 3 → (portAt s link.toNat).validAt + 200 ≤ s.now) :
    exec (.linkFailure link cause) s = .next (settle (failLink s link.toNat cause.toNat)) := by
  have hdue : ¬ (cause = 3 ∧ s.now < (portAt s link.toNat).validAt + 200) := fun h => Nat.not_lt.2 (hsilent h.1) h.2
  have hshape : (decide (1 ≤ cause.toNat) && decide (cause.toNat ≤ 4)) = true := by
    rw [decide_eq_true hlo, decide_eq_true hhi]
    rfl
  exact (shaped_true hshape).trans (congrArg finish (if_neg hdue))

/-! ### Lanes and training (R337, R361, R463) -/

/-- A link whose spare lane is free takes it, and asks its peer with the next data flit. -/
theorem askSpare_free {lane : Nat} (hup : portState s l = 4) (hfree : fbit s (linkBase l) 24 = false) :
    askSpare s l lane =
      modPort (laneSpared (modPort s l fun p => { p with fecMs := tset 0 p.fecMs lane 0 }) l lane) l fun p => { p with toAsk := some lane } := by
  simp only [askSpare, spareLane, hup, hfree, ne_eq, not_true_eq_false, decide_true, Bool.not_false, Bool.and_self, Bool.false_eq_true,
    if_false, if_true]

/-- Training begins a second or more after the failure. -/
theorem trainBegin_due (hdown : portState s l = 5 ∨ portState s l = 1) (hdue : (portAt s l).failedAt + 1000000000 ≤ s.now) :
    trainBegin s l = modPort (setPortState s l 2) l fun p => { p with failedAt := s.now } := by
  simp only [trainBegin, if_pos (And.intro hdown hdue)]

/-- The registers of a link show the lanes that have locked, none of them replaced. -/
def State.lanesShown (s : State) (l lanes : Nat) : State :=
  fset (fset (fset s (linkBase l) 16 8 lanes) (linkBase l) 24 24 0) (linkBase l) 23 20 0

/-- Training ends. -/
theorem exec_linkRetrain_ends {link : BitVec 6} {lanes : BitVec 9} (htraining : portState s link.toNat = 2) :
    exec (.linkRetrain link (some lanes)) s = .next (settle (trained s link.toNat lanes.toNat)) :=
  congrArg finish (if_pos htraining)

/-- With fewer than eight lanes the link is DOWN. -/
theorem trained_down {lanes : Nat} (hfew : ((List.range 9).filter fun i => lanes.testBit i).length < 8) :
    trained s l lanes = setPortState (s.lanesShown l lanes) l 1 :=
  if_pos hfew

/-- With lanes 0 to 7 it enters IDENT. -/
theorem trained_first {lanes : Nat} (henough : 8 ≤ ((List.range 9).filter fun i => lanes.testBit i).length)
    (hall : (List.range 8).find? (fun i => !lanes.testBit i) = none) :
    trained s l lanes = enterIdent (s.lanesShown l lanes) l := by
  simp only [trained, if_neg (Nat.not_lt.2 henough), hall]
  rfl

/-- With one of them missing, lane 8 takes its place first. -/
theorem trained_spared {lanes i : Nat} (henough : 8 ≤ ((List.range 9).filter fun i => lanes.testBit i).length)
    (hmissing : (List.range 8).find? (fun i => !lanes.testBit i) = some i) :
    trained s l lanes = modPort (enterIdent (laneSpared (s.lanesShown l lanes) l i) l) l fun p => { p with spareAt := some (i, 0) } := by
  simp only [trained, if_neg (Nat.not_lt.2 henough), hmissing]
  rfl

/-! ### Flits (R333 to R336) -/

/-- A flit of nine lanes is taken. -/
theorem exec_flit {link : BitVec 6} {lanes : List (List (BitVec 2))} (hlanes : lanes.length = 9) :
    exec (.flit link lanes) s = .next (settle (takeFlit s link.toNat lanes)) :=
  shaped_true (decide_eq_true hlanes)

section

variable {lanes : List (List (BitVec 2))} {r : List Byte × List (Option Nat)} {f : Flit} {a : State}

/-- A port that is UP or in IDENT, and that does not fail for its corrections, takes a flit with a good CRC and a known kind. -/
theorem takeFlit_good (hr : fromLanes (sparedIn (portAt s l) (portAt s l).rxSeq) lanes = r) (hf : (flitOf r.1).1 = f)
    (ha : fecCount s l (r.2.map fun n => n.getD 0) = a) (hstate : portState s l = 4 ∨ portState s l = 3) (halive : portState a l ≠ 5)
    (hcrc : flitCrc (f.control ++ f.body) = (flitOf r.1).2) (hcontrol : r.1.take 16 = f.control) (hkind : f.kind ≤ 2) :
    takeFlit s l lanes = goodFlit a l f := by
  subst hr hf ha
  have hopen : ¬ (portState s l ≠ 4 ∧ portState s l ≠ 3) := by omega
  have hgood := not_or.2 ⟨not_not.2 hcrc, not_not.2 hcontrol⟩
  simp only [takeFlit, if_neg hopen, if_neg halive, if_neg hgood, if_neg (Nat.not_lt.2 hkind)]

/-- Such a port discards a flit that fails its CRC. -/
theorem takeFlit_bad (hr : fromLanes (sparedIn (portAt s l) (portAt s l).rxSeq) lanes = r) (hf : (flitOf r.1).1 = f)
    (ha : fecCount s l (r.2.map fun n => n.getD 0) = a) (hstate : portState s l = 4 ∨ portState s l = 3) (halive : portState a l ≠ 5)
    (hcrc : flitCrc (f.control ++ f.body) ≠ (flitOf r.1).2) : takeFlit s l lanes = badFlit a l f := by
  subst hr hf ha
  have hopen : ¬ (portState s l ≠ 4 ∧ portState s l ≠ 3) := by omega
  simp only [takeFlit, if_neg hopen, if_neg halive, if_pos (Or.inl hcrc : _ ∨ _)]

end

/-- The next data flit, without a spare request, is accepted and its credit is owed. -/
theorem takeData_next {f : Flit} (hseq : f.seq = (portAt s l).rxSeq) (hask : f.spareReq = false) :
    takeData s l f = count (oweCredit (modPort s l fun p => { p with rxSeq := (p.rxSeq + 1) % 65536, resent := false }) l f.vc f.hop)
      (linkBase l) 1 1 := by
  simp only [takeData, if_pos hseq, hask, Bool.false_eq_true, if_false]

/-- A good flit that carries the next data: acknowledgement and credits, the data, what waits, and the acknowledgement of the data. -/
theorem goodFlit_next {f : Flit} {b : State}
    (hb : takeCredits (modPort s l fun p => { p with validAt := s.now, retry := afterSeq p.retry f.ack }) l f.creds = b)
    (hkind : f.kind = 1) (hseq : f.seq = (portAt b l).rxSeq) (hnak : f.nak = false) :
    goodFlit s l f = emitFlit (pump (takeData b l f) l) l (bareFlit false) := by
  subst hb
  simp only [goodFlit, hkind, ← hseq, hnak, decide_true, Bool.and_self, Bool.false_eq_true, if_false, if_true]

/-- A flit that fails its CRC and is not the one resent is counted and naked. -/
theorem badFlit_naked {f : Flit} (hfirst : (portAt (count s (linkBase l) 3 1) l).resent = false) :
    badFlit s l f = sendNak (modPort (count s (linkBase l) 3 1) l fun p => { p with resent := true }) l := by
  simp only [badFlit, hfirst, Bool.false_eq_true, false_and, if_false]

/-- The one resent takes the link down. -/
theorem badFlit_again {f : Flit} (hagain : (portAt (count s (linkBase l) 3 1) l).resent = true) (hkind : f.kind = 1)
    (hseq : f.seq = (portAt (count s (linkBase l) 3 1) l).rxSeq) : badFlit s l f = failLink (count s (linkBase l) 3 1) l 1 := by
  simp only [badFlit, hagain, hkind, ← hseq, and_self, if_true]

end Sys2Proof.Machine

open Sys2Proof Sys2Proof.Machine

/-- Settles O26: each row's conditions lead it to the branch that its clause spells out. -/
theorem fabricLinks : Obligations.FabricLinks := by
  unfold Obligations.FabricLinks
  refine ⟨?failure, ?spare, ?begins, ?ends, ?flit⟩
  case failure =>
    intro link cause s l a b hlo hhi hup hsilent
    have hexec := exec_linkFailure hlo hhi hsilent
    exact ⟨fun hrun => hexec.trans (congrArg finish (failLink_switches hup rfl hrun)),
      fun r hrun => hexec.trans (congrArg finish (failLink_defers hup rfl hrun))⟩
  case spare =>
    intro link lane s l o a b c hup hfree
    exact congrArg finish (askSpare_free hup hfree)
  case begins =>
    intro link s l hdown hdue
    exact congrArg finish (trainBegin_due hdown hdue)
  case ends =>
    intro link lanes s l o miss n b htraining
    have hexec : exec (.linkRetrain link (some lanes)) s = .next (settle (trained s l lanes.toNat)) := exec_linkRetrain_ends htraining
    exact ⟨fun hfew => hexec.trans (congrArg finish (trained_down hfew)),
      fun henough hall => hexec.trans (congrArg finish (trained_first henough hall)),
      fun i henough hmissing => hexec.trans (congrArg finish (trained_spared henough hmissing))⟩
  case flit =>
    intro link lanes s l r f a b c d hlanes hstate halive
    have hexec : exec (.flit link lanes) s = .next (settle (takeFlit s l lanes)) := exec_flit hlanes
    refine ⟨fun hcrc hcontrol hkind hnak hask hseq => ?_, fun hcrc hfirst => ?_, fun hcrc hagain hkind hseq => ?_⟩
    · have hgood : takeFlit s l lanes = goodFlit a l f :=
        takeFlit_good rfl rfl rfl hstate halive hcrc hcontrol (hkind.trans_le (by decide))
      have hdata : takeData b l f = c := takeData_next hseq hask
      have hnext : goodFlit a l f = emitFlit (pump c l) l (bareFlit false) := hdata ▸ goodFlit_next rfl hkind hseq hnak
      exact hexec.trans (congrArg finish (hgood.trans hnext))
    · exact hexec.trans (congrArg finish ((takeFlit_bad rfl rfl rfl hstate halive hcrc).trans (badFlit_naked hfirst)))
    · exact hexec.trans (congrArg finish ((takeFlit_bad rfl rfl rfl hstate halive hcrc).trans (badFlit_again hagain hkind hseq)))

end

/-! ## O27: the operations of a collective engine (R368 to R370) -/

section

namespace Sys2Proof.Machine

variable {s : State} {t : Nat} {r : CollRun} {off n dtype : Nat} {o : CollOp}

/-- An operand of an operation that names this module, and whose bytes can be reached and are whole. -/
def CollHere (s : State) (o : CollOp) (x : Nat) : Prop :=
  isSelf s (x / 2 ^ 48) = true ∧ badAddr s Place.collOk (x % 2 ^ 48) o.len = none ∧ withheldFrom s 4096 (x % 2 ^ 48) o.len = false

/-- The row of the front operation's kind performs it when it is well formed. -/
theorem collRow_front {kind : Nat} (hfront : collFront s t = some (r, (off, n, dtype), o)) (hgood : collBad o dtype = false)
    (hkind : o.kind = kind) (f : State → CollRun → Nat → CollOp → State) : collRow s t kind f = f s r n o := by
  simp only [collRow, hfront, hgood, Bool.false_eq_true, if_false, if_pos hkind]

/-- COLL_PUT to this module writes the bytes and counts the tag of the tower that holds them. -/
theorem collPut_here (hsrc : CollHere s o o.b) (hdev : isSelf s (o.a / 2 ^ 48) = true)
    (hdst : badAddr s Place.collOk (o.a % 2 ^ 48) o.len = none) :
    collPut s t r n o = collNext (tagInc (memWrite (memRead s (o.b % 2 ^ 48) o.len).1 (o.a % 2 ^ 48)
      (memRead s (o.b % 2 ^ 48) o.len).2) (addrTower (o.a % 2 ^ 48)) o.tag) t n := by
  obtain ⟨hself, haddr, hwhole⟩ := hsrc
  simp only [collPut, hself, haddr, hwhole, hdev, hdst, Bool.not_true, Bool.false_eq_true, if_false, if_true]

/-- COLL_PUT to another module sends the lines, and then the TAG. -/
theorem collPut_away {u : State} (hsrc : CollHere s o o.b) (hdev : isSelf s (o.a / 2 ^ 48) = false)
    (hlines : putLines t r o.a (o.len / 512 + 1) (memRead s (o.b % 2 ^ 48) o.len).1 0 (memRead s (o.b % 2 ^ 48) o.len).2 = some u) :
    collPut s t r n o = collNext ((inject u t mtTag { hdrTo (o.a / 2 ^ 48) (deviceId u) with
      srcTower := BitVec.ofNat 4 t, dstTower := BitVec.ofNat 4 (addrTower (o.a % 2 ^ 48)), addr := BitVec.ofNat 48 o.tag,
      step := BitVec.ofNat 32 (curStep u) } []).getD u) t n := by
  obtain ⟨hself, haddr, hwhole⟩ := hsrc
  simp only [collPut, hself, haddr, hwhole, hdev, hlines, Bool.not_true, Bool.false_eq_true, if_false]

/-- COLL_WAIT on a tag that has reached its count takes the count from it. -/
theorem collWait_reached (hcount : o.count ≤ tget 0 (collEng s t).tags o.tag) :
    collWait s t r n o = collNext (modColl s t fun e =>
      { e with tags := tput e.tags o.tag (tget 0 (collEng s t).tags o.tag - o.count) }) t n := by
  simp only [collWait, if_pos hcount]

/-- The operation on two operands here is performed on their addresses. -/
theorem collLocalOp_here (ha : CollHere s o o.a) (hb : CollHere s o o.b) (f : Nat → Nat → State) :
    collLocalOp s t r o f = f (o.a % 2 ^ 48) (o.b % 2 ^ 48) := by
  obtain ⟨haself, haaddr, hawhole⟩ := ha
  obtain ⟨hbself, hbaddr, hbwhole⟩ := hb
  simp only [collLocalOp, haself, hbself, haaddr, hbaddr, hawhole, hbwhole, Bool.not_true, Bool.or_self, Bool.false_eq_true, if_false]

/-- The dtype of the front operation is that of its list. -/
theorem collDtype_front (hfront : collFront s t = some (r, (off, n, dtype), o)) : collDtype s t = dtype := by
  simp only [collDtype, hfront, Option.map_some, Option.getD_some]

end Sys2Proof.Machine

open Sys2Proof Sys2Proof.Machine

/-- Settles O27: each row performs the operation in front, whose operands let it come to its end. -/
theorem collectives : Obligations.Collectives := by
  unfold Obligations.Collectives
  intro tower s r off n dtype o t a b local_ hfront hgood
  refine ⟨?here, ?away, ?wait, ?add, ?copy⟩
  case here =>
    intro hkind hsrc hdev hdst d
    exact congrArg finish ((collRow_front hfront hgood hkind _).trans (collPut_here hsrc hdev hdst))
  case away =>
    intro u hkind hsrc hdev d hlines h
    exact congrArg finish ((collRow_front hfront hgood hkind _).trans (collPut_away hsrc hdev hlines))
  case wait =>
    intro hkind hcount
    exact congrArg finish ((collRow_front hfront hgood hkind _).trans (collWait_reached hcount))
  case add =>
    intro hkind ha hb x y v
    have hrow : collRow s t 3 (fun s r n o => collAdd (collDtype s t) s t r n o) = collAdd dtype s t r n o := by
      rw [collRow_front hfront hgood hkind, collDtype_front hfront]
    exact congrArg finish (hrow.trans (collLocalOp_here ha hb _))
  case copy =>
    intro hkind ha hb x
    exact congrArg finish ((collRow_front hfront hgood hkind _).trans (collLocalOp_here ha hb _))

end

/-! ## O28: the guard, the caps, phases, converters, input stops and wakes (R376 to R400) -/

section

namespace Sys2Proof.Machine

/-- A row whose guard holds takes its effect. -/
theorem finish_of_guard {p : Prop} [Decidable p] (h : p) (a b : State) : finish (if p then a else b) = .next (settle a) :=
  congrArg finish (if_pos h)

/-- A protective source below 64 that has stayed within its release levels for 10 ms is released (R385). -/
theorem Prot.released_of {p : Prot} {now t : Nat} (hlimit : p.limit < 64) (hok : p.okSince = some t) (hdue : t + 10000000 ≤ now) :
    p.released now = true := by
  simp only [Prot.released, hok, decide_eq_true hlimit, decide_eq_true hdue, Bool.and_self]

/-! ### Phases, converters and the wake (R377 to R380, R400) -/

/-- A VLG phase that is not known as lost is recorded, shown, counted and reported, and limits its region. -/
theorem losePhase_region {s : State} {t ph : Nat} (hnew : s.pwr.phaseLost.contains (t * 64 + ph) = false) :
    let r := t * 16 + ph / 4
    let a := { s with pwr := { s.pwr with phaseLost := sadd s.pwr.phaseLost (t * 64 + ph) } }
    let b := count (fset a (regionReg r) (26 + ph % 4) (26 + ph % 4) 0) (pwtBase t) 2 1
    losePhase s t 0 ph = applyPhases (notice b 0x0201 1 (ph / 4) t (0 + ph * 2 ^ 4 + phaseLevel b r * 2 ^ 16)) [r] := by
  simp only [losePhase, if_true, hnew, Bool.false_eq_true, if_false, List.headD_cons]

/-- A phase of a domain of the tower that is not known as lost is recorded, counted and reported, and limits the tower's regions. -/
theorem losePhase_domain {s : State} {t d ph : Nat} (hd : d ≠ 0) (hnew : s.pwr.domLost.contains ((t * 4 + d) * 16 + ph) = false) :
    let b := count { s with pwr := { s.pwr with domLost := sadd s.pwr.domLost ((t * 4 + d) * 16 + ph) } } (pwtBase t) 2 1
    losePhase s t d ph = applyPhases (notice b 0x0201 1 0 t (d + ph * 2 ^ 4 + phaseLevel b (t * 16 + 0) * 2 ^ 16))
      ((List.range 16).map (t * 16 + ·)) := by
  simp only [losePhase, if_neg hd, hnew, Bool.false_eq_true, if_false]
  rfl

/-- A converter in service leaves it with a notice; with two or fewer left every region is off. -/
theorem exec_converterLoss {i : BitVec 3} {s : State} (hin : fbit s pwmBase (16 + i.toNat) = true) :
    let a := fset s pwmBase (16 + i.toNat) (16 + i.toNat) 0
    let n := notice a 0x1506 0 0xFFFF 0xFF (ibcOk a)
    exec (.converterLoss i) s = .next (settle (if ibcCount n ≤ 2 then regionsOff n allRegions else n)) := by
  intro a n
  refine congrArg finish (if_neg ?_)
  simp only [hin, Bool.not_true, Bool.false_eq_true, not_false_eq_true]

/-- A region that is waking is AWAKE once one of its RWAKEs has lasted its time. -/
theorem exec_regionWakeComplete {region : BitVec 8} {s : State} (hwaking : regionState s region.toNat = 1)
    (hdue : ∃ x ∈ s.pwr.staging, x.region = region.toNat ∧ x.until_ ≤ s.now) :
    exec (.regionWakeComplete region) s = .next (settle (wakeDone s region.toNat)) := by
  refine finish_of_guard ⟨hwaking, ?_⟩ _ s
  simpa only [List.any_eq_true, Bool.and_eq_true, decide_eq_true_eq] using hdue

end Sys2Proof.Machine

open Sys2Proof Sys2Proof.Machine

/-- Settles O28: each row is past its guard under the condition of its clause, and its effect is the one that the clause spells out. -/
theorem powerRows : Obligations.PowerRows := by
  unfold Obligations.PowerRows
  refine ⟨?guardStep, ?guardRelease, ?regionRelease, ?capNotice, ?follow, ?forced, ?regionPhase, ?domainPhase, ?converter, ?undervoltage, ?overvoltage,
    ?wake⟩
  case guardStep =>
    intro s g hlimit hhot hdue
    exact finish_of_guard ⟨hlimit, hhot, hdue⟩ _ s
  case guardRelease =>
    intro s t g hlimit hok hdue
    exact finish_of_guard (Prot.released_of hlimit hok hdue) _ s
  case regionRelease =>
    intro r s t p hlimit hok hdue
    exact finish_of_guard (Prot.released_of hlimit hok hdue) _ s
  case capNotice =>
    intro s hlimit hdue
    exact finish_of_guard ⟨hlimit, hdue⟩ _ s
  case follow =>
    intro origin s f hfound hdue
    simp only [exec, execFollowEntryExpiry, hfound]
    exact finish_of_guard hdue _ s
  case forced =>
    intro source s t i v hlow hdue
    simp only [exec, execPlannedReductionForced, i, v, hlow]
    exact finish_of_guard hdue _ s
  case regionPhase =>
    intro tower phase s t r a b hnew
    exact (shaped_true (n := "PHASE_LOSS") rfl).trans (congrArg finish (losePhase_region hnew))
  case domainPhase =>
    intro tower domain phase s t key b rs hlo hhi hphase hnew
    have hd : domain.toNat ≠ 0 := by omega
    have hshape : (domain.toNat = 0 || (domain.toNat < 4 && phase.toNat < 6) : Bool) = true := by simp; omega
    exact (shaped_true hshape).trans (congrArg finish (losePhase_domain hd hnew))
  case converter =>
    intro i s b a n hin
    refine ⟨fun hleft => ?_, fun hfew => ?_⟩
    · exact (exec_converterLoss hin).trans (congrArg finish (if_neg (Nat.not_le.2 hleft)))
    · exact (exec_converterLoss hin).trans (congrArg finish (if_pos hfew))
  case undervoltage =>
    intro s t hunder hdue
    simp only [exec, execUndervoltageStop, hunder]
    exact finish_of_guard hdue _ s
  case overvoltage =>
    intro s hover
    exact finish_of_guard hover _ s
  case wake => exact fun region s hwaking hdue => exec_regionWakeComplete hwaking hdue

end

/-! ## O29: a tick of the telemetry (R381, R382, R384, R388, R394) -/

section

namespace Sys2Proof.Machine

/-- The state that the governor leaves at a tick. -/
def telemetryState (input : List (BitVec 16 × BitVec 16)) (volts phases : List (BitVec 16)) (s : State) : State :=
  let v := sampleMean (input.map (·.1))
  let e := inputEnergy input
  govTick (guardTick (bandTick (domainTick (inputTick (pulpTick ((List.range 16).foldl jitterTick s)) v (sampleMean (input.map (·.2))) e)
    volts phases) v)) (f64OfFrac e 100000)

/-- A tick with a report of the right shape applies the planned values while no step runs, and else shows them. -/
theorem exec_telemetryTick {input : List (BitVec 16 × BitVec 16)} {volts phases : List (BitVec 16)} (s : State)
    (hinput : input.length = 10) (hvolts : volts.length = 64) (hphases : phases.length = 1312) :
    let g := telemetryState input volts phases s
    exec (.telemetryTick input volts phases) s = .next (settle (if noPlan g then protRise (applyPlanned g) else showPlanned g)) := by
  have hshape : (input.length = 10 && volts.length = 64 && phases.length = 1312 : Bool) = true := by
    simp only [hinput, hvolts, hphases, decide_true, Bool.and_self]
  exact shaped_true (n := "TELEMETRY_TICK") hshape

end Sys2Proof.Machine

open Sys2Proof Sys2Proof.Machine

/-- Settles O29: the clause writes out what `inputTick` and `domainTick` show, and the tick ends by whether a step runs. -/
theorem telemetryTick : Obligations.TelemetryTick := by
  unfold Obligations.TelemetryTick
  intro input volts phases s hinput hvolts hphases v i x z a w b c d e f m g
  have hg : g = telemetryState input volts phases s := rfl
  have htick := exec_telemetryTick s hinput hvolts hphases
  rw [← hg] at htick
  refine ⟨fun hidle => ?_, fun hrun => ?_⟩
  · exact htick.trans (congrArg finish (if_pos hidle))
  · exact htick.trans (congrArg finish (if_neg (Bool.eq_false_iff.1 hrun)))

end

/-! ## O30: samples, thermal limits, trips and the coolant (R395, R402 to R408) -/

section

namespace Sys2Proof.Machine

/-- A region that has stood at the trip level for 1 ms trips, unless it is off. -/
theorem exec_thermalTrip {region : BitVec 8} {s : State} {since v : Nat} (htrip : tget? s.pwr.tripSince region.toNat = some (since, v))
    (hdue : since + 1000000 ≤ s.now) (hon : regionState s region.toNat ≠ 3) :
    let r := region.toNat
    exec (.thermalTrip region) s = .next (settle (regionsOff (notice (count s (thmBase (r / 16)) 2 1) 0x0303 1 (v / 65536) (r / 16)
      (v % 65536 + r % 16 * 2 ^ 16)) [r])) := by
  simp only [exec, execThermalTrip, htrip]
  exact finish_of_guard ⟨hdue, hon⟩ _ s

/-- The first reading of an episode of derate raises a notice. -/
theorem exec_coolantRead (inlet outlet : Int) (flow : BitVec 16) (s : State) :
    let f := flow.toNat
    let d := coolantDerate inlet f
    let a := showPlanned (setWant (regPut s (pwmBase + 0x60) (BitVec.ofNat 64 (unsigned 16 inlet + unsigned 16 outlet * 2 ^ 16 + f * 2 ^ 32))) 3 d)
    let b := if d < 64 ∧ a.pwr.coolantEpisode = false then notice a 0x1503 0 0xFFFF 0xFF (coolantDetail inlet f d) else a
    exec (.coolantRead inlet outlet flow) s = .next (settle (coolantLimit { b with pwr := { b.pwr with
      coolantEpisode := d < 64, hotInletSince := if 450 < inlet then some (b.pwr.hotInletSince.getD b.now) else none } } inlet f d)) := by
  simp only [exec, execCoolantRead, Bool.not_eq_true', finish]

end Sys2Proof.Machine

open Sys2Proof Sys2Proof.Machine

/-- Settles O30: each row is past its guard under the condition of its clause. -/
theorem thermalRows : Obligations.ThermalRows := by
  unfold Obligations.ThermalRows
  refine ⟨?sample, ?emergencyStep, ?trip, ?coolant, ?shutdown⟩
  case sample =>
    intro tower readings s hlength t rd bad a new
    exact shaped_true (n := "SENSOR_SAMPLE") (decide_eq_true hlength)
  case emergencyStep =>
    intro region s p hlimit hhot hdue
    exact finish_of_guard ⟨hlimit, hhot, hdue⟩ _ s
  case trip => exact fun region s since v htrip hdue hon => exec_thermalTrip htrip hdue hon
  case coolant => exact exec_coolantRead
  case shutdown =>
    intro s t hhot hdue
    simp only [exec, execCoolantShutdown, hhot]
    exact finish_of_guard hdue _ s

end

/-! ## O31: diagnosis, hop retries, dead routers, warm resets and probes (R415, R430 to R438) -/

section

namespace Sys2Proof.Machine

/-! ### Diagnosis of a fenced core (R430) -/

/-- The state once the bad columns that diagnosis found are recorded, and arrays that grew narrower reported. -/
def columnsFound (s : State) (pk bad0 bad1 : Nat) : State :=
  let w := endGang (writeBadCols (writeBadCols s pk 0 bad0) pk 1 bad1) pk
  narrowNotice (narrowNotice w (repairState s pk 0) (repairState w pk 0)) (repairState s pk 1) (repairState w pk 1)

/-- A core may be a spare again: it passed, its arrays are usable, it was never fenced before and its router lives. -/
def spareAgain (a : State) (pk : Nat) (pass : Bool) : Bool :=
  pass && !armsBad a pk && !(coreOf a pk).fencedBefore && !a.stone.dead.contains pk

section
variable {s : State} {pk : Nat} {pass : Bool} {bad0 bad1 : Nat} (hfenced : coreState s pk = csFenced)
include hfenced

/-- Diagnosis of a FENCED core ends with what it found, the core's new state and the notice. -/
theorem diagnose_fenced :
    let b := modCore (columnsFound s pk bad0 bad1) pk fun c => { c with fencedBefore := true }
    let good := spareAgain (columnsFound s pk bad0 bad1) pk pass
    diagnose s pk pass bad0 bad1 = notice (if good then setCoreState b pk csSpare else recordRetired (setCoreState b pk csRetired) 0 pk)
      0x1019 1 (pk % 272) (pk / 272) (b2n good) :=
  if_neg (not_not.2 hfenced)

/-- A core that may be a spare again becomes one. -/
theorem diagnose_spare (hgood : spareAgain (columnsFound s pk bad0 bad1) pk pass = true) :
    diagnose s pk pass bad0 bad1 = notice (setCoreState (modCore (columnsFound s pk bad0 bad1) pk fun c => { c with fencedBefore := true })
      pk csSpare) 0x1019 1 (pk % 272) (pk / 272) 1 := by
  rw [diagnose_fenced hfenced, hgood, if_pos rfl, b2n, if_pos rfl]

/-- Any other is retired. -/
theorem diagnose_retired (hgood : spareAgain (columnsFound s pk bad0 bad1) pk pass = false) :
    diagnose s pk pass bad0 bad1 = notice (recordRetired (setCoreState (modCore (columnsFound s pk bad0 bad1) pk
      fun c => { c with fencedBefore := true }) pk csRetired) 0 pk) 0x1019 1 (pk % 272) (pk / 272) 0 := by
  rw [diagnose_fenced hfenced, hgood, if_neg Bool.false_ne_true, b2n, if_neg Bool.false_ne_true]

end

/-! ### Flits on a hop, and dead routers (R415, R431, R432) -/

/-- Tower and place of a unit from its index. -/
theorem unit_div {t i : Nat} (h : i < 272) : (t * 272 + i) / 272 = t := by omega

section
variable {s : State} {u hop a b : Nat} {flit : List (BitVec 9)}

/-- A bypassed router checks nothing. -/
theorem hopArrives_bypassed (hbypass : (netOf s u).bypass = true) : hopArrives s u hop a b flit = s := by
  simp only [hopArrives, hbypass, if_true]

variable (hlive : (netOf s u).bypass = false)
include hlive

/-- A flit whose bytes all pass their check clears the failures of its hop buffer. -/
theorem hopArrives_good (hgood : flit.all parityOk = true) :
    hopArrives s u hop a b flit = modNet s u fun n => n.setFails hop (routeClass s a b) 0 := by
  simp only [hopArrives, hlive, hgood, Bool.false_eq_true, if_false, if_true]

variable (hbad : flit.all parityOk = false)
include hbad

/-- A bad flit is resent up to three times, and each time counts. -/
theorem hopArrives_resent (hfew : (netOf s u).fails hop (routeClass s a b) < 3) :
    hopArrives s u hop a b flit = count (modNet s u fun n => n.setFails hop (routeClass s a b)
      ((netOf s u).fails hop (routeClass s a b) + 1)) (nocBase (u / 272)) 1 1 := by
  simp only [hopArrives, hlive, hbad, if_pos hfew, Bool.false_eq_true, if_false]
  rfl

/-- The fourth failure starts the loopback test. -/
theorem hopArrives_tested (hmany : 3 ≤ (netOf s u).fails hop (routeClass s a b)) :
    hopArrives s u hop a b flit = emit s (.probe 2 u) := by
  simp only [hopArrives, hlive, hbad, if_neg (Nat.not_lt.2 hmany), Bool.false_eq_true, if_false]

end

/-- A flit is good when every byte agrees with its parity bit. -/
theorem all_parityOk_iff {flit : List (BitVec 9)} :
    flit.all parityOk = true ↔ ∀ b ∈ flit, parityBit (BitVec.ofNat 8 b.toNat) = b.getLsbD 8 := by
  simp only [List.all_eq_true, parityOk_iff]

/-- HOP_RETRY of a hop and a route that exist brings the flit to its router. -/
theorem exec_hopRetry {tower : BitVec 4} {router src dst : BitVec 9} {hop : BitVec 3} (flit : List (BitVec 9)) (s : State)
    (hrouter : router.toNat < 272) (hsrc : src.toNat < 272) (hdst : dst.toNat < 272) (hhop : hop.toNat < 6) :
    exec (.hopRetry tower router hop src dst flit) s = .next (settle (hopArrives s (tower.toNat * 272 + router.toNat) hop.toNat
      (tower.toNat * 272 + src.toNat) (tower.toNat * 272 + dst.toNat) flit)) :=
  shaped_true (n := "HOP_RETRY") (decide_eq_true ⟨hrouter, hsrc, hdst, hhop⟩)

/-- The state in which a router has left service: the plan is stopped, and the routes that turned at the router go around it. -/
def routerOut (s : State) (u : Nat) : State :=
  let a := stopPlan s stStepFailed 0
  turnAround (modNet { a with stone := { a.stone with dead := sadd a.stone.dead u } } u fun n => { n with bypass := true, failed := [] }) u

/-- A live router with no dead one across it leaves service, with its ACTIVE core and its column. -/
theorem routerDead_alone {s : State} {u : Nat} (atBringUp : Bool) (hnew : s.stone.dead.contains u = false)
    (hactive : coreState (routerOut s u) u = csActive) (hcross : crossDead (stopPlan s stStepFailed 0) u = false) :
    let c := leaveColumn (fenceAndSpare (routerOut s u) u) u
    routerDead s u atBringUp = notice c 0x0801 1 (u % 272) (u / 272)
      (b2n atBringUp + 2 * b2n (regionState c (u / 272 * 16 + routerRow u) = 3)) := by
  have hout : (if coreState (routerOut s u) u = csActive ∨ coreState (routerOut s u) u = csSpare then fenceAndSpare (routerOut s u) u
      else routerOut s u) = fenceAndSpare (routerOut s u) u := if_pos (.inl hactive)
  unfold routerOut at hout ⊢
  simp only [routerDead, hnew, hout, hcross, Bool.false_eq_true, if_false]

/-! ### Warm resets and probes (R433, R434, R438) -/

/-- A tower in service is held, with its writes settled at the hold edge. -/
theorem warmReset_begins {s : State} {t : Nat} (cause : Nat) (hserving : inReset s t = false) :
    let a := fresh s
    let b := { a with boot := { a.boot with resets := a.boot.resets ++ [(t, cause, a.now, Config.freeChoice s.free 250001 % 250001)] } }
    warmReset s t cause = fset (settleBeats (downPorts (stopPlan b stStepFailed 0) t) t) (stnBase + 0x3000) (16 + t) (16 + t) 1 :=
  if_neg (Bool.eq_false_iff.1 hserving)

/-- An ACTIVE core, not under quarantine, that does not answer is fenced. -/
theorem probeCore_silent {s : State} {pk : Nat} {a : Identity} (kind idx : Nat) (hquar : quarTries s 0 pk = none)
    (hactive : coreState s pk = csActive) (hsilent : a.answered = false) : probeCore s kind idx pk a = fenceAndSpare s pk := by
  simp only [probeCore, hquar, hactive, hsilent, if_true, Bool.not_false]

/-- An ACTIVE column, not under quarantine, whose answer differs from the record is quarantined. -/
theorem probeCol_differs {s : State} {ch : Nat} {a : Identity} (kind idx : Nat) (hquar : quarTries s 1 ch = none)
    (hactive : colState s ch = 1) (hdiffers : answerOk s ch (logicalCol s ch) 1 a = false) :
    probeCol s kind idx ch a = quarNotice (setQuar (setColState s ch 4) 1 ch (some 0)) kind (ch / 272) idx 1 a.state.toNat := by
  have hcol : quarCol s ch = setQuar (setColState s ch 4) 1 ch (some 0) := if_neg (by omega)
  simp only [probeCol, hquar, hactive, hdiffers, hcol, if_true, Bool.false_eq_true, if_false]

end Sys2Proof.Machine

open Sys2Proof Sys2Proof.Machine

/-- Settles O31: under the condition of its clause each row is past its guards, and what it does is what the clause says. -/
theorem integrityRows : Obligations.IntegrityRows := by
  unfold Obligations.IntegrityRows
  refine ⟨?diagnosis, ?hop, ?router, ?reset, ?probe⟩
  case diagnosis =>
    intro tower core pass bad0 bad1 s pk w a good b hcore hfenced
    have hrow : exec (.coreDiagnosis tower core pass bad0 bad1) s = .next (settle (diagnose s pk pass bad0.toNat bad1.toNat)) :=
      shaped_true (n := "CORE_DIAGNOSIS") (decide_eq_true hcore)
    have ha : a = columnsFound s pk bad0.toNat bad1.toNat := rfl
    have hg : good = spareAgain a pk pass := rfl
    rw [ha] at hg
    exact ⟨fun hgood => hrow.trans (congrArg finish (diagnose_spare hfenced (hg ▸ hgood))),
      fun hgood => hrow.trans (congrArg finish (diagnose_retired hfenced (hg ▸ hgood)))⟩
  case hop =>
    intro tower router hop src dst flit s u k f good hrouter hsrc hdst hhop
    have hrow := exec_hopRetry flit s hrouter hsrc hdst hhop (tower := tower)
    refine ⟨fun hbypass => ?_, fun hlive hgood => ?_, fun hlive hbad hfew => ?_, fun hlive hbad hmany => ?_⟩
    · exact hrow.trans (congrArg finish (hopArrives_bypassed hbypass))
    · exact hrow.trans (congrArg finish (hopArrives_good hlive (all_parityOk_iff.2 hgood)))
    · rw [hrow, hopArrives_resent hlive (Bool.eq_false_iff.2 (mt all_parityOk_iff.1 hbad)) hfew, unit_div hrouter]
    · exact hrow.trans (congrArg finish (hopArrives_tested hlive (Bool.eq_false_iff.2 (mt all_parityOk_iff.1 hbad)) hmany))
  case router =>
    intro tower router atBringUp s u a b n c hrouter hnew hactive hcross
    exact (shaped_true (n := "ROUTER_DEAD") (decide_eq_true hrouter)).trans
      (congrArg finish (routerDead_alone atBringUp hnew hactive hcross))
  case reset =>
    intro tower s t begun hserving
    exact ⟨congrArg finish (warmReset_begins 1 hserving), congrArg finish (warmReset_begins 2 hserving),
      congrArg finish (warmReset_begins 3 hserving)⟩
  case probe =>
    intro u answer s x hidx
    refine ⟨fun hkind hquar hactive hsilent => ?_, fun hkind hquar hactive hdiffers => ?_⟩
    all_goals
      have hrow : exec (.stateProbe u answer) s = .next (settle (probe s u.kind.toNat u.tower.toNat u.idx answer)) :=
        shaped_true (n := "STATE_PROBE") (decide_eq_true (by rw [hkind]; exact hidx))
      rw [hkind] at hrow
    · exact hrow.trans (congrArg finish (probeCore_silent 0 u.idx hquar hactive hsilent))
    · rw [hrow, show (x / 272 : Nat) = u.tower.toNat from unit_div hidx]
      exact (congrArg finish (probeCol_differs 1 u.idx hquar hactive hdiffers)).trans (by rw [unit_div hidx]; rfl)

end

/-! ## O51: the SEC-DED code (R413, R414) -/

section

namespace Sys2Proof.Machine

/-! ### The check bits -/

/-- One step of the check bits: the column of data bit i joins when the bit is 1. -/
def checkStep (b : Byte) (acc i : Nat) : Nat := if b.getLsbD i then acc ^^^ secdedCols.getD i 0 else acc

theorem checkBits_eq (b : Byte) : checkBits b = (List.range 8).foldl (checkStep b) 0 := rfl

/-- A check bit is the parity of the data bits whose columns have it. -/
theorem testBit_foldl_checkStep (b : Byte) (k : Nat) (l : List Nat) (acc : Nat) :
    (l.foldl (checkStep b) acc).testBit k = l.foldl (fun p i => p ^^ (b.getLsbD i && (secdedCols.getD i 0).testBit k)) (acc.testBit k) := by
  induction l generalizing acc with
  | nil => rfl
  | cons i l ih =>
    rw [List.foldl_cons, List.foldl_cons, ih, checkStep]
    cases b.getLsbD i with
    | false => rw [if_neg Bool.false_ne_true, Bool.false_and, Bool.xor_false]
    | true => rw [if_pos rfl, Nat.testBit_xor, Bool.true_and]

/-- The columns spelled out for one row. -/
theorem testBit_checkBits (b : Byte) (k : Nat) :
    (checkBits b).testBit k = (List.range 8).foldl (fun p i => p ^^ (b.getLsbD i && (secdedCols.getD i 0).testBit k)) false := by
  rw [checkBits_eq, testBit_foldl_checkStep, Nat.zero_testBit]

/-- No column has a bit above the fifth. -/
theorem secdedCols_lt (i : Nat) : secdedCols.getD i 0 < 2 ^ 5 := by
  rw [List.getD_eq_getElem?_getD]
  cases h : secdedCols[i]? with
  | none => decide
  | some c => exact (by decide : ∀ c ∈ secdedCols, c < 2 ^ 5) c (List.mem_of_getElem? h)

theorem foldl_checkStep_lt (b : Byte) (l : List Nat) {acc : Nat} (h : acc < 2 ^ 5) : l.foldl (checkStep b) acc < 2 ^ 5 := by
  induction l generalizing acc with
  | nil => exact h
  | cons i l ih =>
    refine ih ?_
    unfold checkStep
    split
    · exact Nat.xor_lt_two_pow h (secdedCols_lt i)
    · exact h

/-- A column that joins both sums joins their sum twice, which leaves it out. -/
theorem checkStep_xor (a b : Byte) (x y i : Nat) : checkStep (a ^^^ b) (x ^^^ y) i = checkStep a x i ^^^ checkStep b y i := by
  have hboth : x ^^^ y = (x ^^^ secdedCols.getD i 0) ^^^ (y ^^^ secdedCols.getD i 0) := by
    rw [Nat.xor_comm y, Nat.xor_assoc, ← Nat.xor_assoc _ _ y, Nat.xor_self, Nat.zero_xor]
  unfold checkStep
  rw [BitVec.getLsbD_xor]
  cases a.getLsbD i <;> cases b.getLsbD i
  · rfl
  · exact Nat.xor_assoc _ _ _
  · exact Nat.xor_right_comm _ _ _
  · exact hboth

/-- The code is linear, column by column. -/
theorem foldl_checkStep_xor (a b : Byte) (l : List Nat) (x y : Nat) :
    l.foldl (checkStep (a ^^^ b)) (x ^^^ y) = l.foldl (checkStep a) x ^^^ l.foldl (checkStep b) y := by
  induction l generalizing x y with
  | nil => rfl
  | cons i l ih => rw [List.foldl_cons, List.foldl_cons, List.foldl_cons, checkStep_xor, ih]

/-! ### Decoding: every column has odd weight, so the sum of two is no column -/

/-- The column of bit i of a code word, as a syndrome. -/
def codeColumn (i : Nat) : BitVec 5 := BitVec.ofNat 5 (secdedCols.getD i 0)

/-- A syndrome has an odd number of bits. -/
def oddWeight (y : BitVec 5) : Bool := y.getLsbD 0 ^^ y.getLsbD 1 ^^ y.getLsbD 2 ^^ y.getLsbD 3 ^^ y.getLsbD 4

theorem oddWeight_xor (x y : BitVec 5) : oddWeight (x ^^^ y) = (oddWeight x ^^ oddWeight y) := by
  simp only [oddWeight, BitVec.getLsbD_xor, Bool.xor_assoc, Bool.xor_left_comm]

theorem oddWeight_codeColumn : ∀ i < 13, oddWeight (codeColumn i) = true := by decide
theorem codeColumn_injective : ∀ i < 13, ∀ j < 13, codeColumn i = codeColumn j → i = j := by decide
theorem codeColumn_ne_poison : ∀ i < 13, codeColumn i ≠ poisonSyn := by decide

/-- A syndrome of even weight other than 0 is that of an uncorrectable byte. -/
theorem decodeByte_even {y : BitVec 5} (b : Byte) (hzero : y ≠ 0) (heven : oddWeight y = false) : decodeByte b y = .bad := by
  have hpoison : y ≠ 31 := by rintro rfl; exact absurd heven (by decide)
  have hnone : secdedCols.findIdx? (· = y.toNat) = none := by
    rw [List.findIdx?_eq_none_iff]
    intro c hc
    refine decide_eq_false ?_
    rintro rfl
    have hodd : ∀ c ∈ secdedCols, oddWeight (BitVec.ofNat 5 c) = true := by decide
    have := hodd _ hc
    rw [BitVec.ofNat_toNat, BitVec.setWidth_eq, heven] at this
    exact Bool.false_ne_true this
  simp only [decodeByte, if_neg hzero, if_neg hpoison, hnone]

/-- The syndrome of one inverted bit names the bit. -/
theorem decodeByte_codeColumn {i : Nat} (hi : i < 13) (b : Byte) :
    decodeByte b (codeColumn i) = .corrected (if i < 8 then b ^^^ BitVec.ofNat 8 (2 ^ i) else b) := by
  have hzero : codeColumn i ≠ 0 := (by decide : ∀ i < 13, codeColumn i ≠ 0) i hi
  have hfind : secdedCols.findIdx? (· = (codeColumn i).toNat) = some i :=
    (by decide : ∀ i < 13, secdedCols.findIdx? (· = (codeColumn i).toNat) = some i) i hi
  simp only [decodeByte, if_neg hzero, if_neg (show codeColumn i ≠ 31 from codeColumn_ne_poison i hi), hfind]
  split <;> rfl

/-- An inverted bit adds its column to the syndrome. -/
theorem flipBit_syndrome (b : Byte) (y : BitVec 5) (i : Nat) : (flipBit b y i).2 = y ^^^ codeColumn i := rfl
theorem flipBit_syndrome_zero (b : Byte) (i : Nat) : (flipBit b 0 i).2 = codeColumn i := BitVec.zero_xor

theorem xor_ne_zero {x y : BitVec 5} (h : x ≠ y) : x ^^^ y ≠ 0 := mt BitVec.xor_eq_zero_iff.1 h

section
variable (b : Byte) {i : Nat} (hi : i < 13)
include hi

/-- One inverted bit is corrected. -/
theorem decodeByte_flip : decodeByte (flipBit b 0 i).1 (flipBit b 0 i).2 = .corrected b := by
  rw [flipBit_syndrome_zero, decodeByte_codeColumn hi, flipBit]
  split
  · rw [BitVec.xor_assoc, BitVec.xor_self, BitVec.xor_zero]
  · rfl

/-- Poison with one inverted bit is uncorrectable. -/
theorem decodeByte_flip_poison : decodeByte (flipBit b poisonSyn i).1 (flipBit b poisonSyn i).2 = .bad := by
  refine decodeByte_even _ (xor_ne_zero (codeColumn_ne_poison i hi).symm) ?_
  rw [flipBit_syndrome, oddWeight_xor, oddWeight_codeColumn i hi]
  rfl

/-- Two inverted bits are uncorrectable. -/
theorem decodeByte_flip_two {j : Nat} (hj : j < 13) (hne : j ≠ i) :
    decodeByte (flipBit (flipBit b 0 i).1 (flipBit b 0 i).2 j).1 (flipBit (flipBit b 0 i).1 (flipBit b 0 i).2 j).2 = .bad := by
  rw [flipBit_syndrome_zero, flipBit_syndrome]
  refine decodeByte_even _ (xor_ne_zero fun h => hne (codeColumn_injective i hi j hj h).symm) ?_
  rw [oddWeight_xor, oddWeight_codeColumn i hi, oddWeight_codeColumn j hj]
  rfl

end

end Sys2Proof.Machine

open Sys2Proof Sys2Proof.Machine

/-- Settles O51: the check bits are a sum of columns, and two columns of odd weight sum to none. -/
theorem secDedCode : Obligations.SecDedCode := by
  unfold Obligations.SecDedCode
  refine ⟨rfl, by decide, fun b => ?rows, fun a b => foldl_checkStep_xor a b (List.range 8) 0 0, by decide, by decide, fun b i hi => ?flips,
    fun b => ⟨rfl, rfl, rfl, rfl⟩⟩
  case rows =>
    refine ⟨?_, ?_, ?_, ?_, ?_, foldl_checkStep_lt b (List.range 8) (by decide)⟩
    all_goals
      rw [testBit_checkBits]
      simp [List.range, List.range.loop, secdedCols, Nat.testBit_eq_decide_div_mod_eq]
  case flips => exact ⟨decodeByte_flip b hi, decodeByte_flip_poison b hi, fun j hj hne => decodeByte_flip_two b hi hj hne⟩

end

/-! ## O52: bytes at rest (R306, R307, R413, R416, R417) -/

section

namespace Sys2Proof.Machine

/-! ### Clean bytes -/

/-- Poison spreads from no clean byte. -/
theorem spread_clean (a : Nat) (d : List Byte) : spread a (clean d) = clean d := by
  have hnone : ((indexed (clean d)).filterMap fun e => if e.2.2 then some ((a + e.1) / 32) else none) = [] := by
    rw [List.filterMap_eq_nil_iff]
    intro e he
    obtain ⟨i, hi, rfl⟩ := List.mem_mapIdx.1 he
    simp [clean]
  unfold spread
  rw [hnone]
  refine List.ext_getElem ?_ fun i hi _ => ?_
  · simp [indexed]
  · simp [indexed, clean]

/-- The byte that is written for a byte in flight, and its syndrome (R417). -/
theorem restOf_fst (p : PByte) : (restOf p).1 = if p.2 then 0 else p.1 := apply_ite Prod.fst _ _ _
theorem restOf_snd (p : PByte) : (restOf p).2 = if p.2 then poisonSyn else 0 := apply_ite Prod.snd _ _ _

/-- Clean bytes written at rest read back from memory with syndrome 0. -/
theorem memWrites_clean_at (d : List Byte) (s : State) (a : Nat) {i : Nat} (h : i < d.length) :
    (memWrites (clean d) s a).mem.read (a + i) = d[i] ∧ (memWrites (clean d) s a).mem.syndrome (a + i) = 0 := by
  have hat := memWrites_at (clean d) s a i (by rwa [clean, List.length_map])
  simpa only [clean, List.getElem_map, restOf, Bool.false_eq_true, if_false] using hat

/-! ### A whole line of the slow tier (R306, R307) -/

/-- A whole line is one piece. -/
theorem linesOf_line {la : Nat} (h : la % 128 = 0) : linesOf la 128 = [(la, 0, 128)] := by
  simp [linesOf, pieces, h]

theorem memRead_line {la : Nat} (h : la % 128 = 0) (s : State) : (memRead s la 128).2 = (lineRead s la 0 128).2 := by
  simp only [memRead, linesOf_line h, List.foldl_cons, List.foldl_nil, List.nil_append]

theorem memWrite_line {la : Nat} (h : la % 128 = 0) (s : State) {l : List PByte} (hl : l.length = 128) :
    memWrite s la l = lineWrite s la 0 l := by
  simp only [memWrite, hl, linesOf_line h, List.foldl_cons, List.foldl_nil, List.take_of_length_le (Nat.le_of_eq hl)]

/-- A line whose bytes are clean is read as it stands. -/
theorem slowLine_clean {s : State} {la : Nat} (h : ∀ i < 128, s.mem.syndrome (la + i) = 0) :
    (slowLine s la 0).2 = (List.range 128).map fun i => (s.mem.read (la + i), false) := by
  have hdirty : slowDirty s la = false := by
    rw [slowDirty, List.any_eq_false]
    intro i hi
    simp only [h i (List.mem_range.1 hi), ne_eq, not_true_eq_false, decide_false, Bool.false_and, Bool.false_eq_true, not_false_eq_true]
  have hmem : (count s (slowBlk la) 0 1).mem = s.mem := mem_of_still (still_count ..)
  simp only [slowLine, hdirty, Bool.false_eq_true, and_false, if_false]
  rw [checkedReads_clean .qch (slowBlk la) 0 128 _ la (slowLoc la) (by rwa [hmem]), hmem]

section
variable {la : Nat} (hlo : slowBase ≤ la) (hhi : la < slowBase + 2 ^ 41)
include hlo hhi

/-- The slow tier's addresses lead to it. -/
theorem place_slow (s : State) : place s la = .slow (la - slowBase) := by
  unfold slowBase at hlo hhi
  rw [place, if_neg (by omega), if_neg (by omega), if_pos (by omega)]
  rfl

variable (hline : la % 128 = 0)
include hline

/-- A whole clean line goes to memory at rest, and the write is counted. -/
theorem memWrite_slow_line (s : State) {d : List Byte} (hd : d.length = 128) :
    memWrite s la (clean d) = memWrites (clean d) (count s (slowBlk la) 1 1) la := by
  have hl : (clean d).length = 128 := by rw [clean, List.length_map, hd]
  have hla : slowBase + (la - slowBase) + 0 = la := by rw [Nat.add_zero, Nat.add_sub_of_le hlo]
  have hgranule : la / 128 * 128 = la := by omega
  rw [memWrite_line hline s hl]
  simp only [lineWrite, place_slow hlo hhi, spread_clean, slowWrite, hl, if_true, hla, hgranule]

/-- A line of clean bytes at rest is read as it stands. -/
theorem memRead_slow_line {s : State} {d : List Byte} (hd : d.length = 128)
    (h : ∀ i (hi : i < d.length), s.mem.read (la + i) = d[i] ∧ s.mem.syndrome (la + i) = 0) : (memRead s la 128).2 = clean d := by
  have hbytes : (slowLine s la 0).2 = clean d := by
    rw [slowLine_clean fun i hi => (h i (hd ▸ hi)).2]
    refine List.ext_getElem (by simp [clean, hd]) fun i hi hi' => ?_
    simp [clean, (h i (by simpa [clean] using hi')).1]
  have hla : slowBase + (la - slowBase) = la := Nat.add_sub_of_le hlo
  have hall : (clean d).take 128 = clean d := List.take_of_length_le (by simp [clean, hd])
  rw [memRead_line hline]
  simp only [lineRead, place_slow hlo hhi, hla, hbytes, spread_clean, ceilDiv, Nat.reduceAdd, Nat.reduceSub, Nat.reduceDiv, Nat.reduceMul,
    List.drop_zero, hall]

/-- A whole line of clean data reads back as it was written. -/
theorem memRead_memWrite_slow_line (s : State) {d : List Byte} (hd : d.length = 128) :
    (memRead (memWrite s la (clean d)) la 128).2 = clean d := by
  rw [memWrite_slow_line hlo hhi hline s hd]
  exact memRead_slow_line hlo hhi hline hd fun i hi => memWrites_clean_at d _ la hi

end

end Sys2Proof.Machine

open Sys2Proof Sys2Proof.Machine

/-- Settles O52: a byte written reads back and every other one stays, and a clean line passes the slow tier's check unchanged. -/
theorem storesAtRest : Obligations.StoresAtRest := by
  unfold Obligations.StoresAtRest
  refine ⟨fun l s a => ⟨memWrites_frame l s a, fun i h => ?_, fun x h => memWrites_ne l s h, memWrites_wf l s a⟩, Mem.forget_wf,
    fun s off d hoff hline hd => ?_⟩
  · obtain ⟨hread, hsyn⟩ := memWrites_at l s a i h
    exact ⟨hread.trans (restOf_fst _), hsyn.trans (restOf_snd _)⟩
  · exact memRead_memWrite_slow_line (Nat.le_add_right slowBase off) (Nat.add_lt_add_left hoff slowBase) (by unfold slowBase; omega) s hd

end

/-! ## O32: injections and the beyond flag (R442, R443, R446, R447) -/

section

namespace Sys2Proof.Machine

/-! ### Injections (R447) -/

section
variable {s : State} {t kind : Nat} (f : State → State) (hbusy : injBusy s t = true) (hkind : injKind s t = kind)
include hbusy hkind

/-- An injection whose operands obey R447 takes its effect, is done and counts. -/
theorem injRun_performed (hok : injOk s t = true) :
    let o := brzBase t + 0x48
    injRun s t kind f = count (fset (fset (fset (f s) o 2 2 0) o 3 3 1) o 4 4 0) (brzBase t) 1 1 := by
  simp only [injRun, hbusy, hkind, and_self, if_true, hok, injDone, Bool.false_eq_true, if_false, b2n]

/-- Any other is done and refused. -/
theorem injRun_refused (hok : injOk s t = false) :
    let o := brzBase t + 0x48
    injRun s t kind f = fset (fset (fset s o 2 2 0) o 3 3 1) o 4 4 1 := by
  simp only [injRun, hbusy, hkind, and_self, if_true, hok, injDone, Bool.false_eq_true, if_false, b2n]

/-- The shape that the five rows of an injection share. -/
theorem finish_injRun :
    let o := brzBase t + 0x48
    let ended (u : State) (refused : Nat) : State := fset (fset (fset u o 2 2 0) o 3 3 1) o 4 4 refused
    (injOk s t = true → finish (injRun s t kind f) = .next (settle (count (ended (f s) 0) (brzBase t) 1 1))) ∧
    (injOk s t = false → finish (injRun s t kind f) = .next (settle (ended s 1))) :=
  ⟨fun hok => congrArg finish (injRun_performed f hbusy hkind hok), fun hok => congrArg finish (injRun_refused f hbusy hkind hok)⟩

end

/-! ### The beyond flag (R443, R446) -/

/-- The state once beyond holds c, the other fields of BRZ_CTL as they were. -/
def beyondPut (s : State) (t c : Nat) : State :=
  fset (fset s (brzBase t) 5 0 (fget s (brzBase t) 5 0)) (brzBase t) 32 32 c

/-- A value that repeats the enable bits makes none of them rise. -/
theorem enables_not_rising {v old : Nat} (h : bits v 5 0 = old) :
    ((List.range 6).any fun i => v.testBit i && !old.testBit i) = false := by
  rw [List.any_eq_false]
  intro i hi
  have hbit : old.testBit i = v.testBit i := by
    rw [← h, bits, Nat.testBit_mod_two_pow, Nat.shiftRight_zero, decide_eq_true (List.mem_range.1 hi), Bool.true_and]
  rw [hbit, Bool.and_not_self]
  exact Bool.false_ne_true

/-- A write of BRZ_CTL that keeps the enable bits and turns beyond over raises the notice of the change. -/
theorem brzCtl_turns {s : State} {t v c : Nat} (hon : brzOn s t = true) (hkeep : bits v 5 0 = fget s (brzBase t) 5 0)
    (hbeyond : bits v 32 32 = c) (hturn : fbit s (brzBase t) 32 = !decide (c % 2 = 1)) :
    brzCtl s t v = beyondNotice (beyondPut s t c) t (decide (c % 2 = 1)) := by
  have hnow : fbit (beyondPut s t c) (brzBase t) 32 = decide (c % 2 = 1) := fbit_fset_self _ _ (by decide) _
  unfold beyondPut at hnow ⊢
  simp only [brzCtl, hon, hkeep, hbeyond, enables_not_rising hkeep, hnow, hturn, Bool.not_true, Bool.false_eq_true, if_false, Bool.not_not,
    Bool.eq_not_self]

section
variable {s : State} {t : Nat} (hon : brzOn s t = true)
include hon

/-- Beyond is set by a write of 1 beside the enable bits. -/
theorem brzCtl_set (hclear : fbit s (brzBase t) 32 = false) :
    brzCtl s t (fget s (brzBase t) 5 0 + 2 ^ 32) = beyondNotice (beyondPut s t 1) t true := by
  have hlt : fget s (brzBase t) 5 0 < 64 := fget_lt s (brzBase t) 5 0
  refine brzCtl_turns hon ?_ ?_ hclear
  · simp only [bits]; omega
  · simp only [bits, Nat.shiftRight_eq_div_pow]; omega

/-- Beyond is cleared by a write of the enable bits alone. -/
theorem brzCtl_clear (hset : fbit s (brzBase t) 32 = true) :
    brzCtl s t (fget s (brzBase t) 5 0) = beyondNotice (beyondPut s t 0) t false := by
  have hlt : fget s (brzBase t) 5 0 < 64 := fget_lt s (brzBase t) 5 0
  refine brzCtl_turns hon ?_ ?_ hset
  · simp only [bits]; omega
  · simp only [bits, Nat.shiftRight_eq_div_pow]; omega

end

end Sys2Proof.Machine

open Sys2Proof Sys2Proof.Machine

/-- Settles O32: the five injections are one row over five changes, and each of the two beyond rows turns the flag over. -/
theorem bruiseRows : Obligations.BruiseRows := by
  unfold Obligations.BruiseRows
  refine ⟨?single, ?double, ?atRest, ?inFlight, ?parity, ?beyond⟩
  case single => exact fun tower s hbusy hkind => finish_injRun _ hbusy hkind
  case double => exact fun tower s hbusy hkind => finish_injRun _ hbusy hkind
  case atRest => exact fun tower s hbusy hkind => finish_injRun _ hbusy hkind
  case inFlight => exact fun tower s hbusy hkind => finish_injRun _ hbusy hkind
  case parity => exact fun tower s hbusy hkind => finish_injRun _ hbusy hkind
  case beyond =>
    intro who tower s t b put hright hserving hon
    have hguard : brzRight t who = true ∧ (!inReset s t) = true := ⟨hright, by rw [hserving]; rfl⟩
    refine ⟨fun hclear => ?_, fun hset => ?_⟩
    · exact (finish_of_guard hguard _ s).trans (congrArg finish (brzCtl_set hon hclear))
    · exact (finish_of_guard hguard _ s).trans (congrArg finish (brzCtl_clear hon hset))

end

/-! ## O33: bring-up, the pins and the training cache (R454 to R462, R492 to R494, R500) -/

section

namespace Sys2Proof.Machine

/-! ### Stages (R455 to R457) -/

section
variable {code : BitVec 8} {run : StageRun} {s : State} (hpower : s.boot.pwrgd = true) (hmode : bootMode s = 0)
  (hstage : fget s bootBase 15 8 = code.toNat) (hlast : code.toNat ≠ 0xF)
include hpower hmode hstage hlast

/-- The stage that is due is performed. -/
theorem exec_bringUpStage_due :
    let w := stageWork s code.toNat run
    let e := { w with boot := { w.boot with ended := code.toNat } }
    exec (.bringUpStage code run) s = .next (settle (if stageFault code.toNat run ≠ 0 then enterFault s (stageFault code.toNat run)
      else if bootMode e = 0 ∧ code.toNat ≠ 1 then setStage e (nextStage code.toNat) else e)) := by
  refine congrArg finish (if_neg ?_)
  simp [hpower, hmode, hstage, hlast]

/-- A stage without a fault does its work and ends; the next stage is due unless the work left the BOOT phase or the next stage is the host's. -/
theorem exec_bringUpStage_ends (hfault : stageFault code.toNat run = 0) :
    let w := stageWork s code.toNat run
    let e := { w with boot := { w.boot with ended := code.toNat } }
    exec (.bringUpStage code run) s =
      .next (settle (if bootMode e = 0 ∧ code.toNat ≠ 1 then setStage e (nextStage code.toNat) else e)) :=
  (exec_bringUpStage_due hpower hmode hstage hlast).trans (congrArg finish (if_neg (not_not.2 hfault)))

/-- A fault of R456 enters FAULT. -/
theorem exec_bringUpStage_fault (hfault : stageFault code.toNat run ≠ 0) :
    exec (.bringUpStage code run) s = .next (settle (enterFault s (stageFault code.toNat run))) :=
  (exec_bringUpStage_due hpower hmode hstage hlast).trans (congrArg finish (if_pos hfault))

end

/-! ### Frames (R493) -/

/-- The state with the pins in their BOOT functions. -/
def bootPins (s : State) : State := fset (fset s pipBase 5 4 1) pipBase 0 0 1

/-- The pins leave the phase as it is. -/
theorem bootMode_bootPins (s : State) : bootMode (bootPins s) = bootMode s :=
  (fget_fset_granule _ (by decide) ..).trans (fget_fset_granule _ (by decide) ..)

/-- A frame that is due drives PIP1 and sends its code: of the stage in the BOOT phase, else by whether an image is being processed. -/
theorem exec_progressFrame_due {s : State} (hpower : s.boot.pwrgd = true) (hdue : s.boot.frameAt ≤ s.now) (hmode : bootMode s < 2) :
    let f := sendFrame (drivePip1 (bootPins s) (bootMode s = 0 || rcvBusy s))
      (if bootMode s = 0 then fget s bootBase 15 8 else if rcvBusy s then 0xE1 else 0xE0)
    exec .progressFrame s = .next (settle { f with boot := { f.boot with frameAt := f.now + 1000000 } }) := by
  rw [← bootMode_bootPins s]
  refine (finish_of_guard ?_ _ s).trans ?_
  · simp only [hpower, hmode, hdue, decide_true, Bool.and_self]
  · rw [← bootMode_bootPins s]
    rfl

/-! ### The training cache (R462) -/

/-- The save under way ends. -/
theorem exec_trainingCacheSave {s : State} {k : Nat} (hsaving : s.boot.saving = some k) :
    exec .trainingCacheSave s = .next (settle (endSave s k)) := by
  simp only [exec, execTrainingCacheSave, hsaving, finish]

end Sys2Proof.Machine

open Sys2Proof Sys2Proof.Machine

/-- Settles O33: under the condition of its clause each row is past its guard. -/
theorem bringUpRows : Obligations.BringUpRows := by
  unfold Obligations.BringUpRows
  refine ⟨?rise, ?stage, ?endpoint, ?run, ?frame, ?pattern, ?pins, ?i3c, ?save, fun s => rfl⟩
  case rise =>
    intro straps s hpower
    exact congrArg finish (if_neg (Bool.eq_false_iff.1 hpower))
  case stage =>
    intro code run s c hpower hmode hstage hlast
    refine ⟨?ends, exec_bringUpStage_fault hpower hmode hstage hlast⟩
    intro hfault w e
    have hrow := exec_bringUpStage_ends hpower hmode hstage hlast hfault
    refine ⟨fun hboot hhost => hrow.trans (congrArg finish (if_pos ⟨hboot, hhost⟩)), fun hleft => hrow.trans (congrArg finish (if_neg ?_))⟩
    rintro ⟨hboot, hhost⟩
    exact hleft.elim (· hboot) hhost
  case endpoint =>
    intro s hpower hended hendpoint a
    refine finish_of_guard ?_ _ s
    simp only [hpower, hended, hendpoint, decide_true, Bool.not_false, Bool.and_self]
  case run =>
    intro s hpower hmode hended
    refine finish_of_guard ?_ _ s
    simp only [hpower, hmode, hended, decide_true, Bool.and_self]
  case frame =>
    intro s a timed hpower hdue
    refine ⟨fun hmode => ?_, fun hmode hbusy => ?_, fun hmode hbusy => ?_⟩
    · have hframe := exec_progressFrame_due hpower hdue (by omega)
      rwa [hmode] at hframe
    · have hframe := exec_progressFrame_due hpower hdue (by omega)
      rwa [hmode, hbusy] at hframe
    · have hframe := exec_progressFrame_due hpower hdue (by omega)
      rwa [hmode, hbusy] at hframe
  case pattern =>
    intro s f a hpower hmode hdue
    refine finish_of_guard ?_ _ s
    simp only [hpower, hmode, hdue, decide_true, Bool.and_self]
  case pins =>
    intro s hrun hpins hdue
    refine finish_of_guard ?_ _ s
    simp only [hrun, hpins, hdue, decide_true, Bool.not_false, Bool.and_self]
  case i3c =>
    intro s hrun hdue
    refine finish_of_guard ?_ _ s
    simp only [hrun, hdue, decide_true, Bool.and_self]
  case save => exact fun s k hsaving => exec_trainingCacheSave hsaving

end

/-! ## O34: recovery, update and the resets of endpoint and module (R468 to R470, R487, R488) -/

section

namespace Sys2Proof.Machine

section
variable {s : State} {first second : HostData} (hfirst : readWhole first (rcvLength s) = true)
  (hcheck : imageCheck s first.bytes (rcvLength s) = 0) (hsecond : readWhole second (rcvLength s) = true)
  (hdigest : shake256 64 second.bytes = shake256 64 first.bytes)
include hfirst hcheck hsecond hdigest

/-- An image that is read whole twice with one digest and passes every check is programmed, with result 1 (R468). -/
theorem rcvRun_programs :
    let u := readHost s ((regGet s (bootBase + 0x100)).toNat / 4096 * 4096) (rcvLength s)
    rcvRun s first second = ({ u with boot := { u.boot with slot := second.bytes } }, 1) := by
  simp only [rcvRun, hfirst, hcheck, hsecond, hdigest, Bool.not_true, Bool.false_eq_true, if_false, ne_eq, not_true_eq_false]

variable (hbusy : rcvBusy s = true) (hmaster : busMaster s = true)
include hbusy hmaster

/-- In recovery the image starts, and bring-up goes on from stage 0x03 (R469). -/
theorem recoveryLoad_programs (hpower : s.boot.pwrgd = true) (hmode : bootMode s = 1) :
    let u := readHost s ((regGet s (bootBase + 0x100)).toNat / 4096 * 4096) (rcvLength s)
    let v := rcvEnd { u with boot := { u.boot with slot := second.bytes } } 1
    let a := startImage (raiseSvn v (leAt first.bytes 22 1)) first.bytes
    recoveryLoad s first second = setStage (setMode_ { a with boot := { a.boot with fromRecovery := true } } 0) 3 := by
  simp only [recoveryLoad, rcvRun_programs hfirst hcheck hsecond hdigest, hbusy, hmaster, hpower, hmode, decide_true, Bool.and_self, if_true]

/-- In RUN the update is reported (R470). -/
theorem firmwareUpdate_programs (hrun : inRun s = true) :
    let u := readHost s ((regGet s (bootBase + 0x100)).toNat / 4096 * 4096) (rcvLength s)
    let a := raiseSvn (rcvEnd { u with boot := { u.boot with slot := second.bytes } } 1) (leAt first.bytes 22 1)
    firmwareUpdate s first second = updateNotice a 1 (leAt first.bytes 22 1) (a.boot.minSvn ≠ u.boot.minSvn) := by
  simp only [firmwareUpdate, rcvRun_programs hfirst hcheck hsecond hdigest, hbusy, hmaster, hrun, Bool.and_self, if_true]

end

end Sys2Proof.Machine

open Sys2Proof Sys2Proof.Machine

/-- Settles O34: a load of a good image runs to its end, and each reset is past its guard. -/
theorem resetAndUpdateRows : Obligations.ResetAndUpdateRows := by
  unfold Obligations.ResetAndUpdateRows
  refine ⟨?image, ?perst, ?hot, ?fall⟩
  case image =>
    intro first second s n u v svn hbusy hmaster hfirst hcheck hsecond hdigest
    refine ⟨fun hpower hmode => ?_, fun hrun => ?_⟩
    · exact congrArg finish (recoveryLoad_programs hfirst hcheck hsecond hdigest hbusy hmaster hpower hmode)
    · exact congrArg finish (firmwareUpdate_programs hfirst hcheck hsecond hdigest hbusy hmaster hrun)
  case perst =>
    intro s hpower hperst
    refine finish_of_guard ?_ _ s
    simp only [hpower, hperst, Bool.not_false, Bool.and_self]
  case hot =>
    intro s hpower hlink
    refine finish_of_guard ?_ _ s
    simp only [hpower, hlink, Bool.and_self]
  case fall =>
    intro s hpower a q b
    exact finish_of_guard hpower _ s

end

/-! ## O36: the I3C target (R496 to R498, R502) -/

section

namespace Sys2Proof.Machine

/-! ### Management transactions (R497) -/

section
variable {s : State} {a off : Nat} (hhere : i3cHere s a = true)
include hhere

/-- A management read of an aligned place of control space ends with its value. -/
theorem i3cRead_served {n : Nat} (hok : ctlOk s off n = true) :
    let r := ctlRead s (whoNum .i3c) off (n = 8)
    i3cRead s a off n = i3cEnd r.1 0 (leBytes n r.2) := by
  simp only [i3cRead, hhere, hok, Bool.not_true, Bool.false_eq_true, if_false]

/-- A read of any other place ends with status 1. -/
theorem i3cRead_refused {n : Nat} (hok : ctlOk s off n = false) : i3cRead s a off n = i3cEnd s 1 [] := by
  simp only [i3cRead, hhere, hok, Bool.not_true, Bool.not_false, Bool.false_eq_true, if_false, if_true]

/-- A management write reaches PIP_ALERT_STATUS and PIP_ALERT_MASK. -/
theorem i3cWrite_alert (data : Nat) (hoff : off = pipBase + 0x10 ∨ off = pipBase + 0x18) :
    let u := dropHold s (latchKey (whoNum .i3c) pipBase) off
    i3cWrite s a off data =
      i3cEnd (regPut u off (BitVec.ofNat 64 (fldsWrite (fldsPip (off - pipBase)) (regGet u off).toNat data))) 0 [] := by
  simp only [i3cWrite, hhere, if_pos hoff, Bool.not_true, Bool.false_eq_true, if_false]

/-- A write of any other register ends with status 1. -/
theorem i3cWrite_refused (data : Nat) (hstatus : off ≠ pipBase + 0x10) (hmask : off ≠ pipBase + 0x18) :
    i3cWrite s a off data = i3cEnd s 1 [] := by
  simp only [i3cWrite, hhere, hstatus, hmask, or_self, Bool.not_true, Bool.false_eq_true, if_false]

end

/-! ### Replies and interrupts (R497, R498) -/

/-- The reply that waits is given once. -/
theorem exec_privateRead_reply {s : State} {a : BitVec 7} {r : List Byte} (hhere : i3cHere s a.toNat = true) (hreply : s.pip.reply = some r) :
    exec (.privateRead a) s = .next (settle (emit { s with pip := { s.pip with reply := none } } (.i3c r))) := by
  simp only [exec, execPrivateRead, hreply]
  exact finish_of_guard hhere _ _

/-- An interrupt goes out for a masked bit not announced, and again after 10 ms. -/
theorem exec_inBandInterrupt_due {s : State} (hup : i3cUp s = true) (hassigned : i3cAssigned s = true) (henabled : fbit s pipBase 24 = true) :
    let m := fget s (pipBase + 0x10) 8 0 &&& fget s (pipBase + 0x18) 8 0
    m ≠ 0 → m &&& s.pip.ibiFor ≠ m ∨ s.pip.ibiAt + 10000000 ≤ s.now →
    exec .inBandInterrupt s = .next (settle (emit { s with pip := { s.pip with ibiAt := s.now, ibiFor := m } } .ibi)) := by
  intro m hm hdue
  refine finish_of_guard ?_ _ s
  simp only [Bool.and_eq_true, Bool.or_eq_true, decide_eq_true_eq]
  exact ⟨⟨⟨⟨hup, hassigned⟩, henabled⟩, hm⟩, hdue⟩

end Sys2Proof.Machine

open Sys2Proof Sys2Proof.Machine

/-- Settles O36: a target that is up takes every code, and those it answers only by an address once it has one. -/
theorem i3cRows : Obligations.I3cRows := by
  unfold Obligations.I3cRows
  intro s hup
  have hfree (h : i3cAssigned s = false) : (i3cUp s && !i3cAssigned s) = true := by rw [hup, h]; rfl
  have hanswers (h : i3cAssigned s = true) : (i3cUp s && i3cAssigned s) = true := by rw [hup, h]; rfl
  refine ⟨fun a h => finish_of_guard (hfree h) _ s, fun a h => ?setdasa, finish_of_guard hup _ s, finish_of_guard hup _ s,
    finish_of_guard hup _ s, fun h => ?codes, ?transactions, fun a r => exec_privateRead_reply, ?interrupt⟩
  case setdasa =>
    refine finish_of_guard ?_ _ _
    rw [hfree h]
    rfl
  case codes =>
    have hcode (f : State → State) : finish (i3cAnswer s f) = .next (settle (f s)) := finish_of_guard (hanswers h) _ _
    exact ⟨hcode _, hcode _, hcode _, hcode _, hcode _, hcode _, fun n => hcode _, fun n => hcode _⟩
  case transactions =>
    intro a off hhere bad r4 r8
    refine ⟨fun hok => ?_, fun hok => ?_, fun hok => ?_, fun hok => ?_, fun hstatus hmask => ⟨fun d => ?_, fun d => ?_⟩, ?alerts⟩
    · exact congrArg finish (i3cRead_served hhere hok)
    · exact congrArg finish (i3cRead_served hhere hok)
    · exact congrArg finish (i3cRead_refused hhere hok)
    · exact congrArg finish (i3cRead_refused hhere hok)
    · exact congrArg finish (i3cWrite_refused hhere d.toNat hstatus hmask)
    · exact congrArg finish (i3cWrite_refused hhere d.toNat hstatus hmask)
    case alerts =>
      intro hoff u v
      exact ⟨fun d => congrArg finish (i3cWrite_alert hhere d.toNat hoff), fun d => congrArg finish (i3cWrite_alert hhere d.toNat hoff)⟩
  case interrupt =>
    rintro m rfl hassigned henabled hm hdue
    exact exec_inBandInterrupt_due hup hassigned henabled hm hdue

end

/-! ## O43 and O45: a step takes the command in front, and every command answers -/

section

open Sys2Proof Sys2Proof.Machine

/-- Settles O43: with a command in front, a step is that command on the rest of the queue. -/
theorem stepRunsFront : Obligations.StepRunsFront := fun _ _ _ => rfl

end

section

namespace Sys2Proof.Machine

/-- An outcome that is a next state when the operands are good, and else the fault of a malformed operand. -/
def Answers (good : Bool) (o : Host.Outcome State Fault Refusal) : Prop :=
  (good = true → ∃ t, o = .next t) ∧ (good = false → ∃ name, o = .fault (.malformedOperand name))

/-- A command without a shape always answers. -/
theorem answers_finish (s : State) : Answers true (finish s) := ⟨fun _ => ⟨settle s, rfl⟩, nofun⟩

/-- A command with a shape answers when the shape is that of good operands. -/
theorem answers_shaped_eq {good ok : Bool} (h : ok = good) (name : String) (s : State) : Answers good (shaped ok name s) := by
  subst h
  exact ⟨fun hok => ⟨settle s, shaped_true hok⟩, fun hok => ⟨name, shaped_false hok⟩⟩

theorem answers_shaped_iff {good ok : Bool} (h : ok = true ↔ good = true) (name : String) (s : State) :
    Answers good (shaped ok name s) := answers_shaped_eq (Bool.eq_iff_iff.2 h) name s

/-- The shape is the command's own, whatever the state. -/
theorem answers_shaped (ok : Bool) (name : String) (s : State) : Answers (ok && true) (shaped ok name s) :=
  answers_shaped_eq (Bool.and_true ok).symm name s

/-- A KCI row takes the words that are spelled for it. -/
theorem answers_kci (o : KOp) (name : String) (i : Ins) (s : State) : Answers (spelled o i && true) (kci o name i s) :=
  answers_shaped (rowTakes o i) name (submit o i s)

/-! ### Shapes that the two sides write differently -/

theorem answers_mgang (tower : BitVec 4) (core : BitVec 9) (service : Bool) (found : List GangHit) (i : Ins) (s : State) :
    Answers ((if service then unitOk core else spelled .mgang i) && true) (execMgang tower core service found i s) := by
  cases service with
  | true => exact answers_shaped (unitOk core) _ _
  | false => exact answers_kci .mgang _ i s

/-- The bytes of an image fit the LOAD_PLAN that waits for them; without one nothing is asked of them. -/
theorem answers_planImageCopied (index : W32) (image : HostData) (s : State) :
    Answers (true && s.fits (.planImageCopied index image)) (execPlanImageCopied index image s) := by
  cases h : loadAt s index.toNat with
  | some a =>
    simp only [execPlanImageCopied, State.fits, h]
    exact answers_shaped_eq (Bool.true_and _).symm _ _
  | none =>
    simp only [execPlanImageCopied, State.fits, h]
    exact answers_finish s

theorem answers_replay (core : BitVec 12) (error : Option CoreErr) (s : State) :
    Answers (errorKnown error && true) (execReplay core error s) := by
  cases error with
  | some x => exact answers_shaped _ _ _
  | none => exact answers_shaped _ _ _

theorem answers_cntOvf (who : Who) (off : BitVec 31) (data : W64) (s : State) :
    Answers (isOverflowReg off.toNat && true) (execCntOvf who off data s) := by
  refine answers_shaped_eq ?_ _ _
  unfold isOverflowReg
  cases blkOf off.toNat with
  | some b => simp only [Bool.and_true, Bool.decide_and]
  | none => rfl

theorem unitCount_eq_unitsOf (kind : Nat) : unitCount kind = unitsOf kind := by
  match kind with
  | 0 | 1 | 2 | 3 | 4 | 5 | 6 => rfl
  | _ + 7 => rfl

theorem answers_stateProbe (u : UnitId) (answer : Identity) (s : State) :
    Answers (decide (u.idx < unitsOf u.kind.toNat) && true) (execStateProbe u answer s) := by
  rw [← unitCount_eq_unitsOf]
  exact answers_shaped _ _ _

theorem length_hostBytes (d : HostData) : (hostBytes d).length = arrivedLength d := List.length_mapIdx

theorem sameSubarray_iff (src dst : BitVec 18) : sameSubarray src dst = true ↔
    src.toNat < 147456 ∧ dst.toNat < 147456 ∧ sameSub src.toNat dst.toNat = true := by
  simp [sameSubarray, sameSub, and_assoc]

/-- Every command answers when its operands are well formed and fit the state, and ends in the fault otherwise. -/
theorem answers_exec (c : Instr) (s : State) : Answers (wellFormed c && s.fits c) (exec c s) := by
  cases c with
  -- KCI words.
  | add i | addi i | sub i | mul i | mulhu i | divu i | remu i | and i | or i | xor i | shl i | shr i | sar i | shi i | li i | lih i
  | cmp i | plog i | pmov i | ptos i | mfs i | ldp i | ld8 i | ld16 i | ld32 i | ld64 i | st8 i | st16 i | st32 i | st64 i | br i
  | bnzd i | jr i | vadd i | vsub i | vmul i | vfma i | vmax i | vmin i | vsfu i | vcmp i | vmov i | viadd i | vlogic i | vshift i
  | vcvt i | vcvtw i | vrsum i | vrmax i | vbcl i | vperm i | mpcfg i | mmask i | mwld i | mswap i | mmac i | mclr i | mst i | mrdv i
  | mlda i | vld i | vst i | movsv i | movvs i | dma i | dmar i | pref i | sig i | arrive i | wait i | commit i | attcmd i | pfxwalk i
  | rowop i | rowmodeEnter i | rowmodeExit i | coll i | rwake i | rsleep i => exact answers_kci _ _ i s
  | mgang tower core service found i => exact answers_mgang tower core service found i s
  -- A unit of a tower.
  | coreDiagnosis tower core pass bad0 bad1 => exact answers_shaped (unitOk core) _ _
  | arrBadCols who tower core arr data => exact answers_shaped (unitOk core) _ _
  | routerDead tower router atBringUp => exact answers_shaped (unitOk router) _ _
  | reduceAdd tower slice => exact answers_shaped (unitOk slice) _ _
  | rowanAnd tower chan | rowanOr tower chan | rowanXor tower chan | rowanNot tower chan | rowanMaj tower chan | rowanClone tower chan
  | fill0 tower chan | fill1 tower chan | normalRefresh tower chan | columnMigration tower chan => exact answers_shaped (unitOk chan) _ _
  | regeneration tower chan die bank want => exact answers_shaped (unitOk chan) _ _
  | maintenanceWindow tower chan bondFails fits => exact answers_shaped (unitOk chan) _ _
  | stateProbe u answer => exact answers_stateProbe u answer s
  | ceLogCtl who off data => exact answers_shaped (isLogControl off.toNat) _ _
  -- Lists and numbers that the sender makes.
  | commandEntryRead entry failed => exact answers_shaped _ _ _
  | flit link lanes => exact answers_shaped _ _ _
  | sensorSample tower readings => exact answers_shaped _ _ _
  | telemetryTick input volts phases => exact answers_shaped_iff (by simp [wellFormed, State.fits, and_assoc]) _ _
  | pcieLinkTraining rate width isFlit => exact answers_shaped_iff (by simp [wellFormed, State.fits]) _ _
  | bar2Resize log2 => exact answers_shaped_iff (by simp [wellFormed, State.fits]) _ _
  | bar2Access write off len be data => exact answers_shaped_iff (by simp [wellFormed, State.fits]; tauto) _ _
  | stepWideReplay cause tower idx => exact answers_shaped_iff (by simp [wellFormed, State.fits, unitOk]) _ _
  | rowanOrdinaryAccess write addr data =>
    exact answers_shaped_iff (by simp [wellFormed, State.fits, length_hostBytes]) _ _
  | lineClone tower chan src dst first n =>
    exact answers_shaped_iff (by simp [wellFormed, State.fits, sameSubarray_iff, chanOk, unitOk, and_assoc]) _ _
  | slowTierAccess write addr len data corr =>
    exact answers_shaped_iff (by simp [wellFormed, State.fits, length_hostBytes]) _ _
  | linkFailure link cause => exact answers_shaped_iff (by simp [wellFormed, State.fits]) _ _
  | phaseLoss tower domain phase => exact answers_shaped_iff (by simp [wellFormed, State.fits]) _ _
  | hopRetry tower router hop src dst flit => exact answers_shaped_iff (by simp [wellFormed, State.fits, unitOk, and_assoc]) _ _
  | cntOvf who off data => exact answers_cntOvf who off data s
  | replay core error => exact answers_replay core error s
  -- What the state has asked for.
  | planImageCopied index image => exact answers_planImageCopied index image s
  | copy src => exact answers_shaped_eq rfl _ _
  | setProfile record => exact answers_shaped_eq rfl _ _
  -- The others have no shape.
  | _ => exact answers_finish _

end Sys2Proof.Machine

open Sys2Proof Sys2Proof.Machine

/-- Settles O45: each command ends in `finish`, or in `shaped` with the shape of good operands. -/
theorem everyCommandAnswers : Obligations.EveryCommandAnswers := by
  unfold Obligations.EveryCommandAnswers
  intro c s
  obtain ⟨hgood, hbad⟩ := answers_exec c s
  refine ⟨fun hform hfits => hgood (by rw [hform, hfits]; rfl), fun h => hbad ?_⟩
  rw [Bool.and_eq_false_iff]
  exact h

end
